-- ==== Sys2Proof/Word.lean ====
section
/-!
DEFINITION. The word types of Kwaell and their plainest arithmetic (00_scope.md R6, R7).
-/
namespace Sys2Proof

/-- One byte. -/
abbrev Byte := BitVec 8
/-- One instruction word, one scalar register, one lane of one vector register (R7, R18). -/
abbrev Word := BitVec 32
/-- A 64-bit quantity: a register pair, a virtual address, one word of a split-table entry. -/
abbrev DWord := BitVec 64
/-- A word address in instruction memory (R100). -/
abbrev CodeAddr := BitVec 17
/-- One bit for each lane of a wave (R15). -/
abbrev Lanes := BitVec 64
/-- One bit for each quad of a wave (R27). -/
abbrev Quads := BitVec 16

/-- Bits `[lo + w - 1 : lo]` of `x` (R6). -/
abbrev bits {n : Nat} (x : BitVec n) (lo w : Nat) : BitVec w := x.extractLsb' lo w

/-- Bit `i` of `x`. -/
abbrev bitAt {n : Nat} (x : BitVec n) (i : Nat) : Bool := x.getLsbD i

/-- The natural number of bits `[lo + w - 1 : lo]` of `x`. -/
def field {n : Nat} (x : BitVec n) (lo w : Nat) : Nat := x.toNat / 2 ^ lo % 2 ^ w

/-- The bit vector of width `w` that holds `1` at `lo` and `0` elsewhere when `b` holds. -/
def bitIf (w : Nat) (b : Bool) (lo : Nat) : BitVec w := if b then BitVec.ofNat w (2 ^ lo) else 0

/-- The natural value `v` placed at bit `lo` of a vector of width `w`. -/
def place (w : Nat) (v lo : Nat) : BitVec w := BitVec.ofNat w (v * 2 ^ lo)

/-- Low and high words of a pair (R20: bits [31:0] in the even register). -/
def lo32 (x : DWord) : Word := bits x 0 32
/-- The high word of a pair. -/
def hi32 (x : DWord) : Word := bits x 32 32
/-- The 64-bit value of a pair from its even and odd registers. -/
def pair64 (lo hi : Word) : DWord := hi ++ lo

/-- The bytes of `x`, lowest address first (R7): `n` of them. -/
def toBytes (n : Nat) (x : Nat) : List Byte :=
  (List.range n).map fun i => BitVec.ofNat 8 (x / 2 ^ (8 * i))

/-- The number whose bytes, lowest address first, are `bs` (R7). -/
def ofBytes : List Byte → Nat
  | [] => 0
  | b :: bs => b.toNat + 256 * ofBytes bs

/-- The lanes of a mask, in ascending order (R10). -/
def lanesOf (m : Lanes) : List Nat := (List.range 64).filter fun l => bitAt m l

/-- The quads of a mask, in ascending order. -/
def quadsOf (q : Quads) : List Nat := (List.range 16).filter fun i => bitAt q i

/-- The mask of a list of lanes. -/
def laneMask (ls : List Nat) : Lanes := ls.foldl (fun m l => m ||| BitVec.ofNat 64 (2 ^ l)) 0

/-- The mask of a list of quads. -/
def quadMask (qs : List Nat) : Quads := qs.foldl (fun m q => m ||| BitVec.ofNat 16 (2 ^ q)) 0

/-- The lanes of the quads of `q` (R15: lane l is in quad l div 4). -/
def lanesOfQuads (q : Quads) : Lanes := laneMask ((List.range 64).filter fun l => bitAt q (l / 4))

/-- The lowest set bit of a quad mask; 16 when there is none. -/
def lowQuad (q : Quads) : Nat := ((List.range 16).find? fun i => bitAt q i).getD 16

/-- The number of set bits among the low `n`. -/
def popN (n : Nat) (x : Nat) : Nat := ((List.range n).filter fun i => x.testBit i).length

/-- Insertion of `x` before the first element that it must precede. -/
def insertBy {α : Type} (le : α → α → Bool) (x : α) : List α → List α
  | [] => [x]
  | y :: ys => if le x y then x :: y :: ys else y :: insertBy le x ys

/-- A stable sort. -/
def sortBy {α : Type} (le : α → α → Bool) (xs : List α) : List α := xs.foldr (insertBy le) []

/-- Replaces the first element that satisfies `p`. -/
def modifyFirst {α : Type} (p : α → Bool) (f : α → α) : List α → List α
  | [] => []
  | x :: xs => if p x then f x :: xs else x :: modifyFirst p f xs

/-- Removes the first element that satisfies `p`. -/
def removeFirst {α : Type} (p : α → Bool) : List α → List α
  | [] => []
  | x :: xs => if p x then xs else x :: removeFirst p xs

/-- Applies `f` to the element at index `i`. -/
def modifyAt {α : Type} (i : Nat) (f : α → α) : List α → List α
  | [] => []
  | x :: xs => match i with
    | 0 => f x :: xs
    | i + 1 => x :: modifyAt i f xs

end Sys2Proof
end

