-- ==== Sys2Proof/Config.lean ====
section
/-!
DEFINITION. What an implementation fixes and the free values: constants without a body, so that nothing can be proved of
the value they take (log 2). Each is applied to the operands it depends on, or to the counter `State.fresh`.
-/
namespace Sys2Proof

/-- The 16 random bits g of one stochastic rounding (R57). -/
opaque Config.randomBits : Nat → BitVec 16
/-- A free choice among allowed orders, steps and lanes (R127, R207, R338). -/
opaque Config.choice : Nat → Nat
/-- A free choice for one item among several that share a counter value: a page, a lane, a tile (R433, R435). -/
opaque Config.pick : Nat → Nat → Nat
/-- A value that the spec leaves unspecified (R222, R227). -/
opaque Config.anyBits : Nat → DWord
/-- The bits an implementation gives for special function `op` on an input, before they are held to R59's bound. -/
opaque Config.special : Nat → Nat → Nat → Nat
/-- SHAKE256 truncated to 64 bytes (R467, R468): the spec names the function and does not give it. -/
opaque Config.shake256 : List Byte → List Byte
/-- Falcon-1024 verification of a signature over a digest under the fused key (R467). -/
opaque Config.falconVerify : List Byte → List Byte → Bool
/-- The stepping of the chip (R437), and the words of its PCIe configuration space, by the index of the read. -/
opaque Config.stepping : BitVec 8
/-- Configuration space reads. -/
opaque Config.configSpace : Nat → Word
/-- The span hops between this module and a node (R347). -/
opaque Config.hops : Nat → Nat
/-- The row of a line in its memory device (R478). -/
opaque Config.rowOf : Nat → Nat
/-- The attestation signature over bytes 0 to 319 (R473). -/
opaque Config.falconSign : List Byte → List Byte
/-- The attestation public key and its certificate (R472). -/
opaque Config.attestationKey : List Byte
/-- The attestation key's certificate. -/
opaque Config.attestationCert : List Byte
/-- A component of a TSMP whose result the spec does not state, by the descriptor, the operands and the component (R78, R289). -/
opaque Config.texOpen : List Byte → List Nat → Nat → BitVec 32
/-- MVTX keeps attributes 0 to 3 in the attribute pass too: R270 says so, R349 that it does not. -/
opaque Config.keepsPosition : Bool
/-- The hash that spreads 256-byte units over the 32 memory devices (R327). -/
opaque Config.deviceOf : Nat → Nat
/-- The set of a line in an L1 (R314). -/
opaque Config.setOf : Nat → Nat
/-- The function that the owner tag of a line names that the fabric, or the device itself, filled (R489). -/
opaque Config.fabricTag : BitVec 6
/-- Grains attributed to a group's activity, by the firmware-calibrated weights (R496, R497). -/
opaque Config.grainsOf : Nat → Nat

end Sys2Proof
end

