-- ==== Sys2Proof/Syntax.lean ====
section
/-!
DEFINITION. The instructions of Kwaell and the steps of the device: one constructor for each row of the opcode table.
An encoded instruction carries its operand fields as the word holds them, and the words of its bundle that attach to it:
`h` a wide-immediate hint's payload, `x` a branch extension, `p` a prefix word (R101). An event of the device carries what
tells one occurrence from another, and an observation that comes from outside the model (log 3).
-/
namespace Sys2Proof

/-- The fields of a prefix word (R116): predicate mask, rounding, FTZ, SAT, Z, type override, fourth operand, negate and
absolute value of the two sources. -/
structure Pfx where
  pm : BitVec 4
  rnd : BitVec 3
  ftz : Bool
  sat : Bool
  z : Bool
  ty : BitVec 5
  fop : BitVec 7
  na : Bool
  aa : Bool
  nb : Bool
  ab : Bool
  deriving DecidableEq, Repr

/-- The all-zero prefix: what an instruction without a prefix behaves as (R118). -/
def Pfx.zero : Pfx := ⟨0, 0, false, false, false, 0, 0, false, false, false, false⟩

/-- The payload of a branch-extension hint (R123). -/
structure BExt where
  tx : BitVec 6
  jx : BitVec 6
  deriving DecidableEq, Repr

/-- Who issues an instruction: the part in a split-table entry of a wave, or with `none` the wave's handler part (R409). -/
structure Issuer where
  wid : Nat
  ent : Option Nat
  deriving DecidableEq, Repr

/-- The PCIe AtomicOps (R216). -/
inductive AtomOp
  | fetchAdd
  | swap
  | cas
  deriving DecidableEq, Repr

/-- A request of another module over the span fabric (R443), with the physical address it names. -/
inductive Remote
  /-- A read of `n` bytes. -/
  | load (addr n : Nat)
  /-- A write. -/
  | store (addr : Nat) (data : List Byte)
  /-- An atomic of `n` bytes: op as in MOD (R214), type code, operand and compare value. -/
  | atomic (addr n : Nat) (op ty : Nat) (x y : DWord)
  /-- A VARED on an element of `n` bytes. -/
  | reduce (addr n : Nat) (op ty : Nat) (x : DWord)
  /-- A DISC of `n` bytes. -/
  | disc (addr n : Nat)
  /-- Module `node` watches the line of an address from now on, or no longer. -/
  | watch (node addr : Nat) (on : Bool)
  /-- A wake-up from the slice of another module: a write to the line of `addr`, or with `page` to its page (R238, R443). -/
  | wake (addr : Nat) (page : Bool)
  /-- Another module refuses requests to the 4 KiB page of an address from now on, with the SUB that it gives; 0 ends it (R445). -/
  | refuse (addr sub : Nat)
  /-- A node answers again, after a FABRIC_TIMEOUT (R444). -/
  | answers (node : Nat)
  /-- A write that has performed at the home of its line on another module, or in host memory: what this module reads there from now on
  (R346, R443). -/
  | elsewhere (addr : Nat) (data : List Byte)
  deriving DecidableEq, Repr

/-- A bit of an Easel sum or product that flips while an MMA runs (R480): the target tile, row, column and K-group; with `stip` the place of a
Stipple product in the K-group, else the integer partial; the bit, and whether it falls. -/
structure Upset where
  tile : Nat
  row : Nat
  col : Nat
  step : Nat
  stip : Option Nat
  bit : Nat
  down : Bool
  deriving DecidableEq, Repr

/-- What the self-test finds (R469). -/
inductive Defect
  /-- A failing row of an SRAM macro; `spare` when a spare row takes its place. -/
  | sram (macroIx : Nat) (spare : Bool)
  /-- A failing physical core. -/
  | core (phys : Nat)
  /-- A failing slice. -/
  | slice (slice : Nat)
  /-- A failing lane of a span port. -/
  | lane (port : Nat)
  /-- A failing GDDR-7 device. -/
  | device (dev : Nat)
  /-- A span port without a link partner. -/
  | unlinked (port : Nat)
  /-- A span port whose partner answers, and which cannot train. -/
  | port (port : Nat)
  deriving DecidableEq, Repr

/-- What a scrubber's read of an SRAM row shows (R474, R476). -/
inductive Scrub
  | clean
  /-- A corrected error of a core's SRAM, or with 64 of the base die: macro class, row. -/
  | corrected (core macroIx row : Nat)
  /-- A parity error in a line of a cache, core c or 64 + c for its fetch-unit cache, which is fetched again. -/
  | refetched (cache line : Nat)
  /-- A corrected error of an LLC slice; an uncorrectable error in its directory (R483). -/
  | sliceCorrected (slice : Nat)
  | directory (slice : Nat)
  /-- An uncorrectable error in the palette of a core: row, byte offset. -/
  | palette (core row off : Nat)
  /-- In an accumulator tile, in a canvas. -/
  | tile (core row t : Nat)
  | canvas (core row k : Nat)
  /-- In a line of a core's L1 or fetch-unit cache that this core has written: the line's storage key. -/
  | l1 (core row key : Nat)
  /-- In data of a line of an LLC slice. -/
  | line (slice key : Nat)
  /-- In the state of a wave, of macro class 1 or 2. -/
  | wave (wid macroIx row : Nat)
  /-- In base-die directory, arbiter or dispatcher state: the unit code of R475. -/
  | baseDie (unit : Nat)
  deriving DecidableEq, Repr

/-- What a scrub of a GDDR-7 line shows (R478). -/
inductive LineState
  | clean
  | corrected
  | uncorrectable
  /-- The device of the line fails retraining (R479). -/
  | retrainFailed
  deriving DecidableEq, Repr

/-- A flit of a lane of a span port that fails its check, `since` flits after the one before it on that lane (R484). -/
structure LaneFlit where
  lane : Nat
  since : Nat
  deriving DecidableEq, Repr

/-- A PCIe configuration request (R466, R470). -/
inductive ConfigReq
  | read
  | writeVfEnable (on : Bool)
  | writeOther
  deriving DecidableEq, Repr

/-- The instructions and events. -/
inductive Instr
  /-- RET (R147). -/
  | ret (a : BitVec 6)
  /-- TRAP (R169). -/
  | trap (c : BitVec 14)
  /-- SRD (R168). -/
  | srd (d : BitVec 7) (n : BitVec 13)
  /-- SWR (R168). -/
  | swr (a : BitVec 7) (n : BitVec 13)
  /-- SPLRD (R171). -/
  | splrd (d : BitVec 5) (e : BitVec 4) (w : BitVec 2)
  /-- SPLWR (R171). -/
  | splwr (a : BitVec 5) (e : BitVec 4) (w : BitVec 2)
  /-- CFETCH (R155). -/
  | cfetch (a : BitVec 5) (s : BitVec 7)
  /-- CWAIT (R157). -/
  | cwait (s : BitVec 7)
  /-- RGN_ENTER (R172). -/
  | rgnEnter (i : BitVec 14)
  /-- RGN_LEAVE (R172). -/
  | rgnLeave (i : BitVec 14)
  /-- PROG (R173). -/
  | prog (i : BitVec 14)
  /-- BKPT (R174). -/
  | bkpt (c : BitVec 14)
  /-- SLEEP (R175). -/
  | sleep (a : BitVec 6)
  /-- EVSIG (R176). -/
  | evsig (a : BitVec 6) (q : BitVec 4)
  /-- FENCE (R223). -/
  | fence (k : BitVec 4) (s : BitVec 3)
  /-- BAR (R229). -/
  | bar (b : BitVec 5)
  /-- BARX (R228). -/
  | barx (a : BitVec 6) (b : BitVec 5)
  /-- BART (R231). -/
  | bart (d : BitVec 6) (b : BitVec 5)
  /-- CBAR (R233). -/
  | cbar (k : BitVec 4)
  /-- MON (R234). -/
  | mon (a : BitVec 5) (n : BitVec 2)
  /-- MONW (R236). -/
  | monw (a : BitVec 6)
  /-- MONW_G (R237). -/
  | monwG (a : BitVec 6)
  /-- MONC (R239). -/
  | monc (n : BitVec 2)
  /-- CPYA (R225). -/
  | cpya (a : BitVec 4) (b : BitVec 5)
  /-- BRA (R147). -/
  | bra (o : BitVec 12) (x : Option BExt)
  /-- BRC (R147). -/
  | brc (c : BitVec 4) (s : BitVec 7) (o : BitVec 12) (x : Option BExt)
  /-- CALL (R147). -/
  | call (d : BitVec 6) (o : BitVec 12) (x : Option BExt)
  /-- JMPF (R158). -/
  | jmpf (s : BitVec 7) (o : BitVec 10)
  /-- BRD (R150). -/
  | brd (k : BitVec 4) (t j : BitVec 11) (x : Option BExt)
  /-- WIDE_IMMEDIATE_HINT (R122). -/
  | wideImmediateHint (w : BitVec 24)
  /-- BRANCH_EXTENSION_HINT (R123). -/
  | branchExtensionHint (t j : BitVec 6)
  /-- HINT_YIELD (R162). -/
  | hintYield (n : BitVec 8)
  /-- DICT (R130). -/
  | dict (i j : BitVec 10)
  /-- SADD (R164). -/
  | sadd (d a b : BitVec 6)
  /-- SSUB (R164). -/
  | ssub (d a b : BitVec 6)
  /-- SMUL (R164). -/
  | smul (d a b : BitVec 6)
  /-- SMULH (R164). -/
  | smulh (d a b : BitVec 6)
  /-- SMULH_N32 (R164). -/
  | smulhN32 (d a b : BitVec 6)
  /-- SAND (R164). -/
  | sand (d a b : BitVec 6)
  /-- SOR (R164). -/
  | sor (d a b : BitVec 6)
  /-- SXOR (R164). -/
  | sxor (d a b : BitVec 6)
  /-- SSHL (R164). -/
  | sshl (d a b : BitVec 6)
  /-- SSHR (R164). -/
  | sshr (d a b : BitVec 6)
  /-- SSRA (R164). -/
  | ssra (d a b : BitVec 6)
  /-- SMIN (R164). -/
  | smin (d a b : BitVec 6)
  /-- SMIN_N32 (R164). -/
  | sminN32 (d a b : BitVec 6)
  /-- SMAX (R164). -/
  | smax (d a b : BitVec 6)
  /-- SMAX_N32 (R164). -/
  | smaxN32 (d a b : BitVec 6)
  /-- SMOV (R164). -/
  | smov (d a : BitVec 6)
  /-- SSEL (R164). -/
  | ssel (d a b : BitVec 6)
  /-- SCMP_EQ (R164). -/
  | scmpEq (d a b : BitVec 6)
  /-- SCMP_NE (R164). -/
  | scmpNe (d a b : BitVec 6)
  /-- SCMP_LT (R164). -/
  | scmpLt (d a b : BitVec 6)
  /-- SCMP_LE (R164). -/
  | scmpLe (d a b : BitVec 6)
  /-- SCMP_LT_N32 (R164). -/
  | scmpLtN32 (d a b : BitVec 6)
  /-- SCMP_LE_N32 (R164). -/
  | scmpLeN32 (d a b : BitVec 6)
  /-- SADD_B64 (R164). -/
  | saddB64 (d a b : BitVec 5)
  /-- SSUB_B64 (R164). -/
  | ssubB64 (d a b : BitVec 5)
  /-- SMOV_B64 (R164). -/
  | smovB64 (d a : BitVec 5)
  /-- SSHL_IMM (R164). -/
  | sshlImm (d a : BitVec 6) (n : BitVec 5)
  /-- SSHR_IMM (R164). -/
  | sshrImm (d a : BitVec 6) (n : BitVec 5)
  /-- SSRA_IMM (R164). -/
  | ssraImm (d a : BitVec 6) (n : BitVec 5)
  /-- SADD_IMM (R164). -/
  | saddImm (d a : BitVec 6) (i : BitVec 12) (h : Option (BitVec 24))
  /-- SLI (R164). -/
  | sli (d : BitVec 6) (i : BitVec 12) (h : Option (BitVec 24))
  /-- SAND_IMM (R164). -/
  | sandImm (d a : BitVec 6) (i : BitVec 12) (h : Option (BitVec 24))
  /-- SOR_IMM (R164). -/
  | sorImm (d a : BitVec 6) (i : BitVec 12) (h : Option (BitVec 24))
  /-- SXOR_IMM (R164). -/
  | sxorImm (d a : BitVec 6) (i : BitVec 12) (h : Option (BitVec 24))
  /-- SLD (R166). -/
  | sld (d : BitVec 6) (b : BitVec 5) (l : BitVec 4) (m : BitVec 1) (h : Option (BitVec 24))
  /-- SST (R166). -/
  | sst (d : BitVec 6) (b : BitVec 5) (m : BitVec 1) (h : Option (BitVec 24))
  /-- VADD (R181). -/
  | vadd (t : BitVec 2) (d a b : BitVec 7) (p : Option Pfx)
  /-- VSUB (R181). -/
  | vsub (t : BitVec 2) (d a b : BitVec 7) (p : Option Pfx)
  /-- VMUL (R181). -/
  | vmul (t : BitVec 2) (d a b : BitVec 7) (p : Option Pfx)
  /-- VFMA (R181). -/
  | vfma (t : BitVec 2) (d a b : BitVec 7) (p : Option Pfx)
  /-- VFMS (R181). -/
  | vfms (t : BitVec 2) (d a b : BitVec 7) (p : Option Pfx)
  /-- VMIN (R182). -/
  | vmin (t : BitVec 2) (d a b : BitVec 7) (p : Option Pfx)
  /-- VMAX (R182). -/
  | vmax (t : BitVec 2) (d a b : BitVec 7) (p : Option Pfx)
  /-- VRND (R183). -/
  | vrnd (t : BitVec 2) (d a : BitVec 7) (p : Option Pfx)
  /-- VCMP_F (R191). -/
  | vcmpF (t : BitVec 2) (d : BitVec 4) (a b : BitVec 7) (c : BitVec 3) (p : Option Pfx)
  /-- VRCP (R184). -/
  | vrcp (t : BitVec 1) (d a : BitVec 7) (l : BitVec 4) (p : Option Pfx)
  /-- VRSQ (R184). -/
  | vrsq (t : BitVec 1) (d a : BitVec 7) (l : BitVec 4) (p : Option Pfx)
  /-- VSQRT (R184). -/
  | vsqrt (t : BitVec 1) (d a : BitVec 7) (l : BitVec 4) (p : Option Pfx)
  /-- VEXP2 (R184). -/
  | vexp2 (t : BitVec 1) (d a : BitVec 7) (l : BitVec 4) (p : Option Pfx)
  /-- VLOG2 (R184). -/
  | vlog2 (t : BitVec 1) (d a : BitVec 7) (l : BitVec 4) (p : Option Pfx)
  /-- VSIN (R184). -/
  | vsin (t : BitVec 1) (d a : BitVec 7) (l : BitVec 4) (p : Option Pfx)
  /-- VCOS (R184). -/
  | vcos (t : BitVec 1) (d a : BitVec 7) (l : BitVec 4) (p : Option Pfx)
  /-- VTANH (R184). -/
  | vtanh (t : BitVec 1) (d a : BitVec 7) (l : BitVec 4) (p : Option Pfx)
  /-- VIADD (R185). -/
  | viadd (t : BitVec 2) (d a b : BitVec 7) (p : Option Pfx)
  /-- VISUB (R185). -/
  | visub (t : BitVec 2) (d a b : BitVec 7) (p : Option Pfx)
  /-- VIMUL (R185). -/
  | vimul (t : BitVec 2) (d a b : BitVec 7) (p : Option Pfx)
  /-- VIMULH (R185). -/
  | vimulh (t : BitVec 2) (d a b : BitVec 7) (p : Option Pfx)
  /-- VIMAD (R185). -/
  | vimad (t : BitVec 2) (d a b : BitVec 7) (p : Option Pfx)
  /-- VIMIN (R185). -/
  | vimin (t : BitVec 2) (d a b : BitVec 7) (p : Option Pfx)
  /-- VIMAX (R185). -/
  | vimax (t : BitVec 2) (d a b : BitVec 7) (p : Option Pfx)
  /-- VSHL (R187). -/
  | vshl (t : BitVec 2) (d a b : BitVec 7) (p : Option Pfx)
  /-- VSHR (R187). -/
  | vshr (t : BitVec 2) (d a b : BitVec 7) (p : Option Pfx)
  /-- VSRA (R187). -/
  | vsra (t : BitVec 2) (d a b : BitVec 7) (p : Option Pfx)
  /-- VBFE (R188). -/
  | vbfe (t : BitVec 2) (d a b : BitVec 7) (p : Option Pfx)
  /-- VBFI (R188). -/
  | vbfi (t : BitVec 2) (d a b : BitVec 7) (p : Option Pfx)
  /-- VPOPC (R189). -/
  | vpopc (t : BitVec 2) (d a : BitVec 7) (p : Option Pfx)
  /-- VCLZ (R189). -/
  | vclz (t : BitVec 2) (d a : BitVec 7) (p : Option Pfx)
  /-- VDOT4 (R190). -/
  | vdot4 (d a b : BitVec 7) (p : Option Pfx)
  /-- VCMP_I (R191). -/
  | vcmpI (t : BitVec 2) (d : BitVec 4) (a b : BitVec 7) (c : BitVec 3) (p : Option Pfx)
  /-- VIADD_IMM (R186). -/
  | viaddImm (d a : BitVec 7) (i : BitVec 12) (h : Option (BitVec 24)) (p : Option Pfx)
  /-- VMOVI (R186). -/
  | vmovi (d : BitVec 7) (i : BitVec 12) (h : Option (BitVec 24)) (p : Option Pfx)
  /-- VAND (R192). -/
  | vand (d a b : BitVec 7) (p : Option Pfx)
  /-- VOR (R192). -/
  | vor (d a b : BitVec 7) (p : Option Pfx)
  /-- VXOR (R192). -/
  | vxor (d a b : BitVec 7) (p : Option Pfx)
  /-- VNOT (R192). -/
  | vnot (d a : BitVec 7) (p : Option Pfx)
  /-- VMOV (R192). -/
  | vmov (d a : BitVec 7) (p : Option Pfx)
  /-- VSEL (R192). -/
  | vsel (d a b : BitVec 7) (k : BitVec 4) (p : Option Pfx)
  /-- VCVT (R194). -/
  | vcvt (d a : BitVec 7) (s f : BitVec 5) (p : Option Pfx)
  /-- VPACK (R195). -/
  | vpack (d a b : BitVec 7) (f : BitVec 5) (p : Option Pfx)
  /-- VUNPK (R196). -/
  | vunpk (d a : BitVec 7) (s : BitVec 5) (i : BitVec 2) (f : BitVec 5) (p : Option Pfx)
  /-- VSHFL (R199). -/
  | vshfl (d a b : BitVec 7) (w : BitVec 3) (g : BitVec 1) (p : Option Pfx)
  /-- VBCST (R199). -/
  | vbcst (d a b : BitVec 7) (w : BitVec 3) (g : BitVec 1) (p : Option Pfx)
  /-- WRED (R202). -/
  | wred (d a : BitVec 7) (o w : BitVec 3) (p : Option Pfx)
  /-- WSCAN (R202). -/
  | wscan (d a : BitVec 7) (o : BitVec 3) (e : BitVec 1) (w : BitVec 3) (p : Option Pfx)
  /-- VBALLOT (R200). -/
  | vballot (d : BitVec 5) (a : BitVec 4) (w : BitVec 3) (p : Option Pfx)
  /-- VCONF (R201). -/
  | vconf (d : BitVec 4) (a : BitVec 7) (w : BitVec 3) (p : Option Pfx)
  /-- MAND (R203). -/
  | mand (d a b : BitVec 4)
  /-- MOR (R203). -/
  | mor (d a b : BitVec 4)
  /-- MXOR (R203). -/
  | mxor (d a b : BitVec 4)
  /-- MNOT (R203). -/
  | mnot (d a : BitVec 4)
  /-- MPOPC (R203). -/
  | mpopc (d : BitVec 6) (a : BitVec 4)
  /-- MFFS (R203). -/
  | mffs (d : BitVec 6) (a : BitVec 4)
  /-- MMOV_MM (R203). -/
  | mmovMm (d a : BitVec 4)
  /-- MMOV_MS (R203). -/
  | mmovMs (d : BitVec 5) (a : BitVec 4)
  /-- MMOV_SM (R203). -/
  | mmovSm (d : BitVec 4) (a : BitVec 5)
  /-- VLD (R209). -/
  | vld (d : BitVec 7) (b : BitVec 5) (v : BitVec 7) (l : BitVec 4) (m : BitVec 3) (h : Option (BitVec 24)) (p : Option Pfx)
  /-- VLD_ACQ (R210). -/
  | vldAcq (d : BitVec 7) (b : BitVec 5) (v : BitVec 7) (l : BitVec 4) (s : BitVec 3) (h : Option (BitVec 24)) (p : Option Pfx)
  /-- VST (R209). -/
  | vst (d : BitVec 7) (b : BitVec 5) (v : BitVec 7) (m : BitVec 3) (h : Option (BitVec 24)) (p : Option Pfx)
  /-- VST_REL (R210). -/
  | vstRel (d : BitVec 7) (b : BitVec 5) (v : BitVec 7) (s : BitVec 3) (h : Option (BitVec 24)) (p : Option Pfx)
  /-- VLDP (R212). -/
  | vldp (d v : BitVec 7) (l : BitVec 4) (m : BitVec 3) (h : Option (BitVec 24)) (p : Option Pfx)
  /-- VSTP (R212). -/
  | vstp (d v : BitVec 7) (m : BitVec 3) (h : Option (BitVec 24)) (p : Option Pfx)
  /-- VATOM (R214). -/
  | vatom (d : BitVec 7) (b : BitVec 5) (v : BitVec 7) (l : BitVec 4) (o : BitVec 3) (h : Option (BitVec 24)) (p : Option Pfx)
  /-- VATOM_NEAR (R214). -/
  | vatomNear (d : BitVec 7) (b : BitVec 5) (v : BitVec 7) (l : BitVec 4) (o : BitVec 3) (h : Option (BitVec 24)) (p : Option Pfx)
  /-- VATOM_HOME (R214). -/
  | vatomHome (d : BitVec 7) (b : BitVec 5) (v : BitVec 7) (l : BitVec 4) (o : BitVec 3) (h : Option (BitVec 24)) (p : Option Pfx)
  /-- VARED (R215). -/
  | vared (d : BitVec 7) (b : BitVec 5) (v : BitVec 7) (g : BitVec 2) (o : BitVec 3) (h : Option (BitVec 24)) (p : Option Pfx)
  /-- FGATH (R217). -/
  | fgath (d : BitVec 7) (v : BitVec 5) (l : BitVec 4) (m : BitVec 1) (h : Option (BitVec 24)) (p : Option Pfx)
  /-- PREF (R221). -/
  | pref (b : BitVec 5) (v : BitVec 7) (m : BitVec 1) (h : Option (BitVec 24)) (p : Option Pfx)
  /-- DISC (R222). -/
  | disc (b : BitVec 5) (v : BitVec 7) (m : BitVec 3) (h : Option (BitVec 24)) (p : Option Pfx)
  /-- TSMP (R285). -/
  | tsmp (d b v : BitVec 5) (l : BitVec 4) (m : BitVec 3) (h : Option (BitVec 24)) (p : Option Pfx)
  /-- PRIME (R245). -/
  | prime (w : BitVec 3) (c : BitVec 6) (a : BitVec 5) (p : BitVec 4)
  /-- MMA (R248). -/
  | mma (w : BitVec 3) (t : BitVec 8) (c : BitVec 6) (p : BitVec 4)
  /-- MFENCE (R253). -/
  | mfence (w : BitVec 3)
  /-- BWAIT (R254). -/
  | bwait (w : BitVec 3) (n : BitVec 4)
  /-- BWAIT_ALL (R254). -/
  | bwaitAll (w : BitVec 3)
  /-- ACCZ (R256). -/
  | accz (w : BitVec 3) (t n : BitVec 8)
  /-- ACCWR (R257). -/
  | accwr (w : BitVec 3) (t : BitVec 8) (s : BitVec 7) (f : BitVec 1)
  /-- SETSC_A (R258). -/
  | setscA (w : BitVec 3) (s : BitVec 6)
  /-- SETSC_B (R258). -/
  | setscB (w : BitVec 3) (s : BitVec 6)
  /-- QNTZ (R262). -/
  | qntz (w : BitVec 3) (s : BitVec 7) (a : BitVec 5) (t : BitVec 2) (u : BitVec 1)
  /-- DQNZ (R264). -/
  | dqnz (w : BitVec 3) (d : BitVec 7) (a : BitVec 5) (l : BitVec 4)
  /-- OLRD (R265). -/
  | olrd (w : BitVec 3) (d : BitVec 7) (a : BitVec 5) (l : BitVec 4)
  /-- ACCRD_REG (R259). -/
  | accrdReg (r w : BitVec 3) (t : BitVec 8) (d : BitVec 7) (l : BitVec 4) (f : BitVec 1)
  /-- ACCRD_MEM (R260). -/
  | accrdMem (r w : BitVec 3) (t : BitVec 8) (s y : BitVec 5)
  /-- MCNT (R269). -/
  | mcnt (v p : BitVec 6)
  /-- MVTX (R270). -/
  | mvtx (i : BitVec 7) (a : BitVec 5) (n : BitVec 4)
  /-- MPRIM (R271). -/
  | mprim (i x : BitVec 7)
  /-- VINTP (R274). -/
  | vintp (d : BitVec 7) (b n : BitVec 6)
  /-- PXW (R275). -/
  | pxw (c : BitVec 5) (t : BitVec 3)
  /-- PXK (R276). -/
  | pxk (k : BitVec 4)
  /-- GLZIN (R278). -/
  | glzin (n : BitVec 5) (s : BitVec 2)
  /-- GLZRD (R282). -/
  | glzrd (d : BitVec 5) (i : BitVec 7) (l : BitVec 4) (s : BitVec 2)
  /-- GLZRES (R283). -/
  | glzres (c b : BitVec 6) (l : BitVec 4) (s : BitVec 2)
  /-- GLZCLR (R284). -/
  | glzclr (r : BitVec 5) (s : BitVec 2)
  /-- RBOX (R293). -/
  | rbox (r : BitVec 3) (n : BitVec 6) (l : BitVec 4)
  /-- RTRI (R294). -/
  | rtri (r : BitVec 3) (n : BitVec 6) (l : BitVec 4)
  /-- WAPP (R295). -/
  | wapp (i x : BitVec 7)
  /-- WTAKE (R296). -/
  | wtake (d : BitVec 7) (x : BitVec 6) (l : BitVec 4)
  /-- WQUI (R297). -/
  | wqui (d : BitVec 6)
  /-- MISS_SPLIT (R36). -/
  | missSplit (wid ent : Nat)
  /-- JOIN_LAPSE (R41). -/
  | joinLapse (wid ent : Nat)
  /-- FUSE_TIMEOUT (R42). -/
  | fuseTimeout (wid ent : Nat)
  /-- FORCED_FUSE_TIMEOUT (R44). -/
  | forcedFuseTimeout (wid ent : Nat)
  /-- LONG_LATENCY_COMPLETE (R124). -/
  | longLatencyComplete (wid pid : Nat)
  /-- MEMORY_ACCESS_PERFORM (R333). -/
  | memoryAccessPerform (id piece : Nat)
  /-- LINE_MIGRATION (R322). -/
  | lineMigration (line : Nat)
  /-- MONW_WAKE (R347). -/
  | monwWake (wid ent : Nat)
  /-- MONW_TIMEOUT (R236). -/
  | monwTimeout (wid ent : Nat)
  /-- FALLBACK_WINDOW_END (R238). -/
  | fallbackWindowEnd (wid slot : Nat)
  /-- SLEEP_EXPIRE (R175). -/
  | sleepExpire (wid ent : Nat)
  /-- YIELD_EXPIRE (R162). -/
  | yieldExpire (who : Issuer)
  /-- FENCE_WAIT_END (R223). -/
  | fenceWaitEnd (who : Issuer)
  /-- QUEUE_ROOM_WAIT_END (R243). -/
  | queueRoomWaitEnd (who : Issuer)
  /-- CODE_LOAD_COMPLETE (R154). -/
  | codeLoadComplete (core slot : Nat)
  /-- CWAIT_WAIT_END (R157). -/
  | cwaitWaitEnd (who : Issuer)
  /-- COPY_CHUNK_LAND (R225). -/
  | copyChunkLand (core cid : Nat)
  /-- PRIME_TAKES_EFFECT (R246). -/
  | primeTakesEffect (core : Nat)
  /-- MMA_TAKES_EFFECT (R249). -/
  | mmaTakesEffect (core : Nat)
  /-- BWAIT_WAIT_END (R255). -/
  | bwaitWaitEnd (who : Issuer)
  /-- WAPP_WAIT_END (R295). -/
  | wappWaitEnd (who : Issuer)
  /-- GLZIN_TURN_WAIT_END (R281). -/
  | glzinTurnWaitEnd (who : Issuer)
  /-- TRAP_ENTRY (R408). -/
  | trapEntry (wid : Nat)
  /-- DOORBELL (R392). -/
  | doorbell (func q : Nat) (t : Word)
  /-- MANAGEMENT_LAUNCH (R403). -/
  | managementLaunch (q : Nat)
  /-- KERNEL_LOAD (R393). -/
  | kernelLoad (func : Nat) (v : DWord)
  /-- KERNEL_LOAD_DONE (R393). -/
  | kernelLoadDone (func : Nat)
  /-- GROUP_PLACEMENT (R404). -/
  | groupPlacement (lid : Nat)
  /-- COHORT_PLACEMENT (R405). -/
  | cohortPlacement (lid : Nat)
  /-- COHORT_WAIT_HOLD (R405). -/
  | cohortWaitHold (lid : Nat)
  /-- GROUP_RETIRE (R160). -/
  | groupRetire (gid : Nat)
  /-- DRAW_MESH_PHASE (R348). -/
  | drawMeshPhase (lid : Nat)
  /-- DRAW_ATTRIBUTE_PASS (R349). -/
  | drawAttributePass (lid : Nat)
  /-- DRAW_TILE_RASTER (R352). -/
  | drawTileRaster (lid tile : Nat)
  /-- PREEMPT_REQUEST (R441). -/
  | preemptRequest (func : Nat) (v : DWord)
  /-- PREEMPT_SAVE (R418). -/
  | preemptSave (gid : Nat)
  /-- PREEMPT_DRAIN_TIMEOUT (R419). -/
  | preemptDrainTimeout (gid : Nat)
  /-- RESTORE (R423). -/
  | restore (gid : Nat)
  /-- PAGE_WALK_COMPLETE (R434). -/
  | pageWalkComplete (ctx va : Nat)
  /-- INVALIDATE (R435). -/
  | invalidate (func : Nat) (v : Word)
  /-- INVALIDATE_DONE (R435). -/
  | invalidateDone (func : Nat)
  /-- RESOLVE (R436). -/
  | resolve (func : Nat) (v : Word)
  /-- FBHEAD_WRITE (R436). -/
  | fbheadWrite (func : Nat) (v : Word)
  /-- HOST_WINDOW_READ (R439). -/
  | hostWindowRead (func : Nat) (off : DWord) (n : Nat)
  /-- HOST_WINDOW_WRITE (R439). -/
  | hostWindowWrite (func : Nat) (off : DWord) (data : List Byte) (ro : Bool)
  /-- HOST_ATOMIC (R216). -/
  | hostAtomic (func : Nat) (off : DWord) (op : AtomOp) (n : Nat) (x y : DWord)
  /-- FUNCTION_LEVEL_RESET (R440). -/
  | functionLevelReset (func : Nat)
  /-- REMOTE_REQUEST (R443). -/
  | remoteRequest (req : Remote)
  /-- FABRIC_TIMEOUT (R444). -/
  | fabricTimeout (node : Nat)
  /-- HALT_NOTICE_RECEIVE (R447). -/
  | haltNoticeReceive (node : Nat) (on : Bool) (v : DWord)
  /-- HALT (R449). -/
  | halt (core : Nat)
  /-- HALT_COMPLETE (R449). -/
  | haltComplete (core : Nat)
  /-- RESUME (R449). -/
  | resume (core : Nat)
  /-- PC_COMPARATOR_MATCH (R454). -/
  | pcComparatorMatch (who : Issuer) (k : Nat)
  /-- TRACE_ENABLE (R455). -/
  | traceEnable (core : Nat) (v : DWord)
  /-- TRACE_SAMPLE (R459). -/
  | traceSample (core : Nat)
  /-- CAUSAL_TRIAL_START (R464). -/
  | causalTrialStart (core : Nat) (v : DWord)
  /-- BOOT_ROM_STAGE_DONE (R466). -/
  | bootRomStageDone (ok : Bool)
  /-- SELF_TEST (R469). -/
  | selfTest (found : List Defect)
  /-- FIRMWARE_START (R466). -/
  | firmwareStart (ok : Bool)
  /-- SRAM_SCRUB (R476). -/
  | sramScrub (obs : Scrub)
  /-- GDDR_SCRUB (R478). -/
  | gddrScrub (line : Nat) (obs : LineState)
  /-- CORE_RETIREMENT (R482). -/
  | coreRetirement (core : Nat)
  /-- SLICE_RETIREMENT (R483). -/
  | sliceRetirement (slice : Nat)
  /-- SPAN_LANE_SPARE (R484): a flit of a lane fails its check. -/
  | spanLaneSpare (port : Nat) (flit : LaneFlit)
  /-- LANE_RETRAIN_COMPLETE (R484). -/
  | laneRetrainComplete (port : Nat)
  /-- COUNTER_FREEZE (R493). -/
  | counterFreeze (func : Nat)
  /-- FREEZE_DONE (R493). -/
  | freezeDone (func : Nat)
  /-- ENERGY_WINDOW (R495). -/
  | energyWindow (grains : Nat)
  /-- REGISTER_WRITE (R8). -/
  | registerWrite (bar func : Nat) (off v : DWord)
  /-- GROUP_ABORT (R410). -/
  | groupAbort (gid : Nat)
  /-- PCIE_CONFIG_REQUEST (R466). -/
  | pcieConfigRequest (req : ConfigReq)
  /-- SPAN_PORT_DOWN (R484). -/
  | spanPortDown (port : Nat)
  /-- PAGE_UNPIN (R319). -/
  | pageUnpin (page : Nat)
  /-- NOP (R161). -/
  | nop
  /-- EXIT (R159). -/
  | exit
  /-- JOIN (R152). -/
  | join
  /-- FUSE (R153). -/
  | fuse
  /-- RTE (R170). -/
  | rte
  /-- HINT_UNIFORM (R162). -/
  | hintUniform
  /-- ARBITER_DECISION (R399). -/
  | arbiterDecision
  /-- TRACE_STAGING_DRAIN (R461). -/
  | traceStagingDrain
  /-- CAUSAL_DELAY (R464). -/
  | causalDelay
  /-- CAUSAL_TRIAL_END (R464). -/
  | causalTrialEnd
  /-- POWER_ON_RESET (R466). -/
  | powerOnReset
  /-- FIRMWARE_VERIFY (R467). -/
  | firmwareVerify
  /-- GET_REPORT (R473). -/
  | getReport
  /-- GET_PUBKEY (R472). -/
  | getPubkey
  /-- GET_SELFTEST (R472). -/
  | getSelftest
  /-- RETRY_BOOT (R472). -/
  | retryBoot
  /-- GDDR_REBUILD_COMPLETE (R479). -/
  | gddrRebuildComplete
  /-- COUNTER_FLUSH (R490). -/
  | counterFlush
  /-- RESERVED_ENCODING (R143). -/
  | reservedEncoding
  deriving DecidableEq, Repr

end Sys2Proof
end

