-- ==== Sys2Proof/Decode.lean ====
section
/-!
DEFINITION. Decoding (04 R100 to R143): words to bundles, total and rejecting by name, and after it the encoder, written from
the same encoding tables. Decoding takes fields apart; the legality of their values is WellFormed's (R142 steps 2 to 5).
-/
namespace Sys2Proof

/-- Why words are not an instruction. -/
inductive Reject
  /-- The words end before the bundle does. -/
  | truncated
  /-- No row of the opcode map has this word: reserved code, or a must-be-zero bit set (R142 steps 1 and 2). -/
  | noRow
  /-- Two hints of one kind, or a hint followed by a hint, a DICT or a prefix where none may stand (R121). -/
  | hint
  /-- The prefix or a hint stands before a word it does not apply to (R118, R121). -/
  | attachment
  deriving DecidableEq, Repr

/-- What attaches to the instruction word of a bundle (R101). -/
structure Attach where
  hint : Option (BitVec 24)
  ext : Option BExt
  pfx : Option Pfx
  deriving DecidableEq, Repr

/-- Nothing attached. -/
def Attach.none : Attach := ⟨Option.none, Option.none, Option.none⟩

/-- Major 0x1: NOP to CPYA. -/
def decodeMajor01 (w : Word) (a : Attach) : Option Instr :=
  match (bits w 20 6).toNat with
  | 0 =>
    if w &&& 0xffffffff#32 = 0x04000000#32 then some (.nop) else
    none
  | 1 =>
    if w &&& 0xffffffff#32 = 0x04100000#32 then some (.exit) else
    none
  | 2 =>
    if w &&& 0xfffff03f#32 = 0x04200000#32 then some (.ret (bits w 6 6)) else
    none
  | 3 =>
    if w &&& 0xffffffff#32 = 0x04300000#32 then some (.join) else
    none
  | 4 =>
    if w &&& 0xffffffff#32 = 0x04400000#32 then some (.fuse) else
    none
  | 5 =>
    if w &&& 0xfff0003f#32 = 0x04500000#32 then some (.trap (bits w 6 14)) else
    none
  | 6 =>
    if w &&& 0xffffffff#32 = 0x04600000#32 then some (.rte) else
    none
  | 7 =>
    if w &&& 0xfff00000#32 = 0x04700000#32 then some (.srd (bits w 13 7) (bits w 0 13)) else
    none
  | 8 =>
    if w &&& 0xfff00000#32 = 0x04800000#32 then some (.swr (bits w 13 7) (bits w 0 13)) else
    none
  | 9 =>
    if w &&& 0xfff83fc0#32 = 0x04900000#32 then some (.splrd (bits w 14 5) (bits w 2 4) (bits w 0 2)) else
    none
  | 10 =>
    if w &&& 0xfff83fc0#32 = 0x04a00000#32 then some (.splwr (bits w 14 5) (bits w 2 4) (bits w 0 2)) else
    none
  | 11 =>
    if w &&& 0xfff8203f#32 = 0x04b00000#32 then some (.cfetch (bits w 14 5) (bits w 6 7)) else
    none
  | 12 =>
    if w &&& 0xffffe03f#32 = 0x04c00000#32 then some (.cwait (bits w 6 7)) else
    none
  | 13 =>
    if w &&& 0xfff0003f#32 = 0x04d00001#32 then some (.rgnEnter (bits w 6 14)) else
    if w &&& 0xfff0003f#32 = 0x04d00000#32 then some (.rgnLeave (bits w 6 14)) else
    none
  | 14 =>
    if w &&& 0xfff0003f#32 = 0x04e00000#32 then some (.prog (bits w 6 14)) else
    none
  | 15 =>
    if w &&& 0xfff0003f#32 = 0x04f00000#32 then some (.bkpt (bits w 6 14)) else
    none
  | 16 =>
    if w &&& 0xfff81fff#32 = 0x05000000#32 then some (.sleep (bits w 13 6)) else
    none
  | 17 =>
    if w &&& 0xfff81c3f#32 = 0x05100000#32 then some (.evsig (bits w 13 6) (bits w 6 4)) else
    none
  | 18 =>
    if w &&& 0xfff0fff8#32 = 0x05200000#32 then some (.fence (bits w 16 4) (bits w 0 3)) else
    none
  | 19 =>
    if w &&& 0xfffff83f#32 = 0x05300000#32 then some (.bar (bits w 6 5)) else
    none
  | 20 =>
    if w &&& 0xfff8183f#32 = 0x05400000#32 then some (.barx (bits w 13 6) (bits w 6 5)) else
    none
  | 21 =>
    if w &&& 0xfff8183f#32 = 0x05500000#32 then some (.bart (bits w 13 6) (bits w 6 5)) else
    none
  | 22 =>
    if w &&& 0xfffffc3f#32 = 0x05600000#32 then some (.cbar (bits w 6 4)) else
    none
  | 23 =>
    if w &&& 0xfff83ffc#32 = 0x05700000#32 then some (.mon (bits w 14 5) (bits w 0 2)) else
    none
  | 24 =>
    if w &&& 0xfff81fff#32 = 0x05800000#32 then some (.monw (bits w 13 6)) else
    if w &&& 0xfff81fff#32 = 0x05800001#32 then some (.monwG (bits w 13 6)) else
    none
  | 25 =>
    if w &&& 0xfffffffc#32 = 0x05900000#32 then some (.monc (bits w 0 2)) else
    none
  | 26 =>
    if w &&& 0xfff8783f#32 = 0x05a00000#32 then some (.cpya (bits w 15 4) (bits w 6 5)) else
    none
  | _ => none

/-- Major 0x2: BRA, BRC, CALL, JMPF. -/
def decodeMajor02 (w : Word) (a : Attach) : Option Instr :=
  match (bits w 23 3).toNat with
  | 0 =>
    if w &&& 0xfffff000#32 = 0x08000000#32 then some (.bra (bits w 0 12) a.ext) else
    none
  | 1 =>
    if w &&& 0xff800000#32 = 0x08800000#32 then some (.brc (bits w 19 4) (bits w 12 7) (bits w 0 12) a.ext) else
    none
  | 2 =>
    if w &&& 0xfffc0000#32 = 0x09000000#32 then some (.call (bits w 12 6) (bits w 0 12) a.ext) else
    none
  | 3 =>
    if w &&& 0xfff80c00#32 = 0x09800000#32 then some (.jmpf (bits w 12 7) (bits w 0 10)) else
    none
  | _ => none

/-- Major 0x3: BRD. -/
def decodeMajor03 (w : Word) (a : Attach) : Option Instr :=
  if w &&& 0xfc000000#32 = 0x0c000000#32 then some (.brd (bits w 22 4) (bits w 11 11) (bits w 0 11) a.ext) else
  none

/-- Major 0x4: WIDE_IMMEDIATE_HINT, BRANCH_EXTENSION_HINT, HINT_YIELD, HINT_UNIFORM. -/
def decodeMajor04 (w : Word) (a : Attach) : Option Instr :=
  match (bits w 24 2).toNat with
  | 0 =>
    if w &&& 0xff000000#32 = 0x10000000#32 then some (.wideImmediateHint (bits w 0 24)) else
    none
  | 1 =>
    if w &&& 0xff000fff#32 = 0x11000000#32 then some (.branchExtensionHint (bits w 18 6) (bits w 12 6)) else
    none
  | 2 =>
    if w &&& 0xffffff00#32 = 0x12000000#32 then some (.hintYield (bits w 0 8)) else
    if w &&& 0xffffffff#32 = 0x12100000#32 then some (.hintUniform) else
    none
  | _ => none

/-- Major 0x6: DICT. -/
def decodeMajor06 (w : Word) (a : Attach) : Option Instr :=
  if w &&& 0xfff00000#32 = 0x18000000#32 then some (.dict (bits w 10 10) (bits w 0 10)) else
  none

/-- Major 0x8: SADD to SSRA_IMM. -/
def decodeMajor08 (w : Word) (a : Attach) : Option Instr :=
  match (bits w 0 5).toNat with
  | 0 =>
    if w &&& 0xfe04081f#32 = 0x20000000#32 then some (.sadd (bits w 19 6) (bits w 12 6) (bits w 5 6)) else
    none
  | 1 =>
    if w &&& 0xfe04081f#32 = 0x20000001#32 then some (.ssub (bits w 19 6) (bits w 12 6) (bits w 5 6)) else
    none
  | 2 =>
    if w &&& 0xfe04081f#32 = 0x20000002#32 then some (.smul (bits w 19 6) (bits w 12 6) (bits w 5 6)) else
    none
  | 3 =>
    if w &&& 0xfe04081f#32 = 0x20000003#32 then some (.smulh (bits w 19 6) (bits w 12 6) (bits w 5 6)) else
    none
  | 4 =>
    if w &&& 0xfe04081f#32 = 0x20000004#32 then some (.smulhN32 (bits w 19 6) (bits w 12 6) (bits w 5 6)) else
    none
  | 5 =>
    if w &&& 0xfe04081f#32 = 0x20000005#32 then some (.sand (bits w 19 6) (bits w 12 6) (bits w 5 6)) else
    none
  | 6 =>
    if w &&& 0xfe04081f#32 = 0x20000006#32 then some (.sor (bits w 19 6) (bits w 12 6) (bits w 5 6)) else
    none
  | 7 =>
    if w &&& 0xfe04081f#32 = 0x20000007#32 then some (.sxor (bits w 19 6) (bits w 12 6) (bits w 5 6)) else
    none
  | 8 =>
    if w &&& 0xfe04081f#32 = 0x20000008#32 then some (.sshl (bits w 19 6) (bits w 12 6) (bits w 5 6)) else
    none
  | 9 =>
    if w &&& 0xfe04081f#32 = 0x20000009#32 then some (.sshr (bits w 19 6) (bits w 12 6) (bits w 5 6)) else
    none
  | 10 =>
    if w &&& 0xfe04081f#32 = 0x2000000a#32 then some (.ssra (bits w 19 6) (bits w 12 6) (bits w 5 6)) else
    none
  | 11 =>
    if w &&& 0xfe04081f#32 = 0x2000000b#32 then some (.smin (bits w 19 6) (bits w 12 6) (bits w 5 6)) else
    none
  | 12 =>
    if w &&& 0xfe04081f#32 = 0x2000000c#32 then some (.sminN32 (bits w 19 6) (bits w 12 6) (bits w 5 6)) else
    none
  | 13 =>
    if w &&& 0xfe04081f#32 = 0x2000000d#32 then some (.smax (bits w 19 6) (bits w 12 6) (bits w 5 6)) else
    none
  | 14 =>
    if w &&& 0xfe04081f#32 = 0x2000000e#32 then some (.smaxN32 (bits w 19 6) (bits w 12 6) (bits w 5 6)) else
    none
  | 15 =>
    if w &&& 0xfe040fff#32 = 0x2000000f#32 then some (.smov (bits w 19 6) (bits w 12 6)) else
    none
  | 16 =>
    if w &&& 0xfe04081f#32 = 0x20000010#32 then some (.ssel (bits w 19 6) (bits w 12 6) (bits w 5 6)) else
    none
  | 17 =>
    if w &&& 0xfe04081f#32 = 0x20000011#32 then some (.scmpEq (bits w 19 6) (bits w 12 6) (bits w 5 6)) else
    none
  | 18 =>
    if w &&& 0xfe04081f#32 = 0x20000012#32 then some (.scmpNe (bits w 19 6) (bits w 12 6) (bits w 5 6)) else
    none
  | 19 =>
    if w &&& 0xfe04081f#32 = 0x20000013#32 then some (.scmpLt (bits w 19 6) (bits w 12 6) (bits w 5 6)) else
    none
  | 20 =>
    if w &&& 0xfe04081f#32 = 0x20000014#32 then some (.scmpLe (bits w 19 6) (bits w 12 6) (bits w 5 6)) else
    none
  | 21 =>
    if w &&& 0xfe04081f#32 = 0x20000015#32 then some (.scmpLtN32 (bits w 19 6) (bits w 12 6) (bits w 5 6)) else
    none
  | 22 =>
    if w &&& 0xfe04081f#32 = 0x20000016#32 then some (.scmpLeN32 (bits w 19 6) (bits w 12 6) (bits w 5 6)) else
    none
  | 23 =>
    if w &&& 0xfe0c183f#32 = 0x20000017#32 then some (.saddB64 (bits w 20 5) (bits w 13 5) (bits w 6 5)) else
    none
  | 24 =>
    if w &&& 0xfe0c183f#32 = 0x20000018#32 then some (.ssubB64 (bits w 20 5) (bits w 13 5) (bits w 6 5)) else
    none
  | 25 =>
    if w &&& 0xfe0c1fff#32 = 0x20000019#32 then some (.smovB64 (bits w 20 5) (bits w 13 5)) else
    none
  | 26 =>
    if w &&& 0xfe040c1f#32 = 0x2000001a#32 then some (.sshlImm (bits w 19 6) (bits w 12 6) (bits w 5 5)) else
    none
  | 27 =>
    if w &&& 0xfe040c1f#32 = 0x2000001b#32 then some (.sshrImm (bits w 19 6) (bits w 12 6) (bits w 5 5)) else
    none
  | 28 =>
    if w &&& 0xfe040c1f#32 = 0x2000001c#32 then some (.ssraImm (bits w 19 6) (bits w 12 6) (bits w 5 5)) else
    none
  | _ => none

/-- Major 0x9: SADD_IMM. -/
def decodeMajor09 (w : Word) (a : Attach) : Option Instr :=
  if w &&& 0xfe040000#32 = 0x24000000#32 then some (.saddImm (bits w 19 6) (bits w 12 6) (bits w 0 12) a.hint) else
  none

/-- Major 0xa: SLI. -/
def decodeMajor0a (w : Word) (a : Attach) : Option Instr :=
  if w &&& 0xfe07f000#32 = 0x28000000#32 then some (.sli (bits w 19 6) (bits w 0 12) a.hint) else
  none

/-- Major 0xb: SAND_IMM. -/
def decodeMajor0b (w : Word) (a : Attach) : Option Instr :=
  if w &&& 0xfe040000#32 = 0x2c000000#32 then some (.sandImm (bits w 19 6) (bits w 12 6) (bits w 0 12) a.hint) else
  none

/-- Major 0xc: SOR_IMM. -/
def decodeMajor0c (w : Word) (a : Attach) : Option Instr :=
  if w &&& 0xfe040000#32 = 0x30000000#32 then some (.sorImm (bits w 19 6) (bits w 12 6) (bits w 0 12) a.hint) else
  none

/-- Major 0xd: SXOR_IMM. -/
def decodeMajor0d (w : Word) (a : Attach) : Option Instr :=
  if w &&& 0xfe040000#32 = 0x34000000#32 then some (.sxorImm (bits w 19 6) (bits w 12 6) (bits w 0 12) a.hint) else
  none

/-- Major 0xe: SLD. -/
def decodeMajor0e (w : Word) (a : Attach) : Option Instr :=
  if w &&& 0xfe003f86#32 = 0x38003f84#32 then some (.sld (bits w 19 6) (bits w 14 5) (bits w 3 4) (bits w 0 1) a.hint) else
  none

/-- Major 0xf: SST. -/
def decodeMajor0f (w : Word) (a : Attach) : Option Instr :=
  if w &&& 0xfe003ffe#32 = 0x3c003f84#32 then some (.sst (bits w 19 6) (bits w 14 5) (bits w 0 1) a.hint) else
  none

/-- Major 0x10: VADD to VTANH. -/
def decodeMajor10 (w : Word) (a : Attach) : Option Instr :=
  match (bits w 0 5).toNat with
  | 0 =>
    if w &&& 0xf000001f#32 = 0x40000000#32 then some (.vadd (bits w 26 2) (bits w 19 7) (bits w 12 7) (bits w 5 7) a.pfx) else
    none
  | 1 =>
    if w &&& 0xf000001f#32 = 0x40000001#32 then some (.vsub (bits w 26 2) (bits w 19 7) (bits w 12 7) (bits w 5 7) a.pfx) else
    none
  | 2 =>
    if w &&& 0xf000001f#32 = 0x40000002#32 then some (.vmul (bits w 26 2) (bits w 19 7) (bits w 12 7) (bits w 5 7) a.pfx) else
    none
  | 3 =>
    if w &&& 0xf000001f#32 = 0x40000003#32 then some (.vfma (bits w 26 2) (bits w 19 7) (bits w 12 7) (bits w 5 7) a.pfx) else
    none
  | 4 =>
    if w &&& 0xf000001f#32 = 0x40000004#32 then some (.vfms (bits w 26 2) (bits w 19 7) (bits w 12 7) (bits w 5 7) a.pfx) else
    none
  | 5 =>
    if w &&& 0xf000001f#32 = 0x40000005#32 then some (.vmin (bits w 26 2) (bits w 19 7) (bits w 12 7) (bits w 5 7) a.pfx) else
    none
  | 6 =>
    if w &&& 0xf000001f#32 = 0x40000006#32 then some (.vmax (bits w 26 2) (bits w 19 7) (bits w 12 7) (bits w 5 7) a.pfx) else
    none
  | 7 =>
    if w &&& 0xf0000fff#32 = 0x40000007#32 then some (.vrnd (bits w 26 2) (bits w 19 7) (bits w 12 7) a.pfx) else
    none
  | 8 | 9 | 10 | 11 | 12 | 13 | 14 | 15 =>
    if w &&& 0xf3800018#32 = 0x40000008#32 then some (.vcmpF (bits w 26 2) (bits w 19 4) (bits w 12 7) (bits w 5 7) (bits w 0 3) a.pfx) else
    none
  | 16 =>
    if w &&& 0xf8000e1f#32 = 0x40000010#32 then some (.vrcp (bits w 26 1) (bits w 19 7) (bits w 12 7) (bits w 5 4) a.pfx) else
    none
  | 17 =>
    if w &&& 0xf8000e1f#32 = 0x40000011#32 then some (.vrsq (bits w 26 1) (bits w 19 7) (bits w 12 7) (bits w 5 4) a.pfx) else
    none
  | 18 =>
    if w &&& 0xf8000e1f#32 = 0x40000012#32 then some (.vsqrt (bits w 26 1) (bits w 19 7) (bits w 12 7) (bits w 5 4) a.pfx) else
    none
  | 19 =>
    if w &&& 0xf8000e1f#32 = 0x40000013#32 then some (.vexp2 (bits w 26 1) (bits w 19 7) (bits w 12 7) (bits w 5 4) a.pfx) else
    none
  | 20 =>
    if w &&& 0xf8000e1f#32 = 0x40000014#32 then some (.vlog2 (bits w 26 1) (bits w 19 7) (bits w 12 7) (bits w 5 4) a.pfx) else
    none
  | 21 =>
    if w &&& 0xf8000e1f#32 = 0x40000015#32 then some (.vsin (bits w 26 1) (bits w 19 7) (bits w 12 7) (bits w 5 4) a.pfx) else
    none
  | 22 =>
    if w &&& 0xf8000e1f#32 = 0x40000016#32 then some (.vcos (bits w 26 1) (bits w 19 7) (bits w 12 7) (bits w 5 4) a.pfx) else
    none
  | 23 =>
    if w &&& 0xf8000e1f#32 = 0x40000017#32 then some (.vtanh (bits w 26 1) (bits w 19 7) (bits w 12 7) (bits w 5 4) a.pfx) else
    none
  | _ => none

/-- Major 0x12: VADD to VCMP_F. -/
def decodeMajor12 (w : Word) (a : Attach) : Option Instr :=
  match (bits w 0 5).toNat with
  | 0 =>
    if w &&& 0xf000001f#32 = 0x40000000#32 then some (.vadd (bits w 26 2) (bits w 19 7) (bits w 12 7) (bits w 5 7) a.pfx) else
    none
  | 1 =>
    if w &&& 0xf000001f#32 = 0x40000001#32 then some (.vsub (bits w 26 2) (bits w 19 7) (bits w 12 7) (bits w 5 7) a.pfx) else
    none
  | 2 =>
    if w &&& 0xf000001f#32 = 0x40000002#32 then some (.vmul (bits w 26 2) (bits w 19 7) (bits w 12 7) (bits w 5 7) a.pfx) else
    none
  | 3 =>
    if w &&& 0xf000001f#32 = 0x40000003#32 then some (.vfma (bits w 26 2) (bits w 19 7) (bits w 12 7) (bits w 5 7) a.pfx) else
    none
  | 4 =>
    if w &&& 0xf000001f#32 = 0x40000004#32 then some (.vfms (bits w 26 2) (bits w 19 7) (bits w 12 7) (bits w 5 7) a.pfx) else
    none
  | 5 =>
    if w &&& 0xf000001f#32 = 0x40000005#32 then some (.vmin (bits w 26 2) (bits w 19 7) (bits w 12 7) (bits w 5 7) a.pfx) else
    none
  | 6 =>
    if w &&& 0xf000001f#32 = 0x40000006#32 then some (.vmax (bits w 26 2) (bits w 19 7) (bits w 12 7) (bits w 5 7) a.pfx) else
    none
  | 7 =>
    if w &&& 0xf0000fff#32 = 0x40000007#32 then some (.vrnd (bits w 26 2) (bits w 19 7) (bits w 12 7) a.pfx) else
    none
  | 8 | 9 | 10 | 11 | 12 | 13 | 14 | 15 =>
    if w &&& 0xf3800018#32 = 0x40000008#32 then some (.vcmpF (bits w 26 2) (bits w 19 4) (bits w 12 7) (bits w 5 7) (bits w 0 3) a.pfx) else
    none
  | _ => none

/-- Major 0x14: VIADD to VCMP_I. -/
def decodeMajor14 (w : Word) (a : Attach) : Option Instr :=
  match (bits w 0 5).toNat with
  | 0 =>
    if w &&& 0xf000001f#32 = 0x50000000#32 then some (.viadd (bits w 26 2) (bits w 19 7) (bits w 12 7) (bits w 5 7) a.pfx) else
    none
  | 1 =>
    if w &&& 0xf000001f#32 = 0x50000001#32 then some (.visub (bits w 26 2) (bits w 19 7) (bits w 12 7) (bits w 5 7) a.pfx) else
    none
  | 2 =>
    if w &&& 0xf000001f#32 = 0x50000002#32 then some (.vimul (bits w 26 2) (bits w 19 7) (bits w 12 7) (bits w 5 7) a.pfx) else
    none
  | 3 =>
    if w &&& 0xf000001f#32 = 0x50000003#32 then some (.vimulh (bits w 26 2) (bits w 19 7) (bits w 12 7) (bits w 5 7) a.pfx) else
    none
  | 4 =>
    if w &&& 0xf000001f#32 = 0x50000004#32 then some (.vimad (bits w 26 2) (bits w 19 7) (bits w 12 7) (bits w 5 7) a.pfx) else
    none
  | 5 =>
    if w &&& 0xf000001f#32 = 0x50000005#32 then some (.vimin (bits w 26 2) (bits w 19 7) (bits w 12 7) (bits w 5 7) a.pfx) else
    none
  | 6 =>
    if w &&& 0xf000001f#32 = 0x50000006#32 then some (.vimax (bits w 26 2) (bits w 19 7) (bits w 12 7) (bits w 5 7) a.pfx) else
    none
  | 7 =>
    if w &&& 0xf000001f#32 = 0x50000007#32 then some (.vshl (bits w 26 2) (bits w 19 7) (bits w 12 7) (bits w 5 7) a.pfx) else
    none
  | 8 =>
    if w &&& 0xf000001f#32 = 0x50000008#32 then some (.vshr (bits w 26 2) (bits w 19 7) (bits w 12 7) (bits w 5 7) a.pfx) else
    none
  | 9 =>
    if w &&& 0xf000001f#32 = 0x50000009#32 then some (.vsra (bits w 26 2) (bits w 19 7) (bits w 12 7) (bits w 5 7) a.pfx) else
    none
  | 10 =>
    if w &&& 0xf000001f#32 = 0x5000000a#32 then some (.vbfe (bits w 26 2) (bits w 19 7) (bits w 12 7) (bits w 5 7) a.pfx) else
    none
  | 11 =>
    if w &&& 0xf000001f#32 = 0x5000000b#32 then some (.vbfi (bits w 26 2) (bits w 19 7) (bits w 12 7) (bits w 5 7) a.pfx) else
    none
  | 12 =>
    if w &&& 0xf0000fff#32 = 0x5000000c#32 then some (.vpopc (bits w 26 2) (bits w 19 7) (bits w 12 7) a.pfx) else
    none
  | 13 =>
    if w &&& 0xf0000fff#32 = 0x5000000d#32 then some (.vclz (bits w 26 2) (bits w 19 7) (bits w 12 7) a.pfx) else
    none
  | 16 | 17 | 18 | 19 | 20 | 21 | 22 | 23 =>
    if w &&& 0xf3800018#32 = 0x50000010#32 then some (.vcmpI (bits w 26 2) (bits w 19 4) (bits w 12 7) (bits w 5 7) (bits w 0 3) a.pfx) else
    none
  | _ => none

/-- Major 0x17: VIADD to VCMP_I. -/
def decodeMajor17 (w : Word) (a : Attach) : Option Instr :=
  match (bits w 0 5).toNat with
  | 0 =>
    if w &&& 0xf000001f#32 = 0x50000000#32 then some (.viadd (bits w 26 2) (bits w 19 7) (bits w 12 7) (bits w 5 7) a.pfx) else
    none
  | 1 =>
    if w &&& 0xf000001f#32 = 0x50000001#32 then some (.visub (bits w 26 2) (bits w 19 7) (bits w 12 7) (bits w 5 7) a.pfx) else
    none
  | 2 =>
    if w &&& 0xf000001f#32 = 0x50000002#32 then some (.vimul (bits w 26 2) (bits w 19 7) (bits w 12 7) (bits w 5 7) a.pfx) else
    none
  | 3 =>
    if w &&& 0xf000001f#32 = 0x50000003#32 then some (.vimulh (bits w 26 2) (bits w 19 7) (bits w 12 7) (bits w 5 7) a.pfx) else
    none
  | 4 =>
    if w &&& 0xf000001f#32 = 0x50000004#32 then some (.vimad (bits w 26 2) (bits w 19 7) (bits w 12 7) (bits w 5 7) a.pfx) else
    none
  | 5 =>
    if w &&& 0xf000001f#32 = 0x50000005#32 then some (.vimin (bits w 26 2) (bits w 19 7) (bits w 12 7) (bits w 5 7) a.pfx) else
    none
  | 6 =>
    if w &&& 0xf000001f#32 = 0x50000006#32 then some (.vimax (bits w 26 2) (bits w 19 7) (bits w 12 7) (bits w 5 7) a.pfx) else
    none
  | 7 =>
    if w &&& 0xf000001f#32 = 0x50000007#32 then some (.vshl (bits w 26 2) (bits w 19 7) (bits w 12 7) (bits w 5 7) a.pfx) else
    none
  | 8 =>
    if w &&& 0xf000001f#32 = 0x50000008#32 then some (.vshr (bits w 26 2) (bits w 19 7) (bits w 12 7) (bits w 5 7) a.pfx) else
    none
  | 9 =>
    if w &&& 0xf000001f#32 = 0x50000009#32 then some (.vsra (bits w 26 2) (bits w 19 7) (bits w 12 7) (bits w 5 7) a.pfx) else
    none
  | 10 =>
    if w &&& 0xf000001f#32 = 0x5000000a#32 then some (.vbfe (bits w 26 2) (bits w 19 7) (bits w 12 7) (bits w 5 7) a.pfx) else
    none
  | 11 =>
    if w &&& 0xf000001f#32 = 0x5000000b#32 then some (.vbfi (bits w 26 2) (bits w 19 7) (bits w 12 7) (bits w 5 7) a.pfx) else
    none
  | 12 =>
    if w &&& 0xf0000fff#32 = 0x5000000c#32 then some (.vpopc (bits w 26 2) (bits w 19 7) (bits w 12 7) a.pfx) else
    none
  | 13 =>
    if w &&& 0xf0000fff#32 = 0x5000000d#32 then some (.vclz (bits w 26 2) (bits w 19 7) (bits w 12 7) a.pfx) else
    none
  | 14 =>
    if w &&& 0xfc00001f#32 = 0x5c00000e#32 then some (.vdot4 (bits w 19 7) (bits w 12 7) (bits w 5 7) a.pfx) else
    none
  | 16 | 17 | 18 | 19 | 20 | 21 | 22 | 23 =>
    if w &&& 0xf3800018#32 = 0x50000010#32 then some (.vcmpI (bits w 26 2) (bits w 19 4) (bits w 12 7) (bits w 5 7) (bits w 0 3) a.pfx) else
    none
  | _ => none

/-- Major 0x18: VIADD_IMM. -/
def decodeMajor18 (w : Word) (a : Attach) : Option Instr :=
  if w &&& 0xfc000000#32 = 0x60000000#32 then some (.viaddImm (bits w 19 7) (bits w 12 7) (bits w 0 12) a.hint a.pfx) else
  none

/-- Major 0x19: VMOVI. -/
def decodeMajor19 (w : Word) (a : Attach) : Option Instr :=
  if w &&& 0xfc07f000#32 = 0x64000000#32 then some (.vmovi (bits w 19 7) (bits w 0 12) a.hint a.pfx) else
  none

/-- Major 0x1a: VAND to VSEL. -/
def decodeMajor1a (w : Word) (a : Attach) : Option Instr :=
  match (bits w 0 5).toNat with
  | 0 =>
    if w &&& 0xfc00001f#32 = 0x68000000#32 then some (.vand (bits w 19 7) (bits w 12 7) (bits w 5 7) a.pfx) else
    none
  | 1 =>
    if w &&& 0xfc00001f#32 = 0x68000001#32 then some (.vor (bits w 19 7) (bits w 12 7) (bits w 5 7) a.pfx) else
    none
  | 2 =>
    if w &&& 0xfc00001f#32 = 0x68000002#32 then some (.vxor (bits w 19 7) (bits w 12 7) (bits w 5 7) a.pfx) else
    none
  | 3 =>
    if w &&& 0xfc000fff#32 = 0x68000003#32 then some (.vnot (bits w 19 7) (bits w 12 7) a.pfx) else
    none
  | 4 =>
    if w &&& 0xfc000fff#32 = 0x68000004#32 then some (.vmov (bits w 19 7) (bits w 12 7) a.pfx) else
    none
  | 16 | 17 | 18 | 19 | 20 | 21 | 22 | 23 | 24 | 25 | 26 | 27 | 28 | 29 | 30 | 31 =>
    if w &&& 0xfc000010#32 = 0x68000010#32 then some (.vsel (bits w 19 7) (bits w 12 7) (bits w 5 7) (bits w 0 4) a.pfx) else
    none
  | _ => none

/-- Major 0x1b: VCVT. -/
def decodeMajor1b (w : Word) (a : Attach) : Option Instr :=
  if w &&& 0xfc000060#32 = 0x6c000000#32 then some (.vcvt (bits w 19 7) (bits w 12 7) (bits w 7 5) (bits w 0 5) a.pfx) else
  none

/-- Major 0x1c: VPACK. -/
def decodeMajor1c (w : Word) (a : Attach) : Option Instr :=
  if w &&& 0xfc000000#32 = 0x70000000#32 then some (.vpack (bits w 19 7) (bits w 12 7) (bits w 5 7) (bits w 0 5) a.pfx) else
  none

/-- Major 0x1d: VUNPK. -/
def decodeMajor1d (w : Word) (a : Attach) : Option Instr :=
  if w &&& 0xfc000000#32 = 0x74000000#32 then some (.vunpk (bits w 19 7) (bits w 12 7) (bits w 7 5) (bits w 5 2) (bits w 0 5) a.pfx) else
  none

/-- Major 0x20: VSHFL. -/
def decodeMajor20 (w : Word) (a : Attach) : Option Instr :=
  if w &&& 0xfc000001#32 = 0x80000000#32 then some (.vshfl (bits w 19 7) (bits w 12 7) (bits w 5 7) (bits w 2 3) (bits w 1 1) a.pfx) else
  none

/-- Major 0x21: VBCST. -/
def decodeMajor21 (w : Word) (a : Attach) : Option Instr :=
  if w &&& 0xfc000001#32 = 0x84000000#32 then some (.vbcst (bits w 19 7) (bits w 12 7) (bits w 5 7) (bits w 2 3) (bits w 1 1) a.pfx) else
  none

/-- Major 0x22: WRED, WSCAN. -/
def decodeMajor22 (w : Word) (a : Attach) : Option Instr :=
  match (bits w 0 1).toNat with
  | 0 =>
    if w &&& 0xfc0001e3#32 = 0x88000000#32 then some (.wred (bits w 19 7) (bits w 12 7) (bits w 9 3) (bits w 2 3) a.pfx) else
    none
  | 1 =>
    if w &&& 0xfc0000e3#32 = 0x88000001#32 then some (.wscan (bits w 19 7) (bits w 12 7) (bits w 9 3) (bits w 8 1) (bits w 2 3) a.pfx) else
    none
  | _ => none

/-- Major 0x23: VBALLOT, VCONF. -/
def decodeMajor23 (w : Word) (a : Attach) : Option Instr :=
  match (bits w 0 1).toNat with
  | 0 =>
    if w &&& 0xfe0f0fe3#32 = 0x8c000000#32 then some (.vballot (bits w 20 5) (bits w 12 4) (bits w 2 3) a.pfx) else
    none
  | 1 =>
    if w &&& 0xff800fe3#32 = 0x8c000001#32 then some (.vconf (bits w 19 4) (bits w 12 7) (bits w 2 3) a.pfx) else
    none
  | _ => none

/-- Major 0x24: MAND to MMOV_SM. -/
def decodeMajor24 (w : Word) (a : Attach) : Option Instr :=
  match (bits w 0 5).toNat with
  | 0 =>
    if w &&& 0xff870e1f#32 = 0x90000000#32 then some (.mand (bits w 19 4) (bits w 12 4) (bits w 5 4)) else
    none
  | 1 =>
    if w &&& 0xff870e1f#32 = 0x90000001#32 then some (.mor (bits w 19 4) (bits w 12 4) (bits w 5 4)) else
    none
  | 2 =>
    if w &&& 0xff870e1f#32 = 0x90000002#32 then some (.mxor (bits w 19 4) (bits w 12 4) (bits w 5 4)) else
    none
  | 3 =>
    if w &&& 0xff870fff#32 = 0x90000003#32 then some (.mnot (bits w 19 4) (bits w 12 4)) else
    none
  | 4 =>
    if w &&& 0xfe070fff#32 = 0x90000004#32 then some (.mpopc (bits w 19 6) (bits w 12 4)) else
    none
  | 5 =>
    if w &&& 0xfe070fff#32 = 0x90000005#32 then some (.mffs (bits w 19 6) (bits w 12 4)) else
    none
  | 6 =>
    if w &&& 0xff870fff#32 = 0x90000006#32 then some (.mmovMm (bits w 19 4) (bits w 12 4)) else
    none
  | 7 =>
    if w &&& 0xfe0f0fff#32 = 0x90000007#32 then some (.mmovMs (bits w 20 5) (bits w 12 4)) else
    none
  | 8 =>
    if w &&& 0xff841fff#32 = 0x90000008#32 then some (.mmovSm (bits w 19 4) (bits w 13 5)) else
    none
  | _ => none

/-- Major 0x28: VLD. -/
def decodeMajor28 (w : Word) (a : Attach) : Option Instr :=
  if w &&& 0xfc000000#32 = 0xa0000000#32 then some (.vld (bits w 19 7) (bits w 14 5) (bits w 7 7) (bits w 3 4) (bits w 0 3) a.hint a.pfx) else
  none

/-- Major 0x29: VLD_ACQ. -/
def decodeMajor29 (w : Word) (a : Attach) : Option Instr :=
  if w &&& 0xfc000000#32 = 0xa4000000#32 then some (.vldAcq (bits w 19 7) (bits w 14 5) (bits w 7 7) (bits w 3 4) (bits w 0 3) a.hint a.pfx) else
  none

/-- Major 0x2a: VST. -/
def decodeMajor2a (w : Word) (a : Attach) : Option Instr :=
  if w &&& 0xfc000078#32 = 0xa8000000#32 then some (.vst (bits w 19 7) (bits w 14 5) (bits w 7 7) (bits w 0 3) a.hint a.pfx) else
  none

/-- Major 0x2b: VST_REL. -/
def decodeMajor2b (w : Word) (a : Attach) : Option Instr :=
  if w &&& 0xfc000078#32 = 0xac000000#32 then some (.vstRel (bits w 19 7) (bits w 14 5) (bits w 7 7) (bits w 0 3) a.hint a.pfx) else
  none

/-- Major 0x2c: VLDP. -/
def decodeMajor2c (w : Word) (a : Attach) : Option Instr :=
  if w &&& 0xfc07c000#32 = 0xb0000000#32 then some (.vldp (bits w 19 7) (bits w 7 7) (bits w 3 4) (bits w 0 3) a.hint a.pfx) else
  none

/-- Major 0x2d: VSTP. -/
def decodeMajor2d (w : Word) (a : Attach) : Option Instr :=
  if w &&& 0xfc07c078#32 = 0xb4000000#32 then some (.vstp (bits w 19 7) (bits w 7 7) (bits w 0 3) a.hint a.pfx) else
  none

/-- Major 0x2e: VATOM. -/
def decodeMajor2e (w : Word) (a : Attach) : Option Instr :=
  if w &&& 0xfc000000#32 = 0xb8000000#32 then some (.vatom (bits w 19 7) (bits w 14 5) (bits w 7 7) (bits w 3 4) (bits w 0 3) a.hint a.pfx) else
  none

/-- Major 0x2f: VATOM_NEAR. -/
def decodeMajor2f (w : Word) (a : Attach) : Option Instr :=
  if w &&& 0xfc000000#32 = 0xbc000000#32 then some (.vatomNear (bits w 19 7) (bits w 14 5) (bits w 7 7) (bits w 3 4) (bits w 0 3) a.hint a.pfx) else
  none

/-- Major 0x30: VATOM_HOME. -/
def decodeMajor30 (w : Word) (a : Attach) : Option Instr :=
  if w &&& 0xfc000000#32 = 0xc0000000#32 then some (.vatomHome (bits w 19 7) (bits w 14 5) (bits w 7 7) (bits w 3 4) (bits w 0 3) a.hint a.pfx) else
  none

/-- Major 0x31: VARED. -/
def decodeMajor31 (w : Word) (a : Attach) : Option Instr :=
  if w &&& 0xfc000018#32 = 0xc4000000#32 then some (.vared (bits w 19 7) (bits w 14 5) (bits w 7 7) (bits w 5 2) (bits w 0 3) a.hint a.pfx) else
  none

/-- Major 0x32: FGATH. -/
def decodeMajor32 (w : Word) (a : Attach) : Option Instr :=
  if w &&& 0xfc07c186#32 = 0xc8000000#32 then some (.fgath (bits w 19 7) (bits w 9 5) (bits w 3 4) (bits w 0 1) a.hint a.pfx) else
  none

/-- Major 0x33: PREF. -/
def decodeMajor33 (w : Word) (a : Attach) : Option Instr :=
  if w &&& 0xfff8007e#32 = 0xcc000000#32 then some (.pref (bits w 14 5) (bits w 7 7) (bits w 0 1) a.hint a.pfx) else
  none

/-- Major 0x34: DISC. -/
def decodeMajor34 (w : Word) (a : Attach) : Option Instr :=
  if w &&& 0xfff80078#32 = 0xd0000000#32 then some (.disc (bits w 14 5) (bits w 7 7) (bits w 0 3) a.hint a.pfx) else
  none

/-- Major 0x35: TSMP. -/
def decodeMajor35 (w : Word) (a : Attach) : Option Instr :=
  if w &&& 0xfc180180#32 = 0xd4000000#32 then some (.tsmp (bits w 21 5) (bits w 14 5) (bits w 9 5) (bits w 3 4) (bits w 0 3) a.hint a.pfx) else
  none

/-- Major 0x38: PRIME to SETSC_B. -/
def decodeMajor38 (w : Word) (a : Attach) : Option Instr :=
  match (bits w 23 3).toNat with
  | 0 =>
    if w &&& 0xff80001f#32 = 0xe0000000#32 then some (.prime (bits w 20 3) (bits w 14 6) (bits w 9 5) (bits w 5 4)) else
    none
  | 1 =>
    if w &&& 0xff800003#32 = 0xe0800000#32 then some (.mma (bits w 20 3) (bits w 12 8) (bits w 6 6) (bits w 2 4)) else
    none
  | 2 =>
    if w &&& 0xff8fffff#32 = 0xe1000000#32 then some (.mfence (bits w 20 3)) else
    none
  | 3 =>
    if w &&& 0xff8ffff0#32 = 0xe1800000#32 then some (.bwait (bits w 20 3) (bits w 0 4)) else
    if w &&& 0xff8fffff#32 = 0xe1880000#32 then some (.bwaitAll (bits w 20 3)) else
    none
  | 4 =>
    if w &&& 0xff80000f#32 = 0xe2000000#32 then some (.accz (bits w 20 3) (bits w 12 8) (bits w 4 8)) else
    none
  | 6 =>
    if w &&& 0xff80001e#32 = 0xe3000000#32 then some (.accwr (bits w 20 3) (bits w 12 8) (bits w 5 7) (bits w 0 1)) else
    none
  | 7 =>
    if w &&& 0xff8ff03f#32 = 0xe3800000#32 then some (.setscA (bits w 20 3) (bits w 6 6)) else
    if w &&& 0xff8ff03f#32 = 0xe3880000#32 then some (.setscB (bits w 20 3) (bits w 6 6)) else
    none
  | _ => none

/-- Major 0x39: QNTZ, DQNZ, OLRD. -/
def decodeMajor39 (w : Word) (a : Attach) : Option Instr :=
  match (bits w 23 3).toNat with
  | 0 =>
    if w &&& 0xff80001f#32 = 0xe4000000#32 then some (.qntz (bits w 20 3) (bits w 13 7) (bits w 8 5) (bits w 6 2) (bits w 5 1)) else
    none
  | 1 =>
    if w &&& 0xff80000f#32 = 0xe4800000#32 then some (.dqnz (bits w 20 3) (bits w 13 7) (bits w 8 5) (bits w 4 4)) else
    none
  | 2 =>
    if w &&& 0xff80000f#32 = 0xe5000000#32 then some (.olrd (bits w 20 3) (bits w 13 7) (bits w 8 5) (bits w 4 4)) else
    none
  | _ => none

/-- Major 0x3a: ACCRD_REG. -/
def decodeMajor3a (w : Word) (a : Attach) : Option Instr :=
  if w &&& 0xfc000000#32 = 0xe8000000#32 then some (.accrdReg (bits w 23 3) (bits w 20 3) (bits w 12 8) (bits w 5 7) (bits w 1 4) (bits w 0 1)) else
  none

/-- Major 0x3b: ACCRD_MEM. -/
def decodeMajor3b (w : Word) (a : Attach) : Option Instr :=
  if w &&& 0xfc000003#32 = 0xec000000#32 then some (.accrdMem (bits w 23 3) (bits w 20 3) (bits w 12 8) (bits w 7 5) (bits w 2 5)) else
  none

/-- Major 0x3c: MCNT to WQUI. -/
def decodeMajor3c (w : Word) (a : Attach) : Option Instr :=
  match (bits w 20 6).toNat with
  | 0 =>
    if w &&& 0xfff8103f#32 = 0xf0000000#32 then some (.mcnt (bits w 13 6) (bits w 6 6)) else
    none
  | 1 =>
    if w &&& 0xfff000c3#32 = 0xf0100000#32 then some (.mvtx (bits w 13 7) (bits w 8 5) (bits w 2 4)) else
    none
  | 2 =>
    if w &&& 0xfff0003f#32 = 0xf0200000#32 then some (.mprim (bits w 13 7) (bits w 6 7)) else
    none
  | 3 =>
    if w &&& 0xfff00040#32 = 0xf0300000#32 then some (.vintp (bits w 13 7) (bits w 7 6) (bits w 0 6)) else
    none
  | 4 =>
    if w &&& 0xfff07ff8#32 = 0xf0400000#32 then some (.pxw (bits w 15 5) (bits w 0 3)) else
    none
  | 5 =>
    if w &&& 0xfffe1fff#32 = 0xf0500000#32 then some (.pxk (bits w 13 4)) else
    none
  | 6 =>
    if w &&& 0xfff07ffc#32 = 0xf0600000#32 then some (.glzin (bits w 15 5) (bits w 0 2)) else
    none
  | 7 =>
    if w &&& 0xfff06000#32 = 0xf0700000#32 then some (.glzrd (bits w 15 5) (bits w 6 7) (bits w 2 4) (bits w 0 2)) else
    none
  | 8 =>
    if w &&& 0xfff02040#32 = 0xf0800000#32 then some (.glzres (bits w 14 6) (bits w 7 6) (bits w 2 4) (bits w 0 2)) else
    none
  | 9 =>
    if w &&& 0xfffff07c#32 = 0xf0900000#32 then some (.glzclr (bits w 7 5) (bits w 0 2)) else
    none
  | 10 =>
    if w &&& 0xfff1e043#32 = 0xf0a00000#32 then some (.rbox (bits w 17 3) (bits w 7 6) (bits w 2 4)) else
    none
  | 11 =>
    if w &&& 0xfff1e043#32 = 0xf0b00000#32 then some (.rtri (bits w 17 3) (bits w 7 6) (bits w 2 4)) else
    none
  | 12 =>
    if w &&& 0xfff0003f#32 = 0xf0c00000#32 then some (.wapp (bits w 13 7) (bits w 6 7)) else
    none
  | 13 =>
    if w &&& 0xfff01003#32 = 0xf0d00000#32 then some (.wtake (bits w 13 7) (bits w 6 6) (bits w 2 4)) else
    none
  | 14 =>
    if w &&& 0xfff81fff#32 = 0xf0e00000#32 then some (.wqui (bits w 13 6)) else
    none
  | _ => none

/-- The instruction that the word `w` stands for with the attachments `a` (R131 to R141); `none` where no row assigns it. -/
def decodeWord (w : Word) (a : Attach) : Option Instr :=
  match (bits w 26 6).toNat with
  | 1 => decodeMajor01 w a
  | 2 => decodeMajor02 w a
  | 3 => decodeMajor03 w a
  | 4 => decodeMajor04 w a
  | 6 => decodeMajor06 w a
  | 8 => decodeMajor08 w a
  | 9 => decodeMajor09 w a
  | 10 => decodeMajor0a w a
  | 11 => decodeMajor0b w a
  | 12 => decodeMajor0c w a
  | 13 => decodeMajor0d w a
  | 14 => decodeMajor0e w a
  | 15 => decodeMajor0f w a
  | 16 | 17 => decodeMajor10 w a
  | 18 | 19 => decodeMajor12 w a
  | 20 | 21 | 22 => decodeMajor14 w a
  | 23 => decodeMajor17 w a
  | 24 => decodeMajor18 w a
  | 25 => decodeMajor19 w a
  | 26 => decodeMajor1a w a
  | 27 => decodeMajor1b w a
  | 28 => decodeMajor1c w a
  | 29 => decodeMajor1d w a
  | 32 => decodeMajor20 w a
  | 33 => decodeMajor21 w a
  | 34 => decodeMajor22 w a
  | 35 => decodeMajor23 w a
  | 36 => decodeMajor24 w a
  | 40 => decodeMajor28 w a
  | 41 => decodeMajor29 w a
  | 42 => decodeMajor2a w a
  | 43 => decodeMajor2b w a
  | 44 => decodeMajor2c w a
  | 45 => decodeMajor2d w a
  | 46 => decodeMajor2e w a
  | 47 => decodeMajor2f w a
  | 48 => decodeMajor30 w a
  | 49 => decodeMajor31 w a
  | 50 => decodeMajor32 w a
  | 51 => decodeMajor33 w a
  | 52 => decodeMajor34 w a
  | 53 => decodeMajor35 w a
  | 56 => decodeMajor38 w a
  | 57 => decodeMajor39 w a
  | 58 => decodeMajor3a w a
  | 59 => decodeMajor3b w a
  | 60 => decodeMajor3c w a
  | _ => none

/-- The hint, branch extension and prefix that an instruction carries (R118, R122, R123). -/
def attachOf : Instr → Attach
  | .bra _ x => ⟨none, x, none⟩
  | .brc _ _ _ x => ⟨none, x, none⟩
  | .call _ _ x => ⟨none, x, none⟩
  | .brd _ _ _ x => ⟨none, x, none⟩
  | .saddImm _ _ _ h => ⟨h, none, none⟩
  | .sli _ _ h => ⟨h, none, none⟩
  | .sandImm _ _ _ h => ⟨h, none, none⟩
  | .sorImm _ _ _ h => ⟨h, none, none⟩
  | .sxorImm _ _ _ h => ⟨h, none, none⟩
  | .sld _ _ _ _ h => ⟨h, none, none⟩
  | .sst _ _ _ h => ⟨h, none, none⟩
  | .vadd _ _ _ _ p => ⟨none, none, p⟩
  | .vsub _ _ _ _ p => ⟨none, none, p⟩
  | .vmul _ _ _ _ p => ⟨none, none, p⟩
  | .vfma _ _ _ _ p => ⟨none, none, p⟩
  | .vfms _ _ _ _ p => ⟨none, none, p⟩
  | .vmin _ _ _ _ p => ⟨none, none, p⟩
  | .vmax _ _ _ _ p => ⟨none, none, p⟩
  | .vrnd _ _ _ p => ⟨none, none, p⟩
  | .vcmpF _ _ _ _ _ p => ⟨none, none, p⟩
  | .vrcp _ _ _ _ p => ⟨none, none, p⟩
  | .vrsq _ _ _ _ p => ⟨none, none, p⟩
  | .vsqrt _ _ _ _ p => ⟨none, none, p⟩
  | .vexp2 _ _ _ _ p => ⟨none, none, p⟩
  | .vlog2 _ _ _ _ p => ⟨none, none, p⟩
  | .vsin _ _ _ _ p => ⟨none, none, p⟩
  | .vcos _ _ _ _ p => ⟨none, none, p⟩
  | .vtanh _ _ _ _ p => ⟨none, none, p⟩
  | .viadd _ _ _ _ p => ⟨none, none, p⟩
  | .visub _ _ _ _ p => ⟨none, none, p⟩
  | .vimul _ _ _ _ p => ⟨none, none, p⟩
  | .vimulh _ _ _ _ p => ⟨none, none, p⟩
  | .vimad _ _ _ _ p => ⟨none, none, p⟩
  | .vimin _ _ _ _ p => ⟨none, none, p⟩
  | .vimax _ _ _ _ p => ⟨none, none, p⟩
  | .vshl _ _ _ _ p => ⟨none, none, p⟩
  | .vshr _ _ _ _ p => ⟨none, none, p⟩
  | .vsra _ _ _ _ p => ⟨none, none, p⟩
  | .vbfe _ _ _ _ p => ⟨none, none, p⟩
  | .vbfi _ _ _ _ p => ⟨none, none, p⟩
  | .vpopc _ _ _ p => ⟨none, none, p⟩
  | .vclz _ _ _ p => ⟨none, none, p⟩
  | .vdot4 _ _ _ p => ⟨none, none, p⟩
  | .vcmpI _ _ _ _ _ p => ⟨none, none, p⟩
  | .viaddImm _ _ _ h p => ⟨h, none, p⟩
  | .vmovi _ _ h p => ⟨h, none, p⟩
  | .vand _ _ _ p => ⟨none, none, p⟩
  | .vor _ _ _ p => ⟨none, none, p⟩
  | .vxor _ _ _ p => ⟨none, none, p⟩
  | .vnot _ _ p => ⟨none, none, p⟩
  | .vmov _ _ p => ⟨none, none, p⟩
  | .vsel _ _ _ _ p => ⟨none, none, p⟩
  | .vcvt _ _ _ _ p => ⟨none, none, p⟩
  | .vpack _ _ _ _ p => ⟨none, none, p⟩
  | .vunpk _ _ _ _ _ p => ⟨none, none, p⟩
  | .vshfl _ _ _ _ _ p => ⟨none, none, p⟩
  | .vbcst _ _ _ _ _ p => ⟨none, none, p⟩
  | .wred _ _ _ _ p => ⟨none, none, p⟩
  | .wscan _ _ _ _ _ p => ⟨none, none, p⟩
  | .vballot _ _ _ p => ⟨none, none, p⟩
  | .vconf _ _ _ p => ⟨none, none, p⟩
  | .vld _ _ _ _ _ h p => ⟨h, none, p⟩
  | .vldAcq _ _ _ _ _ h p => ⟨h, none, p⟩
  | .vst _ _ _ _ h p => ⟨h, none, p⟩
  | .vstRel _ _ _ _ h p => ⟨h, none, p⟩
  | .vldp _ _ _ _ h p => ⟨h, none, p⟩
  | .vstp _ _ _ h p => ⟨h, none, p⟩
  | .vatom _ _ _ _ _ h p => ⟨h, none, p⟩
  | .vatomNear _ _ _ _ _ h p => ⟨h, none, p⟩
  | .vatomHome _ _ _ _ _ h p => ⟨h, none, p⟩
  | .vared _ _ _ _ _ h p => ⟨h, none, p⟩
  | .fgath _ _ _ _ h p => ⟨h, none, p⟩
  | .pref _ _ _ h p => ⟨h, none, p⟩
  | .disc _ _ _ h p => ⟨h, none, p⟩
  | .tsmp _ _ _ _ _ h p => ⟨h, none, p⟩
  | _ => ⟨none, none, none⟩

/-- The fields of a prefix word (R116). -/
def decodePfx (w : Word) : Pfx :=
  ⟨bits w 22 4, bits w 19 3, bitAt w 18, bitAt w 17, bitAt w 16, bits w 11 5, bits w 4 7, bitAt w 3, bitAt w 2, bitAt w 1, bitAt w 0⟩

/-- An attaching hint word: wide immediate or branch extension (R115, R122, R123). -/
def isAttachingHint (w : Word) : Bool := bits w 26 6 == 0x04#6 && bits w 25 1 == 0#1

/-- The number of attaching hints at the head of `ws`. -/
def leadingHints (ws : List Word) : Nat := (ws.takeWhile isAttachingHint).length

/-- The attaching hints of a bundle: at most one of each kind (R121). -/
def takeHints : List Word → Attach → Nat → Except Reject (Attach × Nat × List Word)
  | [], _, _ => .error .truncated
  | w :: ws, a, n =>
    if isAttachingHint w then
      if bits w 24 1 = 0#1 then
        if a.hint.isSome then .error .hint else takeHints ws { a with hint := some (bits w 0 24) } (n + 1)
      else if a.ext.isSome then .error .hint
      else if bits w 0 12 = 0#12 then takeHints ws { a with ext := some ⟨bits w 18 6, bits w 12 6⟩ } (n + 1)
      else .error .noRow
    else .ok (a, n, w :: ws)

/-- The instruction of a bundle after its hints: at most one prefix word, then the instruction word (R101, R118). -/
def takeWord (a : Attach) (n : Nat) (ws : List Word) : Except Reject (Instr × Nat) :=
  match ws with
  | [] => .error .truncated
  | w :: rest =>
    if bits w 26 6 = 0x05#6 then
      match rest with
      | [] => .error .truncated
      | v :: _ => finish { a with pfx := some (decodePfx w) } (n + 2) v
    else finish a (n + 1) w
where
  /-- The word must be assigned, and must be one that everything attached applies to. -/
  finish (a : Attach) (n : Nat) (w : Word) : Except Reject (Instr × Nat) :=
    match decodeWord w a with
    | .none => .error .noRow
    | some i => if attachOf i = a then .ok (i, n) else .error .attachment

/-- The bundle at the head of `ws`: its instruction and its length in words (R101). -/
def decodeBundle (ws : List Word) : Except Reject (Instr × Nat) :=
  match takeHints ws Attach.none 0 with
  | .error e => .error e
  | .ok (a, n, rest) => takeWord a n rest

/-- What a part whose bundle starts at the head of `ws`, and that has issued `n` of its hints, issues next (R102). -/
def decodeIssue (ws : List Word) (n : Nat) : Except Reject Instr :=
  if n < leadingHints ws then
    match ws[n]? with
    | some w => match decodeWord w Attach.none with
      | some i => .ok i
      | .none => .error .noRow
    | .none => .error .truncated
  else match decodeBundle ws with
    | .ok (i, _) => .ok i
    | .error e => .error e

/-- Little-endian words of a byte string (R7); trailing bytes that fill no word are dropped. -/
def wordsOfBytes : List Byte → List Word
  | a :: b :: c :: d :: rest => (d ++ c ++ b ++ a) :: wordsOfBytes rest
  | _ => []

/-- The bytes of a word, lowest address first (R7). -/
def bytesOfWord (w : Word) : List Byte := [bits w 0 8, bits w 8 8, bits w 16 8, bits w 24 8]

/-- Decoding on bytes: what issues first from them. -/
def decode (bs : List Byte) : Except Reject Instr := decodeIssue (wordsOfBytes bs) 0

/-- The instruction that the decoder reads from an instruction of `nbits` bits with the value `w`. -/
def decodeTableWord (nbits w : Nat) : Option Instr :=
  if nbits = 0 then .none
  else match decode (bytesOfWord (BitVec.ofNat 32 w)) with
    | .ok i => some i
    | .error _ => .none

/-- The instruction word of an encoded instruction (R109 to R141); 0 for an event, which has no word. -/
def encodeWord : Instr → Word
  | .nop => 0x4000000#32
  | .exit => 0x4100000#32
  | .ret a => 0x4200#20 ++ a ++ 0x0#6
  | .join => 0x4300000#32
  | .fuse => 0x4400000#32
  | .trap c => 0x45#12 ++ c ++ 0x0#6
  | .rte => 0x4600000#32
  | .srd d n => 0x47#12 ++ d ++ n
  | .swr a n => 0x48#12 ++ a ++ n
  | .splrd d e w => 0x92#13 ++ d ++ 0x0#8 ++ e ++ w
  | .splwr a e w => 0x94#13 ++ a ++ 0x0#8 ++ e ++ w
  | .cfetch a s => 0x96#13 ++ a ++ 0x0#1 ++ s ++ 0x0#6
  | .cwait s => 0x2600#19 ++ s ++ 0x0#6
  | .rgnEnter i => 0x4d#12 ++ i ++ 0x1#6
  | .rgnLeave i => 0x4d#12 ++ i ++ 0x0#6
  | .prog i => 0x4e#12 ++ i ++ 0x0#6
  | .bkpt c => 0x4f#12 ++ c ++ 0x0#6
  | .sleep a => 0xa0#13 ++ a ++ 0x0#13
  | .evsig a q => 0xa2#13 ++ a ++ 0x0#3 ++ q ++ 0x0#6
  | .fence k s => 0x52#12 ++ k ++ 0x0#13 ++ s
  | .bar b => 0xa600#21 ++ b ++ 0x0#6
  | .barx a b => 0xa8#13 ++ a ++ 0x0#2 ++ b ++ 0x0#6
  | .bart d b => 0xaa#13 ++ d ++ 0x0#2 ++ b ++ 0x0#6
  | .cbar k => 0x15800#22 ++ k ++ 0x0#6
  | .mon a n => 0xae#13 ++ a ++ 0x0#12 ++ n
  | .monw a => 0xb0#13 ++ a ++ 0x0#13
  | .monwG a => 0xb0#13 ++ a ++ 0x1#13
  | .monc n => 0x1640000#30 ++ n
  | .cpya a b => 0xb4#13 ++ a ++ 0x0#4 ++ b ++ 0x0#6
  | .bra o _ => 0x8000#20 ++ o
  | .brc c s o _ => 0x11#9 ++ c ++ s ++ o
  | .call d o _ => 0x240#14 ++ d ++ o
  | .jmpf s o => 0x130#13 ++ s ++ 0x0#2 ++ o
  | .brd k t j _ => 0x3#6 ++ k ++ t ++ j
  | .wideImmediateHint w => 0x10#8 ++ w
  | .branchExtensionHint t j => 0x11#8 ++ t ++ j ++ 0x0#12
  | .hintYield n => 0x120000#24 ++ n
  | .hintUniform => 0x12100000#32
  | .dict i j => 0x180#12 ++ i ++ j
  | .sadd d a b => 0x10#7 ++ d ++ 0x0#1 ++ a ++ 0x0#1 ++ b ++ 0x0#5
  | .ssub d a b => 0x10#7 ++ d ++ 0x0#1 ++ a ++ 0x0#1 ++ b ++ 0x1#5
  | .smul d a b => 0x10#7 ++ d ++ 0x0#1 ++ a ++ 0x0#1 ++ b ++ 0x2#5
  | .smulh d a b => 0x10#7 ++ d ++ 0x0#1 ++ a ++ 0x0#1 ++ b ++ 0x3#5
  | .smulhN32 d a b => 0x10#7 ++ d ++ 0x0#1 ++ a ++ 0x0#1 ++ b ++ 0x4#5
  | .sand d a b => 0x10#7 ++ d ++ 0x0#1 ++ a ++ 0x0#1 ++ b ++ 0x5#5
  | .sor d a b => 0x10#7 ++ d ++ 0x0#1 ++ a ++ 0x0#1 ++ b ++ 0x6#5
  | .sxor d a b => 0x10#7 ++ d ++ 0x0#1 ++ a ++ 0x0#1 ++ b ++ 0x7#5
  | .sshl d a b => 0x10#7 ++ d ++ 0x0#1 ++ a ++ 0x0#1 ++ b ++ 0x8#5
  | .sshr d a b => 0x10#7 ++ d ++ 0x0#1 ++ a ++ 0x0#1 ++ b ++ 0x9#5
  | .ssra d a b => 0x10#7 ++ d ++ 0x0#1 ++ a ++ 0x0#1 ++ b ++ 0xa#5
  | .smin d a b => 0x10#7 ++ d ++ 0x0#1 ++ a ++ 0x0#1 ++ b ++ 0xb#5
  | .sminN32 d a b => 0x10#7 ++ d ++ 0x0#1 ++ a ++ 0x0#1 ++ b ++ 0xc#5
  | .smax d a b => 0x10#7 ++ d ++ 0x0#1 ++ a ++ 0x0#1 ++ b ++ 0xd#5
  | .smaxN32 d a b => 0x10#7 ++ d ++ 0x0#1 ++ a ++ 0x0#1 ++ b ++ 0xe#5
  | .smov d a => 0x10#7 ++ d ++ 0x0#1 ++ a ++ 0xf#12
  | .ssel d a b => 0x10#7 ++ d ++ 0x0#1 ++ a ++ 0x0#1 ++ b ++ 0x10#5
  | .scmpEq d a b => 0x10#7 ++ d ++ 0x0#1 ++ a ++ 0x0#1 ++ b ++ 0x11#5
  | .scmpNe d a b => 0x10#7 ++ d ++ 0x0#1 ++ a ++ 0x0#1 ++ b ++ 0x12#5
  | .scmpLt d a b => 0x10#7 ++ d ++ 0x0#1 ++ a ++ 0x0#1 ++ b ++ 0x13#5
  | .scmpLe d a b => 0x10#7 ++ d ++ 0x0#1 ++ a ++ 0x0#1 ++ b ++ 0x14#5
  | .scmpLtN32 d a b => 0x10#7 ++ d ++ 0x0#1 ++ a ++ 0x0#1 ++ b ++ 0x15#5
  | .scmpLeN32 d a b => 0x10#7 ++ d ++ 0x0#1 ++ a ++ 0x0#1 ++ b ++ 0x16#5
  | .saddB64 d a b => 0x10#7 ++ d ++ 0x0#2 ++ a ++ 0x0#2 ++ b ++ 0x17#6
  | .ssubB64 d a b => 0x10#7 ++ d ++ 0x0#2 ++ a ++ 0x0#2 ++ b ++ 0x18#6
  | .smovB64 d a => 0x10#7 ++ d ++ 0x0#2 ++ a ++ 0x19#13
  | .sshlImm d a n => 0x10#7 ++ d ++ 0x0#1 ++ a ++ 0x0#2 ++ n ++ 0x1a#5
  | .sshrImm d a n => 0x10#7 ++ d ++ 0x0#1 ++ a ++ 0x0#2 ++ n ++ 0x1b#5
  | .ssraImm d a n => 0x10#7 ++ d ++ 0x0#1 ++ a ++ 0x0#2 ++ n ++ 0x1c#5
  | .saddImm d a i _ => 0x12#7 ++ d ++ 0x0#1 ++ a ++ i
  | .sli d i _ => 0x14#7 ++ d ++ 0x0#7 ++ i
  | .sandImm d a i _ => 0x16#7 ++ d ++ 0x0#1 ++ a ++ i
  | .sorImm d a i _ => 0x18#7 ++ d ++ 0x0#1 ++ a ++ i
  | .sxorImm d a i _ => 0x1a#7 ++ d ++ 0x0#1 ++ a ++ i
  | .sld d b l m _ => 0x1c#7 ++ d ++ b ++ 0x7f#7 ++ l ++ 0x2#2 ++ m
  | .sst d b m _ => 0x1e#7 ++ d ++ b ++ 0x1fc2#13 ++ m
  | .vadd t d a b _ => 0x4#4 ++ t ++ d ++ a ++ b ++ 0x0#5
  | .vsub t d a b _ => 0x4#4 ++ t ++ d ++ a ++ b ++ 0x1#5
  | .vmul t d a b _ => 0x4#4 ++ t ++ d ++ a ++ b ++ 0x2#5
  | .vfma t d a b _ => 0x4#4 ++ t ++ d ++ a ++ b ++ 0x3#5
  | .vfms t d a b _ => 0x4#4 ++ t ++ d ++ a ++ b ++ 0x4#5
  | .vmin t d a b _ => 0x4#4 ++ t ++ d ++ a ++ b ++ 0x5#5
  | .vmax t d a b _ => 0x4#4 ++ t ++ d ++ a ++ b ++ 0x6#5
  | .vrnd t d a _ => 0x4#4 ++ t ++ d ++ a ++ 0x7#12
  | .vcmpF t d a b c _ => 0x4#4 ++ t ++ 0x0#3 ++ d ++ a ++ b ++ 0x1#2 ++ c
  | .vrcp t d a l _ => 0x8#5 ++ t ++ d ++ a ++ 0x0#3 ++ l ++ 0x10#5
  | .vrsq t d a l _ => 0x8#5 ++ t ++ d ++ a ++ 0x0#3 ++ l ++ 0x11#5
  | .vsqrt t d a l _ => 0x8#5 ++ t ++ d ++ a ++ 0x0#3 ++ l ++ 0x12#5
  | .vexp2 t d a l _ => 0x8#5 ++ t ++ d ++ a ++ 0x0#3 ++ l ++ 0x13#5
  | .vlog2 t d a l _ => 0x8#5 ++ t ++ d ++ a ++ 0x0#3 ++ l ++ 0x14#5
  | .vsin t d a l _ => 0x8#5 ++ t ++ d ++ a ++ 0x0#3 ++ l ++ 0x15#5
  | .vcos t d a l _ => 0x8#5 ++ t ++ d ++ a ++ 0x0#3 ++ l ++ 0x16#5
  | .vtanh t d a l _ => 0x8#5 ++ t ++ d ++ a ++ 0x0#3 ++ l ++ 0x17#5
  | .viadd t d a b _ => 0x5#4 ++ t ++ d ++ a ++ b ++ 0x0#5
  | .visub t d a b _ => 0x5#4 ++ t ++ d ++ a ++ b ++ 0x1#5
  | .vimul t d a b _ => 0x5#4 ++ t ++ d ++ a ++ b ++ 0x2#5
  | .vimulh t d a b _ => 0x5#4 ++ t ++ d ++ a ++ b ++ 0x3#5
  | .vimad t d a b _ => 0x5#4 ++ t ++ d ++ a ++ b ++ 0x4#5
  | .vimin t d a b _ => 0x5#4 ++ t ++ d ++ a ++ b ++ 0x5#5
  | .vimax t d a b _ => 0x5#4 ++ t ++ d ++ a ++ b ++ 0x6#5
  | .vshl t d a b _ => 0x5#4 ++ t ++ d ++ a ++ b ++ 0x7#5
  | .vshr t d a b _ => 0x5#4 ++ t ++ d ++ a ++ b ++ 0x8#5
  | .vsra t d a b _ => 0x5#4 ++ t ++ d ++ a ++ b ++ 0x9#5
  | .vbfe t d a b _ => 0x5#4 ++ t ++ d ++ a ++ b ++ 0xa#5
  | .vbfi t d a b _ => 0x5#4 ++ t ++ d ++ a ++ b ++ 0xb#5
  | .vpopc t d a _ => 0x5#4 ++ t ++ d ++ a ++ 0xc#12
  | .vclz t d a _ => 0x5#4 ++ t ++ d ++ a ++ 0xd#12
  | .vdot4 d a b _ => 0x17#6 ++ d ++ a ++ b ++ 0xe#5
  | .vcmpI t d a b c _ => 0x5#4 ++ t ++ 0x0#3 ++ d ++ a ++ b ++ 0x2#2 ++ c
  | .viaddImm d a i _ _ => 0x18#6 ++ d ++ a ++ i
  | .vmovi d i _ _ => 0x19#6 ++ d ++ 0x0#7 ++ i
  | .vand d a b _ => 0x1a#6 ++ d ++ a ++ b ++ 0x0#5
  | .vor d a b _ => 0x1a#6 ++ d ++ a ++ b ++ 0x1#5
  | .vxor d a b _ => 0x1a#6 ++ d ++ a ++ b ++ 0x2#5
  | .vnot d a _ => 0x1a#6 ++ d ++ a ++ 0x3#12
  | .vmov d a _ => 0x1a#6 ++ d ++ a ++ 0x4#12
  | .vsel d a b k _ => 0x1a#6 ++ d ++ a ++ b ++ 0x1#1 ++ k
  | .vcvt d a s f _ => 0x1b#6 ++ d ++ a ++ s ++ 0x0#2 ++ f
  | .vpack d a b f _ => 0x1c#6 ++ d ++ a ++ b ++ f
  | .vunpk d a s i f _ => 0x1d#6 ++ d ++ a ++ s ++ i ++ f
  | .vshfl d a b w g _ => 0x20#6 ++ d ++ a ++ b ++ w ++ g ++ 0x0#1
  | .vbcst d a b w g _ => 0x21#6 ++ d ++ a ++ b ++ w ++ g ++ 0x0#1
  | .wred d a o w _ => 0x22#6 ++ d ++ a ++ o ++ 0x0#4 ++ w ++ 0x0#2
  | .wscan d a o e w _ => 0x22#6 ++ d ++ a ++ o ++ e ++ 0x0#3 ++ w ++ 0x1#2
  | .vballot d a w _ => 0x46#7 ++ d ++ 0x0#4 ++ a ++ 0x0#7 ++ w ++ 0x0#2
  | .vconf d a w _ => 0x118#9 ++ d ++ a ++ 0x0#7 ++ w ++ 0x1#2
  | .mand d a b => 0x120#9 ++ d ++ 0x0#3 ++ a ++ 0x0#3 ++ b ++ 0x0#5
  | .mor d a b => 0x120#9 ++ d ++ 0x0#3 ++ a ++ 0x0#3 ++ b ++ 0x1#5
  | .mxor d a b => 0x120#9 ++ d ++ 0x0#3 ++ a ++ 0x0#3 ++ b ++ 0x2#5
  | .mnot d a => 0x120#9 ++ d ++ 0x0#3 ++ a ++ 0x3#12
  | .mpopc d a => 0x48#7 ++ d ++ 0x0#3 ++ a ++ 0x4#12
  | .mffs d a => 0x48#7 ++ d ++ 0x0#3 ++ a ++ 0x5#12
  | .mmovMm d a => 0x120#9 ++ d ++ 0x0#3 ++ a ++ 0x6#12
  | .mmovMs d a => 0x48#7 ++ d ++ 0x0#4 ++ a ++ 0x7#12
  | .mmovSm d a => 0x120#9 ++ d ++ 0x0#1 ++ a ++ 0x8#13
  | .vld d b v l m _ _ => 0x28#6 ++ d ++ b ++ v ++ l ++ m
  | .vldAcq d b v l s _ _ => 0x29#6 ++ d ++ b ++ v ++ l ++ s
  | .vst d b v m _ _ => 0x2a#6 ++ d ++ b ++ v ++ 0x0#4 ++ m
  | .vstRel d b v s _ _ => 0x2b#6 ++ d ++ b ++ v ++ 0x0#4 ++ s
  | .vldp d v l m _ _ => 0x2c#6 ++ d ++ 0x0#5 ++ v ++ l ++ m
  | .vstp d v m _ _ => 0x2d#6 ++ d ++ 0x0#5 ++ v ++ 0x0#4 ++ m
  | .vatom d b v l o _ _ => 0x2e#6 ++ d ++ b ++ v ++ l ++ o
  | .vatomNear d b v l o _ _ => 0x2f#6 ++ d ++ b ++ v ++ l ++ o
  | .vatomHome d b v l o _ _ => 0x30#6 ++ d ++ b ++ v ++ l ++ o
  | .vared d b v g o _ _ => 0x31#6 ++ d ++ b ++ v ++ g ++ 0x0#2 ++ o
  | .fgath d v l m _ _ => 0x32#6 ++ d ++ 0x0#5 ++ v ++ 0x0#2 ++ l ++ 0x0#2 ++ m
  | .pref b v m _ _ => 0x1980#13 ++ b ++ v ++ 0x0#6 ++ m
  | .disc b v m _ _ => 0x1a00#13 ++ b ++ v ++ 0x0#4 ++ m
  | .tsmp d b v l m _ _ => 0x35#6 ++ d ++ 0x0#2 ++ b ++ v ++ 0x0#2 ++ l ++ m
  | .prime w c a p => 0x1c0#9 ++ w ++ c ++ a ++ p ++ 0x0#5
  | .mma w t c p => 0x1c1#9 ++ w ++ t ++ c ++ p ++ 0x0#2
  | .mfence w => 0x1c2#9 ++ w ++ 0x0#20
  | .bwait w n => 0x1c3#9 ++ w ++ 0x0#16 ++ n
  | .bwaitAll w => 0x1c3#9 ++ w ++ 0x80000#20
  | .accz w t n => 0x1c4#9 ++ w ++ t ++ n ++ 0x0#4
  | .accwr w t s f => 0x1c6#9 ++ w ++ t ++ s ++ 0x0#4 ++ f
  | .setscA w s => 0x1c7#9 ++ w ++ 0x0#8 ++ s ++ 0x0#6
  | .setscB w s => 0x1c7#9 ++ w ++ 0x80#8 ++ s ++ 0x0#6
  | .qntz w s a t u => 0x1c8#9 ++ w ++ s ++ a ++ t ++ u ++ 0x0#5
  | .dqnz w d a l => 0x1c9#9 ++ w ++ d ++ a ++ l ++ 0x0#4
  | .olrd w d a l => 0x1ca#9 ++ w ++ d ++ a ++ l ++ 0x0#4
  | .accrdReg r w t d l f => 0x3a#6 ++ r ++ w ++ t ++ d ++ l ++ f
  | .accrdMem r w t s y => 0x3b#6 ++ r ++ w ++ t ++ s ++ y ++ 0x0#2
  | .mcnt v p => 0x1e00#13 ++ v ++ 0x0#1 ++ p ++ 0x0#6
  | .mvtx i a n => 0xf01#12 ++ i ++ a ++ 0x0#2 ++ n ++ 0x0#2
  | .mprim i x => 0xf02#12 ++ i ++ x ++ 0x0#6
  | .vintp d b n => 0xf03#12 ++ d ++ b ++ 0x0#1 ++ n
  | .pxw c t => 0xf04#12 ++ c ++ 0x0#12 ++ t
  | .pxk k => 0x7828#15 ++ k ++ 0x0#13
  | .glzin n s => 0xf06#12 ++ n ++ 0x0#13 ++ s
  | .glzrd d i l s => 0xf07#12 ++ d ++ 0x0#2 ++ i ++ l ++ s
  | .glzres c b l s => 0xf08#12 ++ c ++ 0x0#1 ++ b ++ 0x0#1 ++ l ++ s
  | .glzclr r s => 0xf0900#20 ++ r ++ 0x0#5 ++ s
  | .rbox r n l => 0xf0a#12 ++ r ++ 0x0#4 ++ n ++ 0x0#1 ++ l ++ 0x0#2
  | .rtri r n l => 0xf0b#12 ++ r ++ 0x0#4 ++ n ++ 0x0#1 ++ l ++ 0x0#2
  | .wapp i x => 0xf0c#12 ++ i ++ x ++ 0x0#6
  | .wtake d x l => 0xf0d#12 ++ d ++ 0x0#1 ++ x ++ l ++ 0x0#2
  | .wqui d => 0x1e1c#13 ++ d ++ 0x0#13
  | .missSplit .. => 0
  | .joinLapse .. => 0
  | .fuseTimeout .. => 0
  | .forcedFuseTimeout .. => 0
  | .longLatencyComplete .. => 0
  | .memoryAccessPerform .. => 0
  | .lineMigration .. => 0
  | .monwWake .. => 0
  | .monwTimeout .. => 0
  | .fallbackWindowEnd .. => 0
  | .sleepExpire .. => 0
  | .yieldExpire .. => 0
  | .fenceWaitEnd .. => 0
  | .queueRoomWaitEnd .. => 0
  | .codeLoadComplete .. => 0
  | .cwaitWaitEnd .. => 0
  | .copyChunkLand .. => 0
  | .primeTakesEffect .. => 0
  | .mmaTakesEffect .. => 0
  | .bwaitWaitEnd .. => 0
  | .wappWaitEnd .. => 0
  | .glzinTurnWaitEnd .. => 0
  | .trapEntry .. => 0
  | .doorbell .. => 0
  | .arbiterDecision .. => 0
  | .managementLaunch .. => 0
  | .kernelLoad .. => 0
  | .kernelLoadDone .. => 0
  | .groupPlacement .. => 0
  | .cohortPlacement .. => 0
  | .cohortWaitHold .. => 0
  | .groupRetire .. => 0
  | .drawMeshPhase .. => 0
  | .drawAttributePass .. => 0
  | .drawTileRaster .. => 0
  | .preemptRequest .. => 0
  | .preemptSave .. => 0
  | .preemptDrainTimeout .. => 0
  | .restore .. => 0
  | .pageWalkComplete .. => 0
  | .invalidate .. => 0
  | .invalidateDone .. => 0
  | .resolve .. => 0
  | .fbheadWrite .. => 0
  | .hostWindowRead .. => 0
  | .hostWindowWrite .. => 0
  | .hostAtomic .. => 0
  | .functionLevelReset .. => 0
  | .remoteRequest .. => 0
  | .fabricTimeout .. => 0
  | .haltNoticeReceive .. => 0
  | .halt .. => 0
  | .haltComplete .. => 0
  | .resume .. => 0
  | .pcComparatorMatch .. => 0
  | .traceEnable .. => 0
  | .traceSample .. => 0
  | .traceStagingDrain .. => 0
  | .causalTrialStart .. => 0
  | .causalDelay .. => 0
  | .causalTrialEnd .. => 0
  | .powerOnReset .. => 0
  | .bootRomStageDone .. => 0
  | .firmwareVerify .. => 0
  | .selfTest .. => 0
  | .firmwareStart .. => 0
  | .getReport .. => 0
  | .getPubkey .. => 0
  | .getSelftest .. => 0
  | .retryBoot .. => 0
  | .sramScrub .. => 0
  | .gddrScrub .. => 0
  | .gddrRebuildComplete .. => 0
  | .coreRetirement .. => 0
  | .sliceRetirement .. => 0
  | .spanLaneSpare .. => 0
  | .laneRetrainComplete .. => 0
  | .counterFlush .. => 0
  | .counterFreeze .. => 0
  | .freezeDone .. => 0
  | .energyWindow .. => 0
  | .registerWrite .. => 0
  | .reservedEncoding .. => 0
  | .groupAbort .. => 0
  | .pcieConfigRequest .. => 0
  | .spanPortDown .. => 0
  | .pageUnpin .. => 0

/-- The prefix word of the fields (R116). -/
def encodePfx (p : Pfx) : Word :=
  0x05#6 ++ p.pm ++ p.rnd ++ BitVec.ofBool p.ftz ++ BitVec.ofBool p.sat ++ BitVec.ofBool p.z ++ p.ty ++ p.fop ++
    BitVec.ofBool p.na ++ BitVec.ofBool p.aa ++ BitVec.ofBool p.nb ++ BitVec.ofBool p.ab

/-- The hint words of what attaches (R122, R123). -/
def encodeHints (a : Attach) : List Word :=
  (match a.hint with | some h => [(0x10#8 ++ h : Word)] | .none => []) ++
  (match a.ext with | some x => [(0x11#8 ++ x.tx ++ x.jx ++ 0#12 : Word)] | .none => [])

/-- The words of an instruction's bundle: hints, prefix, instruction word. -/
def encode (i : Instr) : List Word :=
  encodeHints (attachOf i) ++ (match (attachOf i).pfx with | some p => [encodePfx p] | .none => []) ++ [encodeWord i]

/-- The constructors that stand for words: every one but the events of the device. -/
def Instr.encoded : Instr → Bool
  | .missSplit .. => false
  | .joinLapse .. => false
  | .fuseTimeout .. => false
  | .forcedFuseTimeout .. => false
  | .longLatencyComplete .. => false
  | .memoryAccessPerform .. => false
  | .lineMigration .. => false
  | .monwWake .. => false
  | .monwTimeout .. => false
  | .fallbackWindowEnd .. => false
  | .sleepExpire .. => false
  | .yieldExpire .. => false
  | .fenceWaitEnd .. => false
  | .queueRoomWaitEnd .. => false
  | .codeLoadComplete .. => false
  | .cwaitWaitEnd .. => false
  | .copyChunkLand .. => false
  | .primeTakesEffect .. => false
  | .mmaTakesEffect .. => false
  | .bwaitWaitEnd .. => false
  | .wappWaitEnd .. => false
  | .glzinTurnWaitEnd .. => false
  | .trapEntry .. => false
  | .doorbell .. => false
  | .arbiterDecision .. => false
  | .managementLaunch .. => false
  | .kernelLoad .. => false
  | .kernelLoadDone .. => false
  | .groupPlacement .. => false
  | .cohortPlacement .. => false
  | .cohortWaitHold .. => false
  | .groupRetire .. => false
  | .drawMeshPhase .. => false
  | .drawAttributePass .. => false
  | .drawTileRaster .. => false
  | .preemptRequest .. => false
  | .preemptSave .. => false
  | .preemptDrainTimeout .. => false
  | .restore .. => false
  | .pageWalkComplete .. => false
  | .invalidate .. => false
  | .invalidateDone .. => false
  | .resolve .. => false
  | .fbheadWrite .. => false
  | .hostWindowRead .. => false
  | .hostWindowWrite .. => false
  | .hostAtomic .. => false
  | .functionLevelReset .. => false
  | .remoteRequest .. => false
  | .fabricTimeout .. => false
  | .haltNoticeReceive .. => false
  | .halt .. => false
  | .haltComplete .. => false
  | .resume .. => false
  | .pcComparatorMatch .. => false
  | .traceEnable .. => false
  | .traceSample .. => false
  | .traceStagingDrain .. => false
  | .causalTrialStart .. => false
  | .causalDelay .. => false
  | .causalTrialEnd .. => false
  | .powerOnReset .. => false
  | .bootRomStageDone .. => false
  | .firmwareVerify .. => false
  | .selfTest .. => false
  | .firmwareStart .. => false
  | .getReport .. => false
  | .getPubkey .. => false
  | .getSelftest .. => false
  | .retryBoot .. => false
  | .sramScrub .. => false
  | .gddrScrub .. => false
  | .gddrRebuildComplete .. => false
  | .coreRetirement .. => false
  | .sliceRetirement .. => false
  | .spanLaneSpare .. => false
  | .laneRetrainComplete .. => false
  | .counterFlush .. => false
  | .counterFreeze .. => false
  | .freezeDone .. => false
  | .energyWindow .. => false
  | .registerWrite .. => false
  | .reservedEncoding .. => false
  | .groupAbort .. => false
  | .pcieConfigRequest .. => false
  | .spanPortDown .. => false
  | .pageUnpin .. => false
  | _ => true

end Sys2Proof
end

