-- ==== Sys2Proof/Machine/Legality.lean ====
section
/-!
DEFINITION. Element types (R106), the type an instruction runs with, the registers it names, and the checks of R142 that
depend on the bundle alone: register class and blocks (R104), types, rounding, scope, WM and modifiers (R118, R179, R205).
-/
namespace Sys2Proof.Machine

/-! ## Types -/

/-- The element types of R106. -/
inductive Ty
  | f32 | f16 | bf16 | f64 | e4m3 | e5m2 | i32 | n32 | i16 | n16 | i8 | n8 | b8 | b16 | b32 | b64 | b128
  deriving DecidableEq, Repr

/-- The type that a code names; `none` for 0x00, for 0x12 and for the codes above it (R106). -/
def Ty.ofCode (c : BitVec 5) : Option Ty :=
  match c.toNat with
  | 1 => some .f32 | 2 => some .f16 | 3 => some .bf16 | 4 => some .f64 | 5 => some .e4m3 | 6 => some .e5m2
  | 7 => some .i32 | 8 => some .n32 | 9 => some .i16 | 10 => some .n16 | 11 => some .i8 | 12 => some .n8
  | 13 => some .b8 | 14 => some .b16 | 15 => some .b32 | 16 => some .b64 | 17 => some .b128
  | _ => none

/-- The width of an element in bits. -/
def Ty.bits : Ty → Nat
  | .f32 | .i32 | .n32 | .b32 => 32
  | .f16 | .bf16 | .i16 | .n16 | .b16 => 16
  | .e4m3 | .e5m2 | .i8 | .n8 | .b8 => 8
  | .f64 | .b64 => 64
  | .b128 => 128

/-- The registers that an element occupies in each lane (R178). -/
def Ty.regs (t : Ty) : Nat := if t.bits = 64 then 2 else if t.bits = 128 then 4 else 1

/-- Signed integer types. -/
def Ty.signed : Ty → Bool
  | .i32 | .i16 | .i8 => true
  | _ => false

/-- Floating types. -/
def Ty.isFloat : Ty → Bool
  | .f32 | .f16 | .bf16 | .f64 | .e4m3 | .e5m2 => true
  | _ => false

/-- Integer types. -/
def Ty.isInt : Ty → Bool
  | .i32 | .n32 | .i16 | .n16 | .i8 | .n8 => true
  | _ => false

/-- Numeric types: codes 0x01 to 0x0c. -/
def Ty.numeric (t : Ty) : Bool := t.isFloat || t.isInt

/-- The type of the floating majors by [27:26] (R135). -/
def floatMajor (t : BitVec 2) : Ty :=
  match t.toNat with | 0 => .f32 | 1 => .f16 | 2 => .bf16 | _ => .f64

/-- The type of the integer majors by [27:26] (R135). -/
def intMajor (t : BitVec 2) : Ty :=
  match t.toNat with | 0 => .i32 | 1 => .n32 | 2 => .i16 | _ => .i8

/-- The six integer types. -/
def intTys : List Ty := [.i32, .n32, .i16, .n16, .i8, .n8]
/-- The types of the floating arithmetic. -/
def floatTys : List Ty := [.f32, .f16, .bf16, .f64]

/-- The prefix in force: an instruction without one behaves as with an all-zero one (R118). -/
def pfxOf (p : Option Pfx) : Pfx := p.getD Pfx.zero

/-- The type in force: the prefix's TY, or `d` when TY is 0 (R119); `none` for a TY that names no type. -/
def tyOf (p : Option Pfx) (d : Ty) : Option Ty :=
  if (pfxOf p).ty = 0 then some d else Ty.ofCode (pfxOf p).ty

/-- The type in force, `d` where there is none. -/
def tyD (p : Option Pfx) (d : Ty) : Ty := (tyOf p d).getD d

/-- The addend register: FOP when a prefix is present, D otherwise (R120). -/
def addendReg (p : Option Pfx) (d : BitVec 7) : Nat := match p with | some q => q.fop.toNat | none => d.toNat

/-- The Wmin that a WM field encodes (R107). -/
def wminOf (w : BitVec 3) : Nat := 4 * 2 ^ w.toNat

/-- The load sizes of R137: bytes and sign extension; `none` for 0b111. -/
def modSize (m : BitVec 3) : Option (Nat × Bool) :=
  match m.toNat with
  | 0 => some (1, false) | 1 => some (1, true) | 2 => some (2, false) | 3 => some (2, true)
  | 4 => some (4, false) | 5 => some (8, false) | 6 => some (16, false) | _ => none

/-- Registers of an access of `n` bytes (R208). -/
def sizeRegs (n : Nat) : Nat := if n = 8 then 2 else if n = 16 then 4 else 1

/-- The access size of VLD.acq and VST.rel: 32 bits, or the prefix type's (R209), with sign extension under .i8 and .i16. -/
def acqSize (p : Option Pfx) : Nat × Bool :=
  let t := tyD p .b32
  (t.bits / 8, t == .i8 || t == .i16)

/-- The types that an atomic operation accepts (R214). -/
def atomTys (op : Nat) : List Ty :=
  match op with
  | 0 => [.i32, .n32, .b64, .f32, .f64]
  | 1 | 2 => [.i32, .n32, .f32, .f64]
  | 3 | 4 | 5 => [.i32, .n32, .b32, .b64]
  | 6 => [.i32, .n32, .b32, .b64, .f32, .f64]
  | _ => [.b32, .b64]

/-! ## Registers named -/

/-- What registers an instruction names: vector operands as (first register, count), scalars and masks one by one. -/
structure Uses where
  vr : List (Nat × Nat) := []
  vw : List (Nat × Nat) := []
  sr : List Nat := []
  sw : List Nat := []
  mr : List Nat := []
  mw : List Nat := []
  deriving DecidableEq, Repr

/-- The pair that a 5-bit field names (R105). -/
def pr (s : BitVec 5) : List Nat := [2 * s.toNat, 2 * s.toNat + 1]
/-- `n` scalars from `b` on. -/
def blk (b n : Nat) : List Nat := (List.range n).map (b + ·)
/-- One vector operand of `n` registers. -/
def vo (r : BitVec 7) (n : Nat) : Nat × Nat := (r.toNat, n)
/-- The offset register of the M format, unless 0x7f says there is none (R111). -/
def voff (v : BitVec 7) : List (Nat × Nat) := if v = 0x7f then [] else [(v.toNat, 1)]
/-- The predicate mask of a prefix. -/
def pmOf (p : Option Pfx) : List Nat := if (pfxOf p).pm = 0 then [] else [(pfxOf p).pm.toNat]

/-- Two-source vector operations of type `t`. -/
def uses2 (t : Ty) (d a b : BitVec 7) (p : Option Pfx) : Uses :=
  { vr := [vo a t.regs, vo b t.regs], vw := [vo d t.regs], mr := pmOf p }
/-- Two sources and an addend of type `c`. -/
def uses3 (t c : Ty) (d a b : BitVec 7) (p : Option Pfx) : Uses :=
  { vr := [vo a t.regs, vo b t.regs, (addendReg p d, c.regs)], vw := [vo d c.regs], mr := pmOf p }
/-- One source. -/
def uses1 (t : Ty) (d a : BitVec 7) (p : Option Pfx) : Uses :=
  { vr := [vo a t.regs], vw := [vo d t.regs], mr := pmOf p }
/-- Scalar operations. -/
def usesS (d a b : BitVec 6) : Uses := { sr := [a.toNat, b.toNat], sw := [d.toNat] }
/-- A scalar operation with one source. -/
def usesS1 (d a : BitVec 6) : Uses := { sr := [a.toNat], sw := [d.toNat] }

/-- Registers of a cas or another atomic (R137, R214). -/
def atomUses (d : BitVec 7) (b : BitVec 5) (v : BitVec 7) (o : BitVec 3) (p : Option Pfx) (ret : Bool) : Uses :=
  let t := tyD p .i32
  let n := t.regs
  { vr := [(d.toNat, if o = 7 then 2 * n else n)] ++ voff v, vw := if ret then [(d.toNat, n)] else [], sr := pr b, mr := pmOf p }

/-- The registers that an instruction names (R104, R137, R140, R141). -/
def uses : Instr → Uses
  | .ret a => { sr := [a.toNat] }
  | .srd d n => if n.toNat < 2 then { vw := [(d.toNat, 1)] }
      else if n = 8 ∨ n = 0x104 ∨ n = 0x106 then { sw := blk d.toNat 2 } else { sw := [d.toNat] }
  | .swr a n => if n = 8 ∨ n = 0x104 ∨ n = 0x106 then { sr := blk a.toNat 2 } else { sr := [a.toNat] }
  | .splrd d _ _ => { sw := pr d }
  | .splwr a _ _ => { sr := pr a }
  | .cfetch a _ => { sr := pr a }
  | .sleep a | .evsig a _ | .barx a _ => { sr := [a.toNat] }
  | .bart d _ => { sw := [d.toNat] }
  | .mon a _ => { sr := pr a }
  | .monw a | .monwG a => { sr := [a.toNat], sw := [a.toNat] }
  | .cpya a _ => { sr := blk (4 * a.toNat) 4 }
  | .brc c s _ _ => if c.toNat < 2 then { sr := [s.toNat] } else { mr := [s.toNat] }
  | .call d _ _ => { sw := [d.toNat] }
  | .brd k _ _ _ => { mr := [k.toNat] }
  | .sadd d a b | .ssub d a b | .smul d a b | .smulh d a b | .smulhN32 d a b | .sand d a b | .sor d a b | .sxor d a b
  | .sshl d a b | .sshr d a b | .ssra d a b | .smin d a b | .sminN32 d a b | .smax d a b | .smaxN32 d a b
  | .scmpEq d a b | .scmpNe d a b | .scmpLt d a b | .scmpLe d a b | .scmpLtN32 d a b | .scmpLeN32 d a b => usesS d a b
  | .ssel d a b => { sr := [a.toNat, b.toNat, d.toNat], sw := [d.toNat] }
  | .smov d a | .sshlImm d a _ | .sshrImm d a _ | .ssraImm d a _ => usesS1 d a
  | .saddB64 d a b | .ssubB64 d a b => { sr := pr a ++ pr b, sw := pr d }
  | .smovB64 d a => { sr := pr a, sw := pr d }
  | .saddImm d a _ _ | .sandImm d a _ _ | .sorImm d a _ _ | .sxorImm d a _ _ => usesS1 d a
  | .sli d _ _ => { sw := [d.toNat] }
  | .sld d b _ m _ => { sr := pr b, sw := blk d.toNat (if m = 1 then 2 else 1) }
  | .sst d b m _ => { sr := pr b ++ blk d.toNat (if m = 1 then 2 else 1) }
  | .vadd t d a b p | .vsub t d a b p | .vmul t d a b p | .vmin t d a b p | .vmax t d a b p =>
      uses2 (tyD p (floatMajor t)) d a b p
  | .vfma t d a b p | .vfms t d a b p => uses3 (tyD p (floatMajor t)) (tyD p (floatMajor t)) d a b p
  | .vrnd t d a p => uses1 (tyD p (floatMajor t)) d a p
  | .vcmpF t d a b _ p => let y := tyD p (floatMajor t)
      { vr := [vo a y.regs, vo b y.regs], mr := pmOf p, mw := [d.toNat] }
  | .vrcp t d a _ p | .vrsq t d a _ p | .vsqrt t d a _ p | .vexp2 t d a _ p | .vlog2 t d a _ p | .vsin t d a _ p
  | .vcos t d a _ p | .vtanh t d a _ p => uses1 (tyD p (if t = 0 then .f32 else .f16)) d a p
  | .viadd t d a b p | .visub t d a b p | .vimul t d a b p | .vimulh t d a b p | .vimin t d a b p | .vimax t d a b p
  | .vshl t d a b p | .vshr t d a b p | .vsra t d a b p | .vbfe t d a b p => uses2 (tyD p (intMajor t)) d a b p
  | .vbfi _ d a b p => { vr := [vo a 1, vo b 1, vo d 1], vw := [vo d 1], mr := pmOf p }
  | .vimad t d a b p => uses3 (tyD p (intMajor t)) (tyD p (intMajor t)) d a b p
  | .vpopc t d a p | .vclz t d a p => uses1 (tyD p (intMajor t)) d a p
  | .vdot4 d a b p => uses3 .i8 .i32 d a b p
  | .vcmpI t d a b _ p => let y := tyD p (intMajor t)
      { vr := [vo a y.regs, vo b y.regs], mr := pmOf p, mw := [d.toNat] }
  | .viaddImm d a _ _ p => uses1 .i32 d a p
  | .vmovi d _ _ p => { vw := [vo d 1], mr := pmOf p }
  | .vand d a b p | .vor d a b p | .vxor d a b p => uses2 .b32 d a b p
  | .vnot d a p => uses1 .b32 d a p
  | .vmov d a p => uses1 (tyD p .b32) d a p
  | .vsel d a b k p => let y := tyD p .b32
      { vr := [vo a y.regs, vo b y.regs], vw := [vo d y.regs], mr := k.toNat :: pmOf p }
  | .vcvt d a s f p =>
      { vr := [vo a ((Ty.ofCode s).getD .b32).regs], vw := [vo d ((Ty.ofCode f).getD .b32).regs], mr := pmOf p }
  | .vpack d a b f p => if ((Ty.ofCode f).getD .b32).bits = 8 then { vr := [vo a 4], vw := [vo d 1], mr := pmOf p }
      else { vr := [vo a 1, vo b 1], vw := [vo d 1], mr := pmOf p }
  | .vunpk d a _ _ f p => { vr := [vo a 1], vw := [vo d ((Ty.ofCode f).getD .b32).regs], mr := pmOf p }
  | .vshfl d a b _ _ p => let y := tyD p .b32
      { vr := [vo a y.regs, vo b 1], vw := [vo d y.regs], mr := pmOf p }
  | .vbcst d a b _ _ p => let y := tyD p .b32
      { vr := [vo a y.regs], vw := [vo d y.regs], sr := if bitAt b 6 then [field b 0 6] else [], mr := pmOf p }
  | .wred d a _ _ p | .wscan d a _ _ _ p => uses1 (tyD p .i32) d a p
  | .vballot d a _ p => { mr := a.toNat :: pmOf p, sw := pr d }
  | .vconf d a _ p => { vr := [vo a (tyD p .b32).regs], mr := pmOf p, mw := [d.toNat] }
  | .mand d a b | .mor d a b | .mxor d a b => { mr := [a.toNat, b.toNat], mw := [d.toNat] }
  | .mnot d a | .mmovMm d a => { mr := [a.toNat], mw := [d.toNat] }
  | .mpopc d a | .mffs d a => { mr := [a.toNat], sw := [d.toNat] }
  | .mmovMs d a => { mr := [a.toNat], sw := pr d }
  | .mmovSm d a => { sr := pr a, mw := [d.toNat] }
  | .vld d b v _ m _ p => { vr := voff v, vw := [vo d (sizeRegs ((modSize m).getD (4, false)).1)], sr := pr b, mr := pmOf p }
  | .vldAcq d b v _ _ _ p => { vr := voff v, vw := [vo d (sizeRegs (acqSize p).1)], sr := pr b, mr := pmOf p }
  | .vst d b v m _ p => { vr := vo d (sizeRegs ((modSize m).getD (4, false)).1) :: voff v, sr := pr b, mr := pmOf p }
  | .vstRel d b v _ _ p => { vr := vo d (sizeRegs (acqSize p).1) :: voff v, sr := pr b, mr := pmOf p }
  | .vldp d v _ m _ p => { vr := [vo v 1], vw := [vo d (sizeRegs ((modSize m).getD (4, false)).1)], mr := pmOf p }
  | .vstp d v m _ p => { vr := [vo d (sizeRegs ((modSize m).getD (4, false)).1), vo v 1], mr := pmOf p }
  | .vatom d b v _ o _ p | .vatomNear d b v _ o _ p | .vatomHome d b v _ o _ p => atomUses d b v o p true
  | .vared d b v _ o _ p => atomUses d b v o p false
  | .fgath d v _ _ _ p => { vr := [(4 * v.toNat, 4)], vw := [vo d 1], mr := pmOf p }
  | .pref b v _ _ p | .disc b v _ _ p => { vr := voff v, sr := pr b, mr := pmOf p }
  | .tsmp d b v _ _ _ p => { vr := [(4 * v.toNat, 4)], vw := [(4 * d.toNat, 4)], sr := pr b, mr := pmOf p }
  | .prime _ _ a g => { sr := pr a ++ blk (4 * g.toNat) 4 }
  | .mma _ _ _ g => { sr := blk (4 * g.toNat) 4 }
  | .accwr _ _ s f => { vr := [vo s (if f = 1 then 64 else 32)] }
  | .setscA _ s | .setscB _ s => { sr := [s.toNat] }
  | .qntz _ s a _ _ => { vr := [vo s 1], sr := pr a }
  | .dqnz _ d a _ | .olrd _ d a _ => { vw := [vo d 1], sr := pr a }
  | .accrdReg _ _ _ d _ f => { vw := [vo d (if f = 1 then 64 else 32)] }
  | .accrdMem _ _ _ s _ => { sr := pr s }
  | .mcnt v g => { sr := [v.toNat, g.toNat] }
  | .mvtx i a n => { vr := [vo i 1, (4 * a.toNat, n.toNat + 1)] }
  | .mprim i x => { vr := [vo i 1, vo x 1] }
  | .vintp d b _ => { vr := [(2 * b.toNat, 2)], vw := [vo d 1] }
  | .pxw c _ => { vr := [(4 * c.toNat, 4)] }
  | .pxk k => { mr := [k.toNat] }
  | .glzin n _ => { vr := [(4 * n.toNat, 4)] }
  | .glzrd d i _ _ => { vr := [vo i 1], vw := [(4 * d.toNat, 4)] }
  | .glzres c b _ _ => { vr := [(2 * b.toNat, 2)], vw := [(2 * c.toNat, 2)] }
  | .glzclr r _ => { sr := pr r }
  | .rbox r n _ | .rtri r n _ => { vr := [(16 * r.toNat, 7), (2 * n.toNat, 2)], vw := [(16 * r.toNat + 8, 8)] }
  | .wapp i x => { vr := [vo i 1, vo x 1] }
  | .wtake d x _ => { vw := [vo d 1], sr := [x.toNat] }
  | .wqui d => { sw := [d.toNat] }
  | _ => {}

/-! ## The checks -/

/-- A vector operand starts at a multiple of its size and ends at v127 or below (R20, R104); the blocks of MVTX, whose
count is any from 1 to 16, and the result half of a ray block start where their fields can name. -/
def vopOk (o : Nat × Nat) : Bool :=
  (o.1 % (if o.2 = 2 then 2 else if o.2 = 4 ∨ o.2 = 3 then 4 else if o.2 = 32 then 32 else if o.2 = 64 then 64
    else if o.2 = 1 then 1 else 4)) == 0 && decide (o.1 + o.2 ≤ 128)

/-- Register class, range, pairing and blocks (R142 step 4), but for the wave's budget. -/
def regsOk (u : Uses) : Bool :=
  u.vr.all vopOk && u.vw.all vopOk && (u.sr ++ u.sw).all (· < 64) && u.mr.all (· < 16) && u.mw.all (fun m => decide (0 < m ∧ m < 16))

/-- What a prefix may carry for an instruction (R179, R205): the types, with `none` for a TY of 0 only, and the modifiers. -/
structure Mods where
  tys : List Ty := []
  dflt : Ty := .b32
  rnd : Bool := false
  ftz : Bool := false
  sat : Bool := false
  signA : Bool := false
  signB : Bool := false
  z : Bool := true
  addend : Bool := false
  deriving DecidableEq, Repr

/-- Type, rounding and modifier values that the instruction lists (R118, R142 step 5). -/
def pfxOk (m : Mods) (p : Option Pfx) : Bool :=
  let q := pfxOf p
  (if m.tys.isEmpty then q.ty == 0 else match tyOf p m.dflt with | some t => m.tys.contains t | none => false) &&
  (if m.rnd then decide (q.rnd.toNat ≤ 4) else q.rnd == 0) && (m.ftz || !q.ftz) && (m.sat || !q.sat) &&
  (m.signA || !(q.na || q.aa)) && (m.signB || !(q.nb || q.ab)) && (m.z || !q.z) && (m.addend || q.fop == 0)

/-- Modifiers of floating two-source arithmetic. -/
def modsF (t : BitVec 2) : Mods := { tys := floatTys, dflt := floatMajor t, rnd := true, ftz := true, signA := true, signB := true }
/-- Modifiers of integer operations of the given types. -/
def modsI (t : BitVec 2) (sat : Bool) : Mods := { tys := intTys, dflt := intMajor t, sat := sat }
/-- Modifiers of the special functions (R179, R184). -/
def modsSF (t : BitVec 1) : Mods := { tys := [.f32, .f16], dflt := if t = 0 then .f32 else .f16, rnd := true, ftz := true, signA := true }
/-- Modifiers of memory instructions (R205). -/
def modsM (z : Bool) : Mods := { z := z }
/-- Modifiers of WRED and WSCAN (R179, R202). -/
def modsW (o : BitVec 3) (p : Option Pfx) : Mods :=
  let t := tyD p .i32
  { tys := if o.toNat ≤ 2 then [.i32, .n32, .f32, .f64] else [.i32, .n32], dflt := .i32,
    rnd := t.isFloat && o == 0, ftz := t == .f32 && decide (o.toNat ≤ 2), sat := t.isInt && o == 0 }

/-- A wide-immediate hint on an RI word has W[23:20] = 0 (R122). -/
def riOk (h : Option (BitVec 24)) : Bool := match h with | some w => bits w 20 4 == 0#4 | none => true
/-- A branch extension on a B word has TX[5] and JX zero (R123). -/
def bOk (x : Option BExt) : Bool := match x with | some e => bits e.tx 5 1 == 0#1 && e.jx == 0 | none => true
/-- WM codes (R107). -/
def wmOk (w : BitVec 3) : Bool := decide (w.toNat ≤ 4)
/-- The type field of a VLD or VST prefix has the size that MOD selects (R209). -/
def accessTyOk (p : Option Pfx) (m : BitVec 3) : Bool :=
  if (pfxOf p).ty = 0 then true
  else match Ty.ofCode (pfxOf p).ty, modSize m with | some t, some (n, _) => t.bits == 8 * n | _, _ => false
/-- MOD of a store or DISC (R137). -/
def storeMod (m : BitVec 3) : Bool := m.toNat ∈ [0, 2, 4, 5, 6]
/-- The special registers that exist (R134, R412). -/
def sregKnown (n : BitVec 13) : Bool :=
  decide (n.toNat ≤ 0x0c) || n.toNat ∈ [0x100, 0x101, 0x102, 0x103, 0x104, 0x106, 0x108, 0x109] ||
    decide (0x140 ≤ n.toNat ∧ n.toNat ≤ 0x17f)
/-- The class of F1 fits the special register (R168): vector for an SRD of LANE or QUAD, an even scalar for a pair. -/
def sregOk (d : BitVec 7) (n : BitVec 13) (rd : Bool) : Bool :=
  sregKnown n && (if rd && decide (n.toNat < 2) then true
    else decide (d.toNat < 64) && (if n = 8 ∨ n = 0x104 ∨ n = 0x106 then d.toNat % 2 == 0 else true))
/-- Type and prefix of an atomic (R214). -/
def atomOk (o : BitVec 3) (p : Option Pfx) (ret : Bool) : Bool :=
  pfxOk { tys := atomTys o.toNat, dflt := .i32, z := ret } p

/-- The checks of R142 steps 1 to 5 on the fields of one instruction, beyond its registers. -/
def fieldsOk : Instr → Bool
  | .srd d n => sregOk d n true
  | .swr a n => sregOk a n false
  | .fence k s => k != 0 && decide (s.toNat ≤ 4)
  | .bra _ x => bOk x
  | .call _ _ x => bOk x
  | .brc c s _ x => decide (c.toNat ≤ 4) && (if c.toNat < 2 then decide (s.toNat < 64) else decide (s.toNat < 16)) && bOk x
  | .hintYield n => n != 0
  | .saddImm _ _ _ h | .sandImm _ _ _ h | .sorImm _ _ _ h | .sxorImm _ _ _ h | .sli _ _ h => riOk h
  | .sld d _ _ m _ | .sst d _ m _ => decide (m = 0) || decide (d.toNat % 2 = 0)
  | .vadd t _ _ _ p | .vsub t _ _ _ p | .vmul t _ _ _ p => pfxOk (modsF t) p
  | .vfma t _ _ _ p | .vfms t _ _ _ p => pfxOk { modsF t with addend := true } p
  | .vmin t _ _ _ p | .vmax t _ _ _ p | .vcmpF t _ _ _ _ p => pfxOk { modsF t with rnd := false } p
  | .vrnd t _ _ p => pfxOk { modsF t with signB := false } p
  | .vrcp t _ _ _ p | .vrsq t _ _ _ p | .vsqrt t _ _ _ p | .vexp2 t _ _ _ p | .vlog2 t _ _ _ p | .vsin t _ _ _ p
  | .vcos t _ _ _ p | .vtanh t _ _ _ p => pfxOk (modsSF t) p
  | .viadd t _ _ _ p | .visub t _ _ _ p | .vimul t _ _ _ p => pfxOk (modsI t true) p
  | .vimad t _ _ _ p => pfxOk { modsI t true with addend := true } p
  | .vimulh t _ _ _ p | .vimin t _ _ _ p | .vimax t _ _ _ p | .vshl t _ _ _ p | .vshr t _ _ _ p | .vsra t _ _ _ p =>
      pfxOk (modsI t false) p
  | .vpopc t _ _ p | .vclz t _ _ p => pfxOk (modsI t false) p
  | .vbfe t _ _ _ p | .vbfi t _ _ _ p => pfxOk { modsI t false with tys := [.i32, .n32] } p
  | .vcmpI t _ _ _ c p => decide (c.toNat < 6) && pfxOk (modsI t false) p
  | .vdot4 _ _ _ p => pfxOk { tys := [.i8, .n8], dflt := .i8, sat := true, addend := true } p
  | .viaddImm _ _ _ h p => riOk h && pfxOk { tys := intTys, dflt := .i32, sat := true } p
  | .vmovi _ _ h p => riOk h && pfxOk {} p
  | .vand _ _ _ p | .vor _ _ _ p | .vxor _ _ _ p => pfxOk { tys := [.b32] } p
  | .vnot _ _ p => pfxOk { tys := [.b32] } p
  | .vmov _ _ p => pfxOk { tys := [.b32, .b64, .b128] } p
  | .vsel _ _ _ _ p => pfxOk { tys := [.b32, .b64, .b128] } p
  | .vcvt _ _ s f p => (match Ty.ofCode s, Ty.ofCode f with | some x, some y => x.numeric && y.numeric | _, _ => false) &&
      pfxOk { rnd := true, ftz := true, sat := true } p
  | .vpack _ _ b f p =>
      (match Ty.ofCode f with
        | some y => (y ∈ [.f16, .bf16, .i16, .n16] || (y ∈ [.e4m3, .e5m2, .i8, .n8] && b == 0)) &&
            pfxOk { tys := [.f32, .i32, .n32], dflt := if y.isFloat then .f32 else .i32, rnd := true, ftz := true, sat := true } p
        | none => false)
  | .vunpk _ _ s i f p =>
      (match Ty.ofCode s, Ty.ofCode f with
        | some x, some y => x.numeric && y.numeric && decide (x.bits ≤ 32) && decide (i.toNat < 32 / x.bits)
        | _, _ => false) && pfxOk { rnd := true, ftz := true, sat := true } p
  | .vshfl _ _ _ w _ p | .vbcst _ _ _ w _ p => wmOk w && pfxOk { tys := [.b32, .b64] } p
  | .wred _ _ o w p | .wscan _ _ o _ w p => wmOk w && decide (o.toNat ≤ 5) && pfxOk (modsW o p) p
  | .vballot _ _ w p => wmOk w && pfxOk { z := false } p
  | .vconf _ _ w p => wmOk w && pfxOk { tys := [.b32, .b64] } p
  | .vld _ _ _ _ m _ p => (modSize m).isSome && accessTyOk p m && pfxOk { z := true } (p.map fun q => { q with ty := 0 })
  | .vst _ _ _ m _ p => storeMod m && accessTyOk p m && pfxOk { z := false } (p.map fun q => { q with ty := 0 })
  | .vldAcq _ _ _ _ s _ p => decide (s.toNat ≤ 4) && (tyOf p .b32).isSome && pfxOk { z := true } (p.map fun q => { q with ty := 0 })
  | .vstRel _ _ _ s _ p => decide (s.toNat ≤ 4) && (tyOf p .b32).isSome && pfxOk { z := false } (p.map fun q => { q with ty := 0 })
  | .vldp _ v _ m _ p => v != 0x7f && (modSize m).isSome && pfxOk (modsM true) p
  | .vstp _ v m _ p => v != 0x7f && storeMod m && pfxOk (modsM false) p
  | .vatom _ _ _ _ o _ p | .vatomNear _ _ _ _ o _ p | .vatomHome _ _ _ _ o _ p => atomOk o p true
  | .vared _ _ _ g o _ p => g != 3 && decide (o.toNat < 6) && atomOk o p false
  | .fgath _ _ _ _ _ p => pfxOk (modsM true) p
  | .tsmp _ _ _ _ m _ p => decide (m.toNat ≤ 2) && pfxOk (modsM true) p
  | .pref _ _ _ _ p => pfxOk (modsM false) p
  | .disc _ _ m _ p => storeMod m && pfxOk (modsM false) p
  | .prime w _ _ _ | .mma w _ _ _ | .mfence w | .bwait w _ | .bwaitAll w | .setscA w _ | .setscB w _ => wmOk w
  | .accz w t n => wmOk w && decide (t.toNat + n.toNat ≤ 255)
  | .accwr w _ _ _ | .dqnz w _ _ _ => w == 3 || w == 4
  | .qntz w _ _ t u => (w == 3 || w == 4) && (u == 0 || t == 0)
  | .olrd w _ _ _ => w == 2 || w == 3 || w == 4
  | .accrdReg r w _ _ _ _ => decide (r.toNat ≤ 4) && (w == 3 || w == 4)
  | .accrdMem r w _ _ y => decide (r.toNat ≤ 4) && wmOk w && ((Ty.ofCode y).any (·.numeric) || y == 0x12)
  | _ => true

/-- An instruction passes the checks of R142 steps 1 to 5 that depend on its bundle alone. -/
def legal (i : Instr) : Bool := fieldsOk i && regsOk (uses i)

/-- The instructions that only a privileged wave may issue (R145). -/
def privileged : Instr → Bool
  | .rte | .splrd .. | .splwr .. => true
  | .srd _ n | .swr _ n => n == 0x0c || decide (0x100 ≤ n.toNat)
  | _ => false

end Sys2Proof.Machine
end

