-- ==== Sys2Proof/Machine/Store.lean ====
section
/-!
DEFINITION. Sparse storage: a list of (index, value) pairs in one canonical form, indices strictly rising and no entry
equal to 0, which is what an unlisted index reads as (log 1). Memory, palettes, register files and tables are kept so.
-/
namespace Sys2Proof.Machine

/-- A sparse array of `w`-bit values; an unlisted index reads 0. -/
abbrev Store (w : Nat) := List (Nat × BitVec w)

/-- The value at index `a`. -/
def Store.get {w : Nat} : Store w → Nat → BitVec w
  | [], _ => 0
  | (k, v) :: m, a => if a = k then v else Store.get m a

/-- The canonical form with a 0 written at `a`: the entry of `a`, if any, is removed. -/
def Store.erase {w : Nat} (m : Store w) (a : Nat) : Store w := m.filter fun c => c.1 != a

/-- The store with the entry of `a` set to `x`, whatever `x` is. -/
def Store.insert {w : Nat} : Store w → Nat → BitVec w → Store w
  | [], a, x => [(a, x)]
  | (k, v) :: m, a, x =>
    if a = k then (a, x) :: m else if a < k then (a, x) :: (k, v) :: m else (k, v) :: Store.insert m a x

/-- Writes `x` at `a`, keeping the canonical form. -/
def Store.set {w : Nat} (m : Store w) (a : Nat) (x : BitVec w) : Store w :=
  if x = 0 then m.erase a else m.insert a x

/-- Every index is above `lo`, indices rise strictly and no listed value is 0. -/
def Store.wfAbove {w : Nat} : Nat → Store w → Bool
  | _, [] => true
  | lo, (k, v) :: m => decide (lo ≤ k) && decide (v ≠ 0) && Store.wfAbove (k + 1) m

/-- The canonical form. -/
def Store.wf {w : Nat} (m : Store w) : Bool := Store.wfAbove 0 m

/-- The store without the indices that `p` selects. -/
def Store.clear {w : Nat} (m : Store w) (p : Nat → Bool) : Store w := m.filter fun c => !p c.1

/-- Writes a list of values at consecutive indices. -/
def Store.setList {w : Nat} (m : Store w) (a : Nat) : List (BitVec w) → Store w
  | [] => m
  | x :: xs => Store.setList (m.set a x) (a + 1) xs

/-- The `n` values from index `a` on. -/
def Store.getList {w : Nat} (m : Store w) (a n : Nat) : List (BitVec w) := (List.range n).map fun i => m.get (a + i)

/-- Memory: bytes by address, Host.Cell pairs in the canonical form. -/
abbrev Memory := Store 8

/-- The canonical form of memory. -/
def Memory.wf (m : Memory) : Bool := Store.wf m

end Sys2Proof.Machine
end

