-- ==== Sys2Proof/Machine/State.lean ====
section
/-!
DEFINITION. The state of a Zheran module as plain data (01 R14 to R30, 04 R124 to R130, 08 R240, 18 to 24), the reasons a
step can stop, and the state after power-on reset. Every default below is the value that the spec gives the object when it
comes to exist (wave launch R29 and R396, group launch R224 and R240, core reset R154 and R426), or the value that the
named log entry gives.
-/
namespace Sys2Proof.Machine

/-- Reasons the machine stops. -/
inductive Fault
  /-- Raised by no meaning: the spec gives every instruction and every event an effect. Safe: stopping proves nothing. -/
  | none
  deriving DecidableEq, Repr

/-- Reasons a step is refused. -/
inductive Refusal
  /-- An instruction without a meaning in this model; raised only by its arm of Dispatch. Safe: the run ends there. -/
  | notModelled (mnemonic : String)
  deriving DecidableEq, Repr

/-! ## Waves -/

/-- A split-table entry (R27), field by field. -/
structure SplitEntry where
  kind : BitVec 2 := 0
  st : BitVec 3 := 0
  pv : Bool := false
  parent : BitVec 4 := 0
  jany : Bool := false
  dph : Bool := false
  qmask : Quads := 0
  pc : CodeAddr := 0
  lmask : Lanes := 0
  tcnt : BitVec 21 := 0
  jpc : CodeAddr := 0
  arrq : Quads := 0
  deriving DecidableEq, Repr

/-- What the bank of one quad holds of its part (R21, R171, R240). -/
structure QBank where
  /-- s0 to s63. -/
  sreg : Store 32 := []
  /-- Quantiser tile count (R73). -/
  qtc : Word := 0
  /-- Scale registers A and B: 1.0 at wave launch (R240). -/
  sca : Word := 0x3f800000
  scb : Word := 0x3f800000
  /-- Region stack, deepest entry first, depth and mismatch bit (R172). -/
  rgn : List (BitVec 14) := []
  rdepth : Nat := 0
  rmis : Bool := false
  /-- Dictionary phase (R130). -/
  phase : Bool := false
  /-- The parts whose program order the part continues, itself first (R331, R339): a split makes a new one, a fuse joins those of the parts
  that arrived. -/
  order : List Nat := [0]
  deriving DecidableEq, Repr

/-- A trap that a part has raised and that its wave has not entered (R408, R412 to R415). -/
structure TrapRec where
  code : BitVec 8
  sub : BitVec 8 := 0
  defer : Bool := false
  /-- Where RTE resumes. -/
  tpc : CodeAddr
  info : Word := 0
  addr : DWord := 0
  mask : Lanes := 0
  /-- The lookahead window at the trap, as TLOOK shows it (R408, R412). -/
  look : Word := 0
  /-- Taken at the part's next boundary: TPC is its PC at the entry (R414: SPLIT_OVF SUB 1, TRACE_FULL). -/
  late : Bool := false
  /-- The bundle that asked for the trap, where the part has moved past it (R169, R460). -/
  src : Option CodeAddr := none
  /-- Raised in this clk: traps of one clk are entered by quad order (R415). -/
  now : Bool := true
  deriving DecidableEq, Repr

/-- What a part in PARKW waits for (R28, R46). -/
inductive Park
  | none
  /-- A SLEEP with its remaining clk (R175). -/
  | sleep (rem : Nat)
  /-- A MONW or MONW.G: status register, remaining timeout if there is one (R236, R237). -/
  | monw (a : BitVec 6) (tmo : Option Nat) (g : Bool)
  /-- A BAR at a named barrier (R229). -/
  | bar (k : Nat)
  /-- A CBAR: module barrier and phase number (R233, R425). -/
  | cbar (k : Nat) (phase : Nat)
  /-- Parked by a MONW.G of another wave (R237). -/
  | frozen (wid : Nat)
  /-- A WQUI and its destination (R297). -/
  | wqui (d : BitVec 6)
  /-- A handler part at an instruction that met a PAGE fault (R416). -/
  | page
  /-- A wait that has ended while its wave is stopped (R46): once it is not, the part goes on after its instruction (`past`), or at it. -/
  | over (past : Bool)
  /-- A fault that the part raises at its instruction once its wave is not stopped, or its path is rotated in (R46, R34, R227, R230). -/
  | hit (t : TrapRec)
  deriving DecidableEq, Repr

/-- What the device holds for one split-table index beside the entry. -/
structure Aux where
  /-- Creation order of mask-path records (R34). -/
  seq : Nat := 0
  park : Park := .none
  /-- The instruction that waits at issue, not ready (R157, R223, R225, R243, R253, R254, R281, R295). -/
  blocked : Option Instr := none
  /-- Clk left of a HINT.yield, plus 1; 0 when there is none (R162). -/
  yield : Nat := 0
  /-- The lookahead window in which a pre-emption stopped the part, as TLOOK shows one; the next issue ends it (R422). -/
  look : Word := 0
  /-- Clk before the bundle at the PC is eligible (R146, R372). -/
  elig : Nat := 0
  /-- The instructions that a ninth L = 15 instruction waits for: the oldest of each full scoreboard (R126). -/
  ninth : List Nat := []
  /-- The part parked at entry I0 of a DICT: I1 issues when the wait ends (R130). -/
  half : Bool := false
  /-- Hint words of the bundle at the PC that have issued (R102). -/
  hints : Nat := 0
  /-- The two entries of a DICT that has passed R129, while they issue (R130). -/
  dict : Option (Instr × Instr) := none
  /-- Lanes that completed a PAGE-parked instruction (R37). -/
  done : Lanes := 0
  /-- Resolution identifiers of the records it is parked on (R436), and pages that were resolved with ERR. -/
  rids : List Nat := []
  errs : List Nat := []
  trap : Option TrapRec := none
  /-- A trap that waited for a bundle boundary when the bundle raised another: it is pending after that one (R415, R461). -/
  later : Option TrapRec := none
  /-- The bundle that a comparator has matched, which issues without matching again (R414, R454). -/
  skipCmp : Option CodeAddr := none
  /-- The order of recording of the fault that the CWAIT at the PC has raised (R157). -/
  told : Option Nat := none
  /-- Clk at which it became ready (R47). -/
  readyAt : Nat := 0
  /-- Consecutive clk of a stall at a partly complete load (R36). -/
  stall : Nat := 0
  /-- Slots that were triggered while the part waits in a MONW: its return is on the way (R236, R347); the time of the first. -/
  fired : BitVec 4 := 0
  firedAt : Nat := 0
  deriving DecidableEq, Repr

/-- A long-latency instruction that has not completed in every quad (R124 to R127). -/
structure Pend where
  id : Nat
  /-- The quads in which it has not completed. -/
  quads : Quads
  /-- `some n`: an open window with n unchecked issues left (R125). `none`: in the scoreboards (R126). -/
  win : Option Nat
  /-- Destination vector and scalar registers. -/
  vdst : List Nat := []
  sdst : List Nat := []
  /-- Results that are there: (64 v + lane, value), (scalar, value). -/
  vres : List (Nat × Word) := []
  sres : List (Nat × Word) := []
  /-- Issued by the handler part, whose scalars are its own (R409). -/
  hnd : Bool := false
  deriving DecidableEq, Repr

/-- A monitor slot (R234, R238). -/
structure Mon where
  armed : Bool := false
  line : Nat := 0
  trig : Bool := false
  /-- Page-granular fallback watch. -/
  fbk : Bool := false
  /-- A trigger held until the fallback window ends, and the time of the last return (R238). -/
  held : Bool := false
  last : Option Nat := none
  deriving DecidableEq, Repr

/-- The trap registers 0x100 to 0x109 (R412); TS0 to TS63 are kept in `Handler.ts`. -/
structure TrapRegs where
  tcause : Word := 0
  tpc : Word := 0
  tent : Word := 0
  tinfo : Word := 0
  taddr : DWord := 0
  tmask : DWord := 0
  tctx : Word := 0
  tlook : Word := 0
  deriving DecidableEq, Repr

/-- The handler part of a wave (R409). -/
structure Handler where
  run : Bool := false
  pc : CodeAddr := 0
  bank : QBank := {}
  aux : Aux := {}
  treg : TrapRegs := {}
  ts : Store 32 := []
  /-- Its reads go to the slice, after an acquire or fence of its own (R337). -/
  coherent : Bool := false
  deriving DecidableEq, Repr

/-- A recorded deferred fault (R255, R498): SRC 0 Easel op, 1 copy, 2 re-priming, 3 code-fetch load. -/
structure DFault where
  trap : TrapRec
  src : BitVec 2 := 0
  retry : Bool := false
  /-- The host record that must be resolved before the replay translates again (R416). -/
  rid : Option Nat := none
  /-- The order of recording (R498). -/
  seq : Nat := 0
  deriving DecidableEq, Repr

/-- An Easel op (R243): a PRIME or an MMA with what it read at issue. -/
structure EOp where
  oid : Nat
  wid : Nat
  gid : Nat
  mma : Bool
  /-- Canvas, tile, address, parameter block. -/
  can : Nat
  tile : Nat := 0
  addr : DWord := 0
  par : List Word := []
  batch : BitVec 16
  opix : Nat
  /-- A restore's re-priming (R423). -/
  again : Bool := false
  /-- The program order of the part that issued it and the first identifier after it (R247, R250, R331). -/
  order : List Nat := []
  limit : Nat := 0
  /-- A replay waits for this record (R416); pages that a host resolved with ERR. -/
  rid : Option Nat := none
  errs : List Nat := []
  /-- Elements that an ACCZ or ACCWR wrote after it was enqueued (R261). -/
  raced : List Nat := []
  /-- Mismatches in succession (R481). -/
  misses : Nat := 0
  /-- The clk of its issue and its place among the ops of that clk (R243). -/
  key : Nat := 0
  /-- A PRIME that faulted left a pair FAILED (R255). -/
  wide : Bool := false
  deriving DecidableEq, Repr

/-- The batch state of a wave (R240, R253). -/
structure Batch where
  bseq : BitVec 16 := 0
  /-- Ops of the open batch: joined, and not complete. -/
  nopen : Nat := 0
  left : Nat := 0
  /-- Closed batches in order: number, incomplete ops. -/
  closed : List (BitVec 16 × Nat) := []
  faults : List DFault := []
  /-- Ops discarded after a recorded fault, in order, the faulting op first (R255); they are enqueued again at the next BWAIT when
  `replay` says so. -/
  discarded : List EOp := []
  replay : Bool := false
  /-- Tiles written by ops of batches that are not complete (R261): batch, physical tile, and for its elements the value before the op and
  after each of its K-groups. -/
  wrote : List (BitVec 16 × Nat × List (Nat × List DWord)) := []
  deriving DecidableEq, Repr

/-- A wave (R14, R18). -/
structure Wave where
  wid : Nat
  gid : Nat
  /-- WAVE, WIDTH (R24). -/
  idx : Nat := 0
  width : Nat := 4
  core : Nat := 0
  part : Nat := 0
  slot : Nat := 0
  qbase : Nat := 0
  budget : Nat := 16
  launched : Lanes := 0
  exited : Lanes := 0
  /-- v0 to v127: index 64 v + lane. -/
  vreg : Store 32 := []
  /-- m1 to m15. -/
  mask : Store 64 := []
  /-- The 16 entries, and what the device holds beside them. -/
  split : List SplitEntry := List.replicate 16 {}
  aux : List Aux := List.replicate 16 {}
  /-- One bank for each quad of the wave. -/
  banks : List QBank := []
  fuseto : Word := 12
  splpol : Word := 12
  /-- Writes of this clk to FUSETO and SPLPOL, which take effect at the next one: lowest quad of the writer, value (R24). -/
  toFuseto : Option (Nat × Word) := none
  toSplpol : Option (Nat × Word) := none
  /-- Quads whose reads go to the slice, after an acquire or fence at device scope or wider (R337). -/
  coherent : Quads := 0
  mons : List Mon := List.replicate 4 {}
  /-- A return with RST is due (R238). -/
  rst : Bool := false
  handler : Handler := {}
  pend : List Pend := []
  batch : Batch := {}
  /-- Stopped until its group ends (R410, R474). -/
  dead : Bool := false
  /-- The root has issued (R460). -/
  begun : Bool := false
  deriving DecidableEq, Repr

/-! ## Memory accesses in flight (R330 to R334) -/

/-- One single-copy-atomic piece of an access (R207): lane, physical address, bytes, data or operand, compare value. -/
structure Piece where
  k : Nat
  lane : Nat
  addr : Nat
  n : Nat
  x : DWord := 0
  y : DWord := 0
  /-- Where a result goes: the first register. -/
  reg : Nat := 0
  /-- The virtual address; of an atomic the predictor's entry and whether it is placed near (R325, R326). -/
  va : Nat := 0
  slot : Nat := 0
  near : Bool := false
  /-- Home of its page: HOME, and 4 times the slice or core that the page names (R317). -/
  home : Nat := 0
  deriving DecidableEq, Repr

/-- What an access does. -/
inductive AccKind
  /-- A load; `sx` sign-extends. -/
  | load (sx : Bool)
  | store
  /-- A read-modify-write: op of R214, type code. -/
  | atom (op ty : Nat)
  | disc
  /-- A code-fetch load into a segment slot of a core (R155). -/
  | code (core slot : Nat)
  deriving DecidableEq, Repr

/-- An issued access that has pieces which have not performed. -/
structure Access where
  id : Nat
  wid : Nat
  /-- The quads of the part that issued it. -/
  quads : Quads
  /-- That part, first, and the parts whose program order it continues (R331). -/
  order : List Nat := [0]
  kind : AccKind
  /-- Made by the handler part, which is a part of its own (R409). -/
  hnd : Bool := false
  /-- A write of this function's host with Relaxed Ordering, which belongs to no wave (R345). -/
  host : Option Nat := none
  /-- The context that its window names. -/
  hctx : Nat := 0
  /-- Of an atomic: the line of its lowest lane, of which the slice reports (R326). -/
  lead : Nat := 0
  acq : Bool := false
  rel : Bool := false
  scope : Nat := 0
  /-- The long-latency instruction that waits for it, and whether it writes scalars. -/
  pend : Option Nat := none
  scalar : Bool := false
  pieces : List Piece
  /-- Translations that it used: (context, first 4 KiB page, page size as a power of two) (R435). -/
  pages : List (Nat × Nat × Nat) := []
  deriving DecidableEq, Repr

/-! ## Groups and launches -/

/-- A named barrier (R224, R227). -/
structure Barrier where
  phase : Word := 0
  arrivals : Nat := 0
  cnt : Int := 0
  /-- The recorded fault and the copy that met it (R227). -/
  fault : Option (DFault × Nat) := none
  deriving DecidableEq, Repr

/-- What a group runs as (R267). -/
inductive GroupKind
  | compute
  | mesh
  | pixel
  deriving DecidableEq, Repr

/-- A copy in flight (R225 to R227). -/
structure Copy where
  cid : Nat
  gid : Nat
  wid : Nat
  bar : Nat
  src : Nat
  off : Nat
  left : Nat
  /-- The program order of the part that issued it, or its handler part, and the first identifier after it: earlier accesses of the part
  come before it (R331, R341). -/
  order : List Nat := []
  hnd : Bool := false
  limit : Nat := 0
  /-- Stopped at its chunk on a recorded fault; with `late` on a deferred PAGE that its barrier records once it holds no other (R419): the order
  of recording; pages that a host resolved with ERR. -/
  parked : Bool := false
  late : Option Nat := none
  rid : Option Nat := none
  errs : List Nat := []
  deriving DecidableEq, Repr

/-- Where a group is in its life. -/
inductive GroupState
  | resident
  /-- A pre-emption was requested at this time and drains it (R418). -/
  | draining (since : Nat)
  /-- Its state is in its save image (R420), and a restore will place it again. -/
  | saved
  /-- Placed again; its overlay slots are being loaded (R424). -/
  | restoring
  deriving DecidableEq, Repr

/-- The output of a mesh group (R269 to R272). -/
structure MeshOut where
  declared : Bool := false
  nv : Nat := 0
  np : Nat := 0
  /-- Attribute words: 64 vertex + attribute. -/
  attr : Store 32 := []
  /-- Packed vertex indices by primitive. -/
  prim : List (Nat × Word) := []
  overrun : Bool := false
  culled : Nat := 0
  deriving DecidableEq, Repr

/-- An exact fraction. -/
structure Frac where
  num : Int
  den : Nat
  deriving DecidableEq, Repr

/-- A lane of a pixel group (R353): where it runs, its pixel, the primitive of its quad, its place in submission order (R351),
whether it is a helper lane, and once it has exited what it writes to colour targets (R275, R355). -/
structure Frag where
  gid : Nat := 0
  wave : Nat := 0
  lane : Nat := 0
  x : Nat
  y : Nat
  prim : Nat
  helper : Bool
  cover : Nat := 0
  b1 : Word := 0
  b2 : Word := 0
  z : Word := 0
  done : Bool := false
  /-- Records of PXW: target, colour. -/
  writes : List (Nat × List Word) := []
  deriving DecidableEq, Repr

/-- A group from its placement to its retirement. -/
structure Group where
  gid : Nat
  lid : Nat
  kind : GroupKind := .compute
  group : Word := 0
  cohort : Word := 0xffffffff
  ctx : Nat := 0
  core : Nat := 0
  kslot : Nat := 0
  state : GroupState := .resident
  /-- Save image index (R411). -/
  image : Nat := 0
  /-- Palette: base and size in bytes (R404). -/
  pbase : Nat := 0
  psize : Nat := 0
  /-- The physical tiles and canvases of the allocation, in order. -/
  tiles : List Nat := []
  cans : List Nat := []
  bars : List Barrier := []
  waves : Nat := 0
  strict : Bool := false
  queue : Nat := 0
  /-- Glaze descriptor addresses of slots 0 to 3 (R398); 0 unbound. -/
  glz : List Nat := [0, 0, 0, 0]
  mesh : MeshOut := {}
  /-- A deferred fault was left at retirement, or a save image failed (R407). -/
  status : Nat := 0
  degraded : Bool := false
  grains : Nat := 0
  /-- The wave whose MONW.G parks the other waves (R237). -/
  hold : Option Nat := none
  /-- The index of a mesh group in its draw; the tile of a pixel group. -/
  index : Nat := 0
  /-- Waves that were saved in WQUI or had exited (R371), and what the device keeps of a saved group beside its image: its waves and
  its copies (log 15). -/
  idle : Nat := 0
  kept : List Wave := []
  keptCopies : List Copy := []
  deriving DecidableEq, Repr

/-- Phases of a draw (R348 to R352). -/
inductive DrawPhase
  | amp
  | position
  | attrs
  | raster
  deriving DecidableEq, Repr

/-- A triangle that is drawn (R350): mesh group, primitive index, vertices on the screen in 1/256 pixel, z / w and 1 / w of each, and
each vertex's weights on the primitive's own three vertices, whose indices are in `ix`. -/
structure DPrim where
  g : Nat
  p : Nat
  vtx : List (Int × Int)
  zw : List Frac
  iw : List Frac
  wts : List (List Frac)
  ix : List Nat
  deriving DecidableEq, Repr

/-- A pixel group of a tile that waits for room (R352); its lanes are those of its identifier in `Draw.frags`. -/
structure PixGroup where
  gid : Nat
  tile : Nat
  waves : Nat
  deriving DecidableEq, Repr

/-- The state of a draw in progress (R348 to R355). -/
structure Draw where
  block : List DWord := []
  phase : DrawPhase := .amp
  /-- Mesh group indices of the phase that are not yet placed. -/
  todo : List Nat := []
  /-- Outputs of mesh groups of the position pass, with the attributes of the attribute pass. -/
  outs : List (Nat × MeshOut) := []
  /-- Triangles in submission order. -/
  prims : List DPrim := []
  /-- Tiles not yet rasterised; pixel groups not yet placed; lanes of pixel groups. -/
  tiles : List Nat := []
  wait : List PixGroup := []
  frags : List Frag := []
  /-- The core on which the pixel groups of a tile run (R352): tile, core. -/
  home : List (Nat × Nat) := []
  deriving DecidableEq, Repr

/-- A launch record that the arbiter has taken and that is not complete (R394, R407). -/
structure Launch where
  lid : Nat
  words : List DWord
  queue : Nat := 0
  func : Nat := 0
  ctx : Nat := 0
  vec : Nat := 0
  pri : Nat := 0
  seq : Word := 0
  /-- The event queue of a management launch (R403). -/
  event : Option Nat := none
  payload : Word := 0
  /-- Groups in all, placed, retired. -/
  total : Nat := 0
  placed : Nat := 0
  retired : Nat := 0
  /-- Groups that ended without retiring (R407). -/
  aborted : Nat := 0
  status : Nat := 0
  overrun : Bool := false
  culled : Nat := 0
  degraded : Bool := false
  glz : List Nat := [0, 0, 0, 0]
  draw : Option Draw := none
  /-- Waves of each group; waves of the launch that have exited. -/
  waves : Nat := 1
  exits : Nat := 0
  /-- Cohort barriers granted (module indices), the time since when a cohort waits, whether it holds placement (R405). -/
  cbars : List Nat := []
  since : Nat := 0
  hold : Bool := false
  deriving DecidableEq, Repr

/-! ## Cores -/

/-- States of a segment slot (R154). -/
inductive SlotState
  | empty
  | loading
  | landed
  | failed
  deriving DecidableEq, Repr

/-- A segment slot: state, owner (resident or overlay of a kernel slot), recorded source (R424), the loading context and
wave, the access that reads the source, and the fault of a load that is not yet reported (R157). -/
structure Slot where
  st : SlotState := .empty
  resident : Bool := false
  owner : Option Nat := none
  src : Option Nat := none
  ctx : Nat := 0
  wid : Nat := 0
  acc : Option Nat := none
  fault : Option TrapRec := none
  /-- The record whose resolution a restart waits for, and whether the host resolved it with ERR (R416). -/
  rid : Option Nat := none
  err : Bool := false
  /-- The order of recording of its fault (R498); a pre-emption stopped its load (R419). -/
  seq : Nat := 0
  stopped : Bool := false
  /-- LOADING, and not begun: the core holds 8 loads in flight, or a resolution is awaited (R155, R157, R424). -/
  queued : Bool := false
  deriving DecidableEq, Repr

/-- A physical tile's state (R426). -/
inductive TileState
  | free
  | live
  /-- Values of a saved group: its context and save image, and its index in the allocation. -/
  | held (ctx image k : Nat)
  | pend (filled : Bool)
  deriving DecidableEq, Repr

/-- States of a canvas (R241). -/
inductive CanState
  | empty
  | b8
  | b16h
  | b16l
  | failed
  deriving DecidableEq, Repr

/-- A prime record (R247, R498). -/
structure PrimeRec where
  addr : DWord
  nc : Nat
  nk : Nat
  fd : Nat
  batch : BitVec 16
  opix : Nat
  wave : Nat
  deriving DecidableEq, Repr

/-- A canvas (R240): mantissa cells at 64 k + n, E of block (kb, n) at 64 kb + n, the Stipple list of (k, n, VAL). -/
structure Canvas where
  st : CanState := .empty
  cell : Store 8 := []
  exp : Store 8 := []
  stipple : List (Nat × Nat × Word) := []
  prime : Option PrimeRec := none
  deriving DecidableEq, Repr

/-- What a partition has issued in this clk (R47). -/
structure IssueRec where
  quads : Quads := 0
  n : Nat := 0
  mem : Bool := false
  easel : Bool := false
  deriving DecidableEq, Repr

/-- What a kernel slot holds (R393): kernel identifier and context. -/
structure KSlot where
  kid : BitVec 16
  ctx : Nat
  deriving DecidableEq, Repr

/-- A PC comparator (R453). -/
structure Comparator where
  w0 : DWord := 0
  w1 : DWord := 0
  deriving DecidableEq, Repr

/-- A trace packet of this clk (R457 to R459): its part, its first word without DT, its further words, its clk, and the words
w3 and w4 of the SYNC that may have to come first. -/
structure TPkt where
  part : Nat := 0
  slot : Nat := 0
  ent : Nat := 0
  wid : Nat := 0
  w0 : Word
  more : List Word := []
  clk : Nat := 0
  sync : Option (Word × Word) := none
  deriving DecidableEq, Repr

/-- The debug, trace and causal state of a core (21). Registers are kept at their offset in the debug block / 8. -/
structure Debug where
  halted : Bool := false
  halting : Bool := false
  /-- A region stop matched in this clk: the halt begins with the next (R451). -/
  stopping : Bool := false
  regs : Store 64 := []
  /-- Packets of this clk; bytes written, bytes counted in WCNT; packets written; parts that have given their SYNC. -/
  tbuf : List TPkt := []
  tw : Nat := 0
  twc : Nat := 0
  tn : Nat := 0
  tsync : List (Nat × Nat) := []
  /-- Packets dropped, in all and since the last packet; clk of the last packet; packets in the staging area (R461). -/
  tlost : Nat := 0
  tdrop : Nat := 0
  tclk : Nat := 0
  staged : List (List Word) := []
  /-- The HALT packet of a region stop has been produced (R459). -/
  told : Bool := false
  /-- A sample is due; 1 more than the place of the part sampled last, 4096 partition + 64 slot + entry (R459). -/
  smp : Bool := false
  sampled : Nat := 0
  /-- Causal trial: running, the delay accumulator, a delay clk, a bundle in range has issued in this clk (R464). -/
  run : Bool := false
  dacc : Nat := 0
  delay : Bool := false
  inr : Bool := false
  deriving DecidableEq, Repr

/-- A core (00 R1, 01 R24). -/
structure Core where
  clk : DWord := 0
  acsown : Word := 0xffff
  /-- Element (m, n) of tile t at 1024 t + 32 m + n, binary64. -/
  tiles : Store 64 := []
  tst : List (Nat × TileState) := []
  /-- Poisoned tiles (R477). -/
  bad : List Nat := []
  cans : List (Nat × Canvas) := []
  easel : List EOp := []
  copies : List Copy := []
  slots : List Slot := List.replicate 128 {}
  imem : Store 32 := []
  /-- Entry i of kernel slot k at 1024 k + i. -/
  dict : Store 32 := []
  kslots : List (Option KSlot) := List.replicate 8 none
  /-- 2-bit predictor counters, exclusive-or 0b01 (R326: they start at 0b01). -/
  pred : Store 2 := []
  /-- The function of the context that the core last ran (R326). -/
  runs : Option Nat := none
  /-- The clk of the last ops that mismatched; the core has to be retired for them (R481). -/
  misses : List Nat := []
  worn : Bool := false
  /-- Group-fatal errors of its SRAMs (R482). -/
  fatal : Nat := 0
  issue : List IssueRec := List.replicate 8 {}
  /-- Parts that issued in this clk. -/
  issued : List Issuer := []
  dbg : Debug := {}
  /-- Physical core index (log 7). -/
  phys : Nat := 0
  deriving DecidableEq, Repr

/-! ## The module -/

/-- Registers and records of one PCIe function (20 R436 to R441, 18 R393, 24 R485 to R493). -/
structure Func where
  fbbase : DWord := 0
  fbctl : Word := 0
  fbtail : Word := 0
  fbhead : Word := 0
  invctl : Word := 0
  invva : DWord := 0
  invcnt : Word := 0
  klctx : Word := 0
  kload : DWord := 0
  win : Store 64 := []
  /-- The MSI-X table of BAR 2 and its pending-bit array, by offset / 8 (R485). In word 1 of an entry the mask bit, bit 32, is kept
  inverted, for it is 1 at reset (log 50). -/
  msix : Store 64 := []
  pba : Store 64 := []
  /-- Records that wait for room in the host buffer (R436): four words each. -/
  fbwait : List (List DWord) := []
  /-- The kernel load in progress: the record's eight words and the status it will report; the context that KLCTX named at its GO. -/
  kl : Option (List DWord × Nat) := none
  klat : Nat := 0
  /-- An invalidation in progress: the accesses that must still perform. -/
  inv : Option (List Nat) := none
  /-- Counter bank: 64-bit registers at bank offset / 8; staged counts of events not yet flushed. -/
  ctr : Store 64 := []
  staged : Store 64 := []
  frz : Bool := false
  /-- Energy remainder in the current window (R401, R495). -/
  rem : Int := 0
  deriving DecidableEq, Repr

/-- A resolution identifier not yet resolved (R436). -/
structure Rid where
  rid : Nat
  func : Nat
  ctx : Nat
  page : Nat
  parks : Bool
  /-- Its record reports a PAGE fault, which later ones of the page share. -/
  pg : Bool := false
  deriving DecidableEq, Repr

/-- A line record of the last-level cache: the slice to which requests for the line go and the run of requests of another panel
(R322), an exclusive owner (R325). -/
structure Line where
  line : Nat
  slice : Nat
  panel : Nat := 0
  run : Nat := 0
  owner : Option Nat := none
  /-- Its owner tag, the function of the request that filled it, while the slice holds the line (R489). -/
  tag : Option (BitVec 6) := none
  /-- Written since it was filled; of a slice-pinned page (R319). -/
  dirty : Bool := false
  pinned : Bool := false
  deriving DecidableEq, Repr

/-- What a PCIe configuration request is answered with (R466): Configuration Request Retry Status, or success, a read with its data. -/
inductive ConfigAnswer
  | retry
  | done
  | data (v : Word)
  deriving DecidableEq, Repr

/-- The boot sequence (22). -/
structure Boot where
  state : BitVec 8 := 0x01
  stage : BitVec 8 := 0x01
  fcode : BitVec 16 := 0
  fdetail : Word := 0
  len : BitVec 16 := 0
  cmd : BitVec 16 := 0
  busy : Bool := false
  rlen : BitVec 16 := 0
  rst : BitVec 16 := 0
  /-- The mailbox buffer (3,840 B); whether it was written while a command ran (R472). -/
  buf : Store 8 := []
  raced : Bool := false
  /-- The command under way, as the GO that started it found it: CMD, LEN (R472). -/
  run : BitVec 16 × BitVec 16 := (0, 0)
  /-- Firmware image slots A and B, the fused anti-rollback count (log 4). -/
  imageA : List Byte := []
  imageB : List Byte := []
  rollback : Nat := 0
  /-- The slot letter and the version of the accepted image (R473). -/
  letter : Byte := 0
  version : Word := 0
  /-- MEAS0 with its lock, MEAS1 (R468). -/
  meas0 : List Byte := List.replicate 64 0
  meas1 : List Byte := List.replicate 64 0
  locked0 : Bool := false
  /-- Self-test summary and entries (R469). -/
  selfSum : List Byte := List.replicate 64 0
  selfEnt : List (List Byte) := []
  /-- SR-IOV VF Enable (R470). -/
  vfEnable : Bool := false
  deriving DecidableEq, Repr

/-- Spares and wear (23): what has been replaced or retired. -/
structure Spares where
  /-- Panels whose spare core, whose spare slice is in use: (panel, retired index). -/
  cores : List (Nat × Nat) := []
  slices : List (Nat × Nat) := []
  /-- Span ports: spared lanes, ports down, ports that retrain. -/
  lanes : List (Nat × Nat) := []
  down : List Nat := []
  retrain : List Nat := []
  /-- GDDR-7: corrections by row (32 times the row, plus its device), remapped rows by device, retired devices (without correction from then on), a rebuild under way. -/
  rows : List (Nat × Nat) := []
  remapped : List (Nat × Nat) := []
  devices : List Nat := []
  rebuild : Option Nat := none
  offline : List Nat := []
  /-- Cores that are being replaced. -/
  retiring : List Nat := []
  /-- Slices that are retired without a spare; corrected errors of slices: slice, time (R483). -/
  gone : List Nat := []
  sliceErrs : List (Nat × Nat) := []
  /-- Corrected errors of SRAM rows, by core, macro class and row in one number, with their time; rows that have needed 16 within one scrub
  period (R476). -/
  sram : List (Nat × Nat) := []
  sramDue : List Nat := []
  deriving DecidableEq, Repr

/-- The energy registers (24 R494). -/
structure Energy where
  wlen : BitVec 10 := 31
  /-- The time at which the current window began. -/
  start : Nat := 0
  ewnum : Word := 0
  mbud : Word := 0
  mgrn : BitVec 48 := 0
  wgrn : BitVec 48 := 0
  ecnt : List (BitVec 48) := [0, 0, 0, 0]
  /-- Remainders of the queues in the current window, the module's remainder, the scale of estimates. -/
  qrem : List (Nat × Int) := []
  mrem : Int := 0
  deriving DecidableEq, Repr

/-- The arbiter's turn (R399): for each priority the function served and how many records it has had, and for each
(priority, function) the queue served last. -/
structure Arb where
  turn : List (Nat × Nat × Nat) := []
  last : List (Nat × Nat × Nat) := []
  deriving DecidableEq, Repr

/-- A cohort barrier (R233): its owner's launch, phase, arrivals. -/
structure CBarrier where
  owner : Option Nat := none
  phase : Word := 0
  /-- Waves that have arrived: 32 times the group identifier, plus the wave's index. -/
  arrived : List Nat := []
  deriving DecidableEq, Repr

/-- A work list of a scope (R368 to R371). -/
structure WorkList where
  /-- The scope: a group, or a cohort by its launch. -/
  scope : Nat
  cohort : Bool
  idx : Nat
  kcap : Nat
  rbase : Nat
  /-- Where its table entry is, for the write-back (R370). -/
  entry : Nat
  head : Word := 0
  tail : Word := 0
  deriving DecidableEq, Repr

/-- The state of a module. -/
structure State where
  /-- Bytes by key (R431, log 11): a local address as it is, the palette of core c from 2^57 + 2^20 c, an address of
  another node or of the host from 2^58. -/
  mem : Memory := []
  /-- Poisoned units by address (R477). -/
  poison : List Nat := []
  /-- Lines that a cache holds, and bytes of them that are older than memory: cache c below 64 is the L1 of core c with lines of 128
  bytes, cache 64 + c its fetch-unit cache with lines of 64 (R220, R314, R324, R337). -/
  copies : List (Nat × Nat) := []
  stale : List (Nat × Nat × Byte) := []
  /-- Values that bytes of a context held before lanes of the context wrote them, the latest first: context, key, byte (R222, R344). -/
  past : List (Nat × Nat × Byte) := []
  /-- Watches of other modules in this module's slices, of a line or of its page, and the wake-ups sent for them: node, line (R234,
  R238, R443). -/
  foreign : List (Nat × Nat × Bool) := []
  woken : List (Nat × Nat) := []
  /-- Core, line: whether another agent accessed the line since the core's last atomic to it (R326). -/
  atoms : List (Nat × Nat × Bool) := []
  lines : List Line := []
  inflight : List Access := []
  /-- Pages of other modules, by key / 4096, that their modules refuse, with the SUB; nodes that do not answer; requests of other modules that
  this one refused: address, SUB (R444, R445). -/
  refused : List (Nat × Nat) := []
  silent : List Nat := []
  turned : List (Nat × Nat) := []
  /-- The common time base: clk = 10 units, fclk = 7 units (R2). -/
  time : Nat := 0
  /-- The model's own counters: free values, identifiers (log 2). -/
  fresh : Nat := 0
  nextId : Nat := 1
  /-- Actions of the world outside that are still to come, in order, each with the time before which it does not come (log 3). -/
  inputs : List (Nat × Instr) := []
  /-- Bits that are to flip in the arithmetic of a core, each in the next MMA there that takes effect (R480): the outside's, as the actions are. -/
  upsets : List (Nat × Upset) := []
  /-- The route table that the fleet firmware holds for this module, to write at bring-up (R442). -/
  fleet : List (Nat × List Nat) := []
  /-- Format descriptors that drivers are still to load (R91): the time before which one does not come, context, index, eight words. -/
  fdLoads : List (Nat × Nat × Nat × List DWord) := []
  /-- The issuer of the instruction that the step executes. -/
  cur : Option Issuer := none
  waves : List Wave := []
  groups : List Group := []
  taken : List Launch := []
  cores : List Core := List.replicate 64 {}
  funcs : List Func := List.replicate 64 {}
  /-- Format descriptors: (context, index, eight words) that are loaded (R67); unlisted: 0. -/
  fds : List (Nat × Nat × List DWord) := []
  /-- TLB entries by TLB, core c or 64 + panel: TLB, context, page, leaf entry, page size as a power of two (R434). -/
  tlb : List (Nat × Nat × Nat × DWord × Nat) := []
  rids : List Rid := []
  /-- MSI-X signals sent: function, vector. -/
  msi : List (Nat × Nat) := []
  /-- Answers to host reads, remote requests, configuration requests, in order. -/
  answers : List (List Byte) := []
  config : List ConfigAnswer := []
  nodeid : BitVec 11 := 0
  qtbase : DWord := 0
  ctxbase : DWord := 0
  astbase : DWord := 0
  prectl : DWord := 0
  /-- Context and core of the pre-emption that is in flight (R441). -/
  preq : Nat × Nat := (0, 0)
  notice : DWord := 0
  /-- The route table: nodes and the span ports that lead to them (R442, log 5). -/
  routes : List (Nat × List Nat) := []
  /-- Halt notices sent: node, 1 for a halt, CLK (R447). -/
  sent : List (Nat × Bool × DWord) := []
  arb : Arb := {}
  /-- Event queues 0 to 15: pending payloads; the outstanding launch. -/
  events : List (List Word) := List.replicate 16 []
  evbusy : List (Option Nat) := List.replicate 16 none
  cbars : List CBarrier := List.replicate 16 {}
  lists : List WorkList := []
  glz : List (Nat × Nat) := []
  /-- Keys of the pool control blocks that the glaze unit has written (R360, log 43). -/
  pools : List Nat := []
  energy : Energy := {}
  boot : Boot := {}
  spares : Spares := {}
  deriving DecidableEq, Repr

/-- The cores at reset: physical core 17 p + i is exposed core 16 p + i of panel p (log 7). -/
def resetCores : List Core := (List.range 64).map fun c => { phys := c / 16 * 17 + c % 16 }

/-- The module right after power-on reset (R466): stage 0x01, no group resident, every field as above. -/
def State.reset : State := { cores := resetCores }

end Sys2Proof.Machine
end

