-- ==== Sys2Proof/Machine/Base.lean ====
section
/-!
DEFINITION. Looking up and replacing the parts of the state, reading and writing storage, host fault-buffer records (R436),
MSI-X signals and staged event counts (R488, R490).
-/
namespace Sys2Proof.Machine

/-! ## Keys of storage (R431, R327; log 11) -/

/-- Local addresses end below this (R431). -/
def localEnd : Nat := 248000000000
/-- The key of a palette byte. -/
def palKey (core off : Nat) : Nat := 2 ^ 57 + core * 2 ^ 20 + off
/-- The core of a palette byte. -/
def palCore (k : Nat) : Nat := (k - 2 ^ 57) / 2 ^ 20
/-- The key of a physical address: local on the own node, a foreign one otherwise. -/
def physKey (s : State) (p : Nat) : Nat := if p / 2 ^ 45 % 2 ^ 11 = s.nodeid.toNat then p % 2 ^ 45 else 2 ^ 58 + p
/-- The key of a host bus address (node 2,047). -/
def hostKey (a : Nat) : Nat := 2 ^ 58 + 2047 * 2 ^ 45 + a % 2 ^ 45
/-- Keys of local device memory, of palettes, of host memory, of other nodes. -/
def isLocalKey (k : Nat) : Bool := decide (k < 2 ^ 45)
def isPalKey (k : Nat) : Bool := decide (2 ^ 57 ≤ k ∧ k < 2 ^ 58)
def isHostKey (k : Nat) : Bool := decide (2 ^ 58 + 2047 * 2 ^ 45 ≤ k)
def isRemoteKey (k : Nat) : Bool := decide (2 ^ 58 ≤ k) && !isHostKey k

/-! ## Lookup and replacement -/

def State.core (s : State) (c : Nat) : Core := (s.cores[c]?).getD {}
def State.func (s : State) (f : Nat) : Func := (s.funcs[f]?).getD {}
def State.wave? (s : State) (wid : Nat) : Option Wave := s.waves.find? fun w => w.wid == wid
def State.group? (s : State) (gid : Nat) : Option Group := s.groups.find? fun g => g.gid == gid
def State.launch? (s : State) (lid : Nat) : Option Launch := s.taken.find? fun l => l.lid == lid

def State.updCore (s : State) (c : Nat) (f : Core → Core) : State := { s with cores := modifyAt c f s.cores }
def State.updFunc (s : State) (i : Nat) (f : Func → Func) : State := { s with funcs := modifyAt i f s.funcs }
def State.updWave (s : State) (wid : Nat) (f : Wave → Wave) : State :=
  { s with waves := modifyFirst (fun w => w.wid == wid) f s.waves }
def State.updGroup (s : State) (gid : Nat) (f : Group → Group) : State :=
  { s with groups := modifyFirst (fun g => g.gid == gid) f s.groups }
def State.updLaunch (s : State) (lid : Nat) (f : Launch → Launch) : State :=
  { s with taken := modifyFirst (fun l => l.lid == lid) f s.taken }
/-- Replaces the wave of the same identifier. -/
def State.setWave (s : State) (w : Wave) : State := s.updWave w.wid fun _ => w
/-- A new identifier. -/
def State.newId (s : State) : Nat × State := (s.nextId, { s with nextId := s.nextId + 1 })
/-- The index of the next free value, and the counter advanced (log 2). -/
def State.draw (s : State) : Nat × State := (s.fresh, { s with fresh := s.fresh + 1 })

/-- The waves of a group. -/
def State.wavesOf (s : State) (gid : Nat) : List Wave := s.waves.filter fun w => w.gid == gid
/-- The panel of an exposed core. -/
def panelOf (core : Nat) : Nat := core / 16

/-! ## Program order (R331, R339) -/

/-- An access of the code-fetch engine, which is an agent of its own (R330). -/
def Access.isCode (a : Access) : Bool := match a.kind with | .code .. => true | _ => false
/-- The part that issued something stands in a program order. -/
def inOrder (mine order : List Nat) : Bool := match mine with | p :: _ => order.contains p | [] => false
/-- The access stands in the program order `order` of a part, or of the handler part (R331, R409). -/
def Access.ofPart (a : Access) (wid : Nat) (hnd : Bool) (order : List Nat) : Bool :=
  a.wid == wid && a.hnd == hnd && a.host.isNone && (hnd || inOrder a.order order) && !a.isCode

/-- A register of the debug block, by offset (R448). -/
def Core.dreg (c : Core) (off : Nat) : DWord := c.dbg.regs.get (off / 8)

/-! ## Split-table entries -/

def Wave.ent (w : Wave) (e : Nat) : SplitEntry := (w.split[e]?).getD {}
def Wave.auxAt (w : Wave) (e : Nat) : Aux := (w.aux[e]?).getD {}
def Wave.updEnt (w : Wave) (e : Nat) (f : SplitEntry → SplitEntry) : Wave := { w with split := modifyAt e f w.split }
def Wave.updAux (w : Wave) (e : Nat) (f : Aux → Aux) : Wave := { w with aux := modifyAt e f w.aux }
def Wave.nq (w : Wave) : Nat := w.width / 4
/-- Every quad of the wave. -/
def Wave.allQuads (w : Wave) : Quads := BitVec.ofNat 16 (2 ^ w.nq - 1)
/-- The lanes that have not exited. -/
def Wave.living (w : Wave) : Lanes := w.launched &&& ~~~w.exited
/-- Entry kinds (R27) and running-part states (R28). -/
def SplitEntry.isPart (e : SplitEntry) : Bool := e.kind == 1
def SplitEntry.isJoin (e : SplitEntry) : Bool := e.kind == 2
def SplitEntry.isPath (e : SplitEntry) : Bool := e.kind == 3
def stReady : BitVec 3 := 0
def stJwait : BitVec 3 := 1
def stFwait : BitVec 3 := 2
def stParkf : BitVec 3 := 3
def stParkw : BitVec 3 := 4
def stStub : BitVec 3 := 5
/-- The indices of the table. -/
def entIdx : List Nat := List.range 16
/-- Running parts, free entries. -/
def Wave.parts (w : Wave) : List Nat := entIdx.filter fun e => (w.ent e).isPart
def Wave.freeEnts (w : Wave) : List Nat := entIdx.filter fun e => (w.ent e).kind == 0

/-- The lookahead window of the quads `q`, as TLOOK shows it: an open window in [4], its remaining issues in [3:0] (R412); without one, that
which an RTE or a restore has brought back (R170, R422). -/
def Wave.lookOf (w : Wave) (q : Quads) (a : Aux) : Word :=
  match (w.pend.filter fun p => (p.quads &&& q) != 0).filterMap (·.win) with
  | [] => a.look
  | n :: ns => 0x10 ||| BitVec.ofNat 32 (ns.foldl min n)
/-- That of the running part in entry `e`. -/
def Wave.lookAt (w : Wave) (e : Nat) : Word := w.lookOf (w.ent e).qmask (w.auxAt e)

/-- The four words of an entry (R27): reserved bits read 0, and so does JPC in a running part. -/
def SplitEntry.word (e : SplitEntry) (k : Nat) : DWord :=
  match k with
  | 0 => e.kind ++ e.st ++ BitVec.ofBool e.pv ++ e.parent ++ BitVec.ofBool e.jany ++ BitVec.ofBool e.dph ++ 0#4 ++ e.qmask ++ 0#15 ++ e.pc
  | 1 => e.lmask
  | 2 => 0#23 ++ e.tcnt ++ 0#3 ++ (if e.isPart then 0#17 else e.jpc)
  | _ => 0#48 ++ e.arrq

/-- An entry with word `k` written: reserved bits are ignored (R9, R171). -/
def SplitEntry.setWord (e : SplitEntry) (k : Nat) (x : DWord) : SplitEntry :=
  match k with
  | 0 => { e with kind := bits x 62 2, st := bits x 59 3, pv := bitAt x 58, parent := bits x 54 4, jany := bitAt x 53, dph := bitAt x 52,
                  qmask := bits x 32 16, pc := bits x 0 17 }
  | 1 => { e with lmask := x }
  | 2 => { e with tcnt := bits x 20 21, jpc := bits x 0 17 }
  | _ => { e with arrq := bits x 0 16 }

/-- The module has reached READY (R466, R471). -/
def State.isReady (s : State) : Bool := s.boot.state == 0x05
/-- BAR registers of a function answer: the module is enumerated and not in the safe state, and a virtual function is enabled
(R466, R470). -/
def State.hostOk (s : State) (func : Nat) : Bool := s.boot.state != 0x80 && s.boot.stage != 0x01 && (func == 0 || s.boot.vfEnable) && decide (func < 64)

/-! ## Event counts (R488, R490) -/

/-- Stages `n` events of code `evt` for function `f`, caused on `panel`; discarded while the function is frozen (R493). -/
def State.count (s : State) (f evt panel n : Nat) : State :=
  if (s.func f).frz then s
  else s.updFunc f fun x => { x with staged := x.staged.set (4 * evt + panel) (x.staged.get (4 * evt + panel) + BitVec.ofNat 64 n) }

/-- `n` corrected errors: of SRAM 0, GDDR-7 1, span links 2, Easel retries 3 (R488, R494). -/
def State.correctedBy (s : State) (k panel n : Nat) : State :=
  { s with energy := { s.energy with ecnt := modifyAt k (fun x => BitVec.ofNat 48 (min (x.toNat + n) (2 ^ 48 - 1))) s.energy.ecnt } }.count 0 0x30 panel n
/-- One corrected error. -/
def State.corrected (s : State) (k panel : Nat) : State := s.correctedBy k panel 1

/-! ## Reading storage -/

/-- `n` bytes from key `k` as a number (R7). -/
def State.rd (s : State) (k n : Nat) : Nat := ofBytes (s.mem.getList k n)
/-- A 64-bit word. -/
def State.rd64 (s : State) (k : Nat) : DWord := BitVec.ofNat 64 (s.rd k 8)
/-- A 32-bit word. -/
def State.rd32 (s : State) (k : Nat) : Word := BitVec.ofNat 32 (s.rd k 4)

/-- The context table's entry of a context (R411): words 0 and 1. The table is indexed by CTX (log 12). -/
def State.ctxWord (s : State) (ctx w : Nat) : DWord := s.rd64 (s.ctxbase.toNat + 64 * ctx + 8 * w)
/-- The function that owns a context, its handler entry, its first save image, its number of images (R411). -/
def State.ctxFunc (s : State) (ctx : Nat) : Nat := field (s.ctxWord ctx 1) 17 6
def State.ctxTvec (s : State) (ctx : Nat) : CodeAddr := bits (s.ctxWord ctx 1) 0 17
def State.ctxSave (s : State) (ctx : Nat) : Nat := field (s.ctxWord ctx 0) 0 57
def State.ctxImages (s : State) (ctx : Nat) : Nat := field (s.ctxWord ctx 1) 32 16

/-! ## Writing storage: writes set TRIG (R235, R238) -/

/-- Whether a write to bytes `k` to `k + n - 1` touches what slot `m` watches. -/
def Mon.hit (m : Mon) (k n : Nat) : Bool :=
  m.armed && (if m.fbk then decide (k / 4096 ≤ m.line / 4096 ∧ m.line / 4096 ≤ (k + n - 1) / 4096)
    else decide (k / 128 ≤ m.line / 128 ∧ m.line / 128 ≤ (k + n - 1) / 128))

/-- A fallback slot delivers at most one return per 65,536 clk: a trigger within the window is held (R238). -/
def Mon.trigger (m : Mon) (clk : Nat) : Mon :=
  if m.fbk then match m.last with
    | some t => if clk < t + 65536 then { m with held := true } else { m with trig := true }
    | none => { m with trig := true }
  else { m with trig := true }

/-- The armed slots whose TRIG is set. -/
def Wave.trigs (w : Wave) : BitVec 4 :=
  BitVec.ofNat 4 (((List.range 4).filter fun n => match w.mons[n]? with | some m => m.armed && m.trig | none => false).foldl (fun a n => a + 2 ^ n) 0)

/-- Every part that waits in a MONW notes the slots whose TRIG is set, and the time: each of them returns, whichever return clears the
bits (R236, R347), and of a fallback slot too, to which R238 allows one return in 65,536 clk without saying of which part (DESIGN CHOICE, log 32). -/
def Wave.latch (w : Wave) (time : Nat) : Wave :=
  if w.trigs = 0 then w
  else { w with aux := w.aux.map fun a => match a.park with
    | .monw .. => { a with fired := a.fired ||| w.trigs, firedAt := if a.fired = 0 then time else a.firedAt }
    | _ => a }

/-- Sets TRIG of every slot that watches a byte of the write; watches of other modules get a wake-up over the fabric (R443). -/
def State.notify (s : State) (k n : Nat) : State :=
  if n = 0 then s
  else { s with
    woken := s.woken ++ (s.foreign.filter fun f => (Mon.hit { armed := true, line := 128 * f.2.1, fbk := f.2.2 } k n)).map fun f => (f.1, f.2.1)
    waves := s.waves.map fun w =>
      if w.mons.any fun m => m.hit k n then
        Wave.latch { w with mons := w.mons.map fun m => if m.hit k n then m.trigger (s.core w.core).clk.toNat else m } s.time
      else w }

/-- The unit that a contained error poisons: 64 bytes of palette, a line of memory (R477). -/
def unitSize (k : Nat) : Nat := if isPalKey k then 64 else 128
def unitOf (k : Nat) : Nat := k / unitSize k * unitSize k

/-- Poisoned units that the keys cover whole lose their poison (R477). -/
def State.cleanse (s : State) (covers : Nat → Bool) : State :=
  if s.poison.isEmpty then s else { s with poison := s.poison.filter fun u => !((List.range (unitSize u)).all fun i => covers (u + i)) }

/-- Writes the bytes at key `k`, with the notices that go with a write. A poisoned unit keeps its bytes unless the write covers it
(R477). -/
def State.wr (s : State) (k : Nat) (bs : List Byte) : State :=
  if s.poison.isEmpty then ({ s with mem := s.mem.setList k bs }).notify k bs.length
  else
    let s1 := s.cleanse fun a => decide (k ≤ a ∧ a < k + bs.length)
    let put : List (Nat × Byte) := (bs.mapIdx fun i b => (k + i, b)).filter fun x => !s1.poison.contains (unitOf x.1)
    ({ s1 with mem := put.foldl (fun m (x : Nat × Byte) => m.set x.1 x.2) s1.mem }).notify k bs.length
/-- Writes a 64-bit word. -/
def State.wr64 (s : State) (k : Nat) (x : DWord) : State := s.wr k (toBytes 8 x.toNat)
/-- Writes a 32-bit word. -/
def State.wr32 (s : State) (k : Nat) (x : Word) : State := s.wr k (toBytes 4 x.toNat)

/-! ## MSI-X and the host fault buffer (R436) -/

/-- A vector of a function is not masked: the mask bit of its entry in the table, kept inverted (log 50). -/
def Func.open (f : Func) (v : Nat) : Bool := bitAt (f.msix.get (2 * v + 1)) 32
/-- Signals vector `v` of function `f`: a masked vector becomes pending (R485, log 50). -/
def State.signal (s : State) (f v : Nat) : State :=
  if (s.func f).open v then { s with msi := s.msi ++ [(f, v)] }
  else s.updFunc f fun x => { x with pba := x.pba.set (v / 64) (x.pba.get (v / 64) ||| bitIf 64 true (v % 64)) }

/-- Writes a record to the function's buffer, or keeps it waiting while the buffer is full. -/
def State.putRecord (s : State) (f : Nat) (ws : List DWord) : State :=
  let x := s.func f
  let cap := 2 ^ field x.fbctl 0 4
  if !x.fbwait.isEmpty || decide ((x.fbtail - x.fbhead).toNat ≥ cap) then s.updFunc f fun x => { x with fbwait := x.fbwait ++ [ws] }
  else
    let k := hostKey (x.fbbase.toNat + 32 * (x.fbtail.toNat % cap))
    let s1 := s.wr k (ws.flatMap fun w => toBytes 8 w.toNat)
    (s1.updFunc f fun x => { x with fbtail := x.fbtail + 1 }).signal f (field x.fbctl 16 11)

/-- The lowest identifier that no unresolved record holds. -/
def State.freeRid (s : State) : Nat := ((List.range (s.rids.length + 1)).find? fun r => s.rids.all fun x => x.rid != r).getD 0

/-- What a fault record says beside its identifier (R436). -/
structure FaultInfo where
  ctx : Nat
  core : Nat
  code : Nat
  sub : Nat := 0
  host : Bool := false
  wr : Bool := false
  dbl : Bool := false
  defer : Bool := false
  va : Nat := 0
  aux : DWord := 0
  deriving DecidableEq, Repr

/-- The four words of a record. -/
def recordWords (i : FaultInfo) (rid : Nat) : List DWord :=
  [ place 64 i.ctx 48 ||| place 64 i.core 40 ||| place 64 i.code 32 ||| place 64 i.sub 24 ||| bitIf 64 i.host 23 ||| bitIf 64 i.wr 22 |||
      bitIf 64 i.dbl 21 ||| bitIf 64 i.defer 20 ||| BitVec.ofNat 64 rid,
    BitVec.ofNat 64 (i.va % 2 ^ 57), i.aux, 0 ]

/-- The cause PAGE (R414). -/
def cPage : Nat := 0x04

/-- A record reports a PAGE fault: no double fault (log 45). -/
def FaultInfo.isPage (i : FaultInfo) : Bool := i.code == cPage && !i.dbl

/-- Writes a fault record and answers its identifier. PAGE faults of one context on one 4 KiB page, whatever raised them, share one record
and one identifier while it is unresolved; `parks` tells whether accesses wait for its resolution. -/
def State.faultRecord (s : State) (f : Nat) (i : FaultInfo) (parks : Bool) : Nat × State :=
  match (if i.isPage then s.rids.find? fun r => r.pg && r.ctx == i.ctx && r.page == i.va / 4096 else none) with
  | some r => (r.rid, { s with rids := s.rids.map fun x => if x.rid == r.rid then { x with parks := x.parks || parks } else x })
  | none =>
    let r := s.freeRid
    let new : Rid := { rid := r, func := f, ctx := i.ctx, page := i.va / 4096, parks, pg := i.isPage }
    (r, ({ s with rids := s.rids ++ [new] }).putRecord f (recordWords i r))

end Sys2Proof.Machine
end

