-- ==== Sys2Proof/Machine/Trace.lean ====
section
/-!
DEFINITION. The branch-and-mask trace (21 R452, R455 to R461): packets of the clk are collected, and written to the ring in the
order of R459 when the clk ends.
-/
namespace Sys2Proof.Machine

/-- Elements of tiles written by one instruction or op: a poisoned tile keeps its bytes unless all of it is written (R477). -/
def Core.putCells (c : Core) (cells : List (Nat × DWord)) : Core :=
  let whole := fun (t : Nat) => decide (1024 ≤ ((cells.map (·.1)).filter fun ix => ix / 1024 == t).eraseDups.length)
  let bad := c.bad.filter fun t => !whole t
  { c with bad, tiles := (if bad.isEmpty then cells else cells.filter fun x => !bad.contains (x.1 / 1024)).foldl (fun m x => m.set x.1 x.2) c.tiles }

/-- The core with a register of its debug block replaced. -/
def Core.setDreg (c : Core) (off : Nat) (x : DWord) : Core := { c with dbg := { c.dbg with regs := c.dbg.regs.set (off / 8) x } }

/-- The bank that a running part reads: that of its lowest quad (R21). -/
def Wave.bankOf (w : Wave) (e : Nat) : QBank := (w.banks[lowQuad (w.ent e).qmask]?).getD {}

/-- One field of a region record: valid bit and identifier of stack entry `k` from the top (R452). -/
def regField (b : QBank) (k : Nat) : BitVec 15 :=
  match b.rgn[k]? with
  | some id => 1#1 ++ id
  | none => 0
/-- The region record of a part (R452). -/
def regionRecord (b : QBank) : Word := 0#2 ++ regField b 1 ++ regField b 0

/-- The first word of a packet, without DT (R457). -/
def pktWord (type part slot ent sub : Nat) : Word :=
  place 32 type 28 ||| place 32 part 13 ||| place 32 slot 9 ||| place 32 ent 5 ||| BitVec.ofNat 32 sub

/-- Whether parts of the wave produce packets (R459). -/
def State.tracing (s : State) (w : Wave) : Bool :=
  let t := (s.core w.core).dreg 0x200
  let ctx := ((s.group? w.gid).map (·.ctx)).getD 0xffff
  bitAt t 63 && t.toNat.testBit (40 + w.part) && (!bitAt t 55 || field t 0 16 == ctx)

/-- Part `ent` of a wave produces a packet with first word `w0`, caused by the bundle at `pc`; with `w0` zero, only the SYNC that it may
still owe (R460). -/
def State.emitAt (s : State) (w : Wave) (ent : Nat) (pc : CodeAddr) (w0 : Word) (more : List Word) : State :=
  if s.tracing w then
    let b := w.bankOf ent
    let w4 : Word := 0#13 ++ BitVec.ofBool b.phase ++ BitVec.ofBool b.rmis ++ pc
    let p : TPkt := { part := w.part, slot := w.slot, ent, wid := w.wid, w0, more, clk := (s.core w.core).clk.toNat, sync := some (regionRecord b, w4) }
    s.updCore w.core fun c => { c with dbg := { c.dbg with tbuf := c.dbg.tbuf ++ [p] } }
  else s

/-- The same for the bundle at which the part stands. -/
def State.emit (s : State) (w : Wave) (ent : Nat) (w0 : Word) (more : List Word) : State := s.emitAt w ent (w.ent ent).pc w0 more

/-- An event of part `ent` of a wave, caused by the bundle at `pc`, produces a packet of the type (R458). -/
def State.traceAt (s : State) (w : Wave) (ent type sub : Nat) (pc : CodeAddr) (more : List Word) : State :=
  s.emitAt w ent pc (pktWord type w.part w.slot ent sub) more
/-- The same for the bundle at which the part stands. -/
def State.trace (s : State) (w : Wave) (ent type sub : Nat) (more : List Word) : State := s.traceAt w ent type sub (w.ent ent).pc more

/-- A HALT packet of a core: sub 0 halt, 1 resume (R458). -/
def State.traceHalt (s : State) (core sub : Nat) : State :=
  if bitAt ((s.core core).dreg 0x200) 63 then
    s.updCore core fun c => { c with dbg := { c.dbg with tbuf := c.dbg.tbuf ++ [{ w0 := pktWord 0xa 0 0 0 sub, clk := c.clk.toNat }] } }
  else s

/-- Free bytes of the ring: its counts are modulo 2^64 (R456). -/
def State.traceRoom (s : State) (core : Nat) : Nat :=
  let c := s.core core
  let rcnt := s.rd (field (c.dreg 0x210) 0 57 + 8) 8
  2 ^ field (c.dreg 0x200) 56 6 - (BitVec.ofNat 64 c.dbg.tw - BitVec.ofNat 64 rcnt).toNat

/-- Writes WCNT in the trace header. -/
def State.traceWcnt (s : State) (core : Nat) : State :=
  let c := s.core core
  (s.wr64 (field (c.dreg 0x210) 0 57) (BitVec.ofNat 64 c.dbg.tw)).updCore core fun c => { c with dbg := { c.dbg with twc := c.dbg.tw } }

/-- Writes words at the end of the stream, which they fit; WCNT follows every 256 bytes (R456). -/
def State.tracePut (s : State) (core : Nat) (ws : List Word) : State :=
  let c := s.core core
  let sz := 2 ^ field (c.dreg 0x200) 56 6
  let base := field (c.dreg 0x208) 0 57
  let bs := ws.flatMap fun w => toBytes 4 w.toNat
  let s1 := (bs.zip (List.range bs.length)).foldl (fun t x => t.wr (base + (c.dbg.tw + x.2) % sz) [x.1]) s
  let s2 := s1.updCore core fun c => { c with dbg := { c.dbg with tw := c.dbg.tw + bs.length } }
  if c.dbg.tw + bs.length - c.dbg.twc ≥ 256 then s2.traceWcnt core else s2

/-- The 1,024th packet, or a later multiple, is among those that take the count of packets from `a` to `b` (R460). -/
def roundOver (a b : Nat) : Bool := a / 1024 != b / 1024

/-- A packet, but for a SYNC that is not owed, is produced: `owed` tells that the part owes its SYNC. -/
def TPkt.shows (p : TPkt) (owed : Bool) : Bool := p.w0 != 0 || owed

/-- The packets that come before a packet and its SYNC: TIME after a long silence (but for a first SYNC, log 45), LOSS after a loss (R459,
R460). -/
def Debug.lead (d : Debug) (p : TPkt) : List (List Word) :=
  let gap := p.clk - d.tclk
  let late := gap > 4095 && (d.tn > 0 || p.sync.isNone || d.tdrop > 0)
  (if late then [[pktWord 2 0 0 0 0, BitVec.ofNat 32 (min gap (2 ^ 32 - 1))]] else []) ++
    if d.tdrop > 0 then [[pktWord 0xe 0 0 0 0 ||| place 32 (if late then 0 else gap) 16, BitVec.ofNat 32 (min d.tdrop (2 ^ 32 - 1))]] else []

/-- The packets that a packet becomes, and the parts that owe no SYNC after it: a SYNC comes first where R460 asks for one. Only the first of
them carries a DT, and a SYNC carries none (R457, R459). -/
def Debug.expand (d : Debug) (p : TPkt) (clk : DWord) : List (List Word) × List (Nat × Nat) :=
  let me := (p.wid, p.ent)
  if !p.shows (p.sync.isSome && (d.tdrop > 0 || !d.tsync.contains me)) then ([], d.tsync)
  else
    let lead := d.lead p
    let n1 := d.tn + lead.length
    let synced := if d.tdrop > 0 || roundOver d.tn n1 then [] else d.tsync
    let sync : List (List Word) := match p.sync with
      | some (r, v) => if synced.contains me then [] else [[pktWord 1 p.part p.slot p.ent 0, lo32 clk, hi32 clk, r, v]]
      | none => []
    let dt := if lead.isEmpty && sync.isEmpty then p.clk - d.tclk else 0
    let body : List (List Word) := if p.w0 = 0 then [] else [(p.w0 ||| place 32 dt 16) :: p.more]
    let n2 := n1 + sync.length + body.length
    let rest := if roundOver n1 n2 then [] else synced.filter (· != me)
    let again := p.sync.isSome && !(p.w0 != 0 && n2 % 1024 == 0)
    (lead ++ sync ++ body, if again then me :: rest else rest)

/-- A trap is to be raised at the next bundle boundary. -/
def Aux.ask (a : Aux) (t : TrapRec) : Aux :=
  let same := fun (x : TrapRec) => x.late && x.code == t.code && x.sub == t.sub
  if a.trap.any same || a.later.any same then a
  else if a.trap.isNone then { a with trap := some t }
  else if a.later.isNone then { a with later := some t } else a

/-- The running part that raises a trap for a packet of entry `e`: of a join record, the lowest part under it (log 45). -/
def Wave.teller (w : Wave) (e : Nat) : Option Nat :=
  let up := fun (k : Nat) => (List.range 16).foldl (fun x _ => if x = e || !(w.ent x).pv then x else (w.ent x).parent.toNat) k
  if (w.ent e).isPart then some e else w.parts.find? fun k => up k == e

/-- Its part raises TRACE_FULL at its next bundle boundary (R461). -/
def State.traceFull (s : State) (p : TPkt) : State :=
  if p.sync.isNone then s
  else s.updWave p.wid fun w => match w.teller p.ent with
    | some e => w.updAux e fun a => a.ask { code := 0x12, tpc := 0, late := true, look := w.lookAt e }
    | none => w

/-- One packet of a clk goes to the ring, to the staging area (TFP = 1), or is dropped and counted (R460, R461). -/
def State.traceWrite (s : State) (core : Nat) (p : TPkt) : State :=
  let c := s.core core
  let (ps, synced) := c.dbg.expand p (BitVec.ofNat 64 p.clk)
  let ws := ps.flatten
  if ps.isEmpty then s else
  let done := fun (c : Core) => { c with dbg := { c.dbg with tn := c.dbg.tn + ps.length, tsync := synced, tdrop := 0, tclk := p.clk } }
  if c.dbg.staged.isEmpty && decide (4 * ws.length ≤ s.traceRoom core) then (s.tracePut core ws).updCore core done
  else if bitAt (c.dreg 0x200) 62 && decide (4 * (c.dbg.staged.flatten.length + ws.length) ≤ 1024) then
    ((s.updCore core fun c => { c with dbg := { c.dbg with staged := c.dbg.staged ++ [ws] } }).updCore core done).traceFull p
  else
    let s1 := s.updCore core fun c => { c with dbg := { c.dbg with tlost := c.dbg.tlost + 1, tdrop := c.dbg.tdrop + 1 } }
    s1.wr64 (field (c.dreg 0x210) 0 57 + 16) (BitVec.ofNat 64 (c.dbg.tlost + 1))

/-- The order of packets of one clk: partition, wave slot, entry, then order of events (R459). -/
def TPkt.le (a b : TPkt) : Bool :=
  decide (4096 * a.part + 64 * a.slot + a.ent ≤ 4096 * b.part + 64 * b.slot + b.ent)

/-- At the end of a clk, the packets of the core are written. -/
def State.traceFlush (s : State) (core : Nat) : State :=
  let ps := sortBy TPkt.le (s.core core).dbg.tbuf
  ps.foldl (fun t p => t.traceWrite core p) (s.updCore core fun c => { c with dbg := { c.dbg with tbuf := [] } })

/-- The oldest staged packet is written when the ring has room for it (R461). -/
def State.traceDrain (s : State) (core : Nat) : State :=
  match (s.core core).dbg.staged with
  | ws :: rest =>
    if 4 * ws.length ≤ s.traceRoom core then
      (s.tracePut core ws).updCore core fun c => { c with dbg := { c.dbg with staged := rest } }
    else s
  | [] => s

end Sys2Proof.Machine
end

