-- ==== Sys2Proof/Machine/Ops.lean ====
section
/-!
DEFINITION. The named operations over a part's registers and PC (01 R20 to R23), and taking and returning from an exception
(19 R408 to R417): `State.raise` records the trap and enters the handler as soon as R408 lets it, `State.enterTrap` is the
entry, `State.rteResume` the return.
-/
namespace Sys2Proof.Machine

/-! ## The issuing part -/

/-- What an instruction sees of its part: the entry or the handler, its quads, m0 (R23), PC and scalar copy (R21). -/
structure Ctx where
  who : Issuer
  w : Wave
  g : Group
  ent : Nat
  hnd : Bool
  q : Quads
  m0 : Lanes
  pc : CodeAddr
  bank : QBank
  aux : Aux
  deriving DecidableEq, Repr

/-- The context of a running part or of a running handler part (R409: every quad, every lane that has not exited). -/
def State.ctx? (s : State) (who : Issuer) : Option Ctx :=
  match s.wave? who.wid with
  | none => none
  | some w => match s.group? w.gid with
    | none => none
    | some g => match who.ent with
      | none =>
        if w.handler.run then
          some { who, w, g, ent := 0, hnd := true, q := w.allQuads, m0 := w.living, pc := w.handler.pc, bank := w.handler.bank,
                 aux := w.handler.aux }
        else none
      | some e =>
        if (w.ent e).isPart then
          some { who, w, g, ent := e, hnd := false, q := (w.ent e).qmask, m0 := (w.ent e).lmask &&& w.living, pc := (w.ent e).pc,
                 bank := w.bankOf e, aux := w.auxAt e }
        else none

/-- The part's lanes: all lanes of its quads. -/
def Ctx.lanes (c : Ctx) : Lanes := lanesOfQuads c.q
/-- PWIDTH, PART (R24). -/
def Ctx.pwidth (c : Ctx) : Nat := 4 * (quadsOf c.q).length
def Ctx.part (c : Ctx) : Nat := lowQuad c.q
/-- A scalar, a pair (R20). -/
def Ctx.s (c : Ctx) (n : Nat) : Word := c.bank.sreg.get n
def Ctx.s64 (c : Ctx) (n : Nat) : DWord := pair64 (c.s n) (c.s (n + 1))
/-- The pair that a 5-bit field names (R105). -/
def Ctx.sp (c : Ctx) (n : BitVec 5) : DWord := c.s64 (2 * n.toNat)
/-- A register of a lane. -/
def Ctx.v (c : Ctx) (r l : Nat) : Word := c.w.vreg.get (64 * r + l)
/-- A mask as the part reads it: m0 from its entry, bits of other lanes 0 (R22, R23). -/
def Ctx.mask (c : Ctx) (k : Nat) : Lanes := if k = 0 then c.m0 else c.w.mask.get k &&& c.lanes
/-- active(P): m0 restricted by the predicate (R119, R177). -/
def Ctx.active (c : Ctx) (p : Option Pfx) : Lanes :=
  if (pfxOf p).pm = 0 then c.m0 else c.m0 &&& c.mask (pfxOf p).pm.toNat

/-! ## Writing registers -/

/-- Applies `f` to the banks whose quad is in `q`; `i` is the quad of the first. -/
def mapQuads (q : Quads) (f : QBank → QBank) : Nat → List QBank → List QBank
  | _, [] => []
  | i, b :: bs => (if bitAt q i then f b else b) :: mapQuads q f (i + 1) bs

/-- Writes every copy of the part (R21). -/
def Ctx.setBank (c : Ctx) (w : Wave) (f : QBank → QBank) : Wave :=
  if c.hnd then { w with handler := { w.handler with bank := f w.handler.bank } } else { w with banks := mapQuads c.q f 0 w.banks }
/-- Writes a scalar (R21). -/
def Ctx.putS (c : Ctx) (w : Wave) (n : Nat) (x : Word) : Wave := c.setBank w fun b => { b with sreg := b.sreg.set n x }
/-- Writes a scalar pair (R20). -/
def Ctx.putS64 (c : Ctx) (w : Wave) (n : Nat) (x : DWord) : Wave := c.putS (c.putS w n (lo32 x)) (n + 1) (hi32 x)
/-- Writes one register of one lane. -/
def Wave.putV (w : Wave) (r l : Nat) (x : Word) : Wave := { w with vreg := w.vreg.set (64 * r + l) x }
/-- Writes one register in every lane of `ls`, from `f`. -/
def Wave.putLanes (w : Wave) (r : Nat) (ls : List Nat) (f : Nat → Word) : Wave := ls.foldl (fun w l => w.putV r l (f l)) w
/-- Writes the bits of `on` of mask `k`; every other bit keeps its value (R22). -/
def Wave.putMask (w : Wave) (k : Nat) (on v : Lanes) : Wave :=
  { w with mask := w.mask.set k ((w.mask.get k &&& ~~~on) ||| (v &&& on)) }

/-- Replaces what the device holds beside the part. -/
def Ctx.setAux (c : Ctx) (w : Wave) (f : Aux → Aux) : Wave :=
  if c.hnd then { w with handler := { w.handler with aux := f w.handler.aux } } else w.updAux c.ent f
/-- Writes the PC. -/
def Ctx.setPc (c : Ctx) (w : Wave) (pc : CodeAddr) : Wave :=
  if c.hnd then { w with handler := { w.handler with pc } } else w.updEnt c.ent fun e => { e with pc }

/-! ## Moving past a bundle -/

/-- The words of the bundle of an instruction: its hints, its prefix and its own word (R101). -/
def bundleLen (i : Instr) : Nat :=
  let a := attachOf i
  1 + (if a.hint.isSome then 1 else 0) + (if a.ext.isSome then 1 else 0) + (if a.pfx.isSome then 1 else 0)

/-- The address of the instruction word itself, from which branch offsets count (R112, R113). -/
def Ctx.wordAddr (c : Ctx) (i : Instr) : CodeAddr := c.pc + BitVec.ofNat 17 (bundleLen i - 1)
/-- The first word of the next bundle. -/
def Ctx.nextPc (c : Ctx) (i : Instr) : CodeAddr := c.pc + BitVec.ofNat 17 (bundleLen i)

/-- A trap is to be entered: one of a bundle, or one that waited for a bundle boundary and stands at one (R45, R461). -/
def Aux.trapDue (a : Aux) : Bool := a.trap.isSome && a.hints == 0

/-- The bookkeeping of a bundle that has ended. -/
def Aux.fresh (a : Aux) : Aux :=
  { a with blocked := none, hints := 0, dict := none, done := 0, skipCmp := none, stall := 0, elig := 0, ninth := [], look := 0, told := none }

/-- Continues at `pc`, at the start of a bundle. -/
def Ctx.goto (c : Ctx) (w : Wave) (pc : CodeAddr) : Wave :=
  c.setBank (c.setPc (c.setAux w Aux.fresh) pc) fun b => { b with phase := false }

/-- Moves past the instruction: the next bundle, or after the first entry of a DICT phase 1 of the same bundle (R130). -/
def Ctx.advance (c : Ctx) (i : Instr) (w : Wave) : Wave :=
  if c.aux.dict.isSome && !c.bank.phase then
    c.setBank (c.setAux w fun a => { a with blocked := none, done := 0, stall := 0, elig := 0, ninth := [] }) fun b => { b with phase := true }
  else c.goto w (c.nextPc i)

/-- The state with the issuing wave replaced by one that has moved past the instruction. -/
def State.retire (s : State) (c : Ctx) (i : Instr) (w : Wave) : State := s.setWave (c.advance i w)

/-! ## The split table is well-formed (R30) -/

/-- Aligned power-of-two runs of quads. -/
def isRun (q : Quads) : Bool :=
  [1, 2, 4, 8, 16].any fun n => (List.range (16 / n)).any fun i => q == BitVec.ofNat 16 ((2 ^ n - 1) * 2 ^ (n * i))

/-- The children of an entry. -/
def Wave.children (w : Wave) (e : Nat) : List Nat :=
  entIdx.filter fun k => (w.ent k).kind != 0 && (w.ent k).pv && (w.ent k).parent.toNat == e

/-- What R30 asks of one entry that is not free. -/
def Wave.entWf (w : Wave) (k : Nat) : Bool :=
  let e := w.ent k
  let par := w.ent e.parent.toNat
  let inside := (e.lmask &&& ~~~lanesOfQuads e.qmask) == 0
  let common := inside && (if e.isPart then decide (e.st.toNat ≤ 5) else decide (e.st.toNat ≤ 1))
  if e.isPath then common && e.pv && par.isPart && par.qmask == e.qmask && (e.lmask &&& par.lmask) == 0
  else common && isRun e.qmask && (if e.pv then par.isJoin && (e.qmask &&& ~~~par.qmask) == 0 else e.qmask == w.allQuads) &&
    (!e.isJoin || (let ch := w.children k
      !ch.isEmpty && ch.all fun a => ch.all fun b => a == b || ((w.ent a).qmask &&& (w.ent b).qmask) == 0))

/-- The table is well-formed (R30). -/
def Wave.tableWf (w : Wave) : Bool :=
  let used := entIdx.filter fun k => (w.ent k).kind != 0
  (used.filter fun k => !(w.ent k).pv).length == 1 && used.all w.entWf

/-! ## Taking an exception (R408 to R416) -/

/-- The lookahead window of the issuing part (R412). -/
def Ctx.look (c : Ctx) : Word := c.w.lookOf c.q c.aux
/-- A wave stops for good and the host is told both causes (R410). -/
def State.doubleFault (s : State) (w : Wave) (trapped handlerCode : Nat) (tpc : Word) (va : DWord) : State :=
  let ctx := ((s.group? w.gid).map (·.ctx)).getD 0
  let s1 := s.updWave w.wid fun w => { w with dead := true, handler := { w.handler with aux := { w.handler.aux with hints := 0, dict := none } } }
  (s1.faultRecord (s.ctxFunc ctx)
    { ctx, core := (s.core w.core).phys, code := trapped, dbl := true, va := va.toNat,
      aux := BitVec.ofNat 64 handlerCode ||| (bits (tpc.setWidth 64) 0 17).setWidth 64 <<< 32 } false).2

/-- Whether the slot of a word address holds landed code (R103). -/
def State.landed (s : State) (core : Nat) (pc : CodeAddr) : Bool :=
  match (s.core core).slots[pc.toNat / 1024]? with
  | some x => x.st == .landed
  | none => false

/-- Steps 3 and 4 of R408 for the trap `t` of the part in entry `e`: the trap registers of R412 are written and the handler
part starts at TVEC with its scalars kept; a TVEC without landed code is a double fault (R410). -/
def State.enterTrap (s : State) (w : Wave) (e : Nat) (t : TrapRec) (more : Bool) : State :=
  let ctx := ((s.group? w.gid).map (·.ctx)).getD 0
  let tvec := s.ctxTvec ctx
  let b := w.bankOf e
  let tpc := if t.late then (w.ent e).pc else t.tpc
  let more := more || (w.auxAt e).later.isSome
  let regs : TrapRegs :=
    { tcause := 0#13 ++ BitVec.ofBool b.phase ++ BitVec.ofBool more ++ BitVec.ofBool t.defer ++ t.sub ++ t.code
      tpc := tpc.setWidth 32, tent := BitVec.ofNat 32 e, tinfo := t.info, taddr := t.addr, tmask := t.mask,
      tctx := BitVec.ofNat 32 ctx, tlook := t.look }
  let w1 := { w.updAux e (fun a => { a with trap := a.later, later := none, dict := none }) with
    handler := { w.handler with run := true, pc := tvec, aux := {}, treg := regs, ts := b.sreg, bank := { w.handler.bank with phase := false } } }
  let s1 := ((s.setWave w1).traceAt w e 8 0 (t.src.getD (w.ent e).pc) [tpc.setWidth 32 ||| place 32 t.code.toNat 17]).count (s.ctxFunc ctx) 5 (panelOf w.core) 1
  if s.landed w.core tvec then s1 else s1.doubleFault w1 t.code.toNat 0x09 regs.tpc t.addr

/-- A wave is stopped (R46): TCNT, SLEEP counts and MONW timeouts stand still, and its parts keep their states. -/
def State.stopped (s : State) (w : Wave) : Bool :=
  w.dead || w.handler.run || (s.core w.core).dbg.halted || (match s.group? w.gid with | some g => g.state != .resident | none => true)

/-- The dictionary phase of the quads of a part. -/
def Wave.setPhase (w : Wave) (q : Quads) (b : Bool) : Wave := { w with banks := mapQuads q (fun x => { x with phase := b }) 0 w.banks }

/-- A part that waited at a one-word instruction goes on after it, or at entry I1 of the DICT whose I0 parked it (R130); a replaced path
will do so when it is rotated in (R34). -/
def Wave.goOn (w : Wave) (e : Nat) : Wave :=
  let half := (w.auxAt e).half
  let w1 := w.updAux e fun a => { (if half then { a with done := 0 } else a.fresh) with park := .none, half := false }
  if (w.ent e).isPath then (if half then w1 else w1.updEnt e fun x => { x with pc := x.pc + 1, dph := false })
  else if half then w1.updEnt e fun x => { x with st := stReady }
  else (w1.updEnt e fun x => { x with st := stReady, pc := x.pc + 1 }).setPhase (w.ent e).qmask false

/-- A part that was held where it stands goes on there. -/
def Wave.stand (w : Wave) (e : Nat) : Wave :=
  (if (w.ent e).isPart then w.updEnt e fun x => { x with st := stReady } else w).updAux e fun a => { a with park := .none }

/-- What ended while the wave was stopped takes effect (R46): waits that are over, or have ended in a fault, and pages that were resolved. -/
def Wave.unstop (w : Wave) : Wave :=
  entIdx.foldl (fun v e => match (v.auxAt e).park with
    | .over true => v.goOn e
    | .over false => v.stand e
    | .hit t => if (v.ent e).isPart then (v.stand e).updAux e fun a => { a with trap := a.trap <|> some { t with tpc := (v.ent e).pc, look := v.lookAt e } } else v
    | _ => if (v.ent e).isPart && (v.ent e).st == stParkf && (v.auxAt e).rids.isEmpty then v.updEnt e fun x => { x with st := stReady } else v) w

/-- The same for a wave of the state, unless it is still stopped. -/
def State.unstop (s : State) (wid : Nat) : State :=
  match s.wave? wid with
  | some w => if s.stopped w then s else s.setWave w.unstop
  | none => s

/-- The wait of entry `e` has ended: the part goes on after its instruction, once its wave is not stopped (R46). -/
def State.letGo (s : State) (wid e : Nat) : State :=
  s.updWave wid fun w => if s.stopped w then w.updAux e fun a => { a with park := .over true } else w.goOn e

/-- The running parts with a pending trap, the lowest quad first (R415). -/
def Wave.trapped (w : Wave) : List Nat :=
  sortBy (fun a b => decide (lowQuad (w.ent a).qmask ≤ lowQuad (w.ent b).qmask)) (w.parts.filter fun e => (w.auxAt e).trapDue)

/-- A wave is stopped by a halt, a pre-emption, or for good (R46). -/
def State.frozen (s : State) (w : Wave) : Bool :=
  w.dead || (s.core w.core).dbg.halted || (s.core w.core).dbg.halting ||
    (match s.group? w.gid with | some g => g.state != .resident | none => true)

/-- Step 1 and step 2 of R408 are done: no part stands between a hint and its bundle, no long-latency instruction is left. -/
def Wave.drained (w : Wave) : Bool :=
  w.pend.isEmpty && w.parts.all fun e => (w.auxAt e).hints == 0

/-- Every pending trap was raised in this clk: other parts still issue in it (R408, R415). -/
def Wave.trapNow (w : Wave) : Bool := w.trapped.all fun e => match (w.auxAt e).trap with | some t => t.now | none => false

/-- A pending trap can be entered: no handler part runs, the wave has drained and is not stopped, and the clk in which it was raised
has no other READY part of the wave left to issue. -/
def State.mayEnter (s : State) (w : Wave) : Bool :=
  !w.trapped.isEmpty && !w.handler.run && w.drained && !s.frozen w &&
    !(w.trapNow && w.parts.any fun e => (w.ent e).st == stReady && !(w.auxAt e).trapDue &&
      !((s.core w.core).issued.contains ⟨w.wid, some e⟩))

/-- Enters the pending trap of the lowest quad when R408 and R415 allow it. -/
def State.enterPending (s : State) (wid : Nat) : State :=
  match s.wave? wid with
  | none => s
  | some w => match w.trapped with
    | [] => s
    | e :: rest =>
      if s.mayEnter w then
        match (w.auxAt e).trap with
        | some t => s.enterTrap w e t (!rest.isEmpty)
        | none => s
      else s

/-- The part raises a trap: a handler part double-faults (R410), another part becomes READY at the bundle with the trap
pending, and its wave enters the handler at once when nothing is left to complete. A bundle that a comparator has matched and that now
faults can be matched again when it reissues (R454). -/
def State.raise (s : State) (c : Ctx) (t : TrapRec) : State :=
  let w0 := (s.wave? c.w.wid).getD c.w
  if c.hnd then
    let r := w0.handler.treg
    s.doubleFault w0 (field r.tcause 0 8) t.code.toNat r.tpc r.taddr
  else
    let w := (w0.updAux c.ent fun a => { a with trap := some { t with look := c.look }, later := a.later <|> a.trap, blocked := none, hints := 0, dict := none, park := .none, skipCmp := none }).updEnt
      c.ent fun e => { e with st := stReady }
    (s.setWave w).enterPending w.wid

/-- A trap at the bundle itself, which reissues. -/
def Ctx.trap (c : Ctx) (code : Nat) (sub : Nat := 0) (info : Word := 0) (addr : DWord := 0) (mask : Lanes := 0) : TrapRec :=
  { code := BitVec.ofNat 8 code, sub := BitVec.ofNat 8 sub, tpc := c.pc, info, addr, mask }

/-- The causes of R414. -/
def cIllegal : Nat := 0x01
def cPriv : Nat := 0x02
def cAlign : Nat := 0x03
def cPerm : Nat := 0x05
def cLane : Nat := 0x06
def cSplitOvf : Nat := 0x07
def cWidthUnmet : Nat := 0x08
def cCodeAbsent : Nat := 0x09
def cOutlierFull : Nat := 0x0a
def cOutlierMismatch : Nat := 0x0b
def cScaleParity : Nat := 0x0c
def cGlazePoolEmpty : Nat := 0x0d
def cMeshOverrun : Nat := 0x0e
def cAcsFirstUse : Nat := 0x0f
def cBarrierMisuse : Nat := 0x10
def cBreak : Nat := 0x11
def cTraceFull : Nat := 0x12
def cTrap : Nat := 0x13

/-- What R415 and R171 do to the parts of a table that the handler leaves: a trap of an entry that is no running part is discarded, and
every copy of a part but a STUB takes the values that its lowest quad holds. A part that waits without a wait of its own goes on: `Wave.unstop` lets a
PARKF part without an unresolved record go. -/
def Wave.resettle (w : Wave) : Wave :=
  entIdx.foldl (fun v k =>
    let e := v.ent k
    if e.isPart && e.st != stStub then
      let v1 := match v.banks[lowQuad e.qmask]? with
        | some x => { v with banks := mapQuads e.qmask (fun _ => x) 0 v.banks }
        | none => v
      if e.st == stParkw && (v.auxAt k).park == .none then v1.updAux k fun a => { a with park := .sleep 0 }
      else v1
    else if e.isPart then v
    else if e.isPath then v.updAux k fun a => { a with trap := none, later := none }
    else v.updAux k fun _ => {}) w

/-- The return from the handler (R170, R417): the trapped part gets TS0 to TS63, its phase, TPC and lookahead state, every entry goes on from
its state, and the next pending trap is entered before any part issues (R415). The table has passed R30. -/
def State.rteResume (s : State) (c : Ctx) : State :=
  let h := c.w.handler
  let e := field h.treg.tent 0 4
  let w0 := { c.w with handler := { h with run := false, aux := {} } }.resettle
  let w1 :=
    if (w0.ent e).isPart then
      let q := (w0.ent e).qmask
      let b := { w0 with banks := mapQuads q (fun b => { b with sreg := h.ts, phase := bitAt h.treg.tcause 18 }) 0 w0.banks }
      (b.updEnt e fun x => { x with pc := bits h.treg.tpc 0 17 }).updAux e fun a => { a with look := h.treg.tlook }
    else w0
  ((((s.setWave w1).traceAt w1 e 4 1 h.pc [(bits h.treg.tpc 0 17).setWidth 32])).unstop w1.wid).enterPending w1.wid

end Sys2Proof.Machine
end

