-- ==== Sys2Proof/Machine/Split.lean ====
section
/-!
DEFINITION. Splitting and fusing (01 R31 to R45, 05 R148 to R153, R159): decomposition, rotation, arrival at a JOIN, the
completion of join records, FUSE, forced fuses, the exit of a path, and restore requests while a STUB exists.
-/
namespace Sys2Proof.Machine

/-! ## Fetching (R100 to R103) -/

/-- The words from `pc` to the end of its slot, at most four: the longest bundle (R101). -/
def State.words (s : State) (core : Nat) (pc : CodeAddr) : List Word :=
  (List.range (min 4 (1024 - pc.toNat % 1024))).map fun i => (s.core core).imem.get (pc.toNat + i)

/-- The instruction of the bundle at `pc`, when its slot has landed. -/
def State.instrAt (s : State) (core : Nat) (pc : CodeAddr) : Option Instr :=
  if s.landed core pc then (match decodeBundle (s.words core pc) with | .ok (i, _) => some i | .error _ => none) else none

/-! ## Minimum width (R43, R107) -/

/-- The Wmin of a wave-wide or matrix instruction in a wave of the width (R197, R229, R233, R242, R297). -/
def wminI (width : Nat) : Instr → Option Nat
  | .vshfl _ _ _ w _ _ | .vbcst _ _ _ w _ _ | .wred _ _ _ w _ | .wscan _ _ _ _ w _ | .vballot _ _ w _ | .vconf _ _ w _
  | .prime w _ _ _ | .mma w _ _ _ | .mfence w | .bwait w _ | .bwaitAll w | .accz w _ _ | .accwr w _ _ _ | .setscA w _ | .setscB w _
  | .qntz w _ _ _ _ | .dqnz w _ _ _ | .olrd w _ _ _ | .accrdReg _ w _ _ _ _ | .accrdMem _ w _ _ _ => some (wminOf w)
  | .bar _ | .cbar _ | .wqui _ => some width
  | _ => none

/-! ## Decomposition (R31, R32) -/

/-- The class of a quad. -/
inductive QClass
  | idle
  | yes
  | no
  | mixed
  deriving DecidableEq, Repr

/-- The class of quad `q`, of the lanes `act` of which `take` take the branch (R31). -/
def classify (act take : Lanes) (q : Nat) : QClass :=
  let a := bits act (4 * q) 4
  let t := bits (act &&& take) (4 * q) 4
  if a = 0 then .idle else if t = a then .yes else if t = 0 then .no else .mixed

/-- A part that a split makes: its quads, the path it is on, and whether a mask-path record of the other path follows. -/
structure NewPart where
  quads : Quads
  yes : Bool
  path : Bool
  deriving DecidableEq, Repr

/-- The run of `n` quads from `lo`. -/
def runMask (lo n : Nat) : Quads := BitVec.ofNat 16 ((2 ^ n - 1) * 2 ^ lo)

/-- The procedure of R32 on the run of `2 ^ k` quads from `lo`. -/
def decompose (cls : Nat → QClass) : Nat → Nat → List NewPart
  | k, lo =>
    let qs := (List.range (2 ^ k)).map (lo + ·)
    let live := qs.filter fun q => cls q != .idle
    if live.isEmpty then []
    else if live.all fun q => cls q == .yes then [⟨runMask lo (2 ^ k), true, false⟩]
    else if live.all fun q => cls q == .no then [⟨runMask lo (2 ^ k), false, false⟩]
    else match k with
      | 0 => [⟨runMask lo 1, true, true⟩]
      | k + 1 => decompose cls k lo ++ decompose cls k (lo + 2 ^ k)

/-- The number of quads of a run as a power of two. -/
def runLog (q : Quads) : Nat := (quadsOf q).length.log2

/-- The decomposition of a part's quads. -/
def decomposePart (q : Quads) (act take : Lanes) : List NewPart := decompose (classify act take) (runLog q) (lowQuad q)

/-- A BRD of lanes `act`, taken by `take`, is uniform (R31). -/
def uniform (q : Quads) (act take : Lanes) : Bool :=
  let cs := (quadsOf q).map (classify act take)
  !cs.contains .mixed && !(cs.contains .yes && cs.contains .no)

/-- Entries that a decomposition needs (R32). -/
def entriesNeeded (ps : List NewPart) : Nat := ps.length + (ps.filter (·.path)).length

/-! ## Splitting -/

/-- Windows over the quads end: what is pending stays in the scoreboards (R32, R40). -/
def Wave.closeWindows (w : Wave) (q : Quads) : Wave :=
  { w with pend := w.pend.map fun p => if (p.quads &&& q) != 0 then { p with win := none } else p }

/-- Where the two paths of a split go. -/
structure SplitTo where
  pcYes : CodeAddr
  pcNo : CodeAddr
  stYes : BitVec 3 := 0
  jpc : CodeAddr := 0
  jany : Bool := false

/-- The quads `q` are a new part, which inherits the program order of the part that had them (R331). -/
def Wave.newOrder (w : Wave) (q : Quads) (part : Nat) : Wave :=
  { w with banks := mapQuads q (fun b => { b with order := part :: b.order }) 0 w.banks }

/-- The quads `q` are one part, which continues the program order of the parts `es` that arrived and reads coherently if one of them does
(R331, R339). -/
def Wave.joinOrder (w : Wave) (q : Quads) (es : List SplitEntry) (old : Wave) : Wave :=
  let order := (es.flatMap fun e => ((old.banks[lowQuad e.qmask]?).getD {}).order).eraseDups
  { w with banks := mapQuads q (fun b => { b with order }) 0 w.banks
           coherent := (w.coherent &&& ~~~q) ||| (if es.any fun e => (old.coherent &&& e.qmask) != 0 then q else 0) }

/-- The new entries of a split, given the free indices, lowest first (R29). -/
def Wave.putParts (w : Wave) (e seq : Nat) (act take : Lanes) (t : SplitTo) : List NewPart → List Nat → Wave
  | [], _ => w
  | p :: ps, idx =>
    let yesL := act &&& take &&& lanesOfQuads p.quads
    let noL := act &&& ~~~take &&& lanesOfQuads p.quads
    let base : SplitEntry := { kind := 1, pv := true, parent := BitVec.ofNat 4 e, qmask := p.quads }
    let part : SplitEntry := if p.yes then { base with st := t.stYes, pc := t.pcYes, lmask := yesL } else { base with pc := t.pcNo, lmask := noL }
    match idx with
    | [] => w
    | k :: idx1 =>
      let w1 := ((w.updEnt k fun _ => part).updAux k fun _ => {}).newOrder p.quads (seq + k)
      if p.path then
        match idx1 with
        | [] => w1
        | r :: idx2 =>
          let pathRec : SplitEntry := { kind := 3, pv := true, parent := BitVec.ofNat 4 k, qmask := p.quads, pc := t.pcNo, lmask := noL, jpc := t.jpc }
          ((w1.updEnt r fun _ => pathRec).updAux r fun _ => { seq := seq + r }).putParts e seq act take t ps idx2
      else w1.putParts e seq act take t ps idx1

/-- The part in entry `e` becomes an OPEN join record with the new entries as children (R32, R36, R37), which inherit its program order
(R331), its acquires too. -/
def Wave.splitInto (w : Wave) (e seq : Nat) (act take : Lanes) (pc : CodeAddr) (t : SplitTo) (ps : List NewPart) : Wave :=
  let free := w.freeEnts
  let w1 := (w.updEnt e fun x => { x with kind := 2, st := 0, pc, jpc := t.jpc, jany := t.jany, arrq := 0, tcnt := 0 }).updAux e fun _ => {}
  let w2 := (w1.putParts e seq act take t ps free).closeWindows (w.ent e).qmask
  { w2 with coherent := if (w2.coherent &&& (w.ent e).qmask) = 0 then w2.coherent else w2.coherent ||| (w.ent e).qmask }

/-! ## Mask-path records (R33 to R35) -/

/-- The mask-path records of a part, the most recently created first. The table has no field for the order: it is the device's own, which
SPLWR leaves alone, and of records that a handler wrote at entries without one the lowest entry counts as the most recent (DESIGN CHOICE,
log 35). -/
def Wave.records (w : Wave) (e : Nat) : List Nat :=
  sortBy (fun a b => decide ((w.auxAt b).seq ≤ (w.auxAt a).seq))
    (entIdx.filter fun k => (w.ent k).isPath && (w.ent k).parent.toNat == e)

/-- A PENDING mask-path record is made for the falling-through lanes, and the part goes on with the taking lanes (R33, R151). -/
def Wave.narrow (w : Wave) (e seq : Nat) (taking falling : Lanes) (target fall jpc : CodeAddr) : Wave :=
  match w.freeEnts with
  | [] => w
  | r :: _ =>
    let pathRec : SplitEntry := { kind := 3, pv := true, parent := BitVec.ofNat 4 e, qmask := (w.ent e).qmask, pc := fall, lmask := falling, jpc }
    ((w.updEnt r fun _ => pathRec).updAux r fun _ => { seq }).updEnt e fun x => { x with lmask := taking, pc := target }

/-- Exchanges the running path of part `e` with record `r`: PC, LMASK, dictionary phase, and the wait of a parked path with the triggers
that it has met; a fault that ended its wait is raised where it stands (R227, R230). -/
def Wave.swapPath (w : Wave) (e r : Nat) : Wave :=
  let p := w.ent e
  let m := w.ent r
  let ph := (w.bankOf e).phase
  let ra := w.auxAt r
  let ea := w.auxAt e
  let hit : Option TrapRec := match ra.park with | .hit t => some { t with tpc := m.pc, look := w.lookAt e } | _ => none
  let mk : Park := match ra.park with | .sleep 0 | .hit _ => .none | k => k
  let w1 := (w.updEnt e fun x => { x with pc := m.pc, lmask := m.lmask, st := if mk == .none then stReady else stParkw }).updEnt r
    fun x => { x with pc := p.pc, lmask := p.lmask, dph := ph }
  ((w1.setPhase p.qmask m.dph).updAux e fun a =>
      { a.fresh with park := mk, dict := ra.dict, half := ra.half, fired := ra.fired, firedAt := ra.firedAt, trap := a.trap <|> hit }).updAux r fun a =>
    { a with park := ea.park, dict := ea.dict, half := ea.half, fired := ea.fired, firedAt := ea.firedAt }

/-- The rotation of R34: the running path and the most recent PENDING record change places, if there is one. -/
def Wave.rotate (w : Wave) (e : Nat) : Wave :=
  match (w.records e).filter fun r => (w.ent r).st == 0 with
  | r :: _ => w.swapPath e r
  | [] => w

/-! ## Fusing (R39 to R44) -/

/-- The nearest ancestors of an entry, at most `fuel` of them. -/
def Wave.ancestors (w : Wave) : Nat → Nat → List Nat
  | 0, _ => []
  | fuel + 1, e => if (w.ent e).pv then (w.ent e).parent.toNat :: w.ancestors fuel (w.ent e).parent.toNat else []

/-- The descendants of an entry. -/
def Wave.under (w : Wave) (j : Nat) : List Nat :=
  entIdx.filter fun k => (w.ent k).kind != 0 && k != j && (w.ancestors 16 k).contains j

/-- Frees an entry. -/
def Wave.free (w : Wave) (k : Nat) : Wave := (w.updEnt k fun _ => {}).updAux k fun _ => {}

/-- Every copy of the quads `q` takes the values of the bank of quad `b` (R40, R42, R43, R172, R240). -/
def Wave.spreadBank (w : Wave) (q : Quads) (b : Nat) : Wave :=
  match w.banks[b]? with
  | some x => { w with banks := mapQuads q (fun _ => x) 0 w.banks }
  | none => w

/-- The lowest quad of a list of entries. -/
def Wave.lowestOf (w : Wave) (es : List Nat) : Nat := (es.map fun e => lowQuad (w.ent e).qmask).foldl min 16

/-- Every running part under `j`, of which there is one, is JWAIT at `x` (R40). -/
def Wave.allArrived (w : Wave) (j : Nat) (x : CodeAddr) : Bool :=
  let ps := (w.under j).filter fun k => (w.ent k).isPart
  !ps.isEmpty && ps.all fun k => (w.ent k).st == stJwait && (w.ent k).pc == x

/-- Record `j` completes: descendants are freed and `j` is a READY part after the JOIN at `x` (R40). -/
def Wave.complete (w : Wave) (j : Nat) (x : CodeAddr) : Wave :=
  let us := w.under j
  let low := w.lowestOf (us.filter fun k => (w.ent k).isPart)
  let r := w.ent j
  let w1 := us.foldl Wave.free w
  let w2 := (w1.updEnt j fun _ => { kind := 1, pv := r.pv, parent := r.parent, qmask := r.qmask, lmask := r.lmask &&& w.living, pc := x + 1 }).updAux
    j fun _ => {}
  ((w2.spreadBank r.qmask low).joinOrder r.qmask ((us.filter fun k => (w.ent k).isPart).map w.ent) w).closeWindows r.qmask

/-- Part `e`, whose PC is past the JOIN at `x`, acts under R39: it waits at its nearest OPEN ancestor that names `x`, which may
complete and act in turn (R40). Answers the wave and the records that completed. -/
def Wave.arrive : Nat → Wave → Nat → CodeAddr → Wave × List Nat
  | 0, w, _, _ => (w, [])
  | fuel + 1, w, e, x =>
    match (w.ancestors 16 e).find? fun j => (w.ent j).isJoin && (w.ent j).st == 0 with
    | none => (w, [])
    | some j =>
      let w1 := if (w.ent j).jany then w.updEnt j fun r => { r with jpc := x, jany := false } else w
      if (w1.ent j).jpc = x then
        let q := (w1.ent e).qmask
        let w2 := (w1.updEnt e fun p => { p with st := stJwait, pc := x, tcnt := 0 }).updEnt j fun r => { r with arrq := r.arrq ||| q }
        if w2.allArrived j x then
          let (w3, fs) := Wave.arrive fuel (w2.complete j x) j x
          (w3, j :: fs)
        else (w2, [])
      else (w1, [])

/-- After the entry below them is gone, the ancestors `js` are examined: a record without children is freed and counts as
exited, an OPEN record whose parts have all arrived completes (R40, R159). -/
def Wave.examine : Nat → Wave → List Nat → Wave × List Nat
  | 0, w, _ => (w, [])
  | _, w, [] => (w, [])
  | fuel + 1, w, j :: js =>
    if (w.children j).isEmpty then (w.free j).examine fuel js
    else
      let r := w.ent j
      if r.st == 0 && !r.jany && w.allArrived j r.jpc then
        let (w1, fs) := Wave.arrive 16 (w.complete j r.jpc) j r.jpc
        (w1, j :: fs)
      else w.examine fuel js

/-- The next bundle of a path or part that has come to run is eligible from the second clk (R146, R372). -/
def Wave.late (w : Wave) (e : Nat) : Wave := w.updAux e fun a => { a with elig := 2 }

/-- The lanes of part `e` have exited: its mask-path records or its ancestors are resolved (R159). Where the most recent record is
ARRIVED and an older one is PENDING, both cases of R159 hold; the most recent record decides (DESIGN CHOICE, log 35). -/
def Wave.exitPath (w : Wave) (e : Nat) : Wave × List Nat :=
  match w.records e with
  | r :: _ =>
    let m := w.ent r
    if m.st == 0 then
      let w1 := (w.swapPath e r).late e
      (w1.free r, [])
    else
      let w1 := (w.updEnt e fun x => { x with lmask := m.lmask, pc := m.jpc, st := stReady }).updAux e fun a => a.fresh
      ((w1.setPhase m.qmask false).free r, [])
  | [] =>
    let js := w.ancestors 16 e
    (w.free e).examine 16 js

/-! ## FUSE and forced fuses -/

/-- The running parts of the wave, but for spilled ones. -/
def Wave.realParts (w : Wave) : List Nat := w.parts.filter fun e => (w.ent e).st != stStub

/-- All parts become one READY part at `pc` in the lowest entry that is freed (R42). -/
def Wave.collapse (w : Wave) (pc : CodeAddr) : Wave :=
  let used := entIdx.filter fun k => (w.ent k).kind != 0
  let low := w.lowestOf w.parts
  let root := used.headD 0
  let w1 := used.foldl Wave.free w
  let w2 := (w1.updEnt root fun _ => { kind := 1, qmask := w.allQuads, lmask := w.living, pc })
  ((w2.spreadBank w.allQuads low).joinOrder w.allQuads (w.parts.map w.ent) w).closeWindows w.allQuads

/-- Every running part is FWAIT at one address that holds a FUSE (R42). -/
def State.fuseReady (s : State) (w : Wave) : Option CodeAddr :=
  match w.parts with
  | [] => none
  | e :: es =>
    let x := (w.ent e).pc
    if (e :: es).all (fun k => (w.ent k).st == stFwait && (w.ent k).pc == x) && s.instrAt w.core x == some .fuse then some x else none

/-- The fuse set of quads `q` for a minimum width (R43): the aligned run of Wmin / 4 quads that holds them. -/
def fuseSet (q : Quads) (wmin : Nat) : Quads :=
  let n := wmin / 4
  runMask (lowQuad q / n * n) n

/-- The running parts whose quads lie in a set. -/
def Wave.partsIn (w : Wave) (q : Quads) : List Nat := w.parts.filter fun e => ((w.ent e).qmask &&& ~~~q) == 0

/-- The smallest join record that contains the set, for the parent of a forced-fused part. -/
def Wave.smallestJoin (w : Wave) (q : Quads) : Option Nat :=
  (sortBy (fun a b => decide ((quadsOf (w.ent a).qmask).length ≤ (quadsOf (w.ent b).qmask).length))
    (entIdx.filter fun k => (w.ent k).isJoin && (q &&& ~~~(w.ent k).qmask) == 0)).head?

/-- The forced fuse of R43: the set becomes one READY part at the instruction. Answers the fused entry too. -/
def Wave.forcedFuse (w : Wave) (q : Quads) (pc : CodeAddr) : Wave × Nat :=
  let ps := w.partsIn q
  let low := w.lowestOf ps
  let lm := ps.foldl (fun m e => m ||| (w.ent e).lmask) 0
  let same := entIdx.find? fun k => (w.ent k).isJoin && (w.ent k).qmask == q
  let gone := entIdx.filter fun k => (w.ent k).kind != 0 && ((w.ent k).qmask &&& ~~~q) == 0
  let w1 := gone.foldl Wave.free w
  let (k, pv, par) := match same with
    | some j => (j, (w.ent j).pv, (w.ent j).parent)
    | none => (w1.freeEnts.headD 0, (w1.smallestJoin q).isSome, BitVec.ofNat 4 ((w1.smallestJoin q).getD 0))
  let w2 := (w1.updEnt k fun _ => { kind := 1, pv, parent := par, qmask := q, lmask := lm, pc })
  (((w2.spreadBank q low).joinOrder q (ps.map w.ent) w).closeWindows q, k)

/-- The forced-fuse instruction at which a part is FWAIT, as its Wmin. -/
def State.forcedAt (s : State) (w : Wave) (e : Nat) : Option Nat :=
  if (w.ent e).st == stFwait then
    match s.instrAt w.core (w.ent e).pc with
    | some i => wminI w.width i
    | none => none
  else none

/-- Everything that a change of waiting parts may let happen: a FUSE, or one forced fuse (R42, R43). -/
def State.settle (s : State) (wid : Nat) : State :=
  match s.wave? wid with
  | none => s
  | some w =>
    match s.fuseReady w with
    | some x =>
      let w1 := w.collapse (x + 1)
      (s.setWave w1).traceAt w1 (w1.parts.headD 0) 6 2 x []
    | none =>
      match w.realParts.find? fun e => match s.forcedAt w e with
          | some n => (w.partsIn (fuseSet (w.ent e).qmask n)).all (fun k => (w.ent k).st == stFwait && (w.ent k).pc == (w.ent e).pc) &&
              w.parts.all fun k => ((w.ent k).qmask &&& fuseSet (w.ent e).qmask n) == 0 || ((w.ent k).qmask &&& ~~~fuseSet (w.ent e).qmask n) == 0
          | none => false with
      | some e =>
        let q := fuseSet (w.ent e).qmask ((s.forcedAt w e).getD 4)
        let (w1, k) := w.forcedFuse q (w.ent e).pc
        (s.setWave w1).trace w1 k 6 3 []
      | none => s

/-- WIDTH_UNMET in one waiting part of a fuse set, at its own instruction and with that one's Wmin, WIDTH at a FUSE (R44, R414). -/
def State.unmet (s : State) (v : Wave) (k : Nat) : Wave :=
  if (v.ent k).st == stFwait then
    (v.updEnt k fun x => { x with st := stReady, tcnt := 0 }).updAux k fun a =>
      { a with later := a.later <|> a.trap, trap := some { code := 0x08, tpc := (v.ent k).pc, info := BitVec.ofNat 32 ((s.forcedAt v k).getD v.width), look := v.lookAt k } }
  else v

/-- The waiting forced fuses that a part waiting at another address makes impossible: WIDTH_UNMET in every FWAIT part of
their sets (R44). -/
def State.clash (s : State) (wid : Nat) : State :=
  match s.wave? wid with
  | none => s
  | some w =>
    let bad := w.realParts.filterMap fun e => match s.forcedAt w e with
      | some n =>
        let q := fuseSet (w.ent e).qmask n
        if (w.partsIn q).any fun k => (w.ent k).st == stFwait && (w.ent k).pc != (w.ent e).pc then some q else none
      | none => none
    match bad with
    | [] => s
    | _ =>
      let w1 := bad.foldl (fun v q => (v.partsIn q).foldl s.unmet v) w
      (s.setWave w1).enterPending wid

/-- Part `e` becomes FWAIT at its PC (R42, R43). -/
def Wave.fwait (w : Wave) (e : Nat) : Wave :=
  (w.updEnt e fun x => { x with st := stFwait, tcnt := 0 }).updAux e fun a => { a with hints := 0, dict := none, blocked := none }

/-! ## Restore requests (R45) -/

/-- A STUB stands in the wave. -/
def Wave.hasStub (w : Wave) : Bool := w.parts.any fun e => (w.ent e).st == stStub

/-- The restore request of R45, pending in part `e`. -/
def Wave.askRestore (w : Wave) (e : Nat) : Wave :=
  w.updAux e fun a => a.ask { code := 0x07, sub := 1, tpc := 0, late := true, look := w.lookAt e }

/-- Every part that is not a STUB waits or has exited; the part in which the restore request is then taken. R45 calls it the
lowest-numbered such part: it is the one of the lowest split-table index (DESIGN CHOICE, log 35). -/
def Wave.allWait (w : Wave) : Option Nat :=
  if w.hasStub && w.realParts.all (fun e => let t := (w.ent e).st; t == stJwait || t == stFwait || t == stParkw) then w.realParts.head? else none

/-- The restore request of a wave whose parts all wait (R45). -/
def State.restoreCheck (s : State) (wid : Nat) : State :=
  match s.wave? wid with
  | none => s
  | some w => match w.allWait with
    | some e => (s.setWave (w.askRestore e)).enterPending wid
    | none => s

/-- That request is due: no other trap is pending, and the wave is not stopped. -/
def State.restoreDue (s : State) (w : Wave) : Bool := w.allWait.isSome && w.trapped.isEmpty && !w.handler.run && !s.frozen w

/-- After an instruction that the quads `q` issued has retired, having freed an entry or not: SPLIT_OVF with the restore subcode is asked
for in the part that has those quads now, or in a waiting part (R45). Where no part has them any more, as after an EXIT, nothing is asked
for until every other part waits (R45 does not say; DESIGN CHOICE, log 35). -/
def State.stubCheck (s : State) (wid : Nat) (q : Quads) (freed : Bool) : State :=
  match s.wave? wid with
  | none => s
  | some w =>
    match freed && w.hasStub, w.realParts.find? fun e => (q &&& ~~~(w.ent e).qmask) == 0 with
    | true, some e => (s.setWave (w.askRestore e)).enterPending wid
    | _, _ => s.restoreCheck wid

/-- The wave has more free entries than `w` had. -/
def State.freedSince (s : State) (w : Wave) : Bool :=
  match s.wave? w.wid with | some v => decide (w.freeEnts.length < v.freeEnts.length) | none => false

/-! ## Counting and tracing of splits -/

/-- A split of entry `e` of the wave is counted (R488) and traced (R458). -/
def State.noteSplit (s : State) (w : Wave) (e kind : Nat) (lanes : Lanes) : State :=
  let ctx := ((s.group? w.gid).map (·.ctx)).getD 0
  (s.trace w e 5 kind [lo32 lanes, hi32 lanes]).count (s.ctxFunc ctx) 3 (panelOf w.core) 1

/-- A PAGE fault of the lanes `bad` at the issuing instruction parks the faulting quads (R37): the part splits when FSPLIT, the
table and its mask-path records allow, and parks whole otherwise. `after` moves clean lanes past the instruction; `park`
holds what a faulting part waits for. -/
def State.faultPark (s : State) (c : Ctx) (bad : Lanes) (pcAfter : CodeAddr) (phaseAfter : Bool) (park : Aux → Aux) : State :=
  let w := c.w
  let badQ := quadMask ((quadsOf c.q).filter fun q => bits (c.m0 &&& bad) (4 * q) 4 != 0)
  let ps := decompose (fun q => if bits c.m0 (4 * q) 4 = 0 then .idle else if bitAt badQ q then .yes else .no) (runLog c.q) (lowQuad c.q)
  if bitAt w.splpol 3 && (w.records c.ent).isEmpty && decide (2 ≤ ps.length) && decide (entriesNeeded ps ≤ w.freeEnts.length) then
    let take := lanesOfQuads badQ
    let w1 := w.splitInto c.ent s.nextId c.m0 take c.pc { pcYes := c.pc, pcNo := pcAfter, stYes := stParkf, jany := true } ps
    let w2 := w1.setPhase (c.q &&& ~~~badQ) phaseAfter
    let w3 := (w2.children c.ent).foldl (fun v k => if (v.ent k).st == stParkf then v.updAux k park else v) w2
    ({ s with nextId := s.nextId + 16 }.setWave w3).noteSplit w c.ent 3 (c.m0 &&& ~~~take)
  else s.setWave ((w.updEnt c.ent fun x => { x with st := stParkf }).updAux c.ent fun a => park { a with hints := 0, dict := none, blocked := none })

end Sys2Proof.Machine
end

