-- ==== Sys2Proof/WellFormed.lean ====
section
/-!
DEFINITION. Well-formed instructions: the encoded instructions whose fields pass every check of R142 that depends on the
bundle alone. The checks themselves are `Machine.fieldsOk` and `Machine.regsOk`. An ill-formed bundle raises ILLEGAL (R142).
-/
namespace Sys2Proof

/-- The fields of the instruction are legal. Events of the device have no fields that a decoder checks. -/
def WellFormed (i : Instr) : Bool := Machine.legal i

end Sys2Proof
end

