-- ==== Sys2Proof/Machine/Issue.lean ====
section
/-!
DEFINITION. What every encoded instruction goes through when it issues (R142, R145, R43, R410): the checks of the bundle, the
privilege check, the minimum width, then its own body, which answers a state or the trap it raises.
-/
namespace Sys2Proof.Machine

/-- The instructions that raise ILLEGAL in a handler part (R410). -/
def handlerIllegal : Instr → Bool
  | .brd .. | .join | .fuse | .trap _ | .bkpt _ | .monw _ | .monwG _ | .sleep _ | .bar _ | .cbar _ | .wqui _ | .prime .. | .mma .. => true
  | _ => false

/-- Every vector register lies below the wave's budget (R20). -/
def budgetOk (budget : Nat) (u : Uses) : Bool := (u.vr ++ u.vw).all fun o => decide (o.1 + o.2 ≤ budget)

/-- MFENCE and BWAIT accept only the WM that encodes the wave's WIDTH (R242). -/
def widthOnlyOk (width : Nat) : Instr → Bool
  | .mfence w | .bwait w _ | .bwaitAll w => wminOf w == width
  | _ => true

/-- Each kind of group accepts its own mesh and pixel instructions (R267). -/
def kindOk (k : GroupKind) : Instr → Bool
  | .mcnt .. | .mvtx .. | .mprim .. => k == .mesh
  | .vintp .. | .pxw .. | .pxk _ | .glzin .. | .glzrd .. | .glzres .. => k == .pixel
  | _ => true

/-- Steps 1 to 5 of R142 pass for the issuing part, in a group of an accepted kind. -/
def issueLegal (i : Instr) (c : Ctx) : Bool :=
  WellFormed i && budgetOk c.w.budget (uses i) && widthOnlyOk c.w.width i && kindOk c.g.kind i && !(c.hnd && handlerIllegal i)

/-- The part is too narrow for the instruction: WIDTH_UNMET, or it waits at it for a forced fuse (R43, R44). -/
def State.gather (s : State) (c : Ctx) (n : Nat) : State :=
  if c.w.width < n || !(c.w.records c.ent).isEmpty then s.raise c (c.trap cWidthUnmet 0 (BitVec.ofNat 32 n))
  else
    let t := ((s.setWave (c.w.fwait c.ent)).clash c.w.wid).settle c.w.wid
    t.stubCheck c.w.wid c.q (t.freedSince c.w)

/-- What comes of an instruction that a part issues: the trap of a failing check, the wait of a narrow part, or its body. -/
def State.perform (s : State) (i : Instr) (c : Ctx) (body : Ctx → Except TrapRec State) : State :=
  if !issueLegal i c then s.raise c (c.trap cIllegal)
  else if privileged i && !c.hnd then s.raise c (c.trap cPriv)
  else match wminI c.w.width i with
    | some n => if c.pwidth < n then s.gather c n else run
    | none => run
where
  /-- The body, or the trap it raises. -/
  run : State := match body c with
    | .ok s' => s'
    | .error t => s.raise c t

/-- An encoded instruction issued by the part `s.cur`; without an issuing part nothing happens. -/
def issue (i : Instr) (s : State) (body : Ctx → Except TrapRec State) : Host.Outcome State Fault Refusal :=
  match s.cur with
  | none => .next s
  | some who => match s.ctx? who with
    | none => .next s
    | some c => .next (s.perform i c body)

/-- An instruction that only changes the issuing wave and then moves past itself. -/
def issueWave (i : Instr) (s : State) (f : Ctx → Wave) : Host.Outcome State Fault Refusal :=
  issue i s fun c => .ok (s.retire c i (f c))

/-- The instruction waits at issue, not ready, until its event (R47, R48). -/
def State.block (s : State) (c : Ctx) (i : Instr) : State := s.setWave (c.setAux c.w fun a => { a with blocked := some i, hints := 0 })

/-- The part that waits at issue, and its instruction. -/
def State.blockedAt (s : State) (who : Issuer) : Option (Ctx × Instr) :=
  match s.ctx? who with
  | none => none
  | some c => c.aux.blocked.map fun i => (c, i)

/-- Fetching from a slot without landed code (R103). -/
def State.codeAbsent (s : State) (c : Ctx) (target : CodeAddr) : State :=
  s.raise c (c.trap cCodeAbsent 0 (BitVec.ofNat 32 (target.toNat / 1024)) (target.setWidth 64))

end Sys2Proof.Machine
end

