-- ==== Sys2Proof/Machine/Control.lean ====
section
/-!
DEFINITION. Branches, divergence, hints and dictionaries (05 R147 to R153, R158, R161 to R163; 04 R121, R129, R143).
-/
namespace Sys2Proof.Machine

/-! ## Transfers -/

/-- The offset of a B word, with its extension (R112, R123). -/
def bOffset (o : BitVec 12) (x : Option BExt) : CodeAddr :=
  match x with
  | some e => bits e.tx 0 5 ++ o
  | none => o.signExtend 17

/-- The offset of a D word, with its extension (R113, R123). -/
def dOffset (o : BitVec 11) (x : Option (BitVec 6)) : CodeAddr :=
  match x with
  | some t => t ++ o
  | none => o.signExtend 17

/-- The wave after a transfer of the part to `target`: a backward branch rotates (R34, R148), and the target's bundle is eligible `n` clk
after the branch has issued (R146). -/
def Ctx.jump (c : Ctx) (i : Instr) (w : Wave) (target : CodeAddr) (n : Nat := 2) : Wave :=
  let w1 := c.goto w target
  c.setAux (if !c.hnd && decide (target ≤ c.wordAddr i) then w1.rotate c.ent else w1) fun a => { a with elig := n }

/-- A packet of the issuing part; a handler part emits nothing (R459). -/
def State.tracePart (s : State) (c : Ctx) (type sub : Nat) (more : List Word) : State :=
  if c.hnd then s else s.trace c.w c.ent type sub more

/-- BRA (R147). -/
def execBra (o : BitVec 12) (x : Option BExt) (s : State) : Host.Outcome State Fault Refusal :=
  issue (.bra o x) s fun c => .ok (s.setWave (c.jump (.bra o x) c.w (c.wordAddr (.bra o x) + bOffset o x)))

/-- The conditions of BRC (R134, R147). -/
def brcTaken (c : Ctx) (cond : BitVec 4) (src : BitVec 7) : Bool :=
  match cond.toNat with
  | 0 => c.s src.toNat != 0
  | 1 => c.s src.toNat == 0
  | 2 => (c.mask src.toNat &&& c.m0) != 0
  | 3 => (c.mask src.toNat &&& c.m0) == 0
  | _ => (c.mask src.toNat &&& c.m0) == c.m0

/-- BRC (R147): over the lanes of m0, it never splits. -/
def execBrc (k : BitVec 4) (r : BitVec 7) (o : BitVec 12) (x : Option BExt) (s : State) : Host.Outcome State Fault Refusal :=
  let i := Instr.brc k r o x
  issue i s fun c =>
    let t := brcTaken c k r
    let s1 := s.tracePart c 3 (if t then 1 else 0) []
    .ok (s1.setWave (if t then c.jump i c.w (c.wordAddr i + bOffset o x) else c.advance i c.w))

/-- CALL (R147, R149): the return address is the word after the CALL word. -/
def execCall (d : BitVec 6) (o : BitVec 12) (x : Option BExt) (s : State) : Host.Outcome State Fault Refusal :=
  let i := Instr.call d o x
  issue i s fun c =>
    let w := c.putS c.w d.toNat ((c.wordAddr i + 1).setWidth 32)
    .ok (s.setWave (c.jump i w (c.wordAddr i + bOffset o x)))

/-- RET (R147): bits [31:17] of the scalar are ignored. -/
def execRet (a : BitVec 6) (s : State) : Host.Outcome State Fault Refusal :=
  let i := Instr.ret a
  issue i s fun c =>
    let t := bits (c.s a.toNat) 0 17
    .ok ((s.tracePart c 4 0 [t.setWidth 32]).setWave (c.jump i c.w t))

/-- JMPF (R158). -/
def execJmpf (sl : BitVec 7) (o : BitVec 10) (s : State) : Host.Outcome State Fault Refusal :=
  let i := Instr.jmpf sl o
  issue i s fun c =>
    let t : CodeAddr := sl ++ o
    if s.landed c.w.core t then .ok (s.setWave (c.jump i c.w t 3))
    else .error (c.trap cCodeAbsent 0 (sl.setWidth 32) (t.setWidth 64))

/-! ## Divergence -/

/-- BRD (R31 to R33, R150, R151). -/
def execBrd (k : BitVec 4) (t j : BitVec 11) (x : Option BExt) (s : State) : Host.Outcome State Fault Refusal :=
  let i := Instr.brd k t j x
  issue i s fun c =>
    let a := c.wordAddr i
    let target := a + dOffset t (x.map (·.tx))
    let joinAt := a + dOffset j (x.map (·.jx))
    let take := if k = 0 then c.m0 else c.mask k.toNat &&& c.m0
    if uniform c.q c.m0 take then
      let taken := take != 0
      let s1 := s.tracePart c 3 (if taken then 1 else 0) []
      .ok (s1.setWave (if taken then c.jump i c.w target else c.advance i c.w))
    else if bits c.w.splpol 0 2 == 1#2 || !(c.w.records c.ent).isEmpty then
      if c.w.freeEnts.isEmpty then .error (c.trap cSplitOvf 0 1)
      else
        let w1 := (c.goto c.w target).narrow c.ent s.nextId take (c.m0 &&& ~~~take) target (a + 1) joinAt
        let w2 := if target ≤ a then w1.rotate c.ent else w1
        .ok (({ s with nextId := s.nextId + 1 }.tracePart c 5 1 [lo32 take, hi32 take]).setWave (w2.late c.ent))
    else
      let ps := decomposePart c.q c.m0 take
      let n := entriesNeeded ps
      if c.w.freeEnts.length < n then .error (c.trap cSplitOvf 0 (BitVec.ofNat 32 n))
      else
        let w1 := c.w.splitInto c.ent s.nextId c.m0 take a { pcYes := target, pcNo := a + 1, jpc := joinAt } ps
        .ok (({ s with nextId := s.nextId + 16 }.noteSplit c.w c.ent 0 take).setWave ((w1.children c.ent).foldl Wave.late w1))

/-- Fuses of the JOIN at `x` are traced with the fused entry (R458, R460). -/
def State.noteFuses (s : State) (w : Wave) (x : CodeAddr) (es : List Nat) : State := es.foldl (fun s e => s.traceAt w e 6 0 x []) s

/-- The mask-path records whose JPC is `x`, as a JOIN or FUSE at `x` resolves them, the most recent first (R35, R153): a path to run
first (`some true`), a record with another JPC (`some false`), or none left. A JOIN that has merged an ARRIVED record meets the
next record in the same way before it acts under R39 (DEDUCED, log 17). -/
def Wave.fusePath : Nat → Wave → Nat → CodeAddr → Wave × Option Bool
  | 0, w, _, _ => (w, some false)
  | fuel + 1, w, e, x =>
    match w.records e with
    | [] => (w, none)
    | r :: _ =>
      let m := w.ent r
      if m.jpc = x then
        if m.st == 0 then ((w.swapPath e r).updEnt r fun y => { y with st := 1, pc := m.jpc, dph := false }, some true)
        else Wave.fusePath fuel ((w.updEnt e fun y => { y with lmask := y.lmask ||| m.lmask }).free r) e x
      else (w, some false)

/-- JOIN (R152): R35, then R39 and R40. A path that comes to run and a fused part are eligible from the second clk (R146, R372). -/
def execJoin (s : State) : Host.Outcome State Fault Refusal :=
  issue .join s fun c =>
    let x := c.pc
    let (w1, path) := Wave.fusePath 16 c.w c.ent x
    if path != some true then
      let (w2, fs) := Wave.arrive 16 (c.goto w1 (x + 1)) c.ent x
      let s1 := (s.noteFuses w2 x fs).setWave (fs.foldl Wave.late w2)
      .ok (s1.stubCheck c.w.wid c.q (s1.freedSince c.w))
    else
      let s1 := s.setWave (w1.late c.ent)
      .ok (s1.stubCheck c.w.wid c.q (s1.freedSince c.w))

/-- FUSE (R42, R153). A wave with one running part under lapsed join records is no single part here, for it has more than one entry: its
table collapses; and where a merged ARRIVED record is followed by one with another JPC, the FUSE traps and the merge does not stand (both
DESIGN CHOICE, log 35). -/
def execFuse (s : State) : Host.Outcome State Fault Refusal :=
  issue .fuse s fun c =>
    let x := c.pc
    let after := fun (t : State) => t.stubCheck c.w.wid c.q (t.freedSince c.w)
    match c.w.fusePath 16 c.ent x with
    | (w1, some true) => .ok (after (s.setWave (w1.late c.ent)))
    | (_, some false) => .error (c.trap cWidthUnmet 0 (BitVec.ofNat 32 c.w.width))
    | (w1, none) =>
      if (entIdx.filter fun k => (w1.ent k).kind != 0).length == 1 then .ok (s.setWave (c.goto w1 (x + 1)))
      else .ok (after (((s.setWave (w1.fwait c.ent)).clash c.w.wid).settle c.w.wid))

/-! ## NOP, hints, dictionaries -/

/-- NOP (R161). -/
def execNop (s : State) : Host.Outcome State Fault Refusal := issueWave .nop s fun c => c.w

/-- An attaching hint issues: the checks of R142 on its whole bundle come first, then the part goes on with the rest of the
bundle at its next issue (R102, R121). -/
def hintIssue (i : Instr) (s : State) : Host.Outcome State Fault Refusal :=
  issue i s fun c =>
    match decodeBundle (s.words c.w.core c.pc) with
    | .error _ => .error (c.trap cIllegal)
    | .ok (j, _) =>
      if !issueLegal j c then .error (c.trap cIllegal)
      else if privileged j && !c.hnd then .error (c.trap cPriv)
      else .ok (s.setWave (c.setAux c.w fun a => { a with hints := a.hints + 1 }))

/-- A wide-immediate hint (R102, R122). -/
def execWideImmediateHint (w : BitVec 24) (s : State) : Host.Outcome State Fault Refusal := hintIssue (.wideImmediateHint w) s
/-- A branch-extension hint (R102, R123). -/
def execBranchExtensionHint (t j : BitVec 6) (s : State) : Host.Outcome State Fault Refusal := hintIssue (.branchExtensionHint t j) s

/-- HINT.yield n (R162): the part is not ready for the n clk after the one in which it issues. -/
def execHintYield (n : BitVec 8) (s : State) : Host.Outcome State Fault Refusal :=
  issueWave (.hintYield n) s fun c => c.setAux c.w fun a => { a with yield := n.toNat + 2 }

/-- HINT.uniform (R162): no effect on any result. -/
def execHintUniform (s : State) : Host.Outcome State Fault Refusal := issueWave .hintUniform s fun c => c.w

/-- The forms that no dictionary entry may have, beyond prefixes, hints and DICT words (R129). -/
def dictBanned (width : Nat) : Instr → Bool
  | .bra .. | .brc .. | .call .. | .jmpf .. | .brd .. | .ret _ | .rte | .join | .fuse | .wideImmediateHint _ | .branchExtensionHint ..
  | .hintYield _ | .hintUniform | .dict .. => true
  | i => (wminI width i).isSome

/-- A dictionary entry of the issuing group's kernel slot as an instruction that passes R129. -/
def State.dictEntry (s : State) (c : Ctx) (k : BitVec 10) : Option Instr :=
  match decodeWord ((s.core c.w.core).dict.get (1024 * c.g.kslot + k.toNat)) Attach.none with
  | some i => if issueLegal i c && !dictBanned c.w.width i then some i else none
  | none => none

/-- DICT (R128 to R130, R163): both entries are checked; then they issue one after the other. -/
def execDict (a b : BitVec 10) (s : State) : Host.Outcome State Fault Refusal :=
  issue (.dict a b) s fun c =>
    match s.dictEntry c a, s.dictEntry c b with
    | some x, some y => .ok (s.setWave (c.setAux c.w fun u => { u with dict := some (x, y) }))
    | _, _ => .error (c.trap cIllegal)

/-- A bundle with a reserved encoding (R143). -/
def execReservedEncoding (s : State) : Host.Outcome State Fault Refusal :=
  issue .reservedEncoding s fun c => .error (c.trap cIllegal)

end Sys2Proof.Machine
end

