-- ==== Sys2Proof/Machine/Astc.lean ====
section
/-!
DEFINITION. Blocks of the ASTC LDR profile in 2D (09 R287). The spec names the format and does not give it: the layout of a block is that
of the Khronos data format (PRESUMED, log 47).
-/
namespace Sys2Proof.Machine

/-! ## Integer sequences -/

/-- A quantisation as the base of its digits (1 for none) and the bits below them, from 2 levels to 256. -/
def iseKind (q : Nat) : Nat × Nat :=
  [(1, 1), (3, 0), (1, 2), (5, 0), (3, 1), (1, 3), (5, 1), (3, 2), (1, 4), (5, 2), (3, 3), (1, 5), (5, 3), (3, 4), (1, 6), (5, 4), (3, 5), (1, 7),
   (5, 5), (3, 6), (1, 8)].getD q (1, 8)

/-- The bits of a sequence of `n` values. -/
def iseSize (q n : Nat) : Nat :=
  let (d, m) := iseKind q
  m * n + (if d = 3 then (8 * n + 4) / 5 else if d = 5 then (7 * n + 2) / 3 else 0)

/-- The five digits that eight bits hold. -/
def iseTrits (t : Nat) : List Nat :=
  let f := fun (x i n : Nat) => x / 2 ^ i % 2 ^ n
  let (c, t3, t4) := if f t 2 3 = 7 then (4 * f t 5 3 + f t 0 2, 2, 2) else if f t 5 2 = 3 then (f t 0 5, f t 7 1, 2) else (f t 0 5, f t 5 2, f t 7 1)
  let pair := fun (h l : Nat) => 2 * h + (if h = 1 then 0 else l)
  if f c 0 2 = 3 then [pair (f c 3 1) (f c 2 1), f c 4 1, 2, t3, t4]
  else if f c 2 2 = 3 then [f c 0 2, 2, 2, t3, t4]
  else [pair (f c 1 1) (f c 0 1), f c 2 2, f c 4 1, t3, t4]

/-- The three digits that seven bits hold. -/
def iseQuints (q : Nat) : List Nat :=
  let f := fun (i n : Nat) => q / 2 ^ i % 2 ^ n
  if f 1 2 = 3 ∧ f 5 2 = 0 then [4, 4, 4 * f 0 1 + (if f 0 1 = 1 then 0 else f 3 2)]
  else
    let (q2, c) := if f 1 2 = 3 then (4, 8 * f 3 2 + 2 * (3 - f 5 2) + f 0 1) else (f 5 2, f 0 5)
    if c % 8 = 5 then [c / 8, 4, q2] else [c % 8, c / 8, q2]

/-- Value `i` of the sequence at bit 0 of `b`, beyond whose end `b` is zero: its digit and its bits. -/
def iseValue (b q i : Nat) : Nat × Nat :=
  let (d, m) := iseKind q
  let f := fun (k n : Nat) => b / 2 ^ k % 2 ^ n
  if d = 3 then
    let o := i / 5 * (8 + 5 * m)
    let t := f (o + m) 2 + 4 * f (o + 2 * m + 2) 2 + 16 * f (o + 3 * m + 4) 1 + 32 * f (o + 4 * m + 5) 2 + 128 * f (o + 5 * m + 7) 1
    ((iseTrits t).getD (i % 5) 0, f (o + i % 5 * m + [0, 2, 4, 5, 7].getD (i % 5) 0) m)
  else if d = 5 then
    let o := i / 3 * (7 + 3 * m)
    let t := f (o + m) 3 + 8 * f (o + 2 * m + 3) 2 + 32 * f (o + 3 * m + 5) 2
    ((iseQuints t).getD (i % 3) 0, f (o + i % 3 * m + [0, 3, 5].getD (i % 3) 0) m)
  else (0, f (i * m) m)

/-- The `n` bits of `x`, repeated to `w` bits. -/
def repeatBits (n x w : Nat) : Nat := (List.range 8).foldl (fun a _ => a * 2 ^ n + x) 0 / 2 ^ (8 * n - w)

/-- Combines a digit with its bits: `c` a digit's step, `b` the spread of the upper bits, `w` the bits of the result. -/
def unquant (v : Nat × Nat) (c b w : Nat) : Nat :=
  let ones := if v.2 % 2 = 1 then 2 ^ (w + 1) - 1 else 0
  ((v.1 * c + b) ^^^ ones) / 4 ||| (ones &&& 2 ^ (w - 1))

/-- A colour value, 0 to 255. -/
def unquantColor (q : Nat) (v : Nat × Nat) : Nat :=
  let (d, m) := iseKind q
  let x := v.2 / 2
  if d = 3 then
    let (c, b) := match m with
      | 1 => (204, 0) | 2 => (93, x * 278) | 3 => (44, x * 133) | 4 => (22, x * 65) | 5 => (11, x * 32 + x / 4) | _ => (5, x * 16 + x / 16)
    unquant v c b 8
  else if d = 5 then
    let (c, b) := match m with
      | 1 => (113, 0) | 2 => (54, x * 268) | 3 => (26, x * 130 + x / 2) | 4 => (13, x * 64 + x / 2) | _ => (6, x * 32 + x / 8)
    unquant v c b 8
  else repeatBits m v.2 8

/-- A weight, 0 to 64. -/
def unquantWeight (q : Nat) (v : Nat × Nat) : Nat :=
  let (d, m) := iseKind q
  let x := v.2 / 2
  let w := match d, m with
    | 3, 0 => [0, 32, 63].getD v.1 0
    | 5, 0 => [0, 16, 32, 47, 63].getD v.1 0
    | 3, 1 => unquant v 50 0 6
    | 3, 2 => unquant v 23 (x * 69) 6
    | 3, _ => unquant v 11 (x * 33) 6
    | 5, 1 => unquant v 28 0 6
    | 5, _ => unquant v 13 (x * 66) 6
    | _, _ => repeatBits m v.2 6
  if w > 32 then w + 1 else w

/-! ## The block mode -/

/-- The grid of weights of a block, their quantisation, and whether there are two planes of them. -/
structure AstcMode where
  w : Nat
  h : Nat
  q : Nat
  dual : Bool
  deriving DecidableEq, Repr

/-- The number of weights. -/
def AstcMode.count (m : AstcMode) : Nat := m.w * m.h * (if m.dual then 2 else 1)

/-- The grid, and whether the bits for a second plane and for finer weights count. -/
def astcGrid (b : Nat) : Option (Nat × Nat × Bool) :=
  let f := fun (i n : Nat) => b / 2 ^ i % 2 ^ n
  let a := f 5 2
  let c := f 7 2
  if f 0 2 ≠ 0 then
    some (match f 2 2 with
      | 0 => (c + 4, a + 2, true)
      | 1 => (c + 8, a + 2, true)
      | 2 => (a + 2, c + 8, true)
      | _ => if f 8 1 = 1 then (c % 2 + 2, a + 2, true) else (a + 2, c % 2 + 6, true))
  else if f 2 2 = 0 then none
  else match c with
    | 0 => some (12, a + 2, true)
    | 1 => some (a + 2, 12, true)
    | 2 => some (a + 6, f 9 2 + 6, false)
    | _ => if a = 0 then some (6, 10, true) else if a = 1 then some (10, 6, true) else none

/-- The mode of a block of k × k texels, or an illegal one. -/
def astcMode (k b : Nat) : Option AstcMode :=
  let f := fun (i n : Nat) => b / 2 ^ i % 2 ^ n
  (astcGrid b).bind fun (w, h, more) =>
    let r := f 4 1 + 2 * (if f 0 2 ≠ 0 then f 0 2 else f 2 2)
    let m : AstcMode := { w, h, q := r - 2 + (if more && f 9 1 == 1 then 6 else 0), dual := more && f 10 1 == 1 }
    let size := iseSize m.q m.count
    if w ≤ k ∧ h ≤ k ∧ m.count ≤ 64 ∧ 24 ≤ size ∧ size ≤ 96 then some m else none

/-! ## Partitions -/

/-- The 32-bit hash of a partition seed. -/
def astcHash (p : Nat) : Nat :=
  let x : BitVec 32 := BitVec.ofNat 32 p
  let x := x ^^^ (x >>> 15)
  let x := x - (x <<< 17)
  let x := x + (x <<< 7)
  let x := x + (x <<< 4)
  let x := x ^^^ (x >>> 5)
  let x := x + (x <<< 16)
  let x := x ^^^ (x >>> 7)
  let x := x ^^^ (x >>> 3)
  let x := x ^^^ (x <<< 6)
  (x ^^^ (x >>> 17)).toNat

/-- The partition, of `n`, of texel (x, y) of a block of k × k texels. -/
def astcPartition (k seed n x y : Nat) : Nat :=
  if n = 1 then 0
  else
    let (x, y) := if k * k < 31 then (2 * x, 2 * y) else (x, y)
    let r := astcHash (seed + (n - 1) * 1024)
    let a := if seed / 2 % 2 = 1 then 4 else 5
    let b := if n = 3 then 6 else 5
    let (s1, s2) := if seed % 2 = 1 then (a, b) else (b, a)
    let sq := fun (i s : Nat) => (r / 2 ^ i % 16) * (r / 2 ^ i % 16) / 2 ^ s
    let v := fun (i j : Nat) => (sq i s1 * x + sq (i + 4) s2 * y + r / 2 ^ j) % 64
    let p0 := v 0 14
    let p1 := v 8 10
    let p2 := if n < 3 then 0 else v 16 6
    let p3 := if n < 4 then 0 else v 24 2
    if p1 ≤ p0 ∧ p2 ≤ p0 ∧ p3 ≤ p0 then 0 else if p2 ≤ p1 ∧ p3 ≤ p1 then 1 else if p3 ≤ p2 then 2 else 3

/-! ## Colour endpoints -/

/-- Where a base and its offset share bits: the base, and the signed offset. -/
def bitTransfer (off base : Nat) : Int × Int :=
  let o := off / 2 % 64
  ((base / 2 + off / 128 * 128 : Nat), if 32 ≤ o then (o : Int) - 64 else o)

/-- A colour held to 0 to 255. -/
def clampColor (c : List Int) : List Nat := c.map fun x => (max 0 (min 255 x)).toNat

/-- Red and green moved towards blue. -/
def blueContract : List Int → List Int
  | [r, g, b, a] => [(r + b) / 2, (g + b) / 2, b, a]
  | c => c

/-- The two endpoints of an endpoint mode, from its values; none for the modes of high dynamic range. -/
def astcEnds (cem : Nat) (v : List Nat) : Option (List Nat × List Nat) :=
  let n := fun (i : Nat) => v.getD i 0
  let z := fun (i : Nat) => (v.getD i 0 : Int)
  let t := fun (i : Nat) => bitTransfer (n (2 * i + 1)) (n (2 * i))
  let out := fun (a b : List Int) => some (clampColor a, clampColor b)
  let direct := fun (a0 a1 : Int) =>
    let e0 := [z 0, z 2, z 4, a0]
    let e1 := [z 1, z 3, z 5, a1]
    if n 0 + n 2 + n 4 ≤ n 1 + n 3 + n 5 then out e0 e1 else out (blueContract e1) (blueContract e0)
  let offset := fun (a0 a1 : Int) =>
    let e0 := [(t 0).1, (t 1).1, (t 2).1, a0]
    let e1 := [(t 0).1 + (t 0).2, (t 1).1 + (t 1).2, (t 2).1 + (t 2).2, a1]
    if 0 ≤ (t 0).2 + (t 1).2 + (t 2).2 then out e0 e1 else out (blueContract e1) (blueContract e0)
  let scaled := fun (a0 a1 : Int) => out [z 0 * z 3 / 256, z 1 * z 3 / 256, z 2 * z 3 / 256, a0] [z 0, z 1, z 2, a1]
  match cem with
  | 0 => out [z 0, z 0, z 0, 255] [z 1, z 1, z 1, 255]
  | 1 =>
    let l0 : Int := ((n 0 / 4 + n 1 / 64 * 64 : Nat) : Int)
    let l1 := l0 + (n 1 % 64 : Nat)
    out [l0, l0, l0, 255] [l1, l1, l1, 255]
  | 4 => out [z 0, z 0, z 0, z 2] [z 1, z 1, z 1, z 3]
  | 5 =>
    let l1 := (t 0).1 + (t 0).2
    out [(t 0).1, (t 0).1, (t 0).1, (t 1).1] [l1, l1, l1, (t 1).1 + (t 1).2]
  | 6 => scaled 255 255
  | 8 => direct 255 255
  | 9 => offset 255 255
  | 10 => scaled (z 4) (z 5)
  | 12 => direct (z 6) (z 7)
  | 13 => offset (t 3).1 ((t 3).1 + (t 3).2)
  | _ => none

/-- The endpoint modes of `n` partitions, with the bits that they take below the weights, which begin at `top`. -/
def astcCems (b n top : Nat) : List Nat × Nat :=
  let f := fun (i n : Nat) => b / 2 ^ i % 2 ^ n
  if n = 1 then ([f 13 4], 0)
  else if f 23 2 = 0 then (List.replicate n (f 25 4), 0)
  else
    let hi := 3 * n - 4
    let x := f 25 4 + 16 * f (top - hi) hi
    ((List.range n).map fun i => 4 * (x / 2 ^ i % 2 + f 23 2 - 1) + x / 2 ^ (n + 2 * i) % 4, hi)

/-- The finest quantisation of `n` values in `size` bits, not coarser than 6 levels. -/
def astcFinest (n size : Nat) : Option Nat := ((List.range 17).map fun i => 20 - i).find? fun q => decide (iseSize q n ≤ size)

/-! ## Texels -/

/-- The weight of texel (x, y) of a block of k × k texels: the four nearest of the grid, whose weights `g` gives by index. -/
def astcWeight (k : Nat) (m : AstcMode) (g : Nat → Nat) (x y : Nat) : Nat :=
  let d := (1024 + k / 2) / (k - 1)
  let gs := (d * x * (m.w - 1) + 32) / 64
  let gt := (d * y * (m.h - 1) + 32) / 64
  let i := gs / 16 + gt / 16 * m.w
  let fs := gs % 16
  let ft := gt % 16
  let w11 := (fs * ft + 8) / 16
  (g i * (16 + w11 - fs - ft) + g (i + 1) * (fs - w11) + g (i + m.w) * (ft - w11) + g (i + m.w + 1) * w11 + 8) / 16

/-- Two 8-bit endpoint components mixed by a weight, as UNORM16. -/
def astcMix (a b w : Nat) : Nat := (257 * a * (64 - w) + 257 * b * w + 32) / 64

/-- A block of one colour: UNORM16 components, with an extent that is absent or not empty. -/
def astcVoid (b : Nat) : Option (List Nat) :=
  let f := fun (i n : Nat) => b / 2 ^ i % 2 ^ n
  let whole := f 12 52 == 2 ^ 52 - 1
  if f 9 1 = 1 ∨ f 10 2 ≠ 3 ∨ !(whole || decide (f 12 13 < f 25 13 ∧ f 38 13 < f 51 13)) then none
  else some ((List.range 4).map fun k => f (64 + 16 * k) 16)

/-- The 128 bits of a block in reverse order, where the weights begin. -/
def astcTurned (b : Nat) : Nat := (List.range 128).foldl (fun a i => 2 * a + b / 2 ^ i % 2) 0

/-- The components of texel (x, y) of a block of k × k texels, as UNORM16; none for an illegal block and one that uses an endpoint mode of high
dynamic range (R287). -/
def astcTexel (k b x y : Nat) : Option (List Nat) :=
  let f := fun (i n : Nat) => b / 2 ^ i % 2 ^ n
  if f 0 9 = 0x1fc then astcVoid b
  else (astcMode k b).bind fun m =>
    let n := f 11 2 + 1
    let size := iseSize m.q m.count
    let (cems, hi) := astcCems b n (128 - size)
    let start := if n = 1 then 17 else 29
    let low := 128 - size - hi - (if m.dual then 2 else 0)
    let vals := fun (c : Nat) => 2 * (c / 4 + 1)
    let count := (cems.map vals).foldl (· + ·) 0
    if (m.dual && n == 4) || decide (18 < count) then none
    else (astcFinest count (low - start)).bind fun q =>
      let cs := b / 2 ^ start % 2 ^ iseSize q count
      let colour := fun (i : Nat) => unquantColor q (iseValue cs q i)
      let ends := (List.range n).map fun p =>
        let from' := ((cems.take p).map vals).foldl (· + ·) 0
        astcEnds (cems.getD p 0) ((List.range (vals (cems.getD p 0))).map fun i => colour (from' + i))
      if ends.contains none then none
      else (ends.getD (astcPartition k (f 13 10) n x y) none).map fun e =>
        let ws := astcTurned b % 2 ^ size
        let plane := fun (p : Nat) => astcWeight k m (fun i => unquantWeight m.q (iseValue ws m.q (if m.dual then 2 * i + p else i))) x y
        (List.range 4).map fun c => astcMix (e.1.getD c 0) (e.2.getD c 0) (plane (if m.dual && f low 2 == c then 1 else 0))

end Sys2Proof.Machine
end

