-- ==== Sys2Proof/Machine/Translate.lean ====
section
/-!
DEFINITION. Virtual and physical addresses, page tables, TLB entries (20 R430 to R435) and homes (11 R317 to R320).
-/
namespace Sys2Proof.Machine

/-- What an address that does not translate raises (R432). -/
inductive XFault
  | page
  | perm
  deriving DecidableEq, Repr

/-- A translated address: its storage key, the bytes up to the end of its page, and what the page's leaf says. -/
structure Xlat where
  key : Nat
  left : Nat
  leaf : DWord
  size : Nat
  deriving DecidableEq, Repr

/-! ## Fields of an entry (R432) -/

def pteHome (e : DWord) : Nat := field e 62 2
def pteTgta (e : DWord) : Nat := field e 56 6
def ptePa (e : DWord) : Nat := field e 12 44 * 4096
def pteFd (e : DWord) : Nat := field e 8 4
def pteDec (e : DWord) : Bool := bitAt e 7
def pteCont (e : DWord) : Bool := bitAt e 6
def pteW (e : DWord) : Bool := bitAt e 3
def pteRd (e : DWord) : Bool := bitAt e 2
def pteLeaf (e : DWord) : Bool := bitAt e 1
def pteV (e : DWord) : Bool := bitAt e 0

/-- The node of a physical address, its local address (R431). -/
def nodeOf (p : Nat) : Nat := p / 2 ^ 45 % 2 ^ 11
def localOf (p : Nat) : Nat := p % 2 ^ 45
/-- A physical address names something: the own module's memory, another module's, or the host's (R431). -/
def State.physOk (s : State) (p : Nat) : Bool :=
  let n := nodeOf p
  if n = s.nodeid.toNat then decide (localOf p < localEnd) else decide (n < 1152) || n == 2047

/-- A present table entry keeps the rules of R432: the next table is in local memory. -/
def State.tableOk (s : State) (lvl : Nat) (e : DWord) : Bool :=
  decide (0 < lvl) && field e 4 2 == 0 && !pteCont e && pteHome e == 0 && pteTgta e == 0 &&
    nodeOf (ptePa e) == s.nodeid.toNat && decide (localOf (ptePa e) < localEnd)

/-- A present leaf at level `lvl` keeps the rules of R432 and R317. -/
def leafOk (lvl : Nat) (e : DWord) : Bool :=
  decide (lvl ≤ 2) && field e 4 2 == 0 && (!pteCont e || lvl == 0) &&
  (match pteHome e with
    | 1 => lvl == 0 && field e 20 36 == 0
    | 2 => decide (lvl ≤ 1)
    | _ => pteTgta e == 0) &&
  (pteHome e == 1 || ptePa e % 2 ^ (12 + 9 * lvl) == 0)

/-- The 16 leaves of a 64 KiB group agree (R433): `base` is the address of the first of them. -/
def State.groupAgrees (s : State) (base : Nat) : Bool :=
  let e0 := s.rd64 base
  let cut := fun (e : DWord) => e &&& ~~~(0xf000 : DWord)
  (List.range 16).all fun k => let e := s.rd64 (base + 8 * k); cut e == cut e0 && field e 12 4 == k

/-- A member of a group that does not agree translates through its own leaf or through another of the range: which one is a free
choice (R433). -/
def State.memberLeaf (s : State) (base own : Nat) : DWord :=
  let k := Config.pick s.fresh base % 16
  let e := s.rd64 (base + 8 * k)
  if pteV e && pteLeaf e && pteCont e && leafOk 0 e then e else s.rd64 own

/-- A walk from the table at `table`, level `lvl` (R432): the leaf and the size of its page as a power of two. -/
def State.walkFrom (s : State) (va : Nat) : Nat → Nat → Except XFault (DWord × Nat)
  | lvl, table =>
    let a := table + 8 * (va / 2 ^ (12 + 9 * lvl) % 512)
    let e := s.rd64 a
    if !pteV e then .error .page
    else if pteLeaf e then
      if !leafOk lvl e then .error .perm
      else if lvl = 0 && pteCont e then
        let base := a / 128 * 128
        if s.groupAgrees base then .ok (s.rd64 base, 16) else .ok (s.memberLeaf base a, 12)
      else .ok (e, 12 + 9 * lvl)
    else match lvl with
      | 0 => .error .perm
      | n + 1 => if s.tableOk (n + 1) e then s.walkFrom va n (localOf (ptePa e)) else .error .perm

/-- The walk of a context's tables (R432). -/
def State.walk (s : State) (ctx va : Nat) : Except XFault (DWord × Nat) :=
  let root := s.rd64 (s.astbase.toNat + 8 * ctx)
  if bitAt root 0 && field root 56 8 == 0 && field root 1 11 == 0 && nodeOf (ptePa root) == s.nodeid.toNat &&
      decide (localOf (ptePa root) < localEnd) then
    s.walkFrom va 4 (localOf (ptePa root))
  else .error .perm

/-- The leaves that the TLBs `unit` tells hold for an address (R434). -/
def State.tlbHits (s : State) (unit : Nat → Bool) (ctx va : Nat) : List (DWord × Nat) :=
  ((s.tlb.filter fun t => unit t.1 && t.2.1 == ctx && va / 2 ^ t.2.2.2.2 == t.2.2.1 / 2 ^ (t.2.2.2.2 - 12)).map fun t => t.2.2.2).eraseDups

/-- The leaf in force for core `who`: its own TLB's, else its panel's, else the one that a walk finds; of several pages of one address in a TLB
a free choice. A device or host access is any panel's, or a walk of its own: a free choice (R434, R435; DESIGN CHOICE, log 49). -/
def State.leafOf (s : State) (who : Option Nat) (ctx va : Nat) : Except XFault (DWord × Nat) :=
  let u := s.walk ctx va
  let among := fun (ts : List (DWord × Nat)) (more : Nat) =>
    match ts[Config.pick s.fresh (va / 4096) % (ts.length + more)]? with | some x => Except.ok x | none => u
  match who with
  | none => among (s.tlbHits (fun t => decide (64 ≤ t)) ctx va) 1
  | some c => match s.tlbHits (fun t => t == c) ctx va with
    | t :: ts => among (t :: ts) 0
    | [] => match s.tlbHits (fun t => t == 64 + panelOf c) ctx va with
      | t :: ts => among (t :: ts) 0
      | [] => u

/-- Entries of the TLB of a core, and of the second-level TLB of a panel (R434). -/
def tlbRoom (unit : Nat) : Nat := if unit < 64 then 256 else 8192

/-- The leaf of a page goes into one TLB; a full one loses its oldest entry (R434). -/
def State.tlbPut (s : State) (unit ctx va : Nat) (leaf : DWord) (size : Nat) : State :=
  let t := (unit, ctx, va / 2 ^ size * 2 ^ (size - 12), leaf, size)
  if s.tlb.contains t then s
  else
    let rest := s.tlb.filter fun u => !(u.1 == unit && u.2.1 == ctx && u.2.2.2.2 == size && u.2.2.1 == t.2.2.1)
    let mine := rest.filter fun u => u.1 == unit
    { s with tlb := (match mine.head? with | some o => if tlbRoom unit ≤ mine.length then rest.erase o else rest | none => rest) ++ [t] }

/-- A walk for a core fills its TLB and its panel's. -/
def State.tlbFill (s : State) (core ctx va : Nat) (leaf : DWord) (size : Nat) : State :=
  (s.tlbPut (64 + panelOf core) ctx va leaf size).tlbPut core ctx va leaf size

/-- The physical address that a leaf gives an address, for a home other than a palette window. -/
def physOf (leaf : DWord) (size va : Nat) : Nat := ptePa leaf / 2 ^ size * 2 ^ size + va % 2 ^ size

/-- A virtual address of a context (R430 to R433). -/
def State.xlate (s : State) (who : Option Nat) (ctx va : Nat) : Except XFault Xlat :=
  if 2 ^ 57 ≤ va then .error .perm
  else match s.leafOf who ctx va with
    | .error f => .error f
    | .ok (leaf, size) =>
      let left := 2 ^ size - va % 2 ^ size
      if pteHome leaf = 1 then
        let off := (field leaf 12 8 * 4096) / 2 ^ size * 2 ^ size + va % 2 ^ size
        .ok { key := palKey (pteTgta leaf) off, left, leaf, size }
      else
        let p := physOf leaf size va
        if s.physOk p then .ok { key := physKey s p, left, leaf, size } else .error .perm

/-- The page is a palette window (R320), in host memory, on another module, its home with R317's exception for system memory. -/
def Xlat.isWindow (x : Xlat) : Bool := isPalKey x.key
def Xlat.isHost (x : Xlat) : Bool := isHostKey x.key
def Xlat.isRemote (x : Xlat) : Bool := isRemoteKey x.key
def Xlat.isCached (x : Xlat) : Bool := isLocalKey x.key && (pteHome x.leaf == 0 || pteHome x.leaf == 2)
/-- HOME and the slice or core that it names, as one number. -/
def Xlat.home (x : Xlat) : Nat := pteHome x.leaf + 4 * pteTgta x.leaf

/-- What an access needs of a page (R432). -/
inductive Need
  | rd
  | wr
  | both
  deriving DecidableEq, Repr

/-- The leaf permits the access. -/
def Need.okBy (n : Need) (leaf : DWord) : Bool :=
  match n with | .rd => pteRd leaf | .wr => pteW leaf | .both => pteRd leaf && pteW leaf

/-- An address translated for an access; `window` tells whether palette windows are accepted (R320). -/
def State.reach (s : State) (who : Option Nat) (ctx va : Nat) (n : Need) (window : Bool) : Except XFault Xlat :=
  match s.xlate who ctx va with
  | .error f => .error f
  | .ok x => if n.okBy x.leaf && (window || !x.isWindow) then .ok x else .error .perm

/-- A byte that is read or written: its key, the home of its page, its virtual address. -/
structure Spot where
  key : Nat
  home : Nat
  va : Nat
  deriving DecidableEq, Repr

/-- The first `n` bytes of a translated address. -/
def Xlat.bytes (x : Xlat) (va n : Nat) : List Spot := (List.range n).map fun j => ⟨x.key + j, x.home, va + j⟩

/-- The `n` bytes from a virtual address on, page by page; a fault carries its address. -/
def State.spots (s : State) (who : Option Nat) (ctx : Nat) (need : Need) (window : Bool) : Nat → Nat → Nat → Except (XFault × Nat) (List Spot)
  | 0, _, _ => .ok []
  | fuel + 1, va, n =>
    if n = 0 then .ok []
    else match s.reach who ctx va need window with
      | .error f => .error (f, va)
      | .ok x =>
        let k := min n x.left
        match s.spots who ctx need window fuel (va + k) (n - k) with
        | .error e => .error e
        | .ok ks => .ok (x.bytes va k ++ ks)

/-- The bytes of a span of at most a few pages. -/
def State.span (s : State) (who : Option Nat) (ctx va n : Nat) (need : Need) (window : Bool) : Except (XFault × Nat) (List Spot) :=
  s.spots who ctx need window (n / 4096 + 2) va n

/-! ## Requests to other modules (R442 to R445) -/

/-- The node of a remote key. -/
def keyNode (k : Nat) : Nat := (k - 2 ^ 58) / 2 ^ 45

/-- A request to another module cannot be served (R444, R445): the SUB of its record. A node that has not answered a request counts as
unreachable for those that follow until it answers again (DESIGN CHOICE, log 38). -/
def State.remoteBad (s : State) (k : Nat) : Option Nat :=
  if !isRemoteKey k then none
  else match s.routes.find? fun r => r.1 == keyNode k with
    | none => some 0x81
    | some r => if r.2.all s.spares.down.contains || s.silent.contains (keyNode k) then some 0x80 else if localEnd ≤ k % 2 ^ 45 then some 0x82
      else (s.refused.find? fun x => x.1 == k / 4096).map (·.2)

/-- A byte as a read finds it: all ones where the request is not served. -/
def State.getAt (s : State) (k : Nat) : Byte := if (s.remoteBad k).isSome then 0xff else s.mem.get k

/-- The bytes of a span, as the device reads them. -/
def State.vread (s : State) (ctx va n : Nat) (window : Bool := false) : Except (XFault × Nat) (List Byte) :=
  (s.span none ctx va n .rd window).map fun ks => ks.map fun k => s.getAt k.key

/-- The records of requests that are not served (R444): one for each line. -/
def State.unservedAt (s : State) (ctx : Nat) (core : Option Nat) (wr : Bool) (ks : List Spot) : State :=
  let bad := ks.filter fun k => (s.remoteBad k.key).isSome
  (bad.foldl (fun (acc : List Spot) k => if acc.any fun x => x.key / 128 == k.key / 128 then acc else acc ++ [k]) []).foldl (fun t k =>
    (t.faultRecord (s.ctxFunc ctx)
      { ctx, core := (core.map fun c => (s.core c).phys).getD 0xff, code := 0x05, sub := (s.remoteBad k.key).getD 0, wr, va := k.va } false).2) s

/-- What a device read of a span leaves: a record for each page of it that is not served (R444; one for a page, log 38). -/
def State.devSeen (s : State) (ctx va n : Nat) : State :=
  (List.range ((va + n - 1) / 4096 + 1 - va / 4096)).foldl (fun t k =>
    let a := max va (4096 * (va / 4096 + k))
    match s.reach none ctx a .rd false with
    | .ok x => t.unservedAt ctx none false [⟨x.key, x.home, a⟩]
    | .error _ => t) s

/-- The entries that a walk from the table at `table`, level `lvl`, reads. -/
def State.walkKeys (s : State) (va : Nat) : Nat → Nat → List Nat
  | lvl, table =>
    let a := table + 8 * (va / 2 ^ (12 + 9 * lvl) % 512)
    let e := s.rd64 a
    a :: (match lvl with
      | 0 => []
      | n + 1 => if pteV e && !pteLeaf e && s.tableOk (n + 1) e then s.walkKeys va n (localOf (ptePa e)) else [])

/-- The first of `n` bytes from an address on that lies in one of the given pages, which a host resolved with ERR (R416). -/
def firstErr (errs : List Nat) (va n : Nat) : Option Nat :=
  ((List.range ((va + n - 1) / 4096 + 1 - va / 4096)).find? fun k => errs.contains (va / 4096 + k)).map fun k => max va (4096 * (va / 4096 + k))

/-! ## Home slices (R321) -/

/-- The home slice of a line at a local address. -/
def homeSlice (p : Nat) : Nat :=
  (p / 2 ^ 7 ^^^ p / 2 ^ 13 ^^^ p / 2 ^ 19 ^^^ p / 2 ^ 25 ^^^ p / 2 ^ 31 ^^^ p / 2 ^ 37) % 64

end Sys2Proof.Machine
end

