-- ==== Sys2Proof/Machine/Lines.lean ====
section
/-!
DEFINITION. What reads and writes of memory do to the caches and the lines (11 R314 to R326; 24 R488, R489): what an L1, a fetch-unit
cache and a slice hold, copies that may be older than memory (R337), migration, ownership, the contention that the predictor is told
of. None of it changes a value that a coherent read returns. Which line a full cache loses is a free choice, for the spec gives no
replacement (log 37).
-/
namespace Sys2Proof.Machine

/-- Who makes a request: a core, or none for the fabric, the host and the device itself; the function for which it counts (R488). -/
structure Req where
  core : Option Nat
  func : Nat
  deriving DecidableEq, Repr

/-! ## Lines of the last-level cache -/

/-- The lines that a slice holds (R314). -/
def sliceRoom : Nat := 32768
/-- The slice that serves the index `h`: itself, or where it is retired without a spare the next one of its panel (R483). -/
def sliceServing (gone : List Nat) : Nat → Nat → Nat
  | 0, h => h
  | n + 1, h => if gone.contains h then sliceServing gone n (16 * (h / 16) + (h + 1) % 16) else h
def State.serving (s : State) (h : Nat) : Nat := sliceServing s.spares.gone 16 h
/-- The slice that serves the home of a line. -/
def State.homeOf (s : State) (key : Nat) : Nat := s.serving (homeSlice key)
/-- Where requests for a line go before it has moved: the slice that a pinned page names, else the home slice (R319, R321). -/
def State.firstSlice (s : State) (home key : Nat) : Nat := if home % 4 = 2 then s.serving (home / 4 % 64) else s.homeOf key

/-- A record that says nothing, of a line whose home is served by `home`. -/
def Line.idle (r : Line) (home : Nat) : Bool := r.tag.isNone && r.owner.isNone && r.run == 0 && r.slice == home

/-- Replaces the record of a line. -/
def State.putLine (s : State) (r : Line) : State :=
  if r.idle (s.homeOf (128 * r.line)) then { s with lines := s.lines.filter fun x => x.line != r.line }
  else if s.lines.any fun x => x.line == r.line then { s with lines := s.lines.map fun x => if x.line == r.line then r else x }
  else { s with lines := s.lines ++ [r] }

/-- A line leaves its slice (R319, R323, R489): dirty bytes go to GDDR-7, its forwarding entry is free. -/
def State.evictLine (s : State) (r : Line) (counts : Bool) : State :=
  let f := (r.tag.getD 0).toNat
  let s1 := if counts then s.count f 0xc (r.slice / 16) 1 else s
  let s2 := if r.dirty then s1.count f 0xe (r.slice / 16) 2 else s1
  s2.putLine { r with tag := none, dirty := false, pinned := false, run := 0, slice := s.homeOf (128 * r.line) }

/-- A slice that holds more lines than it has room for loses one of them, but no pinned one and not the one just filled. -/
def State.makeRoom (s : State) (slice line : Nat) : State :=
  let held := s.lines.filter fun r => r.slice == slice && r.tag.isSome
  if held.length ≤ sliceRoom then s
  else
    let free := held.filter fun r => !r.pinned && r.line != line
    let (i, s1) := s.draw
    match free[Config.choice i % free.length]? with
    | some r => s1.evictLine r true
    | none => s1

/-- A cache loses its copy of a line of its own size. -/
def lineBytes (cache : Nat) : Nat := if cache < 64 then 128 else 64
def State.dropCopy (s : State) (cache line : Nat) : State :=
  { s with copies := s.copies.filter fun c => !(c.1 == cache && c.2 == line),
           stale := s.stale.filter fun c => !(c.1 == cache && c.2.1 / lineBytes cache == line) }

/-- Ownership of a line goes back to its slice before another agent accesses it (R325). -/
def State.recall (s : State) (q : Req) (line : Nat) : State :=
  match s.lines.find? fun r => r.line == line with
  | none => s
  | some r => match r.owner with
    | none => s
    | some c => if q.core == some c then s else (s.dropCopy c line).putLine { r with owner := none }

/-- The slice's count of consecutive requests of one other panel (R322). -/
def Line.request (r : Line) (q : Req) : Line :=
  match q.core with
  | none => { r with run := 0 }
  | some c =>
    if panelOf c = r.slice / 16 then { r with run := 0 }
    else if r.run != 0 && r.panel == panelOf c then { r with run := r.run + 1 }
    else { r with run := 1, panel := panelOf c }

/-- An agent accesses a line: cores that did an atomic to it are told of it (R326), and an owner gives it back (R325). -/
def State.touchLine (s : State) (q : Req) (line : Nat) : State :=
  (if s.atoms.isEmpty then s
    else { s with atoms := s.atoms.map fun a => if a.2.1 == line && q.core != some a.1 then (a.1, a.2.1, true) else a }).recall q line

/-- The owner tag of a line that a request fills (R489). -/
def Req.tag (q : Req) : BitVec 6 := if q.func < 64 then BitVec.ofNat 6 q.func else Config.fabricTag

/-- The record of a line as a request on a page of home `home` finds it. A line of a pinned page stands in the slice that the page names, also
where it came in through another page (R319). -/
def State.lineFor (s : State) (home key : Nat) : Line :=
  let r := (s.lines.find? fun r => r.line == key / 128).getD { line := key / 128, slice := s.firstSlice home key }
  if home % 4 = 2 && !r.pinned then { r with pinned := true, slice := s.firstSlice home key, run := 0 } else r

/-- A request to the slice of a line (R315, R318, R319, R322, R325, R326, R489): `n` bytes at `key`, on a page of home `home`. An access
through a palette window counts as a hit; a never-cached page allocates nothing. -/
def State.sliceReq (s : State) (q : Req) (home key n : Nat) (wr : Bool) : State :=
  if isPalKey key then (if home % 4 = 1 then s.count q.func 0xa (panelOf (palCore key)) 1 else s)
  else if !isLocalKey key then s
  else
    let line := key / 128
    let s1 := s.touchLine q line
    let units := (key + n - 1) / 64 - key / 64 + 1
    if home % 4 = 3 then s1.count q.func (if wr then 0xe else 0xd) (s.homeOf key / 16) units
    else
      let r := s1.lineFor home key
      let r1 := if home % 4 = 0 && !r.pinned then r.request q else r
      let r2 := { r1 with dirty := r1.dirty || wr, tag := some (r1.tag.getD q.tag) }
      match r.tag with
      | some f => (if f.toNat = q.func then s1.count q.func 0xa (r.slice / 16) 1 else s1).putLine r2
      | none => (((s1.count q.func 0xb (r.slice / 16) 1).count q.func 0xd (r.slice / 16) 2).putLine r2).makeRoom r.slice line

/-- The line is due to move (R322). -/
def Line.moves (r : Line) : Bool := decide (8 ≤ r.run) && !r.pinned && r.panel != r.slice / 16

/-- LINE_MIGRATION (R322): the line goes to the requesting panel with its tag (R489); a full table of forwarding entries first sends its
oldest line home. A line back at its home has no entry. The entry of a line that moves again counts as a new one, younger than all others
(DESIGN CHOICE, log 37: R322 does not say from which move the age of an entry counts). -/
def execLineMigration (line : Nat) (s : State) : Host.Outcome State Fault Refusal :=
  match s.lines.find? fun r => r.line == line with
  | none => .next s
  | some r =>
    if !r.moves then .next s
    else
      let h := s.homeOf (128 * line)
      let rest := s.lines.filter fun x => x.line != line
      let fwd := rest.filter fun x => x.slice != s.homeOf (128 * x.line) && !x.pinned && s.homeOf (128 * x.line) == h
      let rest1 := if fwd.length ≥ 16384 then
          (match fwd.head? with | some o => rest.map fun x => if x.line == o.line then { x with slice := h, run := 0 } else x | none => rest)
        else rest
      let dest := s.serving (16 * r.panel + h % 16)
      .next (State.makeRoom { s with lines := rest1 ++ [{ r with slice := dest, run := 0 }] } dest line)

/-! ## Copies (R220, R324, R337) -/

/-- The lines that a set of a cache holds, and the set of a line (R314): an L1 has 16 ways, and of the 1,024 sets that its size then gives
which one is a line's is not stated (a free value, log 37). -/
def cacheRoom (cache : Nat) : Nat := if cache < 64 then 16 else 4096
def cacheSet (cache line : Nat) : Nat := if cache < 64 then Config.setOf line % 1024 else 0

/-- A cache drops its copies, but for lines that its core owns (R324). -/
def State.dropCopies (s : State) (cache : Nat) : State :=
  let owned := fun (line : Nat) => decide (cache < 64) && s.lines.any fun r => r.line == line && r.owner == some cache
  { s with copies := s.copies.filter fun c => c.1 != cache || owned c.2, stale := s.stale.filter fun c => c.1 != cache }

/-- A line that a core no longer holds is no longer its own. -/
def State.disown (s : State) (core line : Nat) : State :=
  { s with lines := s.lines.map fun r => if r.line == line && r.owner == some core then { r with owner := none } else r }

/-- A cache takes a line; a full set loses another, with its ownership. -/
def State.hold (s : State) (cache line : Nat) : State :=
  if s.copies.contains (cache, line) then s
  else
    let mine := s.copies.filter fun c => c.1 == cache && cacheSet cache c.2 == cacheSet cache line
    let s1 := if mine.length < cacheRoom cache then s
      else
        let (i, t) := s.draw
        match mine[Config.choice i % mine.length]? with
        | some v => (t.dropCopy cache v.2).disown cache v.2
        | none => t
    { s1 with copies := (cache, line) :: s1.copies }

/-- The older byte that a cache still holds. -/
def State.staleAt (s : State) (cache key : Nat) : Option Byte :=
  (s.stale.find? fun c => c.1 == cache && c.2.1 == key).map (·.2.2)

/-- A core has read a line at its slice: its copy is no longer older (R336: later reads of one part are no older). -/
def State.forget (s : State) (core key : Nat) : State :=
  if s.stale.isEmpty then s else { s with stale := s.stale.filter fun c => !(c.1 == core && c.2.1 / 128 == key / 128) }

/-- A line that misses the L1 of a core comes from its slice (R488). -/
def State.l1Miss (s : State) (q : Req) (core home key n : Nat) : State :=
  ((s.count q.func 9 (panelOf core) 1).sliceReq q home key n false).hold core (key / 128)

/-- A relaxed read through the L1 of a core: of a copy that is older in some byte, or of memory (R337). -/
def State.cacheRead (s : State) (q : Req) (core home key n : Nat) : List Byte × State :=
  let now := s.mem.getList key n
  if !s.copies.contains (core, key / 128) then (now, s.l1Miss q core home key n)
  else if s.stale.any fun c => c.1 == core && decide (key ≤ c.2.1 ∧ c.2.1 < key + n) then
    let (i, s1) := s.draw
    if Config.choice i % 2 = 0 then ((List.range n).map fun k => (s.staleAt core (key + k)).getD (s.mem.get (key + k)), s1.touchLine q (key / 128))
    else (now, (s1.forget core key).l1Miss q core home key n)
  else (now, s.touchLine q (key / 128))

/-- The parts of lines of `size` bytes that a read of several bytes touches: lowest and highest key, home. -/
def touched (size : Nat) (ks : List Spot) : List (Nat × Nat × Nat) :=
  ks.foldl (fun acc k =>
    if acc.any fun x => x.1 / size == k.key / size then
      acc.map fun x => if x.1 / size == k.key / size then (min x.1 k.key, max x.2.1 k.key, x.2.2) else x
    else acc ++ [(k.key, k.key, k.home)]) []

/-- Span flits of a request for a line of another module, sent, received, retransmitted (R488), a retransmitted one a corrected error (R474):
the spec does not say how many a request takes (log 37). -/
def State.flits (s : State) (q : Req) (panel key : Nat) : State :=
  if !isRemoteKey key then s
  else
    let n := fun (i : Nat) => Config.pick (s.fresh + i) key % 2 ^ 16
    ((((s.count q.func 0x20 panel (n 0)).count q.func 0x21 panel (n 1)).count q.func 0x22 panel (n 2)).correctedBy 2 panel (n 2)).draw.2
/-- Those of requests for spots: one request for each line. -/
def State.flitsAt (s : State) (q : Req) (panel : Nat) (ks : List Spot) : State :=
  (touched 128 (ks.filter fun k => isRemoteKey k.key)).foldl (fun t x => t.flits q panel x.1) s

/-- The way that the bytes of a reader come (R315). -/
inductive Way
  /-- Through the L1 of the core. -/
  | l1
  /-- Through its fetch-unit cache. -/
  | fetch
  /-- From the slice. -/
  | slice
  deriving DecidableEq, Repr

/-- What a reader of whole spans does to the caches and the slices; its values are memory's, or the fetch unit's. -/
def State.readLines (s0 : State) (q : Req) (core : Nat) (way : Way) (ks : List Spot) : State :=
  let s := s0.flitsAt q (panelOf core) ks
  match way with
  | .slice => (touched 128 ks).foldl (fun t x => t.sliceReq q x.2.2 x.1 (x.2.1 - x.1 + 1) false) s
  | .l1 => (touched 128 ks).foldl (fun t x =>
      let u := t.forget core x.1
      if !isLocalKey x.1 || x.2.2 % 4 = 3 then u.sliceReq q x.2.2 x.1 (x.2.1 - x.1 + 1) false
      else if u.copies.contains (core, x.1 / 128) then u.touchLine q (x.1 / 128)
      else u.l1Miss q core x.2.2 x.1 (x.2.1 - x.1 + 1)) s
  | .fetch => (touched 64 ks).foldl (fun t x =>
      if !isLocalKey x.1 || t.copies.contains (64 + core, x.1 / 64) then t
      else (t.sliceReq q x.2.2 x.1 (x.2.1 - x.1 + 1) false).hold (64 + core) (x.1 / 64)) s

/-- Caches other than the writer's L1 keep the byte that a write replaces, where they hold the line. -/
def State.ageCopies (s : State) (writer : Option Nat) (key : Nat) (old new : Byte) : State :=
  let own := fun (c : Nat) => writer == some c
  let s1 := if s.stale.isEmpty then s else { s with stale := s.stale.filter fun c => !(own c.1 && c.2.1 == key) }
  if old = new then s1
  else
    let held := s1.copies.filter fun c => c.2 == key / lineBytes c.1 && !own c.1 && (s1.staleAt c.1 key).isNone
    { s1 with stale := held.map (fun c => (c.1, key, old)) ++ s1.stale }

/-- Writes one byte on behalf of a core, of the fabric or of the host. -/
def State.wrByteBy (s : State) (writer : Option Nat) (key : Nat) (b : Byte) : State :=
  if s.copies.isEmpty then s else s.ageCopies writer key (s.mem.get key) b

/-- The byte that a write of `b` by software leaves in a table of queues and events: HEAD, TAIL and ERR are read-only, but EN going to 1 clears
ERR (R389); OVF is cleared by a 1 (R402, R8). -/
def State.queueByte (s : State) (key : Nat) (b : Byte) : Byte :=
  let a := s.qtbase.toNat
  let old := s.mem.get key
  if a ≤ key ∧ key < a + 0x100000 then
    let o := (key - a) % 32
    if 8 ≤ o ∧ o < 16 then old
    else if o = 16 then (b &&& 0xfd) ||| (if b.getLsbD 0 && !old.getLsbD 0 then 0 else old &&& 2)
    else b
  else if a + 0x100200 ≤ key ∧ key < a + 0x100300 ∧ (key - a - 0x100200) % 16 = 7 then (b &&& 0xbf) ||| (old &&& ~~~b &&& 0x40)
  else b

/-- A byte that software cannot write: USED of a pool control block (R360), WCNT and LOST of the header of a trace that is enabled (R456). -/
def State.fixedByte (s : State) (key : Nat) : Bool :=
  (s.pools.any fun k => decide (k + 24 ≤ key ∧ key < k + 32)) ||
    s.cores.any fun c => bitAt (c.dreg 0x200) 63 &&
      (let h := field (c.dreg 0x210) 0 57; decide (h ≤ key ∧ key < h + 8) || decide (h + 16 ≤ key ∧ key < h + 24))

/-- The byte that a write of `b` by software leaves (R8): the fields of structures in memory follow their access codes, whoever writes them;
DEGRADED of a pool control block is cleared by a 1 (R360). -/
def State.softByte (s : State) (key : Nat) (b : Byte) : Byte :=
  if s.fixedByte key then s.mem.get key
  else if s.pools.any fun k => key == k + 32 then (b &&& 0xfe) ||| (s.mem.get key &&& ~~~b &&& 1)
  else s.queueByte key b
/-- Bytes that software writes from a key on, or at spots. -/
def State.softBytes (s : State) (key : Nat) (bs : List Byte) : List Byte := bs.mapIdx fun i b => s.softByte (key + i) b
def State.softSpots (s : State) (ps : List (Spot × Byte)) : List (Spot × Byte) := ps.map fun p => (p.1, s.softByte p.1.key p.2)

/-- A write of bytes by software where a line is: copies age, monitors trigger. -/
def State.wrHere (s : State) (q : Req) (key : Nat) (bs : List Byte) : State :=
  let put := s.softBytes key bs
  ((put.mapIdx fun i b => (key + i, b)).foldl (fun t kb => t.wrByteBy q.core kb.1 kb.2) s).wr key put
/-- A write of bytes at a key, on a page of home `home`: its slice is asked first. -/
def State.wrBy (s : State) (q : Req) (home key : Nat) (bs : List Byte) : State := (s.sliceReq q home key bs.length true).wrHere q key bs

/-- A write of bytes at translated addresses, each on its own page; a request that is not served is dropped (R444). -/
def State.wrSpots (s : State) (q : Req) (ks : List (Spot × Byte)) : State :=
  let keys := ks.map fun k => k.1.key
  let s0 := s.flitsAt q ((q.core.map panelOf).getD 0) (ks.map (·.1))
  let s1 := (touched 128 (ks.map (·.1))).foldl (fun t x => t.sliceReq q x.2.2 x.1 (x.2.1 - x.1 + 1) true) (s0.cleanse keys.contains)
  ks.foldl (fun t k => if (t.remoteBad k.1.key).isSome then t else (t.wrByteBy q.core k.1.key k.2).wr k.1.key [k.2]) s1

/-! ## Walks (R434) -/

/-- A walk reads the tables through the slices of its entries, on behalf of the function of its context. -/
def State.walkReads (s : State) (ctx va : Nat) : State :=
  let root := s.astbase.toNat + 8 * ctx
  (root :: s.walkKeys va 4 (localOf (ptePa (s.rd64 root)))).foldl (fun t k => t.sliceReq { core := none, func := s.ctxFunc ctx } 0 k 8 false) s

/-- The page of an address goes into the TLBs of a core: one that its TLB holds is there, one that its panel's holds comes from there, any other
one from a walk. -/
def State.tlbTouch (s : State) (core ctx va : Nat) : State :=
  if !(s.tlbHits (fun t => t == core) ctx va).isEmpty then s
  else match s.leafOf (some core) ctx va with
    | .ok (leaf, size) => (if (s.tlbHits (fun t => t == 64 + panelOf core) ctx va).isEmpty then s.walkReads ctx va else s).tlbFill core ctx va leaf size
    | .error _ => s

end Sys2Proof.Machine
end

