-- ==== Sys2Proof/Machine/Numbers.lean ====
section
/-!
DEFINITION. Number formats and arithmetic (02 R50 to R58, R193): exact values as signed fractions, one rounding into a format,
and the conversions between types. Elements are natural numbers below 2^n, n the width of their type.
-/
namespace Sys2Proof.Machine

/-! ## Formats (R51) -/

/-- A floating format: widths of its exponent and fraction, bias, and whether it is E4M3, which has no infinities. -/
structure Fmt where
  e : Nat
  f : Nat
  bias : Nat
  noInf : Bool := false
  deriving DecidableEq, Repr

/-- The formats of R51. -/
def Fmt.b64 : Fmt := { e := 11, f := 52, bias := 1023 }
def Fmt.b32 : Fmt := { e := 8, f := 23, bias := 127 }
def Fmt.b16 : Fmt := { e := 5, f := 10, bias := 15 }
def Fmt.bf16 : Fmt := { e := 8, f := 7, bias := 127 }
def Fmt.e4m3 : Fmt := { e := 4, f := 3, bias := 7, noInf := true }
def Fmt.e5m2 : Fmt := { e := 5, f := 2, bias := 15 }

/-- The format of a floating type; binary32 for any other. -/
def Ty.fmt : Ty → Fmt
  | .f64 => .b64
  | .f16 => .b16
  | .bf16 => .bf16
  | .e4m3 => .e4m3
  | .e5m2 => .e5m2
  | _ => .b32

/-- The sign bit as a number. -/
def Fmt.signBit (F : Fmt) : Nat := 2 ^ (F.e + F.f)
/-- The encoding of +∞, and for E4M3 that of its NaN. -/
def Fmt.infBits (F : Fmt) : Nat := if F.noInf then 0x7f else (2 ^ F.e - 1) * 2 ^ F.f
/-- The encoding of the largest finite value. -/
def Fmt.maxBits (F : Fmt) : Nat := F.infBits - 1
/-- The canonical NaN (R52). -/
def Fmt.nanBits (F : Fmt) : Nat := if F.noInf then 0x7f else (2 ^ F.e - 1) * 2 ^ F.f + 2 ^ (F.f - 1)
/-- The exponent of the spacing of the subnormal numbers, negated: spacing 2^-subExp. -/
def Fmt.subExp (F : Fmt) : Nat := F.bias + F.f - 1

/-! ## Exact values -/

/-- A floating value: NaN, an infinity, or a finite value n / d with a sign, which a zero has too. -/
inductive Fl
  | nan
  | inf (neg : Bool)
  | fin (neg : Bool) (n d : Nat)
  deriving DecidableEq, Repr

/-- m * 2^k as a fraction. -/
def scaled (m : Nat) (k : Int) : Nat × Nat := if 0 ≤ k then (m * 2 ^ k.toNat, 1) else (m, 2 ^ (-k).toNat)

/-- m * 2^k with a sign. -/
def Fl.dy (neg : Bool) (m : Nat) (k : Int) : Fl := .fin neg (scaled m k).1 (scaled m k).2
/-- +0. -/
def Fl.zero : Fl := .fin false 0 1
/-- An integer. -/
def Fl.ofInt (x : Int) : Fl := .fin (decide (x < 0)) x.natAbs 1

/-- The value that an encoding holds (R51, R52: signalling NaNs are NaNs). -/
def Fmt.value (F : Fmt) (x : Nat) : Fl :=
  let neg := decide (F.signBit ≤ x % (2 * F.signBit))
  let m := x % F.signBit
  let ex := m / 2 ^ F.f
  let fr := m % 2 ^ F.f
  if F.noInf then (if m = 0x7f then .nan else if ex = 0 then .dy neg fr (-(F.subExp : Int)) else .dy neg (2 ^ F.f + fr) ((ex : Int) - 1 - F.subExp))
  else if ex = 2 ^ F.e - 1 then (if fr = 0 then .inf neg else .nan)
  else if ex = 0 then .dy neg fr (-(F.subExp : Int))
  else .dy neg (2 ^ F.f + fr) ((ex : Int) - 1 - F.subExp)

def Fl.isNan : Fl → Bool
  | .nan => true
  | _ => false
def Fl.isInf : Fl → Bool
  | .inf _ => true
  | _ => false
def Fl.isZero : Fl → Bool
  | .fin _ n _ => n == 0
  | _ => false
/-- The sign. -/
def Fl.neg? : Fl → Bool
  | .nan => false
  | .inf s => s
  | .fin s _ _ => s
/-- The value with its sign exchanged. -/
def Fl.negate : Fl → Fl
  | .nan => .nan
  | .inf s => .inf !s
  | .fin s n d => .fin (!s) n d
/-- The signed numerator. -/
def sgn (neg : Bool) (n : Nat) : Int := if neg then -(n : Int) else n

/-- The exact sum; an exact zero sum of opposite signs is +0, or -0 under RDN (R53). -/
def Fl.add (rdn : Bool) : Fl → Fl → Fl
  | .nan, _ | _, .nan => .nan
  | .inf a, .inf b => if a = b then .inf a else .nan
  | .inf a, _ | _, .inf a => .inf a
  | .fin a n d, .fin b m c =>
    if n = 0 ∧ m = 0 then .fin (if a = b then a else rdn) 0 1
    else if n = 0 then .fin b m c
    else if m = 0 then .fin a n d
    else
      let x := sgn a n * c + sgn b m * d
      if x = 0 then .fin rdn 0 1 else .fin (decide (x < 0)) x.natAbs (d * c)

/-- The exact product. -/
def Fl.mul : Fl → Fl → Fl
  | .nan, _ | _, .nan => .nan
  | .inf a, .inf b => .inf (a != b)
  | .inf a, .fin b n _ | .fin b n _, .inf a => if n = 0 then .nan else .inf (a != b)
  | .fin a n d, .fin b m c => .fin (a != b) (n * m) (d * c)

/-- a < b on values that are not NaN; -0 equals +0 (R191). -/
def Fl.lt : Fl → Fl → Bool
  | .nan, _ | _, .nan => false
  | .inf a, .inf b => a && !b
  | .inf a, _ => a
  | _, .inf b => !b
  | .fin a n d, .fin b m c => decide (sgn a n * c < sgn b m * d)

/-- Equality of values that are not NaN; -0 equals +0 (R191). -/
def Fl.eq (a b : Fl) : Bool := !a.isNan && !b.isNan && !a.lt b && !b.lt a

/-! ## Rounding (R53, R55 to R58) -/

/-- A rounding mode, with the random bits of a stochastic rounding (R56, R57). -/
inductive Rnd
  | rne
  | rtz
  | rup
  | rdn
  | rs (g : Nat)
  deriving DecidableEq, Repr

/-- The mode of a rounding field. -/
def Rnd.ofCode (c : BitVec 3) (g : Nat) : Rnd :=
  match c.toNat with | 0 => .rne | 1 => .rtz | 2 => .rup | 3 => .rdn | _ => .rs g
/-- RDN, which decides the sign of an exact zero sum. -/
def Rnd.isRdn : Rnd → Bool
  | .rdn => true
  | _ => false

/-- Whether the magnitude rounds away from zero: quotient q, remainder r of a division by den. -/
def Rnd.up (m : Rnd) (neg : Bool) (q r den : Nat) : Bool :=
  match m with
  | .rne => decide (den < 2 * r) || (2 * r == den && q % 2 == 1)
  | .rtz => false
  | .rup => !neg && r != 0
  | .rdn => neg && r != 0
  | .rs g => decide (g < r * 65536 / den)

/-- n / d rounded to a natural number by the mode for a value of the sign. -/
def roundNat (m : Rnd) (neg : Bool) (n d : Nat) : Nat :=
  if m.up neg (n / d) (n % d) d then n / d + 1 else n / d

/-- floor(log2(n / d)) for a fraction that is not 0. -/
def floorLog2 (n d : Nat) : Int :=
  let k : Int := (n.log2 : Int) - d.log2
  let lt := if 0 ≤ k then decide (n < d * 2 ^ k.toNat) else decide (n * 2 ^ (-k).toNat < d)
  if lt then k - 1 else k

/-- n / d in units of 2^u, rounded. -/
def roundUnits (m : Rnd) (neg : Bool) (n d : Nat) (u : Int) : Nat :=
  if 0 ≤ u then roundNat m neg n (d * 2 ^ u.toNat) else roundNat m neg (n * 2 ^ (-u).toNat) d

/-- The magnitude n / d rounded into the format as though its exponent range had no upper bound, as an encoding that goes on
above the largest finite value. -/
def Fmt.roundMag (F : Fmt) (m : Rnd) (neg : Bool) (n d : Nat) : Nat :=
  if n = 0 then 0
  else
    let lo : Int := -(F.subExp : Int)
    let u := max (floorLog2 n d - F.f) lo
    (u - lo).toNat * 2 ^ F.f + roundUnits m neg n d u

/-- The result, rounded as though the exponent range had no lower bound, is below the smallest normal number (R53). -/
def Fmt.tiny (F : Fmt) (m : Rnd) (neg : Bool) (n d : Nat) : Bool :=
  n != 0 && (let k := floorLog2 n d
    let q := roundUnits m neg n d (k - F.f)
    let k1 := if q = 2 ^ (F.f + 1) then k + 1 else k
    decide (k1 < 1 - (F.bias : Int)))

/-- The encoding with a sign. -/
def Fmt.signed (F : Fmt) (neg : Bool) (x : Nat) : Nat := if neg then F.signBit + x else x

/-- `round(x, F, mode)` (R55, R58), with saturation under `sat`; `ftz` has its effect on binary32 alone (R53). -/
def Fmt.round (F : Fmt) (m : Rnd) (ftz sat : Bool) (x : Fl) : Nat :=
  match x with
  | .nan => F.nanBits
  | .inf s => if F.noInf then (if sat then F.signed s F.maxBits else F.nanBits) else F.signed s F.infBits
  | .fin s n d =>
    if ftz && F == .b32 && F.tiny m s n d then F.signed s 0
    else
      let r := F.roundMag m s n d
      if r ≤ F.maxBits then F.signed s r
      else if sat then F.signed s F.maxBits
      else
        let inf := match m with | .rne => true | .rtz => false | .rup => !s | .rdn => s | .rs _ => true
        if inf then (if F.noInf then F.nanBits else F.signed s F.infBits) else F.signed s F.maxBits

/-- An operand as it is read: FTZ reads a binary32 subnormal as a zero of its sign (R53). -/
def Fmt.read (F : Fmt) (ftz : Bool) (x : Nat) : Fl :=
  if ftz && F == .b32 && decide (x % F.signBit < 2 ^ F.f) then .fin (decide (F.signBit ≤ x % (2 * F.signBit))) 0 1 else F.value x

/-- The bits of an operand after FTZ. -/
def Fmt.flush (F : Fmt) (ftz : Bool) (x : Nat) : Nat :=
  if ftz && F == .b32 && decide (x % F.signBit < 2 ^ F.f) then x / F.signBit % 2 * F.signBit else x

/-- Sign forms of an operand: absolute value, then negation (R88, R52: only the sign bit changes, even of a NaN). -/
def Fmt.signForm (F : Fmt) (ng ab : Bool) (x : Nat) : Nat :=
  let y := if ab then x % F.signBit else x % (2 * F.signBit)
  if ng then (y + F.signBit) % (2 * F.signBit) else y

/-! ## Integers (R54) -/

/-- The bounds of an integer type. -/
def Ty.lo (t : Ty) : Int := if t.signed then -(2 ^ (t.bits - 1) : Int) else 0
def Ty.hi (t : Ty) : Int := if t.signed then 2 ^ (t.bits - 1) - 1 else 2 ^ t.bits - 1
/-- `sati(x, t)`: the nearest bound of a value outside the range. -/
def sati (x : Int) (t : Ty) : Int := if x < t.lo then t.lo else if t.hi < x then t.hi else x
/-- x mod 2^n as an element. -/
def wrapInt (n : Nat) (x : Int) : Nat := (x % 2 ^ n).toNat
/-- A result of integer arithmetic: saturated, or modulo 2^n. -/
def intResult (t : Ty) (sat : Bool) (x : Int) : Nat := wrapInt t.bits (if sat then sati x t else x)
/-- `sat(q, w)`: the range ±(2^(w-1) - 1) of R58. -/
def satSym (q : Int) (w : Nat) : Int := max (-(2 ^ (w - 1) - 1 : Int)) (min q (2 ^ (w - 1) - 1))

/-- A finite value rounded to an integer. -/
def roundInt (m : Rnd) (neg : Bool) (n d : Nat) : Int := sgn neg (roundNat m neg n d)

/-- A float rounded into an integer type (R55). -/
def intRound (m : Rnd) (t : Ty) (x : Fl) : Nat :=
  match x with
  | .nan => 0
  | .inf s => wrapInt t.bits (if s then t.lo else t.hi)
  | .fin s n d => wrapInt t.bits (sati (roundInt m s n d) t)

/-- The signed or unsigned number of an integer element of type `t`. -/
def intVal (t : Ty) (x : Nat) : Int :=
  let y := x % 2 ^ t.bits
  if t.signed && decide (2 ^ (t.bits - 1) ≤ y) then (y : Int) - 2 ^ t.bits else y

/-- `cvt(x, src, dst, mode)` (R193). -/
def cvt (src dst : Ty) (m : Rnd) (ftz sat : Bool) (x : Nat) : Nat :=
  if src.isInt && dst.isInt then intResult dst sat (intVal src x)
  else if dst.isInt then intRound m dst (src.fmt.read ftz x)
  else if src.isInt then dst.fmt.round m ftz sat (Fl.ofInt (intVal src x))
  else dst.fmt.round m ftz sat (src.fmt.read ftz x)

/-- The smaller (or with `mx` the larger) of two operands, -0 below +0; the other one of a NaN (R182). -/
def fminBits (F : Fmt) (mx : Bool) (a b : Nat) : Nat :=
  let x := F.value a
  let y := F.value b
  if x.isNan then (if y.isNan then F.nanBits else b)
  else if y.isNan then a
  else if x.lt y then (if mx then b else a)
  else if y.lt x then (if mx then a else b)
  else if x.neg? = mx then b else a

/-- The least number at or above `x` of the numbers that `r` bounds: integer square root by bits, `k` bits left. -/
def isqrtFrom (n : Nat) : Nat → Nat → Nat
  | 0, r => r
  | k + 1, r => if (r + 2 ^ k) * (r + 2 ^ k) ≤ n then isqrtFrom n k (r + 2 ^ k) else isqrtFrom n k r

/-- floor(sqrt(n)). -/
def isqrt (n : Nat) : Nat := isqrtFrom n (n.log2 / 2 + 1) 0

end Sys2Proof.Machine
end

