-- ==== Sys2Proof/Machine/Operands.lean ====
section
/-!
DEFINITION. Operand forms: immediates with their hints (R110, R111, R122), lane elements of every type (R178), and the
placement of results.
-/
namespace Sys2Proof.Machine

/-- The 32-bit immediate of an RI word: IMM sign-extended, or W[19:0] : IMM with a hint (R122, R165). -/
def riImm (o : BitVec 12) (h : Option (BitVec 24)) : Word :=
  match h with
  | some w => bits w 0 20 ++ o
  | none => o.signExtend 32

/-- The byte offset e of an M word: the signed 24-bit payload of a hint, else 0 (R122), as a 64-bit value. -/
def memOff (h : Option (BitVec 24)) : DWord :=
  match h with
  | some w => w.signExtend 64
  | none => 0

/-- The bits of lane `l` of an element of type `t` at register `r` (R178). -/
def Ctx.elem (c : Ctx) (t : Ty) (r l : Nat) : Nat :=
  match t.bits with
  | 64 => (pair64 (c.v r l) (c.v (r + 1) l)).toNat
  | 128 => (c.v r l).toNat + 2 ^ 32 * (c.v (r + 1) l).toNat + 2 ^ 64 * (c.v (r + 2) l).toNat + 2 ^ 96 * (c.v (r + 3) l).toNat
  | n => (c.v r l).toNat % 2 ^ n

/-- The register words of a result of type `t`: 8 and 16 bits fill the upper bits with the sign under .i8 and .i16, with zeros
otherwise (R178). -/
def elemWords (t : Ty) (x : Nat) : List Word :=
  match t.bits with
  | 64 => [BitVec.ofNat 32 x, BitVec.ofNat 32 (x / 2 ^ 32)]
  | 128 => (List.range 4).map fun i => BitVec.ofNat 32 (x / 2 ^ (32 * i))
  | n => let y := x % 2 ^ n
         if t.signed && n < 32 && y ≥ 2 ^ (n - 1) then [BitVec.ofNat 32 (y + (2 ^ 32 - 2 ^ n))] else [BitVec.ofNat 32 y]

/-- Writes the words of a result to lane `l` from register `r` on. -/
def Wave.putWords (w : Wave) (l : Nat) : Nat → List Word → Wave
  | _, [] => w
  | r, x :: xs => (w.putV r l x).putWords l (r + 1) xs

/-- Writes `f l` as an element of type `t` at register `r` in every lane of `ls`. -/
def Wave.putElems (w : Wave) (t : Ty) (r : Nat) (ls : List Nat) (f : Nat → Nat) : Wave :=
  ls.foldl (fun w l => w.putWords l r (elemWords t (f l))) w

/-- The lanes that `.z` writes 0: lanes of m0 that the predicate turns off, and lanes of the part's quads that belong to no path
of it because they exited or were never launched (R177). -/
def Ctx.zeroLanes (c : Ctx) (p : Option Pfx) : Lanes :=
  if (pfxOf p).z then (c.m0 &&& ~~~c.active p) ||| (c.lanes &&& ~~~c.w.living) else 0

/-- The wave with `n` registers from `r` on written 0 in the zeroed lanes. -/
def Ctx.zeroed (c : Ctx) (w : Wave) (p : Option Pfx) (r n : Nat) : Wave :=
  (lanesOf (c.zeroLanes p)).foldl (fun w l => w.putWords l r (List.replicate n 0)) w

/-- A vector result: `f l` in every lane of active(P), 0 in the zeroed lanes, every other lane kept (R177). -/
def Ctx.result (c : Ctx) (p : Option Pfx) (t : Ty) (d : Nat) (f : Nat → Nat) : Wave :=
  (c.zeroed c.w p d t.regs).putElems t d (lanesOf (c.active p)) f

/-- A mask result: bit `f l` in every lane of active(P), 0 in the zeroed lanes (R177, R191). -/
def Ctx.maskResult (c : Ctx) (p : Option Pfx) (d : Nat) (f : Nat → Bool) : Wave :=
  c.w.putMask d (c.active p ||| c.zeroLanes p) (laneMask ((lanesOf (c.active p)).filter f))

/-- The register words that a vector result would write, as (64 v + lane, word): `f l` in every lane of active(P), 0 in the zeroed
lanes (R177). -/
def Ctx.resultList (c : Ctx) (p : Option Pfx) (t : Ty) (d : Nat) (f : Nat → Nat) : List (Nat × Word) :=
  let put := fun (l : Nat) (ws : List Word) => ws.mapIdx fun k x => (64 * (d + k) + l, x)
  (lanesOf (c.zeroLanes p)).flatMap (fun l => put l (List.replicate t.regs 0)) ++
    (lanesOf (c.active p)).flatMap fun l => put l (elemWords t (f l))

/-! ## Rounding of an instruction (R56, R57) -/

/-- The mode in which lane `l` rounds: under RS each lane draws its own bits. -/
def State.rnd (s : State) (p : Option Pfx) (l : Nat) : Rnd :=
  if (pfxOf p).rnd = 4 then .rs (Config.randomBits (s.fresh + l)).toNat else .ofCode (pfxOf p).rnd 0
/-- The state after an instruction that may have drawn `n` stochastic roundings. -/
def State.drawn (s : State) (p : Option Pfx) (n : Nat) : State :=
  if (pfxOf p).rnd = 4 then { s with fresh := s.fresh + n } else s

/-! ## Long-latency results (R124 to R126) -/

/-- A long-latency instruction with lookahead count `l` is pending in the quads `q` with the results that are there already. Answers
its number too. -/
def State.pendAdd (s : State) (c : Ctx) (i : Instr) (q : Quads) (l : BitVec 4) (vres sres : List (Nat × Word)) : Nat × State :=
  let u := uses i
  let (id, s1) := s.newId
  let p : Pend := { id, quads := q, win := if l = 15 then none else some l.toNat,
                    vdst := u.vw.flatMap fun o => blk o.1 o.2, sdst := u.sw, vres, sres, hnd := c.hnd }
  (id, s1.updWave c.w.wid fun w => { w with pend := w.pend ++ [p] })

/-- The issuing wave as it is now. -/
def State.waveOf (s : State) (c : Ctx) : Wave := (s.wave? c.w.wid).getD c.w

/-- The issuing part moves past its instruction, the wave being otherwise as it is now. -/
def State.done (s : State) (c : Ctx) (i : Instr) : State := s.retire c i (s.waveOf c)

/-- A long-latency instruction whose results are there has issued, and the part goes on. -/
def State.pendNew (s : State) (c : Ctx) (i : Instr) (l : BitVec 4) (vres sres : List (Nat × Word)) : State :=
  (s.pendAdd c i c.q l vres sres).2.done c i

end Sys2Proof.Machine
end

