-- ==== Sys2Proof/Machine/Access.lean ====
section
/-!
DEFINITION. Accesses: the checks of every lane (07 R206) with PAGE parking (01 R37, 19 R416), the accesses in flight, when they may
perform (12 R334) and what performing does (R333, R207, R214, R222), remote requests included (20 R443 to R445).
-/
namespace Sys2Proof.Machine

/-! ## Lane checks (R206) -/

/-- A check that a lane fails: its place in the order of the checks, the fault, the address; code 4 at rank 9 is PAGE. -/
structure LFault where
  rank : Nat
  code : Nat
  va : Nat := 0
  wr : Bool := false
  deriving DecidableEq, Repr

/-- Places in the order of R206 and R219. -/
def rkLane : Nat := 0
def rkAlign : Nat := 1
def rkPerm : Nat := 2
def rkIllegal : Nat := 3
def rkParity : Nat := 4
def rkEscapes : Nat := 5
def rkList : Nat := 6
def rkPage : Nat := 9

/-- The fault of a translation. -/
def xFault (f : XFault) (va : Nat) (wr : Bool) : LFault :=
  match f with | .perm => ⟨rkPerm, cPerm, va, wr⟩ | .page => ⟨rkPage, cPage, va, wr⟩

/-- Whether a cause carries an address, a lane mask (R414). -/
def causeAddr (code : Nat) : Bool := code != cIllegal && code != cLane && code != cMeshOverrun
def causeMask (code : Nat) : Bool := code != cIllegal

/-- The first check that any lane fails, as a precise trap with every lane that fails it; PAGE is no such check. -/
def Ctx.firstFault {α : Type} (c : Ctx) (ps : List (Nat × Except LFault α)) (scalar : Bool) : Option TrapRec :=
  let fs := ps.filterMap fun p => match p.2 with | .error f => if f.rank = rkPage then none else some (p.1, f) | .ok _ => none
  match sortBy (fun a b => decide (a.2.rank ≤ b.2.rank)) fs with
  | [] => none
  | (_, f) :: _ =>
    let ls := (fs.filter fun x => x.2.rank == f.rank).map (·.1)
    some (c.trap f.code 0 0 (if causeAddr f.code then BitVec.ofNat 64 f.va else 0)
      (if causeMask f.code && !scalar then laneMask ls else 0))

/-- The lanes that pass. -/
def okLanes {α : Type} (ps : List (Nat × Except LFault α)) : List (Nat × α) :=
  ps.filterMap fun p => match p.2 with | .ok a => some (p.1, a) | .error _ => none
/-- The lanes whose page is absent, with the address. -/
def pageLanes {α : Type} (ps : List (Nat × Except LFault α)) : List (Nat × LFault) :=
  ps.filterMap fun p => match p.2 with | .error f => if f.rank = rkPage then some (p.1, f) else none | .ok _ => none

/-- The host records of the absent pages (R436): one for each page, and their identifiers. -/
def State.pageRecords (s : State) (c : Ctx) : List (Nat × LFault) → List Nat × State
  | [] => ([], s)
  | (_, f) :: r =>
    let (rid, s1) := s.faultRecord (s.ctxFunc c.g.ctx)
      { ctx := c.g.ctx, core := (s.core c.w.core).phys, code := cPage, wr := f.wr, va := f.va } true
    let (rs, s2) := s1.pageRecords c r
    (if rs.contains rid then rs else rid :: rs, s2)

/-- The instruction at which lanes met absent pages parks (R37, R416): the state already holds what its other lanes did. The whole
part parks on a scalar access, a handler part where it stands. -/
def State.park (s : State) (c : Ctx) (i : Instr) (bad : List (Nat × LFault)) (did : Lanes) (scalar : Bool) : State :=
  let (rids, s1) := s.pageRecords c bad
  let f := fun (a : Aux) => { a with rids, errs := [], done := c.aux.done ||| did }
  if c.hnd then s1.setWave (c.setAux (s1.waveOf c) fun a => { f a with park := .page, hints := 0, blocked := none })
  else
    let c1 := { c with w := s1.waveOf c }
    let first := c.aux.dict.isSome && !c.bank.phase
    s1.faultPark c1 (if scalar then c.m0 else laneMask (bad.map (·.1))) (if first then c.pc else c.nextPc i) first f

/-- A page that a resolution with ERR turned into PERM for the replay (R416). -/
def Ctx.erred (c : Ctx) (va : Nat) : Bool := c.aux.errs.contains (va / 4096)

/-- Checks every lane, and then performs the instruction for the lanes in quads without an absent page (R206, R37). `go` is given the
quads that it performs for and their lanes' results, and answers a state in which the part has not moved yet. -/
def State.lanewise {α : Type} (s : State) (c : Ctx) (i : Instr) (ps : List (Nat × Except LFault α))
    (go : Quads → List (Nat × α) → State) : Except TrapRec State :=
  match c.firstFault ps false with
  | some t => .error t
  | none =>
    match pageLanes ps with
    | [] => .ok ((go c.q (okLanes ps)).done c i)
    | bad =>
      let badQ := quadMask ((bad.map fun x => x.1 / 4).eraseDups)
      let q := c.q &&& ~~~badQ
      let fine := (okLanes ps).filter fun x => bitAt q (x.1 / 4)
      let s1 := if q = 0 then s else go q fine
      .ok (s1.park c i bad (laneMask (fine.map (·.1))) false)

/-- The same for the one access of a scalar instruction (R167). -/
def State.scalarwise {α : Type} (s : State) (c : Ctx) (i : Instr) (p : Except LFault α) (go : α → State) : Except TrapRec State :=
  match p with
  | .ok a => .ok ((go a).done c i)
  | .error f =>
    if f.rank = rkPage then .ok (s.park c i [(0, f)] 0 true)
    else match c.firstFault [(0, p)] true with
      | some t => .error t
      | none => .ok s

/-- One address checked: alignment, then the page (R206 steps 1 to 3). -/
def State.probe (s : State) (c : Ctx) (va : Nat) (size : Nat) (need : Need) (window : Bool) : Except LFault Xlat :=
  let wr := need != .rd
  if va % size ≠ 0 then .error ⟨rkAlign, cAlign, va, wr⟩
  else match s.reach (some c.w.core) c.g.ctx va need window with
    | .error .page => if c.erred va then .error ⟨rkPerm, cPerm, va, wr⟩ else .error ⟨rkPage, cPage, va, wr⟩
    | .error .perm => .error ⟨rkPerm, cPerm, va, wr⟩
    | .ok x => if c.erred va then .error ⟨rkPerm, cPerm, va, wr⟩ else .ok x

/-- The lanes that an instruction still has to do: active(P) but for lanes that completed before it parked (R37). -/
def Ctx.todo (c : Ctx) (p : Option Pfx) : List Nat := lanesOf (c.active p &&& ~~~c.aux.done)

/-- The address of a lane of an M word (R204). -/
def Ctx.addr (c : Ctx) (b : BitVec 5) (v : BitVec 7) (h : Option (BitVec 24)) (l : Nat) : Nat :=
  (c.sp b + (if v = 0x7f then 0 else (c.v v.toNat l).setWidth 64) + memOff h).toNat

/-! ## When accesses perform (R334) -/

/-- Bytes in common. -/
def Piece.meets (a b : Piece) : Bool := decide (a.addr < b.addr + b.n ∧ b.addr < a.addr + a.n)

/-- A write, or an atomic. -/
def Access.writes (a : Access) : Bool := match a.kind with | .load _ | .code .. => false | _ => true
/-- An earlier access `a` stands in the program order of the part that made `b`. -/
def Access.samePart (a b : Access) : Bool := a.ofPart b.wid b.hnd b.order && b.host.isNone && !b.isCode

/-- Something of the access is left that a release at scope `sc` waits for: at device scope or narrower, nothing that another module has to
acknowledge (R346). -/
def Access.heldFor (a : Access) (sc : Nat) : Bool := decide (3 ≤ sc) || !a.writes || a.pieces.any fun p => !isRemoteKey p.addr

/-- Both pieces go to one line of another module: they take one path and arrive in issue order (R442), whichever part of this module
issued them (DEDUCED, log 38). -/
def Piece.onePath (a b : Piece) : Bool := isRemoteKey a.addr && a.addr / 128 == b.addr / 128

/-- Earlier access `a` must perform before piece `p` of `b` (R334 items 1, 2 and 4; R442). -/
def Access.blocks (a b : Access) (p : Piece) : Bool :=
  (a.samePart b && (a.acq || (b.rel && a.heldFor b.scope) || a.pieces.any fun x => x.meets p)) || a.pieces.any fun x => x.onePath p

/-- A piece may perform now: nothing earlier in flight is ordered before it. -/
def mayPerform : List Access → Access → Piece → Bool
  | [], _, _ => true
  | x :: xs, a, p => if x.id = a.id then true else !x.blocks a p && mayPerform xs a p

/-! ## What performing does -/

/-- The words that a loaded number writes. -/
def loadWords (n : Nat) (sx : Bool) (x : Nat) : List Word :=
  if n = 8 then [BitVec.ofNat 32 x, BitVec.ofNat 32 (x / 2 ^ 32)]
  else if sx && n < 4 && decide (2 ^ (8 * n - 1) ≤ x) then [BitVec.ofNat 32 (x + (2 ^ 32 - 2 ^ (8 * n)))]
  else [BitVec.ofNat 32 x]

/-- Results of piece `p` for the instruction that waits for them. -/
def State.deliver (s : State) (a : Access) (p : Piece) (ws : List Word) : State :=
  match a.pend with
  | none => s
  | some id => s.updWave a.wid fun w => { w with pend := w.pend.map fun x =>
      if x.id = id then
        (if a.scalar then { x with sres := x.sres ++ ws.mapIdx fun k y => (p.reg + k, y) }
         else { x with vres := x.vres ++ ws.mapIdx fun k y => (64 * (p.reg + k) + p.lane, y) })
      else x }

/-- The operation of an atomic on elements of type `t` (R214): the value written, if any; `y` is the compare value of a cas. -/
def atomNew (op : Nat) (t : Ty) (old x y : Nat) : Option Nat :=
  let n := t.bits
  match op with
  | 0 => some (if t.isFloat then t.fmt.round .rne false false ((t.fmt.value old).add false (t.fmt.value x)) else (old + x) % 2 ^ n)
  | 1 => some (if t.isFloat then fminBits t.fmt false old x else if intVal t x < intVal t old then x else old)
  | 2 => some (if t.isFloat then fminBits t.fmt true old x else if intVal t old < intVal t x then x else old)
  | 3 => some (old &&& x)
  | 4 => some (old ||| x)
  | 5 => some (old ^^^ x)
  | 6 => some x
  | _ => if old = y then some x else none

/-- The core of an access, its context, its function. -/
def State.coreOf (s : State) (a : Access) : Nat := ((s.wave? a.wid).map (·.core)).getD 0
def State.ctxOf (s : State) (wid : Nat) : Nat := (((s.wave? wid).bind fun w => s.group? w.gid).map (·.ctx)).getD 0

/-- Who makes the requests of an access. -/
def State.reqOf (s : State) (a : Access) : Req :=
  match a.host with
  | some f => { core := none, func := f }
  | none => { core := some (s.coreOf a), func := s.ctxFunc (s.ctxOf a.wid) }

/-- Words of a segment slot (R155). -/
def State.putCode (s : State) (core slot word : Nat) (ws : List Word) : State :=
  s.updCore core fun c => { c with imem := c.imem.setList (1024 * slot + word) ws }

/-- The piece completes as R444 states: all ones to a register, a dropped write, a record. -/
def State.unserved (s : State) (a : Access) (p : Piece) (sub : Nat) : State :=
  let ctx := if a.host.isSome then a.hctx else s.ctxOf a.wid
  let core := if a.host.isSome then 0xff else (s.core (s.coreOf a)).phys
  let s1 := (s.faultRecord (s.reqOf a).func { ctx, core, code := cPerm, sub, host := a.host.isSome, wr := a.writes, va := p.va } false).2
  match a.kind with
  | .load _ | .atom .. => s1.deliver a p (List.replicate (if p.n = 8 then 2 else 1) 0xffffffff)
  | .code core slot => s1.putCode core slot p.reg [0xffffffff, 0xffffffff]
  | _ => s1

/-- The L1 may hold the line of the piece (R318, R319; of a pinned page against R315, log 37). -/
def Piece.cached (p : Piece) : Bool := isLocalKey p.addr && (p.home % 4 == 0 || p.home % 4 == 2)

/-- What a slice reports of an atomic, once for the instruction, and the predictor's counter after it (R326). The report is of the line `lead` of
its lowest lane, as that lane performs; the first atomic of a core to a line is told of no contention (DESIGN CHOICE, log 37: R326 gives
neither). A slice of another module may report either (log 38). -/
def State.predict (s : State) (core lead : Nat) (p : Piece) : State :=
  let line := p.addr / 128
  let seen := { s with atoms := (core, line, false) :: s.atoms.filter fun a => !(a.1 == core && a.2.1 == line) }
  if p.k ≠ 0 then (if line = lead then s else seen)
  else
    let contended := if isLocalKey p.addr then ((s.atoms.find? fun a => a.1 == core && a.2.1 == line).map (·.2.2)).getD false
      else Config.choice s.fresh % 2 == 1
    let v := ((s.core core).pred.get p.slot) ^^^ 1#2
    let v1 := if contended then (if v = 3#2 then v else v + 1) else if v = 0#2 then v else v - 1
    { seen with fresh := s.fresh + 1 }.updCore core fun c => { c with pred := c.pred.set p.slot (v1 ^^^ 1#2) }

/-- The core has the line with ownership. -/
def State.owns (s : State) (core line : Nat) : Bool := s.lines.any fun r => r.line == line && r.owner == some core

/-- A near atomic takes its line into the L1 with ownership (R325). -/
def State.own (s : State) (core line : Nat) : State :=
  State.hold { s with lines := s.lines.map fun (r : Line) => if r.line == line then { r with owner := some core } else r } core line

/-- The bytes of a piece as they were, noted for a DISC of the context (R222, R344). -/
def State.remember (s : State) (a : Access) (p : Piece) : State :=
  if a.host.isSome then s
  else { s with past := ((List.range p.n).map fun j => (s.ctxOf a.wid, p.addr + j, s.mem.get (p.addr + j))) ++ s.past }

/-- What a DISC leaves: zero, or the bytes as they stood at some moment of the context, now included (R344). -/
def State.discarded (s : State) (a : Access) (p : Piece) (i : Nat) : List Byte :=
  let old := s.past.filter fun x => x.1 == s.ctxOf a.wid && decide (p.addr ≤ x.2.1 ∧ x.2.1 < p.addr + p.n)
  match Config.choice i % (old.length + 2) with
  | 0 => List.replicate p.n 0
  | m + 1 => (List.range p.n).map fun j => (((old.take m).reverse.find? fun x => x.2.1 == p.addr + j).map (·.2.2)).getD (s.mem.get (p.addr + j))

/-- The reads of an access go to the slice: an acquire's, and those that follow one at device scope or wider (R337). -/
def State.atSlice (s : State) (a : Access) : Bool :=
  a.acq || (match s.wave? a.wid with | some w => if a.hnd then w.handler.coherent else (w.coherent &&& a.quads) != 0 | none => true)

/-- Piece `p` of access `a` performs at its point of coherence (R333). An atomic that finds its line poisoned returns all ones and writes nothing
(R477); a store that covers a poisoned unit ends its poison. -/
def State.act (s0 : State) (a : Access) (p : Piece) : State :=
  let q := s0.reqOf a
  let s := s0.flits q (if a.host.isSome then 0 else panelOf (s0.coreOf a)) p.addr
  let core := s.coreOf a
  match s.remoteBad p.addr with
  | some sub => s.unserved a p sub
  | none =>
    match a.kind with
    | .load sx =>
      let (bs, s1) := if p.cached && !s.atSlice a then s.cacheRead q core p.home p.addr p.n
        else (s.mem.getList p.addr p.n, (s.sliceReq q p.home p.addr p.n false).forget core p.addr)
      s1.deliver a p (loadWords p.n sx (ofBytes bs))
    | .store =>
      let bs := toBytes p.n p.x.toNat
      ((s.remember a p).cleanse fun k => unitOf k == unitOf p.addr && a.pieces.any fun x => decide (x.addr ≤ k ∧ k < x.addr + x.n)).wrBy q p.home
        p.addr bs
    | .code c slot =>
      let x := s.rd64 p.addr
      (s.sliceReq q p.home p.addr p.n false).putCode c slot p.reg [lo32 x, hi32 x]
    | .disc =>
      let (i, s1) := s.draw
      s1.wrBy q p.home p.addr (s.discarded a p i)
    | .atom op ty =>
      let t := (Ty.ofCode (BitVec.ofNat 5 ty)).getD .i32
      let old := s.rd p.addr p.n
      let line := p.addr / 128
      let res := if s.poison.contains (unitOf p.addr) then none else atomNew op t old p.x.toNat p.y.toNat
      let u := if p.near && s.owns core line then s else s.sliceReq q p.home p.addr p.n res.isSome
      let s1 := match res with
        | some new => (u.remember a p).wrHere q p.addr (toBytes p.n new)
        | none => u.forget core p.addr
      let s2 := (s1.deliver a p (loadWords p.n false old)).predict core a.lead p
      if p.near && p.cached then s2.own core line else s2

/-- An acquire or fence at device scope or wider by the part with quads `q`, or the handler part: the core's L1 copies go, and the part reads
at the slice from now on (R324, R337). -/
def State.acquire (s : State) (wid : Nat) (hnd : Bool) (q : Quads) (scope : Nat) : State :=
  if scope < 2 then s
  else match s.wave? wid with
    | none => s
    | some w => (s.dropCopies w.core).updWave wid fun w =>
        if hnd then { w with handler := { w.handler with coherent := true } } else { w with coherent := w.coherent ||| q }

/-- Removes a piece; an access without pieces is gone. -/
def dropPiece (id k : Nat) (as : List Access) : List Access :=
  (as.map fun a => if a.id = id then { a with pieces := a.pieces.filter fun p => p.k != k } else a).filter fun a => !a.pieces.isEmpty

/-- Piece `p` performs and is no longer in flight. -/
def State.performPiece (s : State) (a : Access) (p : Piece) : State :=
  let s1 := { s.act a p with inflight := dropPiece a.id p.k s.inflight }
  if a.acq then s1.acquire a.wid a.hnd a.quads a.scope else s1

/-- Every piece of an access performs, in order. -/
def State.performAll (s : State) (a : Access) : State := a.pieces.foldl (fun t p => t.performPiece a p) s

/-- Some piece goes to a line of another module in which one of the keys lies: it takes the path that an access to the key takes (R442). -/
def Access.sharesPath (a : Access) (ks : List Nat) : Bool := a.pieces.any fun p => isRemoteKey p.addr && ks.any fun k => p.addr / 128 == k / 128

/-- The accesses that must perform before one of the part that acts at once on the keys `ks`: its acquires, those that `hit` selects,
whatever goes to the same lines of other modules, and what is ordered before them. -/
def neededBefore (wid : Nat) (hnd : Bool) (order : List Nat) (hit : Access → Bool) (ks : List Nat) (as : List Access) : List Access :=
  as.foldr (fun a acc =>
    if (a.ofPart wid hnd order && (a.acq || hit a)) || a.sharesPath ks || (acc.any fun b => b.pieces.any fun p => a.blocks b p) then a :: acc else acc) []

/-- The state in which they have performed. -/
def State.before (s : State) (c : Ctx) (hit : Access → Bool) (ks : List Nat := []) : State :=
  (neededBefore c.w.wid c.hnd c.bank.order hit ks s.inflight).foldl State.performAll s

/-- An access touches one of the keys. -/
def Access.touches (a : Access) (ks : List Nat) : Bool := a.pieces.any fun p => ks.any fun k => decide (p.addr ≤ k ∧ k < p.addr + p.n)

/-- A new access in flight, unless it has no piece. -/
def State.launchAccess (s : State) (a : Access) : State :=
  if a.pieces.isEmpty then s
  else
    let s1 := { s with inflight := s.inflight ++ [a] }
    if a.host.isSome then s1 else a.pages.foldl (fun t p => t.tlbTouch (s.coreOf a) p.1 (p.2.1 * 4096)) s1

/-! ## Barriers of the pieces' kinds -/

/-- Accesses of a part that are in flight. -/
def State.inflightOf (s : State) (c : Ctx) : List Access := s.inflight.filter fun a => a.ofPart c.w.wid c.hnd c.bank.order
/-- A palette access by a part of `core`: to its own palette (R320). -/
def Piece.inPal (p : Piece) (core : Nat) : Bool := isPalKey p.addr && palCore p.addr == core
def Access.isPal (a : Access) (core : Nat) : Bool := a.pieces.any fun p => p.inPal core
/-- A device-memory access: to memory, or through a window to the palette of another core (R320, R340). -/
def Access.isMem (a : Access) (core : Nat) : Bool := a.pieces.any fun p => !p.inPal core

end Sys2Proof.Machine
end

