-- ==== Sys2Proof/Machine/Blocks.lean ====
section
/-!
DEFINITION. Block formats as they are read (02 R60 to R69): descriptors, blocks with their checks (R62), outlier lists (R64 to R66),
one element of a tensor (07 R211, R217, R218), and float pages.
-/
namespace Sys2Proof.Machine

/-! ## Descriptors (R67, R68) -/

/-- A valid descriptor. -/
structure Desc where
  dbase : Nat
  sbase : Nat
  obase : Nat
  ostride : Nat
  sshift : Nat
  dshift : Nat
  kblk : Nat
  bbud : Nat
  cw : Nat
  csrc : Nat
  ebnd : Nat
  elr : Nat
  clamp : Bool
  esc : Bool
  widths : List Nat
  deriving DecidableEq, Repr

/-- The legal widths of R60. -/
def legalWidth (w : Nat) : Bool := w ∈ [2, 3, 4, 5, 6, 7, 8, 16]
/-- The widest of the four widths. -/
def Desc.wmax (d : Desc) : Nat := d.widths.foldl max 0
/-- Bytes of a slot (R63). -/
def Desc.slotBytes (d : Desc) : Nat := 4 * d.wmax

/-- Word `i` of a list, 0 beyond its end. -/
def wordAt (ws : List DWord) (i : Nat) : DWord := (ws[i]?).getD 0

/-- The fields of eight words, valid or not. -/
def descFields (ws : List DWord) : Desc :=
  let w := wordAt ws
  { dbase := field (w 0) 0 57, sbase := field (w 1) 0 57, obase := field (w 2) 0 57, ostride := field (w 3) 48 16,
    sshift := field (w 3) 40 6, dshift := field (w 3) 32 6, kblk := field (w 3) 0 16 + 1, bbud := field (w 4) 52 5,
    cw := if bitAt (w 4) 51 then 8 else 16, csrc := field (w 4) 48 3, ebnd := field (w 4) 40 5, elr := field (w 4) 36 4,
    clamp := bitAt (w 4) 33, esc := bitAt (w 4) 32, widths := [field (w 4) 0 5, field (w 4) 8 5, field (w 4) 16 5, field (w 4) 24 5] }

/-- A reserved bit is set. -/
def descReserved (ws : List DWord) : Bool :=
  let w := wordAt ws
  field (w 0) 57 7 != 0 || field (w 1) 57 7 != 0 || field (w 2) 57 7 != 0 || field (w 3) 46 2 != 0 || field (w 3) 38 2 != 0 ||
    field (w 3) 16 16 != 0 || field (w 4) 57 7 != 0 || field (w 4) 45 3 != 0 || field (w 4) 34 2 != 0 || field (w 4) 29 3 != 0 ||
    field (w 4) 21 3 != 0 || field (w 4) 13 3 != 0 || field (w 4) 5 3 != 0 || w 5 != 0 || w 6 != 0 || w 7 != 0

/-- A descriptor image, unless it is invalid (R68). -/
def descOf (ws : List DWord) : Option Desc :=
  let d := descFields ws
  if !descReserved ws && decide (1 ≤ d.ostride) && decide (1 ≤ d.sshift ∧ d.sshift ≤ 40) && decide (2 ≤ d.dshift ∧ d.dshift ≤ 40) &&
      decide (d.bbud ≤ 16) && decide (d.csrc ≤ 4) && decide (1 ≤ d.ebnd ∧ d.ebnd ≤ 24) && d.widths.all legalWidth &&
      d.dbase % 64 == 0 && d.sbase % 64 == 0 && d.obase % 64 == 0 && decide (d.kblk * d.slotBytes ≤ 2 ^ d.dshift) &&
      decide (2 * d.kblk ≤ 2 ^ d.sshift) then some d else none

/-- The words of fd `i` of a context. -/
def State.fdWords (s : State) (ctx i : Nat) : List DWord :=
  ((s.fds.find? fun f => f.1 == ctx && f.2.1 == i).map (·.2.2)).getD []

/-- Addresses of R63 and R64. -/
def Desc.slotVa (d : Desc) (n kb : Nat) : Nat := d.dbase + n * 2 ^ d.dshift + kb * d.slotBytes
def Desc.scaleVa (d : Desc) (n kb : Nat) : Nat := d.sbase + n * 2 ^ d.sshift + 2 * kb
def Desc.listVa (d : Desc) (t kb : Nat) : Nat := d.obase + (t * d.kblk + kb) * d.ostride * 64

/-- The element type of a float page, its bytes (R67). -/
def Desc.elemFmt (d : Desc) : Fmt := match d.csrc with | 1 => .bf16 | 2 => .b16 | 3 => .e4m3 | _ => .e5m2
def Desc.elemBytes (d : Desc) : Nat := if d.csrc ≤ 2 then 2 else 1

/-! ## Reading with checks -/

/-- A reader: it collects what it reads, and stops at the first fault; what was read before a fault stands. -/
abbrev Rd := ExceptT LFault (StateM (List Spot))

/-- A fault of a reader. -/
def Rd.fail {α : Type} (f : LFault) : Rd α := throw f

/-- Reads that no other reading decides: all of them are made, and of their faults the one of the earliest check of R206 stops the reader, the first
read with it. -/
def Rd.every {α : Type} : List (Rd α) → Rd (List α)
  | [] => pure []
  | r :: rs => fun ks =>
    let (x, ks1) := r ks
    let (ys, ks2) := Rd.every rs ks1
    (match x, ys with
     | .ok a, .ok as => .ok (a :: as)
     | .error f, .error g => .error (if g.rank < f.rank then g else f)
     | .error f, .ok _ | .ok _, .error f => .error f, ks2)

/-- Who reads: context, the core whose TLBs it uses, pages that a host resolved with ERR, whether palette windows are accepted, the cache of the fetch unit. -/
structure Via where
  ctx : Nat
  core : Option Nat := none
  /-- Addresses are offsets into this palette allocation: core, base. -/
  pal : Option (Nat × Nat) := none
  errs : List Nat := []
  window : Bool := false
  cache : Option Nat := none
  deriving DecidableEq, Repr

/-- One byte, through the fetch-unit cache where `cache` names one: it may be older than memory (R220, R343). -/
def State.viaByte (s : State) (v : Via) (k : Nat) : Byte :=
  match v.cache with
  | none => s.getAt k
  | some c => match s.staleAt c k with
    | some b => if Config.pick s.fresh (k / 64) % 2 = 0 then b else s.getAt k
    | none => s.getAt k

/-- Reads `n` bytes at a virtual address. -/
def State.take (s : State) (v : Via) (va n : Nat) : Rd (List Byte) := fun ks =>
  match v.pal with
  | some (core, base) =>
    let k := palKey core (base + va)
    (.ok (s.mem.getList k n), (List.range n).map (fun j => ⟨k + j, 1 + 4 * core, va + j⟩) ++ ks)
  | none => match s.span v.core v.ctx va n .rd v.window with
  | .error (.perm, a) => (.error ⟨rkPerm, cPerm, a, false⟩, ks)
  | .error (.page, a) => (if v.errs.contains (a / 4096) then .error ⟨rkPerm, cPerm, a, false⟩ else .error ⟨rkPage, cPage, a, false⟩, ks)
  | .ok new =>
    match firstErr v.errs va n with
    | some a => (.error ⟨rkPerm, cPerm, a, false⟩, ks)
    | none => (.ok (new.map fun k => s.viaByte v k.key), new ++ ks)

/-- Reads a number. -/
def State.takeNum (s : State) (v : Via) (va n : Nat) : Rd Nat := do return ofBytes (← s.take v va n)

/-! ## Blocks (R60 to R66) -/

/-- A block: exponent, tag, number of escapes, width, mantissas, and with `vals` the outlier of each escape (bfloat16). -/
structure Block where
  e : Nat
  tag : Nat
  nesc : Nat
  w : Nat
  q : List Int
  vals : List (Option Nat) := List.replicate 32 none
  deriving DecidableEq, Repr

/-- An even number of ones. -/
def evenParity (x : Nat) : Bool := popN 16 x % 2 == 0
/-- Fields of a scale word (R61). -/
def scE (x : Nat) : Nat := x / 256 % 256
def scT (x : Nat) : Nat := x / 64 % 4
def scN (x : Nat) : Nat := x / 2 % 32

/-- Element `j` of a slot of width `w`, given as a number (R63). -/
def slotElem (w x j : Nat) : Int :=
  let y := x / 2 ^ (j * w) % 2 ^ w
  if 2 ^ (w - 1) ≤ y then (y : Int) - 2 ^ w else y

/-- The escape code (R60). -/
def escCode (w : Nat) : Int := -(2 ^ (w - 1))

/-- A scale word, of good parity (R62 step 1). -/
def State.takeScale (s : State) (v : Via) (d : Desc) (n kb : Nat) : Rd Nat := do
  let x ← s.takeNum v (d.scaleVa n kb) 2
  if evenParity x then return x else Rd.fail ⟨rkParity, cScaleParity, d.scaleVa n kb, false⟩

/-- The block of line `n` at position `kb`, after steps 1 and 2 of R62; its outliers are not looked up. The pages of its scale word and its slot are
checked before the word is examined (R206). -/
def State.takeBlock (s : State) (v : Via) (d : Desc) (n kb : Nat) : Rd Block := do
  let _ ← Rd.every [s.takeNum v (d.scaleVa n kb) 2, s.takeNum v (d.slotVa n kb) 4]
  let x ← s.takeScale v d n kb
  let w := (d.widths[scT x]?).getD 2
  let m ← s.takeNum v (d.slotVa n kb) (4 * w)
  let q := (List.range 32).map (slotElem w m)
  let k := (q.filter fun y => y == escCode w).length
  if decide (16 < scN x) || scN x != k || (!d.esc && k != 0) then Rd.fail ⟨rkEscapes, cOutlierMismatch, d.scaleVa n kb, false⟩
  else return { e := scE x, tag := scT x, nesc := scN x, w, q }

/-- The escapes of tile lines before `n` at `kb`, from their scale words (R65). -/
def State.takeEarlier (s : State) (v : Via) (d : Desc) (n kb : Nat) : Rd Nat := do
  let _ ← Rd.every ((List.range (n % 32)).map fun l => s.takeNum v (d.scaleVa (n / 32 * 32 + l) kb) 2)
  (List.range (n % 32)).foldlM (fun acc l => do
    let line := n / 32 * 32 + l
    let x ← s.takeScale v d line kb
    if 16 < scN x then Rd.fail ⟨rkEscapes, cOutlierMismatch, d.scaleVa line kb, false⟩ else return acc + scN x) 0

/-- Entry `i` of the list of the tile of line `n`, for an escape at element `j` (R64 to R66): its value. -/
def State.takeEntry (s : State) (v : Via) (d : Desc) (n kb i j : Nat) : Rd Nat := do
  if 16 ≤ i then Rd.fail ⟨rkList, cOutlierMismatch, d.scaleVa n kb, false⟩
  else
    let a := d.listVa (n / 32) kb + 4 * i
    let x ← s.takeNum v a 4
    if x % 2 = 0 || x / 64 % 1024 != n % 32 * 32 + j || x / 2 % 32 != 0 then Rd.fail ⟨rkList, cOutlierMismatch, a, false⟩
    else return x / 65536

/-- Whether a block has a value of its own: E is neither 0 nor 255 (R62 steps 3 and 4). -/
def Block.plain (b : Block) : Bool := b.e != 0 && b.e != 255

/-- The block with the outlier of each escape, from entry `first` on. -/
def State.takeOutliers (s : State) (v : Via) (d : Desc) (n kb first : Nat) (b : Block) : Rd Block := do
  let r ← (List.range 32).foldlM (fun (acc : Nat × List (Option Nat)) j =>
      if (b.q[j]?).getD 0 == escCode b.w then do
        let x ← s.takeEntry v d n kb acc.1 j
        return (acc.1 + 1, acc.2 ++ [some x])
      else return (acc.1, acc.2 ++ [none])) (first, [])
  return { b with vals := r.2 }

/-- One block as a single-block reader decodes it: outliers are looked up when the block is plain and holds an escape that `need`
selects; an escape of the block with an entry index of 16 or more, which the scale words then show, raises OUTLIER_MISMATCH (R66). -/
def State.takeSingle (s : State) (v : Via) (d : Desc) (n kb : Nat) (need : Nat → Bool) : Rd Block := do
  let b ← s.takeBlock v d n kb
  if b.plain && (List.range 32).any (fun j => need j && (b.q[j]?).getD 0 == escCode b.w) then do
    let first ← s.takeEarlier v d n kb
    if 16 < first + b.nesc then Rd.fail ⟨rkList, cOutlierMismatch, d.scaleVa n kb, false⟩
    let r ← (List.range 32).foldlM (fun (acc : Nat × List (Option Nat)) j =>
        if (b.q[j]?).getD 0 == escCode b.w then
          if need j then do
            let x ← s.takeEntry v d n kb acc.1 j
            return (acc.1 + 1, acc.2 ++ [some x])
          else return (acc.1 + 1, acc.2 ++ [none])
        else return (acc.1, acc.2 ++ [none])) (first, [])
    return { b with vals := r.2 }
  else return b

/-- The exact value of element `j` (R60, R62): zero blocks are zero, poison blocks NaN. -/
def Block.value (b : Block) (j : Nat) : Fl :=
  if b.e = 255 then .nan
  else if b.e = 0 then .zero
  else match (b.vals[j]?).getD none with
    | some x => Fmt.bf16.value x
    | none => let q := (b.q[j]?).getD 0
              .dy (decide (q < 0)) q.natAbs ((b.e : Int) - 127)

/-- The element as binary32 (R218). -/
def Block.elem32 (b : Block) (j : Nat) : Nat := Fmt.b32.round .rne false false (b.value j)

/-- The raw encoding of an element (R218): q, E, T. -/
def Block.raw (b : Block) (j : Nat) : Nat := wrapInt 16 ((b.q[j]?).getD 0) + 65536 * b.e + 2 ^ 24 * b.tag

/-! ## Whole tiles (R66, R246, R250) -/

/-- What a reader of a whole tile learns of one line: its block where it decodes the line, and the escapes it counts. -/
def State.takeLine (s : State) (v : Via) (d : Desc) (n kb : Nat) (dec : Bool) : Rd (Option Block × Nat) :=
  if dec then do
    let b ← s.takeBlock v d n kb
    return (some b, b.nesc)
  else do
    let x ← s.takeScale v d n kb
    if 16 < scN x then Rd.fail ⟨rkEscapes, cOutlierMismatch, d.scaleVa n kb, false⟩ else return (none, scN x)

/-- The blocks of the lines of tile `t` at position `kb` that `dec` selects, with their outliers: the scale words of all 32 lines and
the tile's list are read, R62 is applied to every block decoded and R66 to the tile. -/
def State.takeTile (s : State) (v : Via) (d : Desc) (t kb : Nat) (dec : Nat → Bool) : Rd (List (Option Block)) := do
  let bs ← (List.range 32).mapM fun l => s.takeLine v d (32 * t + l) kb (dec l)
  let total := (bs.map (·.2)).foldl (· + ·) 0
  if 16 < total then Rd.fail ⟨rkList, cOutlierMismatch, d.scaleVa (32 * t) kb, false⟩
  else if !d.esc then return bs.map (·.1)
  else do
    let es ← (List.range 16).mapM fun i => s.takeNum v (d.listVa t kb + 4 * i) 4
    match (List.range 16).find? fun i => let x := (es[i]?).getD 0
        (x % 2 == 1) != decide (i < total) || (x % 2 == 1 && x / 2 % 32 != 0) with
    | some i => Rd.fail ⟨rkList, cOutlierMismatch, d.listVa t kb + 4 * i, false⟩
    | none =>
      let r ← bs.foldlM (fun (acc : Nat × Nat × List (Option Block)) x => do
          match x.1 with
          | none => return (acc.1 + 1, acc.2.1 + x.2, acc.2.2 ++ [none])
          | some b =>
            let b1 ← s.takeOutliers v d (32 * t + acc.1) kb acc.2.1 b
            return (acc.1 + 1, acc.2.1 + x.2, acc.2.2 ++ [some b1])) (0, 0, [])
      return r.2.2

/-! ## Float operands (R69) -/

/-- `float_to_block`. -/
def floatBlock (xs : List Fl) (w : Nat) : Block :=
  let mk := fun (e : Nat) (q : List Int) => ({ e, tag := 0, nesc := 0, w, q } : Block)
  if xs.any fun x => x.isNan || x.isInf then mk 255 (List.replicate 32 0)
  else if xs.all Fl.isZero then mk 0 (List.replicate 32 0)
  else
    let logs := xs.filterMap fun x => match x with | .fin _ n d => if n = 0 then none else some (floorLog2 n d) | _ => none
    let emax := logs.foldl max (logs.headD 0)
    let e := max (emax - ((w : Int) - 2) + 127) 1
    mk e.toNat (xs.map fun x => match x with
      | .fin s n d => satSym (sgn s (roundUnits .rne s n d (e - 127))) w
      | _ => 0)

/-- Elements `32 kb` on of line `n` of a float page, as exact values; 0 at or beyond KBLK (R63). -/
def State.takeRun (s : State) (v : Via) (d : Desc) (n kb : Nat) : Rd (List Fl) :=
  if d.kblk ≤ kb then return List.replicate 32 .zero
  else do
    let bs ← s.take v (d.dbase + n * 2 ^ d.dshift + 32 * kb * d.elemBytes) (32 * d.elemBytes)
    return (List.range 32).map fun j => d.elemFmt.value (ofBytes ((bs.drop (j * d.elemBytes)).take d.elemBytes))

/-! ## One element (R211, R218) -/

/-- Element `k` of line `n`, as binary32 or as its raw encoding. -/
def State.takeElem (s : State) (v : Via) (d : Desc) (n k : Nat) (raw : Bool) : Rd Nat :=
  if 32 * d.kblk ≤ k then return 0
  else if d.csrc = 0 then do
    let b ← s.takeSingle v d n (k / 32) fun j => j == k % 32
    return if raw then b.raw (k % 32) else b.elem32 (k % 32)
  else do
    let x ← s.takeNum v (d.dbase + n * 2 ^ d.dshift + k * d.elemBytes) d.elemBytes
    return if raw then x else Fmt.b32.round .rne false false (d.elemFmt.value x)

/-- The descriptor of a page, or ILLEGAL when it is invalid (R68). -/
def State.takeFd (s : State) (ctx i : Nat) : Rd Desc :=
  match descOf (s.fdWords ctx i) with
  | some d => return d
  | none => Rd.fail ⟨rkIllegal, cIllegal, 0, false⟩

/-- Runs a reader from nothing: its result, and what it read. -/
def Rd.eval {α : Type} (r : Rd α) : Except LFault α × List Spot := r []

end Sys2Proof.Machine
end

