-- ==== Sys2Proof/Machine/MemoryOps.lean ====
section
/-!
DEFINITION. Loads, stores, palette accesses, atomics, prefetch and discard (05 R166, R167; 07 R204 to R216, R221, R222). Each puts an
access in flight whose pieces perform later; a load's results complete later still.
-/
namespace Sys2Proof.Machine

/-! ## Loads -/

/-- The pieces of one lane's access of `n` bytes at a translated address: two 64-bit halves for 128 bits (R207). -/
def lanePieces (k lane n reg va : Nat) (x : Xlat) (data : List DWord) : List Piece :=
  let one := fun (j m : Nat) => ({ k := k + j, lane, addr := x.key + 8 * j, n := m, x := (data[j]?).getD 0, reg := reg + 2 * j,
                                   va := va + 8 * j, home := x.home } : Piece)
  if n = 16 then [one 0 8, one 1 8] else [one 0 n]

/-- The translations that lanes used: the whole page of each entry. -/
def pagesOf (ctx : Nat) (xs : List (Nat × Xlat)) : List (Nat × Nat × Nat) :=
  ((xs.filter fun x => x.2.size != 0).map fun x => (ctx, x.1 / 2 ^ x.2.size * 2 ^ (x.2.size - 12), x.2.size)).eraseDups

/-- What a load finds for a lane: where to read, or with a decoding load the value itself (R211). -/
inductive Found
  | at (va : Nat) (x : Xlat)
  | value (w : Word)
  deriving DecidableEq, Repr

/-- The zeroed lanes of a result, in the quads `q` (R177). -/
def Ctx.zeroList (c : Ctx) (p : Option Pfx) (q : Quads) (d n : Nat) : List (Nat × Word) :=
  (lanesOf (c.zeroLanes p &&& lanesOfQuads q)).flatMap fun l => (List.range n).map fun k => (64 * (d + k) + l, (0 : Word))

/-- A load of `n` bytes into register `d` for the lanes found: what is read is in flight. -/
def State.loadLanes (s : State) (c : Ctx) (i : Instr) (p : Option Pfx) (d n : Nat) (sx : Bool) (l : BitVec 4) (acq : Bool) (scope : Nat)
    (q : Quads) (ls : List (Nat × Found)) : State :=
  let vals := ls.filterMap fun x => match x.2 with | .value w => some (64 * d + x.1, w) | .at .. => none
  let (pid, s1) := s.pendAdd c i q l (c.zeroList p q d (sizeRegs n) ++ vals) []
  let (id, s2) := s1.newId
  let pieces := (ls.mapIdx fun j x => match x.2 with | .at va y => lanePieces (2 * j) x.1 n d va y [] | .value _ => []).flatten
  s2.launchAccess { id, wid := c.w.wid, quads := q, order := c.bank.order, hnd := c.hnd, kind := .load sx, acq, scope, pend := some pid, pieces,
                    pages := pagesOf c.g.ctx (ls.filterMap fun x => match x.2 with | .at va y => some (va, y) | .value _ => none) }

/-- A decoding load's lane: element (LANE mod 32) of the block or run that the address names (R211). -/
def State.decodeLane (s : State) (c : Ctx) (va lane : Nat) (x : Xlat) : Except LFault Nat × List Spot :=
  match descOf (s.fdWords c.g.ctx (pteFd x.leaf)) with
  | none => (.error ⟨rkIllegal, cIllegal, 0, false⟩, [])
  | some d =>
    if va < d.dbase then (.error ⟨rkAlign, cAlign, va, false⟩, [])
    else
      let o := va - d.dbase
      let unit := if d.csrc = 0 then d.slotBytes else 32 * d.elemBytes
      (s.takeElem { ctx := c.g.ctx, core := some c.w.core, errs := c.aux.errs, window := true } d (o / 2 ^ d.dshift) (32 * (o % 2 ^ d.dshift / unit) + lane % 32) false).eval

/-- The check of one lane of a VLD, with the keys that a decoding load reads. -/
def State.loadLane (s : State) (c : Ctx) (va lane n : Nat) (dec : Bool) : Except LFault Found × List Spot :=
  match s.probe c va n .rd true with
  | .error f => (.error f, [])
  | .ok x =>
    if dec && pteDec x.leaf then let r := s.decodeLane c va lane x; (r.1.map fun y => .value (BitVec.ofNat 32 y), r.2)
    else (.ok (.at va x), [])

/-- What readers of lanes read. -/
def spotsOf {α : Type} (ps : List (Nat × Except LFault α × List Spot)) : List Spot := ps.flatMap fun p => p.2.2
/-- Its keys. -/
def keysOf {α : Type} (ps : List (Nat × Except LFault α × List Spot)) : List Nat := (spotsOf ps).map (·.key)
/-- The results without the keys. -/
def valsOf {α : Type} (ps : List (Nat × Except LFault α × List Spot)) : List (Nat × Except LFault α) := ps.map fun p => (p.1, p.2.1)

/-- What must perform before lanes that read at once has performed: each round performs what is ordered before the bytes that they
would read, until nothing is left (R210). -/
def State.readSettle {α : Type} (c : Ctx) (f : State → List (Nat × Except LFault α × List Spot)) : Nat → State → State
  | 0, s => s
  | n + 1, s =>
    let ks := keysOf (f s)
    if ks.isEmpty || (neededBefore c.w.wid c.hnd c.bank.order (fun a => a.touches ks) ks s.inflight).isEmpty then s
    else State.readSettle c f n (s.before c (fun a => a.touches ks) ks)

/-- Lanes that read at once, in the state in which what is ordered before them has performed: the values, and the state in which the caches and
slices have been asked for them (R315) and requests that are not served are recorded (R444). -/
def State.readNow {α : Type} (s : State) (c : Ctx) (f : State → List (Nat × Except LFault α × List Spot)) (way : Way := .l1) :
    State × List (Nat × Except LFault α) :=
  let s1 := State.readSettle c f s.inflight.length s
  let ps := f s1
  let q : Req := { core := some c.w.core, func := s.ctxFunc c.g.ctx }
  ((s1.readLines q c.w.core way (spotsOf ps)).unservedAt c.g.ctx (some c.w.core) false (spotsOf ps), valsOf ps)

/-- A device-memory load (R204, R206, R209 to R211). -/
def vload (i : Instr) (d : BitVec 7) (b : BitVec 5) (v : BitVec 7) (l : BitVec 4) (n : Nat) (sx acq : Bool) (scope : Nat) (dec : Bool)
    (h : Option (BitVec 24)) (p : Option Pfx) (s : State) : Host.Outcome State Fault Refusal :=
  issue i s fun c =>
    let (s1, ps) := s.readNow c fun t => (c.todo p).map fun ln => (ln, t.loadLane c (c.addr b v h ln) ln n dec)
    s1.lanewise c i ps fun q ls => s1.loadLanes c i p d.toNat n sx l acq scope q ls

/-- VLD (R209, R211). -/
def execVld (d : BitVec 7) (b : BitVec 5) (v : BitVec 7) (l : BitVec 4) (m : BitVec 3) (h : Option (BitVec 24)) (p : Option Pfx) (s : State) :
    Host.Outcome State Fault Refusal :=
  let z := (modSize m).getD (4, false)
  vload (.vld d b v l m h p) d b v l z.1 z.2 false 0 (m == 4 && (pfxOf p).ty == 0) h p s

/-- VLD.acq (R209, R210). -/
def execVldAcq (d : BitVec 7) (b : BitVec 5) (v : BitVec 7) (l : BitVec 4) (u : BitVec 3) (h : Option (BitVec 24)) (p : Option Pfx) (s : State) :
    Host.Outcome State Fault Refusal :=
  let z := acqSize p
  vload (.vldAcq d b v l u h p) d b v l z.1 z.2 true u.toNat false h p s

/-! ## Stores -/

/-- The 64-bit units of register contents that a store of `n` bytes moves. -/
def Ctx.storeData (c : Ctx) (d n lane : Nat) : List DWord :=
  if n = 16 then [pair64 (c.v d lane) (c.v (d + 1) lane), pair64 (c.v (d + 2) lane) (c.v (d + 3) lane)]
  else if n = 8 then [pair64 (c.v d lane) (c.v (d + 1) lane)] else [(c.v d lane).setWidth 64]

/-- A store of `n` bytes in flight for the lanes found. -/
def State.storeLanes (s : State) (c : Ctx) (d n : Nat) (kind : AccKind) (rel : Bool) (scope : Nat) (q : Quads) (ls : List (Nat × Nat × Xlat)) : State :=
  let (id, s1) := s.newId
  let pieces := (ls.mapIdx fun j x => lanePieces (2 * j) x.1 n 0 x.2.1 x.2.2 (c.storeData d n x.1)).flatten
  s1.launchAccess { id, wid := c.w.wid, quads := q, order := c.bank.order, hnd := c.hnd, kind, rel, scope, pieces, pages := pagesOf c.g.ctx (ls.map (·.2)) }

/-- A device-memory store. -/
def vstore (i : Instr) (d : BitVec 7) (b : BitVec 5) (v : BitVec 7) (n : Nat) (rel : Bool) (scope : Nat) (h : Option (BitVec 24))
    (p : Option Pfx) (s : State) : Host.Outcome State Fault Refusal :=
  issue i s fun c =>
    s.lanewise c i ((c.todo p).map fun ln => (ln, (s.probe c (c.addr b v h ln) n .wr true).map fun x => (c.addr b v h ln, x))) fun q ls =>
      s.storeLanes c d.toNat n .store rel scope q ls

/-- VST (R209). -/
def execVst (d : BitVec 7) (b : BitVec 5) (v : BitVec 7) (m : BitVec 3) (h : Option (BitVec 24)) (p : Option Pfx) (s : State) :
    Host.Outcome State Fault Refusal :=
  vstore (.vst d b v m h p) d b v ((modSize m).getD (4, false)).1 false 0 h p s

/-- VST.rel (R209, R210). -/
def execVstRel (d : BitVec 7) (b : BitVec 5) (v : BitVec 7) (u : BitVec 3) (h : Option (BitVec 24)) (p : Option Pfx) (s : State) :
    Host.Outcome State Fault Refusal :=
  vstore (.vstRel d b v u h p) d b v (acqSize p).1 true u.toNat h p s

/-! ## The palette (R212, R213) -/

/-- A lane's palette offset, checked against the group's allocation: `n` bytes at v[VO] + e. -/
def Ctx.palLane (c : Ctx) (v : BitVec 7) (h : Option (BitVec 24)) (n lane : Nat) : Except LFault (Nat × Xlat) :=
  let o : Int := (c.v v.toNat lane).toNat + (memOff h).toInt
  let a := wrapInt 64 o
  if o % n ≠ 0 then .error ⟨rkAlign, cAlign, a, false⟩
  else if o < 0 ∨ (c.g.psize : Int) < o + n then .error ⟨rkPerm, cPerm, a, false⟩
  else .ok (a, { key := palKey c.w.core (c.g.pbase + o.toNat), left := n, leaf := 0xc000000000000000, size := 0 })

/-- VLDP. -/
def execVldp (d v : BitVec 7) (l : BitVec 4) (m : BitVec 3) (h : Option (BitVec 24)) (p : Option Pfx) (s : State) : Host.Outcome State Fault Refusal :=
  let z := (modSize m).getD (4, false)
  let i := Instr.vldp d v l m h p
  issue i s fun c =>
    s.lanewise c i ((c.todo p).map fun ln => (ln, (c.palLane v h z.1 ln).map fun x => Found.at x.1 x.2)) fun q ls =>
      s.loadLanes c i p d.toNat z.1 z.2 l false 0 q ls

/-- VSTP. -/
def execVstp (d v : BitVec 7) (m : BitVec 3) (h : Option (BitVec 24)) (p : Option Pfx) (s : State) : Host.Outcome State Fault Refusal :=
  let n := ((modSize m).getD (4, false)).1
  let i := Instr.vstp d v m h p
  issue i s fun c =>
    s.lanewise c i ((c.todo p).map fun ln => (ln, c.palLane v h n ln)) fun q ls => s.storeLanes c d.toNat n .store false 0 q ls

/-! ## Scalar accesses (R166, R167) -/

/-- The one access of a part. -/
def scalarAccess (i : Instr) (b : BitVec 5) (n : Nat) (h : Option (BitVec 24)) (need : Need) (s : State) (go : Ctx → Nat → Xlat → State) :
    Host.Outcome State Fault Refusal :=
  issue i s fun c =>
    let va := (c.sp b + memOff h).toNat
    s.scalarwise c i ((s.probe c va n need true).map fun x => (va, x)) fun r => go c r.1 r.2

/-- SLD. -/
def execSld (d : BitVec 6) (b : BitVec 5) (l : BitVec 4) (m : BitVec 1) (h : Option (BitVec 24)) (s : State) : Host.Outcome State Fault Refusal :=
  let i := Instr.sld d b l m h
  let n := if m = 1 then 8 else 4
  scalarAccess i b n h .rd s fun c va x =>
    let (pid, s1) := s.pendAdd c i c.q l [] []
    let (id, s2) := s1.newId
    s2.launchAccess { id, wid := c.w.wid, quads := c.q, order := c.bank.order, hnd := c.hnd, kind := .load false, pend := some pid, scalar := true,
                      pieces := lanePieces 0 (4 * c.part) n d.toNat va x [], pages := pagesOf c.g.ctx [(va, x)] }

/-- SST. -/
def execSst (d : BitVec 6) (b : BitVec 5) (m : BitVec 1) (h : Option (BitVec 24)) (s : State) : Host.Outcome State Fault Refusal :=
  let n := if m = 1 then 8 else 4
  scalarAccess (.sst d b m h) b n h .wr s fun c va x =>
    let (id, s1) := s.newId
    let data := if m = 1 then c.s64 d.toNat else (c.s d.toNat).setWidth 64
    s1.launchAccess { id, wid := c.w.wid, quads := c.q, order := c.bank.order, hnd := c.hnd, kind := .store, pieces := lanePieces 0 (4 * c.part) n 0 va x [data],
                      pages := pagesOf c.g.ctx [(va, x)] }

/-! ## Atomics (R214 to R216, R325, R326) -/

/-- System memory takes add on .i32, .n32 and .b64, xchg and cas (R216). -/
def hostAtomOk (op : Nat) (t : Ty) : Bool :=
  match op with | 0 => t ∈ [.i32, .n32, .b64] | 6 | 7 => true | _ => false

/-- The predictor's entry for a virtual address (R326). -/
def predIndex (va : Nat) : Nat := (va / 2 ^ 7 % 256) ^^^ (va / 2 ^ 15 % 256)

/-- Type code of a type. -/
def Ty.code (t : Ty) : Nat := ((List.range 18).find? fun k => Ty.ofCode (BitVec.ofNat 5 k) == some t).getD 0

/-- An atomic of major 0x2e to 0x31: `ret` tells whether the old value is returned; placement 0 is the predictor's, 1 near, 2 home. -/
def vatomic (i : Instr) (d : BitVec 7) (b : BitVec 5) (v : BitVec 7) (l : BitVec 4) (o : BitVec 3) (place : Nat) (ret : Bool)
    (h : Option (BitVec 24)) (p : Option Pfx) (s : State) : Host.Outcome State Fault Refusal :=
  let t := tyD p .i32
  let n := t.bits / 8
  issue i s fun c =>
    let lanes := c.todo p
    let probe := fun (ln : Nat) => match s.probe c (c.addr b v h ln) n .both false with
      | .error f => Except.error f
      | .ok x => if x.isHost && !hostAtomOk o.toNat t then .error ⟨rkPerm, cPerm, c.addr b v h ln, true⟩ else .ok (c.addr b v h ln, x)
    let slot := predIndex ((lanes.head?.map fun ln => c.addr b v h ln).getD 0)
    let near := if place = 0 then decide (((s.core c.w.core).pred.get slot ^^^ 1#2).toNat < 2) else place == 1
    s.lanewise c i (lanes.map fun ln => (ln, probe ln)) fun q ls =>
      let (pid, s1) := if ret then s.pendAdd c i q l (c.zeroList p q d.toNat t.regs) [] else (0, s)
      let (id, s2) := s1.newId
      let data := fun (r ln : Nat) => BitVec.ofNat 64 (c.elem t r ln)
      let pieces := ls.mapIdx fun j (x : Nat × Nat × Xlat) =>
        ({ k := j, lane := x.1, addr := x.2.2.key, n, reg := d.toNat, va := x.2.1, slot, near, home := x.2.2.home,
           x := if o = 7 then data (d.toNat + t.regs) x.1 else data d.toNat x.1,
           y := if o = 7 then data d.toNat x.1 else 0 } : Piece)
      s2.launchAccess { id, wid := c.w.wid, quads := q, order := c.bank.order, hnd := c.hnd, kind := .atom o.toNat t.code, lead := (ls.head?.map fun x => x.2.2.key / 128).getD 0, pend := if ret then some pid else none, pieces,
                        pages := pagesOf c.g.ctx (ls.map (·.2)) }

/-- VATOM. -/
def execVatom (d : BitVec 7) (b : BitVec 5) (v : BitVec 7) (l : BitVec 4) (o : BitVec 3) (h : Option (BitVec 24)) (p : Option Pfx) (s : State) :
    Host.Outcome State Fault Refusal := vatomic (.vatom d b v l o h p) d b v l o 0 true h p s
/-- VATOM.near. -/
def execVatomNear (d : BitVec 7) (b : BitVec 5) (v : BitVec 7) (l : BitVec 4) (o : BitVec 3) (h : Option (BitVec 24)) (p : Option Pfx) (s : State) :
    Host.Outcome State Fault Refusal := vatomic (.vatomNear d b v l o h p) d b v l o 1 true h p s
/-- VATOM.home. -/
def execVatomHome (d : BitVec 7) (b : BitVec 5) (v : BitVec 7) (l : BitVec 4) (o : BitVec 3) (h : Option (BitVec 24)) (p : Option Pfx) (s : State) :
    Host.Outcome State Fault Refusal := vatomic (.vatomHome d b v l o h p) d b v l o 2 true h p s
/-- VARED (R215). -/
def execVared (d : BitVec 7) (b : BitVec 5) (v : BitVec 7) (g : BitVec 2) (o : BitVec 3) (h : Option (BitVec 24)) (p : Option Pfx) (s : State) :
    Host.Outcome State Fault Refusal := vatomic (.vared d b v g o h p) d b v 0 o g.toNat false h p s

/-! ## Prefetch and discard -/

/-- PREF (R221): the lines go into the L1, or into the LLC; nothing else can be observed. -/
def execPref (b : BitVec 5) (v : BitVec 7) (m : BitVec 1) (h : Option (BitVec 24)) (p : Option Pfx) (s : State) : Host.Outcome State Fault Refusal :=
  let i := Instr.pref b v m h p
  issue i s fun c =>
    let lines := ((lanesOf (c.active p)).filterMap fun ln => match s.reach (some c.w.core) c.g.ctx (c.addr b v h ln) .rd false with
      | .ok x => if x.isCached then some (x.key / 128, x.home) else none
      | .error _ => none).eraseDups
    let q : Req := { core := some c.w.core, func := s.ctxFunc c.g.ctx }
    let ask := fun (t : State) (x : Nat × Nat) =>
      if m ≠ 0 then t.sliceReq q x.2 (128 * x.1) 128 false
      else if t.copies.contains (c.w.core, x.1) then t else t.l1Miss q c.w.core x.2 (128 * x.1) 128
    .ok ((lines.foldl ask s).done c i)

/-- DISC (R222): lanes that could not be written have no effect, misaligned ones among them (DESIGN CHOICE, log 39). -/
def execDisc (b : BitVec 5) (v : BitVec 7) (m : BitVec 3) (h : Option (BitVec 24)) (p : Option Pfx) (s : State) : Host.Outcome State Fault Refusal :=
  let i := Instr.disc b v m h p
  let n := ((modSize m).getD (4, false)).1
  issue i s fun c =>
    let ls := (lanesOf (c.active p)).filterMap fun ln => match s.probe c (c.addr b v h ln) n .wr true with
      | .ok x => some (ln, c.addr b v h ln, x)
      | .error _ => none
    let (id, s1) := s.newId
    let pieces := (ls.mapIdx fun j x => lanePieces (2 * j) x.1 n 0 x.2.1 x.2.2 []).flatten
    let pages := pagesOf c.g.ctx (ls.map (·.2))
    .ok ((s1.launchAccess { id, wid := c.w.wid, quads := c.q, order := c.bank.order, hnd := c.hnd, kind := .disc, pieces, pages }).done c i)

end Sys2Proof.Machine
end

