-- ==== Sys2Proof/Machine/Special.lean ====
section
/-!
DEFINITION. The special functions (02 R59). The spec bounds their error and leaves the bits to the implementation: the bits are
those of `Config.special` where they keep the bound, and those of the correctly rounded result where they do not (log 14). The
results that R59 states are as stated. Exact values are held in fixed point with `fxP` fraction bits.
-/
namespace Sys2Proof.Machine

/-- Fraction bits of the fixed-point numbers. -/
def fxP : Nat := 256
/-- 1. -/
def fxOne : Nat := 2 ^ fxP

/-- Sum of z^(2k+1) / (2k+1) from term `t` = z^(2k+1) on; `z2` is z^2 in fixed point. -/
def fxAtanh (z2 : Nat) : Nat → Nat → Nat → Nat
  | 0, _, _ => 0
  | k + 1, j, t => t / j + fxAtanh z2 k (j + 2) (t * z2 / fxOne)

/-- The same series with alternating signs, in Int. -/
def fxAtan (z2 : Nat) : Nat → Nat → Nat → Int
  | 0, _, _ => 0
  | k + 1, j, t => (t / j : Nat) - fxAtan z2 k (j + 2) (t * z2 / fxOne)

/-- ln 2 = 2 atanh(1/3). -/
def fxLn2 : Nat := 2 * fxAtanh (fxOne / 9) 84 1 (fxOne / 3)
/-- π = 16 atan(1/5) - 4 atan(1/239). -/
def fxPi : Nat := (16 * fxAtan (fxOne / 25) 60 1 (fxOne / 5) - 4 * fxAtan (fxOne / 57121) 20 1 (fxOne / 239)).toNat

/-- Sum of y^k / k! from term `t` = y^(k-1) / (k-1)! on. -/
def fxExp (y : Nat) : Nat → Nat → Nat → Nat
  | 0, _, _ => 0
  | n + 1, k, t => t + fxExp y n (k + 1) (t * y / fxOne / k)

/-- The sine (from k = 2) or cosine (from k = 1) series of an angle whose square is `y2`. -/
def fxTrig (y2 : Nat) : Nat → Nat → Nat → Int
  | 0, _, _ => 0
  | n + 1, k, t => (t : Int) - fxTrig y2 n (k + 2) (t * y2 / fxOne / (k * (k + 1)))

/-- 2^(n/d) as a fraction, clamped where it is far outside every format. -/
def exp2Frac (neg : Bool) (n d : Nat) : Nat × Nat :=
  if n ≥ 400 * d then (if neg then (1, 2 ^ 400) else (2 ^ 400, 1))
  else
    let x := n * fxOne / d
    let i := x / fxOne
    let m := fxExp (x % fxOne * fxLn2 / fxOne) 60 1 fxOne
    if neg then (fxOne, m * 2 ^ i) else (m * 2 ^ i, fxOne)

/-- log2(n/d) as a sign and a magnitude over `fxOne`. -/
def log2Frac (n d : Nat) : Bool × Nat :=
  let k := floorLog2 n d
  let (a, b) := if 0 ≤ k then (n, d * 2 ^ k.toNat) else (n * 2 ^ (-k).toNat, d)
  let z := (a - b) * fxOne / (a + b)
  let l := 2 * fxAtanh (z * z / fxOne) 84 1 z * fxOne / fxLn2
  let y : Int := k * fxOne + l
  (decide (y < 0), y.natAbs)

/-- |tanh(n/d)| over its denominator. -/
def tanhFrac (n d : Nat) : Nat × Nat :=
  if n ≥ 64 * d then (1, 1)
  else
    let x := 2 * n * fxOne / d
    let e := x / fxLn2
    let t := fxExp (x % fxLn2) 60 1 fxOne * 2 ^ e
    (t - fxOne, t + fxOne)

/-- sin(2π n/d) as a sign and a magnitude over `fxOne`, for a fraction of a turn. -/
def sinFrac (n d : Nat) : Bool × Nat :=
  let r := n % d
  let (s, r1) := if 2 * r ≥ d then (true, 2 * r - d) else (false, 2 * r)
  let r2 := if 2 * r1 > d then d - r1 else r1
  let y := r2 * fxPi / d
  (s, (fxTrig (y * y / fxOne) 40 2 y).toNat)

/-- The correctly rounded result of a fraction. -/
def nearFrac (F : Fmt) (neg : Bool) (q : Nat × Nat) : Nat := F.round .rne false false (.fin neg q.1 q.2)

/-- Codes of the functions in the order of FN 16 to 23. -/
inductive Sf
  | rcp | rsq | sqrt | exp2 | log2 | sin | cos | tanh
  deriving DecidableEq, Repr

/-- The result that R59 states for an input, if it states one. Of a zero (with FTZ of a subnormal too) VEXP2 gives 1, the exact result, which
R59 bounds and does not state (DESIGN CHOICE, log 42). -/
def Sf.stated (f : Sf) (F : Fmt) (x : Fl) : Option Nat :=
  let inf := fun s => F.signed s F.infBits
  match x with
  | .nan => some F.nanBits
  | .inf s => some (match f with
    | .rcp => F.signed s 0
    | .rsq => if s then F.nanBits else 0
    | .sqrt | .log2 => if s then F.nanBits else inf false
    | .exp2 => if s then 0 else inf false
    | .sin | .cos => F.nanBits
    | .tanh => F.round .rne false false (.fin s 1 1))
  | .fin s n d =>
    if n = 0 then
      match f with
      | .rcp | .rsq => some (inf s)
      | .sqrt | .sin | .tanh => some (F.signed s 0)
      | .log2 => some (inf true)
      | .cos | .exp2 => some (F.round .rne false false (.fin false 1 1))
    else match f with
      | .rsq | .sqrt => if s then some F.nanBits else none
      | .log2 => if s then some F.nanBits else if n = d then some 0 else none
      | .sin => if 2 * n % d = 0 then some (F.signed s 0) else none
      | .cos => if 4 * n % d = 0 && 4 * n / d % 2 == 1 then some 0 else none
      | _ => none

/-- The exact result of a finite input, as a sign and a fraction. -/
def Sf.exact (f : Sf) (s : Bool) (n d : Nat) : Bool × Nat × Nat :=
  match f with
  | .rcp => (s, d, n)
  | .rsq => (false, fxOne * fxOne, isqrt (n * fxOne ^ 4 / d))
  | .sqrt => (false, isqrt (n * fxOne ^ 2 / d), fxOne)
  | .exp2 => (false, exp2Frac s n d)
  | .log2 => let (g, y) := log2Frac n d; (g, y, fxOne)
  | .sin => let (g, y) := sinFrac n d; (g != s, y, fxOne)
  | .cos => let (g, y) := sinFrac (4 * n + d) (4 * d); (g, y, fxOne)
  | .tanh => (s, tanhFrac n d)

/-- |a - b| ≤ 2^-22 for an encoding `a` and the exact value. -/
def near22 (F : Fmt) (a : Nat) (neg : Bool) (n d : Nat) : Bool :=
  match F.value a with
  | .fin s m c => decide (((sgn s m * d - sgn neg n * c).natAbs) * 2 ^ 22 ≤ d * c)
  | _ => false

/-- Within `k` units in the last place of the encoding `r`: neighbours of the same sign. -/
def ulpsOk (F : Fmt) (k a r : Nat) : Bool :=
  a / F.signBit == r / F.signBit && decide (a % F.signBit ≤ F.infBits) && decide (a ≤ r + k) && decide (r ≤ a + k)

/-- The bound of R59 for the bits `a`: `r` is the exact result rounded to nearest. -/
def Sf.within (f : Sf) (F : Fmt) (n d a r : Nat) (ex : Bool × Nat × Nat) : Bool :=
  decide (a < 2 * F.signBit) &&
  (if F == .b16 then ulpsOk F 1 a r
   else match f with
    | .rcp => ulpsOk F 1 a r
    | .sin | .cos => near22 F a ex.1 ex.2.1 ex.2.2
    | .log2 => if decide (d ≤ 2 * n) && decide (n ≤ 2 * d) then near22 F a ex.1 ex.2.1 ex.2.2 else ulpsOk F 2 a r
    | _ => ulpsOk F 2 a r)

/-- The correctly rounded square root: the integer part to `fxOne`, with a half unit for what is below it. -/
def sqrtRound (F : Fmt) (m : Rnd) (ftz : Bool) (n d : Nat) : Nat :=
  let y := n * fxOne ^ 2 / d
  let r := isqrt y
  let exact := r * r * d == n * fxOne ^ 2
  F.round m ftz false (.fin false (if exact then 2 * r else 2 * r + 1) (2 * fxOne))

/-- A special function on the bits of an operand (R59): `ix` tells the function to the free value. -/
def Sf.eval (f : Sf) (F : Fmt) (m : Rnd) (ftz : Bool) (bits : Nat) : Nat :=
  let x := F.read ftz bits
  match f.stated F x, x with
  | some r, _ => r
  | none, .fin s n d =>
    if f = .sqrt then sqrtRound F m ftz n d
    else
      let ex := f.exact s n d
      let r := nearFrac F ex.1 ex.2
      let a := Config.special (match f with | .rcp => 0 | .rsq => 1 | .sqrt => 2 | .exp2 => 3 | .log2 => 4 | .sin => 5 | .cos => 6 | .tanh => 7)
        (F.e + F.f + 1) bits
      F.flush ftz (if f.within F n d a r ex then a else r)
  | none, _ => F.nanBits

end Sys2Proof.Machine
end

