-- ==== Sys2Proof/Machine/Texture.lean ====
section
/-!
DEFINITION. The fetch unit: FGATH (07 R217 to R220), TSMP (09 R285 to R291), RBOX and RTRI (09 R292 to R294).
-/
namespace Sys2Proof.Machine

/-! ## Reading through the fetch unit (R220, R343) -/

/-- The fetch-unit cache of a core. -/
def fetchCache (core : Nat) : Nat := 64 + core

/-- Lanes that read through the fetch unit at once, after what the part did before them has performed. -/
def State.fetchNow {α : Type} (s : State) (c : Ctx) (f : State → Via → List (Nat × Except LFault α × List Spot)) :
    State × List (Nat × Except LFault α) :=
  let v : Via := { ctx := c.g.ctx, core := some c.w.core, errs := c.aux.errs, cache := some (fetchCache c.w.core) }
  let (s1, ps) := s.readNow c (fun t => f t v) .fetch
  ({ s1 with fresh := s1.fresh + 1 }, ps)

/-! ## FGATH -/

/-- One lane of FGATH: its handle, line and element (R218, R219). -/
def State.gathLane (s : State) (v : Via) (h n k : Nat) (raw : Bool) : Except LFault Nat × List Spot :=
  if h = 0 then (.error ⟨rkLane, cLane, 0, false⟩, [])
  else if h % 64 ≠ 0 then (.error ⟨rkAlign, cAlign, h, false⟩, [])
  else Rd.eval do
    let bs ← s.take v h 64
    match descOf ((List.range 8).map fun i => BitVec.ofNat 64 (ofBytes ((bs.drop (8 * i)).take 8))) with
    | none => Rd.fail ⟨rkIllegal, cIllegal, 0, false⟩
    | some d => s.takeElem v d n k raw

/-- FGATH. -/
def execFgath (d : BitVec 7) (b : BitVec 5) (l : BitVec 4) (m : BitVec 1) (h : Option (BitVec 24)) (p : Option Pfx) (s : State) :
    Host.Outcome State Fault Refusal :=
  let i := Instr.fgath d b l m h p
  issue i s fun c =>
    let r := 4 * b.toNat
    let (s1, ps) := s.fetchNow c fun t v => (c.todo p).map fun ln =>
      (ln, t.gathLane v (pair64 (c.v r ln) (c.v (r + 1) ln)).toNat (c.v (r + 2) ln).toNat (c.v (r + 3) ln).toNat (m == 1))
    s1.lanewise c i ps fun q ls =>
      (s1.pendAdd c i q l (c.zeroList p q d.toNat 1 ++ ls.map fun x => (64 * d.toNat + x.1, BitVec.ofNat 32 x.2)) []).2

/-! ## Arithmetic in binary32, each operation rounded RNE -/

/-- A value rounded to binary32. -/
def f32 (x : Fl) : Nat := Fmt.b32.round .rne false false x
def f32v (x : Nat) : Fl := Fmt.b32.value x
def f32add (a b : Nat) : Nat := f32 ((f32v a).add false (f32v b))
def f32sub (a b : Nat) : Nat := f32 ((f32v a).add false (f32v b).negate)
def f32mul (a b : Nat) : Nat := f32 ((f32v a).mul (f32v b))
/-- The exact quotient. -/
def Fl.div : Fl → Fl → Fl
  | .nan, _ | _, .nan => .nan
  | .inf a, .inf _ => if a then .nan else .nan
  | .inf a, .fin b _ _ => .inf (a != b)
  | .fin a _ _, .inf b => .fin (a != b) 0 1
  | .fin a n d, .fin b m c => if m = 0 then (if n = 0 then .nan else .inf (a != b)) else .fin (a != b) (n * c) (d * m)
def f32div (a b : Nat) : Nat := f32 ((f32v a).div (f32v b))
def f32min (a b : Nat) : Nat := fminBits .b32 false a b
def f32max (a b : Nat) : Nat := fminBits .b32 true a b
/-- 1.0 and +∞. -/
def f32one : Nat := 0x3f800000
def f32inf : Nat := 0x7f800000
/-- The square root, correctly rounded. -/
def f32sqrt (x : Nat) : Nat :=
  match f32v x with
  | .fin s n d => if n = 0 then x else if s then Fmt.b32.nanBits else sqrtRound .b32 .rne false n d
  | .inf s => if s then Fmt.b32.nanBits else x
  | .nan => Fmt.b32.nanBits
/-- The base-2 logarithm, correctly rounded. -/
def f32log2 (x : Nat) : Nat :=
  match Sf.stated .log2 .b32 (f32v x), f32v x with
  | some r, _ => r
  | none, .fin _ n d => let (g, y) := log2Frac n d; nearFrac .b32 g (y, fxOne)
  | none, _ => Fmt.b32.nanBits

/-! ## Texture descriptors and texels (R286 to R288) -/

/-- A texture and sampler descriptor. -/
structure Tex where
  base : Nat
  fmt : Nat
  levm1 : Nat
  laym1 : Nat
  h : Nat
  w : Nat
  lmax : Nat
  lmin : Nat
  lbias : Int
  bord : Bool
  av : Nat
  au : Nat
  amax : Nat
  filt : Nat
  deriving DecidableEq, Repr

/-- Bytes of a texel, or of a block of an ASTC format. -/
def texBytes (fmt : Nat) : Nat :=
  match fmt with | 1 => 1 | 2 | 5 => 2 | 3 | 4 | 6 | 8 => 4 | 7 | 9 => 8 | _ => 16
/-- An ASTC format, its block size. -/
def isAstc (fmt : Nat) : Bool := decide (0x10 ≤ fmt ∧ fmt ≤ 0x15)
def astcSize (fmt : Nat) : Nat := match fmt with | 0x10 => 4 | 0x11 => 5 | 0x12 => 6 | 0x13 => 8 | 0x14 => 10 | _ => 12

/-- The fields of a valid descriptor (R286). A base that is no multiple of 256 makes it invalid (DESIGN CHOICE, log 44). -/
def texOf (ws : List DWord) : Option Tex :=
  let w := wordAt ws
  let t : Tex :=
    { base := field (w 0) 0 57, fmt := field (w 1) 48 6, levm1 := field (w 1) 44 4, laym1 := field (w 1) 32 11, h := field (w 1) 16 16 + 1,
      w := field (w 1) 0 16 + 1, lmax := field (w 4) 44 12, lmin := field (w 4) 32 12, lbias := (bits (w 4) 16 16).toInt, bord := bitAt (w 4) 10,
      av := field (w 4) 8 2, au := field (w 4) 6 2, amax := field (w 4) 2 4 + 1, filt := field (w 4) 0 2 }
  let bad := field (w 0) 57 7 != 0 || t.base % 256 != 0 || field (w 1) 54 10 != 0 || bitAt (w 1) 43 || w 2 != 0 || w 3 != 0 || field (w 4) 56 8 != 0 ||
    field (w 4) 11 5 != 0 || w 5 != 0 || w 6 != 0 || w 7 != 0
  let known := decide (1 ≤ t.fmt ∧ t.fmt ≤ 0xa) || isAstc t.fmt
  if bad || !known || decide (t.lmax < t.lmin) || (isAstc t.fmt && t.laym1 != 0) then none else some t

/-- Extent of a level, row pitch and size (R288). -/
def Tex.lw (t : Tex) (l : Nat) : Nat := max 1 (t.w / 2 ^ l)
def Tex.lh (t : Tex) (l : Nat) : Nat := max 1 (t.h / 2 ^ l)
/-- Round up to a multiple. -/
def roundUp (x m : Nat) : Nat := (x + m - 1) / m * m
/-- Units of a row and rows of a level: texels, or ASTC blocks. -/
def texUnits (fmt n : Nat) : Nat := if isAstc fmt then (n + astcSize fmt - 1) / astcSize fmt else n
/-- Row pitch of a row of `n` texels. -/
def texPitch (fmt n : Nat) : Nat := roundUp (texUnits fmt n * texBytes fmt) 64
/-- The size of a level of extent w × h. -/
def texSize (fmt w h : Nat) : Nat := roundUp (texPitch fmt w * texUnits fmt h) 256
/-- The offset of a level in its layer; of all levels together. -/
def Tex.levelOff (t : Tex) (l : Nat) : Nat := ((List.range l).map fun k => texSize t.fmt (t.lw k) (t.lh k)).foldl (· + ·) 0

/-- A component of `n` bits, as UNORM. -/
def unorm (n k : Nat) : Nat := f32 (.fin false k (2 ^ n - 1))

/-- The components of a texel from its bytes (R287): red, green, blue, alpha as binary32. -/
def texelOf (fmt : Nat) (bs : List Byte) : List Nat :=
  let x := ofBytes bs
  let part := fun (n k : Nat) => x / 2 ^ (n * k) % 2 ^ n
  let h := fun (k : Nat) => f32 (Fmt.b16.value (part 16 k))
  match fmt with
  | 1 => [unorm 8 (part 8 0), 0, 0, f32one]
  | 2 => [unorm 8 (part 8 0), unorm 8 (part 8 1), 0, f32one]
  | 3 => (List.range 4).map fun k => unorm 8 (part 8 k)
  | 4 => [unorm 10 (part 10 0), unorm 10 (part 10 1), unorm 10 (part 10 2), unorm 2 (x / 2 ^ 30 % 4)]
  | 5 => [h 0, 0, 0, f32one]
  | 6 => [h 0, h 1, 0, f32one]
  | 7 => (List.range 4).map h
  | 8 => [part 32 0, 0, 0, f32one]
  | 9 => [part 32 0, part 32 1, 0, f32one]
  | _ => (List.range 4).map fun k => part 32 k

/-- The components of texel (x, y) of an ASTC block, or the error colour (R287). -/
def astcTexelOf (fmt : Nat) (bs : List Byte) (x y : Nat) : List Nat :=
  match astcTexel (astcSize fmt) (ofBytes bs) x y with
  | some c => c.map (unorm 16)
  | none => [f32one, 0, f32one, f32one]

/-- An index through its address mode: an index of the level, or the border (R290). -/
def texIndex (mode : Nat) (i : Int) (n : Nat) : Option Nat :=
  match mode with
  | 0 => some (i % n).toNat
  | 1 => some (max 0 (min i (n - 1 : Int))).toNat
  | 2 => let j := (i % (2 * n : Int)).toNat; some (if j < n then j else 2 * n - 1 - j)
  | _ => if 0 ≤ i ∧ i < n then some i.toNat else none

/-- The texel of a level at indices that pass the address modes. -/
def State.takeTexel (s : State) (v : Via) (t : Tex) (layer l : Nat) (i j : Int) : Rd (List Nat) :=
  match texIndex t.au i (t.lw l), texIndex t.av j (t.lh l) with
  | some x, some y =>
    let b := t.base + layer * t.levelOff (t.levm1 + 1) + t.levelOff l
    let pitch := texPitch t.fmt (t.lw l)
    if isAstc t.fmt then do
      let k := astcSize t.fmt
      let bs ← s.take v (b + y / k * pitch + 16 * (x / k)) 16
      return astcTexelOf t.fmt bs (x % k) (y % k)
    else do
      let bs ← s.take v (b + y * pitch + x * texBytes t.fmt) (texBytes t.fmt)
      return texelOf t.fmt bs
  | _, _ => return [0, 0, 0, if t.bord then f32one else 0]

/-! ## Level of detail and filtering (R289, R290) -/

/-- The floor of a finite value. -/
def Fl.floor : Fl → Int
  | .fin s n d => if s then -((n + d - 1) / d : Nat) else ((n / d : Nat) : Int)
  | _ => 0

/-- An exact sum of finite values; a value times a fraction; half steps. -/
def Fl.plus (a b : Fl) : Fl := a.add false b
/-- The fraction n / d with a sign. -/
def frac (x : Int) (d : Nat) : Fl := .fin (decide (x < 0)) x.natAbs d

/-- The length of a derivative, in binary32. -/
def axisLen (a : Nat × Nat) : Nat := f32sqrt (f32add (f32mul a.1 a.1) (f32mul a.2 a.2))

/-- What a lane samples: the level of detail in 1/256, and the taps of anisotropic filtering with the major axis. -/
structure Lod where
  q : Option Nat
  n : Nat
  major : Nat × Nat
  deriving DecidableEq, Repr

/-- λ quantised and clamped; `none` where λ is not a number. -/
def Tex.quantLod (t : Tex) (x : Nat) : Option Nat :=
  let hi := min t.lmax (256 * t.levm1)
  match f32v x with
  | .nan => none
  | .inf s => some (if s then min hi t.lmin else hi)
  | .fin s n d =>
    let y := roundInt .rne s (256 * n) d
    some (min (hi : Int) (max t.lmin y)).toNat

/-- The level of detail of a lane (R289); `u k`, `v k` are the coordinates of lane `k` of its quad. -/
def Tex.lod (t : Tex) (mode : Nat) (u v : Nat → Nat) (x : Nat) : Lod :=
  let size := fun (n : Nat) => f32 (.fin false n 1)
  let d := fun (k : Nat) => (f32mul (f32sub (u k) (u 0)) (size t.w), f32mul (f32sub (v k) (v 0)) (size t.h))
  let ax := d 1
  let ay := d 2
  let lx := axisLen ax
  let ly := axisLen ay
  let P := f32max lx ly
  let m := f32min lx ly
  let ratio := f32v (f32div P m)
  let n := if t.filt ≠ 3 || mode = 1 || (f32v m).isZero then 1
    else match ratio with
      | .fin _ a b => max 1 (min ((a + b - 1) / b) t.amax)
      | .inf _ => t.amax
      | .nan => 1
  let base := if mode = 1 then x else f32log2 (if t.filt = 3 then f32div P (size n) else P)
  let b1 := if mode = 2 then f32add base x else base
  let b2 := f32add b1 (f32 (frac t.lbias 256))
  { q := t.quantLod b2, n, major := if (f32v lx).lt (f32v ly) then ay else ax }

/-- One bilinear tap at exact coordinates: the four texels with their weights in 1/65536. -/
def State.takeTap (s : State) (v : Via) (t : Tex) (layer l : Nat) (u w : Fl) : Rd (List (Nat × List Nat)) := do
  let split := fun (x : Fl) (n : Nat) =>
    let y := (x.mul (.fin false n 1)).plus (.fin true 1 2)
    let i := y.floor
    let f := match y.plus (frac (-i) 1) with | .fin _ a b => roundNat .rne false (256 * a) b | _ => 0
    if f = 256 then (i + 1, 0) else (i, f)
  let (i, f) := split u (t.lw l)
  let (j, g) := split w (t.lh l)
  Rd.every <| [((0 : Int), (0 : Int)), (1, 0), (0, 1), (1, 1)].map fun ab => do
    let x ← s.takeTexel v t layer l (i + ab.1) (j + ab.2)
    return ((if ab.1 = 1 then f else 256 - f) * (if ab.2 = 1 then g else 256 - g), x)

/-- The exact weighted sum of texels, rounded once: weights are over `den`. -/
def texSum (ts : List (Nat × List Nat)) (den : Nat) : List Nat :=
  (List.range 4).map fun k =>
    match (ts.filter fun t => t.1 != 0).map fun t => (f32v ((t.2[k]?).getD 0)).mul (.fin false t.1 den) with
    | x :: xs => f32 (xs.foldl (Fl.add false) x)
    | [] => 0

/-- A texel sampled at the exact coordinates (R290); one tap of anisotropic filtering is at the coordinates themselves. The pages of all its texels are
checked before any fault is raised (R206). -/
def State.takeSample (s : State) (v : Via) (t : Tex) (layer q : Nat) (lod : Lod) (u w : Fl) : Rd (List Nat) := do
  let near := min t.levm1 ((q + 128) / 256)
  match t.filt with
  | 0 => return texSum [(1, ← s.takeTexel v t layer near (u.mul (.fin false (t.lw near) 1)).floor (w.mul (.fin false (t.lh near) 1)).floor)] 1
  | 1 => return texSum (← s.takeTap v t layer near u w) 65536
  | 2 => do
    let l0 := min t.levm1 (q / 256)
    let f := q % 256
    let taps ← Rd.every [do return (← s.takeTap v t layer l0 u w).map fun x => (x.1 * (256 - f), x.2),
                         do return (← s.takeTap v t layer (min t.levm1 (l0 + 1)) u w).map fun x => (x.1 * f, x.2)]
    return texSum taps.flatten (65536 * 256)
  | _ => do
    let taps ← Rd.every <| (List.range lod.n).map fun (k : Nat) =>
      let off := fun (x n : Nat) => if lod.n = 1 then Fl.zero else ((f32v x).mul (frac (2 * (k : Int) + 1 - (lod.n : Int)) (2 * lod.n))).mul (.fin false 1 n)
      s.takeTap v t layer near (u.plus (off lod.major.1 t.w)) (w.plus (off lod.major.2 t.h))
    return texSum taps.flatten (65536 * lod.n)

/-- One lane of TSMP (R285). Where the spec states no result, of an infinite coordinate or a level of detail that is no number, the
components are free values of the operands (R78). -/
def State.sampleLane (s : State) (v : Via) (c : Ctx) (va r mode ln : Nat) : Except LFault (List Nat) × List Spot := Rd.eval do
  let bs ← s.take v va 64
  match texOf ((List.range 8).map fun i => BitVec.ofNat 64 (ofBytes ((bs.drop (8 * i)).take 8))) with
  | none => Rd.fail ⟨rkIllegal, cIllegal, 0, false⟩
  | some t =>
    let reg := fun (k l : Nat) => (c.v (r + k) l).toNat
    let u := f32v (reg 0 ln)
    let w := f32v (reg 1 ln)
    let quad := ln / 4 * 4
    let ops := mode :: reg 2 ln :: reg 3 ln :: (List.range 4).flatMap fun k => [reg 0 (quad + k), reg 1 (quad + k)]
    let open' := (List.range 4).map fun k => (Config.texOpen bs (ln % 4 :: ops) k).toNat
    if u.isNan || w.isNan then return [0, 0, 0, 0]
    else
      let lod := t.lod mode (fun k => reg 0 (quad + k)) (fun k => reg 1 (quad + k)) (reg 2 ln)
      let layer := min (reg 3 ln) t.laym1
      match lod.q with
      | none => return open'
      | some q =>
        let bigAxis := t.filt == 3 && lod.n != 1 && ((f32v lod.major.1).isNan || (f32v lod.major.1).isInf || (f32v lod.major.2).isNan || (f32v lod.major.2).isInf)
        if u.isInf || w.isInf || bigAxis then return open' else s.takeSample v t layer q lod u w

/-- TSMP (R285). R122 lets a wide-immediate hint stand before it and R285 gives the offset no use: it has no effect (DESIGN CHOICE, log 24). -/
def execTsmp (d b v : BitVec 5) (l : BitVec 4) (m : BitVec 3) (h : Option (BitVec 24)) (p : Option Pfx) (s : State) :
    Host.Outcome State Fault Refusal :=
  let i := Instr.tsmp d b v l m h p
  issue i s fun c =>
    let va := (c.sp b).toNat
    if va % 64 ≠ 0 then .error (c.trap cAlign 0 0 (BitVec.ofNat 64 va) (c.active p))
    else
      let (s1, ps) := s.fetchNow c fun t w => (c.todo p).map fun ln => (ln, t.sampleLane w c va (4 * v.toNat) m.toNat ln)
      s1.lanewise c i ps fun q ls =>
        (s1.pendAdd c i q l (c.zeroList p q (4 * d.toNat) 4 ++ ls.flatMap fun (x : Nat × List Nat) =>
          x.2.mapIdx fun k y => (64 * (4 * d.toNat + k) + x.1, BitVec.ofNat 32 y)) []).2

end Sys2Proof.Machine
end

