-- ==== Sys2Proof/Machine/Blend.lean ====
section
/-!
DEFINITION. Colour targets (09 R275; 13 R355; 18 R398): what the PXW records of an exited lane write, in submission order.
-/
namespace Sys2Proof.Machine

/-- The draw of a group, if its launch is one. -/
def State.drawOf (s : State) (g : Group) : Option Draw := (s.launch? g.lid).bind (·.draw)

/-! ## Colour (R275, R355) -/

/-- A 64-bit word of the draw block. -/
def Draw.dword (d : Draw) (i : Nat) : DWord := (d.block[i]?).getD 0
/-- The draw's extent (R398). -/
def Draw.wid (d : Draw) : Nat := field (d.dword 3) 0 16 + 1
def Draw.hei (d : Draw) : Nat := field (d.dword 3) 16 16 + 1
/-- Format, blend and base of colour target `t`. -/
def Draw.cfmt (d : Draw) (t : Nat) : Nat := field (d.dword (6 + t)) 60 4
def Draw.cblend (d : Draw) (t : Nat) : Nat := field (d.dword (6 + t)) 57 3
def Draw.cbase (d : Draw) (t : Nat) : Nat := field (d.dword (6 + t)) 0 57

/-- Widths of the components of a colour format, whether they are floats (R287). -/
def comps (fmt : Nat) : List Nat × Bool :=
  match fmt with
  | 1 => ([8], false) | 2 => ([8, 8], false) | 3 => ([8, 8, 8, 8], false) | 4 => ([10, 10, 10, 2], false)
  | 5 => ([16], true) | 6 => ([16, 16], true) | 7 => ([16, 16, 16, 16], true)
  | 8 => ([32], true) | 9 => ([32, 32], true) | _ => ([32, 32, 32, 32], true)

/-- A float component's format. -/
def compFmt (n : Nat) : Fmt := if n = 16 then .b16 else .b32

/-- The smaller or larger of two values, as VMIN and VMAX. -/
def Fl.pickOf (mx : Bool) (a b : Fl) : Fl :=
  if a.isNan then b else if b.isNan then a
  else if a.lt b then (if mx then b else a) else if b.lt a then (if mx then a else b)
  else if mx = a.neg? then b else a

/-- The blend operations. -/
def blendOp (op : Nat) (x d a : Fl) : Fl :=
  match op with
  | 0 => x
  | 1 => x.add false ((Fl.add false (.fin false 1 1) a.negate).mul d)
  | 2 => x.add false d
  | 3 => Fl.pickOf false x d
  | _ => Fl.pickOf true x d

/-- A component as it is stored. -/
def storeComp (n : Nat) (isF : Bool) (x : Fl) : Nat :=
  if isF then (compFmt n).round .rne false false x
  else
    let top := 2 ^ n - 1
    match x with
    | .nan => 0
    | .inf neg => if neg then 0 else top
    | .fin neg p q => if neg then 0 else if q ≤ p then top else roundNat .rne false (p * top) q

/-- A component as it is read (R287). -/
def loadComp (n : Nat) (isF : Bool) (k : Nat) : Fl := if isF then (compFmt n).value k else f32v (unorm n k)

/-- The element of a colour target after a blend of the source `src`: components from bit `lo` on. -/
def blendAll (isF : Bool) (op old : Nat) (src : List Word) : Nat → Nat → List Nat → Nat
  | _, _, [] => 0
  | k, lo, n :: ns =>
    let x := fun (j : Nat) => f32v ((src[j]?).getD 0).toNat
    storeComp n isF (blendOp op (x k) (loadComp n isF (old / 2 ^ lo % 2 ^ n)) (x 3)) * 2 ^ lo + blendAll isF op old src (k + 1) (lo + n) ns

/-- A record of PXW blends into its target; an element that its context cannot reach keeps its value. -/
def State.blend (s : State) (g : Group) (d : Draw) (f : Frag) (r : Nat × List Word) : State :=
  let fmt := d.cfmt r.1
  let (ns, isF) := comps fmt
  let n := texBytes fmt
  let va := d.cbase r.1 + f.y * texPitch fmt d.wid + f.x * n
  match s.span (some g.core) g.ctx va n (if d.cblend r.1 = 0 then .wr else .both) false with
  | .error _ => s
  | .ok ks =>
    let new := blendAll isF (d.cblend r.1) (ofBytes (ks.map fun k => s.getAt k.key)) r.2 0 0 ns
    (s.wrSpots { core := some g.core, func := s.ctxFunc g.ctx } (s.softSpots (ks.zip (toBytes n new)))).unservedAt g.ctx (some g.core) true ks

def State.updDraw (s : State) (lid : Nat) (f : Draw → Draw) : State := s.updLaunch lid fun l => { l with draw := l.draw.map f }

/-- The fragments of a pixel that have exited blend in submission order, until one that has not (R355). -/
def State.blendPixel (s : State) (g : Group) (x y : Nat) : State :=
  match s.drawOf g with
  | none => s
  | some d =>
    let fs := d.frags.filter fun f => f.x == x && f.y == y && !f.helper
    let out := fs.takeWhile (·.done)
    let s1 := out.foldl (fun t f => f.writes.foldl (fun t r => t.blend g d f r) t) s
    s1.updDraw g.lid fun d => { d with frags := d.frags.filter fun f => !(out.contains f) }

/-- Lanes that end without an exit of their own, when their group is aborted: they write nothing, and what waited for them blends. -/
def State.dropFrags (s : State) (g : Group) : State :=
  match s.drawOf g with
  | none => s
  | some d =>
    let px := ((d.frags.filter fun f => f.gid == g.gid && !f.done).map fun f => (f.x, f.y)).eraseDups
    let s1 := s.updDraw g.lid fun d => { d with frags := d.frags.filter fun f => !(f.gid == g.gid && !f.done) }
    px.foldl (fun t p => t.blendPixel g p.1 p.2) s1

end Sys2Proof.Machine
end

