-- ==== Sys2Proof/Machine/Sync.lean ====
section
/-!
DEFINITION. Fences, the copy engine, named and cohort barriers, monitors (07 R223 to R239), and the events that belong to them.
-/
namespace Sys2Proof.Machine

/-! ## Traps and releases in parts that wait -/

/-- A deferred fault as the trap of a wait at the part's instruction (R416). A part of a stopped wave keeps its state and raises it when its
wave goes on (R46), and a path that another one has replaced when it is rotated in (R34). -/
def State.raiseAt (s : State) (wid ent : Nat) (t : TrapRec) : State :=
  match s.ctx? ⟨wid, some ent⟩ with
  | none => s.updWave wid fun w => w.updAux ent fun a => { a with park := .hit t }
  | some c => if s.stopped c.w then s.updWave wid fun w => w.updAux ent fun a => { a with park := .hit t } else s.raise c { t with tpc := c.pc }

/-- A part that is parked, or the parked path of a PENDING record (R34). -/
def Wave.parkedAt (w : Wave) (e : Nat) : Bool := ((w.ent e).isPart && (w.ent e).st == stParkw) || ((w.ent e).isPath && (w.ent e).st == 0)

/-- The waves of a group with a part or a path parked as `p` tells, with its entry. -/
def State.parkedIn (s : State) (gid : Nat) (p : Park → Bool) : List (Nat × Nat) :=
  (s.wavesOf gid).flatMap fun w => (entIdx.filter fun e => w.parkedAt e && p (w.auxAt e).park).map fun e => (w.wid, e)

/-- The part is parked, its running path rotating with a PENDING record (R34). -/
def Ctx.parkAs (c : Ctx) (w : Wave) (p : Park) : Wave :=
  ((w.updEnt c.ent fun x => { x with st := stParkw }).updAux c.ent fun a => { a with park := p, hints := 0, blocked := none }).rotate c.ent

/-! ## Named barriers (R224 to R232) -/

/-- Barrier `k` of a group. -/
def Group.bar (g : Group) (k : Nat) : Barrier := (g.bars[k]?).getD {}
def State.updBar (s : State) (gid k : Nat) (f : Barrier → Barrier) : State := s.updGroup gid fun g => { g with bars := modifyAt k f g.bars }
/-- The waves of a group that have exited. -/
def State.exitedWaves (s : State) (gid : Nat) : Nat := ((s.wavesOf gid).filter fun w => w.living == 0).length
/-- `n` bytes have landed: the signed 32-bit counter falls by as many, and wraps (R224; DESIGN CHOICE, log 48). -/
def Barrier.landed (b : Barrier) (n : Nat) : Barrier := { b with cnt := Int.bmod (b.cnt - n) (2 ^ 32) }
/-- A copy of the group credits barrier `k`. -/
def State.copyOn (s : State) (g : Group) (k : Nat) : Bool := (s.core g.core).copies.any fun c => c.gid == g.gid && c.bar == k
/-- What a release of a group's waves waits for is in flight: nothing that another module has to acknowledge (R346), and no load of the
code-fetch engine (R330). -/
def State.groupFlight (s : State) (gid : Nat) : Bool :=
  let ws := (s.wavesOf gid).map (·.wid)
  s.inflight.any fun a => ws.contains a.wid && a.heldFor 2 && !a.isCode

/-- BARRIER_MISUSE at an instruction (R414). -/
def Ctx.misuse (c : Ctx) (sub k : Nat) : TrapRec := c.trap cBarrierMisuse sub (BitVec.ofNat 32 k)

/-- What arrivals and the counter of barrier `k` now bring (R229, R230): the phase completes, or cannot, or goes on. -/
def State.barCheck (s : State) (gid k : Nat) : State :=
  match s.group? gid with
  | none => s
  | some g =>
    let b := g.bar k
    let at' := s.parkedIn gid fun p => p == .bar k
    if b.arrivals = 0 || b.arrivals + s.exitedWaves gid < g.waves then s
    else if b.cnt = 0 then
      if s.groupFlight gid then s
      else
        let s1 := s.updBar gid k fun b => { b with phase := b.phase + 1, arrivals := 0 }
        at'.foldl (fun t x => t.letGo x.1 x.2) s1
    else if b.cnt < 0 || !s.copyOn g k then
      let s1 := s.updBar gid k fun b => { b with arrivals := b.arrivals - at'.length }
      at'.foldl (fun t x => t.raiseAt x.1 x.2 { code := BitVec.ofNat 8 cBarrierMisuse, tpc := 0, info := BitVec.ofNat 32 k }) s1
    else s

/-- Every barrier of a group, checked. -/
def State.barSweep (s : State) (gid : Nat) : State :=
  match s.group? gid with
  | none => s
  | some g => (List.range g.bars.length).foldl (fun t k => t.barCheck gid k) s

/-- A copy parks at its chunk with a fault, which its barrier records (R227). -/
def State.copyNote (s : State) (core : Nat) (x : Copy) (t : TrapRec) (rid : Option Nat) : State :=
  let (seq, s1) := s.newId
  (s1.updCore core fun y => { y with copies := y.copies.map fun z => if z.cid == x.cid then { z with parked := true, late := none, rid } else z }).updBar
    x.gid x.bar fun b => { b with fault := some ({ trap := t, src := 1, rid, seq }, x.cid) }

/-- The fault of a copy's source as its barrier records it. -/
def Copy.fault (x : Copy) (code sub va : Nat) : TrapRec :=
  { code := BitVec.ofNat 8 code, sub := BitVec.ofNat 8 sub, defer := true, tpc := 0, info := BitVec.ofNat 32 x.bar, addr := BitVec.ofNat 64 va }

/-- The first copy that waits to record its deferred PAGE on barrier `k` (R419). -/
def State.copyLate (g : Group) (k : Nat) (s : State) : State :=
  match (s.core g.core).copies.find? fun x => x.gid == g.gid && x.bar == k && x.late.isSome with
  | some x => s.copyNote g.core x (x.fault cPage 1 x.src) none
  | none => s

/-- A recorded fault of barrier `k` is raised and cleared (R227): a PERM counts the copy's bytes as landed, with undefined values; a copy
with a PAGE that no host record stands for goes on at once (R416). A copy whose own fault had to wait for the barrier records it now (R419). -/
def State.clearBarFault (s : State) (g : Group) (k : Nat) : State :=
  State.copyLate g k <| match (g.bar k).fault with
  | none => s
  | some (d, cid) =>
    let s1 := s.updBar g.gid k fun b => { b with fault := none }
    if d.trap.code.toNat = cPerm then
      match (s.core g.core).copies.find? fun c => c.cid == cid with
      | none => s1
      | some c =>
        let s2 := { s1 with fresh := s1.fresh + c.left / 8 + 1 }
        let bytes := (List.range c.left).map fun j => bits (Config.anyBits (s1.fresh + j / 8)) (8 * (j % 8)) 8
        let s3 := s2.updCore g.core fun x => { x with copies := x.copies.filter fun y => y.cid != cid }
        (s3.wr (palKey g.core (g.pbase + c.off)) bytes).updBar g.gid k fun b => b.landed c.left
    else s1.updCore g.core fun x => { x with copies := x.copies.map fun c => if c.cid == cid && c.rid.isNone then { c with parked := false } else c }

/-- BAR (R229). Where a part whose paths run one at a time executes a BAR on each path, each of them arrives (R34; DESIGN CHOICE, log 48). -/
def execBar (b : BitVec 5) (s : State) : Host.Outcome State Fault Refusal :=
  issue (.bar b) s fun c =>
    let k := b.toNat
    if c.g.bars.length ≤ k then .error (c.misuse 0 k)
    else match (c.g.bar k).fault with
      | some (d, _) => .ok ((s.clearBarFault c.g k).raise c { d.trap with tpc := c.pc })
      | none =>
        let s1 := (s.setWave (c.parkAs c.w (.bar k))).updBar c.g.gid k fun b => { b with arrivals := b.arrivals + 1 }
        .ok ((s1.barCheck c.g.gid k).stubCheck c.w.wid c.q false)

/-- BARX (R228). -/
def execBarx (a : BitVec 6) (b : BitVec 5) (s : State) : Host.Outcome State Fault Refusal :=
  let i := Instr.barx a b
  issue i s fun c =>
    let k := b.toNat
    let n : Int := (c.g.bar k).cnt + (c.s a.toNat).toNat
    if c.g.bars.length ≤ k || decide (2 ^ 31 ≤ n) then .error (c.misuse 0 k)
    else .ok (((s.updBar c.g.gid k fun x => { x with cnt := n }).done c i).barCheck c.g.gid k)

/-- BART (R231). -/
def execBart (d : BitVec 6) (b : BitVec 5) (s : State) : Host.Outcome State Fault Refusal :=
  let i := Instr.bart d b
  issue i s fun c =>
    if c.g.bars.length ≤ b.toNat then .error (c.misuse 0 b.toNat)
    else .ok (s.retire c i (c.putS c.w d.toNat (c.g.bar b.toNat).phase))

/-! ## The copy engine (R225 to R227, R341) -/

/-- The body of a CPYA whose core has room for it. -/
def State.copyStart (s : State) (c : Ctx) (a : BitVec 4) (b : BitVec 5) : Except TrapRec State :=
  let i := Instr.cpya a b
  let r := 4 * a.toNat
  let src := (c.s64 r).toNat
  let off := (c.s (r + 2)).toNat
  let n := (c.s (r + 3)).toNat
  if c.g.bars.length ≤ b.toNat then .error (c.misuse 0 b.toNat)
  else if src % 16 ≠ 0 || off % 16 ≠ 0 then .error (c.trap cAlign 0 0 (if src % 16 ≠ 0 then BitVec.ofNat 64 src else BitVec.ofNat 64 off))
  else if n % 16 ≠ 0 || decide (1048576 < n) || decide (c.g.psize < off + n) then .error (c.trap cPerm 0 0 (BitVec.ofNat 64 off))
  else if n = 0 then .ok (s.done c i)
  else
    let (id, s1) := s.newId
    let x : Copy := { cid := id, gid := c.g.gid, wid := c.w.wid, bar := b.toNat, src, off, left := n, order := c.bank.order, hnd := c.hnd, limit := id }
    .ok ((s1.updCore c.w.core fun y => { y with copies := y.copies ++ [x] }).done c i)

/-- A core holds 16 copies in flight, parked ones among them (R225; DESIGN CHOICE, log 48). -/
def State.copyRoom (s : State) (core : Nat) : Bool := decide ((s.core core).copies.length < 16)

/-- CPYA (R225). -/
def execCpya (a : BitVec 4) (b : BitVec 5) (s : State) : Host.Outcome State Fault Refusal :=
  issue (.cpya a b) s fun c => if s.copyRoom c.w.core then s.copyStart c a b else .ok (s.block c (.cpya a b))

/-- The next chunk of a copy: up to 512 bytes (R225). -/
def Copy.chunk (x : Copy) : Nat := min 512 x.left

/-- The parts that wait at a barrier which has recorded a fault raise it, and have not arrived (R227). -/
def State.barFault (s : State) (gid k : Nat) : State :=
  match s.group? gid with
  | none => s
  | some g => match (g.bar k).fault, s.parkedIn gid fun p => p == .bar k with
    | some (d, _), x :: xs =>
      let at' := x :: xs
      let s1 := (s.clearBarFault g k).updBar gid k fun b => { b with arrivals := b.arrivals - at'.length }
      at'.foldl (fun t w => t.raiseAt w.1 w.2 d.trap) s1
    | _, _ => s

/-- A copy meets a fault: its barrier records it, and the waves that wait there raise it (R227). -/
def State.copyRecord (s : State) (core : Nat) (x : Copy) (t : TrapRec) (rid : Option Nat) : State :=
  (s.copyNote core x t rid).barFault x.gid x.bar

/-- A fault on a copy's source (R227, R416). A barrier that holds the fault of another copy keeps it, and the copy tries again later;
a fault of this copy takes the place of its earlier one. -/
def State.copyFault (s : State) (core : Nat) (x : Copy) (f : XFault) (va : Nat) : State :=
  match s.group? x.gid with
  | none => s
  | some g =>
    if (g.bar x.bar).fault.any fun d => d.2 != x.cid then s
    else if f == .perm || x.errs.contains (va / 4096) then s.copyRecord core x (x.fault cPerm 0 va) none
    else
      let (rid, s1) := s.faultRecord (s.ctxFunc g.ctx) { ctx := g.ctx, core := (s.core core).phys, code := cPage, defer := true, va } true
      s1.copyRecord core x (x.fault cPage 0 va) (some rid)

/-- COPY_CHUNK_LAND (R225, R341). -/
def execCopyChunkLand (core cid : Nat) (s : State) : Host.Outcome State Fault Refusal :=
  match (s.core core).copies.find? fun x => x.cid == cid with
  | none => .next s
  | some x => match s.group? x.gid with
    | none => .next s
    | some g =>
      if x.parked then .next s
      else match s.span (some core) g.ctx x.src x.chunk .rd false with
        | .error (f, va) => .next (s.copyFault core x f va)
        | .ok ks =>
          match firstErr x.errs x.src x.chunk with
          | some a => .next (s.copyFault core x .perm a)
          | none =>
            let s0 := (neededBefore x.wid x.hnd x.order (fun a => a.touches (ks.map (·.key))) (ks.map (·.key)) (s.inflight.filter fun a => a.id < x.limit)).foldl
              State.performAll s
            let s1 := (s0.readLines { core := some core, func := s.ctxFunc g.ctx } core .slice ks).unservedAt g.ctx (some core) false ks
            let bs := ks.map fun k => s1.getAt k.key
            let moved := fun (z : Copy) => if z.cid == cid then { z with src := z.src + x.chunk, off := z.off + x.chunk, left := z.left - x.chunk } else z
            let s2 := (s1.wr (palKey core (g.pbase + x.off)) bs).updCore core fun y =>
              { y with copies := (y.copies.map moved).filter fun z => z.left != 0 }
            .next ((s2.updBar x.gid x.bar fun b => b.landed x.chunk).barCheck x.gid x.bar)

/-! ## Fences (R223) -/

/-- Every kind of the fence is satisfied for the part. -/
def State.fenceDone (s : State) (c : Ctx) (k : BitVec 4) (sc : BitVec 3) : Bool :=
  let as := s.inflightOf c
  let core := c.w.core
  (!bitAt k 0 || !as.any fun a => a.isMem core && a.heldFor sc.toNat) && (!bitAt k 1 || !as.any (·.acq)) &&
    (!bitAt k 2 || !as.any fun a => a.isPal core) &&
    (!bitAt k 3 || !((s.core core).copies.any fun x => x.wid == c.w.wid && x.hnd == c.hnd && (c.hnd || inOrder x.order c.bank.order) && !x.parked))

/-- What a satisfied fence does: an acquire of memory (R324), a fetch unit that reads anew (R220). -/
def State.fenceEnd (s : State) (c : Ctx) (k : BitVec 4) (sc : BitVec 3) : State :=
  let s1 := if bitAt k 0 then s.acquire c.w.wid c.hnd c.q sc.toNat else s
  (if bitAt k 1 then s1.dropCopies (64 + c.w.core) else s1).done c (.fence k sc)

/-- FENCE. -/
def execFence (k : BitVec 4) (sc : BitVec 3) (s : State) : Host.Outcome State Fault Refusal :=
  issue (.fence k sc) s fun c => .ok (if s.fenceDone c k sc then s.fenceEnd c k sc else s.block c (.fence k sc))

/-- FENCE_WAIT_END. -/
def execFenceWaitEnd (who : Issuer) (s : State) : Host.Outcome State Fault Refusal :=
  match s.blockedAt who with
  | some (c, .fence k sc) => .next (if s.fenceDone c k sc then s.fenceEnd c k sc else s)
  | _ => .next s

/-! ## Cohort barriers (R233, R425) -/

/-- The identity of a wave over a pre-emption. -/
def Wave.key (w : Wave) : Nat := 32 * w.gid + w.idx

/-- The phase of module barrier `m` completes when every wave of the cohort has arrived or exited, and what they did before has
performed: a device-scope acquire for each (R335). -/
def State.cbarCheck (s : State) (m : Nat) : State :=
  match s.cbars[m]? with
  | none => s
  | some b => match b.owner.bind s.launch? with
    | none => s
    | some l =>
      let gs := (s.groups.filter fun g => g.lid == l.lid).map (·.gid)
      if b.arrived.isEmpty || b.arrived.length + l.exits < l.total * l.waves || gs.any s.groupFlight then s
      else
        let s1 := { s with cbars := modifyAt m (fun b => { b with phase := b.phase + 1, arrived := [] }) s.cbars }
        gs.foldl (fun t g => (t.parkedIn g fun p => match p with | .cbar k _ => k == m | _ => false).foldl
          (fun t x => (t.acquire x.1 false (((t.wave? x.1).map Wave.allQuads).getD 0) 2).letGo x.1 x.2) t) s1

/-- Every cohort barrier of a launch, checked. -/
def State.cbarSweep (s : State) (lid : Nat) : State :=
  (List.range 16).foldl (fun t m => if ((t.cbars[m]?).bind (·.owner)) == some lid then t.cbarCheck m else t) s

/-- CBAR. -/
def execCbar (k : BitVec 4) (s : State) : Host.Outcome State Fault Refusal :=
  issue (.cbar k) s fun c =>
    match (s.launch? c.g.lid).bind fun l => l.cbars[k.toNat]? with
    | none => .error (c.misuse 1 k.toNat)
    | some m =>
      if c.g.cohort = 0xffffffff then .error (c.misuse 1 k.toNat)
      else
        let ph := ((s.cbars[m]?).map (·.phase.toNat)).getD 0
        let s1 := s.setWave (c.parkAs c.w (.cbar m ph))
        let s2 := { s1 with cbars := modifyAt m (fun b => { b with arrived := c.w.key :: b.arrived }) s1.cbars }
        .ok ((s2.cbarCheck m).stubCheck c.w.wid c.q false)

/-! ## Monitors (R234 to R239) -/

/-- The watches in the directory of a home slice, those of other modules among them (R234, R443). -/
def State.watches (s : State) (slice : Nat) : Nat :=
  ((s.waves.flatMap (·.mons)).filter fun m => m.armed && !m.fbk && isLocalKey m.line && homeSlice m.line == slice).length +
    (s.foreign.filter fun f => !f.2.2 && homeSlice (128 * f.2.1) == slice).length

/-- A new watch of a line has to watch its page: the directory is full (R238). Whether the directory of another module is full cannot be
seen from here: a free choice (log 38). -/
def State.mustWatchPage (s : State) (line : Nat) : Bool :=
  if isLocalKey line then decide (1024 ≤ s.watches (homeSlice line)) else Config.choice s.fresh % 2 == 1

/-- A slot that is no longer armed. A fallback return that it has delivered still counts for its 65,536 clk (R238). -/
def Mon.disarm (m : Mon) : Mon := { last := m.last }

/-- MON. -/
def execMon (a : BitVec 5) (n : BitVec 2) (s : State) : Host.Outcome State Fault Refusal :=
  let i := Instr.mon a n
  issue i s fun c =>
    let va := (c.sp a).toNat
    let p : Except LFault Xlat := match s.probe c va 1 .rd false with
      | .ok x => if x.isHost then .error ⟨rkPerm, cPerm, va, false⟩ else .ok x
      | .error f => .error f
    match p with
    | .ok x =>
      let s0 := s.before c (fun a => a.touches [x.key]) [x.key]
      let w := s0.waveOf c
      let others := s0.updWave w.wid fun v => { v with mons := modifyAt n.toNat Mon.disarm v.mons }
      let line := x.key / 128 * 128
      let fbk := others.mustWatchPage line
      let asked := { others with fresh := others.fresh + 1 }.readLines { core := some w.core, func := s.ctxFunc c.g.ctx } w.core .slice [⟨x.key, x.home, va⟩]
      let s1 := (asked.forget w.core x.key).unservedAt c.g.ctx (some w.core) false [⟨x.key, x.home, va⟩]
      .ok ((s1.updWave w.wid fun v => { v with mons := modifyAt n.toNat (fun m => { m.disarm with armed := true, line, fbk }) v.mons }).done c i)
    | .error _ => s.scalarwise c i p fun _ => s

/-- MONC (R239). -/
def execMonc (n : BitVec 2) (s : State) : Host.Outcome State Fault Refusal :=
  issueWave (.monc n) s fun c => { c.w with mons := modifyAt n.toNat Mon.disarm c.w.mons }

/-- Some slot is armed. -/
def Wave.anyArmed (w : Wave) : Bool := w.mons.any (·.armed)

/-- The status word of a return that reports `slots`, and the wave with the reported triggers cleared (R236, R238). -/
def Wave.monReturn (w : Wave) (slots : BitVec 4) (tmo : Bool) (clk : Nat) : Word × Wave :=
  let fbk := (List.range 4).any fun n => bitAt slots n && (match w.mons[n]? with | some m => m.fbk | none => false)
  let st : Word := slots.setWidth 32 ||| bitIf 32 tmo 8 ||| bitIf 32 fbk 9 ||| bitIf 32 w.rst 10
  let seen := fun (n : Nat) (m : Mon) =>
    if bitAt slots n && m.armed && m.trig then { m with trig := false, last := if m.fbk then some clk else m.last } else m
  (st, { w with rst := false, mons := w.mons.mapIdx seen })

/-- The waves that a MONW.G parked go on (R237). -/
def State.thaw (s : State) (gid wid : Nat) : State :=
  let s1 := s.updGroup gid fun g => if g.hold == some wid then { g with hold := none } else g
  { s1 with waves := s1.waves.map fun w => if w.gid != gid then w else w.parts.foldl (fun v e =>
      if (v.ent e).st == stParkw && (v.auxAt e).park == .frozen wid then
        (if s1.stopped w then v.updAux e fun a => { a with park := .over false } else v.stand e)
      else v) w }

/-- Parts of the other waves of a held group that stand at a bundle boundary are parked (R237), and do not rotate, for no path of theirs has
parked (R34; DESIGN CHOICE, log 32). -/
def State.freeze (s : State) (gid wid : Nat) : State :=
  { s with waves := s.waves.map fun w => if w.gid != gid || w.wid == wid || s.stopped w then w else w.parts.foldl (fun v e =>
      if (v.ent e).st == stReady && (v.auxAt e).hints == 0 && (v.auxAt e).dict.isNone && (v.auxAt e).trap.isNone then
        (v.updEnt e fun x => { x with st := stParkw }).updAux e fun a => { a with park := .frozen wid }
      else v) w }

/-- MONW and MONW.G (R236, R237). -/
def monWait (i : Instr) (a : BitVec 6) (g : Bool) (s : State) : Host.Outcome State Fault Refusal :=
  issue i s fun c =>
    if c.w.trigs != 0 || !c.w.anyArmed || c.w.rst then
      let (st, w) := c.w.monReturn c.w.trigs false (s.core c.w.core).clk.toNat
      .ok ((s.retire c i (c.putS w a.toNat st)).count (s.ctxFunc c.g.ctx) 0xf (panelOf c.w.core) 1)
    else
      let t := c.s a.toNat
      let w0 := if c.aux.dict.isSome && !c.bank.phase then c.setBank (c.setAux c.w fun x => { x with half := true }) fun b => { b with phase := true } else c.w
      let w := c.parkAs w0 (.monw a (if t = 0 then none else some t.toNat) g)
      let s1 := s.setWave w
      let s2 := if g then (s1.updGroup c.g.gid fun x => { x with hold := some c.w.wid }).freeze c.g.gid c.w.wid else s1
      .ok (s2.stubCheck c.w.wid c.q false)

/-- MONW. -/
def execMonw (a : BitVec 6) (s : State) : Host.Outcome State Fault Refusal := monWait (.monw a) a false s
/-- MONW.G. -/
def execMonwG (a : BitVec 6) (s : State) : Host.Outcome State Fault Refusal := monWait (.monwG a) a true s

/-- A parked MONW returns. -/
def State.monEnd (s : State) (w : Wave) (ent : Nat) (a : BitVec 6) (g tmo : Bool) : State :=
  let (st, w0) := w.monReturn (w.auxAt ent).fired tmo (s.core w.core).clk.toNat
  let w1 := w0.updAux ent fun x => { x with fired := 0 }
  let q := (w1.ent ent).qmask
  let w2 := { w1 with banks := mapQuads q (fun b => { b with sreg := b.sreg.set a.toNat st }) 0 w1.banks }
  let s1 := (s.setWave (w2.goOn ent)).count (s.ctxFunc (s.ctxOf w.wid)) 0xf (panelOf w.core) 1
  if g then s1.thaw w.gid w.wid else s1

/-- The parked MONW of a part. -/
def Wave.monAt (w : Wave) (ent : Nat) : Option (BitVec 6 × Option Nat × Bool) :=
  if (w.ent ent).isPart && (w.ent ent).st == stParkw then
    match (w.auxAt ent).park with | .monw a t g => some (a, t, g) | _ => none
  else none

/-- A stopped wave holds its triggers (R46); in a core that is only halted a part that a write wakes becomes READY, and does not issue (R449). -/
def State.holdsTrig (s : State) (w : Wave) : Bool :=
  w.dead || w.handler.run || (match s.group? w.gid with | some g => g.state != .resident | none => true)

/-- MONW_WAKE (R238, R347). -/
def execMonwWake (wid ent : Nat) (s : State) : Host.Outcome State Fault Refusal :=
  match s.wave? wid with
  | none => .next s
  | some w => match w.monAt ent with
    | some (a, _, g) => .next (if !s.holdsTrig w && ((w.auxAt ent).fired != 0 || w.rst) then s.monEnd w ent a g false else s)
    | none => .next s

/-- MONW_TIMEOUT (R236). -/
def execMonwTimeout (wid ent : Nat) (s : State) : Host.Outcome State Fault Refusal :=
  match s.wave? wid with
  | none => .next s
  | some w => match w.monAt ent with
    | some (a, some 0, g) => .next (s.monEnd w ent a g true)
    | _ => .next s

/-- FALLBACK_WINDOW_END (R238). -/
def execFallbackWindowEnd (wid slot : Nat) (s : State) : Host.Outcome State Fault Refusal :=
  match s.wave? wid with
  | none => .next s
  | some w =>
    let clk := (s.core w.core).clk.toNat
    let f := fun (m : Mon) => match m.last with
      | some t => if m.held && decide (t + 65536 ≤ clk) then { m with held := false, trig := true } else m
      | none => m
    .next (s.setWave (Wave.latch { w with mons := modifyAt slot f w.mons } s.time))

/-- Every barrier of every group, and every cohort's: what they waited for may have performed. -/
def State.sweep (s : State) : State := s.groups.foldl (fun t g => (t.barSweep g.gid).cbarSweep g.lid) s

/-! ## Accesses perform -/

/-- MEMORY_ACCESS_PERFORM (R333, R334): one piece; arrivals at barriers wait for what came before them. -/
def execMemoryAccessPerform (id piece : Nat) (s : State) : Host.Outcome State Fault Refusal :=
  match s.inflight.find? fun a => a.id == id with
  | none => .next s
  | some a => match a.pieces.find? fun p => p.k == piece with
    | none => .next s
    | some p =>
      if !mayPerform s.inflight a p then .next s
      else
        let s1 := s.performPiece a p
        match s1.wave? a.wid with
        | none => .next s1
        | some w => match s1.group? w.gid with
          | none => .next s1
          | some g => .next ((s1.barSweep g.gid).cbarSweep g.lid)

end Sys2Proof.Machine
end

