-- ==== Sys2Proof/Machine/Easel.lean ====
section
/-!
DEFINITION. The Easel (08 R240 to R255): its queue and batches, PRIME and MMA with their arithmetic (02 R70, R71), and MFENCE,
BWAIT and the waits at issue for room.
-/
namespace Sys2Proof.Machine

/-! ## Arithmetic (R70, R71) -/

/-- `align128` of finite terms: a sum in units of 2^(e - 127), rounded once to binary64. -/
def alignRound (ts : List Fl) : Nat :=
  let nz := ts.filterMap fun t => match t with | .fin s n d => if n = 0 then none else some (s, n, d) | _ => none
  match nz with
  | [] => 0
  | _ =>
    let logs := nz.map fun t => floorLog2 t.2.1 t.2.2
    let u := logs.foldl max (logs.headD 0) - 127
    let sum : Int := (nz.map fun t => sgn t.1 (roundUnits .rtz t.1 t.2.1 t.2.2 u)).foldl (· + ·) 0
    if sum = 0 then 0 else Fmt.b64.round .rne false false (.dy (decide (sum < 0)) sum.natAbs u)

/-- An infinity of a sign among the terms. -/
def hasInf (neg : Bool) (ts : List Fl) : Bool := ts.any fun t => match t with | .inf s => s == neg | _ => false

/-- The sum of the terms of one K-group (R70). -/
def sumTerms (ts : List Fl) : Nat :=
  if ts.any Fl.isNan || (hasInf false ts && hasInf true ts) then Fmt.b64.nanBits
  else if hasInf false ts then Fmt.b64.signed false Fmt.b64.infBits
  else if hasInf true ts then Fmt.b64.signed true Fmt.b64.infBits
  else alignRound ts

/-- Element `k` is an escape; its mantissa. -/
def Block.esc (x : Block) (k : Nat) : Bool := ((x.vals[k]?).getD none).isSome
def Block.mant (x : Block) (k : Nat) : Int := (x.q[k]?).getD 0

/-- The integer partial P of a K-group (R70). -/
def partialSum (a b : Block) : Int :=
  ((List.range 32).map fun k => if a.esc k || b.esc k then 0 else a.mant k * b.mant k).foldl (· + ·) 0

/-- `easel_step` (R70) on a binary64 accumulator. -/
def easelStep (acc : Nat) (a b : Block) : Nat :=
  if a.e = 255 || b.e = 255 then Fmt.b64.nanBits
  else if a.e = 0 || b.e = 0 then acc
  else
    let p := partialSum a b
    let os := (List.range 32).filterMap fun k => if a.esc k || b.esc k then some ((a.value k).mul (b.value k)) else none
    sumTerms (Fmt.b64.value acc :: Fl.dy (decide (p < 0)) p.natAbs ((a.e : Int) + b.e - 254) :: os)

/-! ## The residue check (R480) -/

/-- `pred`: what P has to be modulo 3. -/
def residue (a b : Block) : Int :=
  ((List.range 32).map fun k => if a.esc k || b.esc k then 0 else a.mant k % 3 * (b.mant k % 3)).foldl (· + ·) 0 % 3

/-- The integer significand of an element as the Stipple unit multiplies it: a mantissa, or that of a bfloat16 outlier. -/
def Block.signif (x : Block) (k : Nat) : Int :=
  match (x.vals[k]?).getD none with
  | some v => sgn (v.testBit 15) (v % 128 + if v / 128 % 256 = 0 then 0 else 128)
  | none => x.mant k

/-- The check of a partial, and of a Stipple product, that an error has changed by `d`. -/
def checkPartial (a b : Block) (d : Int) : Bool := residue a b == (partialSum a b + d) % 3
def checkProduct (x y d : Int) : Bool := x % 3 * (y % 3) % 3 == (x * y + d) % 3

/-- What the flipped bit adds. -/
def upsetError (u : Upset) : Int := if u.down then -(2 ^ u.bit : Int) else 2 ^ u.bit

/-- The K-group at which the bit flips passes its check. -/
def upsetPasses (u : Upset) (a b : Block) : Bool :=
  match u.stip with
  | none => checkPartial a b (upsetError u)
  | some k => !(a.esc k || b.esc k) || checkProduct (a.signif k) (b.signif k) (upsetError u)

/-! ## Canvases and tiles -/

/-- A physical canvas, the tile of an allocation. -/
def Core.can (c : Core) (n : Nat) : Canvas := ((c.cans.find? fun x => x.1 == n).map (·.2)).getD {}
def Core.setCan (c : Core) (n : Nat) (x : Canvas) : Core := { c with cans := (n, x) :: c.cans.filter fun y => y.1 != n }
def Group.canAt (g : Group) (n : Nat) : Nat := (g.cans[n]?).getD 64
def Group.tileAt (g : Group) (t : Nat) : Nat := (g.tiles[t]?).getD 256
/-- The index of element (m, n) of a physical tile. -/
def tileIx (t m n : Nat) : Nat := 1024 * t + 32 * m + n

/-- A zero block. -/
def zeroBlock : Block := { e := 0, tag := 0, nesc := 0, w := 8, q := [] }

/-- Block `i` of column `n` of a canvas, of a width-16 pair under `pair` (R241, R249). -/
def Core.canBlock (c : Core) (hi lo i n : Nat) (pair : Bool) : Block :=
  let a := c.can hi
  let b := c.can lo
  let ok := if pair then a.st == .b16h && b.st == .b16l else a.st == .b8
  if !ok then zeroBlock
  else
    let cell := fun (k : Nat) =>
      let x := a.cell.get (64 * (32 * i + k) + n)
      if pair then x.toInt * 256 + (b.cell.get (64 * (32 * i + k) + n)).toNat else x.toInt
    let vals := (List.range 32).map fun k => (a.stipple.find? fun t => t.1 == 32 * i + k && t.2.1 == n).map (·.2.2.toNat)
    { e := (a.exp.get (64 * i + n)).toNat, tag := 0, nesc := 0, w := 16, q := (List.range 32).map cell, vals }

/-! ## Batches (R253) -/

/-- The open batch is closed. -/
def Batch.close (b : Batch) : Batch :=
  { b with closed := if b.left = 0 then b.closed else b.closed ++ [(b.bseq, b.left)], bseq := b.bseq + 1, nopen := 0, left := 0,
           wrote := if b.left = 0 then b.wrote.filter fun w => w.1 != b.bseq else b.wrote }
/-- A batch can be closed. -/
def Batch.canClose (b : Batch) : Bool := decide (b.closed.length < 16)
/-- An op joins the open batch; a 65th op closes it first. `none` when that has to wait. -/
def Batch.join (b : Batch) : Option Batch :=
  let b1 := if b.nopen < 64 then some b else if b.canClose then some b.close else none
  b1.map fun b => { b with nopen := b.nopen + 1, left := b.left + 1 }
/-- One op of batch `n` is complete. -/
def Batch.complete (b : Batch) (n : BitVec 16) : Batch :=
  if n = b.bseq then { b with left := b.left - 1 }
  else
    let cl := (b.closed.map fun c => if c.1 = n then (c.1, c.2 - 1) else c).filter fun c => c.2 != 0
    { b with closed := cl, wrote := b.wrote.filter fun w => w.1 == b.bseq || cl.any fun c => c.1 == w.1 }
/-- A fault of an Easel op, or pending retries, are recorded and not yet reported (R255, R481). -/
def Batch.faulted (b : Batch) : Bool := b.faults.any fun f => f.src == 0 || f.src == 2

def State.updBatch (s : State) (wid : Nat) (f : Batch → Batch) : State := s.updWave wid fun w => { w with batch := f w.batch }

/-! ## Issue (R243, R244) -/

/-- The Easel queue has room and the open batch can take an op. -/
def State.easelRoom (s : State) (c : Ctx) : Bool :=
  decide ((s.core c.w.core).easel.length < 128) && c.w.batch.join.isSome

/-- An op takes its place in the queue: after those of earlier clk, and among those of one clk by partition and lowest quad position (R243). -/
def insertOp (op : EOp) : List EOp → List EOp
  | [] => [op]
  | x :: xs => if op.key < x.key then op :: x :: xs else x :: insertOp op xs

/-- The key of an op that the part issues now. -/
def State.opKey (s : State) (c : Ctx) : Nat := 256 * (s.core c.w.core).clk.toNat + 16 * c.w.part + (c.w.qbase + lowQuad c.q)

/-- The op enters the queue and its wave's open batch, or is discarded at once after a recorded fault (R243, R255). -/
def State.enqueue (s : State) (c : Ctx) (i : Instr) (op : EOp) : State :=
  match c.w.batch.join with
  | none => s.block c i
  | some b =>
    let (id, s1) := s.newId
    let op1 := { op with oid := id, batch := b.bseq, opix := b.nopen - 1, order := c.bank.order, limit := id, key := s.opKey c }
    let s2 := if b.faulted then
        s1.updBatch c.w.wid fun _ => { b.complete b.bseq with discarded := b.discarded ++ [op1] }
      else (s1.updBatch c.w.wid fun _ => b).updCore c.w.core fun x => { x with easel := insertOp op1 x.easel }
    s2.done c i

/-- ACS_FIRST_USE (R242): the issuing context does not own the accumulator store. -/
def State.acsTrap (s : State) (c : Ctx) : Option TrapRec :=
  let own := (s.core c.w.core).acsown
  if field own 0 16 = c.g.ctx then none else some (c.trap cAcsFirstUse 0 own)

/-- What a PRIME learns of its operand: the descriptor index and the descriptor; `none` when that fault is deferred (R245). -/
def State.primeDesc (s : State) (core ctx va : Nat) : Option (Nat × Desc) :=
  match s.xlate (some core) ctx va with
  | .error _ => none
  | .ok x => (descOf (s.fdWords ctx (pteFd x.leaf))).map fun d => (pteFd x.leaf, d)

/-- The operand fills a pair (R245). -/
def Desc.isWide (d : Desc) : Bool := if d.csrc = 0 then d.wmax == 16 else d.cw == 16

/-- The parameter block of a PRIME is in range (R245). -/
def primeParOk (par : List Word) : Bool :=
  let p := fun i => ((par[i]?).getD 0).toNat
  decide (1 ≤ p 0 ∧ p 0 ≤ 64) && decide (1 ≤ p 1 ∧ p 1 ≤ 8) && p 2 == 0 && p 3 == 0

/-- The checks of a PRIME at issue, and its op. -/
def State.primeBody (s : State) (c : Ctx) (i : Instr) (can a g : Nat) : Except TrapRec State :=
  match s.acsTrap c with
  | some t => .error t
  | none =>
    let par := (List.range 4).map fun k => c.s (4 * g + k)
    let va := c.s64 (2 * a)
    let wide := match s.primeDesc c.w.core c.g.ctx va.toNat with | some (_, d) => d.isWide | none => false
    if !primeParOk par || decide (c.g.cans.length ≤ can) || (wide && (can % 2 == 1 || decide (c.g.cans.length ≤ can + 1))) then
      .error (c.trap cIllegal)
    else if !s.easelRoom c then .ok (s.block c i)
    else .ok (s.enqueue c i { oid := 0, wid := c.w.wid, gid := c.g.gid, mma := false, can, addr := va, par, batch := 0, opix := 0 })

/-- PRIME (R245). -/
def execPrime (w : BitVec 3) (k : BitVec 6) (a : BitVec 5) (g : BitVec 4) (s : State) : Host.Outcome State Fault Refusal :=
  issue (.prime w k a g) s fun c => s.primeBody c (.prime w k a g) k.toNat a.toNat g.toNat

/-- The fields of an MMA's fourth parameter (R248). -/
structure MmaPar where
  kb0 : Nat
  fd : Nat
  pair : Bool
  kc : Nat
  nsel : Nat
  zero : Nat
  m : Nat
  deriving DecidableEq, Repr

def mmaPar (x : Word) : MmaPar :=
  { kb0 := field x 20 12, fd := field x 16 4, pair := bitAt x 15, kc := field x 12 3 + 1, nsel := field x 10 2, zero := field x 6 4, m := field x 0 6 }

/-- The descriptor of an MMA's A operand: fdFD with its bases replaced (R248). -/
def State.mmaDesc (s : State) (ctx : Nat) (par : List Word) : Option Desc :=
  let p := fun i => ((par[i]?).getD 0).toNat
  (descOf (s.fdWords ctx (mmaPar ((par[3]?).getD 0)).fd)).map fun d => { d with dbase := p 0, sbase := p 1, obase := p 2 }

/-- The block positions below KBLK that an MMA uses. -/
def mmaKbs (d : Desc) (p : MmaPar) : List Nat := ((List.range (8 * p.kc)).map (p.kb0 + ·)).filter fun kb => decide (kb < d.kblk)

/-- The palette extents that an MMA reads: offset, bytes (R250). -/
def mmaExtents (d : Desc) (p : MmaPar) : List (Nat × Nat) :=
  if p.m = 0 then []
  else (mmaKbs d p).flatMap fun kb =>
    if d.csrc = 0 then
      (List.range p.m).map (fun m => (d.slotVa m kb, d.slotBytes)) ++ (List.range 32).map (fun m => (d.scaleVa m kb, 2)) ++
        (if d.esc then [(d.listVa 0 kb, 64)] else [])
    else (List.range p.m).map fun m => (d.dbase + m * 2 ^ d.dshift + 32 * kb * d.elemBytes, 32 * d.elemBytes)

/-- The checks of an MMA at issue, and its op (R244, R248, R250, R251). -/
def State.mmaBody (s : State) (c : Ctx) (i : Instr) (tile can g : Nat) : Except TrapRec State :=
  match s.acsTrap c with
  | some t => .error t
  | none =>
    let par := (List.range 4).map fun k => c.s (4 * g + k)
    let p := mmaPar (c.s (4 * g + 3))
    let step := if p.pair then 2 else 1
    let lastTile := if p.nsel = 2 then tile + 1 else tile
    match s.mmaDesc c.g.ctx par with
    | none => .error (c.trap cIllegal)
    | some d =>
      if p.nsel = 3 || p.zero != 0 || decide (32 < p.m) || (p.pair && can % 2 == 1) ||
          decide (c.g.cans.length < can + step * p.kc) || decide (c.g.tiles.length ≤ lastTile) then .error (c.trap cIllegal)
      else match [d.dbase, d.sbase, d.obase].find? fun o => o % 64 != 0 with
        | some o => .error (c.trap cAlign 0 0 (BitVec.ofNat 64 o))
        | none => match (mmaExtents d p).find? fun e => decide (c.g.psize < e.1 + e.2) with
          | some e => .error (c.trap cPerm 0 0 (BitVec.ofNat 64 e.1))
          | none =>
            if !s.easelRoom c then .ok (s.block c i)
            else .ok (s.enqueue c i { oid := 0, wid := c.w.wid, gid := c.g.gid, mma := true, can, tile, par, batch := 0, opix := 0 })

/-- MMA (R248). -/
def execMma (w : BitVec 3) (t : BitVec 8) (k : BitVec 6) (g : BitVec 4) (s : State) : Host.Outcome State Fault Refusal :=
  issue (.mma w t k g) s fun c => s.mmaBody c (.mma w t k g) t.toNat k.toNat g.toNat

/-! ## Effects -/

/-- An op has taken effect, and is counted (R488). -/
def State.opDone (s : State) (core : Nat) (op : EOp) : State :=
  ((s.count (s.ctxFunc (s.ctxOf op.wid)) 6 (panelOf core) 1).updCore core fun x => { x with easel := x.easel.filter fun o => o.oid != op.oid }).updBatch op.wid fun b => b.complete op.batch

/-- A deferred fault of an op: the trap that a BWAIT will raise. -/
def EOp.fault (op : EOp) (code sub va : Nat) : TrapRec :=
  { code := BitVec.ofNat 8 code, sub := BitVec.ofNat 8 sub, defer := true, tpc := 0,
    info := op.batch.setWidth 32 <<< 16 ||| BitVec.ofNat 32 op.opix, addr := BitVec.ofNat 64 va }

/-- A deferred fault of an op, or with `retry` its pending retry, is recorded: the op and every later op of its wave are discarded and complete
(R244, R255, R481). -/
def State.opRecord (s : State) (core : Nat) (op : EOp) (t : TrapRec) (rid : Option Nat) (retry : Bool := false) : State :=
  let later := ((s.core core).easel.dropWhile fun o => o.oid != op.oid).filter fun o => o.wid == op.wid && o.oid != op.oid && !o.again
  let gone := fun (o : EOp) => o.oid == op.oid || later.any fun x => x.oid == o.oid
  let (seq, s1) := s.newId
  let s2 := s1.updCore core fun x => { x with easel := x.easel.filter fun o => !gone o }
  s2.updBatch op.wid fun b =>
    let b1 := (op :: later).foldl (fun b o => if o.again then b else b.complete o.batch) b
    { b1 with faults := b1.faults ++ [{ trap := t, src := if op.again then 2 else 0, rid, retry, seq }], discarded := { op with rid } :: later ++ b1.discarded }

/-- The fault with which an op ends; a PAGE is reported to the host at once (R416). -/
def State.opFault (s : State) (core : Nat) (op : EOp) (f : LFault) : State :=
  let ctx := s.ctxOf op.wid
  let t := op.fault f.code 0 (if causeAddr f.code then f.va else 0)
  if f.rank = rkPage then
    let (rid, s1) := s.faultRecord (s.ctxFunc ctx) { ctx, core := (s.core core).phys, code := cPage, defer := true, va := f.va } true
    s1.opRecord core op t (some rid)
  else s.opRecord core op t none

/-- Columns `32 j` and on of an A or B block as a canvas holds them: mantissas with escaped cells 0, and the Stipple list. -/
def Block.cells (b : Block) : List Int := (List.range 32).map fun j => if ((b.vals[j]?).getD none).isSome then 0 else (b.q[j]?).getD 0

/-- The blocks of one column line range for a PRIME: for each i below NK, for each n below NC (R246). -/
def State.primeBlocks (s : State) (v : Via) (d : Desc) (n0 kb0 nc nk : Nat) : Rd (List (List Block)) :=
  (List.range nk).mapM fun i =>
    let kb := kb0 + i
    if d.csrc ≠ 0 then (List.range nc).mapM fun n => do return floatBlock (← s.takeRun v d (n0 + n) kb) d.cw
    else if d.kblk ≤ kb then return List.replicate nc zeroBlock
    else do
      let t0 := n0 / 32
      let t1 := (n0 + nc - 1) / 32
      let ts ← (List.range (t1 - t0 + 1)).mapM fun k =>
        s.takeTile v d (t0 + k) kb fun l => decide (n0 ≤ 32 * (t0 + k) + l ∧ 32 * (t0 + k) + l < n0 + nc)
      return ((List.range nc).map fun n => ((ts.flatten[n0 + n - 32 * t0]?).getD none).getD zeroBlock)

/-- Where the operand of a PRIME starts: line, block, descriptor index (R245, R246), or its deferred fault. Of several the first is recorded of
a fault of the page, an invalid descriptor, an odd canvas of a pair, and ALIGN: the spec gives deferred faults no order (DESIGN CHOICE,
log 20). -/
def State.primeStart (s : State) (core ctx : Nat) (op : EOp) : Except LFault (Nat × Nat × Nat × Desc) :=
  let va := op.addr.toNat
  match s.xlate (some core) ctx va with
  | .error .page => .error (if op.errs.contains (va / 4096) then ⟨rkPerm, cPerm, va, false⟩ else ⟨rkPage, cPage, va, false⟩)
  | .error .perm => .error ⟨rkPerm, cPerm, va, false⟩
  | .ok x =>
    if op.errs.contains (va / 4096) || !pteRd x.leaf || !pteDec x.leaf || x.isWindow then .error ⟨rkPerm, cPerm, va, false⟩
    else match descOf (s.fdWords ctx (pteFd x.leaf)) with
      | none => .error ⟨rkIllegal, cIllegal, 0, false⟩
      | some d =>
        let o := va - d.dbase
        let n0 := o / 2 ^ d.dshift
        let r := o % 2 ^ d.dshift
        let unit := if d.csrc = 0 then d.slotBytes else 32 * d.elemBytes
        if d.isWide && op.can % 2 == 1 then .error ⟨rkIllegal, cIllegal, 0, false⟩
        else if va < d.dbase || r % unit != 0 || decide (d.kblk ≤ r / unit) || (d.esc && n0 % 32 != 0) then
          .error ⟨rkAlign, cAlign, va, false⟩
        else .ok (n0, r / unit, pteFd x.leaf, d)

/-- A canvas with the cells `f k n` and exponents of its blocks. -/
def canvasOf (st : CanState) (bs : List (List Block)) (f : Int → Int) (stip : Bool) (prime : Option PrimeRec) : Canvas :=
  let put := fun (acc : Canvas) (i n : Nat) (b : Block) =>
    let cells := b.cells.mapIdx fun j q => (64 * (32 * i + j) + n, BitVec.ofInt 8 (f q))
    { acc with
      cell := cells.foldl (fun m c => m.set c.1 c.2) acc.cell
      exp := acc.exp.set (64 * i + n) (BitVec.ofNat 8 b.e)
      stipple := if stip then acc.stipple ++ (b.vals.mapIdx fun j v => (j, v)).filterMap (fun jv => jv.2.map fun x => (32 * i + jv.1, n, BitVec.ofNat 32 x))
        else acc.stipple }
  (bs.mapIdx fun i row => (i, row)).foldl (fun acc ir => (ir.2.mapIdx fun n b => (n, b)).foldl (fun acc nb => put acc ir.1 nb.1 nb.2) acc)
    { st, prime }

/-- What the part that issued the op did before it has performed (R247, R250), and whatever went to lines of other modules that it reads. -/
def State.beforeOp (s : State) (op : EOp) (hit : Access → Bool) (ks : List Nat := []) : State :=
  (neededBefore op.wid false op.order hit ks (s.inflight.filter fun a => a.id < op.limit)).foldl State.performAll s

/-- The same until nothing is left that the bytes which the op then reads wait for. -/
def State.settleOp (op : EOp) (hit : Access → Bool) (f : State → List Nat) : Nat → State → State
  | 0, s => s
  | n + 1, s =>
    let t := s.beforeOp op hit (f s)
    if t.inflight.length = s.inflight.length then t else State.settleOp op hit f n t

/-- The canvas of a PRIME that faults, or its pair, is FAILED (R246). -/
def State.failCanvas (s : State) (core : Nat) (g : Group) (can : Nat) (wide : Bool) : State :=
  s.updCore core fun x =>
    let y := x.setCan (g.canAt can) { st := .failed }
    if wide then y.setCan (g.canAt (can + 1)) { st := .failed } else y

/-- A PRIME fills a pair, as far as its page tells now (R245). -/
def State.fillsPair (s : State) (g : Group) (op : EOp) : Bool :=
  match s.primeDesc g.core g.ctx op.addr.toNat with | some (_, d) => d.isWide && op.can % 2 == 0 | none => false

/-- The bytes that a PRIME reads, on its way past the slices (R315). -/
def State.primeReads (s : State) (core : Nat) (ctx : Nat) (ks : List Spot) : State :=
  (s.readLines { core := some core, func := s.ctxFunc ctx } core .slice ks).unservedAt ctx (some core) false ks

/-- What a PRIME does at the head of the queue of a core (R245, R246). It reads its whole operand at this one moment, so that of two stores which
race with it the later is never seen without the earlier (R247; DESIGN CHOICE, log 23). A width-16 operand whose class was not known at issue and whose pair ends
beyond the allocation loses its low plane (DESIGN CHOICE, log 40). -/
def State.primeEffect (s : State) (core : Nat) (op : EOp) (g : Group) : State :=
  let nc := ((op.par[0]?).getD 0).toNat
  let nk := ((op.par[1]?).getD 0).toNat
  let reads := fun (t : State) => match t.primeStart core g.ctx op with
    | .ok (n0, kb0, _, d) => ((t.primeBlocks { ctx := g.ctx, core := some core, errs := op.errs } d n0 kb0 nc nk).eval.2).map (·.key)
    | .error _ => []
  let s1 := State.settleOp op (fun a => a.isMem core) reads (s.inflight.length + 1) s
  let wide := s1.fillsPair g op
  let failed := fun (f : LFault) => (s1.opFault core { op with wide } f).failCanvas core g op.can wide
  match s1.primeStart core g.ctx op with
  | .error f => failed f
  | .ok (n0, kb0, fd, d) =>
    let r := (s1.primeBlocks { ctx := g.ctx, core := some core, errs := op.errs } d n0 kb0 nc nk).eval
    match r.1 with
    | .error f => failed f
    | .ok bs =>
      let idx := ((s1.wave? op.wid).map (·.idx)).getD 0
      let pr : PrimeRec := { addr := op.addr, nc, nk, fd, batch := op.batch, opix := op.opix, wave := idx }
      let s2 := (s1.primeReads core g.ctx r.2).updCore core fun x =>
        if d.isWide then
          (x.setCan (g.canAt op.can) (canvasOf .b16h bs (fun q => q / 256) true (some pr))).setCan (g.canAt (op.can + 1))
            (canvasOf .b16l bs (fun q => q % 256) false none)
        else x.setCan (g.canAt op.can) (canvasOf .b8 bs id true (some pr))
      if op.again then s2.updCore core fun x => { x with easel := x.easel.filter fun o => o.oid != op.oid } else s2.opDone core op

/-- PRIME_TAKES_EFFECT (R243, R246): the head of the queue of a core. -/
def execPrimeTakesEffect (core : Nat) (s : State) : Host.Outcome State Fault Refusal :=
  match (s.core core).easel with
  | [] => .next s
  | op :: _ => match s.group? op.gid with
    | none => .next s
    | some g => if op.mma || op.rid.isSome then .next s else .next (s.primeEffect core op g)

/-- The A blocks of an MMA: for each block position the blocks of rows 0 to M - 1 (R249). -/
def State.mmaRows (s : State) (v : Via) (d : Desc) (p : MmaPar) : Rd (List (Nat × List Block)) :=
  (mmaKbs d p).mapM fun kb =>
    if d.csrc ≠ 0 then do
      let rows ← (List.range p.m).mapM fun m => do return floatBlock (← s.takeRun v d m kb) d.cw
      return (kb, rows)
    else do
      let bs ← s.takeTile v d 0 kb fun l => decide (l < p.m)
      return (kb, bs.map fun b => b.getD zeroBlock)

/-- The target tiles of an MMA with the first canvas column of each (R248). -/
def mmaTargets (tile : Nat) (p : MmaPar) : List (Nat × Nat) :=
  match p.nsel with | 0 => [(tile, 0)] | 1 => [(tile, 32)] | _ => [(tile, 0), (tile + 1, 32)]

/-- The K-groups of one element of an MMA in their order: the A block of row `m`, the B block of column `col` (R249). -/
def mmaSteps (x : Core) (g : Group) (op : EOp) (d : Desc) (p : MmaPar) (rows : List (Nat × List Block)) (m col : Nat) : List (Block × Block) :=
  let step := if p.pair then 2 else 1
  (List.range (8 * p.kc)).map fun k =>
    let kb := p.kb0 + k
    let a := if kb < d.kblk then (((rows.find? fun r => r.1 == kb).map fun r => (r.2[m]?).getD zeroBlock)).getD zeroBlock else zeroBlock
    let c := op.can + step * (k / 8)
    (a, x.canBlock (g.canAt c) (g.canAt (c + 1)) (k % 8) col p.pair)

/-- One element after an MMA (R249). -/
def mmaElem (x : Core) (g : Group) (op : EOp) (d : Desc) (p : MmaPar) (rows : List (Nat × List Block)) (acc m col : Nat) : Nat :=
  (mmaSteps x g op d p rows m col).foldl (fun acc ab => easelStep acc ab.1 ab.2) acc

/-- An element before an op and after each of its K-groups. -/
def mmaRun : List (Block × Block) → Nat → List Nat
  | [], acc => [acc]
  | ab :: r, acc => acc :: mmaRun r (easelStep acc ab.1 ab.2)

/-- The elements of the target tiles of an MMA, each with its values from before the op to after it. One that an ACCZ or ACCWR wrote meanwhile takes
the K-groups from any one on, or none (R261). -/
def State.mmaCells (s : State) (core : Nat) (g : Group) (op : EOp) (d : Desc) (rows : List (Nat × List Block)) : List (Nat × List DWord) :=
  let x := s.core core
  let p := mmaPar ((op.par[3]?).getD 0)
  (mmaTargets op.tile p).flatMap fun t => (List.range p.m).flatMap fun m => (List.range 32).map fun n =>
    let ix := tileIx (g.tileAt t.1) m n
    let st := mmaSteps x g op d p rows m (n + t.2)
    let from' := if op.raced.contains ix then Config.pick s.fresh ix % (st.length + 1) else 0
    (ix, (mmaRun (st.drop from') (x.tiles.get ix).toNat).map (BitVec.ofNat 64))

/-- Every check of the op passes (R480): an error-free sum always does, so only the place of the upset is looked at. -/
def State.mmaPasses (s : State) (core : Nat) (g : Group) (op : EOp) (d : Desc) (rows : List (Nat × List Block)) : Option Upset → Bool
  | none => true
  | some u =>
    let p := mmaPar ((op.par[3]?).getD 0)
    match (mmaTargets op.tile p)[u.tile]? with
    | none => true
    | some t =>
      if p.m ≤ u.row ∨ 32 ≤ u.col then true
      else match (mmaSteps (s.core core) g op d p rows u.row (u.col + t.2))[u.step]? with
        | none => true
        | some ab => upsetPasses u ab.1 ab.2

/-- Counts of an MMA that takes effect: K-group steps, Stipple products (R488). -/
def State.countMma (s : State) (core : Nat) (g : Group) (op : EOp) (d : Desc) (rows : List (Nat × List Block)) : State :=
  let p := mmaPar ((op.par[3]?).getD 0)
  let els := (mmaTargets op.tile p).flatMap fun t => (List.range p.m).flatMap fun m => (List.range 32).map fun n => (m, n + t.2)
  let stip := els.foldl (fun acc e => (mmaSteps (s.core core) g op d p rows e.1 e.2).foldl (fun acc ab =>
    if ab.1.plain && ab.2.plain then acc + ((List.range 32).filter fun k => ab.1.esc k || ab.2.esc k).length else acc) acc) 0
  let f := s.ctxFunc g.ctx
  (s.count f 7 (panelOf core) (8 * p.kc * els.length)).count f 8 (panelOf core) stip

/-- The effect of an MMA that passes its checks: its tiles, and what they held on the way while its batch is not complete (R249, R261). -/
def State.mmaWrite (s : State) (core : Nat) (op : EOp) (g : Group) (d : Desc) (rows : List (Nat × List Block)) : State :=
  let p := mmaPar ((op.par[3]?).getD 0)
  let cells := s.mmaCells core g op d rows
  let s1 := State.updCore { s.countMma core g op d rows with fresh := s.fresh + 1 } core fun y => y.putCells (cells.map fun c => (c.1, c.2.getLastD 0))
  let s2 := if op.misses = 0 then s1 else s1.corrected 3 (panelOf core)
  let marks := if p.m = 0 then [] else (mmaTargets op.tile p).map fun t =>
    let x := g.tileAt t.1
    (op.batch, x, cells.filter fun c => c.1 / 1024 == x)
  (s2.updBatch op.wid fun b => { b with wrote := b.wrote ++ marks }).opDone core op

/-- The record of pending retries: it raises no trap (R481). -/
def EOp.retry (op : EOp) : TrapRec := op.fault 0 0 0

/-- An op mismatched (R481): it stays at the head, to be retried from its inputs; the third mismatch in succession, and the eighth op within
2^24 clk, wear out the core, whose op becomes a pending retry with the later ops of its wave. So it does at the first mismatch while its
group drains. -/
def State.mismatch (s : State) (core : Nat) (op : EOp) (g : Group) : State :=
  let c := s.core core
  let now := c.clk.toNat
  let old := c.misses.filter fun t => decide (now < t + 2 ^ 24)
  let ms := if op.misses = 0 then old ++ [now] else old
  let worn := decide (2 ≤ op.misses) || decide (8 ≤ ms.length)
  let drain := match g.state with | .draining _ => true | _ => false
  let s1 := s.updCore core fun x =>
    { x with misses := ms, worn := x.worn || worn, easel := x.easel.map fun o => if o.oid == op.oid then { o with misses := o.misses + 1 } else o }
  let s2 := if worn && !c.worn then
      (s1.faultRecord 0 { ctx := g.ctx, core := c.phys, code := 0x40, sub := 2, aux := BitVec.ofNat 64 (g.canAt op.can) ||| place 64 (op.misses + 1) 16 } false).2
    else s1
  if worn || drain then s2.opRecord core { op with misses := 0 } op.retry none true else s2

/-- What an MMA does at the head of the queue of a core (R243, R249, R480). Its descriptor is read anew; while it is invalid the op does not
take effect (DESIGN CHOICE, log 40). It reads its operands at this one moment (R250; DESIGN CHOICE, log 23). -/
def State.mmaEffect (s : State) (core : Nat) (op : EOp) (g : Group) (upset : Option Upset) : State :=
  match s.mmaDesc g.ctx op.par with
  | none => s
  | some d =>
    let p := mmaPar ((op.par[3]?).getD 0)
    let s1 := s.beforeOp op fun a => a.isPal core
    match (if p.m = 0 then .ok [] else (s1.mmaRows { ctx := g.ctx, core := some core, pal := some (core, g.pbase) } d p).eval.1) with
    | .error f => s1.opFault core op f
    | .ok rows => if s1.mmaPasses core g op d rows upset then s1.mmaWrite core op g d rows else s1.mismatch core op g

/-- The bit that flips in the next MMA of a core. -/
def State.upsetOf (s : State) (core : Nat) : Option Upset := (s.upsets.find? fun u => u.1 == core).map (·.2)

/-- MMA_TAKES_EFFECT (R243, R249, R480, R481): an error in its arithmetic is one that the outside brings, which the check may find. -/
def execMmaTakesEffect (core : Nat) (s : State) : Host.Outcome State Fault Refusal :=
  match (s.core core).easel with
  | [] => .next s
  | op :: _ => match s.group? op.gid with
    | none => .next s
    | some g =>
      if !op.mma || op.rid.isSome then .next s
      else .next ({ s with upsets := s.upsets.eraseP fun u => u.1 == core }.mmaEffect core op g (s.upsetOf core))

/-- The elements that the first `n` ops of the queue would write, each with its values on the way (R261). -/
def State.aheadCells (core : Nat) : Nat → State → List (Nat × List DWord)
  | 0, _ => []
  | n + 1, s => match (s.core core).easel with
    | [] => []
    | op :: _ => match s.group? op.gid with
      | none => []
      | some g =>
        if op.rid.isSome then []
        else if op.mma then
          let t := s.beforeOp op fun a => a.isPal core
          (match t.mmaDesc g.ctx op.par with
            | some d => (match (t.mmaRows { ctx := g.ctx, core := some core, pal := some (core, g.pbase) } d (mmaPar ((op.par[3]?).getD 0))).eval.1 with
              | .ok rows => t.mmaCells core g op d rows
              | .error _ => [])
            | none => []) ++ State.aheadCells core n (s.mmaEffect core op g none)
        else State.aheadCells core n (s.primeEffect core op g)

/-! ## MFENCE and BWAIT (R253 to R255) -/

/-- The earliest recorded Easel fault whose batch is complete (R255). -/
def Batch.report (b : Batch) : Option DFault :=
  b.faults.find? fun f => (f.src == 0 || f.src == 2) && !f.retry && (let n : BitVec 16 := bits f.trap.info 16 16
    f.src == 2 || (n != b.bseq && !b.closed.any fun c => c.1 == n))

/-- Pending retries are left, which a restore will enqueue (R481). -/
def Batch.retrying (b : Batch) : Bool := b.faults.any (·.retry)
/-- At most `n` closed batches remain, and no op that a retirement has discarded waits to be retried (R254, R481). -/
def Batch.downTo (b : Batch) (n : Nat) : Bool := decide (b.closed.length ≤ n) && !b.retrying

/-- The ops that a PAGE discarded, or that a retirement left to be retried, enter the queue again, in their order and batches (R255, R481). They
do so at once, also where the queue then holds more than 128 ops or the wave more than 16 closed batches: the spec does not say what happens
then (DESIGN CHOICE, log 40). -/
def State.replayOps (s : State) (w : Wave) : State :=
  if !w.batch.replay then s
  else
    let ops := w.batch.discarded
    let nums := ((ops.filter fun o => o.batch != w.batch.bseq && !o.again).map (·.batch)).eraseDups
    let count := fun (n : BitVec 16) => (ops.filter fun o => o.batch == n && !o.again).length
    let b := { w.batch with replay := false, discarded := [], left := w.batch.left + count w.batch.bseq,
                            closed := nums.map (fun n => (n, count n)) ++ w.batch.closed }
    (s.updBatch w.wid fun _ => b).updCore w.core fun x => { x with easel := x.easel ++ ops }

/-- The fault that a BWAIT reports: a trap at it, and what the report leaves of the fault (R255). -/
def State.reportFault (s : State) (c : Ctx) (f : DFault) : State :=
  let w := s.waveOf c
  let page := f.trap.code.toNat = cPage
  let gone := if page then [] else w.batch.discarded.take 1
  let s1 := s.updBatch w.wid fun b =>
    { b with faults := b.faults.erase f, replay := page, discarded := if page then b.discarded else [] }
  let s2 := gone.foldl (fun t op => if op.mma then t else t.updCore w.core fun x =>
    let clean := fun (x : Core) (n : Nat) => if (x.can (c.g.canAt n)).st == .failed then x.setCan (c.g.canAt n) {} else x
    if op.wide then clean (clean x op.can) (op.can + 1) else clean x op.can) s1
  s2.raise c { f.trap with tpc := c.pc }

/-- A BWAIT whose wait is satisfied applies R255. -/
def State.bwaitEnd (s : State) (c : Ctx) (i : Instr) : State :=
  match (s.waveOf c).batch.report with
  | some f => s.reportFault c f
  | none => s.done c i

/-- A BWAIT waits until at most `n` closed batches remain. -/
def State.bwaitGo (s : State) (c : Ctx) (i : Instr) (n : Nat) : State :=
  let s1 := s.replayOps (s.waveOf c)
  if (s1.waveOf c).batch.downTo n then s1.bwaitEnd c i else s1.block { c with w := s1.waveOf c } i

/-- BWAIT n (R254). -/
def execBwait (w : BitVec 3) (n : BitVec 4) (s : State) : Host.Outcome State Fault Refusal :=
  issue (.bwait w n) s fun c => .ok (s.bwaitGo c (.bwait w n) n.toNat)

/-- BWAIT.all (R254): the open batch is closed first; then it waits as BWAIT 0 does. One that is executed again, after a fault that it
reported, closes a batch again (DESIGN CHOICE, log 40). -/
def execBwaitAll (w : BitVec 3) (s : State) : Host.Outcome State Fault Refusal :=
  issue (.bwaitAll w) s fun c =>
    if c.w.batch.canClose then .ok ((s.updBatch c.w.wid Batch.close).bwaitGo c (.bwait w 0) 0) else .ok (s.block c (.bwaitAll w))

/-- BWAIT_WAIT_END (R255). -/
def execBwaitWaitEnd (who : Issuer) (s : State) : Host.Outcome State Fault Refusal :=
  match s.blockedAt who with
  | some (c, .bwait w n) => .next (if c.w.batch.downTo n.toNat then s.bwaitEnd c (.bwait w n) else s)
  | _ => .next s

/-- MFENCE (R253). -/
def execMfence (w : BitVec 3) (s : State) : Host.Outcome State Fault Refusal :=
  issue (.mfence w) s fun c =>
    if c.w.batch.canClose then .ok ((s.updBatch c.w.wid Batch.close).done c (.mfence w)) else .ok (s.block c (.mfence w))

end Sys2Proof.Machine
end

