-- ==== Sys2Proof/Machine/Quant.lean ====
section
/-!
DEFINITION. The accumulator tiles as instructions see them (08 R256 to R261), the tensor scales and the drain (02 R72), quantising
(02 R73 to R77) and the block instructions (08 R262 to R265).
-/
namespace Sys2Proof.Machine

/-! ## Accumulator tiles (R256, R257, R261) -/

/-- The lane windows of a part (R242). -/
def Ctx.windows (c : Ctx) : Nat := (c.pwidth + 31) / 32
/-- Wave lane of part lane `j` of window `i`. -/
def Ctx.winLane (c : Ctx) (i j : Nat) : Nat := 4 * c.part + 32 * i + j

/-- The physical tiles that an op of the group writes: none with M = 0 (R251). -/
def EOp.targets (o : EOp) (g : Group) : List Nat :=
  let p := mmaPar ((o.par[3]?).getD 0)
  if o.mma && p.m != 0 then (mmaTargets o.tile p).map fun t => g.tileAt t.1 else []

/-- An op enqueued earlier writes the tile, and its batch is not complete (R261). -/
def State.racing (s : State) (c : Ctx) (t : Nat) : Bool :=
  ((s.core c.w.core).easel.any fun o => o.gid == c.g.gid && (o.targets c.g).contains t) ||
    (s.wavesOf c.g.gid).any fun w => w.batch.wrote.any fun x => x.2.1 == t

/-- The tiles `t` to `t + n - 1` of the allocation; `none` beyond it. -/
def Ctx.tilesAt (c : Ctx) (t n : Nat) : Option (List Nat) :=
  if c.g.tiles.length < t + n then none else some ((List.range n).map fun i => c.g.tileAt (t + i))

/-- Writes elements of tiles. An op enqueued earlier may still add any number of its last K-groups to them; what they held on the way before is
gone (R261). -/
def State.accWrite (s : State) (c : Ctx) (ts : List Nat) (cells : List (Nat × DWord)) : State :=
  let s1 := s.updCore c.w.core fun y => y.putCells cells
  let hot := ts.filter (s.racing c)
  if hot.isEmpty then s1
  else
    let ixs := cells.map (·.1)
    let s2 := s1.updCore c.w.core fun y =>
      { y with easel := y.easel.map fun o => if o.gid == c.g.gid && (o.targets c.g).any hot.contains then { o with raced := o.raced ++ ixs } else o }
    { s2 with waves := s2.waves.map fun w => if w.gid != c.g.gid then w else { w with batch := { w.batch with
        wrote := w.batch.wrote.map fun m => (m.1, m.2.1, m.2.2.filter fun x => !ixs.contains x.1) } } }

/-- The values that an element may show: as it stands, and as it stood or will stand on the way of an op whose batch is not complete (R261). -/
def State.racingValues (s : State) (c : Ctx) (ix : Nat) : List DWord :=
  let on := fun (xs : List (Nat × List DWord)) => (xs.filter fun x => x.1 == ix).flatMap (·.2)
  (s.core c.w.core).tiles.get ix :: ((s.wavesOf c.g.gid).flatMap fun w => w.batch.wrote.flatMap fun m => on m.2.2) ++
    on (State.aheadCells c.w.core (s.core c.w.core).easel.length s)

/-- The elements of tiles as an instruction reads them now: where an op races with it, any of the values on its way (R261). -/
def State.accRead (s : State) (c : Ctx) (ts : List Nat) : (Nat → Nat) × State :=
  let hot := ts.filter (s.racing c)
  let m := (s.core c.w.core).tiles
  (fun ix => if hot.contains (ix / 1024) then
      (let xs := s.racingValues c ix
       ((xs[Config.pick s.fresh ix % xs.length]?).getD 0).toNat)
    else (m.get ix).toNat,
   if hot.isEmpty then s else { s with fresh := s.fresh + 1 })

/-- The checks that precede any effect on the tiles: ACS_FIRST_USE (R242), then a tile beyond the allocation. -/
def State.withTiles (s : State) (c : Ctx) (t n : Nat) (go : List Nat → Except TrapRec State) : Except TrapRec State :=
  match s.acsTrap c with
  | some x => .error x
  | none => match c.tilesAt t n with
    | none => .error (c.trap cIllegal)
    | some ts => go ts

/-- ACCZ (R256). -/
def execAccz (w : BitVec 3) (t n : BitVec 8) (s : State) : Host.Outcome State Fault Refusal :=
  let i := Instr.accz w t n
  issue i s fun c => s.withTiles c t.toNat (n.toNat + 1) fun ts =>
    .ok ((s.accWrite c ts (ts.flatMap fun x => (List.range 1024).map fun k => (1024 * x + k, 0))).done c i)

/-- ACCWR (R257). -/
def execAccwr (w : BitVec 3) (t : BitVec 8) (r : BitVec 7) (f : BitVec 1) (s : State) : Host.Outcome State Fault Refusal :=
  let i := Instr.accwr w t r f
  issue i s fun c => s.withTiles c t.toNat c.windows fun ts =>
    let val := fun (m l : Nat) => if f = 1 then pair64 (c.v (r.toNat + 2 * m) l) (c.v (r.toNat + 2 * m + 1) l)
      else BitVec.ofNat 64 (Fmt.b64.round .rne false false (Fmt.b32.value (c.v (r.toNat + m) l).toNat))
    let cells := (List.range c.windows).flatMap fun k =>
      ((List.range 32).filter fun n => bitAt c.m0 (c.winLane k n)).flatMap fun n =>
        (List.range 32).map fun m => (tileIx (c.g.tileAt (t.toNat + k)) m n, val m (c.winLane k n))
    .ok ((s.accWrite c ts cells).done c i)

/-- SETSC.a (R258). -/
def execSetscA (w : BitVec 3) (a : BitVec 6) (s : State) : Host.Outcome State Fault Refusal :=
  issueWave (.setscA w a) s fun c => c.setBank c.w fun b => { b with sca := c.s a.toNat }
/-- SETSC.b (R258). -/
def execSetscB (w : BitVec 3) (a : BitVec 6) (s : State) : Host.Outcome State Fault Refusal :=
  issueWave (.setscB w a) s fun c => c.setBank c.w fun b => { b with scb := c.s a.toNat }

/-! ## The drain (R72) -/

/-- The product of the tensor scales of the part. -/
def Ctx.scale (c : Ctx) : Fl := (Fmt.b32.value c.bank.sca.toNat).mul (Fmt.b32.value c.bank.scb.toNat)

/-- An accumulator value drained into a type (R55: integers saturate). -/
def drain (sc : Fl) (t : Ty) (m : Rnd) (x : Nat) : Nat :=
  let y := (Fmt.b64.value x).mul sc
  if t.isInt then intRound m t y else t.fmt.round m false false y

/-- The rounding of a drain in lane `k`; under RS each lane draws its own bits, column n of a drain to memory as lane n (R57, log 40). -/
def State.drainRnd (s : State) (r : BitVec 3) (k : Nat) : Rnd := Rnd.ofCode r (if r = 4 then (Config.randomBits (s.fresh + k)).toNat else 0)
/-- The state after a drain in `n` lanes. -/
def State.drainDrawn (s : State) (r : BitVec 3) (n : Nat) : State := if r = 4 then { s with fresh := s.fresh + n } else s

/-- Element `ix` of the tiles as a part drains it; a poisoned tile reads 0xff in every byte (R477). -/
def State.drainElem (s : State) (c : Ctx) (x : Nat → Nat) (t : Ty) (m : Rnd) (ix : Nat) : Nat :=
  if (s.core c.w.core).bad.contains (ix / 1024) then 2 ^ t.bits - 1 else drain c.scale t m (x ix)

/-- ACCRD to registers (R259). -/
def execAccrdReg (r w : BitVec 3) (t : BitVec 8) (d : BitVec 7) (l : BitVec 4) (f : BitVec 1) (s : State) : Host.Outcome State Fault Refusal :=
  let i := Instr.accrdReg r w t d l f
  issue i s fun c => s.withTiles c t.toNat c.windows fun ts =>
    let (x, s1) := s.accRead c ts
    let ty : Ty := if f = 1 then .f64 else .f32
    let vres := (List.range c.windows).flatMap fun k =>
      ((List.range 32).filter fun n => bitAt c.m0 (c.winLane k n)).flatMap fun n => (List.range 32).flatMap fun m =>
        let ln := c.winLane k n
        let y := s1.drainElem c x ty (s1.drainRnd r ln) (tileIx (c.g.tileAt (t.toNat + k)) m n)
        (elemWords ty y).mapIdx fun j z => (64 * (d.toNat + ty.regs * m + j) + ln, z)
    .ok ((s1.drainDrawn r 64).pendNew c i l vres [])

/-! ## Quantising one block (R74, R75) -/

/-- A quantised block: its slot as a number, exponent, tag, elected elements in scan order with their values, and whether a
candidate was clamped. -/
structure QBlock where
  slot : Nat
  e : Nat
  tag : Nat
  elected : List (Nat × Nat)
  clamped : Bool
  deriving DecidableEq, Repr

/-- The magnitude of a binary32 value in units of 2^-149. -/
def mag32 : Fl → Nat
  | .fin _ n d => roundUnits .rtz false n d (-149)
  | _ => 0

/-- Election (R74) over the candidates in order: elected and clamped elements; `none` when the list is full under FAULT (R77). -/
def elect (d : Desc) (mags : List Nat) (count : Nat) : List Nat → List Nat → List Nat → Option (List Nat × List Nat)
  | [], el, cl => some (el, cl)
  | k :: ks, el, cl =>
    let mag := fun (j : Nat) => (mags[j]?).getD 0
    let m := (((List.range 32).filter fun j => j != k && !el.contains j && !cl.contains j).map mag).foldl max 0
    if m = 0 || decide (mag k ≤ 2 ^ d.elr * m) then some (el, cl)
    else if d.bbud ≤ el.length then some (el, cl)
    else if count + el.length < 16 then elect d mags count ks (k :: el) cl
    else if d.clamp then elect d mags count ks el (k :: cl)
    else none

/-- The mantissa's magnitude under exponent E, before saturation. -/
def qMag (e m : Nat) : Nat := roundNat .rne false m (2 ^ (e + 22))
/-- The largest magnitude of a mantissa of width `w`. -/
def qTop (w : Nat) : Nat := 2 ^ (w - 1) - 1
/-- E_w for the largest kept magnitude (R75). -/
def qExp (top w : Nat) : Nat := (((List.range 254).map (· + 1)).find? fun e => decide (qMag e top ≤ qTop w)).getD 254

/-- Width `w` meets the bound of AUTO (R75). -/
def qMeets (d : Desc) (kept : List Nat) (w : Nat) : Bool :=
  let top := kept.foldl max 0
  let e := qExp top w
  kept.all fun m => let q := min (qMag e m) (qTop w) * 2 ^ (e + 22)
                    decide ((max m q - min m q) * 2 ^ d.ebnd ≤ top)

/-- The tags in the order in which AUTO tries them. -/
def Desc.tags (d : Desc) : List Nat :=
  let w := fun (t : Nat) => (d.widths[t]?).getD 2
  sortBy (fun a b => decide (w a < w b ∨ (w a = w b ∧ a ≤ b))) [0, 1, 2, 3]
/-- The widest tag, with ties to the lower. -/
def Desc.widest (d : Desc) : Nat := ([0, 1, 2, 3].find? fun t => (d.widths[t]?).getD 2 == d.wmax).getD 0

/-- Mantissas as a slot. -/
def packSlot (w : Nat) (q : List Int) : Nat := (q.mapIdx fun j x => wrapInt w x * 2 ^ (j * w)).foldl (· + ·) 0

/-- One block quantised by R74 to R77: `tag` is none under AUTO. -/
def quantise (d : Desc) (tag : Option Nat) (count : Nat) (xs : List Fl) : Option QBlock :=
  let plain := fun (e : Nat) => some ({ slot := 0, e, tag := tag.getD (d.tags.headD 0), elected := [], clamped := false } : QBlock)
  if xs.any fun x => x.isNan || x.isInf then plain 255
  else if xs.all Fl.isZero then plain 0
  else
    let mags := xs.map mag32
    let mag := fun (j : Nat) => (mags[j]?).getD 0
    let order := sortBy (fun a b => decide (mag b < mag a ∨ (mag a = mag b ∧ a ≤ b))) (List.range 32)
    match (if d.esc then elect d mags count order [] [] else some ([], [])) with
    | none => none
    | some (el, cl) =>
      let kept := ((List.range 32).filter fun j => !el.contains j && !cl.contains j).map mag
      let t := tag.getD ((d.tags.find? fun t => qMeets d kept ((d.widths[t]?).getD 2)).getD d.widest)
      let w := (d.widths[t]?).getD 2
      let e := qExp (kept.foldl max 0) w
      let q := xs.mapIdx fun j x => if el.contains j then escCode w else sgn x.neg? (min (qMag e (mag j)) (qTop w))
      let vals := ((List.range 32).filter el.contains).map fun j => (j, Fmt.bf16.round .rne false false ((xs[j]?).getD .zero))
      some { slot := packSlot w q, e, tag := t, elected := vals, clamped := !cl.isEmpty }

/-- The scale word of a block (R61). -/
def QBlock.scale (b : QBlock) : Nat :=
  let x := 256 * b.e + 64 * b.tag + 2 * b.elected.length
  if evenParity x then x else x + 1

/-- The stores of a block at line `n`, position `kb`, with `count` entries before it (R76): address, size, data. -/
def QBlock.stores (b : QBlock) (d : Desc) (n kb count : Nat) : List (Nat × Nat × Nat) :=
  ((List.range d.wmax).map fun k => (d.slotVa n kb + 4 * k, 4, b.slot / 2 ^ (32 * k) % 2 ^ 32)) ++ [(d.scaleVa n kb, 2, b.scale)] ++
    b.elected.mapIdx fun k x => (d.listVa (n / 32) kb + 4 * (count + k), 4, 65536 * x.2 + 64 * (n % 32 * 32 + x.1) + 1)

/-- What quantising several blocks gives: zeroing stores of lists, other stores, QTC's fields after it, and whether the list was full. -/
structure QState where
  clears : List (Nat × Nat × Nat) := []
  puts : List (Nat × Nat × Nat) := []
  blk : Nat
  count : Nat
  clamped : Bool := false
  full : Bool := false
  deriving DecidableEq, Repr

/-- What a block would write and cannot, for want of room in its list: its slot, its scale word, the entries from `count` on. Nothing is stored,
but they are translated first (R262 step 3). -/
def Desc.blockSpans (d : Desc) (n kb count : Nat) : List (Nat × Nat × Nat) :=
  ((List.range d.wmax).map fun k => (d.slotVa n kb + 4 * k, 4, 0)) ++ [(d.scaleVa n kb, 2, 0)] ++
    (List.range (16 - count)).map fun k => (d.listVa (n / 32) kb + 4 * (count + k), 4, 0)

/-- The next block, of line `n` (R76). A block that finds the list full leaves 16 entries before the next block of its tile; after line 31 a new tile
starts all the same, and what the next block would write there is translated too (R262 step 3). -/
def QState.block (q : QState) (d : Desc) (tag : Option Nat) (n kb : Nat) (xs : List Fl) : QState :=
  let last := q.blk == 31
  let blk := if last then 0 else q.blk + 1
  let count := fun (n : Nat) => if last then 0 else n
  match quantise d tag q.count xs with
  | none => { q with blk, count := count 16, full := true, puts := q.puts ++ d.blockSpans n kb q.count }
  | some b =>
    let clear := if d.esc && q.blk = 0 && q.count = 0 then (List.range 16).map fun k => (d.listVa (n / 32) kb + 4 * k, 4, 0) else []
    { q with clears := q.clears ++ clear, puts := q.puts ++ b.stores d n kb q.count, blk, count := count (q.count + b.elected.length),
             clamped := q.clamped || b.clamped }

/-! ## Instructions on whole parts -/

/-- Like `State.lanewise` for an access that belongs to the whole part: a PAGE parks the part, and a fault names its lanes. -/
def State.wholewise {α : Type} (s : State) (c : Ctx) (i : Instr) (ps : List (Nat × Except LFault α))
    (go : List (Nat × α) → Except TrapRec State) : Except TrapRec State :=
  match c.firstFault ps false with
  | some t => .error { t with mask := if causeMask t.code.toNat then c.m0 else 0 }
  | none => match pageLanes ps with
    | [] => (go (okLanes ps)).map fun t => t.done c i
    | bad => .ok (s.park c i bad 0 true)

/-- The block that an address names (steps 1 and 2 of R262): its descriptor, line and position; `miss` is the fault of a page that
holds no blocks. -/
def State.blockAt (s : State) (c : Ctx) (va : Nat) (miss : LFault) : Except LFault (Desc × Nat × Nat) :=
  match s.xlate (some c.w.core) c.g.ctx va with
  | .error .perm => .error ⟨rkPerm, cPerm, va, false⟩
  | .error .page => .error (if c.erred va then ⟨rkPerm, cPerm, va, false⟩ else ⟨rkPage, cPage, va, false⟩)
  | .ok x =>
    if c.erred va then .error ⟨rkPerm, cPerm, va, false⟩
    else match descOf (s.fdWords c.g.ctx (pteFd x.leaf)) with
      | none => .error ⟨rkIllegal, cIllegal, 0, false⟩
      | some d =>
        let o := va - d.dbase
        let r := o % 2 ^ d.dshift
        if !pteDec x.leaf || d.csrc ≠ 0 then .error miss
        else if va < d.dbase || r % d.slotBytes ≠ 0 || decide (d.kblk ≤ r / d.slotBytes) then .error ⟨rkAlign, cAlign, va, false⟩
        else .ok (d, o / 2 ^ d.dshift, r / d.slotBytes)

/-- The pieces of stores of the part: address, size, data. -/
def State.storePieces (s : State) (c : Ctx) (ws : List (Nat × Nat × Nat)) : List (Nat × Except LFault (Piece × Xlat)) :=
  ws.mapIdx fun k x =>
    (4 * c.part, (s.probe c x.1 x.2.1 .wr true).map fun y =>
      (({ k, lane := 4 * c.part, addr := y.key, n := x.2.1, x := BitVec.ofNat 64 x.2.2, va := x.1, home := y.home } : Piece), y))

/-- Relaxed stores of the part are in flight. -/
def State.storePart (s : State) (c : Ctx) (ps : List (Piece × Xlat)) : State :=
  let (id, s1) := s.newId
  s1.launchAccess { id, wid := c.w.wid, quads := c.q, order := c.bank.order, hnd := c.hnd, kind := .store, pieces := ps.map (·.1),
                    pages := pagesOf c.g.ctx (ps.map fun y => (y.1.va, y.2)) }

/-- The stores of quantised blocks, their faults (steps 3 and 4 of R262), then `fin`; lists are cleared before the rest. -/
def State.quantStores (s : State) (c : Ctx) (i : Instr) (va : Nat) (q : QState) (fin : State → State) : Except TrapRec State :=
  let ps := s.storePieces c (q.clears ++ q.puts)
  s.wholewise c i ps fun ok =>
    if q.full then .error (c.trap cOutlierFull 0 0 (BitVec.ofNat 64 va))
    else
      let pieces := ok.map (·.2)
      let n := q.clears.length
      .ok (fin ((s.storePart c (pieces.take n)).storePart c (pieces.drop n)))

/-- The part's QTC. -/
def Ctx.qtc (c : Ctx) : Word := c.bank.qtc
/-- QTC from its fields (R73). -/
def qtcWord (blk : Nat) (clamped : Bool) (count : Nat) : Word := place 32 blk 16 ||| bitIf 32 clamped 8 ||| BitVec.ofNat 32 count

/-- QNTZ (R262, R263). -/
def execQntz (w : BitVec 3) (r : BitVec 7) (a : BitVec 5) (t : BitVec 2) (u : BitVec 1) (s : State) : Host.Outcome State Fault Refusal :=
  let i := Instr.qntz w r a t u
  issue i s fun c =>
    let va := (c.sp a).toNat
    let blk := field c.qtc 16 5
    let at' := match s.blockAt c va ⟨rkPerm, cPerm, va, true⟩ with
      | .error f => Except.error f
      | .ok (d, n, kb) => if n % 32 = blk then .ok (d, n, kb) else .error ⟨rkAlign, cAlign, va, true⟩
    match at' with
    | .error f => s.wholewise c i [(4 * c.part, (.error f : Except LFault Unit))] fun _ => .ok s
    | .ok (d, n, kb) =>
      let xs := fun (k : Nat) => (List.range 32).map fun j =>
        let l := c.winLane k j
        if bitAt c.m0 l then Fmt.b32.value (c.v r.toNat l).toNat else .zero
      let q := (List.range c.windows).foldl (fun (q : QState) k => q.block d (if u = 1 then none else some t.toNat) (n + k) kb (xs k))
        { blk, count := field c.qtc 0 5, clamped := bitAt c.qtc 8 }
      s.quantStores c i va q fun t => t.setWave (c.setBank (t.waveOf c) fun b => { b with qtc := qtcWord q.blk q.clamped q.count })

/-- DQNZ (R264). -/
def execDqnz (w : BitVec 3) (d : BitVec 7) (a : BitVec 5) (l : BitVec 4) (s : State) : Host.Outcome State Fault Refusal :=
  let i := Instr.dqnz w d a l
  issue i s fun c =>
    let va := (c.sp a).toNat
    match s.blockAt c va ⟨rkPerm, cPerm, va, false⟩ with
    | .error f => s.wholewise c i [(4 * c.part, (.error f : Except LFault Unit))] fun _ => .ok s
    | .ok (ds, n, kb) =>
      let v : Via := { ctx := c.g.ctx, core := some c.w.core, errs := c.aux.errs, window := true }
      let lane := fun (t : State) (ln : Nat) => let p := ln - 4 * c.part
        (t.takeElem v ds (n + p / 32) (32 * kb + p % 32) false).eval
      let (s1, ps) := s.readNow c fun t => (lanesOf c.m0).map fun ln => (ln, lane t ln)
      s1.wholewise c i ps fun ok =>
        .ok (s1.pendAdd c i c.q l (ok.map fun x => (64 * d.toNat + x.1, BitVec.ofNat 32 x.2)) []).2

/-- OLRD (R265). -/
def execOlrd (w : BitVec 3) (d : BitVec 7) (a : BitVec 5) (l : BitVec 4) (s : State) : Host.Outcome State Fault Refusal :=
  let i := Instr.olrd w d a l
  issue i s fun c =>
    let va := (c.sp a).toNat
    match s.blockAt c va ⟨rkPerm, cPerm, va, false⟩ with
    | .error f => s.wholewise c i [(4 * c.part, (.error f : Except LFault Unit))] fun _ => .ok s
    | .ok (ds, n, kb) =>
      let v : Via := { ctx := c.g.ctx, core := some c.w.core, errs := c.aux.errs, window := true }
      let lanes := (List.range 16).filter fun k => bitAt c.m0 (4 * c.part + k)
      let (s1, ps) := s.readNow c fun t => lanes.map fun k => (4 * c.part + k, (t.takeNum v (ds.listVa (n / 32) kb + 4 * k) 4).eval)
      s1.wholewise c i ps fun ok =>
        .ok (s1.pendAdd c i c.q l (ok.map fun x => (64 * d.toNat + x.1, BitVec.ofNat 32 x.2)) []).2

/-- ACCRD to memory (R260). -/
def execAccrdMem (r w : BitVec 3) (t : BitVec 8) (a y : BitVec 5) (s : State) : Host.Outcome State Fault Refusal :=
  let i := Instr.accrdMem r w t a y
  issue i s fun c => s.withTiles c t.toNat 1 fun ts =>
    let va := (c.sp a).toNat
    let (x, s1) := s.accRead c ts
    let s2 := s1.drainDrawn r 32
    let elem := fun (ty : Ty) (m n : Nat) => s1.drainElem c x ty (s1.drainRnd r n) (tileIx (c.g.tileAt t.toNat) m n)
    match Ty.ofCode y with
    | some ty =>
      let z := ty.bits / 8
      if va % 16 ≠ 0 then .error (c.trap cAlign 0 0 (BitVec.ofNat 64 va) c.m0)
      else
        let ws := (List.range 1024).map fun k => ((va + k * z) % 2 ^ 64, z, elem ty (k / 32) (k % 32))
        s.wholewise c i (s.storePieces c ws) fun ok => .ok (s2.storePart c (ok.map (·.2)))
    | none =>
      match s.blockAt c va ⟨rkAlign, cAlign, va, true⟩ with
      | .error f => s.wholewise c i [(4 * c.part, (.error f : Except LFault Unit))] fun _ => .ok s
      | .ok (d, n, kb) =>
        if n % 32 ≠ 0 then .error (c.trap cAlign 0 0 (BitVec.ofNat 64 va) c.m0)
        else
          let xs := fun (m : Nat) => (List.range 32).map fun k => Fmt.b32.value (elem .f32 m k)
          let q := (List.range 32).foldl (fun (q : QState) m => q.block d none (n + m) kb (xs m)) { blk := 0, count := 0 }
          s2.quantStores c i va q fun t => t.setWave (c.setBank (t.waveOf c) fun b => { b with qtc := b.qtc ||| bitIf 32 q.clamped 8 })

end Sys2Proof.Machine
end

