-- ==== Sys2Proof/Machine/Sched.lean ====
section
/-!
DEFINITION. What issues next (01 R47, 04 R102, R125, R126): readiness of a part, the order of the issue stage, and the
lookahead windows.
-/
namespace Sys2Proof.Machine

/-- The lookahead count of a long-latency instruction (R124). -/
def lookahead : Instr → Option Nat
  | .vld _ _ _ l _ _ _ | .vldAcq _ _ _ l _ _ _ | .vldp _ _ l _ _ _ | .vatom _ _ _ l _ _ _ | .vatomNear _ _ _ l _ _ _
  | .vatomHome _ _ _ l _ _ _ | .fgath _ _ l _ _ _ | .tsmp _ _ _ l _ _ _ | .sld _ _ l _ _ | .vrcp _ _ _ l _ | .vrsq _ _ _ l _
  | .vsqrt _ _ _ l _ | .vexp2 _ _ _ l _ | .vlog2 _ _ _ l _ | .vsin _ _ _ l _ | .vcos _ _ _ l _ | .vtanh _ _ _ l _
  | .accrdReg _ _ _ _ l _ | .dqnz _ _ _ l | .olrd _ _ _ l | .glzrd _ _ l _ | .glzres _ _ l _ | .rbox _ _ l | .rtri _ _ l
  | .wtake _ _ l => some l.toNat
  | _ => none

/-- Window enders (R125). -/
def isEnder (width : Nat) : Instr → Bool
  | .bra .. | .brc .. | .call .. | .jmpf .. | .brd .. | .join | .fuse | .ret _ | .exit | .rte | .trap _ | .monw _ | .monwG _ | .sleep _
  | .bar _ | .cbar _ | .cwait _ | .pxk _ => true
  | i => (wminI width i).isSome

/-- Words that do not count towards a window and are not checked against one: hints (R125). -/
def isHintI : Instr → Bool
  | .wideImmediateHint _ | .branchExtensionHint .. | .hintYield _ | .hintUniform => true
  | _ => false

/-- Attaching hints: words of the bundle that follows them (R101). -/
def isAttach : Instr → Bool
  | .wideImmediateHint _ | .branchExtensionHint .. => true
  | _ => false

/-- The memory-pipeline instructions (R47). -/
def isMemPipe : Instr → Bool
  | .sld .. | .sst .. | .vld .. | .vldAcq .. | .vst .. | .vstRel .. | .vldp .. | .vstp .. | .vatom .. | .vatomNear .. | .vatomHome ..
  | .vared .. | .fgath .. | .pref .. | .disc .. | .tsmp .. | .cfetch .. | .mon .. | .cpya .. | .qntz .. | .dqnz .. | .olrd ..
  | .accrdMem .. | .glzin .. | .glzrd .. | .glzres .. | .glzclr .. | .rbox .. | .rtri .. | .wapp .. | .wtake .. => true
  | _ => false

/-- The Easel-queue instructions (R47). -/
def isEaselQ : Instr → Bool
  | .prime .. | .mma .. => true
  | _ => false

/-- What a part issues next: `none` when its slot holds no landed code, else the instruction, with `reservedEncoding` for words that
do not decode. -/
def State.nextInstr (s : State) (c : Ctx) : Option Instr :=
  match c.aux.dict with
  | some (x, y) => some (if c.bank.phase then y else x)
  | none =>
    if s.landed c.w.core c.pc then
      match decodeIssue (s.words c.w.core c.pc) c.aux.hints with
      | .ok i => some i
      | .error _ => some .reservedEncoding
    else none

/-- Registers of `u` that meet a destination of `p`. -/
def Pend.meets (p : Pend) (u : Uses) : Bool :=
  (u.vr ++ u.vw).any (fun o => p.vdst.any fun d => decide (o.1 ≤ d ∧ d < o.1 + o.2)) || (u.sr ++ u.sw).any fun n => p.sdst.contains n

/-- Every window and the scoreboard let the instruction issue (R125 to R127). -/
def pendsAllow (c : Ctx) (i : Instr) : Bool :=
  let ps := c.w.pend.filter fun p => (p.quads &&& c.q) != 0
  let ender := isEnder c.w.width i
  (ps.all fun p => match p.win with
    | some n => decide (0 < n) && !ender
    | none => !ender && !p.meets (uses i)) &&
  (lookahead i != some 15 || ((quadsOf c.q).all fun q => decide ((ps.filter fun p => p.win.isNone && bitAt p.quads q).length < 8)) &&
    ps.all fun p => !c.aux.ninth.contains p.id)

/-- A part stands inside a bundle, which a debugger stop or a pre-emption lets it finish (R102, R130). -/
def Ctx.inBundle (c : Ctx) : Bool := decide (0 < c.aux.hints) || c.aux.dict.isSome

/-- The wave is not stopped for this part (R46, R408): a running handler stops the others, a pending trap lets a part only
finish a bundle that it has begun. -/
def State.mayRun (s : State) (c : Ctx) : Bool :=
  let d := (s.core c.w.core).dbg
  let resident := match c.g.state with | .resident => true | .draining _ => c.inBundle | .saved | .restoring => false
  let held := match c.g.hold with | some wid => wid != c.w.wid && !c.hnd && !c.inBundle | none => false
  (!c.w.dead || c.inBundle) && !held && !d.halted && (!d.halting || c.inBundle) && resident &&
    (c.hnd || (!c.w.handler.run && (c.w.trapNow || decide (0 < c.aux.hints))))

/-- The part can issue in this clk but for the limits of its partition (R47, R162); a path to which no active lane goes is not fetched (R38). -/
def State.partReady (s : State) (c : Ctx) : Bool :=
  (c.hnd || ((c.w.ent c.ent).st == stReady && c.m0 != 0)) && c.aux.blocked.isNone && c.aux.yield == 0 && c.aux.elig == 0 && (!c.hnd || c.aux.park == .none) && !c.aux.trapDue && s.mayRun c &&
    (match s.nextInstr c with | some i => pendsAllow c i | none => true)

/-- A bundle whose address is in the causal range of its core (R464). -/
def Core.inRange (c : Core) (pc : CodeAddr) : Bool :=
  let r := c.dreg 0x308
  decide (field r 0 17 ≤ pc.toNat ∧ pc.toNat ≤ field r 32 17)

/-- The context filter of a trial (R463). -/
def Core.trialCtx (c : Core) (ctx : Nat) : Bool :=
  let r := c.dreg 0x300
  !bitAt r 61 || field r 32 16 == ctx

/-- The bundle at which the part stands is in the range of the trial (R464). -/
def State.ranged (s : State) (c : Ctx) : Bool := let x := s.core c.w.core; x.inRange c.pc && x.trialCtx c.g.ctx

/-- A delay clk holds the part's bundle, which is out of range (R464). -/
def State.delayed (s : State) (c : Ctx) : Bool := (s.core c.w.core).dbg.delay && !s.ranged c

/-- A part must still finish a bundle that it has begun before a stop can take it (R46, R102). -/
def State.midBundle (s : State) (who : Issuer) : Bool :=
  match s.ctx? who with
  | some c => c.inBundle && s.mayRun c && c.aux.blocked.isNone && !c.aux.trapDue && (c.hnd || (c.w.ent c.ent).st == stReady)
  | none => false

/-- The quad positions that a part covers (R15). -/
def Ctx.positions (c : Ctx) : Quads := c.q <<< c.w.qbase

/-- The rank of a candidate: aged parts first, then the part that became ready first, wave slot, quad position (R47). -/
def Ctx.rank (c : Ctx) (clk : Nat) : Nat × Nat × Nat × Nat :=
  (if c.aux.readyAt != 0 && clk + 1 - c.aux.readyAt ≥ 256 then 0 else 1,
   if c.aux.readyAt = 0 then clk + 1 else c.aux.readyAt, c.w.slot, c.w.qbase + c.part)

/-- Lexicographic order of ranks. -/
def rankLe (a b : Nat × Nat × Nat × Nat) : Bool :=
  decide (a.1 < b.1) || (a.1 == b.1 && (decide (a.2.1 < b.2.1) || (a.2.1 == b.2.1 && (decide (a.2.2.1 < b.2.2.1) ||
    (a.2.2.1 == b.2.2.1 && decide (a.2.2.2 ≤ b.2.2.2))))))

/-- The issuers of a wave: its running parts, or its handler part while it runs. -/
def Wave.issuers (w : Wave) : List Issuer :=
  if w.handler.run then [⟨w.wid, none⟩] else w.parts.map fun e => ⟨w.wid, some e⟩

/-- The candidates of partition `p` of a core, in the order of R47. -/
def State.candidates (s : State) (core p : Nat) : List Ctx :=
  let ws := s.waves.filter fun w => w.core == core && w.part == p
  let cs := (ws.flatMap Wave.issuers).filterMap s.ctx?
  let x := s.core core
  let ok := cs.filter fun c => !x.issued.contains c.who && s.partReady c && !s.delayed c
  sortBy (fun a b => rankLe (a.rank x.clk.toNat) (b.rank x.clk.toNat)) ok

/-- The part that the issue stage of a partition takes next: the first candidate whose quad positions are free; it stops at four
issues, and at an instruction beyond the limits of the clk (R47). -/
def State.pick (s : State) (core p : Nat) : Option Ctx :=
  let r := ((s.core core).issue[p]?).getD {}
  if r.n ≥ 4 then none
  else match (s.candidates core p).find? fun c => (c.positions &&& r.quads) == 0 with
    | none => none
    | some c => match s.nextInstr c with
      | some i => if (isMemPipe i && r.mem) || (isEaselQ i && r.easel) then none else some c
      | none => some c

/-- The next part to issue in this clk, over all cores and partitions. -/
def State.pickAny (s : State) : Option Ctx :=
  if s.boot.state == 0x80 then none else
  let cores := (s.waves.map fun w => (w.core, w.part)).eraseDups
  (sortBy (fun a b => decide (8 * a.1 + a.2 ≤ 8 * b.1 + b.2)) cores).findSome? fun x => s.pick x.1 x.2

/-- The books of the clk after a part has been taken: its quads and the limits (R47). A DICT word itself takes no slot: its entries do (R130). -/
def State.noteIssue (s : State) (c : Ctx) (i : Instr) : State :=
  let isDict := match i with | .dict .. => true | _ => false
  if isDict then s
  else
    let s1 := s.updCore c.w.core fun x => { x with
      issue := modifyAt c.w.part (fun r => { quads := r.quads ||| c.positions, n := r.n + 1, mem := r.mem || isMemPipe i, easel := r.easel || isEaselQ i }) x.issue
      issued := c.who :: x.issued }
    let s2 := if c.hnd then s1.updWave c.w.wid fun w => { w with handler := { w.handler with aux := { w.handler.aux with readyAt := 0 } } }
      else s1.updWave c.w.wid fun w => w.updAux c.ent fun a => { a with readyAt := 0 }
    if c.w.begun || c.hnd then s2 else (s2.emit c.w c.ent 0 []).updWave c.w.wid fun w => { w with begun := true }

/-- The bundle of the part has issued: the count of bundles (R488), scheduling hints among them (R101), the causal range (R464). -/
def State.noteRan (s : State) (c : Ctx) (i : Instr) : State :=
  let inr := (s.core c.w.core).dbg.run && s.ranged c
  let s1 := s.updCore c.w.core fun x => { x with dbg := { x.dbg with inr := x.dbg.inr || inr } }
  if isAttach i then s1 else s1.count (s.ctxFunc c.g.ctx) 2 (panelOf c.w.core) 1

/-- Unless it waits at issue, where it issues only when the wait ends (R243). -/
def State.noteRanUnless (s : State) (c : Ctx) (i : Instr) : State :=
  if ((s.ctx? c.who).map fun d => d.aux.blocked.isSome).getD false then s else s.noteRan c i

/-- A trap that waited for the boundary at which part `e` stands now is raised there: its window is the one of now (R412, R461). -/
def Wave.relook (w : Wave) (e : Nat) : Wave :=
  w.updAux e fun a => { a with trap := a.trap.map fun t => if t.late then { t with look := w.lookAt e } else t }

/-- After the instruction: its window count falls by one for what was pending before it, unless it parked on a PAGE and will issue
again (R37). -/
def State.closeWindow (s : State) (c : Ctx) (idLimit : Nat) : State :=
  match s.wave? c.w.wid with
  | none => s
  | some w =>
    let waits := if c.hnd then w.handler.aux.park == .page else (w.ent c.ent).st == stParkf
    if waits then s
    else
      let w1 := { w with pend := w.pend.map fun p =>
        if p.id < idLimit && (p.quads &&& c.q) != 0 then { p with win := p.win.map (· - 1) } else p }
      s.setWave (if c.hnd then w1 else w1.relook c.ent)

/-- The books after an issue; a DICT word counts for nothing, a hint not towards windows (R125). -/
def State.closeIssue (s : State) (c : Ctx) (i : Instr) (idLimit : Nat) : State :=
  let isDict := match i with | .dict .. => true | _ => false
  if isDict then s
  else if isHintI i then s.noteRan c i
  else (s.noteRanUnless c i).closeWindow c idLimit

/-- The comparators that match the part at its bundle, in order (R454). -/
def State.matching (s : State) (c : Ctx) : List Nat :=
  if c.hnd || c.bank.phase || c.aux.skipCmp == some c.pc || decide (0 < c.aux.hints) then []
  else (List.range 8).filter fun n =>
    let a := (s.core c.w.core).dreg (0x100 + 16 * n)
    let b := (s.core c.w.core).dreg (0x108 + 16 * n)
    bitAt a 63 && field a 0 17 == c.pc.toNat && (!bitAt a 61 || field a 46 15 == c.g.queue) &&
      ((bits c.g.group 0 20 &&& bits b 0 20) == (bits b 32 20 &&& bits b 0 20))
/-- The lowest of them. -/
def State.comparator (s : State) (c : Ctx) : Option Nat := (s.matching c).head?
/-- Comparator `n` halts the core, with ACT = 1 (R453). -/
def State.cmpHalts (s : State) (c : Ctx) (n : Nat) : Bool := bitAt ((s.core c.w.core).dreg (0x100 + 16 * n)) 62

end Sys2Proof.Machine
end

