-- ==== Sys2Proof/Machine/CodeLoad.lean ====
section
/-!
DEFINITION. Segment slots and the code-fetch engine (05 R154 to R157), and the end of the waits at issue for room (R225, R243, R253).
-/
namespace Sys2Proof.Machine

/-- A slot of a core. -/
def Core.slot (c : Core) (k : Nat) : Slot := (c.slots[k]?).getD {}
def State.updSlot (s : State) (core k : Nat) (f : Slot → Slot) : State := s.updCore core fun c => { c with slots := modifyAt k f c.slots }
/-- A load of the slot is in flight. -/
def Slot.busy (x : Slot) : Bool := x.st == .loading && !x.resident && !x.queued
/-- A core has room for one more load (R155). -/
def Core.loadRoom (c : Core) : Bool := decide ((c.slots.filter Slot.busy).length < 8)

/-- The fault of a source (R157). -/
def loadFault (code src : Nat) : TrapRec := { code := BitVec.ofNat 8 code, defer := true, tpc := 0, addr := BitVec.ofNat 64 src }

/-- Starts, or starts again, the load of a slot from a source for a part (R154, R155): the page is translated and its words are
read as relaxed accesses of the part. Without a translation the load will fail. -/
def State.loadStart (s : State) (core slot ctx wid : Nat) (q : Quads) (src : Nat) : State :=
  let old := (s.core core).slot slot
  let s0 := match old.acc with | some id => { s with inflight := s.inflight.filter fun a => a.id != id } | none => s
  let base := { old with st := .loading, src := some src, ctx, wid, acc := none, fault := none, rid := none, err := false, seq := 0, stopped := false, queued := false }
  match (if old.err then .error .perm else s0.reach (some core) ctx src .rd false) with
  | .error f => s0.updSlot core slot fun _ => { base with fault := some (loadFault (if f == .perm then cPerm else cPage) src) }
  | .ok x =>
    let (id, s1) := s0.newId
    let pieces := (List.range 512).map fun k =>
      ({ k, lane := 4 * lowQuad q, addr := x.key + 8 * k, n := 8, reg := 2 * k, va := src + 8 * k, home := x.home } : Piece)
    (s1.launchAccess { id, wid, quads := q, kind := .code core slot, pieces, pages := [(ctx, src / 2 ^ x.size * 2 ^ (x.size - 12), x.size)] }).updSlot core slot fun _ =>
      { base with acc := some id }

/-- A load that a CWAIT or a restore starts: the slot is LOADING at once, and a ninth load, or one that a resolution is awaited for, begins when it
can (R155, R157, R424). -/
def State.loadAgain (s : State) (core slot ctx wid : Nat) (q : Quads) (src : Nat) : State :=
  let x := (s.core core).slot slot
  if x.rid.isNone && (s.core core).loadRoom then s.loadStart core slot ctx wid q src
  else s.updSlot core slot fun y => { y with st := .loading, src := some src, ctx, wid, acc := none, fault := none, queued := true }

/-- CFETCH when the engine can take it (R155). -/
def State.cfetchBody (s : State) (c : Ctx) (a : BitVec 5) (sl : BitVec 7) : Except TrapRec State :=
  let i := Instr.cfetch a sl
  let va := c.sp a
  let x := (s.core c.w.core).slot sl.toNat
  if va.toNat % 4096 ≠ 0 then .error (c.trap cAlign 0 0 va)
  else if x.resident || x.owner != some c.g.kslot then .error (c.trap cPerm 0 0 va)
  else if !x.busy && !(s.core c.w.core).loadRoom then .ok (s.block c i)
  else .ok (((s.updSlot c.w.core sl.toNat fun y => { y with err := false, rid := none }).loadStart c.w.core sl.toNat c.g.ctx c.w.wid c.q va.toNat).done c i)

/-- CFETCH. -/
def execCfetch (a : BitVec 5) (sl : BitVec 7) (s : State) : Host.Outcome State Fault Refusal :=
  issue (.cfetch a sl) s fun c => s.cfetchBody c a sl

/-- CODE_LOAD_COMPLETE (R154, R157, R416): every word is there, or the source cannot be read, which a PAGE reports to the host at
once. A restarted load waits for its record to be resolved, and for room. -/
def execCodeLoadComplete (core slot : Nat) (s : State) : Host.Outcome State Fault Refusal :=
  let x := (s.core core).slot slot
  if x.st != .loading || x.resident || x.rid.isSome then .next s
  else if x.queued then .next (if (s.core core).loadRoom then s.loadStart core slot x.ctx x.wid 0xffff (x.src.getD 0) else s)
  else match x.fault with
    | some t =>
      let (rid, s1) := if t.code.toNat = cPage then
          (let r := s.faultRecord (s.ctxFunc x.ctx)
            { ctx := x.ctx, core := (s.core core).phys, code := cPage, defer := true, va := t.addr.toNat } true
           (some r.1, r.2))
        else (none, s)
      let (seq, s2) := s1.newId
      .next (s2.updSlot core slot fun y => { y with st := .failed, rid, seq })
    | none =>
      if s.inflight.any fun a => x.acc == some a.id then .next s
      else .next (s.updSlot core slot fun y => { y with st := .landed, acc := none })

/-- CWAIT (R157): what it does once the slot is not LOADING. At a FAILED one each part raises the recorded fault, and the part whose CWAIT has
raised it restarts the load after a PAGE; after a PERM the CWAIT raises the fault again. -/
def State.cwaitBody (s : State) (c : Ctx) (sl : BitVec 7) : Except TrapRec State :=
  let i := Instr.cwait sl
  let core := c.w.core
  let x := (s.core core).slot sl.toNat
  match x.st with
  | .loading => .ok (s.block c i)
  | .failed => match x.fault with
    | some t =>
      if c.aux.told == some x.seq && t.code.toNat = cPage then .ok ((s.loadAgain core sl.toNat x.ctx c.w.wid c.q (x.src.getD 0)).block c i)
      else .ok ((s.setWave (c.setAux c.w fun a => { a with told := some x.seq })).raise c { t with tpc := c.pc })
    | none => .ok ((s.loadAgain core sl.toNat x.ctx c.w.wid c.q (x.src.getD 0)).block c i)
  | _ => .ok (s.done c i)

/-- CWAIT. -/
def execCwait (sl : BitVec 7) (s : State) : Host.Outcome State Fault Refusal := issue (.cwait sl) s fun c => s.cwaitBody c sl

/-- What an instruction that waited at issue gives when it acts. -/
def State.act? (s : State) (c : Ctx) (r : Except TrapRec State) : Host.Outcome State Fault Refusal :=
  match r with
  | .ok t => .next t
  | .error t => .next (s.raise c t)

/-- CWAIT_WAIT_END (R157). -/
def execCwaitWaitEnd (who : Issuer) (s : State) : Host.Outcome State Fault Refusal :=
  match s.blockedAt who with
  | some (c, .cwait sl) => if ((s.core c.w.core).slot sl.toNat).st == .loading then .next s else s.act? c (s.cwaitBody c sl)
  | _ => .next s

/-- No other op that waits for room in the queue enters it before the part's: by partition, and by lowest quad position (R243). -/
def State.opFirst (s : State) (c : Ctx) : Bool :=
  !(s.waves.any fun w => w.core == c.w.core && w.issuers.any fun who => match s.blockedAt who with
    | some (d, j) => isEaselQ j && s.mayRun d && s.easelRoom d && decide (s.opKey d < s.opKey c)
    | none => false)

/-- Whether the instruction that waits at issue has the room it waits for. -/
def State.roomFor (s : State) (c : Ctx) : Instr → Bool
  | .cpya .. => s.copyRoom c.w.core
  | .cfetch _ sl => (s.core c.w.core).loadRoom || ((s.core c.w.core).slot sl.toNat).busy
  | .prime .. | .mma .. => s.easelRoom c && s.opFirst c
  | .mfence _ | .bwaitAll _ => c.w.batch.canClose
  | _ => false

/-- QUEUE_ROOM_WAIT_END (R155, R225, R243, R253): the instruction acts as at its issue. -/
def execQueueRoomWaitEnd (who : Issuer) (s : State) : Host.Outcome State Fault Refusal :=
  match s.blockedAt who with
  | none => .next s
  | some (c, i) =>
    if !s.roomFor c i then .next s
    else match i with
      | .cpya a b => s.act? c (s.copyStart c a b)
      | .cfetch a sl => s.act? c (s.cfetchBody c a sl)
      | .prime _ k a g => s.act? c (s.primeBody c i k.toNat a.toNat g.toNat)
      | .mma _ t k g => s.act? c (s.mmaBody c i t.toNat k.toNat g.toNat)
      | .mfence _ => .next ((s.updBatch c.w.wid Batch.close).done c i)
      | .bwaitAll w => .next ((s.updBatch c.w.wid Batch.close).bwaitGo c (.bwait w 0) 0)
      | _ => .next s

end Sys2Proof.Machine
end

