-- ==== Sys2Proof/Machine/Groups.lean ====
section
/-!
DEFINITION. The end of groups and launches (05 R160; 18 R407; 19 R410, R418; 24 R496), work-list write-back (14 R370), and the
states of accumulator tiles with their save-image sections (19 R420, R426, R427).
-/
namespace Sys2Proof.Machine

/-! ## The device's own accesses in a context's address space -/

/-- Writes bytes at a virtual address, all or none. -/
def State.devWrite (s : State) (ctx va : Nat) (bs : List Byte) : Except (XFault × Nat) State :=
  (s.span none ctx va bs.length .wr false).map fun ks =>
    (s.wrSpots { core := none, func := s.ctxFunc ctx } (ks.zip bs)).unservedAt ctx none true ks
/-- A write whose failure has no further effect. -/
def State.devTry (s : State) (ctx va : Nat) (bs : List Byte) : State :=
  match s.devWrite ctx va bs with | .ok t => t | .error _ => s
/-- 64-bit words at a virtual address. -/
def State.devWords (s : State) (ctx va n : Nat) : Except (XFault × Nat) (List DWord) :=
  (s.vread ctx va (8 * n)).map fun bs => (List.range n).map fun k => BitVec.ofNat 64 (ofBytes ((bs.drop (8 * k)).take 8))

/-! ## Completion (R407) -/

/-- Word `i` of a launch record. -/
def Launch.word (l : Launch) (i : Nat) : DWord := (l.words[i]?).getD 0
/-- The kind of a launch record: grid, cohort, draw, management (R394). -/
def Launch.lkind (l : Launch) : Nat := field (l.word 0) 60 4

/-- An earlier record of the same queue that has not completed. -/
def State.earlier (s : State) (l : Launch) (p : Launch → Bool) : Bool :=
  l.event.isNone && s.taken.any fun o => o.event.isNone && o.queue == l.queue && decide (o.lid < l.lid) && p o

/-- The eight words of a completion record. -/
def completionWords (seq : Word) (detail status culled retired : Nat) (gdg ovr : Bool) : List DWord :=
  [ place 64 seq.toNat 32 ||| place 64 detail 8 ||| BitVec.ofNat 64 status,
    bitIf 64 gdg 49 ||| bitIf 64 ovr 48 ||| place 64 (min culled 65535) 32 ||| BitVec.ofNat 64 (retired % 2 ^ 32), 0, 0, 0, 0, 0, 0 ]

/-- The completion record of a launch is written, its vector signalled, and what the launch held is given back. -/
def State.complete (s : State) (l : Launch) (detail : Nat) : State :=
  let ws := completionWords l.seq detail l.status l.culled l.retired l.degraded l.overrun
  let s1 := s.devTry l.ctx (field (l.word 8) 0 57) (ws.flatMap fun w => toBytes 8 w.toNat)
  let s2 := if bitAt (l.word 0) 25 && l.event.isNone then s1.signal l.func l.vec else s1
  let evbusy := match l.event with | some e => modifyAt e (fun _ => none) s2.evbusy | none => s2.evbusy
  { s2 with taken := s2.taken.filter fun x => x.lid != l.lid,
            cbars := s2.cbars.map fun b => if b.owner == some l.lid then {} else b, evbusy }

/-- Every group of the launch has ended and none is to come; a draw none of whose triangles touches a tile has no last phase. -/
def Launch.finished (l : Launch) : Bool :=
  match l.draw with
  | none => l.placed == l.total && l.retired + l.aborted == l.total
  | some d => (d.phase == .raster || (d.phase == .attrs && d.todo.isEmpty)) && d.tiles.isEmpty && d.wait.isEmpty &&
      l.placed == l.retired + l.aborted

/-- The launch completes when it is finished. -/
def State.completeIf (s : State) (lid : Nat) : State :=
  match s.launch? lid with
  | some l => if l.finished then s.complete l 0 else s
  | none => s

/-! ## Work lists (R369, R370) -/

/-- The lists on which a group's waves act. -/
def State.listsOf (s : State) (g : Group) : List WorkList :=
  s.lists.filter fun x => if x.cohort then x.scope == g.lid else x.scope == g.gid

/-- Final H and T of the lists of an ended scope are written to their entries. -/
def State.dropLists (s : State) (ctx : Nat) (p : WorkList → Bool) : State :=
  let s1 := (s.lists.filter p).foldl (fun t x => t.devTry ctx (x.entry + 8) (toBytes 4 x.head.toNat ++ toBytes 4 x.tail.toNat)) s
  { s1 with lists := s1.lists.filter fun x => !p x }

/-- A wave that waits in WQUI and that no trap stops, or has exited (R371). -/
def Wave.idleNow (w : Wave) : Bool :=
  w.living == 0 || (!w.handler.run && !w.dead && w.parts.any fun e => (w.ent e).st == stParkw &&
    (match (w.auxAt e).park with | .wqui _ => true | _ => false))

/-- The waves of the scope of a group's lists that are idle in WQUI or have exited, and all of them (R297, R369, R371). -/
def State.scopeIdle (s : State) (g : Group) : Bool :=
  let idle := Wave.idleNow
  match s.launch? g.lid with
  | none => (s.wavesOf g.gid).all idle
  | some l =>
    if l.lkind = 1 then
      let gs := s.groups.filter fun x => x.lid == l.lid
      l.placed == l.total && gs.all fun x => if x.state == .saved then x.idle == x.waves else (s.wavesOf x.gid).all idle
    else (s.wavesOf g.gid).all idle

/-- Every list of the scope is empty. -/
def State.scopeEmpty (s : State) (g : Group) : Bool := (s.listsOf g).all fun x => x.head == x.tail

/-- The groups of the scope. -/
def State.scopeGroups (s : State) (g : Group) : List Nat :=
  match s.launch? g.lid with
  | some l => if l.lkind = 1 then (s.groups.filter fun x => x.lid == l.lid).map (·.gid) else [g.gid]
  | none => [g.gid]

/-- Parked WQUIs of the scope return (R297): 1 when it is quiescent, 0 when a list is not empty; a wave in its handler waits on (R46). -/
def State.quietCheck (s : State) (gid : Nat) : State :=
  match s.group? gid with
  | none => s
  | some g =>
    let r : Option Word := if !s.scopeEmpty g then some 0 else if s.scopeIdle g then some 1 else none
    match r with
    | none => s
    | some v => (s.scopeGroups g).foldl (fun t k =>
        ((t.parkedIn k fun p => match p with | .wqui _ => true | _ => false).filter fun x => (t.wave? x.1).any fun w => !w.handler.run).foldl (fun t x => (t.updWave x.1 fun w =>
          match (w.auxAt x.2).park with
          | .wqui d => { w with banks := mapQuads (w.ent x.2).qmask (fun b => { b with sreg := b.sreg.set d.toNat v }) 0 w.banks }
          | _ => w).letGo x.1 x.2) t) s

/-! ## Energy (R401, R496) -/

/-- Adds to the remainders of a function, a queue and the module. -/
def State.energyAdd (s : State) (func queue : Nat) (x : Int) : State :=
  let s1 := s.updFunc func fun f => { f with rem := f.rem + x }
  let old := ((s1.energy.qrem.find? fun r => r.1 == queue).map (·.2)).getD 0
  { s1 with energy := { s1.energy with qrem := (queue, old + x) :: s1.energy.qrem.filter (fun r => r.1 != queue), mrem := s1.energy.mrem + x } }

/-! ## Save images (R411, R420) -/

/-- The virtual address of save image `i` of a context. -/
def State.imageVa (s : State) (ctx i : Nat) : Nat := s.ctxSave ctx + 0x480000 * i
/-- AUX of a record that concerns a launch (R436). -/
def Launch.aux (l : Launch) : DWord := place 64 (l.queue % 32768) 32 ||| l.seq.setWidth 64

/-- A record about a group, which parks nothing. -/
def State.groupRecord (s : State) (g : Group) (code va : Nat) (wr defer : Bool) (sub : Nat := 0) : State :=
  let aux := ((s.launch? g.lid).map Launch.aux).getD 0
  (s.faultRecord (s.ctxFunc g.ctx) { ctx := g.ctx, core := (s.core g.core).phys, code, sub, wr, defer, va, aux } false).2

/-! ## The end of a group (R160, R410, R418) -/

/-- The state of a physical tile. -/
def Core.tile (c : Core) (t : Nat) : TileState := ((c.tst.find? fun x => x.1 == t).map (·.2)).getD .free
def Core.setTile (c : Core) (t : Nat) (x : TileState) : Core :=
  { c with
    tst := if x = .free then c.tst.filter fun y => y.1 != t else (t, x) :: c.tst.filter fun y => y.1 != t
    bad := if x = .free then c.bad.filter (· != t) else c.bad }
/-- A tile's values belong to a save image of a context. -/
def TileState.heldBy (x : TileState) (ctx image : Nat) : Bool := match x with | .held c i _ => c == ctx && i == image | _ => false

/-- The resources of a group are free: its waves, Easel ops, copies, canvases, tiles, lists. -/
def State.freeGroup (s : State) (g : Group) : State :=
  let own := (s.wavesOf g.gid).map (·.wid)
  let s1 := { s with waves := s.waves.filter fun w => w.gid != g.gid, groups := s.groups.filter fun x => x.gid != g.gid }
  let clean := fun (c : Core) => { c with tst := c.tst.filter fun t => !(t.2.heldBy g.ctx g.image) }
  let s2 := { s1 with cores := s1.cores.map clean, inflight := s1.inflight.filter fun a => !own.contains a.wid }
  let s3 := if g.state == .saved then s2
    else s2.updCore g.core fun c => { c with
      easel := c.easel.filter fun o => o.gid != g.gid
      copies := c.copies.filter fun x => x.gid != g.gid
      cans := c.cans.filter fun x => !g.cans.contains x.1
      tst := c.tst.filter fun t => !g.tiles.contains t.1 }
  s3.dropLists g.ctx fun x => !x.cohort && x.scope == g.gid

/-- The WQUI parts of a cohort's other groups are checked when a group of it has ended (R297). -/
def State.cohortQuiet (s : State) (lid : Nat) : State :=
  match (s.groups.filter fun x => x.lid == lid).map (·.gid) with
  | k :: _ => if (s.launch? lid).any (fun (l : Launch) => l.lkind == 1) then s.quietCheck k else s
  | [] => s

/-- What the end of a group brings for the groups of its cohort and for its launch: barriers, quiescence, lists, completion. -/
def State.afterEnd (s : State) (g : Group) : State :=
  let s1 := s.cbarSweep g.lid
  let s2 := s1.cohortQuiet g.lid
  let last := match s2.launch? g.lid with | some l => l.finished | none => false
  (if last then s2.dropLists g.ctx fun x => x.cohort && x.scope == g.lid else s2).completeIf g.lid

/-- A group ends without retiring (R410, R418, R423, R440): its accesses in flight perform, its launch gets the status. -/
def State.abortGroup (s : State) (g : Group) (status : Nat) : State :=
  let own := (s.wavesOf g.gid).map (·.wid)
  let s1 := (s.inflight.filter fun a => own.contains a.wid).foldl State.performAll s
  let done := (if g.state == .saved then g.kept else s.wavesOf g.gid).filter fun w => w.living == 0
  let s2 := ((s1.dropFrags g).freeGroup g).updLaunch g.lid fun l =>
    { l with status, aborted := l.aborted + 1, exits := l.exits + (g.waves - done.length) }
  let leave := fun (b : CBarrier) => { b with arrived := b.arrived.filter fun k => k / 32 != g.gid }
  State.afterEnd { s2 with cbars := s2.cbars.map leave } g

/-- A save image cannot be written or read (R418, R423). -/
def State.imageFail (s : State) (ctx image : Nat) (f : XFault) (wr : Bool) : State :=
  match s.groups.find? fun g => g.ctx == ctx && g.image == image with
  | none => s
  | some g =>
    let s1 := s.groupRecord g (if f == .perm then cPerm else cPage) (s.imageVa ctx image) wr false
    s1.abortGroup g 0x04

/-- Everything of a group is done (R160): waves, ops, accesses, and copies, but for one that is stopped on a fault that no resolution
ends and no wave is left to observe. -/
def State.retires (s : State) (g : Group) : Bool :=
  let ws := s.wavesOf g.gid
  let own := ws.map (·.wid)
  g.state == .resident && ws.all (fun w => w.living == 0) && !((s.core g.core).easel.any fun o => o.gid == g.gid) &&
    !((s.core g.core).copies.any fun x => x.gid == g.gid && !(x.parked && x.rid.isNone)) &&
    !(s.inflight.any fun a => own.contains a.wid)

/-- Deferred faults that nobody reported (R160): those of its waves' ops and of its copies. -/
def State.unreported (s : State) (g : Group) : List DFault :=
  (s.wavesOf g.gid).flatMap (·.batch.faults) ++ g.bars.filterMap fun b => b.fault.map (·.1)

/-- A fault that has its host record already: a PAGE that is no drain timeout (R416). -/
def DFault.hasRecord (d : DFault) : Bool := d.trap.code.toNat == cPage && d.trap.sub == 0

/-- The output of a mesh group joins its draw's (R349): counts, primitives and the culled count come from the position pass. -/
def Launch.takeMesh (l : Launch) (g : Group) : Launch :=
  match l.draw with
  | none => l
  | some d =>
    if g.kind ≠ .mesh then l
    else
      let first := d.phase == .position
      { l with draw := some { d with outs := (g.index, g.mesh) :: d.outs.filter fun o => o.1 != g.index },
               overrun := l.overrun || g.mesh.overrun, culled := if first then l.culled + g.mesh.culled else l.culled }

/-- GROUP_RETIRE (R160, R407, R496). -/
def execGroupRetire (gid : Nat) (s : State) : Host.Outcome State Fault Refusal :=
  match s.group? gid with
  | none => .next s
  | some g =>
    if !s.retires g then .next s
    else
      let fs := s.unreported g
      let s1 := (fs.filter fun f => !f.hasRecord).foldl (fun t f => t.groupRecord g f.trap.code.toNat f.trap.addr.toNat false true f.trap.sub.toNat) s
      let bad := !fs.isEmpty
      let s2 := (s1.freeGroup g).updLaunch g.lid fun l =>
        let l1 := l.takeMesh g
        { l1 with retired := l1.retired + 1, status := if bad && l1.status = 0 then 4 else l1.status, degraded := l1.degraded || g.degraded }
      let s3 := match s2.launch? g.lid with
        | some l =>
          if l.lkind = 3 then s2
          else s2.energyAdd l.func l.queue ((field (l.word 10) 0 32 : Int) - Config.grainsOf gid)
        | none => s2
      .next (s3.afterEnd g)

/-- GROUP_ABORT (R410, R407): the driver ends a group. -/
def execGroupAbort (gid : Nat) (s : State) : Host.Outcome State Fault Refusal :=
  match s.group? gid with
  | none => .next s
  | some g => .next (s.abortGroup g 0x05)

/-! ## Moving tiles (R426, R427) -/

/-- The address of tile `k` of an allocation in a save image. -/
def State.acsVa (s : State) (ctx image k : Nat) : Nat := s.imageVa ctx image + 0x242000 + 8192 * k

/-- Sets or clears ACSSP of an image (R421). -/
def State.setAcssp (s : State) (ctx image : Nat) (on : Bool) : Except (XFault × Nat) State :=
  match s.vread ctx (s.imageVa ctx image + 22) 1 with
  | .error f => .error f
  | .ok bs =>
    let b := (bs[0]?).getD 0
    s.devWrite ctx (s.imageVa ctx image + 22) [if on then b ||| 0x80 else b &&& 0x7f]

/-- The bytes of a tile. -/
def Core.tileBytes (c : Core) (t : Nat) : List Byte := (List.range 1024).flatMap fun k => toBytes 8 (c.tiles.get (1024 * t + k)).toNat

/-- The HELD tiles of an image on a core, ascending, with their indices in its allocation. -/
def Core.heldTiles (c : Core) (ctx image : Nat) : List (Nat × Nat) :=
  (List.range 256).filterMap fun t => match c.tile t with
    | .held x i k => if x == ctx && i == image then some (t, k) else none
    | _ => none

/-- All HELD tiles of an image are written to it and freed (R426, R427 step 1). -/
def State.spill (s : State) (core ctx image : Nat) : State :=
  let ts := (s.core core).heldTiles ctx image
  let put := ts.foldlM (fun (t : State) x => t.devWrite ctx (s.acsVa ctx image x.2) ((s.core core).tileBytes x.1)) s
  match put.bind fun t => t.setAcssp ctx image true with
  | .ok t => t.updCore core fun c => ts.foldl (fun c x => c.setTile x.1 .free) c
  | .error f => s.imageFail ctx image f.1 true

/-- The images with HELD tiles on a core, in ascending order of their lowest tile. -/
def Core.heldImages (c : Core) : List (Nat × Nat) :=
  ((List.range 256).filterMap fun t => match c.tile t with | .held x i _ => some (x, i) | _ => none).eraseDups

/-- A tile's elements replaced. -/
def Core.putTile (c : Core) (t : Nat) (xs : List DWord) : Core :=
  { c with
    tiles := (xs.mapIdx fun k x => (1024 * t + k, x)).foldl (fun m x => m.set x.1 x.2) (c.tiles.clear fun ix => ix / 1024 == t)
    bad := c.bad.filter (· != t) }

/-- A tile takes the values of its image's ACS section. -/
def State.loadTile (s : State) (core ctx image k t : Nat) : Except (XFault × Nat) State :=
  (s.devWords ctx (s.acsVa ctx image k) 1024).map fun ws => (s.devSeen ctx (s.acsVa ctx image k) 8192).updCore core fun c => (c.putTile t ws).setTile t .live

/-- The tiles of an allocation, loaded from its image. -/
def State.loadTiles (s : State) (core ctx image : Nat) (ts : List (Nat × Nat)) : Except (XFault × Nat) State :=
  ts.foldlM (fun (t : State) x => t.loadTile core ctx image x.2 x.1) s

/-- Step 2 of R427 for one group of the new owner. -/
def State.attachPend (s : State) (core : Nat) (g : Group) : State :=
  let pend := ((g.tiles.mapIdx fun k t => (t, k)).filter fun x => match (s.core core).tile x.1 with | .pend _ => true | _ => false)
  let filled := pend.filter fun x => (s.core core).tile x.1 == .pend true
  let blank := pend.filter fun x => (s.core core).tile x.1 == .pend false
  let s1 := s.updCore core fun c => blank.foldl (fun c x => (c.putTile x.1 []).setTile x.1 .live) c
  if filled.isEmpty then s1
  else match (s1.loadTiles core g.ctx g.image filled).bind fun t => t.setAcssp g.ctx g.image false with
    | .ok t => t
    | .error f => s1.imageFail g.ctx g.image f.1 true

/-- The transfer of R427 of a core's accumulator store to a context. -/
def State.acsTransfer (s : State) (core ctx : Nat) : State :=
  let s1 := ((s.core core).heldImages.filter fun x => x.1 != ctx).foldl (fun t x => t.spill core x.1 x.2) s
  let s2 := (s1.groups.filter fun g => g.ctx == ctx && g.core == core && g.state != .saved).foldl (fun t g => t.attachPend core g) s1
  s2.updCore core fun c =>
    let keep := fun (t : Nat) => match c.tile t with | .live => true | .held x _ _ => x == ctx | _ => false
    { c with tiles := c.tiles.clear fun ix => !keep (ix / 1024), bad := c.bad.filter keep, acsown := BitVec.ofNat 32 ctx }

end Sys2Proof.Machine
end

