-- ==== Sys2Proof/Machine/Mesh.lean ====
section
/-!
DEFINITION. Mesh output (09 R269 to R272, 13 R349), pixels (09 R273 to R276, 13 R353, R355) and the exit of lanes (05 R159, R160).
-/
namespace Sys2Proof.Machine

/-! ## Mesh output -/

/-- The mesh group runs in the attribute pass (R349). -/
def State.attrPass (s : State) (g : Group) : Bool := (s.drawOf g).any fun d => d.phase == .attrs
def State.updMesh (s : State) (gid : Nat) (f : MeshOut → MeshOut) : State := s.updGroup gid fun g => { g with mesh := f g.mesh }
/-- MESH_OVERRUN of lanes (R272). -/
def Ctx.overrun (c : Ctx) (ls : List Nat) : TrapRec := c.trap cMeshOverrun 0 0 0 (laneMask ls)

/-- MCNT (R269). -/
def execMcnt (v p : BitVec 6) (s : State) : Host.Outcome State Fault Refusal :=
  let i := Instr.mcnt v p
  issue i s fun c =>
    let nv := (c.s v.toNat).toNat
    let np := (c.s p.toNat).toNat
    let tooMany := decide (256 < nv) || decide (256 < np)
    if s.attrPass c.g then .ok (s.done c i)
    else if c.g.mesh.declared then .error (c.trap cIllegal)
    else if tooMany && c.g.strict then .error (c.overrun (lanesOf c.m0))
    else .ok ((s.updMesh c.g.gid fun m => { m with declared := true, nv := min nv 256, np := min np 256, overrun := m.overrun || tooMany }).done c i)

/-- Of the writes of one instruction to one place, one remains for each word, a free choice (R207, R270, R271). -/
def State.lastOf {α : Type} (s : State) (key : Nat) (ls : List α) : Option α := ls[Config.pick s.fresh key % max 1 ls.length]?

/-- MVTX (R270). Whether the attribute pass keeps attributes 0 to 3, of which R270 and R349 say different things, is open (log 19). -/
def execMvtx (r : BitVec 7) (a : BitVec 5) (n : BitVec 4) (s : State) : Host.Outcome State Fault Refusal :=
  let i := Instr.mvtx r a n
  issue i s fun c =>
    let ls := (lanesOf c.m0).map fun l => (l, (c.v r.toNat l).toNat)
    let bad := ls.filter fun x => c.g.mesh.nv ≤ x.2
    let attr := s.attrPass c.g
    if !bad.isEmpty && c.g.strict then .error (c.overrun (bad.map (·.1)))
    else
      let js := (List.range (n.toNat + 1)).filter fun j => if attr then decide (4 ≤ j) || Config.keepsPosition else decide (j < 4)
      let good : List (Nat × Nat) := ls.filter fun x => x.2 < c.g.mesh.nv
      let puts : List (Nat × Word) := ((good.map (·.2)).eraseDups).flatMap fun x => js.filterMap fun j =>
        (s.lastOf (64 * x + j) (good.filter fun y => y.2 == x)).map fun (y : Nat × Nat) => (64 * x + j, c.v (4 * a.toNat + j) y.1)
      .ok (({ s with fresh := s.fresh + 1 }.updMesh c.g.gid fun m =>
        { m with attr := puts.foldl (fun t (y : Nat × Word) => t.set y.1 y.2) m.attr, overrun := m.overrun || !bad.isEmpty }).done c i)

/-- MPRIM (R271). -/
def execMprim (r x : BitVec 7) (s : State) : Host.Outcome State Fault Refusal :=
  let i := Instr.mprim r x
  issue i s fun c =>
    let m := c.g.mesh
    let ls := (lanesOf c.m0).map fun l => (l, (c.v r.toNat l).toNat, c.v x.toNat l)
    let vbad := fun (w : Word) => [field w 0 8, field w 8 8, field w 16 8].any fun k => decide (m.nv ≤ k)
    let out := ls.filter fun y => m.np ≤ y.2.1
    let inn := ls.filter fun y => y.2.1 < m.np
    let cull := inn.filter fun y => vbad y.2.2
    if s.attrPass c.g then .ok (s.done c i)
    else if c.g.strict && (!out.isEmpty || !cull.isEmpty) then .error (c.overrun ((ls.filter fun y => m.np ≤ y.2.1 || vbad y.2.2).map (·.1)))
    else
      let ps := (inn.map (·.2.1)).eraseDups
      let puts : List (Nat × BitVec 25) := ps.filterMap fun p => (s.lastOf p (inn.filter fun y => y.2.1 == p)).map fun (y : Nat × Nat × Word) => (p, bits y.2.2 0 25)
      let kept := (puts.filter fun (y : Nat × BitVec 25) => !vbad (y.2.setWidth 32)).map fun (y : Nat × BitVec 25) => (y.1, y.2.setWidth 32)
      .ok (({ s with fresh := s.fresh + 1 }.updMesh c.g.gid fun m =>
        { m with prim := m.prim.filter (fun (y : Nat × Word) => !ps.contains y.1) ++ kept, culled := min 65535 (m.culled + cull.length),
                 overrun := m.overrun || !out.isEmpty }).done c i)

/-! ## Attributes of pixels -/

/-- The lane of a pixel group (R353). -/
def Draw.fragAt (d : Draw) (gid wave lane : Nat) : Option Frag := d.frags.find? fun f => f.gid == gid && f.wave == wave && f.lane == lane
/-- The lane's fragment. -/
def State.fragOf (s : State) (c : Ctx) (lane : Nat) : Option Frag := (s.drawOf c.g).bind fun d => d.fragAt c.g.gid c.w.idx lane

/-- A fraction as a value. -/
def Frac.fl (x : Frac) : Fl := .fin (decide (x.num < 0)) x.num.natAbs x.den

/-- Attribute `n` of a vertex of a triangle: a vertex of the primitive itself, or one that clipping made, whose attributes are linear
in clip space (R350 step 3). -/
def MeshOut.attrAt (m : MeshOut) (ix : List Nat) (wts : List Frac) (n : Nat) : Fl :=
  let terms := (ix.zip wts).filterMap fun (x : Nat × Frac) =>
    if x.2.num = 0 then none
    else
      let a := if 16 ≤ n then Fl.zero else f32v (m.attr.get (64 * x.1 + n)).toNat
      some (if x.2.num = (x.2.den : Int) then a else x.2.fl.mul a)
  match terms with
  | [] => .zero
  | t :: ts => ts.foldl (fun a b => a.add false b) t

/-- The three values of attribute `n` on a lane's triangle (R274). -/
def State.attrs (s : State) (c : Ctx) (n lane : Nat) : List Fl :=
  match (s.drawOf c.g).bind fun d => (d.fragAt c.g.gid c.w.idx lane).bind fun f => (d.prims[f.prim]?).bind fun p =>
      (d.outs.find? fun o => o.1 == p.g).map fun o => p.wts.map fun w => o.2.attrAt p.ix w n with
  | some xs => xs
  | none => [.zero, .zero, .zero]

/-- The value of VINTP in a lane. -/
def interpolate (a : List Fl) (b1 b2 : Fl) : Nat :=
  let at' := fun (k : Nat) => (a[k]?).getD .zero
  let a0 := at' 0
  let dif := fun (k : Nat) => (at' k).add false a0.negate
  f32 ((a0.add false (b1.mul (dif 1))).add false (b2.mul (dif 2)))

/-- VINTP (R274). -/
def execVintp (d : BitVec 7) (b n : BitVec 6) (s : State) : Host.Outcome State Fault Refusal :=
  issueWave (.vintp d b n) s fun c =>
    let r := 2 * b.toNat
    c.w.putLanes d.toNat (lanesOf c.m0) fun l =>
      BitVec.ofNat 32 (interpolate (s.attrs c n.toNat l) (f32v (c.v r l).toNat) (f32v (c.v (r + 1) l).toNat))

/-! ## Colour -/

/-- PXW (R275). -/
def execPxw (r : BitVec 5) (t : BitVec 3) (s : State) : Host.Outcome State Fault Refusal :=
  let i := Instr.pxw r t
  issue i s fun c =>
    match s.drawOf c.g with
    | none => .error (c.trap cIllegal)
    | some d =>
      if d.cfmt t.toNat = 0 then .error (c.trap cIllegal)
      else
        let put := fun (f : Frag) =>
          if f.gid == c.g.gid && f.wave == c.w.idx && bitAt c.m0 f.lane && !f.helper then
            { f with writes := f.writes.filter (fun w => w.1 != t.toNat) ++
              [(t.toNat, (List.range 4).map fun k => c.v (4 * r.toNat + k) f.lane)] }
          else f
        .ok ((s.updDraw c.g.lid fun d => { d with frags := d.frags.map put }).done c i)

/-! ## The exit of lanes -/

/-- Fragments of lanes that exit: a killed one leaves its records behind (R276); what is now complete blends. -/
def State.pixelExit (s : State) (c : Ctx) (ls : Lanes) (killed : Bool) : State :=
  match s.drawOf c.g with
  | none => s
  | some d =>
    let mine := fun (f : Frag) => f.gid == c.g.gid && f.wave == c.w.idx && bitAt ls f.lane
    let px := ((d.frags.filter mine).map fun f => (f.x, f.y)).eraseDups
    let gone := fun (f : Frag) => if mine f then (if f.helper then none else some { f with done := true, writes := if killed then [] else f.writes }) else some f
    let s1 := s.updDraw c.g.lid fun d => { d with frags := d.frags.filterMap gone }
    px.foldl (fun t p => t.blendPixel c.g p.1 p.2) s1

/-- A wave all of whose lanes have exited gives back what it held (R160). -/
def Wave.finish (w : Wave) : Wave :=
  { w with vreg := [], mask := [], mons := List.replicate 4 {}, pend := [], batch := if w.batch.nopen = 0 then w.batch else w.batch.close,
           split := List.replicate 16 {}, aux := List.replicate 16 {}, banks := w.banks.map fun _ => {} }

/-- What the exit of a wave, or of a path of one, brings: barriers, lists, cohort barriers. -/
def State.afterExit (s : State) (g : Group) (ended : Bool) : State :=
  if ended then
    let s1 := s.updLaunch g.lid fun l => { l with exits := l.exits + 1 }
    ((s1.barSweep g.gid).cbarSweep g.lid).quietCheck g.gid
  else s

/-- The running path of the issuing part has exited (R159). -/
def State.exitPart (s : State) (c : Ctx) : State :=
  let w := s.waveOf c
  let less := fun (p : Pend) => { p with quads := p.quads &&& ~~~c.q }
  let w0 := { w with pend := (w.pend.map less).filter fun p => p.quads != 0 }
  let (w1, fs) := w0.exitPath c.ent
  let s1 := (s.setWave w1).noteFuses w1 ((fs.head?.map fun j => (w0.ent j).jpc).getD 0) fs
  if w1.living = 0 then (s1.updWave w1.wid Wave.finish).afterExit c.g true
  else
    let t := (s1.clash w1.wid).settle w1.wid
    t.stubCheck w1.wid c.q (t.freedSince w)

/-- A join record holds the lanes that were active at its split, less those that have exited since (R27). -/
def Wave.lessJoins (w : Wave) (ls : Lanes) : Wave :=
  { w with split := w.split.map fun e => if e.isJoin then { e with lmask := e.lmask &&& ~~~ls } else e }

/-- The lanes `ls` of the part exit at instruction `i`: the whole path, or a part that goes on with its other lanes (R159, R276). In a
handler part it is a double fault (R410). -/
def State.exitLanes (s : State) (c : Ctx) (i : Instr) (ls : Lanes) (killed : Bool) : State :=
  if c.hnd then
    let r := c.w.handler.treg
    s.doubleFault c.w (field r.tcause 0 8) 0 r.tpc r.taddr
  else
    let s1 := (s.trace c.w c.ent 7 (if killed then 1 else 0) [lo32 ls, hi32 ls]).pixelExit c ls killed
    let out := fun (w : Wave) => (({ w with exited := w.exited ||| ls } : Wave).lessJoins ls).updEnt c.ent fun e => { e with lmask := e.lmask &&& ~~~ls }
    let s2 := s1.updWave c.w.wid out
    if (c.m0 &&& ~~~ls) = 0 then s2.exitPart c else s2.done c i

/-- EXIT (R159). -/
def execExit (s : State) : Host.Outcome State Fault Refusal := issue .exit s fun c => .ok (s.exitLanes c .exit c.m0 false)

/-- PXK (R276). -/
def execPxk (k : BitVec 4) (s : State) : Host.Outcome State Fault Refusal :=
  issue (.pxk k) s fun c =>
    let ls := if k = 0 then c.m0 else c.mask k.toNat &&& c.m0
    .ok (if ls = 0 then s.done c (.pxk k) else s.exitLanes c (.pxk k) ls true)

end Sys2Proof.Machine
end

