-- ==== Sys2Proof/Machine/Glaze.lean ====
section
/-!
DEFINITION. Glaze targets (09 R277 to R284; 13 R357 to R365): descriptors, lists in memory, the pool, insertion, reading, resolving and
clearing.
-/
namespace Sys2Proof.Machine

/-! ## Targets, nodes and lists (R357 to R360) -/

/-- A valid glaze target descriptor. -/
structure GTarget where
  hbase : Nat
  pctl : Nat
  pdir : Nat
  rule : Nat
  degrade : Bool
  layers : Nat
  h : Nat
  w : Nat
  deriving DecidableEq, Repr

/-- A node (R359): binary32 depth, binary16 colours. -/
structure GNode where
  depth : Nat
  r : Nat
  g : Nat
  b : Nat
  a : Nat
  flags : Nat
  cov : Nat
  deriving DecidableEq, Repr

/-- A pixel's list as it is read (R363): where its head word is, its bits DGR and MRG, node indices and nodes from the front. -/
structure GList where
  va : Nat
  dgr : Bool := false
  mrg : Bool := false
  idx : List Nat := []
  nodes : List GNode := []
  deriving DecidableEq, Repr

/-- The pool control block (R360): free list, lowest index never used, pages, nodes in lists. -/
structure Pool where
  freeHead : Nat
  fresh : Nat
  npages : Nat
  used : Nat
  deriving DecidableEq, Repr

/-- The null index. -/
def glzNull : Nat := 0xffffff
/-- The capacity in nodes. -/
def Pool.cap (p : Pool) : Nat := min (256 * p.npages) 16777215

/-- A descriptor, unless it is invalid (R357). -/
def glzTarget (ws : List DWord) : Option GTarget :=
  let w := wordAt ws
  let t : GTarget := { hbase := field (w 0) 0 57, pctl := field (w 1) 0 57, pdir := field (w 2) 0 57, rule := field (w 3) 46 2, degrade := bitAt (w 3) 45,
                       layers := field (w 3) 40 3 + 1, h := field (w 3) 16 16 + 1, w := field (w 3) 0 16 + 1 }
  let bad := field (w 0) 57 7 != 0 || field (w 1) 57 7 != 0 || field (w 2) 57 7 != 0 || field (w 3) 48 16 != 0 || field (w 3) 43 2 != 0 ||
    field (w 3) 32 8 != 0 || w 4 != 0 || w 5 != 0 || w 6 != 0 || w 7 != 0
  if bad || t.hbase % 4096 ≠ 0 || t.pctl % 64 ≠ 0 || t.pdir % 64 ≠ 0 || t.rule = 3 || decide (16384 < t.w) || decide (16384 < t.h) then none else some t

/-- The head word of a pixel (R358). -/
def GTarget.headVa (t : GTarget) (x y : Nat) : Nat :=
  t.hbase + 4096 * (y / 32 * ((t.w + 31) / 32) + x / 32) + 4 * (32 * (y % 32) + x % 32)

/-- A position inside the target. -/
def GTarget.covers (t : GTarget) (x y : Nat) : Bool := decide (x < t.w) && decide (y < t.h)

/-- The words of a node as memory holds them. -/
def GNode.bytes (n : GNode) (next : Nat) : List Byte :=
  toBytes 4 n.depth ++ toBytes 2 n.r ++ toBytes 2 n.g ++ toBytes 2 n.b ++ toBytes 2 n.a ++ toBytes 4 (next * 256 + n.flags * 16 + n.cov)
/-- A node from its bytes, and its NEXT. -/
def GNode.ofBytes (bs : List Byte) : GNode × Nat :=
  let at' := fun (o n : Nat) => Sys2Proof.ofBytes ((bs.drop o).take n)
  ({ depth := at' 0 4, r := at' 4 2, g := at' 6 2, b := at' 8 2, a := at' 10 2, flags := at' 12 1 / 16, cov := at' 12 1 % 16 }, at' 13 3)

/-! ## Reading with checks (R363) -/

/-- Bytes at the slice, for an access that needs more than to read. -/
def State.takeFor (s : State) (v : Via) (need : Need) (va n : Nat) : Rd (List Byte) := do
  match s.span v.core v.ctx va n need false with
  | .error (.perm, a) => Rd.fail ⟨rkPerm, cPerm, a, need != .rd⟩
  | .error (.page, a) => Rd.fail (if v.errs.contains (a / 4096) then ⟨rkPerm, cPerm, a, need != .rd⟩ else ⟨rkPage, cPage, a, need != .rd⟩)
  | .ok _ => s.take v va n

/-- The descriptor bound to a slot: an unbound slot and an invalid descriptor raise ILLEGAL. -/
def State.takeTarget (s : State) (v : Via) (g : Group) (slot : Nat) : Rd GTarget := do
  let a := (g.glz[slot]?).getD 0
  if a = 0 then Rd.fail ⟨rkIllegal, cIllegal, 0, false⟩
  else
    let bs ← s.take v a 64
    match glzTarget ((List.range 8).map fun i => BitVec.ofNat 64 (ofBytes ((bs.drop (8 * i)).take 8))) with
    | none => Rd.fail ⟨rkIllegal, cIllegal, 0, false⟩
    | some t => return t

/-- The pool of a target. -/
def State.takePool (s : State) (v : Via) (t : GTarget) (need : Need) : Rd Pool := do
  let bs ← s.takeFor v need t.pctl 64
  let at' := fun (o : Nat) => ofBytes ((bs.drop o).take 8)
  return { freeHead := at' 0 % 2 ^ 24, fresh := at' 8 % 2 ^ 24, npages := at' 16 % 2 ^ 17, used := at' 24 % 2 ^ 25 }

/-- The pool, where it is needed. -/
def State.takePoolIf (s : State) (v : Via) (t : GTarget) (need : Bool) : Rd (Option Pool) := do
  if need then return some (← s.takePool v t .both) else return none

/-- The address of node `i` (R359): a directory entry beyond the virtual range raises PERM as any such address does (R430). -/
def State.takeNodeVa (s : State) (v : Via) (t : GTarget) (i : Nat) : Rd Nat := do
  return (← s.takeNum v (t.pdir + 8 * (i / 256)) 8) + 16 * (i % 256)

/-- At most `k` nodes of a chain, ending at the null index or beyond the capacity. -/
def State.takeChain (s : State) (v : Via) (t : GTarget) (cap : Nat) (need : Need) : Nat → Nat → Rd (List (Nat × GNode))
  | 0, _ => return []
  | k + 1, i =>
    if i = glzNull || cap ≤ i then return []
    else do
      let bs ← s.takeFor v need (← s.takeNodeVa v t i) 16
      let (n, next) := GNode.ofBytes bs
      return (i, n) :: (← s.takeChain v t cap need k next)

/-- The list of a pixel; that of a position outside the target is empty, and its head word is not read. -/
def State.takeList (s : State) (v : Via) (t : GTarget) (x y : Nat) (need : Need) : Rd GList := do
  let va := t.headVa x y
  if !t.covers x y then return { va }
  else
    let w := ofBytes (← s.takeFor v need va 4)
    let base : GList := { va, dgr := w.testBit 1, mrg := w.testBit 0 }
    if w / 16 % 16 = 0 then return base
    else
      let p ← s.takePool v t .rd
      let ns ← s.takeChain v t p.cap need (min t.layers (w / 16 % 16)) (w / 256)
      return { base with idx := ns.map (·.1), nodes := ns.map (·.2) }

/-! ## Writing -/

/-- Bytes at an address that was checked, written when they differ from what is there. -/
def State.glzPut (s : State) (ctx core va : Nat) (bs : List Byte) : State :=
  match s.span (some core) ctx va bs.length .wr false with
  | .error _ => s
  | .ok ks =>
    if (ks.map fun k => s.getAt k.key) = bs then s
    else (s.wrSpots { core := some core, func := s.ctxFunc ctx } (ks.zip bs)).unservedAt ctx (some core) true ks

/-- The address of a node that was checked. -/
def State.nodeVa (s : State) (core ctx : Nat) (t : GTarget) (i : Nat) : Nat :=
  match s.span (some core) ctx (t.pdir + 8 * (i / 256)) 8 .rd false with
  | .ok ks => ofBytes (ks.map fun k => s.getAt k.key) + 16 * (i % 256)
  | .error _ => 0

/-- The list of a pixel, written back: its nodes in their places, and its head word. -/
def State.putList (s : State) (ctx core : Nat) (t : GTarget) (l : GList) : State :=
  let s1 := ((l.idx.zip l.nodes).zip (l.idx.drop 1 ++ [glzNull])).foldl (fun u x =>
    u.glzPut ctx core (u.nodeVa core ctx t x.1.1) (x.1.2.bytes x.2)) s
  s1.glzPut ctx core l.va (toBytes 4 ((l.idx.headD glzNull) * 256 + l.idx.length * 16 + (if l.dgr then 2 else 0) + if l.mrg then 1 else 0))

/-- The memory of a pool's control block is one from the unit's first write of it on (log 43). -/
def State.knowPool (s : State) (ctx core : Nat) (t : GTarget) : State :=
  match s.reach (some core) ctx t.pctl .wr false with
  | .ok x => if s.pools.contains x.key then s else { s with pools := s.pools ++ [x.key] }
  | .error _ => s

/-- The pool control block, written back; `degraded` sets its sticky bit. -/
def State.putPool (s : State) (ctx core : Nat) (t : GTarget) (p : Pool) (degraded : Bool) : State :=
  let s1 := (((s.knowPool ctx core t).glzPut ctx core t.pctl (toBytes 8 p.freeHead)).glzPut ctx core (t.pctl + 8) (toBytes 8 p.fresh)).glzPut ctx core (t.pctl + 24)
    (toBytes 8 (p.used % 2 ^ 25))
  if degraded then s1.glzPut ctx core (t.pctl + 32) (toBytes 8 1) else s1

/-- The nodes of lists go to the free list, each list from front to back (R361). -/
def State.freeLists (s : State) (ctx core : Nat) (t : GTarget) (p : Pool) (ls : List GList) : State :=
  let all := ls.flatMap fun l => l.idx.zip l.nodes
  let r := all.foldl (fun (u : State × Pool) x =>
    (u.1.glzPut ctx core (u.1.nodeVa core ctx t x.1) (x.2.bytes u.2.freeHead), { u.2 with freeHead := x.1, used := u.2.used + 2 ^ 25 - 1 })) (s, p)
  let s1 := ls.foldl (fun u l => u.glzPut ctx core l.va (toBytes 4 0xffffff00)) r.1
  if all.isEmpty then s1 else s1.putPool ctx core t r.2 false

/-! ## Insertion (R278 to R280) -/

/-- A binary16 value, and one rounded to it. -/
def f16v (x : Nat) : Fl := Fmt.b16.value x
def f16 (x : Fl) : Nat := Fmt.b16.round .rne false false x

/-- merge(f, b) by a rule (R279). -/
def glzMerge (rule : Nat) (f b : GNode) : GNode :=
  let ch := fun (x y : Nat) =>
    match rule with
    | 0 => f16 ((f16v x).add false ((Fl.add false (.fin false 1 1) (f16v f.a).negate).mul (f16v y)))
    | 1 => x
    | _ => f16 ((f16v x).add false (f16v y))
  { f with r := ch f.r b.r, g := ch f.g b.g, b := ch f.b b.b, a := ch f.a b.a, cov := f.cov ||| b.cov, flags := f.flags ||| 8 }

/-- The gap between neighbouring depths. -/
def glzGap (a b : Nat) : Fl :=
  match f32v b, f32v a with
  | .inf x, .inf y => if x = y then .zero else .inf x
  | u, v => u.add false v.negate

/-- The pair that merges: the smallest gap, of equal ones the farthest; a NaN only when all are. -/
def glzPair (ns : List GNode) : Nat :=
  let gaps := (ns.zip (ns.drop 1)).mapIdx fun k x => (k, glzGap x.1.depth x.2.depth)
  (gaps.foldl (fun (best : Nat × Fl) x => if best.2.isNan || (!x.2.isNan && !best.2.lt x.2) then x else best) (0, .nan)).1

/-- The nodes with the pair of smallest gap merged. -/
def glzSqueeze (rule : Nat) (ns : List GNode) : List GNode :=
  let k := glzPair ns
  match ns[k]?, ns[k + 1]? with
  | some f, some b => ns.take k ++ [glzMerge rule f b] ++ ns.drop (k + 2)
  | _, _ => ns

/-- Where a node goes: behind all of a depth that is not greater. -/
def glzPlace (ns : List GNode) (n : GNode) : Nat :=
  (ns.filter fun m => !(f32v m.depth).isNan && !(f32v n.depth).isNan && !(f32v n.depth).lt (f32v m.depth)).length

/-- An insertion: with a node `i` from the pool, or by a merge in place; a merge that R280 forces marks the list degraded, and an empty
list then drops the fragment. -/
def GList.insert (l : GList) (rule layers : Nat) (n : GNode) (i : Option Nat) : GList :=
  let k := glzPlace l.nodes n
  let ns := l.nodes.take k ++ [n] ++ l.nodes.drop k
  match i with
  | some j => { l with idx := l.idx.take k ++ [j] ++ l.idx.drop k, nodes := ns }
  | none =>
    let full := l.nodes.length == layers
    if l.nodes.isEmpty then { l with dgr := true }
    else { l with nodes := glzSqueeze rule ns, mrg := true, dgr := l.dgr || !full }

/-- One node from the pool (R361). -/
def State.takeNode (s : State) (v : Via) (t : GTarget) (p : Pool) : Rd (Option Nat × Pool) := do
  if p.freeHead ≠ glzNull && decide (p.freeHead < p.cap) then
    let bs ← s.takeFor v .both (← s.takeNodeVa v t p.freeHead) 16
    return (some p.freeHead, { p with freeHead := (GNode.ofBytes bs).2, used := p.used + 1 })
  else if p.fresh < p.cap then
    let _ ← s.takeFor v .both (← s.takeNodeVa v t p.fresh) 16
    return (some p.fresh, { p with fresh := p.fresh + 1, used := p.used + 1 })
  else return (none, p)

/-! ## Lanes -/

/-- Checks of the lanes, none of which acts unless all may (R363): a PAGE parks the whole part. -/
def State.together {α : Type} (s : State) (c : Ctx) (i : Instr) (ps : List (Nat × Except LFault α)) (go : List (Nat × α) → Except TrapRec State) :
    Except TrapRec State :=
  match c.firstFault ps false with
  | some t => .error t
  | none => match pageLanes ps with
    | [] => (go (okLanes ps)).map fun t => t.done c i
    | bad => .ok (s.park c i bad 0 true)

/-- How glaze instructions of a part read. -/
def Ctx.glzVia (c : Ctx) : Via := { ctx := c.g.ctx, core := some c.w.core, errs := c.aux.errs }

/-- The lanes of the part with their fragments. -/
def State.glzLanes (s : State) (c : Ctx) : List (Nat × Frag) := (lanesOf c.m0).filterMap fun l => (s.fragOf c l).map fun f => (l, f)

/-- A glaze operation may perform: every earlier lane of its lanes' pixels, helper lanes among them, has exited (R281, R353). -/
def State.glzTurn (s : State) (c : Ctx) : Bool :=
  match s.drawOf c.g with
  | none => true
  | some d => (s.glzLanes c).all fun x =>
      (d.frags.takeWhile fun f => !(f.gid == c.g.gid && f.wave == c.w.idx && f.lane == x.1)).all fun f => f.done || f.x != x.2.x || f.y != x.2.y

/-- A GLZCLR may perform: in a group of a draw, what its queue launched before the draw is complete (R284, R356). -/
def State.clearTurn (s : State) (c : Ctx) : Bool :=
  match s.launch? c.g.lid with
  | some l => l.draw.isNone || !s.earlier l fun _ => true
  | none => true

/-- Four registers as a node (R277), unless they insert nothing (R278). -/
def Ctx.node (c : Ctx) (r l : Nat) : Option GNode :=
  let v := fun (k : Nat) => c.v (r + k) l
  let n : GNode := { depth := (v 0).toNat, g := field (v 1) 16 16, r := field (v 1) 0 16, a := field (v 2) 16 16, b := field (v 2) 0 16,
                     flags := field (v 3) 4 3, cov := field (v 3) 0 4 }
  if n.cov = 0 || (f32v n.depth).isNan then none else some n

/-- What a lane of a GLZIN finds: the target, and its list and node if it inserts. -/
def State.glzinLane (s : State) (c : Ctx) (slot r : Nat) (f : Frag) (l : Nat) : Rd (GTarget × Option (GList × GNode)) := do
  let t ← s.takeTarget c.glzVia c.g slot
  match (if f.helper || !t.covers f.x f.y then none else c.node r l) with
  | none => return (t, none)
  | some n => return (t, some (← s.takeList c.glzVia t f.x f.y .both, n))

/-- Nodes for the lanes that need one, in ascending lane order, as long as the pool has some; the pool after them. -/
def State.glzAlloc (s : State) (v : Via) (t : GTarget) : Pool → List Nat → List (Nat × Except LFault (Option Nat)) × Pool
  | p, [] => ([], p)
  | p, l :: ls =>
    match (s.takeNode v t p).eval.1 with
    | .error f => ([(l, .error f)], p)
    | .ok (i, p1) =>
      let (r, p2) := s.glzAlloc v t p1 ls
      ((l, .ok i) :: r, p2)

/-- The nodes that the lanes `need` get, and the pool after them; nothing when no lane needs one (R279). -/
def State.glzSupply (s : State) (v : Via) (t : GTarget) (need : List Nat) : List (Nat × Except LFault (Option Nat)) × Option Pool :=
  if need.isEmpty then ([], none)
  else match (s.takePool v t .both).eval.1 with
    | .error f => (need.map fun l => (l, .error f), none)
    | .ok p => let (a, q) := s.glzAlloc v t p need; (a, some q)

/-- A GLZIN whose turn has come (R278 to R280). -/
def State.glzInsert (s : State) (c : Ctx) (i : Instr) (r slot : Nat) : Except TrapRec State :=
  let v := c.glzVia
  let (s1, ps) := s.readNow c (fun t => (s.glzLanes c).map fun x => (x.1, (t.glzinLane c slot r x.2 x.1).eval)) (way := .slice)
  let ins := (okLanes ps).filterMap fun x => x.2.2.map fun y => (x.1, y)
  match okLanes ps with
  | [] => s1.together c i ps fun _ => .ok s1
  | (_, t, _) :: _ =>
    let need := (ins.filter fun x => x.2.1.nodes.length < t.layers).map (·.1)
    let (al, p1) := s1.glzSupply v t need
    let bad := ps.filterMap (fun x => match x.2 with | .error f => some (x.1, (.error f : Except LFault Unit)) | .ok _ => none)
    let bad2 := if bad.isEmpty then al.filterMap (fun x => match x.2 with | .error f => some (x.1, (.error f : Except LFault Unit)) | .ok _ => none) else bad
    let short := al.any fun x => match x.2 with | .ok none => true | _ => false
    s1.together c i bad2 fun _ =>
      if short && !t.degrade then .error (c.trap cGlazePoolEmpty 0 (BitVec.ofNat 32 slot) (BitVec.ofNat 64 t.pctl) (laneMask need))
      else
        let nodeOf := fun (l : Nat) => (al.find? fun x => x.1 == l).bind fun x => match x.2 with | .ok j => j | .error _ => none
        let s2 := ins.foldl (fun u x => u.putList c.g.ctx c.w.core t (x.2.1.insert t.rule t.layers x.2.2 (nodeOf x.1))) s1
        let s3 := match p1 with | some p => s2.putPool c.g.ctx c.w.core t p short | none => s2
        .ok (if short then s3.updGroup c.g.gid fun g => { g with degraded := true } else s3)

/-- The words of a node (R277). -/
def GNode.words (n : GNode) (count : Nat) : List Word :=
  [BitVec.ofNat 32 n.depth, BitVec.ofNat 32 (n.g * 65536 + n.r), BitVec.ofNat 32 (n.a * 65536 + n.b), BitVec.ofNat 32 (count * 256 + n.flags * 16 + n.cov)]

/-- What GLZRD gives a lane (R282). -/
def GList.read (l : GList) (i : Nat) : List Word :=
  match l.nodes[i]? with
  | some n => n.words l.nodes.length
  | none => [0x7f800000, 0, 0, BitVec.ofNat 32 (l.nodes.length * 256)]

/-- A lane's list, as GLZRD and GLZRES read it. -/
def State.glzReadLane (s : State) (c : Ctx) (slot : Nat) (f : Frag) (need : Need) : Rd (GTarget × GList) := do
  let t ← s.takeTarget c.glzVia c.g slot
  return (t, ← s.takeList c.glzVia t f.x f.y (if f.helper then .rd else need))

/-- A GLZRD whose turn has come. -/
def State.glzRead (s : State) (c : Ctx) (i : Instr) (d x : Nat) (l : BitVec 4) (slot : Nat) : Except TrapRec State :=
  let (s1, ps) := s.readNow c (fun t => (s.glzLanes c).map fun y => (y.1, (t.glzReadLane c slot y.2 .rd).eval)) (way := .slice)
  s1.together c i ps fun ok =>
    let res := ok.flatMap fun y => (y.2.2.read (c.v x y.1).toNat).mapIdx fun k w => (64 * (d + k) + y.1, w)
    .ok (s1.pendAdd c i c.q l res []).2

/-- The composite of a list over a background: words of v[N + 1] and v[N + 2] of R277 (R283). -/
def GList.resolve (l : GList) (lo hi : Word) : List Word :=
  let step := fun (a : List Nat × Nat) (n : GNode) =>
    (a.1.zip [n.r, n.g, n.b, n.a]).map (fun y => f32add y.1 (f32 ((f32v a.2).mul (f16v y.2)))) |> fun cs =>
      (cs, f32 ((f32v a.2).mul (f32v (f32 (Fl.add false (.fin false 1 1) (f16v n.a).negate)))))
  let (cs, t) := l.nodes.foldl step ([0, 0, 0, 0], f32one)
  let bg := [field lo 0 16, field lo 16 16, field hi 0 16, field hi 16 16]
  let out := (cs.zip bg).map fun y => f16 ((f32v y.1).add false ((f32v t).mul (f16v y.2)))
  let at' := fun (k : Nat) => (out[k]?).getD 0
  [BitVec.ofNat 32 (at' 1 * 65536 + at' 0), BitVec.ofNat 32 (at' 3 * 65536 + at' 2)]

/-- A GLZRES whose turn has come. -/
def State.glzResolve (s : State) (c : Ctx) (i : Instr) (d b : Nat) (l : BitVec 4) (slot : Nat) : Except TrapRec State :=
  let lanes := s.glzLanes c
  let look := fun (t : State) (f : Frag) => (do
    let (g, ls) ← t.glzReadLane c slot f .both
    let p ← t.takePoolIf c.glzVia g (!f.helper && !ls.idx.isEmpty)
    return (g, ls, p) : Rd (GTarget × GList × Option Pool))
  let (s1, ps) := s.readNow c (fun t => lanes.map fun y => (y.1, (look t y.2).eval)) (way := .slice)
  s1.together c i ps fun ok =>
    let res := ok.flatMap fun y => (y.2.2.1.resolve (c.v b y.1) (c.v (b + 1) y.1)).mapIdx fun k w => (64 * (d + k) + y.1, w)
    let own := ok.filter fun y => lanes.any fun z => z.1 == y.1 && !z.2.helper && y.2.1.covers z.2.x z.2.y
    let s2 := match own with
      | [] => s1
      | y :: _ =>
        let p : Pool := (own.findSome? fun (z : Nat × GTarget × GList × Option Pool) => z.2.2.2).getD { freeHead := glzNull, fresh := 0, npages := 0, used := 0 }
        s1.freeLists c.g.ctx c.w.core y.2.1 p (own.map fun (z : Nat × GTarget × GList × Option Pool) => z.2.2.1)
    .ok (s2.pendAdd c i c.q l res []).2

/-! ## Instructions -/

/-- A glaze operation that waits for its pixels' turn. -/
def State.glzWait (s : State) (c : Ctx) (i : Instr) (go : Except TrapRec State) : Except TrapRec State :=
  if s.glzTurn c then go else .ok (s.block c i)

/-- GLZIN (R278, R281). -/
def execGlzin (n : BitVec 5) (t : BitVec 2) (s : State) : Host.Outcome State Fault Refusal :=
  let i := Instr.glzin n t
  issue i s fun c => s.glzWait c i (s.glzInsert c i (4 * n.toNat) t.toNat)

/-- GLZRD (R282). -/
def execGlzrd (d : BitVec 5) (x : BitVec 7) (l : BitVec 4) (t : BitVec 2) (s : State) : Host.Outcome State Fault Refusal :=
  let i := Instr.glzrd d x l t
  issue i s fun c => s.glzWait c i (s.glzRead c i (4 * d.toNat) x.toNat l t.toNat)

/-- GLZRES (R283). -/
def execGlzres (d b : BitVec 6) (l : BitVec 4) (t : BitVec 2) (s : State) : Host.Outcome State Fault Refusal :=
  let i := Instr.glzres d b l t
  issue i s fun c => s.glzWait c i (s.glzResolve c i (2 * d.toNat) (2 * b.toNat) l t.toNat)

/-- The pixels of a rectangle, clipped to a target (R284). -/
def GTarget.rect (t : GTarget) (x0 y0 w h : Nat) : List (Nat × Nat) :=
  (List.range (min h (t.h - y0))).flatMap fun dy => (List.range (min w (t.w - x0))).map fun dx => (x0 + dx, y0 + dy)

/-- What a GLZCLR does when its turn has come (R284). -/
def State.glzClear (s : State) (c : Ctx) (i : Instr) (r t : Nat) : Except TrapRec State :=
  let a := c.s (2 * r)
  let b := c.s (2 * r + 1)
  let look := fun (u : State) => (do
    let g ← u.takeTarget c.glzVia c.g t
    let ls ← (g.rect (field a 0 16) (field a 16 16) (field b 0 16) (field b 16 16)).mapM fun x => u.takeList c.glzVia g x.1 x.2 .both
    let p ← u.takePoolIf c.glzVia g (ls.any fun l => !l.idx.isEmpty)
    return (g, ls, p) : Rd (GTarget × List GList × Option Pool))
  let (s1, ps) := s.readNow c (fun u => [(0, (look u).eval)]) (way := .slice)
  match ps with
  | (_, p) :: _ => s1.scalarwise c i p fun x =>
    s1.freeLists c.g.ctx c.w.core x.1 (x.2.2.getD { freeHead := glzNull, fresh := 0, npages := 0, used := 0 }) x.2.1
  | [] => .ok s1

/-- GLZCLR (R284); in a group of a draw it waits until the launches before the draw are complete (R356). -/
def execGlzclr (r : BitVec 5) (t : BitVec 2) (s : State) : Host.Outcome State Fault Refusal :=
  let i := Instr.glzclr r t
  issue i s fun c => if s.clearTurn c then s.glzClear c i r.toNat t.toNat else .ok (s.block c i)

/-- The turn of a glaze operation that waits at issue. -/
def State.glazeTurn (s : State) (c : Ctx) : Instr → Bool
  | .glzclr .. => s.clearTurn c
  | _ => s.glzTurn c

/-- GLZIN_TURN_WAIT_END (R281, R356). -/
def execGlzinTurnWaitEnd (who : Issuer) (s : State) : Host.Outcome State Fault Refusal :=
  match s.blockedAt who with
  | none => .next s
  | some (c, i) =>
    if !s.glazeTurn c i then .next s
    else
      let r := match i with
        | .glzin n t => s.glzInsert c i (4 * n.toNat) t.toNat
        | .glzrd d x l t => s.glzRead c i (4 * d.toNat) x.toNat l t.toNat
        | .glzres d b l t => s.glzResolve c i (2 * d.toNat) (2 * b.toNat) l t.toNat
        | .glzclr r t => s.glzClear c i r.toNat t.toNat
        | _ => .ok s
      match r with
      | .ok t => .next t
      | .error t => .next (s.raise c t)

end Sys2Proof.Machine
end

