-- ==== Sys2Proof/Machine/WaveEvents.lean ====
section
/-!
DEFINITION. The events of waves that time and completion bring (01 R36, R41, R42, R44; 04 R124; 05 R162, R175; 19 R408; 21 R454), and
what one clk does to a wave (01 R41, R46).
-/
namespace Sys2Proof.Machine

/-! ## What one clk does -/

/-- A wait with one clk less. -/
def Park.tick : Park → Park
  | .sleep n => .sleep (n - 1)
  | .monw a (some n) g => .monw a (some (n - 1)) g
  | p => p

/-- A fuse set stops counting while one of its parts is PARKF (R44). -/
def State.setParked (s : State) (w : Wave) (e : Nat) : Bool :=
  match s.forcedAt w e with
  | some n => (w.partsIn (fuseSet (w.ent e).qmask n)).any fun k => (w.ent k).st == stParkf
  | none => false

/-- TCNT of a waiting part, saturating at 2^21 - 1 (R27, R41). -/
def SplitEntry.count (e : SplitEntry) : SplitEntry := if e.tcnt.toNat = 2 ^ 21 - 1 then e else { e with tcnt := e.tcnt + 1 }

/-- The pending load on which a part stalls: complete in some of its quads and not in others (R36). -/
def Ctx.partial? (c : Ctx) (i : Instr) : Option Pend :=
  c.w.pend.find? fun p => (p.quads &&& c.q) != 0 && (c.q &&& ~~~p.quads) != 0 &&
    ((uses i).vr.any fun o => p.vdst.any fun d => decide (o.1 ≤ d ∧ d < o.1 + o.2))

/-- The pending instructions of the part that keep a ninth L = 15 instruction waiting: the oldest of each scoreboard that is full (R126). -/
def Ctx.oldest (c : Ctx) : List Nat :=
  ((quadsOf c.q).filterMap fun q =>
    let ps := c.w.pend.filter fun p => p.win.isNone && bitAt p.quads q
    if 8 ≤ ps.length then ps.head?.map (·.id) else none).eraseDups

/-- What a part is waiting for, after one clk: the time since which it is ready (R47), the stall count of R36, the ninth instruction of
R126. The clk of a halt count for none of them, from its request on (R449). -/
def State.readiness (s : State) (c : Ctx) (clk : Nat) (a : Aux) : Aux :=
  if (s.core c.w.core).dbg.halted || (s.core c.w.core).dbg.halting then { a with readyAt := if a.readyAt = 0 then 0 else a.readyAt + 1 }
  else
    let r := s.partReady { c with aux := a }
    let a1 := if r then (if a.readyAt = 0 then { a with readyAt := clk + 1 } else a) else { a with readyAt := 0 }
    let i := s.nextInstr c
    let st := !r && (c.w.ent c.ent).st == stReady && !c.hnd && (i.bind c.partial?).isSome && s.mayRun c
    { a1 with
      stall := if st then a.stall + 1 else 0
      ninth := if i.bind lookahead == some 15 then (if a.ninth.isEmpty then c.oldest else a.ninth) else [] }

/-- One clk of a wave: waits advance unless it is stopped, yields run down (R162), readiness is noted. -/
def State.tickWave (s : State) (w : Wave) : Wave :=
  let clk := (s.core w.core).clk.toNat
  let stop := s.stopped w
  let split := entIdx.map fun e =>
    let x := w.ent e
    if !stop && x.isPart && (x.st == stJwait || (x.st == stFwait && !s.setParked w e)) then x.count else x
  let aux := entIdx.map fun e =>
    let a := w.auxAt e
    let a1 := if stop then a else { a with park := a.park.tick }
    let a2 := { a1 with trap := a1.trap.map fun t => { t with now := false }, yield := if a.yield > 1 then a.yield - 1 else a.yield, elig := a.elig - 1 }
    match s.ctx? ⟨w.wid, some e⟩ with
    | some c => s.readiness c clk a2
    | none => a2
  let h := w.handler.aux
  let h1 := { h with yield := if h.yield > 1 then h.yield - 1 else h.yield, elig := h.elig - 1 }
  let h2 := match s.ctx? ⟨w.wid, none⟩ with | some c => s.readiness c clk h1 | none => h1
  let w1 := { w with split, aux, handler := { w.handler with aux := h2 }, fuseto := (w.toFuseto.map (·.2)).getD w.fuseto, toFuseto := none,
                     splpol := (w.toSplpol.map (·.2)).getD w.splpol, toSplpol := none }
  if stop then w1 else w1.unstop

/-! ## Events -/

/-- The fuse timeout in clk (R25). -/
def Wave.timeout (w : Wave) : Nat := 2 ^ field w.fuseto 0 5

/-- JOIN_LAPSE (R41). -/
def execJoinLapse (wid ent : Nat) (s : State) : Host.Outcome State Fault Refusal :=
  match s.wave? wid with
  | none => .next s
  | some w =>
    let openOf := fun e => (w.ancestors 16 e).find? fun j => (w.ent j).isJoin && (w.ent j).st == 0
    if (w.ent ent).isPart && (w.ent ent).st == stJwait && decide (w.timeout ≤ (w.ent ent).tcnt.toNat) then
      match openOf ent with
      | none => .next s
      | some j =>
        let w1 := (w.under j).foldl (fun v k =>
          if (w.ent k).isPart && (w.ent k).st == stJwait && openOf k == some j then
            (v.updEnt k fun x => { x with st := stReady, pc := x.pc + 1, tcnt := 0 }).updAux k Aux.fresh
          else v) w
        let w2 := w1.updEnt j fun r => { r with st := 1, arrq := 0 }
        let ctx := ((s.group? w.gid).map (·.ctx)).getD 0
        .next (((s.setWave w2).traceAt w2 j 6 1 (w2.ent j).jpc []).count (s.ctxFunc ctx) 4 (panelOf w.core) 1)
    else .next s

/-- FUSE_TIMEOUT (R42): the part goes on alone after its FUSE. -/
def execFuseTimeout (wid ent : Nat) (s : State) : Host.Outcome State Fault Refusal :=
  match s.wave? wid with
  | none => .next s
  | some w =>
    if (w.ent ent).isPart && (w.ent ent).st == stFwait && s.instrAt w.core (w.ent ent).pc == some .fuse &&
        decide (w.timeout ≤ (w.ent ent).tcnt.toNat) then
      .next (s.setWave ((w.updEnt ent fun x => { x with st := stReady, pc := x.pc + 1, tcnt := 0 }).updAux ent Aux.fresh))
    else .next s

/-- FORCED_FUSE_TIMEOUT (R44): WIDTH_UNMET in every FWAIT part of the set. -/
def execForcedFuseTimeout (wid ent : Nat) (s : State) : Host.Outcome State Fault Refusal :=
  match s.wave? wid with
  | none => .next s
  | some w => match s.forcedAt w ent with
    | none => .next s
    | some n =>
      if (w.ent ent).isPart && decide (w.timeout ≤ (w.ent ent).tcnt.toNat) then
        let w1 := (w.partsIn (fuseSet (w.ent ent).qmask n)).foldl s.unmet w
        .next ((s.setWave w1).enterPending wid)
      else .next s

/-- The decomposition of a part that has stalled for 32 clk at a load that is there for some of its quads, by "data present" and "data
absent", where R36 lets it split: the pending load, and the new parts. -/
def State.missParts (s : State) (wid ent : Nat) : Option (Ctx × Pend × List NewPart) :=
  match s.ctx? ⟨wid, some ent⟩ with
  | none => none
  | some c => match (s.nextInstr c).bind c.partial? with
    | none => none
    | some p =>
      let cls := fun q => if bits c.m0 (4 * q) 4 = 0 then QClass.idle else if bitAt p.quads q then .no else .yes
      let ps := decompose cls (runLog c.q) (lowQuad c.q)
      if (c.w.ent ent).st == stReady && bitAt c.w.splpol 2 && (c.w.records ent).isEmpty && decide (32 ≤ c.aux.stall) &&
          decide (2 ≤ ps.length) && decide (entriesNeeded ps ≤ c.w.freeEnts.length) then some (c, p, ps)
      else none

/-- MISS_SPLIT (R36). -/
def execMissSplit (wid ent : Nat) (s : State) : Host.Outcome State Fault Refusal :=
  match s.missParts wid ent with
  | none => .next s
  | some (c, p, ps) =>
    let take := lanesOfQuads (c.q &&& ~~~p.quads)
    let w1 := c.w.splitInto ent s.nextId c.m0 take c.pc { pcYes := c.pc, pcNo := c.pc, jany := true } ps
    .next (({ s with nextId := s.nextId + 16 }.setWave w1).noteSplit c.w ent 2 (c.m0 &&& take))

/-- The quads of a pending instruction for which nothing is in flight. -/
def State.readyQuads (s : State) (p : Pend) : Quads :=
  let as := s.inflight.filter fun a => a.pend == some p.id
  if as.any (·.scalar) then 0
  else p.quads &&& ~~~quadMask (as.flatMap fun a => a.pieces.map fun x => x.lane / 4)

/-- The results of a pending instruction in the quads `q` are written (R124). -/
def Wave.putResults (w : Wave) (p : Pend) (q : Quads) : Wave :=
  let w1 := p.vres.foldl (fun v r => if bitAt q (r.1 % 64 / 4) then { v with vreg := v.vreg.set r.1 r.2 } else v) w
  p.sres.foldl (fun v r =>
    if p.hnd then { v with handler := { v.handler with bank := { v.handler.bank with sreg := v.handler.bank.sreg.set r.1 r.2 } } }
    else { v with banks := mapQuads q (fun b => { b with sreg := b.sreg.set r.1 r.2 }) 0 v.banks }) w1

/-- The windows that completing instructions close in a group that a pre-emption drains: its save image shows them (R418, R422). -/
def State.noteLook (s : State) (w : Wave) : State :=
  match s.group? w.gid with
  | some g => match g.state with
    | .draining _ => w.parts.foldl (fun t e => match s.ctx? ⟨w.wid, some e⟩ with
      | some c => t.updWave w.wid fun v => v.updAux e fun a => { a with look := if a.look = 0 then c.look else a.look }
      | none => t) s
    | _ => s
  | none => s

/-- LONG_LATENCY_COMPLETE (R124): what is there of the results is written, and the instruction is complete in those quads; a trap
that waited for it may then be entered (R408). -/
def execLongLatencyComplete (wid pid : Nat) (s : State) : Host.Outcome State Fault Refusal :=
  match s.wave? wid with
  | none => .next s
  | some w => match w.pend.find? fun p => p.id == pid with
    | none => .next s
    | some p =>
      let q := s.readyQuads p
      if q = 0 then .next s
      else
        let s0 := s.noteLook w
        let w1 := ((s0.wave? wid).getD w).putResults p q
        let rest := p.quads &&& ~~~q
        let ps := if rest = 0 then w1.pend.filter fun x => x.id != pid
          else w1.pend.map fun x => if x.id == pid then { x with quads := rest } else x
        let w2 := { w1 with pend := ps }
        .next ((s0.setWave w2).enterPending wid)

/-- SLEEP_EXPIRE (R175). -/
def execSleepExpire (wid ent : Nat) (s : State) : Host.Outcome State Fault Refusal :=
  match s.wave? wid with
  | none => .next s
  | some w =>
    if (w.ent ent).isPart && (w.ent ent).st == stParkw && (w.auxAt ent).park == .sleep 0 then
      .next (s.setWave ((w.updEnt ent fun x => { x with st := stReady }).updAux ent fun a => { a with park := .none }))
    else .next s

/-- YIELD_EXPIRE (R162). -/
def execYieldExpire (who : Issuer) (s : State) : Host.Outcome State Fault Refusal :=
  match s.ctx? who with
  | none => .next s
  | some c => .next (if c.aux.yield == 1 then s.setWave (c.setAux c.w fun a => { a with yield := 0 }) else s)

/-- TRAP_ENTRY (R408, R415): a pending trap is entered, or the restore request of a wave whose parts all wait (R45). -/
def execTrapEntry (wid : Nat) (s : State) : Host.Outcome State Fault Refusal :=
  .next ((match s.wave? wid with | some w => if s.restoreDue w then s.restoreCheck wid else s | none => s).enterPending wid)

/-- A core is asked to stop its parts at their next boundaries (R449). -/
def State.requestHalt (s : State) (core : Nat) : State :=
  if (s.core core).dbg.halted then s else s.updCore core fun c => { c with dbg := { c.dbg with halting := true } }

/-- PC_COMPARATOR_MATCH (R174, R454): BREAK at the matched bundle with the index of the lowest match, a halt of the core, or both where
comparators of both kinds match; the bundle then issues without matching again. -/
def execPcComparatorMatch (who : Issuer) (k : Nat) (s : State) : Host.Outcome State Fault Refusal :=
  match s.ctx? who with
  | none => .next s
  | some c =>
    if s.comparator c == some k then
      let s1 := if (s.matching c).all (s.cmpHalts c) then s else s.raise c (c.trap cBreak 1 (BitVec.ofNat 32 k))
      let s2 := s1.updWave c.w.wid fun w => c.setAux w fun a => { a with skipCmp := some c.pc }
      .next (if (s.matching c).any (s.cmpHalts c) then s2.requestHalt c.w.core else s2)
    else .next s

end Sys2Proof.Machine
end

