-- ==== Sys2Proof/Machine/System.lean ====
section
/-!
DEFINITION. The system instructions (05 R168 to R176; 19 R410, R412, R417, R427): special registers, traps and returns, split-table
access, regions, progress points, breakpoints, SLEEP and EVSIG.
-/
namespace Sys2Proof.Machine

/-! ## Special registers (R24 to R26, R73, R134, R168, R412) -/

/-- A special register of 64 bits. -/
def State.special64 (s : State) (c : Ctx) (n : Nat) : DWord :=
  match n with
  | 0x008 => (s.core c.w.core).clk
  | 0x104 => c.w.handler.treg.taddr
  | _ => c.w.handler.treg.tmask

/-- A special register of 32 bits, as the part reads it. -/
def State.special32 (s : State) (c : Ctx) (n : Nat) : Word :=
  let t := c.w.handler.treg
  match n with
  | 0x002 => BitVec.ofNat 32 c.w.idx
  | 0x003 => BitVec.ofNat 32 c.part
  | 0x004 => BitVec.ofNat 32 c.w.width
  | 0x005 => BitVec.ofNat 32 c.pwidth
  | 0x006 => c.g.group
  | 0x007 => c.g.cohort
  | 0x009 => c.w.fuseto
  | 0x00a => c.w.splpol
  | 0x00b => c.qtc
  | 0x00c => (s.core c.w.core).acsown
  | 0x100 => t.tcause
  | 0x101 => t.tpc
  | 0x102 => t.tent
  | 0x103 => t.tinfo
  | 0x108 => t.tctx
  | 0x109 => t.tlook
  | _ => c.w.handler.ts.get (n - 0x140)

/-- The registers that are pairs. -/
def isPairReg (n : Nat) : Bool := n == 0x008 || n == 0x104 || n == 0x106

/-- SRD (R168). -/
def execSrd (d : BitVec 7) (n : BitVec 13) (s : State) : Host.Outcome State Fault Refusal :=
  issueWave (.srd d n) s fun c =>
    let k := n.toNat
    if k = 0 then c.w.putLanes d.toNat (lanesOf c.m0) fun l => BitVec.ofNat 32 l
    else if k = 1 then c.w.putLanes d.toNat (lanesOf c.m0) fun l => BitVec.ofNat 32 (l / 4)
    else if isPairReg k then c.putS64 c.w d.toNat (s.special64 c k)
    else c.putS c.w d.toNat (s.special32 c k)

/-- What a write to FUSETO stores (R25). -/
def fusetoOf (x : Word) : Word := BitVec.ofNat 32 (min (max (field x 0 5) 8) 20)
/-- What a write to SPLPOL stores over the present value (R26): BRDPOL 0b10 and 0b11 leave that field. -/
def splpolOf (old x : Word) : Word := BitVec.ofNat 32 (4 * field x 2 2 + (if field x 0 2 < 2 then field x 0 2 else field old 0 2))
/-- What a write to QTC stores (R73). -/
def qtcOf (x : Word) : Word := qtcWord (field x 16 5) (bitAt x 8) (min (field x 0 5) 16)

/-- A staged write of this clk, the one of the lowest quad (R24). -/
def stage (old : Option (Nat × Word)) (q : Nat) (x : Word) : Option (Nat × Word) :=
  match old with | some o => if o.1 < q then old else some (q, x) | none => some (q, x)

/-- The effect of an SWR on the issuing wave, for the registers that live there. -/
def Ctx.writeSpecial (c : Ctx) (n : Nat) (x : Word) : Wave :=
  match n with
  | 0x009 => { c.w with toFuseto := stage c.w.toFuseto c.part (fusetoOf x) }
  | 0x00a => { c.w with toSplpol := stage c.w.toSplpol c.part (splpolOf c.w.splpol x) }
  | 0x00b => c.setBank c.w fun b => { b with qtc := qtcOf x }
  | 0x101 => { c.w with handler := { c.w.handler with treg := { c.w.handler.treg with tpc := (bits x 0 17).setWidth 32 } } }
  | n => if 0x140 ≤ n then { c.w with handler := { c.w.handler with ts := c.w.handler.ts.set (n - 0x140) x } } else c.w

/-- SWR (R168, R427): writes to read-only registers are ignored. -/
def execSwr (a : BitVec 7) (n : BitVec 13) (s : State) : Host.Outcome State Fault Refusal :=
  let i := Instr.swr a n
  issue i s fun c =>
    let x := c.s a.toNat
    if n.toNat = 0x00c then
      let new := field x 0 16
      if new ≠ field c.w.handler.treg.tctx 0 16 then .error (c.trap cPerm)
      else if new = field (s.core c.w.core).acsown 0 16 then .ok (s.done c i)
      else .ok ((s.acsTransfer c.w.core new).done c i)
    else .ok (s.retire c i (c.writeSpecial n.toNat x))

/-! ## Traps and returns (R169 to R171, R174) -/

/-- A trap that the instruction asks for: RTE resumes after it. -/
def State.softTrap (s : State) (c : Ctx) (i : Instr) (code : Nat) (info : Word) : State :=
  let s1 := s.done c i
  s1.raise c { c.trap code 0 info with tpc := ((s1.waveOf c).ent c.ent).pc, src := some c.pc }

/-- TRAP (R169). -/
def execTrap (k : BitVec 14) (s : State) : Host.Outcome State Fault Refusal :=
  issue (.trap k) s fun c => .ok (s.softTrap c (.trap k) cTrap (k.setWidth 32))
/-- BKPT (R174). -/
def execBkpt (k : BitVec 14) (s : State) : Host.Outcome State Fault Refusal :=
  issue (.bkpt k) s fun c => .ok (s.softTrap c (.bkpt k) cBreak (k.setWidth 32))

/-- RTE (R170, R417). -/
def execRte (s : State) : Host.Outcome State Fault Refusal :=
  issue .rte s fun c => if c.w.tableWf then .ok (s.rteResume c) else .error (c.trap cIllegal)

/-- SPLRD (R171). -/
def execSplrd (d : BitVec 5) (e : BitVec 4) (w : BitVec 2) (s : State) : Host.Outcome State Fault Refusal :=
  issueWave (.splrd d e w) s fun c => c.putS64 c.w (2 * d.toNat) ((c.w.ent e.toNat).word w.toNat)
/-- SPLWR (R171). -/
def execSplwr (a : BitVec 5) (e : BitVec 4) (w : BitVec 2) (s : State) : Host.Outcome State Fault Refusal :=
  issueWave (.splwr a e w) s fun c => c.w.updEnt e.toNat fun x => x.setWord w.toNat (c.sp a)

/-! ## Regions and progress points (R172, R173, R451, R464) -/

/-- RGN.enter on a region stack. -/
def QBank.enter (b : QBank) (id : BitVec 14) : QBank :=
  let d := min 255 (b.rdepth + 1)
  { b with rdepth := d, rgn := if d ≤ 8 then id :: b.rgn else b.rgn }
/-- RGN.leave on a region stack. -/
def QBank.leave (b : QBank) (id : BitVec 14) : QBank :=
  if b.rdepth = 0 then b
  else if b.rdepth ≤ 8 then
    { b with rdepth := b.rdepth - 1, rgn := b.rgn.drop 1, rmis := b.rmis || b.rgn.head? != some id }
  else { b with rdepth := b.rdepth - 1 }

/-- The core halts when this clk has ended. -/
def Core.stopSoon (c : Core) : Core := { c with dbg := { c.dbg with stopping := true, told := true } }

/-- A region stop of the core matches and halts it, with a HALT packet of this clk (R459); other parts that issue in this clk may match too (R451). -/
def State.regionStop (s : State) (core : Nat) (id : BitVec 14) (edge : Nat) : State :=
  let r := (s.core core).dreg 0x008
  if bitAt r 63 && bitAt r (16 + edge) && (bitAt r 14 || bits r 0 14 == id) then
    (s.traceHalt core 0).updCore core fun c => (c.setDreg 0x008 (r &&& ~~~0x8000000000000000)).stopSoon
  else s

/-- RGN.enter. -/
def execRgnEnter (id : BitVec 14) (s : State) : Host.Outcome State Fault Refusal :=
  let i := Instr.rgnEnter id
  issue i s fun c => .ok ((s.retire c i (c.setBank c.w fun b => b.enter id)).regionStop c.w.core id 0)
/-- RGN.leave. -/
def execRgnLeave (id : BitVec 14) (s : State) : Host.Outcome State Fault Refusal :=
  let i := Instr.rgnLeave id
  issue i s fun c => .ok ((s.retire c i (c.setBank c.w fun b => b.leave id)).regionStop c.w.core id 1)

/-- One more of progress counter `g`, saturating. -/
def Core.progress (c : Core) (g : Nat) : Core :=
  let off := 0x330 + 8 * (g / 2)
  let x := c.dreg off
  let n := field x (32 * (g % 2)) 32
  if n = 2 ^ 32 - 1 then c else c.setDreg off (x + BitVec.ofNat 64 (2 ^ (32 * (g % 2))))

/-- PROG (R173, R464). -/
def execProg (id : BitVec 14) (s : State) : Host.Outcome State Fault Refusal :=
  let i := Instr.prog id
  issue i s fun c =>
    let x := s.core c.w.core
    let sel := (List.range 4).filter fun g => bitAt (x.dreg 0x310) (16 * g + 15) && bits (x.dreg 0x310) (16 * g) 14 == id
    let s1 := if x.dbg.run && x.trialCtx c.g.ctx then s.updCore c.w.core fun y => sel.foldl Core.progress y else s
    .ok (s1.done c i)

/-! ## SLEEP and EVSIG -/

/-- SLEEP (R175). -/
def execSleep (a : BitVec 6) (s : State) : Host.Outcome State Fault Refusal :=
  let i := Instr.sleep a
  issue i s fun c =>
    let n := (c.s a.toNat).toNat
    if n = 0 then .ok (s.done c i)
    else .ok ((s.setWave (c.parkAs (c.advance i c.w) (.sleep n))).stubCheck c.w.wid c.q false)

/-- The key of event entry `q` (R388). -/
def State.eventKey (s : State) (q : Nat) : Nat := s.qtbase.toNat + 0x100200 + 16 * q

/-- A payload is posted to an event queue; a full one drops it and sets OVF (R402). -/
def State.postEvent (s : State) (q : Nat) (x : Word) : State :=
  if ((s.events[q]?).getD []).length < 64 then { s with events := modifyAt q (fun l => l ++ [x]) s.events }
  else s.wr64 (s.eventKey q) (s.rd64 (s.eventKey q) ||| 0x4000000000000000)

/-- EVSIG (R176). -/
def execEvsig (a : BitVec 6) (q : BitVec 4) (s : State) : Host.Outcome State Fault Refusal :=
  let i := Instr.evsig a q
  issue i s fun c =>
    let k := s.eventKey q.toNat
    if bitAt (s.rd64 k) 63 && bitAt (s.rd64 (k + 8)) (s.ctxFunc c.g.ctx) then .ok ((s.postEvent q.toNat (c.s a.toNat)).done c i)
    else .error (c.trap cPerm)

end Sys2Proof.Machine
end

