-- ==== Sys2Proof/Machine/Launch.lean ====
section
/-!
DEFINITION. Queues, doorbells, launch records, the arbiter, events and kernel loads (18 R388 to R403, R406).
-/
namespace Sys2Proof.Machine

/-! ## The queue table (R388 to R390) -/

/-- Word `k` of queue entry `q`. -/
def State.queueVa (s : State) (q : Nat) : Nat := s.qtbase.toNat + 32 * q
def State.queueWord (s : State) (q k : Nat) : DWord := s.rd64 (s.queueVa q + 8 * k)
/-- Entry of function `f`: FW in [7:0], FBUD in [63:32]. -/
def State.funcWord (s : State) (f : Nat) : DWord := s.rd64 (s.qtbase.toNat + 0x100000 + 8 * f)
/-- Word `k` of event entry `e` (R402). -/
def State.eventVa (s : State) (e : Nat) : Nat := s.qtbase.toNat + 0x100200 + 16 * e

/-- A context of a function (R389, R393, R411). -/
def State.ctxOk (s : State) (ctx func : Nat) : Bool := ctx != 0xffff && field (s.ctxWord ctx 1) 48 16 == ctx && s.ctxFunc ctx == func

/-- The ring of a queue entry: 2^KSZ records from RBASE. -/
def qKsz (q0 : DWord) : Nat := field q0 57 5
def qBase (q0 : DWord) : Nat := field q0 0 57

/-- An entry from which records may be taken (R389). -/
def State.queueOk (s : State) (q : Nat) : Bool :=
  let w := s.queueWord q
  let k := qKsz (w 0)
  field (w 0) 62 2 == 0 && field (w 2) 27 5 == 0 && field (w 2) 5 5 == 0 && field (w 3) 16 48 == 0 && decide (4 ≤ k ∧ k ≤ 16) &&
    qBase (w 0) % max 4096 (128 * 2 ^ k) == 0 && s.ctxOk (field (w 3) 0 16) (field (w 2) 10 6)

/-- Sets or clears EN and ERR of an entry. -/
def State.queueFlags (s : State) (q : Nat) (en err : Bool) : State :=
  let w := s.queueWord q 2
  s.wr64 (s.queueVa q + 16) ((w &&& ~~~(3 : DWord)) ||| bitIf 64 en 0 ||| bitIf 64 err 1)

/-- DOORBELL (R391, R392): the write offers records, withdraws them, or stops the queue. -/
def execDoorbell (func q : Nat) (t : Word) (s : State) : Host.Outcome State Fault Refusal :=
  let w := s.queueWord q
  let head := bits (w 1) 32 32
  if !s.isReady || !s.hostOk func || decide (32768 ≤ q) || !bitAt (w 2) 0 || field (w 2) 10 6 != func then .next s
  else if (t - head).toNat ≤ 2 ^ qKsz (w 0) then
    let s1 := s.wr32 (s.queueVa q + 8) t
    .next (if s.queueOk q then s1 else s1.queueFlags q true true)
  else .next (s.queueFlags q false true)

/-! ## Launch records (R394, R395, R398) -/

/-- A role word: waves, vector budget, entry. -/
def roleWaves (r : Nat) : Nat := r / 2 ^ 26 % 64
def roleList (r : Nat) : List (Nat × CodeAddr) := List.replicate (roleWaves r) (16 * (r / 2 ^ 17 % 8 + 1), BitVec.ofNat 17 r)
/-- The three role words: loader, computer, storer. -/
def roleWords (w : Nat → DWord) : List Nat := [field (w 2) 32 32, field (w 2) 0 32, field (w 3) 0 32]

/-- The words of a record that hold an invalid field or take part in an inconsistent combination (R394). -/
def recordBad (w : Nat → DWord) : List Nat :=
  let kind := field (w 0) 60 4
  let ngrp := field (w 0) 0 21
  let ncb := field (w 0) 27 5
  let draw := kind == 2
  let roles := roleWords w
  let sum := (roles.map roleWaves).foldl (· + ·) 0
  let bad0 := decide (3 < kind) || field (w 0) 56 4 != 0 || field (w 0) 21 4 != 0 || !decide (8 ≤ field (w 0) 48 5 ∧ field (w 0) 48 5 ≤ 20) ||
    decide (1 < field (w 0) 44 2) || decide (4 < field (w 0) 41 3) || decide (256 < field (w 0) 32 9) || decide (16 < ncb) || (ncb != 0 && kind != 1) ||
    decide (2 ^ 20 < ngrp) || (kind == 1 && !decide (1 ≤ ngrp ∧ ngrp ≤ 64)) || (kind == 3 && ngrp != 1) || (bitAt (w 0) 26 && !draw) ||
    (draw && (field (w 0) 53 3 != 0 || field (w 0) 41 3 != 0))
  let bad1 := field (w 1) 0 8 != 0 || decide (256 < field (w 1) 30 9) || decide (256 < field (w 1) 21 9) || decide (64 < field (w 1) 14 7) ||
    decide (32 < field (w 1) 8 6) || (bitAt (w 1) 47 && decide (256 < field (w 1) 39 8 + field (w 1) 30 9)) || (draw && field (w 1) 48 16 != 0)
  let roleBad := fun (r : Nat) => r / 2 ^ 20 % 64 != 0 || decide (32 < roleWaves r)
  let bad2 := if draw then w 2 != 0 else (roles.take 2).any roleBad || sum == 0 || decide (32 < sum)
  let bad3 := if draw then w 3 != 0 else (roles.drop 2).any roleBad || field (w 3) 32 32 != 0
  let bad8 := field (w 8) 57 7 != 0 || field (w 8) 0 57 % 64 != 0
  let bad9 := field (w 9) 57 7 != 0 || (field (w 0) 32 9 != 0 && field (w 9) 0 57 % 16 != 0)
  let bad10 := field (w 10) 32 32 != 0
  let b := field (w 11) 0 57
  let bad11 := field (w 11) 57 7 != 0 || b % 256 != 0 || (draw && b == 0) || (kind == 3 && b != 0)
  [bad0, bad1, bad2, bad3, false, false, false, false, bad8, bad9, bad10, bad11, w 12 != 0, w 13 != 0, w 14 != 0, w 15 != 0].zipIdx.filterMap
    fun x => if x.1 then some x.2 else none

/-- A kernel word of a draw block is invalid: `opt` tells that it may have no waves (R398). -/
def kernelWordBad (d : DWord) (opt : Bool) : Bool :=
  field d 0 16 != 0 || decide (4 < field d 42 3) || decide (32 < field d 33 6) || (!opt && field d 33 6 == 0)

/-- A draw block is invalid (R398): of a grid's or cohort's block only d14 to d17 may hold anything. -/
def blockBad (kind : Nat) (d : Nat → DWord) : Bool :=
  let glz := [14, 15, 16, 17].any fun i => field (d i) 57 7 != 0
  let rest := (List.range 14).any (fun i => d (18 + i) != 0)
  if kind ≠ 2 then glz || rest || (List.range 14).any fun i => d i != 0
  else
    kernelWordBad (d 0) true || kernelWordBad (d 1) false || kernelWordBad (d 2) false || field (d 3) 34 30 != 0 || field (d 3) 32 2 == 3 ||
      field (d 4) 57 7 != 0 || field (d 4) 0 57 % 64 != 0 || field (d 5) 57 3 != 0 || field (d 5) 0 57 % 256 != 0 || glz || rest ||
      (List.range 8).any fun t => decide (10 < field (d (6 + t)) 60 4) || decide (4 < field (d (6 + t)) 57 3) || field (d (6 + t)) 0 57 % 256 != 0

/-! ## Kernels of a launch -/

/-- What a group of a launch runs: identifier, kernel slot, wave width, and each wave's budget and entry (R395, R398). -/
structure Kernel where
  kid : Nat
  slot : Nat
  width : Nat
  waves : List (Nat × CodeAddr)
  deriving DecidableEq, Repr

/-- The kernel of a grid, cohort or management record. -/
def Launch.gridKernel (l : Launch) : Kernel :=
  { kid := field (l.word 1) 48 16, slot := field (l.word 0) 53 3, width := 4 * 2 ^ field (l.word 0) 41 3, waves := (roleWords l.word).flatMap roleList }
/-- The kernel of a word of a draw block. -/
def blockKernel (d : DWord) : Kernel :=
  { kid := field d 48 16, slot := field d 45 3, width := 4 * 2 ^ field d 42 3,
    waves := List.replicate (field d 33 6) (16 * (field d 39 3 + 1), bits d 16 17) }
/-- A draw has an amplification kernel. -/
def Draw.amplifies (d : Draw) : Bool := field ((d.block[0]?).getD 0) 33 6 != 0
/-- The kernel that the groups of a launch run now. -/
def Launch.kernel (l : Launch) : Kernel :=
  match l.draw with
  | none => l.gridKernel
  | some d => match d.phase with
    | .amp => blockKernel ((d.block[0]?).getD 0)
    | .position | .attrs => blockKernel ((d.block[1]?).getD 0)
    | .raster => blockKernel ((d.block[2]?).getD 0)

/-- A core's kernel slot holds the kernel, loaded for the context (R404). -/
def Core.holds (c : Core) (k : Kernel) (ctx : Nat) : Bool :=
  match (c.kslots[k.slot]?).join with
  | some x => x.kid.toNat == k.kid && x.ctx == ctx
  | none => false

/-- Each kernel identifier of a launch is held by some core, in whichever slot and for whichever context (R406). -/
def State.hasKernels (s : State) (l : Launch) : Bool :=
  let ks := match l.draw with
    | none => [l.gridKernel]
    | some d => (if d.amplifies then [blockKernel ((d.block[0]?).getD 0)] else []) ++ [blockKernel ((d.block[1]?).getD 0), blockKernel ((d.block[2]?).getD 0)]
  ks.all fun k => s.cores.any fun c => c.kslots.any fun x => x.any fun y => y.kid.toNat == k.kid

/-! ## Taking a record (R394, R399, R406) -/

/-- The lowest word of an invalid record that is wrong (R407): a wrong draw block, which is read when no lower word is, counts as word 11. -/
def State.badWord (s : State) (l : Launch) (k : Nat) : Nat :=
  let va := field (l.word 11) 0 57
  if k ≤ 11 || va = 0 then k
  else match s.devWords l.ctx va 32 with
    | .ok ds => if blockBad l.lkind fun i => (ds[i]?).getD 0 then 11 else k
    | .error _ => k

/-- The launch enters the module with what its draw block says: it completes at once when it is invalid, empty, or without a kernel. -/
def State.accept (s : State) (l : Launch) : State :=
  let bad := recordBad l.word
  match bad with
  | k :: _ => s.complete { l with status := 0x01 } (s.badWord l k)
  | [] =>
    let va := field (l.word 11) 0 57
    let s := if va = 0 then s else s.devSeen l.ctx va 256
    match (if va = 0 then Except.ok [] else s.devWords l.ctx va 32) with
    | .error (f, _) =>
      let s1 := (s.faultRecord l.func { ctx := l.ctx, core := 0xff, code := if f == .perm then cPerm else cPage, va, aux := l.aux } false).2
      s1.complete { l with status := 0x04 } 0
    | .ok ds =>
      let d := fun (i : Nat) => (ds[i]?).getD 0
      if va ≠ 0 && blockBad l.lkind d then s.complete { l with status := 0x01 } 11
      else
        let n := field (l.word 0) 0 21
        let ldraw := if l.lkind = 2 then some ({ block := ds } : Draw) else none
        let start := fun (b : Draw) => { b with phase := if b.amplifies then DrawPhase.amp else .position, todo := if b.amplifies then [] else List.range n }
        let l1 := { l with draw := ldraw.map start,
                           glz := if va = 0 then [0, 0, 0, 0] else [14, 15, 16, 17].map fun i => (d i).toNat,
                           total := n, since := s.time }
        let l2 := { l1 with waves := l1.kernel.waves.length }
        if n = 0 then s.complete l2 0
        else if !s.hasKernels l2 then s.complete { l2 with status := 0x03 } 0
        else { s with taken := s.taken ++ [l2] }

/-! ## The arbiter (R399 to R401) -/

/-- The enabled queues, ascending: their entries stand in memory. -/
def State.openQueues (s : State) : List Nat :=
  let a := s.qtbase.toNat
  let qs := ((s.mem.filter fun c => decide (a ≤ c.1 ∧ c.1 < a + 2 ^ 20)).map fun c => (c.1 - a) / 32).eraseDups
  qs.filter fun q => bitAt (s.queueWord q 2) 0
/-- Those with records to take. -/
def State.liveQueues (s : State) : List Nat := s.openQueues.filter fun q => bits (s.queueWord q 1) 32 32 != bits (s.queueWord q 1) 0 32
/-- Those that are invalid, and whose ERR does not say so yet (R389). -/
def State.badQueues (s : State) : List Nat := s.openQueues.filter fun q => !s.queueOk q && !bitAt (s.queueWord q 2) 1

/-- What remains of a queue's budget in this window. -/
def State.queueRem (s : State) (q : Nat) : Int := ((s.energy.qrem.find? fun r => r.1 == q).map (·.2)).getD 0

/-- A budget lets a charge pass (R401): 0 never gates; a charge above the whole budget needs a full one. -/
def gateOk (budget : Nat) (rem : Int) (charge : Nat) : Bool :=
  budget == 0 || decide ((charge : Int) ≤ rem) || (decide (budget < charge) && decide ((budget : Int) ≤ rem))

/-- The head record of a queue, where its ring is readable. -/
def State.headRecord (s : State) (q : Nat) : Option (List DWord) :=
  let w := s.queueWord q
  let c := field (w 1) 32 32
  match s.devWords (field (w 3) 0 16) (qBase (w 0) + 128 * (c % 2 ^ qKsz (w 0))) 16 with
  | .ok ws => some ws
  | .error _ => none

/-- The charge of a record, which management records do not pay. -/
def recordCharge (ws : List DWord) : Nat := if field (wordAt ws 0) 60 4 = 3 then 0 else field (wordAt ws 0) 0 21 * field (wordAt ws 10) 0 32

/-- An earlier record of the queue still waits for placement. -/
def State.queueWaits (s : State) (q : Nat) : Bool :=
  s.taken.any fun l => l.queue == q && l.event.isNone && (match l.draw with
    | none => l.placed != l.total
    | some d => !(d.phase == .raster && d.tiles.isEmpty && d.wait.isEmpty))

/-- A queue's head record is eligible (R399). -/
def State.eligible (s : State) (q : Nat) : Bool :=
  let w := s.queueWord q
  let f := field (w 2) 10 6
  s.queueOk q && field (s.funcWord f) 0 8 != 0 && !s.queueWaits q &&
    (match s.headRecord q with
      | none => false
      | some ws =>
        let ch := recordCharge ws
        field (wordAt ws 0) 60 4 == 3 || (gateOk (field (w 2) 32 32) (s.queueRem q) ch && gateOk (field (s.funcWord f) 32 32) (s.func f).rem ch &&
          gateOk s.energy.mbud.toNat s.energy.mrem ch))

/-- The first element after `x` in ascending order, with wrap-around. -/
def nextAfter (x : Nat) (xs : List Nat) : Nat := ((xs.filter fun y => x < y).head?).getD (xs.headD 0)

/-- The queue that the arbiter serves now: highest priority, the function in turn, its queues round-robin. -/
def State.arbitrate (s : State) : Option (Nat × Arb) :=
  let qs := s.liveQueues.filter s.eligible
  let pri := fun (q : Nat) => field (s.queueWord q 2) 2 3
  let fn := fun (q : Nat) => field (s.queueWord q 2) 10 6
  match qs with
  | [] => none
  | _ =>
    let p := (qs.map pri).foldl max 0
    let at' := qs.filter fun q => pri q == p
    let fs := sortBy (fun a b => decide (a ≤ b)) (at'.map fn).eraseDups
    let (f, n) := match s.arb.turn.find? fun t => t.1 == p with
      | none => (fs.headD 0, 0)
      | some (_, g, k) => if fs.contains g && decide (k < field (s.funcWord g) 0 8) then (g, k) else (nextAfter g fs, 0)
    let mine := sortBy (fun a b => decide (a ≤ b)) (at'.filter fun q => fn q == f)
    let key := 64 * p + f
    let q := match s.arb.last.find? fun t => t.1 == key with | none => mine.headD 0 | some (_, x, _) => nextAfter x mine
    some (q, { turn := (p, f, n + 1) :: s.arb.turn.filter (fun t => t.1 != p), last := (key, q, 0) :: s.arb.last.filter fun t => t.1 != key })

/-- A function's turn is over when it has no eligible record at its priority (R399): it has had as many records as it may. -/
def State.endTurns (s : State) : State :=
  if s.arb.turn.isEmpty then s
  else
    let qs := (s.liveQueues.filter s.eligible).map fun q => (field (s.queueWord q 2) 2 3, field (s.queueWord q 2) 10 6)
    { s with arb := { s.arb with turn := s.arb.turn.map fun t => if qs.contains (t.1, t.2.1) then t else (t.1, t.2.1, 256) } }

/-- The charge of a taken record (R401); a budget of 0 is not charged (R495). -/
def State.charge (s : State) (q func ch : Nat) : State :=
  let qb := field (s.queueWord q 2) 32 32
  let fb := field (s.funcWord func) 32 32
  let s1 := if fb = 0 then s else s.updFunc func fun f => { f with rem := f.rem - ch }
  let e := s1.energy
  let qrem := if qb = 0 then e.qrem else (q, s.queueRem q - ch) :: e.qrem.filter fun r => r.1 != q
  { s1 with energy := { e with qrem, mrem := if e.mbud = 0 then e.mrem else e.mrem - ch } }

/-- An event queue has a payload and may launch. -/
def State.eventReady (s : State) (e : Nat) : Bool :=
  let w := s.rd64 (s.eventVa e)
  s.isReady && bitAt w 63 && !((s.events[e]?).getD []).isEmpty && ((s.evbusy[e]?).join).isNone

/-- The entries that are found invalid get ERR (R389). -/
def State.flagQueues (s : State) : State := s.badQueues.foldl (fun t q => t.queueFlags q true true) s

/-- ARBITER_DECISION (R399); a management launch that is ready goes first (R403). -/
def execArbiterDecision (s0 : State) : Host.Outcome State Fault Refusal :=
  let s := s0.flagQueues
  if !s.isReady then .next s0
  else match (if (List.range 16).any s.eventReady then none else s.arbitrate) with
    | none => .next s
    | some (q, arb) => match s.headRecord q with
      | none => .next s
      | some ws =>
        let w := s.queueWord q
        let c := bits (w 1) 32 32
        let func := field (w 2) 10 6
        let s0 := s.devSeen (field (w 3) 0 16) (qBase (w 0) + 128 * (c.toNat % 2 ^ qKsz (w 0))) 128
        let s1 := ({ s0 with arb }.wr32 (s.queueVa q + 12) (c + 1)).charge q func (recordCharge ws)
        let (id, s2) := s1.newId
        .next (s2.accept { lid := id, words := ws, queue := q, func, ctx := field (w 3) 0 16, vec := field (w 2) 16 11, pri := field (w 2) 2 3, seq := c }).endTurns

/-! ## Event queues (R402, R403) -/

/-- The queue index that a management launch of an event has: no queue. -/
def noQueue : Nat := 32768

/-- MANAGEMENT_LAUNCH (R403): the oldest payload is removed and the record at MREC launched, in context CTX of the entry. -/
def execManagementLaunch (e : Nat) (s : State) : Host.Outcome State Fault Refusal :=
  if !s.eventReady e then .next s
  else match (s.events[e]?).getD [] with
    | [] => .next s
    | x :: rest =>
      let w := s.rd64 (s.eventVa e)
      let ctx := field w 45 16
      let ws := (List.range 16).map fun k => s.rd64 (field w 0 45 + 8 * k)
      let (id, s1) := s.newId
      let s2 := { s1 with events := modifyAt e (fun _ => rest) s1.events, evbusy := modifyAt e (fun _ => some id) s1.evbusy }
      .next (s2.accept { lid := id, words := ws, queue := noQueue, func := s.ctxFunc ctx, ctx, pri := 8, event := some e, payload := x })

/-! ## Loading kernels (R393) -/

/-- The bits of a 128-bit slot mask. -/
def maskSlots (lo hi : DWord) : List Nat := (List.range 128).filter fun i => if i < 64 then bitAt lo i else bitAt hi (i - 64)

/-- A kernel load record is invalid. -/
def loadInvalid (w : Nat → DWord) : Bool :=
  let r := maskSlots (w 2) (w 3)
  field (w 0) 3 45 != 0 || field (w 6) 57 7 != 0 || field (w 7) 57 7 != 0 || field (w 6) 0 57 % 4096 != 0 || field (w 7) 0 57 % 4096 != 0 || w 1 == 0 ||
    r.any (fun i => (maskSlots (w 4) (w 5)).contains i) || (field (w 0) 48 16 != 0 && r.isEmpty)

/-- The cores of a load. -/
def loadCores (w : Nat → DWord) : List Nat := (List.range 64).filter fun c => bitAt (w 1) c

/-- The load conflicts with a core (R393). -/
def State.loadConflict (s : State) (w : Nat → DWord) (core : Nat) : Bool :=
  let k := field (w 0) 0 3
  s.groups.any (fun g => g.core == core && g.kslot == k && g.state != .saved) ||
    (maskSlots (w 2) (w 3) ++ maskSlots (w 4) (w 5)).any fun i => match ((s.core core).slot i).owner with | some o => o != k | none => false

/-- The slots of a kernel slot become EMPTY and unowned. -/
def Core.unload (c : Core) (k : Nat) : Core :=
  { c with slots := c.slots.map fun x => if x.owner == some k then {} else x, kslots := modifyAt k (fun _ => none) c.kslots }

/-- The code image and the dictionary image of a load. -/
def State.loadImages (s : State) (ctx : Nat) (w : Nat → DWord) : Except (XFault × Nat) (List Byte × List Byte) :=
  let n := (maskSlots (w 2) (w 3)).length
  match s.vread ctx (field (w 6) 0 57) (4096 * n) with
  | .error e => .error e
  | .ok code => if field (w 7) 0 57 = 0 then .ok (code, []) else (s.vread ctx (field (w 7) 0 57) 4096).map fun d => (code, d)

/-- The requests of a load that are not served get their records (R444). -/
def State.loadSeen (s : State) (ctx va : Nat) (w : Nat → DWord) : State :=
  let s1 := s.devSeen ctx va 64
  let n := (maskSlots (w 2) (w 3)).length
  if loadInvalid w || field (w 0) 48 16 = 0 then s1
  else
    let s2 := if n = 0 then s1 else s1.devSeen ctx (field (w 6) 0 57) (4096 * n)
    if field (w 7) 0 57 = 0 then s2 else s2.devSeen ctx (field (w 7) 0 57) 4096

/-- The words of bytes, `n` of them. -/
def wordsOf : Nat → List Byte → List Word
  | 0, _ => []
  | n + 1, bs => BitVec.ofNat 32 (ofBytes (bs.take 4)) :: wordsOf n (bs.drop 4)

/-- A core during a load: resident slots hold their words and are LOADING, overlay slots are EMPTY and owned. -/
def Core.fill (c : Core) (w : Nat → DWord) (code dict : List Byte) : Core :=
  let k := field (w 0) 0 3
  let res := maskSlots (w 2) (w 3)
  let ovl := maskSlots (w 4) (w 5)
  let imem := (res.mapIdx fun j i => (i, j)).foldl (fun m x => m.setList (1024 * x.1) (wordsOf 1024 ((code.drop (4096 * x.2)).take 4096)))
    (c.imem.clear fun a => res.contains (a / 1024))
  { c with imem, dict := (c.dict.clear fun a => a / 1024 == k).setList (1024 * k) (wordsOf (dict.length / 4) dict),
           slots := c.slots.mapIdx fun i x =>
             if res.contains i then ({ st := .loading, resident := true, owner := some k, src := some (field (w 6) 0 57 + 4096 * res.idxOf i) } : Slot)
             else if ovl.contains i then ({ owner := some k } : Slot) else x }

/-- KLOAD with a status, BUSY or not. -/
def kloadWord (va : Nat) (busy : Bool) (status : Nat) : DWord := bitIf 64 busy 62 ||| place 64 status 60 ||| BitVec.ofNat 64 (va % 2 ^ 57)

/-- KERNEL_LOAD (R393): the record is checked whole; the images are read at the GO. While a load is in progress a GO is ignored, and the
address is written. -/
def execKernelLoad (func : Nat) (v : DWord) (s : State) : Host.Outcome State Fault Refusal :=
  let va := field v 0 57
  let f := s.func func
  if !s.isReady || !s.hostOk func then .next s
  else if bitAt f.kload 62 || !bitAt v 63 then .next (s.updFunc func fun f => { f with kload := kloadWord va (bitAt f.kload 62) (field f.kload 60 2) })
  else
    let ctx := field f.klctx 0 16
    let fin := fun (st : Nat) => s.updFunc func fun f => { f with kload := kloadWord va false st }
    match (if va % 64 = 0 && s.ctxOk ctx func then s.devWords ctx va 8 else .error (.perm, va)) with
    | .error _ => .next (fin 1)
    | .ok ws =>
      let w := wordAt ws
      let s := s.loadSeen ctx va w
      let fin := fun (st : Nat) => s.updFunc func fun f => { f with kload := kloadWord va false st }
      if loadInvalid w then .next (fin 1)
      else if (loadCores w).any (s.loadConflict w) then .next (fin 2)
      else
        let k := field (w 0) 0 3
        let s1 := (loadCores w).foldl (fun t c => t.updCore c fun x => x.unload k) s
        let (st, s2) :=
          if field (w 0) 48 16 = 0 then (0, s1)
          else match s1.loadImages ctx w with
            | .error _ => (3, s1)
            | .ok (code, dict) => (0, (loadCores w).foldl (fun t c => t.updCore c fun x => x.fill w code dict) s1)
        .next (s2.updFunc func fun f => { f with kload := kloadWord va true 0, kl := some (ws, st), klat := ctx })

/-- KERNEL_LOAD_DONE (R393). -/
def execKernelLoadDone (func : Nat) (s : State) : Host.Outcome State Fault Refusal :=
  let f := s.func func
  match f.kl with
  | none => .next s
  | some (ws, st) =>
    let w := wordAt ws
    let k := field (w 0) 0 3
    let kid := field (w 0) 48 16
    let land := fun (c : Core) => { c with
      slots := c.slots.map fun x => if x.owner == some k && x.resident then { x with st := .landed } else x
      kslots := modifyAt k (fun _ => some ⟨BitVec.ofNat 16 kid, f.klat⟩) c.kslots }
    let s1 := if kid = 0 || st ≠ 0 then s else (loadCores w).foldl (fun t c => t.updCore c land) s
    .next (s1.updFunc func fun f => { f with kl := none, kload := kloadWord (field f.kload 0 57) false st })

end Sys2Proof.Machine
end

