-- ==== Sys2Proof/Machine/Placement.lean ====
section
/-!
DEFINITION. Placing groups on cores (18 R396, R397, R404, R405; 19 R411, R426) and reading work-list tables (14 R368, R369).
-/
namespace Sys2Proof.Machine

/-! ## Room on a core (R404, R16, R19) -/

/-- What a wave occupies: partition, wave slot, quad positions, vector budget. -/
structure Occ where
  part : Nat
  slot : Nat
  qbase : Nat
  nq : Nat
  budget : Nat
  deriving DecidableEq, Repr

/-- The resident waves of a core: a wave whose lanes have all exited has given its place back (R160). -/
def State.occ (s : State) (core : Nat) : List Occ :=
  (s.waves.filter fun w => w.core == core && w.living != 0).map fun w => ⟨w.part, w.slot, w.qbase, w.nq, w.budget⟩

/-- The sum of budgets on a quad position of a partition. -/
def loadAt (os : List Occ) (p q : Nat) : Nat :=
  ((os.filter fun o => o.part == p && decide (o.qbase ≤ q ∧ q < o.qbase + o.nq)).map (·.budget)).foldl (· + ·) 0

/-- The place of a wave in partition `p`: the lowest free slot, the aligned base of the smallest sum of budgets. -/
def fitPart (os : List Occ) (nq budget p : Nat) : Option Occ :=
  let slot := (List.range 16).find? fun k => !os.any fun o => o.part == p && o.slot == k
  let bases := (List.range (16 / nq)).map (nq * ·)
  let fits := bases.filter fun b => (List.range nq).all fun i => decide (loadAt os p (b + i) + budget ≤ 1024)
  let cost := fun (b : Nat) => ((List.range nq).map fun i => loadAt os p (b + i)).foldl (· + ·) 0
  match slot, sortBy (fun a b => decide (cost a < cost b) || (cost a == cost b && decide (a ≤ b))) fits with
  | some k, b :: _ => some ⟨p, k, b, nq, budget⟩
  | _, _ => none

/-- The places of waves `w`, `w + 1`, …: partitions (w + GROUP) mod 8 upwards. -/
def fitWaves (group nq : Nat) : List Occ → List (Nat × Nat) → Option (List Occ)
  | _, [] => some []
  | os, (w, budget) :: r =>
    match (List.range 8).findSome? fun i => fitPart os nq budget ((w + group + i) % 8) with
    | none => none
    | some o => (fitWaves group nq (os ++ [o]) r).map fun r => o :: r

/-- What a group needs beside its waves (R394). -/
structure Need1 where
  pal : Nat
  acs : Nat
  can : Nat
  bars : Nat
  fixed : Option Nat
  deriving DecidableEq, Repr

/-- The resources that word 1 of a record asks for. -/
def needOf (w1 : DWord) : Need1 :=
  { pal := field w1 30 9 * 4096, acs := field w1 21 9, can := field w1 14 7, bars := field w1 8 6,
    fixed := if bitAt w1 47 then some (field w1 39 8 * 4096) else none }

/-- The groups that hold resources of a core. -/
def State.residents (s : State) (core : Nat) : List Group := s.groups.filter fun g => g.core == core && g.state != .saved

/-- The base of a palette allocation: the lowest aligned free run, or the one that the record names. -/
def State.palFree (s : State) (core : Nat) (n : Need1) : Option Nat :=
  if n.pal = 0 then some 0
  else
    let taken := (s.residents core).filter fun g => g.psize != 0
    let al := if n.pal ≤ 4096 then 4096 else if n.pal ≤ 8192 then 8192 else if n.pal ≤ 16384 then 16384 else if n.pal ≤ 32768 then 32768 else 65536
    let bases := match n.fixed with | some b => [b] | none => (List.range (2 ^ 20 / al)).map (al * ·)
    bases.find? fun b => decide (b + n.pal ≤ 2 ^ 20) && taken.all fun g => decide (b + n.pal ≤ g.pbase ∨ g.pbase + g.psize ≤ b)

/-- Free canvases, ascending. -/
def State.canFree (s : State) (core : Nat) : List Nat :=
  let used := (s.residents core).flatMap (·.cans)
  (List.range 64).filter fun k => !used.contains k

/-- FREE tiles, ascending (R426). -/
def Core.freeTiles (c : Core) : List Nat := (List.range 256).filter fun t => c.tile t == .free

/-- The images of other contexts whose HELD tiles have to be spilled before `n` tiles are FREE. -/
def Core.spillFor (c : Core) (ctx n : Nat) : List (Nat × Nat) → Nat → Option (List (Nat × Nat))
  | imgs, free =>
    if n ≤ free then some []
    else match imgs with
      | [] => none
      | i :: r => if i.1 = ctx then c.spillFor ctx n r free else (c.spillFor ctx n r (free + (c.heldTiles i.1 i.2).length)).map fun r => i :: r

/-- No resident group of another context holds tiles of the core (R426). -/
def State.tilesMine (s : State) (core ctx : Nat) : Bool := (s.residents core).all fun g => g.ctx == ctx || g.tiles.isEmpty

/-- The lowest save image that no group of the context holds (R411). -/
def State.freeImage (s : State) (ctx : Nat) : Option Nat :=
  (List.range (s.ctxImages ctx)).find? fun i => s.groups.all fun g => !(g.ctx == ctx && g.image == i)

/-- A kernel load is replacing the kernel slot on the core (R393). -/
def State.loadingOn (s : State) (core slot : Nat) : Bool :=
  s.funcs.any fun f => match f.kl with | some (ws, _) => bitAt (wordAt ws 1) core && field (wordAt ws 0) 0 3 == slot | none => false

/-- The core takes groups: not halted, not being replaced (R449, R482). -/
def State.accepts (s : State) (core : Nat) : Bool :=
  !(s.core core).dbg.halted && !(s.core core).dbg.halting && !(s.core core).dbg.stopping && !s.spares.offline.contains core && !s.spares.retiring.contains core

/-- A place for a group on a core. -/
structure Seat where
  core : Nat
  waves : List Occ
  pbase : Nat
  cans : List Nat
  spills : List (Nat × Nat)
  deriving DecidableEq, Repr

/-- The place that a core has for a group (R404); `acs` is the number of tiles it must find FREE. -/
def State.seat (s : State) (core ctx group acs : Nat) (k : Kernel) (n : Need1) (waves : List (Nat × Nat)) : Option Seat :=
  let c := s.core core
  let bars := ((s.residents core).map fun g => g.bars.length).foldl (· + ·) 0
  if !s.accepts core || !c.holds k ctx || s.loadingOn core k.slot || decide (32 < bars + n.bars) || decide ((s.canFree core).length < n.can) ||
      (n.acs != 0 && !s.tilesMine core ctx) then none
  else match s.palFree core n, fitWaves group (k.width / 4) (s.occ core) waves, c.spillFor ctx acs c.heldImages c.freeTiles.length with
    | some pbase, some waves, some spills => some { core, waves, pbase, cans := (s.canFree core).take n.can, spills }
    | _, _, _ => none

/-- The core with room that holds the fewest resident waves, ties to the lowest (R405). -/
def State.bestSeat (s : State) (ctx group acs : Nat) (k : Kernel) (n : Need1) (waves : List (Nat × Nat)) (cores : List Nat) : Option Seat :=
  let seats := cores.filterMap fun c => s.seat c ctx group acs k n waves
  (sortBy (fun (a b : Seat) => decide ((s.occ a.core).length ≤ (s.occ b.core).length)) seats).head?

/-! ## Making a group -/

/-- The tiles that a new group takes, after the spills that it needs, and the owner of the store (R426). -/
def State.takeTiles (s : State) (core ctx acs : Nat) (spills : List (Nat × Nat)) : List Nat × State :=
  if acs = 0 then ([], s)
  else
    let s1 := spills.foldl (fun t i => t.spill core i.1 i.2) s
    let c := s1.core core
    let ts := c.freeTiles.take acs
    let own := field c.acsown 0 16
    let claims := own == 0xffff && c.heldImages.isEmpty
    let st : TileState := if claims || own == ctx then .live else .pend false
    (ts, s1.updCore core fun c => { ts.foldl (fun c t => c.setTile t st) c with acsown := if claims then BitVec.ofNat 32 ctx else c.acsown })

/-- The scalars that a root starts with: a list of values from s2 on (R396). -/
def rootScalars (args : List Word) : Store 32 := Store.setList [] 2 args

/-- A wave at its launch (R29, R396, R409): handler s0:s1 hold the address of its vector area. -/
def launchWave (wid gid idx core width : Nat) (o : Occ) (pc : CodeAddr) (w0 : DWord) (image : Nat) (args : List Word) : Wave :=
  let va : DWord := BitVec.ofNat 64 (image + 0x42000 + 32768 * idx)
  let w : Wave := { wid, gid, idx, width, core, part := o.part, slot := o.slot, qbase := o.qbase, budget := o.budget }
  { w with launched := BitVec.ofNat 64 (2 ^ width - 1),
           split := { kind := 1, qmask := w.allQuads, lmask := BitVec.ofNat 64 (2 ^ width - 1), pc } :: List.replicate 15 {},
           banks := List.replicate (width / 4) { sreg := rootScalars args },
           fuseto := BitVec.ofNat 32 (field w0 48 5), splpol := BitVec.ofNat 32 (field w0 44 4),
           handler := { bank := { sreg := ((Store.set [] 0 (lo32 va)).set 1 (hi32 va)) } } }

/-- ARG0 to ARG3 as eight scalars. -/
def Launch.args (l : Launch) : List Word := (List.range 4).flatMap fun i => [lo32 (l.word (4 + i)), hi32 (l.word (4 + i))]

/-- A group takes its seat: the waves of roles `ws`, scalars from s2 on `args`. -/
def State.found (s : State) (l : Launch) (k : Kernel) (seat : Seat) (kind : GroupKind) (gid : Nat) (group cohort : Word) (args : List Word) : State :=
  match s.freeImage l.ctx with
  | none => s
  | some image =>
    let n := needOf (l.word 1)
    let (tiles, s1) := s.takeTiles seat.core l.ctx n.acs seat.spills
    let g : Group :=
      { gid, lid := l.lid, kind, group, cohort, ctx := l.ctx, core := seat.core, kslot := k.slot, image, pbase := seat.pbase, psize := n.pal, tiles,
        cans := seat.cans, bars := List.replicate n.bars {}, waves := k.waves.length, strict := bitAt (l.word 0) 26, queue := l.queue, glz := l.glz }
    let va := s1.imageVa l.ctx image
    let ws := (seat.waves.zip (k.waves.map (·.2))).mapIdx fun i x =>
      launchWave (s1.nextId + i) gid i seat.core k.width x.1 x.2 (l.word 0) va args
    { s1.updCore seat.core (fun c => { c with cans := c.cans.filter fun x => !seat.cans.contains x.1, runs := some (s.ctxFunc l.ctx) }) with
      groups := s1.groups ++ [g], waves := s1.waves ++ ws, nextId := s1.nextId + ws.length }

/-! ## Work-list tables (R368, R369) -/

/-- An entry of a work-list table is valid, its ring in one slice-pinned page. -/
def State.listOf (s : State) (ctx va idx scope : Nat) (cohort : Bool) (w0 w1 : DWord) : Option WorkList :=
  let kcap := field w0 57 5
  let rbase := field w0 0 57
  let size := 2 ^ (kcap + 2)
  let pinned := match s.xlate none ctx rbase with | .ok x => pteHome x.leaf == 2 && decide (size ≤ x.left) | .error _ => false
  if field w0 62 2 == 0 && decide (6 ≤ kcap ∧ kcap ≤ 19) && rbase % size == 0 && pinned && decide ((hi32 w1 - lo32 w1).toNat ≤ 2 ^ kcap) then
    some { scope, cohort, idx, kcap, rbase, entry := va, head := lo32 w1, tail := hi32 w1 }
  else none

/-- The lists of a scope; `none` when an entry is invalid or cannot be read. -/
def State.readLists (s : State) (l : Launch) (scope : Nat) (cohort : Bool) : Option (List WorkList) :=
  (List.range (field (l.word 0) 32 9)).mapM fun i =>
    let va := field (l.word 9) 0 57 + 16 * i
    match s.devWords l.ctx va 2 with
    | .ok ws => s.listOf l.ctx va i scope cohort (wordAt ws 0) (wordAt ws 1)
    | .error _ => none

/-- The requests for the table's entries that are not served get their records (R444). -/
def State.listsSeen (s : State) (l : Launch) : State :=
  let n := field (l.word 0) 32 9
  if n = 0 then s else s.devSeen l.ctx (field (l.word 9) 0 57) (16 * n)

/-- A launch places nothing more, and completes with a status when what it placed has ended. -/
def State.giveUp (s : State) (l : Launch) (status : Nat) : State :=
  let s1 := s.updLaunch l.lid fun x => { x with status, total := x.placed, draw := x.draw.map fun d => { d with phase := .raster, todo := [], tiles := [], wait := [] } }
  s1.completeIf l.lid

/-! ## Who may be placed (R356, R405) -/

/-- A cohort that has waited long enough holds placement at its priority and below (R405). -/
def State.held (s : State) (l : Launch) : Bool :=
  s.taken.any fun h => h.hold && h.placed != h.total && h.lid != l.lid && decide (l.pri ≤ h.pri) &&
    !(l.lkind == 1 && (decide (l.since < h.since) || (l.since == h.since && decide (l.lid < h.lid))))

/-- The next group of a launch may be placed: draws before it in its queue are complete for a compute launch; for pixel groups
every earlier record is. -/
def State.mayPlace (s : State) (l : Launch) : Bool :=
  s.isReady && !s.held l && (match l.draw with
    | none => !s.earlier l fun o => o.draw.isSome
    | some d => d.phase != .raster || !s.earlier l fun _ => true)

/-- The budgets of a kernel's waves, in WAVE order. -/
def Kernel.budgets (k : Kernel) : List (Nat × Nat) := k.waves.mapIdx fun i w => (i, w.1)

/-- The cores, in order. -/
def coreIdx : List Nat := List.range 64

/-- One compute or mesh group, where it fits: `none` while there is no room. -/
def State.placeOne (s : State) (l : Launch) (kind : GroupKind) (group : Nat) (cohort : Word) (args : List Word) : Option State :=
  let k := l.kernel
  let n := needOf (l.word 1)
  match s.freeImage l.ctx, s.bestSeat l.ctx group n.acs k n k.budgets coreIdx with
  | some _, some seat =>
    let (gid, s1) := s.newId
    let s2 := s1.found l k seat kind gid (BitVec.ofNat 32 group) cohort args
    let s3 := s2.updLaunch l.lid fun x => { x with placed := x.placed + 1 }
    some s3
  | _, _ => none

/-- The group placed last. -/
def State.lastGroup (s : State) : Nat := (s.groups.getLast?.map (·.gid)).getD 0

/-- A grid's or management record's next group, or an amplification group, with the lists of its own (R369), whose table is read when there is
room (R368). -/
def State.placeGrid (s : State) (l : Launch) : State :=
  let args := if l.lkind = 3 then [l.payload, BitVec.ofNat 32 (l.event.getD 0)] ++ l.args.drop 2 else l.args
  match s.placeOne l .compute l.placed 0xffffffff args with
  | none => s
  | some t => match s.readLists l 0 false with
    | none => s.giveUp l 0x02
    | some ls => ({ t with lists := t.lists ++ ls.map fun x => { x with scope := t.lastGroup } } : State).listsSeen l

/-- A mesh group of the phase (R348, R349): its payload's address in s2:s3 after an amplification; in the attribute pass what the
position pass left. -/
def State.placeMesh (s : State) (l : Launch) (d : Draw) (g : Nat) : State :=
  let pay : DWord := BitVec.ofNat 64 (field ((d.block[4]?).getD 0) 0 57 + 64 + 64 * g)
  let args := if d.amplifies then [lo32 pay, hi32 pay] ++ l.args.drop 2 else l.args
  match s.placeOne l .mesh g 0xffffffff args with
  | none => s
  | some t => match s.readLists l 0 false with
    | none => s.giveUp l 0x02
    | some ls =>
      let old := if d.phase == .attrs then ((d.outs.find? fun o => o.1 == g).map (·.2)).getD {} else {}
      let gid := t.lastGroup
      let t1 := t.updGroup gid fun x => { x with index := g, mesh := old }
      let t2 := t1.updLaunch l.lid fun x => { x with draw := some { d with todo := d.todo.filter (· != g) } }
      ({ t2 with lists := t2.lists ++ ls.map fun x => { x with scope := gid } } : State).listsSeen l

/-- COHORT_PLACEMENT (R405): every group, with the cohort barriers, in one step or not at all. -/
def execCohortPlacement (lid : Nat) (s : State) : Host.Outcome State Fault Refusal :=
  match s.launch? lid with
  | none => .next s
  | some l =>
    if l.lkind ≠ 1 || l.placed ≠ 0 || l.total = 0 || !s.mayPlace l then .next s
    else
      let ncb := field (l.word 0) 27 5
      let free := (List.range 16).filter fun m => match s.cbars[m]? with | some b => b.owner.isNone | none => false
      if free.length < ncb then .next s
      else
        let cohort : Word := BitVec.ofNat 32 (Config.pick s.fresh lid % (2 ^ 32 - 1))
        match (List.range l.total).foldlM (fun (t : State) g => t.placeOne l .compute g cohort l.args) { s with fresh := s.fresh + 1 } with
        | none => .next s
        | some t => match s.readLists l lid true with
          | none => .next (s.giveUp l 0x02)
          | some ls =>
            let mine := free.take ncb
            let t1 := t.updLaunch lid fun x => { x with cbars := mine, hold := false }
            .next (({ t1 with lists := t1.lists ++ ls, cbars := t1.cbars.mapIdx fun m b => if mine.contains m then { owner := some lid } else b } : State).listsSeen l)

/-- COHORT_WAIT_HOLD (R405): 16,384 fclk of waiting, a fclk being 7 units of the time base. -/
def execCohortWaitHold (lid : Nat) (s : State) : Host.Outcome State Fault Refusal :=
  match s.launch? lid with
  | none => .next s
  | some l => .next (if l.lkind = 1 && l.placed = 0 && decide (l.since + 7 * 16384 ≤ s.time) then s.updLaunch lid fun x => { x with hold := true } else s)

end Sys2Proof.Machine
end

