-- ==== Sys2Proof/Machine/Draws.lean ====
section
/-!
DEFINITION. Draws (13 R348 to R356): the mesh phase and its two passes, clipping and culling, rasterisation, the depth test, pixel groups;
and the placement of the groups of every launch but a cohort's (18 R404, R405).
-/
namespace Sys2Proof.Machine

/-! ## Exact fractions -/

def Frac.ofInt (x : Int) : Frac := ⟨x, 1⟩
def Frac.add (a b : Frac) : Frac := ⟨a.num * b.den + b.num * a.den, a.den * b.den⟩
def Frac.neg (a : Frac) : Frac := ⟨-a.num, a.den⟩
def Frac.sub (a b : Frac) : Frac := a.add b.neg
def Frac.mul (a b : Frac) : Frac := ⟨a.num * b.num, a.den * b.den⟩
/-- A quotient; `x` stands for it where the divisor is 0, which the spec leaves open. -/
def Frac.over (x : Frac) (a b : Frac) : Frac :=
  if b.num = 0 then x else ⟨(if b.num < 0 then -a.num else a.num) * b.den, a.den * b.num.natAbs⟩
def Frac.lt (a b : Frac) : Bool := decide (a.num * b.den < b.num * a.den)
def Frac.neg? (a : Frac) : Bool := decide (a.num < 0)
/-- The value rounded to an integer, RNE. -/
def Frac.round (a : Frac) : Int := roundInt .rne (decide (a.num < 0)) a.num.natAbs a.den
/-- A finite value as a fraction. -/
def Fl.frac : Fl → Option Frac
  | .fin neg p q => some ⟨if neg then -(p : Int) else p, q⟩
  | _ => none

/-! ## Clipping and culling (R350) -/

/-- A vertex in clip space: x, y, z, w and its weights on the primitive's three vertices. -/
structure CVtx where
  x : Frac
  y : Frac
  z : Frac
  w : Frac
  wt : List Frac
  deriving DecidableEq, Repr

/-- The point of an edge on the plane z = 0. -/
def CVtx.cut (a b : CVtx) : CVtx :=
  let t := Frac.over (Frac.ofInt 0) a.z (a.z.sub b.z)
  let mix := fun (p q : Frac) => p.add (t.mul (q.sub p))
  { x := mix a.x b.x, y := mix a.y b.y, z := Frac.ofInt 0, w := mix a.w b.w, wt := a.wt.zipWith mix b.wt }

/-- The part of a polygon with z ≥ 0, edge by edge from its first vertex. -/
def clipZ (vs : List CVtx) : List CVtx :=
  (vs.zip (vs.drop 1 ++ vs.take 1)).flatMap fun e =>
    (if e.1.z.neg? then [] else [e.1]) ++ if e.1.z.neg? != e.2.z.neg? then [e.1.cut e.2] else []

/-- The fan of a polygon from its first vertex. -/
def fan : List CVtx → List (List CVtx)
  | a :: rest => (rest.zip (rest.drop 1)).map fun e => [a, e.1, e.2]
  | [] => []

/-- Outside each of the six planes. -/
def CVtx.outside (v : CVtx) : List Bool :=
  [v.x.lt v.w.neg, v.w.lt v.x, v.y.lt v.w.neg, v.w.lt v.y, v.z.neg?, v.w.lt v.z]

/-- The corners of a primitive; `none` when an attribute is infinite or NaN. -/
def MeshOut.corner (m : MeshOut) (ix k : Nat) : Option CVtx := do
  let at' := fun (j : Nat) => (f32v (m.attr.get (64 * ix + j)).toNat).frac
  let x ← at' 0
  let y ← at' 1
  let z ← at' 2
  let w ← at' 3
  return { x, y, z, w, wt := (List.range 3).map fun j => Frac.ofInt (if j = k then 1 else 0) }

/-- A free fraction. -/
def anyFrac (fresh k : Nat) : Frac := ⟨(Config.pick fresh (2 * k) : Int) - Config.pick fresh (2 * k + 1), 1⟩

/-- Steps 4 and 5 of R350 for one triangle: `w × h` the extent, `cull` the cull mode. -/
def screen (fresh w h cull g p : Nat) (ix : List Nat) (vs : List CVtx) : Option DPrim :=
  let free := fun (k : Nat) => anyFrac fresh (2 ^ 20 * g + 16 * p + k)
  let pos := fun (k : Nat) (c v : Frac) (n : Nat) => (((Frac.over (free k) c v).add (Frac.ofInt 1)).mul (Frac.ofInt (128 * (n : Int)))).round
  let vtx := vs.map fun v => (pos 0 v.x v.w w, pos 1 v.y v.w h)
  let at' := fun (k : Nat) => (vtx[k]?).getD (0, 0)
  let area := ((at' 1).1 - (at' 0).1) * ((at' 2).2 - (at' 0).2) - ((at' 2).1 - (at' 0).1) * ((at' 1).2 - (at' 0).2)
  if area = 0 || (cull = 1 && decide (0 < area)) || (cull = 2 && decide (area < 0)) then none
  else some { g, p, vtx, zw := vs.map fun v => Frac.over (free 2) v.z v.w, iw := vs.map fun v => Frac.over (free 3) (Frac.ofInt 1) v.w,
              wts := vs.map (·.wt), ix }

/-- The triangles of primitive `p` of mesh group `g` that survive R350. -/
def survivors (fresh w h cull g p : Nat) (m : MeshOut) (word : Word) : List DPrim :=
  let ix := [field word 0 8, field word 8 8, field word 16 8]
  match ix.mapIdx fun k i => m.corner i k with
  | [some a, some b, some c] =>
    let vs := [a, b, c]
    if bitAt word 24 || (List.range 6).any fun k => vs.all fun v => (v.outside[k]?).getD false then []
    else
      let clip := vs.any fun v => v.w.num ≤ 0 || v.z.neg?
      (if clip then fan (clipZ vs) else [vs]).filterMap (screen fresh w h cull g p ix)
  | _ => []

/-- The triangles of a mesh group in order of their primitives. -/
def MeshOut.triangles (m : MeshOut) (fresh w h cull g : Nat) : List DPrim :=
  (List.range m.np).flatMap fun p => match m.prim.find? fun x => x.1 == p with
    | some x => survivors fresh w h cull g p m x.2
    | none => []

/-! ## Tiles (R350, R352) -/

/-- The smallest and largest of a list of integers. -/
def minMax (xs : List Int) : Int × Int := xs.foldl (fun a x => (min a.1 x, max a.2 x)) (xs.headD 0, xs.headD 0)
/-- The pixels of the snapped bounding box inside an extent: columns and rows, first and one past the last. -/
def DPrim.box (t : DPrim) (w h : Nat) : (Nat × Nat) × (Nat × Nat) :=
  let span := fun (xs : List Int) (n : Nat) =>
    let m := minMax xs
    ((m.1 / 256).toNat, min n (m.2 / 256 + 1).toNat)
  (span (t.vtx.map (·.1)) w, span (t.vtx.map (·.2)) h)

/-- Tiles in a row of the draw's extent. -/
def Draw.tilesAcross (d : Draw) : Nat := (d.wid + 31) / 32
/-- The tiles whose bins the triangle joins. -/
def Draw.tilesOf (d : Draw) (w h : Nat) (t : DPrim) : List Nat :=
  let b := t.box w h
  let xs := if b.1.1 < b.1.2 then (List.range ((b.1.2 - 1) / 32 + 1)).drop (b.1.1 / 32) else []
  let ys := if b.2.1 < b.2.2 then (List.range ((b.2.2 - 1) / 32 + 1)).drop (b.2.1 / 32) else []
  ys.flatMap fun y => xs.map fun x => y * d.tilesAcross + x

/-- The draw's extent, clipped to that of each bound glaze target (R352). -/
def State.extent (s : State) (l : Launch) (d : Draw) : Nat × Nat :=
  l.glz.foldl (fun e va =>
    if va = 0 then e
    else match s.devWords l.ctx va 8 with
      | .error _ => e
      | .ok ws => match glzTarget ws with
        | some t => (min e.1 t.w, min e.2 t.h)
        | none => e) (d.wid, d.hei)

/-! ## Phases (R348, R349) -/

/-- Every group of the launch's present phase has ended. -/
def Launch.quiet (l : Launch) : Bool := l.placed == l.retired + l.aborted

/-- The amplification groups have ended. -/
def Launch.ampDone (l : Launch) : Bool :=
  match l.draw with | some d => d.phase == .amp && l.placed == l.total && l.quiet | none => false

/-- DRAW_MESH_PHASE (R348): the count that the amplification left. -/
def execDrawMeshPhase (lid : Nat) (s : State) : Host.Outcome State Fault Refusal :=
  match s.launch? lid with
  | none => .next s
  | some l =>
    if !l.ampDone then .next s
    else
      let va := field (((l.draw.map fun d => d.dword 4)).getD 0) 0 57
      match s.vread l.ctx va 4 with
      | .error (f, _) =>
        let s1 := (s.faultRecord l.func { ctx := l.ctx, core := 0xff, code := if f == .perm then cPerm else cPage, va, aux := l.aux } false).2
        .next (s1.giveUp l 0x04)
      | .ok bs =>
        let n := min (2 ^ 20) (ofBytes bs)
        let s := s.devSeen l.ctx va 4
        if n = 0 then .next (s.giveUp l l.status)
        else .next (s.updDraw lid fun d => { d with phase := .position, todo := List.range n })

/-- The groups of the position pass have ended. -/
def Launch.meshDone (l : Launch) : Bool :=
  match l.draw with | some d => d.phase == .position && d.todo.isEmpty && l.quiet | none => false

/-- DRAW_ATTRIBUTE_PASS (R349, R350): the position pass is over; what survives is binned, and its groups run again. -/
def execDrawAttributePass (lid : Nat) (s : State) : Host.Outcome State Fault Refusal :=
  match s.launch? lid with
  | none => .next s
  | some l => match l.draw with
    | none => .next s
    | some d =>
      if !l.meshDone then .next s
      else
        let outs := sortBy (fun (a b : Nat × MeshOut) => decide (a.1 ≤ b.1)) d.outs
        let prims := outs.flatMap fun (o : Nat × MeshOut) => o.2.triangles s.fresh d.wid d.hei (field (d.dword 3) 32 2) o.1
        let ext := s.extent l d
        let tiles := (prims.flatMap (d.tilesOf ext.1 ext.2)).eraseDups
        let todo := (prims.map (·.g)).eraseDups
        let phase := if todo.isEmpty then DrawPhase.raster else .attrs
        let s1 := l.glz.foldl (fun t va => if va = 0 then t else t.devSeen l.ctx va 64) { s with fresh := s.fresh + 1 }
        .next ((s1.updDraw lid fun d => { d with phase, todo, prims, tiles }).completeIf lid)

/-! ## Rasterisation (R352 to R354) -/

/-- The sample points of a pixel, in 1/256 pixel. -/
def samples : List (Int × Int) := [(96, 32), (224, 96), (32, 160), (160, 224)]

/-- Twice the area of a point with an edge, as the exact edge function. -/
def edge (a b : Int × Int) (x y : Int) : Int := (b.1 - a.1) * (y - a.2) - (b.2 - a.2) * (x - a.1)

/-- A top edge or a left edge of a triangle whose interior has positive edge functions. -/
def topLeft (a b : Int × Int) : Bool := decide (b.2 < a.2) || (b.2 == a.2 && decide (a.1 < b.1))

/-- A point lies strictly inside the triangle, or on it on a top edge or a left edge (R352). -/
def insideTri (es : List ((Int × Int) × (Int × Int))) (x y : Int) : Bool :=
  (es.all fun e => decide (0 ≤ edge e.1 e.2 x y)) &&
    ((es.all fun e => decide (0 < edge e.1 e.2 x y)) || es.any fun e => edge e.1 e.2 x y == 0 && topLeft e.1 e.2)

/-- Corner `k` on the screen. -/
def DPrim.at (t : DPrim) (k : Nat) : Int × Int := (t.vtx[k]?).getD (0, 0)
/-- The area of a triangle, with its sign. -/
def DPrim.area (t : DPrim) : Int :=
  ((t.at 1).1 - (t.at 0).1) * ((t.at 2).2 - (t.at 0).2) - ((t.at 2).1 - (t.at 0).1) * ((t.at 1).2 - (t.at 0).2)

/-- The covered samples of a pixel. -/
def DPrim.coverage (t : DPrim) (x y : Nat) : Nat :=
  let es := if 0 < t.area then [(t.at 0, t.at 1), (t.at 1, t.at 2), (t.at 2, t.at 0)] else [(t.at 0, t.at 2), (t.at 2, t.at 1), (t.at 1, t.at 0)]
  let hit := fun (p : Int × Int) => insideTri es (256 * (x : Int) + p.1) (256 * (y : Int) + p.2)
  ((samples.mapIdx fun k p => if hit p then 2 ^ k else 0)).foldl (· + ·) 0

/-- A fraction as binary32, rounded once, RNE. -/
def Frac.word (x : Frac) : Word := BitVec.ofNat 32 (f32 x.fl)

/-- The exact weights of the three corners at a pixel centre: edge functions. -/
def DPrim.weights (t : DPrim) (x y : Nat) : List Int :=
  let X : Int := 256 * (x : Int) + 128
  let Y : Int := 256 * (y : Int) + 128
  [edge (t.at 1) (t.at 2) X Y, edge (t.at 2) (t.at 0) X Y, edge (t.at 0) (t.at 1) X Y]

def Frac.sum (xs : List Frac) : Frac := xs.foldl Frac.add (Frac.ofInt 0)

/-- z ÷ w at a pixel centre. -/
def DPrim.depth (t : DPrim) (x y : Nat) : Word :=
  (Frac.over (Frac.ofInt 0) (Frac.sum (((t.weights x y).zip t.zw).map fun e => (Frac.ofInt e.1).mul e.2)) (Frac.ofInt t.area)).word

/-- b1 and b2 at a pixel centre; where the perspective weights sum to zero the quotients of a covered lane are `free`. -/
def DPrim.bary (t : DPrim) (x y : Nat) (helper : Bool) (free : Frac × Frac) : Word × Word :=
  let ps := ((t.weights x y).zip t.iw).map fun e => (Frac.ofInt e.1).mul e.2
  let sum := Frac.sum ps
  let p := fun (k : Nat) => (ps[k]?).getD (Frac.ofInt 0)
  if sum.num = 0 then (if helper then (0, 0) else (free.1.word, free.2.word))
  else
    let b1 := (Frac.over (Frac.ofInt 0) (p 1) sum).word
    let b2 := (Frac.over (Frac.ofInt 0) (p 2) sum).word
    let big := fun (b : Word) => field b 23 8 == 255
    if helper && (big b1 || big b2) then (0, 0) else (b1, b2)

/-- The compare functions of the depth test: `n` is the new depth. -/
def depthPass (cmp : Nat) (n old : Fl) : Bool :=
  match cmp with
  | 1 => false
  | 2 => n.lt old
  | 3 => n.eq old
  | 4 => n.lt old || n.eq old
  | 5 => old.lt n
  | 6 => old.lt n || n.eq old
  | _ => true

/-- The depth test of a fragment, with its write (R354). A depth that the context cannot read is a free value; a write that it cannot
make is left out. -/
def State.depthTest (s : State) (l : Launch) (d : Draw) (x y : Nat) (z : Word) : Bool × State :=
  let cmp := field (d.dword 5) 61 3
  if cmp = 0 then (true, s)
  else
    let va := field (d.dword 5) 0 57 + y * texPitch 8 d.wid + 4 * x
    let old := match s.vread l.ctx va 4 with | .ok bs => ofBytes bs | .error _ => Config.pick s.fresh va % 2 ^ 32
    let s := s.devSeen l.ctx va 4
    if depthPass cmp (f32v z.toNat) (f32v old) then (true, if bitAt (d.dword 5) 60 then s.devTry l.ctx va (toBytes 4 z.toNat) else s) else (false, s)

/-- The fragments of a triangle in a tile, in order of pixels, after the depth test: `(x, y, coverage)`. -/
def State.fragments (s : State) (l : Launch) (d : Draw) (ext : Nat × Nat) (tile : Nat) (t : DPrim) : List (Nat × Nat × Nat) × State :=
  let b := t.box ext.1 ext.2
  let tx := tile % d.tilesAcross * 32
  let ty := tile / d.tilesAcross * 32
  let xs := (List.range 32).filterMap fun i => if b.1.1 ≤ tx + i && tx + i < b.1.2 then some (tx + i) else none
  let ys := (List.range 32).filterMap fun i => if b.2.1 ≤ ty + i && ty + i < b.2.2 then some (ty + i) else none
  (ys.flatMap fun y => xs.map fun x => (x, y)).foldl (fun (acc : List (Nat × Nat × Nat) × State) p =>
    let cov := t.coverage p.1 p.2
    if cov = 0 then acc
    else
      let (ok, s1) := acc.2.depthTest l d p.1 p.2 (t.depth p.1 p.2)
      if ok then (acc.1 ++ [(p.1, p.2, cov)], s1) else acc) ([], s)

/-- A 2×2 block with a fragment of triangle `prim`: its four lanes (R273, R353). -/
def quadFrags (t : DPrim) (prim : Nat) (fs : List (Nat × Nat × Nat)) (fresh : Nat) (q : Nat × Nat) : List Frag :=
  (List.range 4).map fun i =>
    let x := 2 * q.1 + i % 2
    let y := 2 * q.2 + i / 2
    let hit := fs.find? fun f => f.1 == x && f.2.1 == y
    let helper := hit.isNone
    let k := (y * 65536 + x) * 65536 + 2 * prim
    let b := t.bary x y helper (anyFrac fresh k, anyFrac fresh (k + 1))
    { x, y, prim, helper, cover := (hit.map fun h => h.2.2).getD 0, b1 := b.1, b2 := b.2, z := t.depth x y }

/-- The quads of every triangle of a tile, in submission order. -/
def State.quadsOf (s : State) (l : Launch) (d : Draw) (tile : Nat) : List (List Frag) × State :=
  let ext := s.extent l d
  let ps := (d.prims.mapIdx fun k t => (k, t)).filter fun (x : Nat × DPrim) => (d.tilesOf ext.1 ext.2 x.2).contains tile
  ps.foldl (fun (acc : List (List Frag) × State) x =>
    let (fs, s1) := acc.2.fragments l d ext tile x.2
    let qs := (fs.map fun f => (f.1 / 2, f.2.1 / 2)).eraseDups
    (acc.1 ++ qs.map (quadFrags x.2 x.1 fs s.fresh), s1)) ([], s)

/-- The block of a quad. -/
def blockOf (q : List Frag) : Nat × Nat := match q with | f :: _ => (f.x / 2, f.y / 2) | [] => (0, 0)

/-- Quads packed into waves of `n` quads, no block twice in one wave: the waves, the last one first. -/
def packWaves (n : Nat) (qs : List (List Frag)) : List (List (List Frag)) :=
  qs.foldl (fun ws q => match ws with
    | w :: rest => if w.length < n && !(w.any fun x => blockOf x == blockOf q) then (w ++ [q]) :: rest else [q] :: w :: rest
    | [] => [[q]]) []

/-- The lanes of a pixel group's waves, named. -/
def nameFrags (gid : Nat) (ws : List (List (List Frag))) : List Frag :=
  (ws.mapIdx fun w qs => (qs.mapIdx fun k q => q.mapIdx fun i f => { f with gid, wave := w, lane := 4 * k + i }).flatten).flatten

/-- The pixel groups of a tile: `k` waves each; their identifiers from `id`. -/
def pixGroups (tile k id : Nat) : Nat → List (List (List Frag)) → List (PixGroup × List Frag)
  | 0, _ => []
  | n + 1, ws =>
    if ws.isEmpty then [] else ({ gid := id, tile, waves := (ws.take k).length }, nameFrags id (ws.take k)) :: pixGroups tile k (id + 1) n (ws.drop k)

/-- A tile of a draw may be rasterised: its mesh passes are over, and nothing before it in its queue is left (R351, R356). -/
def State.mayRaster (s : State) (l : Launch) (tile : Nat) : Bool :=
  match l.draw with
  | none => false
  | some d => (d.phase == .raster || (d.phase == .attrs && d.todo.isEmpty && l.quiet)) && d.tiles.contains tile && !s.earlier l fun _ => true

/-- DRAW_TILE_RASTER (R352 to R354): the tile's fragments become pixel groups. -/
def execDrawTileRaster (lid tile : Nat) (s : State) : Host.Outcome State Fault Refusal :=
  match s.launch? lid with
  | none => .next s
  | some l => match l.draw with
    | none => .next s
    | some d =>
      if !s.mayRaster l tile then .next s
      else
        let k := blockKernel (d.dword 2)
        let (qs, s1) := s.quadsOf l d tile
        let ws := (packWaves (k.width / 4) qs).reverse
        let gs := pixGroups tile (max 1 k.waves.length) s1.nextId ws.length ws
        let s2 := { s1 with fresh := s1.fresh + 1, nextId := s1.nextId + gs.length }
        let s3 := s2.updDraw lid fun d => { d with phase := .raster, tiles := d.tiles.filter (· != tile), wait := d.wait ++ gs.map (·.1), frags := d.frags ++ gs.flatMap (·.2) }
        .next (s3.completeIf lid)

/-! ## Placement -/

/-- A wave of a pixel group at its launch (R353). -/
def pixelWave (fs : List Frag) (w : Wave) : Wave :=
  let mine := fs.filter fun f => f.wave == w.idx
  let ls := laneMask (mine.map (·.lane))
  let vals := fun (f : Frag) => [BitVec.ofNat 32 (f.x % 2 ^ 16 + f.y % 2 ^ 16 * 2 ^ 16), f.b1, f.b2, f.z, BitVec.ofNat 32 f.prim, BitVec.ofNat 32 f.cover]
  let vreg : Store 32 := mine.foldl (fun v f => ((vals f).mapIdx fun r x => (r, x)).foldl (fun v x => v.set (64 * x.1 + f.lane) x.2) v) w.vreg
  let w1 := { w with launched := ls, vreg, mask := w.mask.set 1 (laneMask ((mine.filter fun (f : Frag) => !f.helper).map fun (f : Frag) => f.lane)) }
  w1.updEnt 0 fun e => { e with lmask := ls }

/-- The next pixel group of a draw: on the core of its tile, which stays while it is in service (R352). -/
def State.placePixel (s : State) (l : Launch) (d : Draw) (p : PixGroup) : State :=
  let k0 := blockKernel (d.dword 2)
  let k := { k0 with waves := k0.waves.take p.waves }
  let n := needOf (l.word 1)
  let same := ((d.home.filter fun x => x.1 == p.tile).map (·.2)).filter fun c => !s.spares.offline.contains c
  let group := Config.pick s.fresh p.gid % 2 ^ 32
  match s.freeImage l.ctx, s.bestSeat l.ctx group n.acs k n k.budgets (if same.isEmpty then coreIdx else same.take 1) with
  | some _, some seat => match s.readLists l 0 false with
    | none => s.giveUp l 0x02
    | some ls =>
      let fs := (d.frags.filter fun f => f.gid == p.gid).map fun (f : Frag) => { f with prim := ((d.prims[f.prim]?).map fun (t : DPrim) => t.p).getD 0 }
      let s1 := State.found { s with fresh := s.fresh + 1 } l k seat .pixel p.gid (BitVec.ofNat 32 group) 0xffffffff l.args
      let s2 := { s1 with waves := s1.waves.map fun (w : Wave) => if w.gid == p.gid then pixelWave fs w else w }
      let s3 := s2.updGroup p.gid fun g => { g with index := p.tile }
      let home := (p.tile, seat.core) :: d.home.filter fun x => x.1 != p.tile
      let s4 := s3.updLaunch l.lid fun x => { x with placed := x.placed + 1, draw := some { d with wait := d.wait.drop 1, home } }
      ({ s4 with lists := s4.lists ++ ls.map fun x => { x with scope := p.gid } } : State).listsSeen l
  | _, _ => s

/-- GROUP_PLACEMENT (R404, R405): the next group of a launch, where it has room. -/
def execGroupPlacement (lid : Nat) (s : State) : Host.Outcome State Fault Refusal :=
  match s.launch? lid with
  | none => .next s
  | some l =>
    if !s.mayPlace l then .next s
    else match l.draw with
      | none => .next (if l.lkind ≠ 1 && decide (l.placed < l.total) then s.placeGrid l else s)
      | some d => match d.phase with
        | .amp => .next (if l.placed < l.total then s.placeGrid l else s)
        | .raster => .next (match d.wait with | p :: _ => s.placePixel l d p | [] => s)
        | _ => .next (match d.todo with | g :: _ => s.placeMesh l d g | [] => s)

end Sys2Proof.Machine
end

