-- ==== Sys2Proof/Machine/Debug.lean ====
section
/-!
DEFINITION. Halts, the trace and causal experiments of a core (21 R448 to R464; 20 R446, R447).
-/
namespace Sys2Proof.Machine

/-! ## Halting (R447, R449) -/

/-- Some core of the module is halted. -/
def State.anyHalted (s : State) : Bool := s.cores.any fun c => c.dbg.halted

/-- A halt or a resume of the module is broadcast to every node of the route table when SEND is set (R447). -/
def State.sendNotice (s : State) (core : Nat) (on : Bool) : State :=
  if bitAt s.notice 63 then { s with sent := s.sent ++ s.routes.map fun r => (r.1, on, (s.core core).clk) } else s

/-- HALT (R449): every part of the core is to stop at its next bundle boundary. -/
def execHalt (core : Nat) (s : State) : Host.Outcome State Fault Refusal := .next (if s.hostOk 0 then s.requestHalt core else s)

/-- Every part of the core stands at a bundle boundary, and no trap entry is in its first two steps (R408, R449). -/
def State.atRest (s : State) (core : Nat) : Bool :=
  (s.waves.filter fun w => w.core == core).all fun w =>
    !w.issuers.any s.midBundle && (w.trapped.isEmpty || w.handler.run || w.dead || w.drained)

/-- HALT_COMPLETE (R449): HALTED reads 1; the trace gets its HALT packet and WCNT (R456, R458). -/
def execHaltComplete (core : Nat) (s : State) : Host.Outcome State Fault Refusal :=
  if (s.core core).dbg.halting && s.atRest core then
    let s1 := if s.anyHalted then s else s.sendNotice core true
    let s2 := (if (s.core core).dbg.told then s1 else s1.traceHalt core 0).traceFlush core
    let s3 := if bitAt ((s.core core).dreg 0x200) 63 then s2.traceWcnt core else s2
    .next (s3.updCore core fun c => { c with dbg := { c.dbg with halting := false, halted := true, told := false } })
  else .next s

/-- RESUME (R449). -/
def execResume (core : Nat) (s : State) : Host.Outcome State Fault Refusal :=
  let d := (s.core core).dbg
  let s1 := s.updCore core fun c => { c with dbg := { c.dbg with halting := false, stopping := false, halted := false, told := false } }
  if !s.hostOk 0 then .next s
  else if d.halted then
    let s2 := s1.traceHalt core 1
    let s3 := if s2.anyHalted then s2 else s2.sendNotice core false
    .next (((s.waves.filter fun w => w.core == core).map (·.wid)).foldl State.unstop s3)
  else .next (if d.told then s1.traceHalt core 1 else s1)

/-! ## The trace (R455, R456, R459, R461) -/

/-- The writable fields of TCTL. -/
def tctlFields (v : DWord) : DWord := v &&& 0xff80ff1f0000ffff
/-- TSZ, TBASE and THDR are in range and aligned. -/
def Core.traceOk (c : Core) (v : DWord) : Bool :=
  let sz := field v 56 6
  decide (12 ≤ sz ∧ sz ≤ 40) && field (c.dreg 0x208) 0 57 % 2 ^ sz == 0 && field (c.dreg 0x210) 0 57 % 64 == 0

/-- TRACE_ENABLE (R455, R456): a write of TCTL. -/
def execTraceEnable (core : Nat) (v : DWord) (s : State) : Host.Outcome State Fault Refusal :=
  let c := s.core core
  let was := bitAt (c.dreg 0x200) 63
  let on := bitAt v 63 && c.traceOk v
  let x := if on then tctlFields v else tctlFields v &&& 0x7fffffffffffffff
  let set := fun (t : State) => t.updCore core fun c => c.setDreg 0x200 x
  if !s.hostOk 0 then .next s
  else if was && !on then .next (set ((s.traceFlush core).traceWcnt core))
  else if on && !was then
    let fresh := fun (c : Core) => { c with dbg := { c.dbg with tbuf := [], tw := 0, twc := 0, tn := 0, tsync := [], tlost := 0, tdrop := 0, staged := [],
                                                                tclk := c.clk.toNat } }
    .next (((set s).updCore core fresh).wr (field (c.dreg 0x210) 0 57) (List.replicate 8 0) |>.wr (field (c.dreg 0x210) 0 57 + 16) (List.replicate 8 0))
  else .next (set s)

/-- The place of a part in the order of samples. -/
def Wave.place (w : Wave) (e : Nat) : Nat := 4096 * w.part + 64 * w.slot + e
/-- The running parts resident on a core, in the order of partitions, wave slots and entries. -/
def State.placed (s : State) (core : Nat) : List (Wave × Nat) :=
  let ws := s.waves.filter fun w => w.core == core && (match s.group? w.gid with | some g => g.state != .saved | none => false)
  sortBy (fun (a b : Wave × Nat) => decide (a.1.place a.2 ≤ b.1.place b.2)) (ws.flatMap fun w => w.parts.map fun e => (w, e))

/-- TRACE_SAMPLE (R459): the next resident part after the one sampled last. -/
def execTraceSample (core : Nat) (s : State) : Host.Outcome State Fault Refusal :=
  let d := (s.core core).dbg
  if !d.smp then .next s
  else
    let ps := s.placed core
    let s1 := s.updCore core fun c => { c with dbg := { c.dbg with smp := false } }
    match (ps.find? fun p => decide (d.sampled ≤ p.1.place p.2)).orElse fun _ => ps.head? with
    | none => .next s1
    | some (w, e) =>
      let x := w.ent e
      let w1 : Word := 0#12 ++ x.st ++ x.pc
      .next ((s1.trace w e 9 0 [w1, regionRecord (w.bankOf e)]).updCore core fun c => { c with dbg := { c.dbg with sampled := w.place e + 1 } })

/-- The oldest staged packet fits the ring. -/
def State.drainDue (s : State) (core : Nat) : Bool :=
  match (s.core core).dbg.staged with
  | ws :: _ => decide (4 * ws.length ≤ s.traceRoom core)
  | [] => false

/-- TRACE_STAGING_DRAIN (R461): of every core whose ring has room for its oldest staged packet. -/
def execTraceStagingDrain (s : State) : Host.Outcome State Fault Refusal := .next ((List.range 64).foldl State.traceDrain s)

/-! ## Causal experiments (R463, R464) -/

/-- The writable fields of 0x300; a SPD above 16 stores 16. -/
def cxFields (v : DWord) : DWord := (v &&& 0x2000ffffffffffff) ||| place 64 (min 16 (field v 48 5)) 48
/-- The core with register `off` of a trial counting one more, in 48 bits. -/
def Core.bump (c : Core) (off : Nat) : Core := c.setDreg off (BitVec.ofNat 64 ((field (c.dreg off) 0 48 + 1) % 2 ^ 48))

/-- CAUSAL_TRIAL_START (R463, R464): a write of 0x300. -/
def execCausalTrialStart (core : Nat) (v : DWord) (s : State) : Host.Outcome State Fault Refusal :=
  let c := s.core core
  let go := bitAt v 63 && field v 0 32 != 0 && !c.dbg.run
  if !s.hostOk 0 then .next s else
  let x := cxFields v ||| (if go then 0 else c.dreg 0x300 &&& 0x4000000000000000)
  let s1 := s.updCore core fun c => c.setDreg 0x300 x
  .next (if go then s1.updCore core fun c =>
      let c1 := [0x318, 0x320, 0x328, 0x330, 0x338].foldl (fun (c : Core) off => c.setDreg off 0) c
      { c1 with dbg := { c1.dbg with run := true, dacc := 0, delay := false, inr := false } }
    else s1)

/-- A delay clk is due (R464, step 1). -/
def Core.delayDue (c : Core) : Bool := c.dbg.run && !c.dbg.halted && !c.dbg.delay && decide (16 ≤ c.dbg.dacc)
/-- The trial has run its length. -/
def Core.trialOver (c : Core) : Bool := c.dbg.run && decide (field (c.dreg 0x300) 0 32 ≤ field (c.dreg 0x318) 0 48)

/-- A core in a delay clk. -/
def Core.startDelay (c : Core) : Core :=
  if c.delayDue && !c.trialOver then
    let x := c.bump 0x328
    { x with dbg := { x.dbg with delay := true, dacc := c.dbg.dacc - 16 } }
  else c

/-- CAUSAL_DELAY (R464): for this clk, bundles out of range are held on every core whose accumulator asks for it. -/
def execCausalDelay (s : State) : Host.Outcome State Fault Refusal := .next { s with cores := s.cores.map Core.startDelay }

/-- A core whose trial has run its length. -/
def Core.endTrial (c : Core) : Core :=
  if c.trialOver then
    let x := c.setDreg 0x300 (c.dreg 0x300 ||| 0x4000000000000000)
    { x with dbg := { x.dbg with run := false, dacc := 0, delay := false, inr := false } }
  else c

/-- CAUSAL_TRIAL_END (R464): DONE reads 1 and the counters stand. -/
def execCausalTrialEnd (s : State) : Host.Outcome State Fault Refusal := .next { s with cores := s.cores.map Core.endTrial }

/-- What a clk does to a core's debug unit: a region stop begins, a sample falls due (R459), the trial counts (R464): also the clk in which the
core halted, where a bundle issued in it before. -/
def Core.tickDebug (c : Core) : Core :=
  let d := c.dbg
  let sper := field (c.dreg 0x200) 32 5
  let smp := d.smp || (bitAt (c.dreg 0x200) 63 && decide (8 ≤ sper ∧ sper ≤ 24) && (c.clk.toNat + 1) % 2 ^ sper == 0)
  let c1 := { c with dbg := { d with halting := (d.halting || d.stopping) && !d.halted, stopping := false, smp } }
  if d.run && (!d.halted || !c.issued.isEmpty) then
    let c2 := c1.bump 0x318
    let c3 := if d.inr then c2.bump 0x320 else c2
    let dacc := if d.inr then min (2 ^ 20) (d.dacc + field (c.dreg 0x300) 48 5) else d.dacc
    { c3 with dbg := { c3.dbg with dacc, delay := false, inr := false } }
  else c1

end Sys2Proof.Machine
end

