-- ==== Sys2Proof/Machine/Counters.lean ====
section
/-!
DEFINITION. Event counters and the energy windows (24 R485 to R497).
-/
namespace Sys2Proof.Machine

/-! ## Counters (R486 to R492) -/

/-- Words of counter `n` in a bank: CFG, VAL, THR; FSTAT (R485, R487). -/
def Func.cfg (f : Func) (n : Nat) : DWord := f.ctr.get (4 * n)
def Func.val (f : Func) (n : Nat) : Nat := field (f.ctr.get (4 * n + 1)) 0 48
def Func.thr (f : Func) (n : Nat) : Nat := field (f.ctr.get (4 * n + 2)) 0 48
def fstatIx : Nat := 32
/-- Replaces a word of a bank. -/
def Func.setCtr (f : Func) (i : Nat) (x : DWord) : Func := { f with ctr := f.ctr.set i x }

/-- Whether counter `n` counts event `evt` of a panel. -/
def Func.counts (f : Func) (n evt panel : Nat) : Bool :=
  let c := f.cfg n
  bitAt c 63 && evt != 0 && field c 0 16 == evt && (field c 16 4 == 0 || bitAt c (16 + panel))

/-- The payload `8 f + n` is posted to event queue `q` when its FMASK permits `f` (R402, R492). -/
def State.postCounter (s : State) (q f n : Nat) : State :=
  if bitAt (s.rd64 (s.eventKey q + 8)) f then s.postEvent q (BitVec.ofNat 32 (8 * f + n)) else s

/-- One addition to a counter (R491, R492). -/
def State.addCount (s : State) (f n k : Nat) : State :=
  let x := s.func f
  let c := x.cfg n
  let old := x.val n
  let new := old + k
  if 2 ^ 48 ≤ new then
    let s1 := s.updFunc f fun x => (x.setCtr (4 * n + 1) (BitVec.ofNat 64 (new % 2 ^ 48))).setCtr (4 * n) (c ||| 0x1000000000000000)
    if bitAt c 62 then s1.signal f (field c 32 11) else s1
  else
    let s1 := s.updFunc f fun x => x.setCtr (4 * n + 1) (BitVec.ofNat 64 new)
    if old < x.thr n && x.thr n ≤ new && !bitAt c 59 then
      let s2 := s1.updFunc f fun x => x.setCtr (4 * n) (c ||| 0x0800000000000000)
      if bitAt c 61 then s2.postCounter (field c 54 4) f n else s2
    else s1

/-- The staged counts of a function reach its bank: `k` events of a code on a panel. -/
def State.flushOne (s : State) (f code k : Nat) : State :=
  (List.range 8).foldl (fun t n => if (t.func f).counts n (code / 4) (code % 4) then t.addCount f n k else t) s

/-- Every staged count of a function reaches its bank (R490). -/
def State.flushFunc (s : State) (f : Nat) : State :=
  (s.func f).staged.foldl (fun t c => t.flushOne f c.1 c.2.toNat) (s.updFunc f fun x => { x with staged := [] })

/-- COUNTER_FLUSH (R490). -/
def execCounterFlush (s : State) : Host.Outcome State Fault Refusal := .next ((List.range 64).foldl State.flushFunc s)

/-- COUNTER_FREEZE (R493): FRZ is set, and events of the function no longer count. -/
def execCounterFreeze (func : Nat) (s : State) : Host.Outcome State Fault Refusal :=
  .next (s.updFunc func fun x => { x.setCtr fstatIx (x.ctr.get fstatIx ||| 1) with frz := true })

/-- FREEZE_DONE (R493): the staged counts have reached the bank, and FRZD reads 1. -/
def execFreezeDone (func : Nat) (s : State) : Host.Outcome State Fault Refusal :=
  if (s.func func).frz then .next ((s.flushFunc func).updFunc func fun x => x.setCtr fstatIx (x.ctr.get fstatIx ||| 3)) else .next s

/-! ## Energy windows (R494, R495) -/

/-- The queues with a budget: their entries stand in memory. -/
def State.budgetQueues (s : State) : List Nat :=
  let a := s.qtbase.toNat
  let qs := ((s.mem.filter fun c => decide (a ≤ c.1 ∧ c.1 < a + 2 ^ 20)).map fun c => (c.1 - a) / 32).eraseDups
  qs.filter fun q => (s.rd32 (a + 32 * q + 20)) != 0

/-- A remainder at the start of a window. -/
def refill (budget : Nat) (rem : Int) : Int := (budget : Int) + min rem 0

/-- The length of a window in units of the time base: WLEN × 65,536 fclk. -/
def Energy.length (e : Energy) : Nat := e.wlen.toNat * 65536 * 7

/-- The share that function `f` has, by activity on panel `p`, in the grains of a window, as weights; `shares` is what all together have, the
unattributed part included: free values, for the weights are firmware's (R497, log 31). -/
def State.grainWeight (s : State) (f p : Nat) : Nat := Config.pick s.fresh (1 + 4 * f + p) % 2 ^ 16
def State.grainShares (s : State) : Nat :=
  ((List.range 256).map fun i => s.grainWeight (i / 4) (i % 4)).sum + Config.pick s.fresh 257 % 2 ^ 24 + 1
/-- Event 0x11 (R497): the estimates, scaled so that with the unattributed share they are the grains that were measured. -/
def State.attribute (s : State) (grains : Nat) : State :=
  (List.range 256).foldl (fun t i => t.count (i / 4) 0x11 (i % 4) (grains * s.grainWeight (i / 4) (i % 4) / s.grainShares)) s

/-- ENERGY_WINDOW (R494, R495, R497): the window that ends measured `grains`, which are attributed; every remainder starts anew. -/
def execEnergyWindow (grains : Nat) (s : State) : Host.Outcome State Fault Refusal :=
  let e := s.energy
  let old := fun (q : Nat) => ((e.qrem.find? fun r => r.1 == q).map fun (r : Nat × Int) => r.2).getD 0
  let qs := (s.budgetQueues ++ e.qrem.map fun (r : Nat × Int) => r.1).eraseDups
  let qrem := (qs.map fun q => (q, refill (s.rd32 (s.qtbase.toNat + 32 * q + 20)).toNat (old q))).filter fun (r : Nat × Int) => r.2 != 0
  let fbud := fun (f : Nat) => (s.rd32 (s.qtbase.toNat + 0x100000 + 8 * f + 4)).toNat
  let funcs := (s.attribute grains).funcs.mapIdx fun i (f : Func) => { f with rem := refill (fbud i) f.rem }
  .next { s with
    funcs
    fresh := s.fresh + 1
    energy := { e with ewnum := e.ewnum + 1, mgrn := e.mgrn + BitVec.ofNat 48 grains, wgrn := BitVec.ofNat 48 grains, start := s.time, qrem,
                       mrem := refill e.mbud.toNat e.mrem } }

end Sys2Proof.Machine
end

