-- ==== Sys2Proof/Machine/Boot.lean ====
section
/-!
DEFINITION. Power-on, self-test, secure boot and the mailbox (22 R466 to R473).
-/
namespace Sys2Proof.Machine

/-! ## The safe state and the stages (R466, R470) -/

/-- The module enters the safe state: compute, queues, virtual functions are off (R470). -/
def State.enterSafe (s : State) (stage : Nat) (fcode : Nat) (fdetail : Word) : State :=
  { s with
    boot := { s.boot with state := 0x80, stage := BitVec.ofNat 8 stage, fcode := BitVec.ofNat 16 fcode, fdetail, vfEnable := false }
    waves := s.waves.map fun w => { w with dead := true } }

/-- A stage passes. -/
def State.stageTo (s : State) (stage : Nat) : State := { s with boot := { s.boot with stage := BitVec.ofNat 8 stage } }

/-- The module is in a boot stage. -/
def State.inStage (s : State) (stage : Nat) : Bool := s.boot.state == 0x01 && s.boot.stage == BitVec.ofNat 8 stage

/-- The boot fields when the sequence begins: flash and fuses keep what they hold. -/
def Boot.again (b : Boot) : Boot :=
  { imageA := b.imageA, imageB := b.imageB, rollback := b.rollback, meas0 := b.meas0, meas1 := b.meas1, locked0 := b.locked0, buf := b.buf }

/-- The module as reset leaves it, beside the world outside: host memory and the memory of other modules, the inputs that are still to
come, the signals and answers that were sent, and the counters of the model. -/
def State.outside (s : State) : State :=
  { State.reset with
    mem := s.mem.filter fun c => decide (2 ^ 58 ≤ c.1)
    fresh := s.fresh, nextId := s.nextId, inputs := s.inputs, upsets := s.upsets, fleet := s.fleet, fdLoads := s.fdLoads, refused := s.refused, silent := s.silent, turned := s.turned, msi := s.msi, answers := s.answers, config := s.config, sent := s.sent }

/-- POWER_ON_RESET (R466): every state is that of reset; flash and fuses keep what they hold. -/
def execPowerOnReset (s : State) : Host.Outcome State Fault Refusal :=
  .next { s.outside with boot := { imageA := s.boot.imageA, imageB := s.boot.imageB, rollback := s.boot.rollback } }

/-- BOOT_ROM_STAGE_DONE (R466): the measurement registers are cleared. The failure code of this stage is not given: a free value. -/
def execBootRomStageDone (ok : Bool) (s : State) : Host.Outcome State Fault Refusal :=
  if !s.inStage 1 then .next s
  else if ok then
    .next (State.stageTo { s with boot := { s.boot with meas0 := List.replicate 64 0, meas1 := List.replicate 64 0, locked0 := false } } 2)
  else .next (State.enterSafe { s with fresh := s.fresh + 1 } 1 (Config.pick s.fresh 0 % 2 ^ 16) (BitVec.ofNat 32 (Config.pick s.fresh 1)))

/-! ## Firmware images (R467, R468) -/

/-- SHAKE256 truncated to 64 B. -/
def digest64 (bs : List Byte) : List Byte := (Config.shake256 bs ++ List.replicate 64 0).take 64
/-- The extend operation (R468). -/
def extend (m x : List Byte) : List Byte := digest64 (m ++ x)
/-- The boot ROM extends MEAS0, which nothing does once it is locked. -/
def Boot.extend0 (b : Boot) (x : List Byte) : List Byte := if b.locked0 then b.meas0 else extend b.meas0 x
/-- Firmware extends MEAS1 with the components that it loads; how many, and their measurements, are free values (log 30). -/
def State.extend1 (s : State) : List Byte :=
  (List.range (Config.choice s.fresh % 256)).foldl (fun m k => extend m ((List.range 64).map fun i => BitVec.ofNat 8 (Config.pick s.fresh (64 * k + i)))) s.boot.meas1

/-- What the boot ROM finds in an image slot: its version and digest, or a failure 1 bad magic, 2 bad signature, 3 rollback, 4 read error.
The header holds the magic, the version, the body length and the signature length as its first four 32-bit words (log 4). -/
def checkImage (im : List Byte) (rollback : Nat) : Except Nat (Word × List Byte) :=
  let w := fun (k : Nat) => ofBytes ((im.drop (4 * k)).take 4)
  if im.length < 64 then .error 4
  else if w 0 ≠ 0x6c4e414c then .error 1
  else if im.length < 64 + w 2 + w 3 then .error 4
  else
    let d := digest64 (im.take (64 + w 2))
    let sig := (im.drop (64 + w 2)).take (w 3)
    if 1280 < w 3 || !Config.falconVerify d sig then .error 2
    else if w 1 < rollback then .error 3
    else .ok (BitVec.ofNat 32 (w 1), d)

/-- The record of the slot letter, the version and the anti-rollback count (log 4). -/
def acceptRecord (letter : Byte) (version : Word) (rollback : Nat) : List Byte :=
  toBytes 4 letter.toNat ++ toBytes 4 version.toNat ++ toBytes 8 rollback ++ List.replicate 48 0

/-- The accepted image is measured, and the stage passes. -/
def State.accepted (s : State) (letter : Byte) (version : Word) (d : List Byte) : State :=
  let b := s.boot
  State.stageTo { s with boot := { b with letter, version, meas0 := { b with meas0 := b.extend0 d }.extend0 (acceptRecord letter version b.rollback) } } 3

/-- FIRMWARE_VERIFY (R467, R468): slot A, then slot B. -/
def execFirmwareVerify (s : State) : Host.Outcome State Fault Refusal :=
  if !s.inStage 2 then .next s
  else match checkImage s.boot.imageA s.boot.rollback with
    | .ok (v, d) => .next (s.accepted 0x41 v d)
    | .error a => match checkImage s.boot.imageB s.boot.rollback with
      | .ok (v, d) => .next (s.accepted 0x42 v d)
      | .error b => .next (s.enterSafe 2 0x0201 (BitVec.ofNat 32 (a + 2 ^ 16 * b)))

/-! ## Self-test (R469) -/

/-- The panel of a physical core or of a slice. -/
def panelOfPhys (p : Nat) : Nat := p / 17

/-- What the self-test has found so far: repaired rows, the spares in use, entries, and the failure that ends the stage. -/
structure Tested where
  rows : Nat := 0
  sp : Spares
  ents : List (List Byte) := []
  fail : Option (Nat × Nat) := none
  deriving DecidableEq, Repr

/-- An entry of the self-test list: the test's failure code, 1 for a repair and 0 for a failure, the index (log 4). -/
def testEntry (code : Nat) (repaired : Bool) (ix : Nat) : List Byte := toBytes 2 code ++ toBytes 2 (if repaired then 1 else 0) ++ toBytes 4 ix

/-- One defect: absorbed by a spare, or the failure of the stage. -/
def Tested.found (t : Tested) (d : Defect) : Tested :=
  let repair := fun (code ix : Nat) => { t with ents := t.ents ++ [testEntry code true ix] }
  let fail := fun (code ix : Nat) => { t with ents := t.ents ++ [testEntry code false ix], fail := some (code, ix) }
  if t.fail.isSome then t
  else match d with
    | .sram m spare => if spare then { repair 0x0101 m with rows := t.rows + 1 } else fail 0x0101 m
    | .core p =>
      if t.sp.cores.any fun x => x.1 == panelOfPhys p then fail 0x0102 p
      else { repair 0x0102 p with sp := { t.sp with cores := t.sp.cores ++ [(panelOfPhys p, p)] } }
    | .slice k =>
      if t.sp.slices.any fun x => x.1 == panelOf k then fail 0x0103 k
      else { repair 0x0103 k with sp := { t.sp with slices := t.sp.slices ++ [(panelOf k, k)] } }
    | .device i => fail 0x0104 i
    | .lane p =>
      if t.sp.lanes.any fun x => x.1 == p then fail 0x0105 p
      else { repair 0x0105 p with sp := { t.sp with lanes := t.sp.lanes ++ [(p, 0)] } }
    | .unlinked p => { t with sp := { t.sp with down := t.sp.down ++ [p] } }
    | .port p => fail 0x0105 p

/-- The summary: repaired rows, spared cores, spared slices, spared lanes (log 4). -/
def Tested.summary (t : Tested) : List Byte :=
  toBytes 4 t.rows ++ toBytes 4 t.sp.cores.length ++ toBytes 4 t.sp.slices.length ++ toBytes 4 t.sp.lanes.length ++ List.replicate 48 0

/-- The spare of a panel takes the place of a failing core (R469, R482). -/
def spared (sp : Spares) (c : Nat) (x : Core) : Core :=
  if sp.cores.contains (panelOf c, x.phys) then { x with phys := 17 * panelOf c + 16 } else x

/-- SELF_TEST (R468, R469): every failing part that the tests find, in order. -/
def execSelfTest (found : List Defect) (s : State) : Host.Outcome State Fault Refusal :=
  if !s.inStage 3 then .next s
  else
    let t := found.foldl Tested.found { sp := {} }
    let b := { s.boot with selfSum := t.summary, selfEnt := t.ents }
    match t.fail with
    | some (code, ix) => .next (State.enterSafe { s with boot := b } 3 code (BitVec.ofNat 32 ix))
    | none =>
      .next (State.stageTo { s with boot := { b with meas0 := b.extend0 t.summary, locked0 := true }, spares := t.sp,
                                    cores := resetCores.mapIdx fun c x => spared t.sp c x } 4)

/-- A key lies in a table that firmware clears: queues, functions and events, contexts, address spaces, where the base registers say, and where
they will after it, at 0 (R388, R411, R432, R466; log 33). -/
def State.inTables (s : State) (k : Nat) : Bool :=
  let at' := fun (base size : Nat) => decide (base ≤ k ∧ k < base + size)
  at' s.qtbase.toNat 0x100300 || at' s.ctxbase.toNat 0x400000 || at' s.astbase.toNat 0x80000 || at' 0 0x400000

/-- FIRMWARE_START (R466): tables cleared, NODEID 0, every core idle; then READY. The fleet firmware writes its route table (R442), in which ports
that are down stand for nothing (R484). The failure code of this stage is not given: a free value. -/
def execFirmwareStart (ok : Bool) (s : State) : Host.Outcome State Fault Refusal :=
  if !s.inStage 4 then .next s
  else if ok then
    .next { s.outside with
      mem := s.mem.filter fun c => !s.inTables c.1
      poison := s.poison, time := s.time, fresh := s.fresh + 1
      routes := s.fleet.map fun r => (r.1, r.2.filter fun p => !s.spares.down.contains p)
      spares := s.spares, boot := { s.boot with state := 0x05, stage := 0x05, meas1 := s.extend1 }
      cores := resetCores.mapIdx fun c x => { spared s.spares c x with clk := (s.core c).clk } }
  else .next (State.enterSafe { s with fresh := s.fresh + 1 } 4 (Config.pick s.fresh 0 % 2 ^ 16) (BitVec.ofNat 32 (Config.pick s.fresh 1)))

/-! ## Configuration requests (R466, R470) -/

/-- PCIE_CONFIG_REQUEST: Retry Status before the end of stage 0x01; VF Enable is ignored in the safe state. -/
def execPcieConfigRequest (req : ConfigReq) (s : State) : Host.Outcome State Fault Refusal :=
  let answer := fun (t : State) (a : ConfigAnswer) => { t with config := t.config ++ [a] }
  if s.inStage 1 then .next (answer s .retry)
  else match req with
    | .read => .next (answer { s with fresh := s.fresh + 1 } (.data (Config.configSpace s.fresh)))
    | .writeVfEnable on => .next (answer (if s.boot.state == 0x80 then s else { s with boot := { s.boot with vfEnable := on } }) .done)
    | .writeOther => .next (answer s .done)

/-! ## The mailbox (R471, R472) -/

/-- The commands. -/
def mbReport : Nat := 1
def mbPubkey : Nat := 2
def mbSelftest : Nat := 3
def mbRetry : Nat := 4

/-- A command ends: its response in BUF, RLEN, RST. A response that a write to BUF raced with is a free value (R472). -/
def State.respond (s : State) (rst : Nat) (bs : List Byte) : State :=
  let b := s.boot
  let data := if b.raced then (List.range bs.length).map fun i => BitVec.ofNat 8 (Config.pick s.fresh i) else bs
  { s with
    fresh := if b.raced then s.fresh + 1 else s.fresh
    boot := { b with busy := false, raced := false, rst := BitVec.ofNat 16 rst, rlen := BitVec.ofNat 16 bs.length, buf := Store.setList b.buf 0 data } }

/-- The command under way is `cmd`: its response, or 2 for an argument length other than `len`. -/
def State.command (s : State) (cmd len : Nat) (go : State → State) : State :=
  if !s.boot.busy || s.boot.run.1.toNat ≠ cmd || s.boot.state == 0x01 then s
  else if s.boot.run.2.toNat ≠ len then s.respond 2 []
  else go s

/-- The register ID (R437). -/
def regId : DWord := 0#24 ++ Config.stepping ++ 0x0001#16 ++ 0x1ac5#16

/-- Bytes 0 to 319 of the attestation report (R473; log 4). -/
def State.reportBody (s : State) : List Byte :=
  let b := s.boot
  [1, b.state, b.stage, 0] ++ toBytes 4 b.fcode.toNat ++ Store.getList b.buf 0 32 ++
    toBytes 8 regId.toNat ++ toBytes 4 b.version.toNat ++ [b.letter] ++ List.replicate 11 0 ++
    b.meas0 ++ b.meas1 ++ b.selfSum ++ digest64 Config.attestationKey

/-- GET_REPORT (R473): the nonce stands in BUF. -/
def execGetReport (s : State) : Host.Outcome State Fault Refusal :=
  .next (s.command mbReport 32 fun t =>
    let sig := (Config.falconSign t.reportBody).take 1280
    t.respond 0 (t.reportBody ++ toBytes 2 sig.length ++ sig))

/-- GET_PUBKEY (R472): the key of 1,793 B, then its certificate, as far as the buffer reaches. -/
def execGetPubkey (s : State) : Host.Outcome State Fault Refusal :=
  .next (s.command mbPubkey 0 fun t =>
    t.respond 0 ((Config.attestationKey ++ List.replicate 1793 0).take 1793 ++ Config.attestationCert.take 2047))

/-- GET_SELFTEST (R472): the summary, then the entries, as far as the buffer reaches. -/
def execGetSelftest (s : State) : Host.Outcome State Fault Refusal :=
  .next (s.command mbSelftest 0 fun t => t.respond 0 (t.boot.selfSum ++ (t.boot.selfEnt.take 472).flatten))

/-- RETRY_BOOT (R472): in the safe state the sequence restarts at stage 0x01. -/
def execRetryBoot (s : State) : Host.Outcome State Fault Refusal :=
  .next (s.command mbRetry 0 fun t => if t.boot.state == 0x80 then { t with boot := t.boot.again } else t.respond 3 [])

/-- A write of MBCMD (R471, R472): the command runs as its GO found CMD and LEN, whatever is stored there afterwards; a GO while BUSY is 1 or while booting is ignored. -/
def State.writeMbcmd (s : State) (v : DWord) : State :=
  let b := s.boot
  if bitAt v 63 && (b.busy || b.state == 0x01) then s
  else
    let s1 := { s with boot := { b with len := bits v 16 16, cmd := bits v 0 16 } }
    if !bitAt v 63 then s1
    else
      let s2 := { s1 with boot := { s1.boot with busy := true, raced := false, run := (bits v 0 16, bits v 16 16) } }
      if field v 0 16 = 0 || 4 < field v 0 16 then s2.respond 1 [] else s2

/-- Writes to BUF (R472). -/
def State.writeBuf (s : State) (off : Nat) (bs : List Byte) : State :=
  { s with boot := { s.boot with buf := Store.setList s.boot.buf off bs, raced := s.boot.raced || s.boot.busy } }

/-- The mailbox command that is under way. -/
def State.mailDue (s : State) : Option Instr :=
  if !s.boot.busy then none
  else match s.boot.run.1.toNat with
    | 1 => some .getReport
    | 2 => some .getPubkey
    | 3 => some .getSelftest
    | 4 => some .retryBoot
    | _ => none

end Sys2Proof.Machine
end

