-- ==== Sys2Proof/Machine/Context.lean ====
section
/-!
DEFINITION. Pre-emption, save images and restore (19 R418 to R428, R498; 20 R441).
-/
namespace Sys2Proof.Machine

/-! ## The request (R441) -/

/-- PRECTL as the device keeps it: bit 31 while a pre-emption is in flight, DONE in bit 30. -/
def preFields (v : DWord) : DWord := v &&& 0x000007ff003fffff

/-- Every group of the request in flight is saved: DONE reads 1 and the vector of the physical function is signalled, after the staged counts
have reached their banks (R493). -/
def State.preDone (s : State) : State :=
  let drains := fun (g : Group) => match g.state with | .draining _ => (g.ctx, g.core) == s.preq | _ => false
  if bitAt s.prectl 31 && !s.groups.any drains then
    let s1 := (List.range 64).foldl State.flushFunc s
    { s1 with prectl := preFields s.prectl ||| 0x40000000 }.signal 0 (field s.prectl 32 11)
  else s

/-- The groups of a context on a core start to drain (R418). -/
def State.preempt (s : State) (ctx core : Nat) : State :=
  let now := (s.core core).clk.toNat
  { s with groups := s.groups.map fun g =>
      if g.ctx == ctx && g.core == core && (g.state == .resident || g.state == .restoring) then { g with state := .draining now } else g }

/-- PREEMPT_REQUEST (R441): a write of PRECTL by the physical function. -/
def execPreemptRequest (func : Nat) (v : DWord) (s : State) : Host.Outcome State Fault Refusal :=
  if func ≠ 0 || !s.hostOk 0 then .next s
  else if bitAt s.prectl 31 then .next (if bitAt v 31 then s else { s with prectl := preFields v ||| 0x80000000 })
  else if bitAt v 31 then
    let (ctx, core) := (field v 0 16, field v 16 6)
    .next (State.preempt { s with prectl := preFields v ||| 0x80000000, preq := (ctx, core) } ctx core).preDone
  else .next { s with prectl := preFields v ||| (s.prectl &&& 0x40000000) }

/-! ## Draining (R418, R419) -/

/-- 65,536 clk have passed since the request that drains a group (R419). -/
def State.drainOver (s : State) (g : Group) : Bool :=
  match g.state with | .draining t => decide (t + 65536 ≤ (s.core g.core).clk.toNat) | _ => false

/-- A copy that does not land: it is parked, or its barrier already holds a fault of another copy, and its own source has one too (R227). -/
def State.copyStuck (s : State) (g : Group) (x : Copy) : Bool :=
  x.parked || ((g.bar x.bar).fault.isSome && (match s.span (some g.core) g.ctx x.src x.chunk .rd false with | .error _ => true | .ok _ => false))

/-- Code loads that the waves `ws` started and that are LOADING. -/
def State.loadsOf (s : State) (core : Nat) (ws : List Nat) : List Nat :=
  (List.range 128).filter fun k => let x := (s.core core).slot k; x.st == .loading && !x.resident && ws.contains x.wid

/-- Steps 1 to 4 of R418 are done for a group. -/
def State.drained (s : State) (g : Group) : Bool :=
  let ws := s.wavesOf g.gid
  let ids := ws.map (·.wid)
  !(ws.any fun w => w.issuers.any s.midBundle || !w.pend.isEmpty) && !(s.inflight.any fun a => ids.contains a.wid) &&
    !((s.core g.core).easel.any fun o => o.gid == g.gid) && ((s.core g.core).copies.all fun x => x.gid != g.gid || s.copyStuck g x) &&
    (s.loadsOf g.core ids).isEmpty

/-- A PRIME that has not taken effect is discarded with a deferred PAGE (R419). -/
def State.dropPrime (s : State) (g : Group) (wid : Nat) : State :=
  match (s.core g.core).easel.find? fun o => o.wid == wid && !o.mma with
  | none => s
  | some op => (s.opRecord g.core { op with wide := s.fillsPair g op } (op.fault cPage 1 op.addr.toNat) none).failCanvas g.core g op.can (s.fillsPair g op)

/-- The first PRIMEs of the group's waves, until none is left. -/
def State.dropPrimes (s : State) (g : Group) : Nat → State
  | 0 => s
  | n + 1 => match (s.core g.core).easel.find? fun o => o.gid == g.gid && !o.mma with
    | none => s
    | some op => (s.dropPrime g op.wid).dropPrimes g n

/-- A copy that has not landed parks with a deferred PAGE, which its barrier reports after the restore (R419). Where the barrier holds the fault of
another copy, it records this one after that has been raised. -/
def State.stopCopy (s : State) (core cid : Nat) : State :=
  match (s.core core).copies.find? fun x => x.cid == cid with
  | none => s
  | some x => match s.group? x.gid with
    | none => s
    | some g =>
      if x.parked then s
      else if (g.bar x.bar).fault.isNone then s.copyNote core x (x.fault cPage 1 x.src) none
      else
        let (seq, s1) := s.newId
        s1.updCore core fun y => { y with copies := y.copies.map fun z => if z.cid == cid then { z with parked := true, late := some seq } else z }

/-- A code load is stopped: its slot is EMPTY, and keeps its source for the overlay record of the group that loaded it (R419). -/
def State.stopLoad (s : State) (core k : Nat) : State :=
  let x := (s.core core).slot k
  let s1 := { s with inflight := s.inflight.filter fun a => x.acc != some a.id }
  s1.updSlot core k fun y => { y with st := .empty, acc := none, fault := none, rid := none, err := false, stopped := true, queued := false }

/-- Something of a draining group has not ended 65,536 clk after the request (R419). -/
def State.drainLate (s : State) (g : Group) : Bool :=
  let ids := (s.wavesOf g.gid).map (·.wid)
  s.drainOver g &&
    (((s.core g.core).easel.any fun o => o.gid == g.gid && !o.mma) ||
      ((s.core g.core).copies.any fun x => x.gid == g.gid && !x.parked) || !(s.loadsOf g.core ids).isEmpty)

/-- PREEMPT_DRAIN_TIMEOUT (R419). -/
def execPreemptDrainTimeout (gid : Nat) (s : State) : Host.Outcome State Fault Refusal :=
  match s.group? gid with
  | none => .next s
  | some g =>
    if !s.drainLate g then .next s
    else
      let ids := (s.wavesOf gid).map (·.wid)
      let s1 := s.dropPrimes g 128
      let s2 := ((s1.core g.core).copies.filter fun x => x.gid == gid).foldl (fun t x => t.stopCopy g.core x.cid) s1
      .next ((s2.loadsOf g.core ids).foldl (fun t k => t.stopLoad g.core k) s2)

/-! ## Writing the image (R420 to R422, R424, R498) -/

/-- Words as bytes. -/
def le32 (ws : List Word) : List Byte := ws.flatMap fun w => toBytes 4 w.toNat
def le64 (ws : List DWord) : List Byte := ws.flatMap fun w => toBytes 8 w.toNat

/-- The physical address of a storage key. -/
def physOfKey (s : State) (k : Nat) : Nat := if k < 2 ^ 58 then s.nodeid.toNat * 2 ^ 45 + k else k - 2 ^ 58

/-- The group header (R421). -/
def State.headerWords (s : State) (g : Group) (l : Launch) : List DWord :=
  let filled := g.tiles.any fun t => (s.core g.core).tile t == .pend true
  [place 64 g.ctx 48 ||| place 64 1 40 ||| place 64 (min 32 g.waves) 34, 0, place 64 (s.core g.core).phys 56 ||| bitIf 64 filled 55] ++
    (List.range 16).map l.word ++ [pair64 g.group g.cohort] ++ List.replicate 12 0

/-- A named barrier. -/
def State.barWords (s : State) (g : Group) (b : Barrier) : List Word :=
  let f : Word := match b.fault with
    | some (d, cid) =>
      let wid := (((s.core g.core).copies.find? fun x => x.cid == cid).map fun (x : Copy) => x.wid).getD 0
      let idx := ((s.wave? wid).map fun (w : Wave) => w.idx).getD 0
      d.trap.code.setWidth 32 ||| place 32 idx 8
    | none => 0
  [b.phase, BitVec.ofNat 32 b.arrivals, BitVec.ofInt 32 b.cnt, f]

/-- A prime record. -/
def primeWords (p : Option PrimeRec) : List DWord :=
  match p with
  | some p => [BitVec.ofNat 64 (p.addr.toNat % 2 ^ 57),
      BitVec.ofNat 64 p.nc ||| place 64 p.nk 8 ||| place 64 p.fd 12 ||| place 64 p.batch.toNat 16 ||| place 64 p.opix 32 ||| place 64 p.wave 38 ||| bitIf 64 true 63]
  | none => [0, 0]

/-- The overlay record of a segment slot (R424); `ids` are the group's waves, whose stopped loads a restore starts again (R419). -/
def overlayWord (g : Group) (ids : List Nat) (x : Slot) : DWord :=
  match x.src with
  | some a =>
    if x.owner == some g.kslot && !x.resident then
      BitVec.ofNat 64 (a % 2 ^ 57 / 4096 * 4096) ||| bitIf 64 (x.st == .landed || x.st == .loading || (x.stopped && ids.contains x.wid)) 0
    else 0
  | none => 0

/-- The TCAUSE image of a trap. -/
def TrapRec.cause (t : TrapRec) : Word := 0#15 ++ BitVec.ofBool t.defer ++ t.sub ++ t.code

/-- A recorded deferred fault: the trap's own words, or those of the copy that met it. -/
def DFault.words (d : DFault) (x : Option Copy) : List DWord :=
  let flags := bitIf 64 true 0 ||| bitIf 64 d.retry 1 ||| (d.src.setWidth 64) <<< 2
  match x with
  | some x => [pair64 d.trap.cause (BitVec.ofNat 32 x.bar), BitVec.ofNat 64 x.src, pair64 (BitVec.ofNat 32 x.off) (BitVec.ofNat 32 x.left), flags]
  | none => [pair64 d.trap.cause d.trap.info, d.trap.addr, d.trap.mask, flags]

/-- The deferred faults of a wave, of its Easel ops, of its copies, of its code loads, in recording order (R498). -/
def State.faultsOf (s : State) (g : Group) (w : Wave) : List (List DWord) :=
  let c := s.core g.core
  let ops := w.batch.faults.map fun d => (d.seq, d.words none)
  let cps := g.bars.filterMap fun b => b.fault.bind fun f =>
    (c.copies.find? fun x => x.cid == f.2 && x.wid == w.wid).map fun x => (f.1.seq, DFault.words f.1 (some x))
  let late := (c.copies.filter fun x => x.gid == g.gid && x.wid == w.wid).filterMap fun x => x.late.map fun n =>
    (n, DFault.words { trap := x.fault cPage 1 x.src, src := 1 } (some x))
  let lds := c.slots.filterMap fun x => if x.wid == w.wid && x.owner == some g.kslot && x.st == .failed then
      x.fault.map fun t => (x.seq, DFault.words { trap := t, src := 3 } none)
    else none
  ((sortBy (fun a b => decide (a.1 ≤ b.1)) (ops ++ cps ++ late ++ lds)).map (·.2)).take 8

/-- A wait's remaining clk. -/
def Park.rem : Park → Nat
  | .sleep n => n
  | .monw _ (some n) _ => n
  | _ => 0

/-- The state of the running part of an entry: 384 bytes. -/
def Wave.partWords (w : Wave) (e : Nat) : List Word :=
  let b := w.bankOf e
  let a := w.auxAt e
  let sreg := if w.handler.run && field w.handler.treg.tent 0 4 == e then w.handler.ts else b.sreg
  let t := fun (f : TrapRec → Word) => match a.trap with | some t => f t | none => 0
  sreg.getList 0 64 ++
    [(w.ent e).pc.setWidth 32 ||| bitIf 32 b.phase 17, a.look, b.qtc, b.sca, b.scb, BitVec.ofNat 32 a.park.rem,
     BitVec.ofNat 32 b.rdepth ||| bitIf 32 b.rmis 8] ++
    ((List.range 8).map fun j => ((b.rgn.reverse[j]?).getD 0).setWidth 32) ++ [0] ++
    [t TrapRec.cause, t (·.info), t fun t => lo32 t.addr, t fun t => hi32 t.addr, t fun t => lo32 t.mask, t fun t => hi32 t.mask,
     bitIf 32 a.trap.isSome 0] ++ List.replicate 9 0

/-- The region of the handler part: 512 bytes. -/
def Handler.words (h : Handler) : List Word :=
  let t := h.treg
  [bitIf 32 h.run 0, h.pc.setWidth 32, 0, 0, t.tcause, 0, t.tpc, 0, t.tent, 0, t.tinfo, 0, lo32 t.taddr, hi32 t.taddr, 0, 0,
    lo32 t.tmask, hi32 t.tmask, 0, 0, t.tctx, 0, t.tlook, 0] ++ List.replicate 40 0 ++ h.bank.sreg.getList 0 64

/-- The cohort barrier at which a wave waits: its index in the launch, the phase. -/
def Wave.cbarAt (w : Wave) (l : Launch) : Option (Nat × Nat) :=
  (entIdx.filter w.parkedAt).findSome? fun e => match (w.auxAt e).park with | .cbar m p => some (l.cbars.idxOf m, p) | _ => none

/-- The wave record (R422, R498), as pieces at offsets in it; m0 is the running entry's lane mask in the lanes of each part (R23). -/
def State.waveRecord (s : State) (g : Group) (l : Launch) (w : Wave) : List (Nat × List Byte) :=
  let cb := w.cbarAt l
  let head : List Word :=
    [BitVec.ofNat 32 w.width ||| place 32 w.qbase 8 ||| place 32 w.slot 16 ||| place 32 w.part 24, w.fuseto, w.splpol,
     w.batch.bseq.setWidth 32 ||| place 32 w.batch.nopen 16 ||| place 32 w.batch.closed.length 24,
     (match cb with | some (i, _) => BitVec.ofNat 32 i ||| bitIf 32 true 31 | none => 0),
     (match cb with | some (_, p) => BitVec.ofNat 32 p | none => 0)] ++ List.replicate 10 0
  let masks := (w.parts.map fun e => (w.ent e).lmask).foldl (· ||| ·) 0 :: (List.range 15).map fun k => w.mask.get (k + 1)
  let mons : List DWord := w.mons.flatMap fun m =>
    [bitIf 64 m.armed 0 ||| (if m.armed then BitVec.ofNat 64 (physOfKey s m.line) else 0), bitIf 64 m.trig 0 ||| bitIf 64 m.fbk 1]
  let split := entIdx.flatMap fun e => (List.range 4).map fun k => (w.ent e).word k
  let fs := (s.faultsOf g w).flatten
  [(0, le32 head), (0x40, le64 masks), (0xc0, le64 mons), (0x100, le64 split), (0x300, le64 (fs ++ List.replicate (32 - fs.length) 0)),
   (0x400, le32 w.handler.words)] ++ w.parts.map fun e => (0x800 + 384 * e, le32 (w.partWords e))

/-- The vector registers of a wave below its budget. -/
def Wave.vectorPieces (w : Wave) : List (Nat × List Byte) :=
  (List.range w.budget).map fun r => (0x42000 + 32768 * w.idx + 256 * r, le32 ((List.range w.width).map fun l => w.vreg.get (64 * r + l)))

/-- The work lists whose indices the image holds: the group's, or its cohort's in the image of its lowest GROUP. -/
def State.savedLists (s : State) (g : Group) : List WorkList :=
  s.lists.filter fun x => if x.cohort then x.scope == g.lid && g.group == 0 else x.scope == g.gid

/-- A save image as pieces: offset, bytes (R420). -/
def State.imagePieces (s : State) (g : Group) (l : Launch) : List (Nat × List Byte) :=
  let c := s.core g.core
  let ids := (s.wavesOf g.gid).map fun (w : Wave) => w.wid
  [(0, le64 (s.headerWords g l))] ++
    g.bars.mapIdx (fun k b => (0x100 + 16 * k, le32 (s.barWords g b))) ++
    (s.savedLists g).map (fun x => (0x300 + 8 * x.idx, le32 [x.head, x.tail])) ++
    g.cans.mapIdx (fun n k => (0xb00 + 16 * n, le64 (primeWords (c.can k).prime))) ++
    (List.range 16).map (fun i => (0x1000 + 64 * i, le64 ((List.range 8).map (wordAt (s.fdWords g.ctx i))))) ++
    c.slots.mapIdx (fun k x => (0x1400 + 8 * k, le64 [overlayWord g ids x])) ++
    (s.wavesOf g.gid).flatMap (fun w => if w.living = 0 then [] else
      (s.waveRecord g l w).map (fun p => (0x2000 + 8192 * w.idx + p.1, p.2)) ++ w.vectorPieces) ++
    [(0x142000, s.mem.getList (palKey g.core g.pbase) g.psize)]

/-- The indices of a cohort's work lists go into the image of its lowest GROUP also when another group of it is saved later (R420). -/
def State.writeCohort (s : State) (g : Group) : State :=
  match if g.group == 0 then none else s.groups.find? fun x => x.lid == g.lid && x.group == 0 && x.state == .saved with
  | none => s
  | some z => (s.savedLists z).foldl (fun t x =>
      if x.cohort then t.devTry z.ctx (s.imageVa z.ctx z.image + 0x300 + 8 * x.idx) (le32 [x.head, x.tail]) else t) s

/-- The image is written; an address that cannot be written stops it (R418). -/
def State.writeImage (s : State) (g : Group) (l : Launch) : Except (XFault × Nat) State := do
  let t ← (s.imagePieces g l).foldlM (fun t p => t.devWrite g.ctx (s.imageVa g.ctx g.image + p.1) p.2) s
  return t.writeCohort g

/-- Step 6 of R418: tiles are HELD, everything else is given back. -/
def State.release (s : State) (g : Group) : State :=
  let ws := s.wavesOf g.gid
  let held := fun (c : Core) => (g.tiles.mapIdx fun k t => (t, k)).foldl (fun c x =>
    c.setTile x.1 (if c.tile x.1 == .live then .held g.ctx g.image x.2 else .free)) c
  let mine := (s.core g.core).copies.filter fun x => x.gid == g.gid
  let s1 := s.updCore g.core fun c => { held c with
    copies := c.copies.filter fun x => x.gid != g.gid
    cans := c.cans.filter fun x => !g.cans.contains x.1 }
  { s1 with waves := s1.waves.filter fun w => w.gid != g.gid }.updGroup g.gid fun x =>
    { x with state := .saved, idle := (ws.filter Wave.idleNow).length, kept := ws, keptCopies := mine }

/-- SRAM rows of a core that have needed 16 corrections get their spare rows (R476). -/
def State.replaceRows (s : State) (core : Nat) : State :=
  { s with spares := { s.spares with sramDue := s.spares.sramDue.filter fun k => k / 2 ^ 24 != core } }

/-- PREEMPT_SAVE (R418 steps 5 to 7). -/
def execPreemptSave (gid : Nat) (s : State) : Host.Outcome State Fault Refusal :=
  match s.group? gid with
  | none => .next s
  | some g => match g.state, s.launch? g.lid with
    | .draining _, some l =>
      if !s.drained g then .next s
      else match s.writeImage g l with
        | .ok t => .next (((t.release g).replaceRows g.core).quietCheck gid).preDone
        | .error (f, _) => .next (s.imageFail g.ctx g.image f true).preDone
    | _, _ => .next s

/-! ## Reading the image (R423) -/

/-- Why an image cannot be used: a page, or what it holds. -/
inductive Unfit
  | page (f : XFault)
  | invalid
  deriving DecidableEq, Repr

/-- A word of a list of 64-bit words, by byte offset; its halves. -/
def at64 (ws : List DWord) (off : Nat) : DWord := (ws[off / 8]?).getD 0
def at32 (ws : List DWord) (off : Nat) : Word := if off % 8 = 0 then lo32 (at64 ws off) else hi32 (at64 ws off)

/-- `n` 64-bit words of an image. -/
def State.imageWords (s : State) (g : Group) (off n : Nat) : Except Unfit (List DWord) :=
  match s.devWords g.ctx (s.imageVa g.ctx g.image + off) n with
  | .ok ws => .ok ws
  | .error (f, _) => .error (.page f)

/-- Refuses an image that breaks a condition. -/
def demand (p : Bool) : Except Unfit Unit := if p then .ok () else .error .invalid

/-- No bit outside `allowed`. -/
def within (x allowed : DWord) : Bool := (x &&& ~~~allowed) == 0

/-- The header (R421). -/
def headerOk (g : Group) (ws : List DWord) : Bool :=
  let w := fun (k : Nat) => (ws[k]?).getD 0
  field (w 0) 48 16 == g.ctx && field (w 0) 40 8 == 1 && field (w 0) 34 6 == g.waves && field (w 0) 0 34 == 0 && w 1 == 0 && field (w 2) 0 55 == 0 &&
    (List.range 12).all fun k => w (20 + k) == 0

/-- What R498 allows at byte `off` of a wave record. -/
def recordAllowed (off : Nat) : DWord :=
  if off = 0 then 0xffffffff070f0f7f
  else if off = 8 then 0x1f7fffffffffffff
  else if off = 0x10 then 0xffffffff8000000f
  else if off < 0x40 then 0
  else if off < 0xc0 then 0xffffffffffffffff
  else if off < 0x100 then (if off % 16 = 0 then 0x00ffffffffffff81 else 3)
  else if off < 0x300 then 0xffffffffffffffff
  else if off < 0x400 then (if off % 32 = 24 then 0xf else 0xffffffffffffffff)
  else if off = 0x400 then 0x0001ffff00000001
  else if off < 0x410 then 0
  else if off < 0x460 then (if off = 0x430 ∨ off = 0x440 then 0xffffffffffffffff else if off = 0x438 ∨ off = 0x448 then 0 else 0x00000000ffffffff)
  else if off < 0x500 then 0
  else 0xffffffffffffffff

/-- What R498 allows at byte `off` of a part's state. -/
def partAllowed (off : Nat) : DWord :=
  if off < 0x100 then 0xffffffffffffffff
  else if off = 0x100 then 0x0000001f0003ffff
  else if off < 0x118 then 0xffffffffffffffff
  else if off = 0x118 then 0x00003fff000001ff
  else if off < 0x138 then 0x00003fff00003fff
  else if off = 0x138 then 0x0000000000003fff
  else if off < 0x158 then 0xffffffffffffffff
  else if off = 0x158 then 1
  else 0

/-- The split table of a wave record. -/
def tableOf (ws : List DWord) : List SplitEntry :=
  entIdx.map fun e => (List.range 4).foldl (fun (x : SplitEntry) k => x.setWord k (at64 ws (0x100 + 32 * e + 8 * k))) {}

/-- A wave record holds no reserved value, and its split table is well-formed for the wave. -/
def recordOk (w : Wave) (ws : List DWord) : Bool :=
  let tbl := tableOf ws
  let v := { w with split := tbl }
  ((List.range 192).all fun k => within ((ws[k]?).getD 0) (recordAllowed (8 * k))) &&
    (entIdx.all fun e => (List.range 4).all fun k => ((tbl[e]?).getD {}).word k == at64 ws (0x100 + 32 * e + 8 * k)) && v.tableWf &&
    field (at64 ws 0) 0 7 == w.width &&
    v.parts.all fun e => (List.range 48).all fun k => within (at64 ws (0x800 + 384 * e + 8 * k)) (partAllowed (8 * k))

/-- A trap as an image holds it; what the image does not hold is the kept trap's. -/
def trapOf (old : Option TrapRec) (pc : CodeAddr) (cause info : Word) (addr mask : DWord) : TrapRec :=
  { (old.getD { code := 0, tpc := pc }) with
    code := bits cause 0 8, sub := bits cause 8 8, defer := bitAt cause 16, info, addr, mask, now := false }

/-- The bank of a running part. -/
def bankOfImage (ws : List DWord) (e : Nat) (old : QBank) : QBank :=
  let o := 0x800 + 384 * e
  let w := fun (k : Nat) => at32 ws (o + k)
  let depth := field (w 0x118) 0 8
  { old with sreg := Store.setList [] 0 ((List.range 64).map fun n => w (4 * n)), phase := bitAt (w 0x100) 17, qtc := qtcOf (w 0x108), sca := w 0x10c, scb := w 0x110,
             rdepth := depth, rmis := bitAt (w 0x118) 8, rgn := ((List.range (min depth 8)).map fun j => bits (w (0x11c + 4 * j)) 0 14).reverse }

/-- A wait with the remaining clk of the image. -/
def Park.withRem : Park → Nat → Park
  | .sleep _, n => .sleep n
  | .monw a (some _) g, n => .monw a (some n) g
  | p, _ => p

/-- What the device holds beside the running part of an entry. -/
def auxOfImage (ws : List DWord) (e : Nat) (pc : CodeAddr) (a : Aux) : Aux :=
  let o := 0x800 + 384 * e
  let trap := if bitAt (at32 ws (o + 0x158)) 0 then
      some (trapOf a.trap pc (at32 ws (o + 0x140)) (at32 ws (o + 0x144)) (at64 ws (o + 0x148)) (at64 ws (o + 0x150)))
    else none
  { a with park := a.park.withRem (at32 ws (o + 0x114)).toNat, trap, look := at32 ws (o + 0x104), readyAt := 0, stall := 0 }

/-- The handler part. -/
def handlerOfImage (ws : List DWord) (h : Handler) : Handler :=
  let e := field (at32 ws 0x420) 0 4
  let ts := if ((tableOf ws)[e]?).any SplitEntry.isPart then Store.setList [] 0 ((List.range 64).map fun n => at32 ws (0x800 + 384 * e + 4 * n)) else h.ts
  let t := fun (n : Nat) => at32 ws (0x410 + 4 * n)
  { h with run := bitAt (at32 ws 0x400) 0, pc := bits (at32 ws 0x404) 0 17,
           treg := { tcause := t 0, tpc := t 2 &&& 0x1ffff, tent := t 4 &&& 0xf, tinfo := t 6, taddr := at64 ws 0x430, tmask := at64 ws 0x440, tctx := t 16, tlook := t 18 },
           bank := { h.bank with sreg := Store.setList [] 0 ((List.range 64).map fun n => at32 ws (0x500 + 4 * n)) }, ts,
           aux := { h.aux with readyAt := 0, stall := 0 } }

/-- A recorded deferred fault as an image holds it (R498). -/
structure FaultEntry where
  src : Nat
  retry : Bool
  cause : Word
  info : Word
  addr : DWord
  mask : DWord
  deriving DecidableEq, Repr

/-- The valid entries of a wave record, in recording order. -/
def faultEntries (ws : List DWord) : List FaultEntry :=
  (List.range 8).filterMap fun i =>
    let o := 0x300 + 32 * i
    let flags := at64 ws (o + 24)
    if bitAt flags 0 then
      some { src := field flags 2 2, retry := bitAt flags 1, cause := at32 ws o, info := at32 ws (o + 4), addr := at64 ws (o + 8), mask := at64 ws (o + 16) }
    else none

/-- The recorded Easel faults with the words of the image; those beyond its eight entries are the device's own. -/
def faultsOfImage (es : List FaultEntry) (fs : List DFault) : List DFault :=
  let mine := es.filter fun e => e.src == 0 || e.src == 2
  ((mine.zip fs).map fun x => { x.2 with trap := trapOf (some x.2.trap) 0 x.1.cause x.1.info x.1.addr x.1.mask, src := BitVec.ofNat 2 x.1.src, retry := x.1.retry }) ++
    (if es.length = 8 then fs.drop mine.length else [])

/-- A copy stopped on a recorded fault, with the state that its entry holds: of the copies of its wave on its barrier, `mine`, the one whose fault
the barrier has recorded has the first entry, and those whose faults wait have the next. -/
def copyOfImage (bars : List Barrier) (es : List FaultEntry) (mine : List Copy) (x : Copy) : Copy :=
  let now := fun (y : Copy) => ((bars[x.bar]?).bind (·.fault)).any fun f => f.2 == y.cid
  let order := mine.filter now ++ mine.filter fun y => y.late.isSome && !now y
  match (es.filter fun e => e.src == 1 && field e.info 0 5 == x.bar)[(order.map (·.cid)).idxOf x.cid]? with
  | some e => { x with src := e.addr.toNat, off := (lo32 e.mask).toNat, left := (hi32 e.mask).toNat }
  | none => x

/-- A monitor slot with its line and TRIG; `State.rearm` finds out what it watches (R239). -/
def monOfImage (s : State) (ws : List DWord) (n : Nat) (m : Mon) : Mon :=
  let a := at64 ws (0xc0 + 16 * n)
  let b := at64 ws (0xc8 + 16 * n)
  { m with armed := bitAt a 0, line := if bitAt a 0 then physKey s (field a 7 49 * 128) else 0, trig := bitAt b 0, fbk := bitAt a 0 }

/-- The vector registers of a wave below its budget. -/
def State.vectorsOfImage (s : State) (g : Group) (w : Wave) : Except Unfit (Store 32) :=
  (List.range w.budget).foldlM (fun (st : Store 32) r => do
    let ws ← s.imageWords g (0x42000 + 32768 * w.idx + 256 * r) (w.width / 2)
    return st.setList (64 * r) (ws.flatMap fun x => [lo32 x, hi32 x])) []

/-- A wave as its record gives it, at its new place `o` on a core; RST is due (R238). -/
def waveOfImage (s : State) (w : Wave) (core : Nat) (o : Occ) (ws : List DWord) (vreg : Store 32) : Wave :=
  let split := tableOf ws
  let v0 : Wave := { w with
    core, part := o.part, slot := o.slot, qbase := o.qbase, split, vreg
    mask := Store.setList [] 1 ((List.range 15).map fun k => at64 ws (0x48 + 8 * k))
    fuseto := at32 ws 4, splpol := at32 ws 8
    batch := { w.batch with bseq := bits (at32 ws 12) 0 16, nopen := field (at32 ws 12) 16 7, faults := faultsOfImage (faultEntries ws) w.batch.faults }
    mons := w.mons.mapIdx fun n m => monOfImage s ws n m
    rst := true }
  let v1 := v0.parts.foldl (fun (v : Wave) e =>
    let x := v.ent e
    { v with banks := mapQuads x.qmask (bankOfImage ws e) 0 v.banks,
             aux := modifyAt e (auxOfImage ws e (bits (at32 ws (0x900 + 384 * e)) 0 17)) v.aux,
             split := modifyAt e (fun y => { y with pc := bits (at32 ws (0x900 + 384 * e)) 0 17 }) v.split }) v0
  Wave.latch { v1 with handler := handlerOfImage ws w.handler } s.time

/-- A named barrier as the image gives it. -/
def barOfImage (b : Barrier) (x y : DWord) : Barrier :=
  let fc := field y 32 8
  { phase := lo32 x, arrivals := field x 32 6, cnt := (lo32 y).toInt,
    fault := if fc = 0 then none else b.fault.map fun f => ({ f.1 with trap := { f.1.trap with code := BitVec.ofNat 8 fc } }, f.2) }

/-- The image's named barriers are valid. -/
def barOk (x y : DWord) : Bool :=
  within x 0x0000003fffffffff && decide (field x 32 6 ≤ 32) && within y 0x00001fffffffffff && (field y 32 8 == 0 || field y 32 8 == cPage || field y 32 8 == cPerm)

/-- What a restore reads: barriers, lists, prime records, descriptors, overlay records, waves with their records, palette. -/
structure Image where
  acssp : Bool
  bars : List Barrier
  lists : List (Nat × Word × Word)
  primes : List (DWord × DWord)
  fds : List (List DWord)
  ovl : List DWord
  waves : List Wave
  pal : List Byte
  copies : List Copy
  /-- Faults of code loads: wave, entry. -/
  loads : List (Nat × FaultEntry)
  deriving DecidableEq, Repr

/-- The image of a group, checked and read for a seat (R423). -/
def State.readImage (s : State) (g : Group) (seat : Seat) : Except Unfit Image := do
  let hd ← s.imageWords g 0 32
  demand (headerOk g hd)
  let bs ← s.imageWords g 0x100 (2 * g.bars.length)
  let pair := fun (xs : List DWord) (k : Nat) => ((xs[2 * k]?).getD 0, (xs[2 * k + 1]?).getD 0)
  demand ((List.range g.bars.length).all fun k => barOk (pair bs k).1 (pair bs k).2)
  let ls ← (s.savedLists g).mapM fun x => do
    let w ← s.imageWords g (0x300 + 8 * x.idx) 1
    return (x.idx, lo32 (at64 w 0), hi32 (at64 w 0))
  let ps ← s.imageWords g 0xb00 (2 * g.cans.length)
  demand ((List.range g.cans.length).all fun k => within (pair ps k).1 0x01ffffffffffffff && within (pair ps k).2 0x800007ffffffff7f)
  let fd ← s.imageWords g 0x1000 128
  let ov ← s.imageWords g 0x1400 128
  demand (ov.all fun w => within w 0x01fffffffffff001)
  let recs ← g.kept.mapM fun (w : Wave) => do
    if w.living = 0 then return (w, ([] : List DWord), ([] : Store 32))
    let ws ← s.imageWords g (0x2000 + 8192 * w.idx) 1024
    demand (recordOk w ws)
    let v ← s.vectorsOfImage g w
    return (w, ws, v)
  let living := g.kept.filter fun (w : Wave) => w.living != 0
  let waves := recs.map fun (x : Wave × List DWord × Store 32) =>
    if x.1.living = 0 then { x.1 with core := seat.core }
    else waveOfImage s x.1 seat.core ((seat.waves[living.findIdx fun (w : Wave) => w.wid == x.1.wid]?).getD ⟨0, 0, 0, 0, 0⟩) x.2.1 x.2.2
  let pal ← s.imageWords g 0x142000 (g.psize / 8)
  let es := recs.flatMap fun (x : Wave × List DWord × Store 32) => (faultEntries x.2.1).map fun e => (x.1.wid, e)
  let bars := g.bars.mapIdx fun k b => barOfImage b (pair bs k).1 (pair bs k).2
  return { acssp := bitAt (at64 hd 16) 55, bars, lists := ls, loads := es.filter fun (e : Nat × FaultEntry) => e.2.src == 3
           copies := g.keptCopies.map fun x => copyOfImage bars ((es.filter fun (e : Nat × FaultEntry) => e.1 == x.wid).map (·.2)) (g.keptCopies.filter fun y => y.wid == x.wid && y.bar == x.bar) x
           primes := (List.range g.cans.length).map (pair ps), fds := (List.range 16).map fun i => (fd.drop (8 * i)).take 8, ovl := ov, waves, pal := le64 pal }

/-! ## Restore (R423 to R426) -/

/-- The tiles that a restore finds HELD on its core. -/
def State.heldOf (s : State) (g : Group) : List (Nat × Nat) := (s.core g.core).heldTiles g.ctx g.image

/-- The core to which the tile of a pixel group holds it: other pixel groups of the tile are on it now (R352). -/
def State.tileHome (s : State) (g : Group) (l : Launch) : Option Nat :=
  if g.kind == .pixel && s.groups.any fun x => x.kind == .pixel && x.lid == g.lid && x.index == g.index && x.gid != g.gid && x.state != .saved then
    (l.draw.bind fun d => (d.home.find? fun x => x.1 == g.index).map (·.2)).filter fun c => !s.spares.offline.contains c
  else none

/-- The place of a saved group: its own core when it has tiles or a fixed palette, any other core with room otherwise, or when that
core went offline (R482). -/
def State.restoreSeat (s : State) (g : Group) (l : Launch) : Option Seat :=
  let n := needOf (l.word 1)
  let ws := (g.kept.filter fun (w : Wave) => w.living != 0).map fun (w : Wave) => (w.idx, w.budget)
  let cores := if (n.acs != 0 || n.fixed.isSome) && !s.spares.offline.contains g.core then [g.core]
    else match s.tileHome g l with | some c => [c] | none => coreIdx
  s.bestSeat g.ctx g.group.toNat (if (s.heldOf g).isEmpty then n.acs else 0) l.kernel n ws cores

/-- Step 5 of R423 (R426): the tiles, the HELD ones taken back, loaded from the image or left to a transfer. -/
def State.attachTiles (s : State) (g : Group) (acs : Nat) (seat : Seat) (acssp : Bool) : Except (XFault × Nat) (List Nat × State) :=
  let held := s.heldOf g
  if acs = 0 then .ok ([], s)
  else if !held.isEmpty then
    let ts := (sortBy (fun (a b : Nat × Nat) => decide (a.2 ≤ b.2)) held).map fun (x : Nat × Nat) => x.1
    .ok (ts, s.updCore seat.core fun c => ts.foldl (fun c t => c.setTile t .live) c)
  else
    let (ts, s1) := s.takeTiles seat.core g.ctx acs seat.spills
    let ks := ts.mapIdx fun k t => (t, k)
    let live := field (s1.core seat.core).acsown 0 16 == g.ctx
    if live && acssp then
      (do let t ← s1.loadTiles seat.core g.ctx g.image ks
          let t ← t.setAcssp g.ctx g.image false
          return (ts, t))
    else if live then .ok (ts, s1.updCore seat.core fun c => ts.foldl (fun c t => (c.putTile t []).setTile t .live) c)
    else .ok (ts, s1.updCore seat.core fun c => ts.foldl (fun c t => c.setTile t (.pend acssp)) c)

/-- The re-priming of a canvas (R423 step 3). -/
def reprime (g : Group) (waves : List Wave) (oid n : Nat) (p : DWord × DWord) : Option EOp :=
  if bitAt p.2 63 then
    let idx := field p.2 38 5
    let wid := ((waves.find? fun (w : Wave) => w.idx == idx).map fun (w : Wave) => w.wid).getD 0
    some { oid, wid, gid := g.gid, mma := false, can := n, addr := p.1, par := [BitVec.ofNat 32 (field p.2 0 7), BitVec.ofNat 32 (field p.2 8 4), 0, 0],
           batch := bits p.2 16 16, opix := field p.2 32 6, again := true }
  else none

/-- Overlay slots that a restore loads: valid, not resident, and not LANDED from the same source (R424). -/
def State.overlaysDue (s : State) (core : Nat) (ovl : List DWord) : List (Nat × Nat) :=
  ((ovl.mapIdx fun k w => (k, w)).filter fun (x : Nat × DWord) =>
    let y := (s.core core).slot x.1
    bitAt x.2 0 && !y.resident && !(y.st == .landed && y.src == some (field x.2 12 45 * 4096))).map fun x => (x.1, field x.2 12 45 * 4096)

/-- A wave that waited at a CBAR whose phase has completed meanwhile goes on, with the phase's acquire (R425). -/
def State.cbarRestore (s : State) (w : Wave) : State :=
  (entIdx.filter w.parkedAt).foldl (fun t e => match (w.auxAt e).park with
    | .cbar m p =>
      if ((t.cbars[m]?).map fun (b : CBarrier) => b.phase.toNat) == some p then t
      else (t.acquire w.wid false w.allQuads 2).letGo w.wid e
    | _ => t) s

/-- The armed slots of a restored wave are armed again: each takes an exact watch if one is free (R238, R239). -/
def State.rearm (s : State) (w : Wave) : State :=
  (List.range w.mons.length).foldl (fun t n => match w.mons[n]? with
    | some m => if m.armed then
        State.updWave { t with fresh := t.fresh + 1 } w.wid fun v => { v with mons := modifyAt n (fun x => { x with fbk := t.mustWatchPage m.line }) v.mons }
      else t
    | none => t) s

/-- The pending retries of a wave are enqueued, with the ops discarded behind them (R481). -/
def State.retryOps (s : State) (wid : Nat) : State :=
  match s.wave? wid with
  | none => s
  | some w =>
    if w.batch.faults.any (·.retry) then
      let b := { w.batch with faults := w.batch.faults.filter fun f => !f.retry, replay := true }
      (s.updBatch wid fun _ => b).replayOps { w with batch := b }
    else s

/-- The recorded fault of a code load, in the slot whose overlay record names its source, unless that holds something else now: the group's next
CWAIT on it raises it (R424). The host's answer that a restart waits for is the one of the core where the load failed. -/
def State.failLoad (s : State) (from' core ctx : Nat) (ovl : List DWord) (x : Nat × FaultEntry) : State :=
  let src := x.2.addr.toNat
  match (List.range 128).find? fun k => let w := (ovl[k]?).getD 0; !bitAt w 0 && w != 0 && field w 12 45 == src / 4096 with
  | none => s
  | some k =>
    let y := (s.core core).slot k
    let old := (s.core from').slot k
    let same := old.st == .failed && old.src == some src
    if y.resident || y.st == .landed || y.st == .loading then s
    else
      let (seq, s1) := s.newId
      s1.updSlot core k fun y => { y with
        st := .failed, src := some src, ctx, wid := x.1, acc := none, seq, fault := some (trapOf none 0 x.2.cause x.2.info x.2.addr x.2.mask)
        rid := if same then old.rid else none, err := same && old.err }

/-- The work lists of a restored group with the indices of its image; those of its cohort are in the image of the lowest GROUP, and count unless
another group of the cohort has gone on using them (DEDUCED, log 41). -/
def State.listsOfImage (s : State) (g : Group) (im : List (Nat × Word × Word)) : List WorkList :=
  let alone := !(s.groups.any fun x => x.lid == g.lid && x.gid != g.gid && x.state != .saved)
  s.lists.map fun (x : WorkList) =>
    if if x.cohort then x.scope == g.lid && g.group == 0 && alone else x.scope == g.gid then
      match im.find? fun y => y.1 == x.idx with | some y => { x with head := y.2.1, tail := y.2.2 } | none => x
    else x

/-- The group at its seat with what its image holds; it issues nothing before `State.settled`. -/
def State.install (s : State) (g : Group) (l : Launch) (seat : Seat) (im : Image) : Except (XFault × Nat) State := do
  let (tiles, s1) ← s.attachTiles g (needOf (l.word 1)).acs seat im.acssp
  let g1 : Group := { g with core := seat.core, pbase := seat.pbase, cans := seat.cans, tiles, bars := im.bars, state := .restoring, kept := [], keptCopies := [] }
  let ops := (im.primes.mapIdx fun n p => (n, p)).filterMap fun x => reprime g1 im.waves (s1.nextId + x.1) x.1 x.2
  let s2 := s1.updGroup g.gid fun _ => g1
  let fds := (im.fds.mapIdx fun i ws => (g.ctx, i, ws)).filter fun (x : Nat × Nat × List DWord) => x.2.2.any (· != 0)
  let s3 : State := { s2 with waves := s2.waves ++ im.waves, nextId := s2.nextId + im.primes.length, lists := s2.listsOfImage g im.lists,
                              fds := s2.fds.filter (fun x => x.1 != g.ctx) ++ fds }
  let s4 := (s3.wr (palKey seat.core g1.pbase) im.pal).updCore seat.core fun c =>
    { c with easel := c.easel ++ ops, copies := c.copies ++ im.copies, cans := c.cans.filter fun x => !seat.cans.contains x.1,
             pred := if c.runs.any (· != s.ctxFunc g.ctx) then [] else c.pred, runs := some (s.ctxFunc g.ctx) }
  let s5 := (s4.overlaysDue seat.core im.ovl).foldl (fun t x => t.loadAgain seat.core x.1 g.ctx ((im.waves.head?.map fun (w : Wave) => w.wid).getD 0) 0xffff x.2) ((s4.dropCopies seat.core).dropCopies (64 + seat.core))
  let s6 := im.loads.foldl (fun t x => t.failLoad g.core seat.core g.ctx im.ovl x) s5
  let s6 := if g.kind == .pixel then s6.updLaunch l.lid fun x => { x with draw := x.draw.map fun d =>
      { d with home := (g.index, seat.core) :: d.home.filter fun y => y.1 != g.index } } else s6
  let s7 := im.waves.foldl (fun t w => (t.retryOps w.wid).rearm w) s6
  return im.waves.foldl State.cbarRestore s7

/-- An image that is not resumed: a record, and the group ends (R423). The record's cause is a free value where the image is invalid. -/
def State.restoreFail (s : State) (g : Group) (u : Unfit) : State :=
  match u with
  | .page f => s.imageFail g.ctx g.image f false
  | .invalid =>
    let code := Config.pick s.fresh g.gid % 256
    ({ s with fresh := s.fresh + 1 }.groupRecord g code (s.imageVa g.ctx g.image) false false).abortGroup g 0x04

/-- A restored group may issue: its canvases are primed again, and no overlay slot that its waves load is LOADING (R423, R424). -/
def State.settled (s : State) (g : Group) : Bool :=
  (s.loadsOf g.core ((s.wavesOf g.gid).map fun (w : Wave) => w.wid)).isEmpty && !((s.core g.core).easel.any fun o => o.again && o.gid == g.gid)

/-- RESTORE (R423): a saved group takes a place and its image's state; then, once its overlay slots have settled, it runs. -/
def execRestore (gid : Nat) (s : State) : Host.Outcome State Fault Refusal :=
  match s.group? gid with
  | none => .next s
  | some g => match g.state, s.launch? g.lid with
    | .saved, some l => match s.restoreSeat g l with
      | none => .next s
      | some seat => match s.readImage g seat with
        | .error u => .next (s.restoreFail g u)
        | .ok im => match (s.devSeen g.ctx (s.imageVa g.ctx g.image) 0x2000).install g l seat im with
          | .error (f, _) => .next (s.imageFail g.ctx g.image f false)
          | .ok t => .next t
    | .restoring, _ =>
      if s.settled g then
        let s0 := s.updGroup gid fun x => { x with state := .resident }
        let s1 := (List.range g.bars.length).foldl (fun t k => t.barFault gid k) s0
        .next (((s1.wavesOf gid).foldl (fun (t : State) (w : Wave) => (t.unstop w.wid).enterPending w.wid) (s1.barSweep gid)).quietCheck gid)
      else .next s
    | _, _ => .next s

end Sys2Proof.Machine
end

