-- ==== Sys2Proof/Machine/RegRead.lean ====
section
/-!
DEFINITION. What the registers of BAR 0, BAR 2 and BAR 4 read as (20 R437, R438; 21 R448, R455, R463; 22 R471; 24 R485 to R487, R494).
-/
namespace Sys2Proof.Machine

/-- The mailbox words (R471). -/
def State.mbRead (s : State) (off : Nat) : DWord :=
  let b := s.boot
  if off = 0x2000 then b.state ++ b.stage ++ b.fcode ++ b.fdetail
  else if off = 0x2008 then bitIf 64 b.busy 62 ||| place 64 b.len.toNat 16 ||| b.cmd.setWidth 64
  else if off = 0x2010 then place 64 b.rlen.toNat 16 ||| b.rst.setWidth 64
  else if 0x2100 ≤ off ∧ off < 0x3000 then BitVec.ofNat 64 (ofBytes (Store.getList b.buf (off - 0x2100) 8))
  else 0

/-- Registers of BAR 0 below the windows (R437); a virtual function reads 0 from the rows of the physical function. -/
def State.bar0Read (s : State) (func off : Nat) : DWord :=
  let f := s.func func
  let pf := fun (x : DWord) => if func = 0 then x else 0
  if off / 0x1000 = 2 then pf (s.mbRead off)
  else if s.boot.state == 0x80 then (if off = 0 then regId else 0)
  else if 0x10000 ≤ off ∧ off < 0x10800 then f.win.get ((off - 0x10000) / 8)
  else match off with
    | 0x00 => regId
    | 0x08 => s.nodeid.setWidth 64
    | 0x10 => pf s.qtbase
    | 0x18 => pf s.ctxbase
    | 0x20 => pf s.astbase
    | 0x40 => f.fbbase
    | 0x48 => f.fbctl.setWidth 64
    | 0x50 => f.fbtail.setWidth 64
    | 0x58 => f.fbhead.setWidth 64
    | 0x80 => f.invctl.setWidth 64
    | 0x88 => f.invva
    | 0x90 => f.invcnt.setWidth 64
    | 0xc0 => pf (s.prectl &&& 0x000007ff403fffff)
    | 0xc8 => f.klctx.setWidth 64
    | 0xd0 => f.kload
    | 0x100 => pf s.notice
    | _ => 0

/-- A counter bank (R485 to R488): through its own BAR 2, a virtual function's fabric and physical-function events read COUNT 0. -/
def State.bankRead (s : State) (func off : Nat) (own : Bool) : DWord :=
  let f := s.func func
  if off < 0x100 then
    let hidden := own && func != 0 && decide (0x20 ≤ field (f.cfg (off / 32)) 0 16)
    if off % 32 = 8 && hidden then 0 else if off % 32 = 24 then 0 else f.ctr.get (off / 8)
  else if off = 0x100 then f.ctr.get fstatIx
  else if off = 0x108 then (BitVec.ofInt 48 f.rem).signExtend 64
  else 0

/-- Energy and telemetry registers (R494). -/
def Energy.read (e : Energy) (off : Nat) : DWord :=
  match off with
  | 0x00 => e.wlen.setWidth 64
  | 0x08 => e.ewnum.setWidth 64
  | 0x10 => e.mbud.setWidth 64
  | 0x18 => e.mgrn.setWidth 64
  | 0x20 => e.wgrn.setWidth 64
  | 0x40 | 0x48 | 0x50 | 0x58 => ((e.ecnt[(off - 0x40) / 8]?).getD 0).setWidth 64
  | _ => 0

/-- A word of the MSI-X table: the mask bit, bit 32 of an entry's word 1, is kept inverted (log 50). -/
def Func.vecWord (f : Func) (i : Nat) : DWord := f.msix.get i ^^^ bitIf 64 (i % 2 == 1) 32

/-- BAR 2 (R485). -/
def State.bar2Read (s : State) (func off : Nat) : DWord :=
  if off < 0x8000 then (s.func func).vecWord (off / 8)
  else if off < 0x8100 then (s.func func).pba.get ((off - 0x8000) / 8)
  else if 0x10000 ≤ off ∧ off < 0x10200 then s.bankRead func (off - 0x10000) true
  else if func ≠ 0 then 0
  else if 0x12000 ≤ off ∧ off < 0x1a000 then s.bankRead ((off - 0x12000) / 0x200) ((off - 0x12000) % 0x200) false
  else if 0x1c000 ≤ off ∧ off < 0x1c060 then s.energy.read (off - 0x1c000)
  else 0

/-- The debug block of a core (R448): the bits that writes store are those that it keeps. -/
def Core.dbgRead (c : Core) (off : Nat) : DWord := if off = 0 then bitIf 64 c.dbg.halted 31 else c.dreg off

/-- A 64-bit register of a BAR of a function. -/
def State.regRead (s : State) (bar func off : Nat) : DWord :=
  if s.inStage 1 || (func != 0 && !s.boot.vfEnable) || decide (64 ≤ func) then 0
  else match bar with
    | 0 => s.bar0Read func off
    | 2 => if s.boot.state == 0x80 then 0 else s.bar2Read func off
    | 4 => if s.boot.state == 0x80 || func != 0 || decide (0x40000 ≤ off) then 0 else (s.core (off / 0x1000)).dbgRead (off % 0x1000)
    | _ => 0

/-- Bytes of registers. -/
def State.regBytes (s : State) (bar func off n : Nat) : List Byte :=
  (List.range n).map fun i => bits (s.regRead bar func ((off + i) / 8 * 8)) (8 * ((off + i) % 8)) 8

end Sys2Proof.Machine
end

