-- ==== Sys2Proof/Machine/Host.lean ====
section
/-!
DEFINITION. The host interface and the span fabric (20 R433 to R447; 11 R319; 07 R216; 12 R345): window accesses, AtomicOps, invalidation,
resolution of fault records, Function Level Reset, requests of other modules.
-/
namespace Sys2Proof.Machine

/-! ## Windows (R438, R439) -/

/-- Why a byte of a window cannot be reached: what its record says. -/
structure WinFault where
  ctx : Nat
  code : Nat
  sub : Nat := 0
  va : Nat
  deriving DecidableEq, Repr

/-- The byte of storage at BAR 0 offset `off` of a function; `none` where no window lies. -/
def State.winKey (s : State) (func off : Nat) (need : Need) : Option (Except WinFault Spot) :=
  let w := (off - 2 ^ 30) / 2 ^ 22
  if off < 2 ^ 30 || 256 ≤ w then none
  else
    let r := (s.func func).win.get w
    let va := field r 0 35 * 2 ^ 22 + off % 2 ^ 22
    let ctx := field r 46 16
    let bad := fun (code sub : Nat) => some (Except.error { ctx, code, sub, va : WinFault })
    if !bitAt r 63 then bad cPerm 0
    else if bitAt r 62 then (if va < localEnd then some (.ok ⟨va, 0, va⟩) else bad cPerm 0)
    else if !s.ctxOk ctx func then bad cPerm 0
    else match s.reach none ctx va need false with
      | .error f => bad (if f == .perm then cPerm else cPage) 0
      | .ok x => match s.remoteBad x.key with
        | some sub => bad cPerm sub
        | none => some (.ok ⟨x.key, x.home, va⟩)

/-- The bytes of an access, each on its own page. -/
def State.winKeys (s : State) (func off n : Nat) (need : Need) : List (Option (Except WinFault Spot)) :=
  (List.range n).map fun i => s.winKey func (off + i) need

/-- The faults of an access, one for each page and cause. -/
def winFaults : List (Option (Except WinFault Spot)) → List WinFault
  | [] => []
  | some (.error f) :: r => f :: (winFaults r).filter fun g => !(g.ctx == f.ctx && g.code == f.code && g.sub == f.sub && g.va / 4096 == f.va / 4096)
  | _ :: r => winFaults r

/-- Their records (R436): nothing parks. -/
def State.winRecords (s : State) (func : Nat) (wr : Bool) (fs : List WinFault) : State :=
  fs.foldl (fun t f => (t.faultRecord func { ctx := f.ctx, core := 0xff, code := f.code, sub := f.sub, host := true, wr, va := f.va } false).2) s

/-- The bytes of an access that can be reached. -/
def winSpots (ks : List (Option (Except WinFault Spot))) : List Spot := ks.filterMap fun k => match k with | some (.ok x) => some x | _ => none

/-- Earlier writes of the host perform: before a write without Relaxed Ordering, a read, an AtomicOp (R345). The host is one requester
(log 16). -/
def State.hostFlush (s : State) : State := (s.inflight.filter fun a => a.host.isSome).foldl State.performAll s

/-- HOST_WINDOW_READ (R345, R437, R439): a register of BAR 0, or bytes of a window; bytes of it that cannot be reached read 0xff. -/
def execHostWindowRead (func : Nat) (off : DWord) (n : Nat) (s : State) : Host.Outcome State Fault Refusal :=
  if off.toNat < 2 ^ 30 then .next { s with answers := s.answers ++ [s.regBytes 0 func off.toNat n] }
  else if !s.hostOk func then .next { s with answers := s.answers ++ [List.replicate n 0] }
  else
    let s0 := s.hostFlush
    let ks := s0.winKeys func off.toNat n .rd
    let s1 := s0.readLines { core := none, func } 0 .slice (winSpots ks)
    let bs := ks.map fun k => match k with | some (.ok k) => s1.getAt k.key | some (.error _) => 0xff | none => 0
    .next { s1.winRecords func false (winFaults ks) with answers := s1.answers ++ [bs] }

/-- The pieces of a write: the bytes of each aligned eight. -/
def hostPieces (puts : List (Spot × Byte)) : List Piece :=
  (touched 8 (puts.map (·.1))).mapIdx fun i t =>
    let ps := puts.filter fun p => decide (t.1 ≤ p.1.key ∧ p.1.key ≤ t.2.1)
    { k := i, lane := 0, addr := t.1, n := ps.length, x := BitVec.ofNat 64 (ofBytes (ps.map (·.2))), va := (ps.head?.map (·.1.va)).getD 0, home := t.2.2 }

/-- The translations that a write through window `w` used (R435). -/
def State.winPages (s : State) (func w : Nat) (puts : List (Spot × Byte)) : List (Nat × Nat × Nat) :=
  let r := (s.func func).win.get w
  if bitAt r 62 then []
  else (puts.filterMap fun p => match s.xlate none (field r 46 16) p.1.va with
    | .ok x => some (field r 46 16, p.1.va / 2 ^ x.size * 2 ^ (x.size - 12), x.size)
    | .error _ => none).eraseDups

/-- A write with Relaxed Ordering goes into flight: one access for each window that it touches (R345). -/
def State.hostLaunch (s : State) (func off : Nat) (ps : List (Nat × Spot × Byte)) : State :=
  let ofWin := fun (i : Nat) => (off + i - 2 ^ 30) / 2 ^ 22
  ((ps.map fun p => ofWin p.1).eraseDups).foldl (fun t w =>
    let puts := (ps.filter fun p => ofWin p.1 == w).map (·.2)
    let (id, u) := t.newId
    u.launchAccess { id, wid := 0, quads := 0, kind := .store, host := some func, hctx := field ((s.func func).win.get w) 46 16,
                     pieces := hostPieces puts, pages := s.winPages func w puts }) s

/-- HOST_WINDOW_WRITE (R345, R439): bytes that cannot be reached are dropped. A write with the Relaxed Ordering attribute `ro` performs at any
time; any other performs at once, after the host's earlier writes. -/
def execHostWindowWrite (func : Nat) (off : DWord) (data : List Byte) (ro : Bool) (s : State) : Host.Outcome State Fault Refusal :=
  if !s.hostOk func then .next s
  else
    let s0 := if ro then s else s.hostFlush
    let ks := s0.winKeys func off.toNat data.length .wr
    let ps : List (Nat × Spot × Byte) := ((ks.zip data).mapIdx fun i kb => (i, kb)).filterMap fun x => match x.2.1 with
      | some (.ok k) => some (x.1, k, x.2.2)
      | _ => none
    let q : Req := { core := none, func }
    let s1 := if ro then s0.hostLaunch func off.toNat ps
      else s0.wrSpots q (s0.softSpots (ps.map (·.2)))
    .next (s1.winRecords func true (winFaults ks))

/-- The value that an AtomicOp writes (R216, R437). -/
def atomOpResult (op : AtomOp) (n old x y : Nat) : Option Nat :=
  match op with
  | .fetchAdd => some ((old + x) % 2 ^ (8 * n))
  | .swap => some x
  | .cas => if old = y then some x else none

/-- HOST_ATOMIC (R216, R437): 32-bit and 64-bit, naturally aligned (log 16); the answer is the old value. -/
def execHostAtomic (func : Nat) (off : DWord) (op : AtomOp) (n : Nat) (x y : DWord) (s : State) : Host.Outcome State Fault Refusal :=
  if !s.hostOk func || (n != 4 && n != 8) || off.toNat % n != 0 then .next s
  else
    let s := s.hostFlush
    match s.winKey func off.toNat .both with
    | none => .next { s with answers := s.answers ++ [List.replicate n 0] }
    | some (.error f) => .next { s.winRecords func true [f] with answers := s.answers ++ [List.replicate n 0xff] }
    | some (.ok k) =>
      if s.poison.contains (unitOf k.key) then .next { s with answers := s.answers ++ [List.replicate n 0xff] }
      else
        let old := s.rd k.key n
        let q : Req := { core := none, func }
        let s1 := { s with answers := s.answers ++ [toBytes n old] }.flits q 0 k.key
        .next (match atomOpResult op n old (x.toNat % 2 ^ (8 * n)) (y.toNat % 2 ^ (8 * n)) with
          | some v => s1.wrBy q k.home k.key (toBytes n v)
          | none => s1.sliceReq q k.home k.key n false)

/-! ## Translation (R434, R435) -/

/-- PAGE_WALK_COMPLETE (R434): the walk has read the tables through their slices, and its leaf goes into the TLBs of a core, which the event does not
name (a free choice), and of its panel; a fault is the accesses' own. -/
def execPageWalkComplete (ctx va : Nat) (s : State) : Host.Outcome State Fault Refusal :=
  match s.walk ctx va with
  | .ok (leaf, size) => let (i, s1) := s.draw; .next ((s1.walkReads ctx va).tlbFill (Config.choice i % 64) ctx va leaf size)
  | .error _ => .next s

/-- The writable fields of INVCTL: CTX, ALL. -/
def invFields (v : Word) : Word := v &&& 0x1ffff

/-- The context and the page of a translation are what an invalidation names: `size` the page's size as a power of two. -/
def State.invHits (s : State) (func : Nat) (v : Word) (ctx page size : Nat) : Bool :=
  let f := s.func func
  if bitAt v 16 then s.ctxFunc ctx == func
  else
    let first := field f.invva 12 45
    ctx == field v 0 16 && decide (page < first + f.invcnt.toNat ∧ first < page + 2 ^ (size - 12))

/-- INVALIDATE (R435, R437): a write of INVCTL. -/
def execInvalidate (func : Nat) (v : Word) (s : State) : Host.Outcome State Fault Refusal :=
  let f := s.func func
  if !s.hostOk func || (func != 0 && s.ctxFunc (field v 0 16) != func) then .next s
  else if bitAt f.invctl 30 then .next (if bitAt v 31 then s else s.updFunc func fun f => { f with invctl := invFields v ||| 0x40000000 })
  else if !bitAt v 31 then .next (s.updFunc func fun f => { f with invctl := invFields v })
  else
    let hit := s.invHits func v
    let used := (s.inflight.filter fun a => a.pages.any fun p => hit p.1 p.2.1 p.2.2).map (·.id)
    let s1 := { s with tlb := s.tlb.filter fun t => !hit t.2.1 t.2.2.1 t.2.2.2.2 }
    .next (s1.updFunc func fun f => { f with invctl := invFields v ||| 0x40000000, inv := some used })

/-- INVALIDATE_DONE (R435): every access that used a dropped entry has performed. -/
def execInvalidateDone (func : Nat) (s : State) : Host.Outcome State Fault Refusal :=
  match (s.func func).inv with
  | none => .next s
  | some ids =>
    .next (if s.inflight.any fun a => ids.contains a.id then s else s.updFunc func fun f => { f with inv := none, invctl := f.invctl &&& ~~~0x40000000 })

/-! ## The host fault buffer (R436) -/

/-- What a resolution does to a set of awaited records: the record goes, and with ERR its page will raise PERM. -/
def Aux.resolve (a : Aux) (r : Rid) (err : Bool) : Aux :=
  if a.rids.contains r.rid then { a with rids := a.rids.filter (· != r.rid), errs := if err then r.page :: a.errs else a.errs } else a

/-- The wave with its parts that waited for nothing else READY; parts of a stopped wave keep their state until it is not (R46). -/
def Wave.resolve (w : Wave) (r : Rid) (err stop : Bool) : Wave :=
  let w1 := entIdx.foldl (fun (v : Wave) e =>
    let a := v.auxAt e
    if a.rids.contains r.rid then
      let b := a.resolve r err
      let v1 := v.updAux e fun _ => b
      if b.rids.isEmpty && !stop && (v.ent e).isPart && (v.ent e).st == stParkf then v1.updEnt e fun x => { x with st := stReady } else v1
    else v) w
  let h := w1.handler.aux.resolve r err
  let h1 := if h.park == .page && h.rids.isEmpty then { h with park := .none } else h
  let ops := w1.batch.discarded.map fun o => if o.rid == some r.rid then { o with rid := none, errs := if err then r.page :: o.errs else o.errs } else o
  { w1 with handler := { w1.handler with aux := h1 }, batch := { w1.batch with discarded := ops } }

/-- A copy or an op that waits for the record goes on. -/
def Copy.resolve (c : Copy) (r : Rid) (err : Bool) : Copy :=
  if c.rid == some r.rid then { c with rid := none, parked := false, errs := if err then r.page :: c.errs else c.errs } else c
def EOp.resolve (o : EOp) (r : Rid) (err : Bool) : EOp :=
  if o.rid == some r.rid then { o with rid := none, errs := if err then r.page :: o.errs else o.errs } else o

/-- The engines of a core. -/
def Core.resolve (c : Core) (r : Rid) (err : Bool) : Core :=
  let slot := fun (x : Slot) => if x.rid == some r.rid then { x with rid := none, err } else x
  { c with easel := c.easel.map fun o => o.resolve r err, copies := c.copies.map fun x => x.resolve r err, slots := c.slots.map slot }

/-- RESOLVE (R416, R436). -/
def execResolve (func : Nat) (v : Word) (s : State) : Host.Outcome State Fault Refusal :=
  match (if s.hostOk func then s.rids.find? fun r => r.rid == field v 0 16 && r.func == func else none) with
  | none => .next s
  | some r =>
    let err := bitAt v 16
    let s1 := { s with rids := s.rids.filter fun x => x.rid != r.rid }
    if !r.parks then .next s1
    else .next { s1 with
      waves := s1.waves.map fun w => w.resolve r err (s1.stopped w)
      cores := s1.cores.map fun c => c.resolve r err
      groups := s1.groups.map fun g => { g with kept := g.kept.map fun w => w.resolve r err true, keptCopies := g.keptCopies.map fun x => x.resolve r err } }

/-- Records that waited are written while there is room. -/
def State.fbDrain (s : State) (func : Nat) : Nat → State
  | 0 => s
  | n + 1 =>
    let f := s.func func
    match f.fbwait with
    | [] => s
    | ws :: rest =>
      if (f.fbtail - f.fbhead).toNat ≥ 2 ^ field f.fbctl 0 4 then s
      else (((s.updFunc func fun f => { f with fbwait := [] }).putRecord func ws).updFunc func fun f => { f with fbwait := rest }).fbDrain func n

/-- FBHEAD_WRITE (R436). -/
def execFbheadWrite (func : Nat) (v : Word) (s : State) : Host.Outcome State Fault Refusal :=
  if !s.hostOk func then .next s
  else .next ((s.updFunc func fun f => { f with fbhead := v }).fbDrain func (s.func func).fbwait.length)

/-! ## Function Level Reset (R440) -/

/-- The enabled queues of a function: their entries stand in memory. -/
def State.queuesOf (s : State) (func : Nat) : List Nat :=
  let a := s.qtbase.toNat
  let qs := ((s.mem.filter fun c => decide (a ≤ c.1 ∧ c.1 < a + 2 ^ 20)).map fun c => (c.1 - a) / 32).eraseDups
  qs.filter fun q => bitAt (s.queueWord q 2) 0 && field (s.queueWord q 2) 10 6 == func

/-- FUNCTION_LEVEL_RESET (R440, R466): of a virtual function; launches that it has under way place nothing more. -/
def execFunctionLevelReset (func : Nat) (s : State) : Host.Outcome State Fault Refusal :=
  if func = 0 || !s.hostOk func then .next s
  else
    let s1 := (s.queuesOf func).foldl (fun t q => t.queueFlags q false (bitAt (t.queueWord q 2) 1)) s
    let s2 := (s1.groups.filter fun g => s.ctxFunc g.ctx == func).foldl (fun t g => match t.group? g.gid with | some x => t.abortGroup x 0x05 | none => t) s1
    let s3 := (s2.taken.filter fun l => l.func == func && l.event.isNone).foldl (fun t l => match t.launch? l.lid with | some x => t.giveUp x 0x05 | none => t) s2
    .next { s3.updFunc func fun f =>
        { f with win := [], fbbase := 0, fbctl := 0, fbtail := 0, fbhead := 0, fbwait := [], ctr := [], staged := [], frz := false } with
      tlb := s3.tlb.filter fun t => s.ctxFunc t.2.1 != func
      rids := s3.rids.filter fun r => r.func != func }

/-! ## The span fabric (R442 to R447) -/

/-- A requester outside the module's functions: the fabric, for which no bank counts (R488). -/
def fabricReq : Req := { core := none, func := 64 }

/-- A watch of another module enters the directory of a slice, of the page when the slice's 1,024 are taken, or leaves it (R234, R238). -/
def State.watch (s : State) (node line : Nat) (on : Bool) : State :=
  let rest := { s with foreign := s.foreign.filter fun f => !(f.1 == node && f.2.1 == line) }
  if on then { rest with foreign := rest.foreign ++ [(node, line, rest.mustWatchPage (128 * line))] } else rest

/-- A wake-up from another module sets TRIG of the slots that watch the line, or with `page` of those that watch its page (R238, R443). -/
def State.woke (s : State) (key : Nat) (page : Bool) : State :=
  let hit := fun (m : Mon) => m.armed && (if page then m.fbk && m.line / 4096 == key / 4096 else m.line / 128 == key / 128)
  { s with waves := s.waves.map fun w =>
      if w.mons.any hit then Wave.latch { w with mons := w.mons.map fun m => if hit m then m.trigger (s.core w.core).clk.toNat else m } s.time else w }

/-- Another module refuses a page from now on, or no longer (R445). -/
def State.refusing (s : State) (key sub : Nat) : State :=
  let rest := s.refused.filter fun x => x.1 != key / 4096
  if sub = 0x82 ∨ sub = 0x83 then { s with refused := (key / 4096, sub) :: rest } else if sub = 0 then { s with refused := rest } else s

/-- An atomic or a VARED of another module: the state after it, with the old value. -/
def State.remoteAtom (s : State) (a n op ty : Nat) (x y : DWord) : Nat × State :=
  let old := s.rd a n
  (old, match atomNew op ((Ty.ofCode (BitVec.ofNat 5 ty)).getD .i32) old x.toNat y.toNat with
    | some v => s.wrBy fabricReq 0 a (toBytes n v)
    | none => s.sliceReq fabricReq 0 a n false)

/-- A write that has performed elsewhere: at a line of another module, or in host memory. -/
def State.elsewhere (s : State) (key : Nat) (bs : List Byte) : State := if 2 ^ 58 ≤ key then { s with mem := s.mem.setList key bs } else s

/-- REMOTE_REQUEST (R442, R443, R445): what another module sends performs at its line's home slice; an address without memory is refused, which the
requester is told with SUB 0x82. The home of the page is the requester's to know: lines are taken as cached ones (log 38). What comes about on
other modules is an input like the rest: a page refused, a node that answers again, a write at another home. -/
def execRemoteRequest (req : Remote) (s : State) : Host.Outcome State Fault Refusal :=
  let loc := fun (a : Nat) => a % 2 ^ 45
  let ok := fun (a : Nat) => decide (loc a < localEnd)
  let answer := fun (t : State) (bs : List Byte) => { t with answers := t.answers ++ [bs] }
  let turn := fun (a : Nat) => { s with turned := s.turned ++ [(a, 0x82)] }
  match req with
  | .refuse a sub => .next (if isRemoteKey (physKey s a) then s.refusing (physKey s a) sub else s)
  | .answers node => .next { s with silent := s.silent.filter (· != node) }
  | .elsewhere a bs => .next (s.elsewhere (physKey s a) bs)
  | .load a n => .next (if s.boot.state == 0x80 then s
      else if ok a then answer (s.sliceReq fabricReq 0 (loc a) n false) (s.mem.getList (loc a) n) else answer (turn a) (List.replicate n 0xff))
  | .store a bs => .next (if s.boot.state == 0x80 then s else if ok a then s.wrBy fabricReq 0 (loc a) bs else turn a)
  | .atomic a n op ty x y =>
    .next (if s.boot.state == 0x80 then s
      else if !ok a then answer (turn a) (List.replicate n 0xff)
      else if s.poison.contains (unitOf (loc a)) then answer s (List.replicate n 0xff)
      else let r := s.remoteAtom (loc a) n op ty x y; answer r.2 (toBytes n r.1))
  | .reduce a n op ty x =>
    .next (if s.boot.state == 0x80 then s
      else if !ok a then turn a
      else if s.poison.contains (unitOf (loc a)) then s else (s.remoteAtom (loc a) n op ty x 0).2)
  | .disc a n =>
    let (i, s1) := s.draw
    .next (if s.boot.state == 0x80 then s
      else if ok a then s1.wrBy fabricReq 0 (loc a) (if Config.choice i % 2 = 0 then List.replicate n 0 else s.mem.getList (loc a) n) else turn a)
  | .watch node a on => .next (if s.boot.state == 0x80 then s else if ok a then s.watch node (loc a / 128) on else turn a)
  | .wake a page => .next (if s.boot.state == 0x80 then s else s.woke (physKey s a) page)

/-- A piece of an access goes to a node. -/
def Piece.toNode (p : Piece) (node : Nat) : Bool := isRemoteKey p.addr && keyNode p.addr == node

/-- FABRIC_TIMEOUT (R444): a node has not answered. The requests that wait for it complete, and later ones, whatever makes them, find it unreachable
until it answers again (log 38). -/
def execFabricTimeout (node : Nat) (s : State) : Host.Outcome State Fault Refusal :=
  let late := fun (t : State) (a : Access) => (a.pieces.filter fun p => p.toNode node).foldl
    (fun (t : State) p => let u := t.unserved a p 0x80; { u with inflight := dropPiece a.id p.k u.inflight }) t
  let s1 := if s.silent.contains node then s else { s with silent := node :: s.silent }
  .next (s1.inflight.foldl late s1).sweep

/-- HALT_NOTICE_RECEIVE (R447): with RECV, the notice is written into the NBASE line as the fabric writes; the fabric is off in the safe state
(R470). -/
def execHaltNoticeReceive (node : Nat) (on : Bool) (v : DWord) (s : State) : Host.Outcome State Fault Refusal :=
  if !bitAt s.notice 62 || s.boot.state == 0x80 then .next s
  else
    let w0 : DWord := BitVec.ofNat 64 (node % 2 ^ 11) ||| bitIf 64 on 16
    .next (s.wrBy fabricReq 0 (field s.notice 7 49 * 128) (toBytes 8 w0.toNat ++ toBytes 8 v.toNat))

/-- PAGE_UNPIN (R319): the lines of a page leave their slice; dirty ones are written back, which changes no value. -/
def execPageUnpin (page : Nat) (s : State) : Host.Outcome State Fault Refusal :=
  .next ((s.lines.filter fun r => r.line / 32 == page && r.tag.isSome).foldl (fun t r => (t.recall { core := none, func := 64 } r.line).evictLine
    { r with owner := none } true) s)

end Sys2Proof.Machine
end

