-- ==== Sys2Proof/Machine/Reliability.lean ====
section
/-!
DEFINITION. Errors, scrubbing, and takeover by spares (23 R474 to R484).
-/
namespace Sys2Proof.Machine

/-! ## Error classes (R474, R475) -/

/-- A record of the error classes: to the physical function, and to the function that owns the context, where one is named. -/
def State.errorRecord (s : State) (code sub ctx core : Nat) (aux : DWord) (owner : Bool) (va : Nat := 0) : State :=
  let i : FaultInfo := { ctx, core, code, sub, aux, va }
  let s1 := (s.faultRecord 0 i false).2
  let f := s.ctxFunc ctx
  if owner && ctx != 0xffff && f != 0 then (s1.faultRecord f i false).2 else s1

/-- The context and the virtual address of a storage key, where the TLBs that `unit` tells name them (DESIGN CHOICE, log 34: R475 does not say
when they are known). -/
def State.mapper (s : State) (unit : Nat → Bool) (key : Nat) : Option (Nat × Nat) :=
  s.tlb.findSome? fun t =>
    let base := physKey s (ptePa t.2.2.2.1 / 2 ^ t.2.2.2.2 * 2 ^ t.2.2.2.2)
    if unit t.1 && pteHome t.2.2.2.1 != 1 && decide (base ≤ key ∧ key < base + 2 ^ t.2.2.2.2) then some (t.2.1, t.2.2.1 * 4096 + (key - base)) else none

/-- The record of a contained error in a line of memory. -/
def State.lineRecord (s : State) (unit : Nat → Bool) (sub core key : Nat) (aux : DWord) : State :=
  match s.mapper unit key with
  | some (ctx, va) => s.errorRecord 0x41 sub ctx core aux true va
  | none => s.errorRecord 0x41 sub 0xffff core aux true

/-- Module-fatal: every core stops, and the module enters the safe state. -/
def State.moduleFatal (s : State) (unit : Nat) (aux : DWord) : State :=
  (s.errorRecord 0x43 unit 0xffff 0xff aux false).enterSafe 5 0x0301 (BitVec.ofNat 32 unit)

/-- Group-fatal: the waves of the group stop at their next bundle boundary (R474). A core with a second such error is retired (R482: "repeated";
DESIGN CHOICE, log 34). -/
def State.groupFatal (s : State) (gid : Nat) (core : Nat) (aux : DWord) : State :=
  let ctx := ((s.group? gid).map fun (g : Group) => g.ctx).getD 0xffff
  let s1 := { s with waves := s.waves.map fun (w : Wave) => if w.gid == gid then { w with dead := true } else w }
  let s2 := s1.updCore core fun c => { c with fatal := c.fatal + 1, worn := c.worn || decide (1 ≤ c.fatal) }
  s2.errorRecord 0x42 1 ctx (s.core core).phys aux true

/-- The location of an SRAM error: macro class and row. -/
def sramAux (cls row : Nat) : DWord := BitVec.ofNat 64 (cls % 256) ||| place 64 (row % 2 ^ 16) 8

/-- A unit of memory or of a palette is poisoned: every byte of it reads 0xff, from every cache (R477). It is no write. -/
def State.poisonUnit (s : State) (key : Nat) : State :=
  let u := unitOf key
  let n := unitSize key
  { s with
    poison := if s.poison.contains u then s.poison else s.poison ++ [u]
    mem := s.mem.setList u (List.replicate n 0xff)
    copies := s.copies.filter fun c => !decide (u ≤ lineBytes c.1 * c.2 ∧ lineBytes c.1 * c.2 < u + n)
    stale := s.stale.filter fun c => !decide (u ≤ c.2.1 ∧ c.2.1 < u + n) }

/-- A tile is poisoned. -/
def Core.poisonTile (c : Core) (t : Nat) : Core :=
  let x := c.putTile t (List.replicate 1024 (BitVec.allOnes 64))
  { x with bad := t :: x.bad }

/-- A canvas is poisoned: its mantissas and exponents read 0xff until it is primed again. -/
def Core.poisonCanvas (c : Core) (k : Nat) : Core :=
  let x := c.can k
  c.setCan k { x with cell := Store.setList [] 0 (List.replicate 16384 0xff), exp := Store.setList [] 0 (List.replicate 512 0xff) }

/-- The context whose group holds something on a core. -/
def State.holderCtx (s : State) (core : Nat) (p : Group → Bool) : Nat :=
  (((s.residents core).find? p).map fun (g : Group) => g.ctx).getD 0xffff

/-! ## Slices (R483) -/

/-- The lines of a slice are written back: two units of 64 bytes each. -/
def State.writeBack (s : State) (slice : Nat) : State :=
  (s.lines.filter fun r => r.slice == slice && r.dirty).foldl
    (fun t r => (t.count ((r.tag.getD 0).toNat) 0xe (slice / 16) 2).putLine { r with dirty := false }) s

/-- A slice is retired (R483): the panel's spare slice takes the index with everything that the slice holds; without one, a neighbour serves
its lines, those that come later too. -/
def State.retireSlice (s : State) (slice : Nat) : State :=
  if 64 ≤ slice || s.spares.gone.contains slice then s
  else
    let p := panelOf slice
    let free := !(s.spares.slices.any fun x => x.1 == p)
    let s0 := s.writeBack slice
    let errs := s0.spares.sliceErrs.filter fun x => x.1 != slice
    let s1 := if free then { s0 with spares := { s0.spares with slices := s0.spares.slices ++ [(p, slice)], sliceErrs := errs } }
      else { s0 with spares := { s0.spares with gone := s0.spares.gone ++ [slice], sliceErrs := errs } }
    let s2 := if free then s1 else { s1 with lines := s1.lines.map fun r => if r.slice == slice then { r with slice := s1.serving slice } else r }
    s2.errorRecord 0x40 3 0xffff 0xff (BitVec.ofNat 64 slice) false

/-- SLICE_RETIREMENT. -/
def execSliceRetirement (slice : Nat) (s : State) : Host.Outcome State Fault Refusal := .next (s.retireSlice slice)

/-- A corrected error of a slice: the slice is retired for 4,096 within 2^32 fclk. -/
def State.sliceCorrected (s : State) (slice : Nat) : State :=
  let errs := (slice, s.time) :: s.spares.sliceErrs.filter fun x => x.1 != slice || decide (s.time < x.2 + 7 * 2 ^ 32)
  let s1 := { s with spares := { s.spares with sliceErrs := errs } }.corrected 0 (panelOf slice)
  if 4096 ≤ (errs.filter fun x => x.1 == slice).length then s1.retireSlice slice else s1

/-! ## Scrubbing (R476 to R479) -/

/-- A corrected error of an SRAM row: one that has needed 16 within one scrub period is due to be replaced. -/
def State.rowCorrected (s : State) (core cls row : Nat) : State :=
  let k := 2 ^ 24 * core + 2 ^ 16 * (cls % 256) + row % 2 ^ 16
  let hits := (k, s.time) :: s.spares.sram.filter fun x => x.1 != k || decide (s.time < x.2 + 10 * 2 ^ 30)
  let sp := if 16 ≤ (hits.filter fun x => x.1 == k).length
    then { s.spares with sram := hits.filter fun x => x.1 != k, sramDue := if s.spares.sramDue.contains k then s.spares.sramDue else s.spares.sramDue ++ [k] }
    else { s.spares with sram := hits }
  { s with spares := sp }.corrected 0 (if core < 64 then panelOf core else 0)

/-- A cache fetches a line of its own anew: the copy is as memory is now. -/
def State.refetch (s : State) (cache line : Nat) : State :=
  let core := cache % 64
  let s1 := s.corrected 0 (panelOf core)
  if !s.copies.contains (cache, line) then s1
  else
    let n := lineBytes cache
    ({ s1 with stale := s1.stale.filter fun c => !(c.1 == cache && c.2.1 / n == line) }).sliceReq
      { core := some core, func := ((s.core core).runs).getD 64 } 0 (n * line) n false

/-- SRAM_SCRUB (R476): what the read of a row shows. -/
def execSramScrub (obs : Scrub) (s : State) : Host.Outcome State Fault Refusal :=
  let phys := fun (core : Nat) => (s.core core).phys
  match obs with
  | .clean => .next s
  | .corrected core m row => .next (s.rowCorrected core m row)
  | .refetched cache line => .next (s.refetch cache line)
  | .sliceCorrected slice => .next (s.sliceCorrected slice)
  | .directory slice => .next (s.retireSlice slice)
  | .palette core row off =>
    let ctx := s.holderCtx core fun g => decide (g.pbase ≤ off ∧ off < g.pbase + g.psize)
    .next ((s.poisonUnit (palKey core (off % 2 ^ 20))).errorRecord 0x41 1 ctx (phys core) (sramAux 4 row) true)
  | .tile core row t =>
    let ctx := s.holderCtx core fun g => g.tiles.contains t
    .next ((s.updCore core fun c => c.poisonTile t).errorRecord 0x41 1 ctx (phys core) (sramAux 4 row) true)
  | .canvas core row k =>
    let ctx := s.holderCtx core fun g => g.cans.contains k
    .next ((s.updCore core fun c => c.poisonCanvas k).errorRecord 0x41 1 ctx (phys core) (sramAux 4 row) true)
  | .l1 core row key => .next ((s.poisonUnit key).lineRecord (fun t => t == core) 1 (phys core) (unitOf key) (sramAux 3 row))
  | .line slice key =>
    .next ((s.poisonUnit key).lineRecord (fun _ => true) 3 0xff (unitOf key) (BitVec.ofNat 64 (slice % 64) ||| place 64 (key / 128 % 2 ^ 44) 12))
  | .wave wid m row => match s.wave? wid with
    | none => .next s
    | some w => .next (s.groupFatal w.gid w.core (sramAux m row))
  | .baseDie unit => .next (s.moduleFatal unit 0)

/-- The location of a GDDR-7 error. -/
def gddrAux (dev line : Nat) : DWord := BitVec.ofNat 64 (dev % 32) ||| BitVec.ofNat 64 (128 * line / 256 % 2 ^ 37 * 256)
/-- The memory device of a line: any 32 units of 256 bytes in succession lie in all 32 devices (R327, log 11). -/
def lineDevice (line : Nat) : Nat :=
  let u := line / 2 % 32
  ((List.range 32).filter fun v => decide (Config.deviceOf v < Config.deviceOf u ∨ (Config.deviceOf v = Config.deviceOf u ∧ v < u))).length

/-- The count for `k` in a list, and the list with it replaced. -/
def countAt (xs : List (Nat × Nat)) (k : Nat) : Nat := ((xs.find? fun x => x.1 == k).map fun (x : Nat × Nat) => x.2).getD 0
def setAt (xs : List (Nat × Nat)) (k n : Nat) : List (Nat × Nat) := (k, n) :: xs.filter fun x => x.1 != k

/-- A device is retired: its data is rebuilt; a second retirement is module-fatal (R479). -/
def State.retireDevice (s : State) (dev : Nat) : State :=
  if s.spares.rebuild == some dev || s.spares.devices.contains dev then s
  else if s.spares.rebuild.isSome || !s.spares.devices.isEmpty then s.moduleFatal 4 (BitVec.ofNat 64 dev)
  else { s with spares := { s.spares with rebuild := some dev } }

/-- GDDR_SCRUB (R478, R479): a corrected line; a row of a device that needed 16 corrections is remapped, a device with 1,024 such rows, or one
that fails retraining, retired. Without correction and detection, after a retirement, no line shows an error. -/
def execGddrScrub (line : Nat) (obs : LineState) (s : State) : Host.Outcome State Fault Refusal :=
  let dev := lineDevice line
  if !decide (128 * line < localEnd) then .next s
  else match obs with
    | .clean => .next s
    | .retrainFailed => .next (s.retireDevice dev)
    | .corrected =>
      if !s.spares.devices.isEmpty then .next s
      else
        let row := 32 * Config.rowOf line + dev
        let n := countAt s.spares.rows row + 1
        let s1 := s.corrected 1 0
        if n < 16 then .next { s1 with spares := { s1.spares with rows := setAt s1.spares.rows row n } }
        else
          let m := countAt s.spares.remapped dev + 1
          let s2 := { s1 with spares := { s1.spares with rows := s1.spares.rows.filter fun x => x.1 != row, remapped := setAt s1.spares.remapped dev m } }
          .next (if m = 1024 then s2.retireDevice dev else s2)
    | .uncorrectable =>
      if !s.spares.devices.isEmpty then .next s
      else .next ((s.poisonUnit (128 * line)).lineRecord (fun _ => true) 4 0xff (128 * line) (gddrAux dev line))

/-- GDDR_REBUILD_COMPLETE (R479): the module runs without GDDR-7 correction and detection. -/
def execGddrRebuildComplete (s : State) : Host.Outcome State Fault Refusal :=
  match s.spares.rebuild with
  | none => .next s
  | some dev =>
    .next ({ s with spares := { s.spares with rebuild := none, devices := s.spares.devices ++ [dev] } }.errorRecord 0x40 4 0xffff 0xff
      (BitVec.ofNat 64 dev) false)

/-! ## Takeover (R482) -/

/-- The image of a saved group names another core. -/
def State.renameCore (s : State) (g : Group) (phys : Nat) : State := s.devTry g.ctx (s.imageVa g.ctx g.image + 23) [BitVec.ofNat 8 phys]

/-- The spare core in the place of a retired one: resident segments and dictionaries are copied, overlay slots start EMPTY. -/
def Core.onSpare (c : Core) (phys : Nat) : Core :=
  { clk := c.clk, phys, imem := c.imem, dict := c.dict, kslots := c.kslots, dbg := c.dbg
    slots := c.slots.map fun x => if x.resident then x else { owner := x.owner } }

/-- Steps 3 to 6 of R482, once no group is left on the core. -/
def State.takeover (s : State) (core : Nat) : State :=
  let old := (s.core core).phys
  let s1 := (s.core core).heldImages.foldl (fun t x => t.spill core x.1 x.2) s
  let p := panelOf core
  let free := !(s.spares.cores.any fun x => x.1 == p)
  let phys := if free then 17 * p + 16 else 0xff
  let s2 := (s1.groups.filter fun g => g.state == .saved && g.core == core).foldl (fun t g => t.renameCore g phys) s1
  let sp := { s2.spares with retiring := s2.spares.retiring.filter (· != core) }
  let s3 := if free then { s2 with
      spares := { sp with cores := sp.cores ++ [(p, old)], sram := sp.sram.filter fun x => x.1 / 2 ^ 24 != core, sramDue := sp.sramDue.filter fun k => k / 2 ^ 24 != core }
      poison := s2.poison.filter fun u => !(isPalKey u && palCore u == core) }.updCore core fun c => c.onSpare phys
    else { s2 with spares := { sp with offline := sp.offline ++ [core] } }
  s3.errorRecord 0x40 6 0xffff old (BitVec.ofNat 64 (old + 256 * phys)) false

/-- CORE_RETIREMENT (R482): the core takes no group and its groups are pre-empted; when none is left, the spare takes over. -/
def execCoreRetirement (core : Nat) (s : State) : Host.Outcome State Fault Refusal :=
  if 64 ≤ core || s.spares.offline.contains core then .next s
  else
    let s1 := if s.spares.retiring.contains core then s else { s with spares := { s.spares with retiring := s.spares.retiring ++ [core] } }
    if (s1.residents core).isEmpty then .next (s1.takeover core)
    else .next { s1 with groups := s1.groups.map fun g =>
      if g.core == core && (g.state == .resident || g.state == .restoring) then { g with state := .draining (s.core core).clk.toNat } else g }

/-- A core that is being replaced has no group left, or mismatches have worn out a core (R481). -/
def State.takeoverDue (s : State) : Option Nat :=
  (s.spares.retiring.find? fun c => (s.residents c).isEmpty).orElse fun _ =>
    (List.range 64).find? fun c => (s.core c).worn && !s.spares.retiring.contains c && !s.spares.offline.contains c

/-! ## Span links (R484) -/

/-- SPAN_LANE_SPARE: a flit of a lane fails its check, which is a corrected error (R474). With the second within 2^30 flits
of the lane the spare lane takes over and the port retrains; a second failing lane leaves it at half its rate. -/
def execSpanLaneSpare (port : Nat) (flit : LaneFlit) (s : State) : Host.Outcome State Fault Refusal :=
  if 18 ≤ port || 9 ≤ flit.lane || s.spares.down.contains port || s.spares.lanes.contains (port, flit.lane) then .next s
  else
    let s0 := s.corrected 2 0
    if 2 ^ 30 ≤ flit.since then .next s0
    else
      let s1 := { s0 with spares := { s0.spares with
        lanes := s0.spares.lanes ++ [(port, flit.lane)]
        retrain := if s0.spares.retrain.contains port then s0.spares.retrain else s0.spares.retrain ++ [port] } }
      .next (s1.errorRecord 0x40 5 0xffff 0xff (BitVec.ofNat 64 (port + 32 * flit.lane)) false)

/-- LANE_RETRAIN_COMPLETE. -/
def execLaneRetrainComplete (port : Nat) (s : State) : Host.Outcome State Fault Refusal :=
  .next { s with spares := { s.spares with retrain := s.spares.retrain.filter (· != port) } }

/-- SPAN_PORT_DOWN: the port is no choice of the route table any more. -/
def execSpanPortDown (port : Nat) (s : State) : Host.Outcome State Fault Refusal :=
  .next { s with
    spares := { s.spares with down := if s.spares.down.contains port then s.spares.down else s.spares.down ++ [port], retrain := s.spares.retrain.filter (· != port) }
    routes := s.routes.map fun r => (r.1, r.2.filter (· != port)) }

end Sys2Proof.Machine
end

