-- ==== Sys2Proof/Machine/RegWrite.lean ====
section
/-!
DEFINITION. Writes of 64-bit registers by the host (00 R8, R9; 18 R391, R393; 20 R437, R438, R441, R447; 21 R448, R453, R455, R463;
22 R471; 24 R485 to R487, R493, R494): a register with a behaviour of its own goes to the meaning of that behaviour, every other one
stores its fields.
-/
namespace Sys2Proof.Machine

/-- A plain register write answers a state. -/
def stored (s : State) : Host.Outcome State Fault Refusal := .next s

/-- The fields of a window register (R438): a virtual function stores PHYS 0. -/
def winFields (func : Nat) (v : DWord) : DWord := v &&& (if func = 0 then 0xffffc007ffffffff else 0xbfffc007ffffffff)

/-- A base address: its low 12 bits are 0. -/
def baseFields (v : DWord) : DWord := v &&& 0xfffffffffffff000

/-- BAR 0 below the doorbells (R437). -/
def State.writeBar0 (s : State) (func off : Nat) (v : DWord) : Host.Outcome State Fault Refusal :=
  let pf := fun (t : State) => stored (if func = 0 then t else s)
  let upd := fun (f : Func → Func) => stored (s.updFunc func f)
  if 0x10000 ≤ off ∧ off < 0x10800 then upd fun f => { f with win := f.win.set ((off - 0x10000) / 8) (winFields func v) }
  else match off with
    | 0x08 => pf { s with nodeid := bits v 0 11 }
    | 0x10 => pf { s with qtbase := baseFields v }
    | 0x18 => pf { s with ctxbase := baseFields v }
    | 0x20 => pf { s with astbase := baseFields v }
    | 0x40 => upd fun f => { f with fbbase := baseFields v }
    | 0x48 => upd fun f => { f with fbctl := lo32 v &&& 0x07ff000f }
    | 0x58 => execFbheadWrite func (lo32 v) s
    | 0x60 => execResolve func (lo32 v) s
    | 0x80 => execInvalidate func (lo32 v) s
    | 0x88 => upd fun f => { f with invva := v &&& 0x01fffffffffff000 }
    | 0x90 => upd fun f => { f with invcnt := lo32 v }
    | 0xc0 => execPreemptRequest func v s
    | 0xc8 => upd fun f => { f with klctx := lo32 v &&& 0xffff }
    | 0xd0 => execKernelLoad func v s
    | 0x100 => pf { s with notice := v &&& 0xc0ffffffffffff80 }
    | _ => stored s

/-- The mailbox: of the physical function (R471). -/
def State.writeMail (s : State) (func off : Nat) (v : DWord) : State :=
  if func ≠ 0 then s
  else if off = 0x2008 then s.writeMbcmd v
  else if 0x2100 ≤ off ∧ off < 0x3000 then s.writeBuf (off - 0x2100) (toBytes 8 v.toNat)
  else s

/-- The event codes of R488. -/
def eventCode (x : Nat) : Bool := decide ((1 ≤ x ∧ x ≤ 15) ∨ x = 0x11 ∨ (0x20 ≤ x ∧ x ≤ 0x22) ∨ x = 0x30)

/-- CFG (R486, R493): OVF and THX are cleared by ones, but stored as written in a frozen bank. -/
def cfgFields (old v : DWord) (frz : Bool) : DWord :=
  let evt := if eventCode (field v 0 16) then v &&& 0xffff else 0
  let sticky := if frz then v &&& 0x1800000000000000 else old &&& ~~~v &&& 0x1800000000000000
  (v &&& 0xe3c007ff000f0000) ||| sticky ||| evt

/-- A counter bank (R485 to R487, R490, R493): `pf` tells that the physical function writes. What was staged before a write of CFG counts as the
bank stood. -/
def State.writeBank (s : State) (func off : Nat) (v : DWord) (pf : Bool) : Host.Outcome State Fault Refusal :=
  let f := s.func func
  if off = 0x100 then
    if !pf then stored s
    else if bitAt v 0 then (if f.frz then stored s else execCounterFreeze func s)
    else stored (s.updFunc func fun f => { f.setCtr fstatIx (f.ctr.get fstatIx &&& ~~~3) with frz := false })
  else if 0x100 ≤ off || (f.frz && !pf) then stored s
  else if off % 32 = 0 then stored ((s.flushFunc func).updFunc func fun f => f.setCtr (off / 8) (cfgFields (f.ctr.get (off / 8)) v f.frz))
  else if off % 32 = 8 || off % 32 = 16 then stored (s.updFunc func fun f => f.setCtr (off / 8) (v &&& 0xffffffffffff))
  else stored s

/-- Energy registers (R494): a WLEN of 0 stores 1. -/
def Energy.write (e : Energy) (off : Nat) (v : DWord) : Energy :=
  match off with
  | 0x00 => { e with wlen := if bits v 0 10 = (0 : BitVec 10) then 1 else bits v 0 10 }
  | 0x10 => { e with mbud := lo32 v }
  | 0x40 | 0x48 | 0x50 | 0x58 => { e with ecnt := modifyAt ((off - 0x40) / 8) (fun _ => bits v 0 48) e.ecnt }
  | _ => e

/-- A word of the MSI-X table is written: of word 1 of an entry bits 33 and above are reserved. A vector that is pending and no longer masked is
signalled (log 50). -/
def State.writeVec (s : State) (func i : Nat) (v : DWord) : State :=
  let s1 := s.updFunc func fun f => { f with msix := f.msix.set i (if i % 2 = 1 then (v &&& 0x1ffffffff) ^^^ bitIf 64 true 32 else v) }
  let f := s1.func func
  let n := i / 2
  if f.open n && bitAt (f.pba.get (n / 64)) (n % 64) then
    (s1.updFunc func fun f => { f with pba := f.pba.set (n / 64) (f.pba.get (n / 64) &&& ~~~bitIf 64 true (n % 64)) }).signal func n
  else s1

/-- BAR 2 (R485): the pending bits are read-only. -/
def State.writeBar2 (s : State) (func off : Nat) (v : DWord) : Host.Outcome State Fault Refusal :=
  if off < 0x8000 then stored (s.writeVec func (off / 8) v)
  else if 0x10000 ≤ off ∧ off < 0x10200 then s.writeBank func (off - 0x10000) v (func == 0)
  else if func ≠ 0 then stored s
  else if 0x12000 ≤ off ∧ off < 0x1a000 then s.writeBank ((off - 0x12000) / 0x200) ((off - 0x12000) % 0x200) v true
  else if 0x1c000 ≤ off ∧ off < 0x1c060 then stored { s with energy := s.energy.write (off - 0x1c000) v }
  else stored s

/-- The writable bits of a plain register of the debug block (R448, R453, R455, R463). -/
def debugMask (off : Nat) : DWord :=
  if off = 0x008 then 0x8000000000037fff
  else if 0x100 ≤ off ∧ off < 0x180 then (if off % 16 = 0 then 0xffffc0000001ffff else 0x000fffff000fffff)
  else if off = 0x208 ∨ off = 0x210 then 0x01ffffffffffffff
  else if off = 0x308 then 0x0001ffff0001ffff
  else if off = 0x310 then 0xbfffbfffbfffbfff
  else 0

/-- The debug block of a core (R448): of HALT and RESUME written together, the halt stands. -/
def State.writeDebug (s : State) (core off : Nat) (v : DWord) : Host.Outcome State Fault Refusal :=
  if off = 0 then
    match (if bitAt v 1 then execResume core s else .next s) with
    | .next t => if bitAt v 0 then execHalt core t else .next t
    | o => o
  else if off = 0x200 then execTraceEnable core v s
  else if off = 0x300 then execCausalTrialStart core v s
  else if debugMask off = 0 then stored s
  else stored (s.updCore core fun c => c.setDreg off (v &&& debugMask off))

/-- REGISTER_WRITE (R8, R9): a 64-bit write at a register's offset in BAR 0, 2 or 4 of a function; any other offset is ignored. In the
safe state only the mailbox is written (R470). -/
def execRegisterWrite (bar func : Nat) (off v : DWord) (s : State) : Host.Outcome State Fault Refusal :=
  let o := off.toNat
  if s.inStage 1 || (func != 0 && !s.boot.vfEnable) || decide (64 ≤ func) || o % 8 != 0 then .next s
  else if bar = 0 && o / 0x1000 == 2 then .next (s.writeMail func o v)
  else if !s.hostOk func then .next s
  else if bar = 0 then
    if 2 ^ 30 ≤ o then execHostWindowWrite func off (toBytes 8 v.toNat) false s
    else if 0x200000 ≤ o ∧ o < 0x240000 then execDoorbell func ((o - 0x200000) / 8) (lo32 v) s
    else s.writeBar0 func o v
  else if bar = 2 then s.writeBar2 func o v
  else if bar = 4 && func == 0 && decide (o < 0x40000) then s.writeDebug (o / 0x1000) (o % 0x1000) v
  else .next s

end Sys2Proof.Machine
end

