-- ==== Sys2Proof/Machine/WorkLists.lean ====
section
/-!
DEFINITION. Work lists (09 R295 to R297, 14 R368 to R371).
-/
namespace Sys2Proof.Machine

/-- List `k` of the group's scope. -/
def State.listAt (s : State) (g : Group) (k : Nat) : Option WorkList := (s.listsOf g).find? fun x => x.idx == k
def State.updList (s : State) (x : WorkList) (f : WorkList → WorkList) : State :=
  { s with lists := modifyFirst (fun y => y.cohort == x.cohort && y.scope == x.scope && y.idx == x.idx) f s.lists }

/-- Items in a list, the address of item `c` in its ring (R368). -/
def WorkList.count (x : WorkList) : Nat := (x.tail - x.head).toNat
def WorkList.slotVa (x : WorkList) (c : Word) : Nat := x.rbase + 4 * (c.toNat % 2 ^ x.kcap)
/-- The scope of an acquire on a list. -/
def WorkList.ordScope (x : WorkList) : Nat := if x.cohort then 2 else 1

/-- The lanes of a WAPP with their lists, and whether each is at fault. -/
def State.wappLanes (s : State) (c : Ctx) (a x : BitVec 7) : List (Nat × Option WorkList) :=
  (lanesOf c.m0).map fun l => (l, if c.v a.toNat l = 0xffffffff then none else s.listAt c.g (c.v x.toNat l).toNat)

/-- Every list that lanes name has room for all of its lanes. -/
def wappRoom (ls : List (Nat × Option WorkList)) : Bool :=
  ls.all fun x => match x.2 with
    | none => true
    | some y => decide (y.count + (ls.filter fun z => z.2 == some y).length ≤ 2 ^ y.kcap)

/-- The slot of each lane: consecutive from T of its list in ascending lane order. -/
def wappSlots : List (Nat × Option WorkList) → List (Nat × Option WorkList) → List (Nat × WorkList × Nat)
  | _, [] => []
  | seen, (l, none) :: r => wappSlots (seen ++ [(l, none)]) r
  | seen, (l, some y) :: r =>
    let n := (seen.filter fun z => z.2 == some y).length
    (l, y, y.slotVa (y.tail + BitVec.ofNat 32 n)) :: wappSlots (seen ++ [(l, some y)]) r

/-- A ring slot that an instruction writes or reads: four bytes. -/
def State.ringSlot (s : State) (c : Ctx) (va : Nat) (n : Need) : Except LFault Xlat := s.probe c va 4 n false

/-- A WAPP that has room (R295): a release at the list's scope. -/
def State.append (s : State) (c : Ctx) (i : Instr) (a : BitVec 7) (ls : List (Nat × Option WorkList)) : Except TrapRec State :=
  let slots := wappSlots [] ls
  let ps := slots.map fun x => (x.1, (s.ringSlot c x.2.2 .wr).map fun y => (x.2.1, y.bytes x.2.2 4))
  s.wholewise c i ps fun ok =>
    let s1 := s.before c fun a => a.heldFor (ls.foldl (fun m y => max m ((y.2.map WorkList.ordScope).getD 0)) 0)
    let q : Req := { core := some c.w.core, func := s.ctxFunc c.g.ctx }
    let s2 := ok.foldl (fun t x => ((t.wrSpots q (t.softSpots (x.2.2.zip (toBytes 4 (c.v a.toNat x.1).toNat)))).unservedAt c.g.ctx (some c.w.core) true x.2.2).updList x.2.1 fun y =>
      { y with tail := y.tail + 1 }) s1
    .ok (s2.quietCheck c.g.gid)

/-- WAPP. -/
def execWapp (a x : BitVec 7) (s : State) : Host.Outcome State Fault Refusal :=
  let i := Instr.wapp a x
  issue i s fun c =>
    let ls := s.wappLanes c a x
    let bad := ls.filter fun y => y.2.isNone
    if !bad.isEmpty then .error (c.trap cLane 0 0 0 (laneMask (bad.map (·.1))))
    else if wappRoom ls then s.append c i a ls else .ok (s.block c i)

/-- WAPP_WAIT_END (R295). -/
def execWappWaitEnd (who : Issuer) (s : State) : Host.Outcome State Fault Refusal :=
  match s.blockedAt who with
  | some (c, .wapp a x) =>
    let ls := s.wappLanes c a x
    if wappRoom ls then
      (match s.append c (.wapp a x) a ls with
        | .ok t => .next t
        | .error t => .next (s.raise c t))
    else .next s
  | _ => .next s

/-- WTAKE (R296). -/
def execWtake (d : BitVec 7) (x : BitVec 6) (l : BitVec 4) (s : State) : Host.Outcome State Fault Refusal :=
  let i := Instr.wtake d x l
  issue i s fun c =>
    match s.listAt c.g (c.s x.toNat).toNat with
    | none => .error (c.trap cPerm 0 0 0 c.m0)
    | some y =>
      let ls := lanesOf c.m0
      let n := min ls.length y.count
      let ps := (ls.take n).mapIdx fun k ln => (ln, let va := y.slotVa (y.head + BitVec.ofNat 32 k); (s.ringSlot c va .rd).map fun x => x.bytes va 4)
      s.wholewise c i ps fun ok =>
        let ks := ok.flatMap fun z => z.2
        let s0 := s.before c (fun a => a.touches (ks.map (·.key))) (ks.map (·.key))
        let s1 := (s0.readLines { core := some c.w.core, func := s.ctxFunc c.g.ctx } c.w.core .slice ks).unservedAt c.g.ctx (some c.w.core) false ks
        let res := ok.map (fun z => (64 * d.toNat + z.1, BitVec.ofNat 32 (ofBytes (z.2.map fun k => s1.getAt k.key)))) ++ (ls.drop n).map fun ln => (64 * d.toNat + ln, (0xffffffff : Word))
        let s2 := s1.updList y fun z => { z with head := z.head + BitVec.ofNat 32 n }
        let s3 := if n = 0 then s2 else s2.acquire c.w.wid c.hnd c.q y.ordScope
        .ok ((s3.pendAdd c i c.q l res []).2.quietCheck c.g.gid)

/-- WQUI (R297): it parks unless a list holds items. -/
def execWqui (d : BitVec 6) (s : State) : Host.Outcome State Fault Refusal :=
  let i := Instr.wqui d
  issue i s fun c =>
    if s.scopeEmpty c.g then
      .ok (((s.setWave (c.parkAs c.w (.wqui d))).quietCheck c.g.gid).stubCheck c.w.wid c.q false)
    else .ok (s.retire c i (c.putS c.w d.toNat 0))

end Sys2Proof.Machine
end

