-- ==== Sys2Proof/Machine/Agenda.lean ====
section
/-!
DEFINITION. What a step does when no instruction issues: the events that are due at once, those that may come at any time, and
the clk (00 R2; 01 R41, R47; 05 R175; 19 R408, R418, R423; 21 R449, R459, R464; 24 R490, R493, R495).
-/
namespace Sys2Proof.Machine

/-! ## What is due: waits that have ended, timeouts, the next stage of what is under way -/

/-- The time within which a MONW returns after its trigger: 256 fclk, and 1,200 for each hop to the module of a line (R347). -/
def Wave.wakeBound (w : Wave) (e : Nat) : Nat :=
  let far := ((List.range 4).filter fun n => bitAt (w.auxAt e).fired n).filterMap fun n => (w.mons[n]?).bind fun m =>
    if isRemoteKey m.line then some (Config.hops (keyNode m.line)) else none
  7 * (256 + 1200 * far.foldl max 0)

/-- The event that is due for running part `e` of a wave: a wait that has run out, a MONW return that may not take another clk (R347, R376). -/
def State.dueOfPart (s : State) (w : Wave) (e : Nat) : Option Instr :=
  let x := w.ent e
  let a := w.auxAt e
  if !x.isPart then none
  else if x.st == stParkw && a.park == .sleep 0 && !s.stopped w then some (.sleepExpire w.wid e)
  else if x.st == stParkw && (match a.park with | .monw _ (some 0) _ => true | _ => false) && !s.stopped w then some (.monwTimeout w.wid e)
  else if (w.monAt e).isSome && a.fired != 0 && decide (a.firedAt + w.wakeBound e < s.time + 10) && !s.holdsTrig w then some (.monwWake w.wid e)
  else if x.st == stJwait && decide (w.timeout ≤ x.tcnt.toNat) && !s.stopped w then some (.joinLapse w.wid e)
  else if x.st == stFwait && decide (w.timeout ≤ x.tcnt.toNat) && !s.stopped w then
    (if (s.forcedAt w e).isSome then some (.forcedFuseTimeout w.wid e)
     else if s.instrAt w.core x.pc == some .fuse then some (.fuseTimeout w.wid e) else none)
  else if a.yield == 1 then some (.yieldExpire ⟨w.wid, some e⟩)
  else if (s.missParts w.wid e).isSome && !s.stopped w then some (.missSplit w.wid e)
  else none

/-- The event that is due for a part that waits at issue (R223, R243, R255, R157, R281, R295). -/
def State.dueOfIssuer (s : State) (who : Issuer) : Option Instr :=
  match s.blockedAt who with
  | none => none
  | some (c, i) =>
    if !s.mayRun c || s.delayed c then none
    else match i with
      | .fence k sc => if s.fenceDone c k sc then some (.fenceWaitEnd who) else none
      | .cwait sl => if ((s.core c.w.core).slot sl.toNat).st == .loading then none else some (.cwaitWaitEnd who)
      | .bwait _ n => if c.w.batch.downTo n.toNat then some (.bwaitWaitEnd who) else none
      | .wapp a x => if wappRoom (s.wappLanes c a x) then some (.wappWaitEnd who) else none
      | .glzin .. | .glzrd .. | .glzres .. | .glzclr .. => if s.glazeTurn c i then some (.glzinTurnWaitEnd who) else none
      | j => if s.roomFor c j then some (.queueRoomWaitEnd who) else none

/-- A fallback slot whose window has ended with a trigger held. -/
def State.fallbackDue (s : State) (w : Wave) : Option Nat :=
  (List.range 4).find? fun n => match w.mons[n]? with
    | some m => m.held && (match m.last with | some t => decide (t + 65536 ≤ (s.core w.core).clk.toNat) | none => false)
    | none => false

/-- The event that is due for a wave. -/
def State.dueOfWave (s : State) (w : Wave) : Option Instr :=
  if s.mayEnter w || s.restoreDue w then some (.trapEntry w.wid)
  else if w.handler.run && w.handler.aux.yield == 1 then some (.yieldExpire ⟨w.wid, none⟩)
  else match s.fallbackDue w with
    | some n => some (.fallbackWindowEnd w.wid n)
    | none => (entIdx.findSome? (s.dueOfPart w)).orElse fun _ => w.issuers.findSome? s.dueOfIssuer

/-- The event that is due for a core's debug unit. -/
def State.dueOfCore (s : State) (core : Nat) : Option Instr :=
  let c := s.core core
  if c.dbg.halting && s.atRest core then some (.haltComplete core)
  else if c.dbg.smp then some (.traceSample core)
  else if c.trialOver then some .causalTrialEnd
  else if c.delayDue then some .causalDelay
  else if s.drainDue core then some .traceStagingDrain
  else none

/-- The event that is due for a group. -/
def State.dueOfGroup (s : State) (g : Group) : Option Instr :=
  match g.state with
  | .draining _ => if s.drainLate g then some (.preemptDrainTimeout g.gid) else none
  | .restoring => if s.settled g then some (.restore g.gid) else none
  | _ => none

/-- A cohort begins to hold placement. -/
def State.dueOfLaunch (s : State) (l : Launch) : Option Instr :=
  if l.lkind = 1 && l.placed = 0 && !l.hold && decide (l.since + 7 * 16384 ≤ s.time) then some (.cohortWaitHold l.lid) else none

/-- What is due for counters and energy: a flush every 1,024 clk, the end of a freeze, a window. -/
def State.dueOfCounters (s : State) : Option Instr :=
  if s.time % 10240 = 0 && s.funcs.any fun f => !f.staged.isEmpty then some .counterFlush
  else match (List.range 64).find? fun f => (s.func f).frz && !bitAt ((s.func f).ctr.get fstatIx) 1 with
    | some f => some (.freezeDone f)
    | none => if s.energy.start + s.energy.length ≤ s.time then some (.energyWindow (Config.pick s.fresh 0 % 2 ^ 48)) else none

/-- The first event that is due; a line moves on the eighth request (R322). While the module is not READY, compute, queues and the fabric are off
(R466, R470). -/
def State.due (s : State) : Option Instr :=
  if !s.isReady then s.dueOfCounters
  else
  (s.waves.findSome? s.dueOfWave).orElse fun _ =>
  ((List.range 64).findSome? s.dueOfCore).orElse fun _ =>
  (s.groups.findSome? s.dueOfGroup).orElse fun _ =>
  (s.taken.findSome? s.dueOfLaunch).orElse fun _ =>
  (s.takeoverDue.map Instr.coreRetirement).orElse fun _ =>
  ((s.lines.find? Line.moves).map fun r => Instr.lineMigration r.line).orElse fun _ => s.dueOfCounters

/-! ## What may come -/

/-- Events of a wave that may come now: results that are there (R124), a return of MONW (R347). -/
def State.mayOfWave (s : State) (w : Wave) : List Instr :=
  (w.pend.filter fun p => s.readyQuads p != 0).map (fun p => Instr.longLatencyComplete w.wid p.id) ++
  (w.parts.filter fun e => (w.monAt e).isSome && !s.holdsTrig w && ((w.auxAt e).fired != 0 || w.rst)).map (fun e => Instr.monwWake w.wid e)

/-- Pieces that may perform (R334). -/
def State.mayOfAccess (s : State) (a : Access) : List Instr :=
  (a.pieces.filter fun p => mayPerform s.inflight a p).map fun p => Instr.memoryAccessPerform a.id p.k

/-- The engines of a core: the head of its Easel queue, copies, code loads (R225, R243, R155). -/
def State.mayOfCore (s : State) (core : Nat) : List Instr :=
  let c := s.core core
  (match c.easel with
    | o :: _ => if o.rid.isSome then [] else if o.mma then [Instr.mmaTakesEffect core] else [Instr.primeTakesEffect core]
    | [] => []) ++
  (c.copies.filter fun x => !x.parked).map (fun x => Instr.copyChunkLand core x.cid) ++
  ((List.range 128).filter fun k =>
    let x := c.slot k
    x.st == .loading && !x.resident && x.rid.isNone && (if x.queued then c.loadRoom else x.fault.isSome || !(s.inflight.any fun a => x.acc == some a.id))).map (fun k => Instr.codeLoadComplete core k)

/-- The end of a group, its save, its restore (R160, R418, R423). -/
def State.mayOfGroup (s : State) (g : Group) : List Instr :=
  match g.state with
  | .resident => if s.retires g then [.groupRetire g.gid] else []
  | .draining _ => if s.drained g then [.preemptSave g.gid] else []
  | .saved => match s.launch? g.lid with
    | some l => if (s.restoreSeat g l).isSome && s.isReady then [.restore g.gid] else []
    | none => []
  | .restoring => []

/-- A saved group of the priority can be restored: it goes ahead of new groups (R423). -/
def State.restoreFirst (s : State) (l : Launch) : Bool :=
  s.groups.any fun g => g.state == .saved && (match s.launch? g.lid with | some x => x.pri == l.pri && (s.restoreSeat g x).isSome | none => false)

/-- What a launch has left to place, and the phases of a draw (R348 to R352, R404, R405). -/
def State.mayOfLaunch (s : State) (l : Launch) : List Instr :=
  let place := if s.mayPlace l && !s.restoreFirst l then
      (match l.draw with
        | none => if l.total ≤ l.placed then [] else if l.lkind = 1 then (if l.placed = 0 then [Instr.cohortPlacement l.lid] else []) else [.groupPlacement l.lid]
        | some d => match d.phase with
          | .amp => if l.placed < l.total then [.groupPlacement l.lid] else []
          | .raster => if d.wait.isEmpty then [] else [.groupPlacement l.lid]
          | _ => if d.todo.isEmpty then [] else [.groupPlacement l.lid])
    else []
  let draw := match l.draw with
    | none => []
    | some d => (if l.ampDone then [Instr.drawMeshPhase l.lid] else []) ++ (if l.meshDone then [.drawAttributePass l.lid] else []) ++
        ((d.tiles.filter (s.mayRaster l)).map fun t => .drawTileRaster l.lid t)
  place ++ draw

/-- A function's kernel load and invalidation (R393, R435). -/
def State.mayOfFunc (s : State) (func : Nat) : List Instr :=
  let f := s.func func
  (if f.kl.isSome && s.isReady then [Instr.kernelLoadDone func] else []) ++
  (match f.inv with
    | some ids => if s.inflight.any fun a => ids.contains a.id then [] else [.invalidateDone func]
    | none => [])

/-- Repairs, the boot and mailbox processor (R467, R472, R479). -/
def State.mayOfBoot (s : State) : List Instr :=
  (if s.spares.rebuild.isSome then [.gddrRebuildComplete] else []) ++ (if s.inStage 2 then [.firmwareVerify] else []) ++ s.mailDue.toList

/-- The module's own units: arbiter, event queues, span ports, and those of `mayOfBoot` (R399, R403, R484). -/
def State.mayOfModule (s : State) : List Instr :=
  (if s.isReady && (!s.badQueues.isEmpty || (s.arbitrate.isSome && !(List.range 16).any s.eventReady)) then [Instr.arbiterDecision] else []) ++
  (((List.range 16).filter s.eventReady).map fun e => .managementLaunch e) ++
  (s.spares.retrain.map fun p => .laneRetrainComplete p) ++ s.mayOfBoot

/-- The events that may come now and need not; while the module is not READY, only those of host writes in flight, of invalidations, of repairs and
of the boot and mailbox processor (R470). -/
def State.may (s : State) : List Instr :=
  if !s.isReady then
    (s.inflight.filter fun a => a.host.isSome && a.pieces.all fun p => !isRemoteKey p.addr).flatMap s.mayOfAccess ++
      (List.range 64).flatMap s.mayOfFunc ++ s.mayOfBoot
  else
  s.waves.flatMap s.mayOfWave ++ s.inflight.flatMap s.mayOfAccess ++ (List.range 64).flatMap s.mayOfCore ++ s.groups.flatMap s.mayOfGroup ++
    s.taken.flatMap s.mayOfLaunch ++ (List.range 64).flatMap s.mayOfFunc ++ s.mayOfModule

/-- One of the events that may come and need not, or none: a free choice (log 2). -/
def State.freeEvent? (s : State) : Option (Instr × State) :=
  match s.may with
  | [] => none
  | m :: ms =>
    match Config.choice s.fresh % (ms.length + 2) with
    | 0 => none
    | k + 1 => ((m :: ms)[k]?).map fun i => (i, { s with fresh := s.fresh + 1 })

/-- The part that waits at issue and whose bundle issues at the event; a BWAIT.all still waits for its batch (R254). -/
def State.waitEnder (s : State) : Instr → Option (Ctx × Instr)
  | .fenceWaitEnd who | .cwaitWaitEnd who | .bwaitWaitEnd who | .wappWaitEnd who | .glzinTurnWaitEnd who => s.blockedAt who
  | .queueRoomWaitEnd who => match s.blockedAt who with
    | some (_, .bwaitAll _) => none
    | b => b
  | _ => none

/-- The books of a bundle that waited at issue and issues at the event. -/
def State.noteWaitEnd (s : State) (i : Instr) : State :=
  match s.waitEnder i with
  | some (c, j) => s.noteRan c j
  | none => s

/-- The event of this step, if it is not an issue or a clk: what is due, then the next action of the outside once its time has come,
then a free choice among what may come (log 2, log 3). -/
def State.event? (s : State) : Option (Instr × State) :=
  match s.due with
  | some i => some (i, s.noteWaitEnd i)
  | none => match s.inputs with
    | (t, i) :: rest => if t ≤ s.time then some (i, { s with inputs := rest }) else s.freeEvent?
    | [] => s.freeEvent?

/-- The state of a step in which no event comes: the choice that said so is used up (log 2). -/
def State.noEvent (s : State) : State := { s with fresh := s.fresh + 1 }

/-! ## The clk -/

/-- Groups whose waves wait in WQUI are checked again (R297). -/
def State.quietAll (s : State) : State :=
  let gs := ((s.waves.filter fun w => w.parts.any fun e => (w.ent e).st == stParkw && (match (w.auxAt e).park with | .wqui _ => true | _ => false)).map (·.gid)).eraseDups
  gs.foldl State.quietCheck s

/-- A group whose MONW.G waits: parts of its other waves that have come to a bundle boundary are parked (R237). -/
def State.freezeAll (s : State) : State :=
  s.groups.foldl (fun t g => match g.hold with | some wid => t.freeze g.gid wid | none => t) s

/-- Event 0x0001: a clk in which a wave is resident (R488). -/
def State.countClk (s : State) : State :=
  s.waves.foldl (fun t w => match t.group? w.gid with | some g => t.count (t.ctxFunc g.ctx) 1 (panelOf w.core) 1 | none => t) s

/-- A driver's load of a format descriptor reaches its register (R67, R91, log 46). -/
def State.loadFd (s : State) (ctx i : Nat) (ws : List DWord) : State :=
  let rest := s.fds.filter fun x => !(x.1 == ctx && x.2.1 == i)
  { s with fds := if i < 16 then (if ws.any (· != 0) then (ctx, i, ws) :: rest else rest) else s.fds }
/-- The loads whose time has come, in order. -/
def State.loadFds (s : State) : State :=
  { (s.fdLoads.filter fun x => decide (x.1 ≤ s.time)).foldl (fun t x => t.loadFd x.2.1 x.2.2.1 x.2.2.2) s with
    fdLoads := s.fdLoads.filter fun x => !decide (x.1 ≤ s.time) }

/-- One clk of every core, and of the common time base (R2): 10 units. Barriers whose accesses have performed complete in it (R229, R233). -/
def State.tick (s0 : State) : State :=
  let s := s0.sweep.endTurns.loadFds
  let ws := s.waves.map s.tickWave
  let s1 := { s with waves := ws, time := s.time + 10 }
  let s2 := (List.range 64).foldl (fun t c => (t.traceFlush c).updCore c fun x =>
    { x.tickDebug with clk := x.clk + 1, issue := List.replicate 8 {}, issued := [] }) s1
  s2.countClk.freezeAll.quietAll.preDone

end Sys2Proof.Machine
end

