-- ==== Sys2Proof/Machine/Flags.lean ====
section
/-!
DEFINITION. Kwaell has no flag register: conditions are scalars and mask bits. Here are the relations that produce them: scalar
compares (R164) and the integer conditions of VCMP (R191).
-/
namespace Sys2Proof.Machine

/-- 1 when the relation holds, else 0 (R164). -/
def flagWord (b : Bool) : Word := if b then 1 else 0

/-- `signed(a) < signed(b)`, `signed(a) ≤ signed(b)`, and the unsigned relations (R164). -/
def ltS (a b : Word) : Bool := a.slt b
def leS (a b : Word) : Bool := a.sle b
def ltU (a b : Word) : Bool := a.ult b
def leU (a b : Word) : Bool := a.ule b

/-- The integer condition of VCMP: eq, ne, lt, le, gt, ge in the order of FN 16 to 21 (R135, R191). -/
def intCond (c : Nat) (a b : Int) : Bool :=
  match c with
  | 0 => decide (a = b)
  | 1 => decide (a ≠ b)
  | 2 => decide (a < b)
  | 3 => decide (a ≤ b)
  | 4 => decide (a > b)
  | _ => decide (a ≥ b)

end Sys2Proof.Machine
end

