-- ==== Sys2Proof/Machine/Vector.lean ====
section
/-!
DEFINITION. Vector instructions (06 R177 to R196): lane by lane over active(P), all sources read before any destination is
written.
-/
namespace Sys2Proof.Machine

/-! ## Shared forms -/

/-- A vector instruction with prefix `p`: `f` gives the bits of lane l of the result, an element of type `t` at register `d`. -/
def vecOp (i : Instr) (p : Option Pfx) (t : Ty) (d : BitVec 7) (s : State) (f : Ctx → Nat → Nat) :
    Host.Outcome State Fault Refusal :=
  issue i s fun c => .ok ((s.drawn p 64).retire c i (c.result p t d.toNat (f c)))

/-- A vector instruction that writes a mask. -/
def maskOp (i : Instr) (p : Option Pfx) (d : BitVec 4) (s : State) (f : Ctx → Nat → Bool) : Host.Outcome State Fault Refusal :=
  issueWave i s fun c => c.maskResult p d.toNat (f c)

/-- The bits of operand A, of operand B, of an operand without sign forms, after sign forms and FTZ (R52, R53). -/
def Ctx.bitsA (c : Ctx) (p : Option Pfx) (t : Ty) (a : BitVec 7) (l : Nat) : Nat :=
  t.fmt.flush (pfxOf p).ftz (t.fmt.signForm (pfxOf p).na (pfxOf p).aa (c.elem t a.toNat l))
def Ctx.bitsB (c : Ctx) (p : Option Pfx) (t : Ty) (b : BitVec 7) (l : Nat) : Nat :=
  t.fmt.flush (pfxOf p).ftz (t.fmt.signForm (pfxOf p).nb (pfxOf p).ab (c.elem t b.toNat l))
/-- The addend of a lane: the FOP register, or D without a prefix (R120). -/
def Ctx.bitsC (c : Ctx) (p : Option Pfx) (t : Ty) (d : BitVec 7) (l : Nat) : Nat :=
  t.fmt.flush (pfxOf p).ftz (c.elem t (addendReg p d) l)

/-- Floating arithmetic: one exact operation, one rounding (R181). -/
def floatOp (i : Instr) (p : Option Pfx) (t : Ty) (d : BitVec 7) (s : State) (f : Ctx → Nat → Bool → Fl) :
    Host.Outcome State Fault Refusal :=
  vecOp i p t d s fun c l => let m := s.rnd p l; t.fmt.round m (pfxOf p).ftz false (f c l m.isRdn)

/-- Integer arithmetic on exact operands, wrapped or saturated (R54, R185). -/
def intOp (i : Instr) (p : Option Pfx) (t : Ty) (d a b : BitVec 7) (s : State) (f : Int → Int → Int → Int) :
    Host.Outcome State Fault Refusal :=
  vecOp i p t d s fun c l =>
    intResult t (pfxOf p).sat (f (intVal t (c.elem t a.toNat l)) (intVal t (c.elem t b.toNat l)) (intVal t (c.elem t (addendReg p d) l)))

/-- An operation on the raw bits of two sources. -/
def bitOp (i : Instr) (p : Option Pfx) (t : Ty) (d a b : BitVec 7) (s : State) (f : Nat → Nat → Nat) :
    Host.Outcome State Fault Refusal :=
  vecOp i p t d s fun c l => f (c.elem t a.toNat l) (c.elem t b.toNat l)

/-- An integral value in its own format, a zero keeping its sign (R183). -/
def integral (F : Fmt) (m : Rnd) (x : Fl) : Nat :=
  match x with
  | .fin s n d => F.round .rtz false false (.fin s (roundNat m s n d) 1)
  | y => F.round .rtz false false y

/-- The floating conditions eq, ne, lt, le, gt, ge, uo, ord (R191). -/
def floatCond (k : Nat) (a b : Fl) : Bool :=
  let u := a.isNan || b.isNan
  match k with
  | 0 => a.eq b
  | 1 => !a.eq b
  | 2 => a.lt b
  | 3 => !u && !b.lt a
  | 4 => b.lt a
  | 5 => !u && !a.lt b
  | 6 => u
  | _ => !u

/-! ## Floating-point arithmetic -/

/-- VADD (R181): round(a + b). -/
def execVadd (t : BitVec 2) (d a b : BitVec 7) (p : Option Pfx) (s : State) : Host.Outcome State Fault Refusal :=
  let y := tyD p (floatMajor t)
  floatOp (.vadd t d a b p) p y d s fun c l rdn => (y.fmt.value (c.bitsA p y a l)).add rdn (y.fmt.value (c.bitsB p y b l))

/-- VSUB (R181): round(a - b). -/
def execVsub (t : BitVec 2) (d a b : BitVec 7) (p : Option Pfx) (s : State) : Host.Outcome State Fault Refusal :=
  let y := tyD p (floatMajor t)
  floatOp (.vsub t d a b p) p y d s fun c l rdn => (y.fmt.value (c.bitsA p y a l)).add rdn (y.fmt.value (c.bitsB p y b l)).negate

/-- VMUL (R181): round(a * b). -/
def execVmul (t : BitVec 2) (d a b : BitVec 7) (p : Option Pfx) (s : State) : Host.Outcome State Fault Refusal :=
  let y := tyD p (floatMajor t)
  floatOp (.vmul t d a b p) p y d s fun c l _ => (y.fmt.value (c.bitsA p y a l)).mul (y.fmt.value (c.bitsB p y b l))

/-- VFMA (R181): round(a * b + c). -/
def execVfma (t : BitVec 2) (d a b : BitVec 7) (p : Option Pfx) (s : State) : Host.Outcome State Fault Refusal :=
  let y := tyD p (floatMajor t)
  floatOp (.vfma t d a b p) p y d s fun c l rdn => ((y.fmt.value (c.bitsA p y a l)).mul (y.fmt.value (c.bitsB p y b l))).add rdn (y.fmt.value (c.bitsC p y d l))

/-- VFMS (R181): round(a * b - c). -/
def execVfms (t : BitVec 2) (d a b : BitVec 7) (p : Option Pfx) (s : State) : Host.Outcome State Fault Refusal :=
  let y := tyD p (floatMajor t)
  floatOp (.vfms t d a b p) p y d s fun c l rdn => ((y.fmt.value (c.bitsA p y a l)).mul (y.fmt.value (c.bitsB p y b l))).add rdn (y.fmt.value (c.bitsC p y d l)).negate

/-- VMIN (R182). -/
def execVmin (t : BitVec 2) (d a b : BitVec 7) (p : Option Pfx) (s : State) : Host.Outcome State Fault Refusal :=
  let y := tyD p (floatMajor t)
  vecOp (.vmin t d a b p) p y d s fun c l => fminBits y.fmt false (c.bitsA p y a l) (c.bitsB p y b l)

/-- VMAX (R182). -/
def execVmax (t : BitVec 2) (d a b : BitVec 7) (p : Option Pfx) (s : State) : Host.Outcome State Fault Refusal :=
  let y := tyD p (floatMajor t)
  vecOp (.vmax t d a b p) p y d s fun c l => fminBits y.fmt true (c.bitsA p y a l) (c.bitsB p y b l)

/-- VRND (R183). -/
def execVrnd (t : BitVec 2) (d a : BitVec 7) (p : Option Pfx) (s : State) : Host.Outcome State Fault Refusal :=
  let y := tyD p (floatMajor t)
  vecOp (.vrnd t d a p) p y d s fun c l => integral y.fmt (s.rnd p l) (y.fmt.value (c.bitsA p y a l))

/-- VCMP on floats (R191). -/
def execVcmpF (t : BitVec 2) (d : BitVec 4) (a b : BitVec 7) (k : BitVec 3) (p : Option Pfx) (s : State) : Host.Outcome State Fault Refusal :=
  let y := tyD p (floatMajor t)
  maskOp (.vcmpF t d a b k p) p d s fun c l => floatCond k.toNat (y.fmt.value (c.bitsA p y a l)) (y.fmt.value (c.bitsB p y b l))

/-! ## Special functions (R184): long-latency, the results are there and complete later -/

/-- A special function `f` of type code `t` with lookahead count `n`. -/
def specialOp (i : Instr) (f : Sf) (t : BitVec 1) (d a : BitVec 7) (n : BitVec 4) (p : Option Pfx) (s : State) :
    Host.Outcome State Fault Refusal :=
  let y := tyD p (if t = 0 then .f32 else .f16)
  issue i s fun c =>
    let res := c.resultList p y d.toNat fun l =>
      f.eval y.fmt (if f = .sqrt then s.rnd p l else .rne) (pfxOf p).ftz (y.fmt.signForm (pfxOf p).na (pfxOf p).aa (c.elem y a.toNat l))
    .ok ((if f = .sqrt then s.drawn p 64 else s).pendNew c i n res [])

/-- VRCP (R59, R184). -/
def execVrcp (t : BitVec 1) (d a : BitVec 7) (l : BitVec 4) (p : Option Pfx) (s : State) : Host.Outcome State Fault Refusal :=
  specialOp (.vrcp t d a l p) .rcp t d a l p s
/-- VRSQ (R59, R184). -/
def execVrsq (t : BitVec 1) (d a : BitVec 7) (l : BitVec 4) (p : Option Pfx) (s : State) : Host.Outcome State Fault Refusal :=
  specialOp (.vrsq t d a l p) .rsq t d a l p s
/-- VSQRT (R59, R184). -/
def execVsqrt (t : BitVec 1) (d a : BitVec 7) (l : BitVec 4) (p : Option Pfx) (s : State) : Host.Outcome State Fault Refusal :=
  specialOp (.vsqrt t d a l p) .sqrt t d a l p s
/-- VEXP2 (R59, R184). -/
def execVexp2 (t : BitVec 1) (d a : BitVec 7) (l : BitVec 4) (p : Option Pfx) (s : State) : Host.Outcome State Fault Refusal :=
  specialOp (.vexp2 t d a l p) .exp2 t d a l p s
/-- VLOG2 (R59, R184). -/
def execVlog2 (t : BitVec 1) (d a : BitVec 7) (l : BitVec 4) (p : Option Pfx) (s : State) : Host.Outcome State Fault Refusal :=
  specialOp (.vlog2 t d a l p) .log2 t d a l p s
/-- VSIN (R59, R184). -/
def execVsin (t : BitVec 1) (d a : BitVec 7) (l : BitVec 4) (p : Option Pfx) (s : State) : Host.Outcome State Fault Refusal :=
  specialOp (.vsin t d a l p) .sin t d a l p s
/-- VCOS (R59, R184). -/
def execVcos (t : BitVec 1) (d a : BitVec 7) (l : BitVec 4) (p : Option Pfx) (s : State) : Host.Outcome State Fault Refusal :=
  specialOp (.vcos t d a l p) .cos t d a l p s
/-- VTANH (R59, R184). -/
def execVtanh (t : BitVec 1) (d a : BitVec 7) (l : BitVec 4) (p : Option Pfx) (s : State) : Host.Outcome State Fault Refusal :=
  specialOp (.vtanh t d a l p) .tanh t d a l p s

/-! ## Integer arithmetic -/

/-- VIADD (R185). -/
def execViadd (t : BitVec 2) (d a b : BitVec 7) (p : Option Pfx) (s : State) : Host.Outcome State Fault Refusal :=
  intOp (.viadd t d a b p) p (tyD p (intMajor t)) d a b s fun x y _ => x + y
/-- VISUB (R185). -/
def execVisub (t : BitVec 2) (d a b : BitVec 7) (p : Option Pfx) (s : State) : Host.Outcome State Fault Refusal :=
  intOp (.visub t d a b p) p (tyD p (intMajor t)) d a b s fun x y _ => x - y
/-- VIMUL (R185). -/
def execVimul (t : BitVec 2) (d a b : BitVec 7) (p : Option Pfx) (s : State) : Host.Outcome State Fault Refusal :=
  intOp (.vimul t d a b p) p (tyD p (intMajor t)) d a b s fun x y _ => x * y
/-- VIMULH (R185): the high half of the product. -/
def execVimulh (t : BitVec 2) (d a b : BitVec 7) (p : Option Pfx) (s : State) : Host.Outcome State Fault Refusal :=
  intOp (.vimulh t d a b p) p (tyD p (intMajor t)) d a b s fun x y _ => x * y / 2 ^ (tyD p (intMajor t)).bits
/-- VIMAD (R185): the addend is the FOP register, or D without a prefix. -/
def execVimad (t : BitVec 2) (d a b : BitVec 7) (p : Option Pfx) (s : State) : Host.Outcome State Fault Refusal :=
  intOp (.vimad t d a b p) p (tyD p (intMajor t)) d a b s fun x y z => x * y + z
/-- VIMIN (R185). -/
def execVimin (t : BitVec 2) (d a b : BitVec 7) (p : Option Pfx) (s : State) : Host.Outcome State Fault Refusal :=
  intOp (.vimin t d a b p) p (tyD p (intMajor t)) d a b s fun x y _ => min x y
/-- VIMAX (R185). -/
def execVimax (t : BitVec 2) (d a b : BitVec 7) (p : Option Pfx) (s : State) : Host.Outcome State Fault Refusal :=
  intOp (.vimax t d a b p) p (tyD p (intMajor t)) d a b s fun x y _ => max x y

/-- Shifts (R187): the count is b[7:0]. -/
def shlBits (n a b : Nat) : Nat := if n ≤ b % 256 then 0 else a * 2 ^ (b % 256) % 2 ^ n
def shrBits (n a b : Nat) : Nat := if n ≤ b % 256 then 0 else a / 2 ^ (b % 256)
def sraBits (n a b : Nat) : Nat :=
  let x : Int := if 2 ^ (n - 1) ≤ a then (a : Int) - 2 ^ n else a
  wrapInt n (x / 2 ^ (min (b % 256) n))

/-- VSHL (R187). -/
def execVshl (t : BitVec 2) (d a b : BitVec 7) (p : Option Pfx) (s : State) : Host.Outcome State Fault Refusal :=
  bitOp (.vshl t d a b p) p (tyD p (intMajor t)) d a b s (shlBits (tyD p (intMajor t)).bits)
/-- VSHR (R187). -/
def execVshr (t : BitVec 2) (d a b : BitVec 7) (p : Option Pfx) (s : State) : Host.Outcome State Fault Refusal :=
  bitOp (.vshr t d a b p) p (tyD p (intMajor t)) d a b s (shrBits (tyD p (intMajor t)).bits)
/-- VSRA (R187). -/
def execVsra (t : BitVec 2) (d a b : BitVec 7) (p : Option Pfx) (s : State) : Host.Outcome State Fault Refusal :=
  bitOp (.vsra t d a b p) p (tyD p (intMajor t)) d a b s (sraBits (tyD p (intMajor t)).bits)

/-- Offset and width of a field control (R188). -/
def fieldCtl (b : Nat) : Nat × Nat := (b % 32, min (b / 256 % 64) 32)
/-- The extracted field, sign-extended from its top bit under .i32 (R188). -/
def bfeBits (signed : Bool) (a b : Nat) : Nat :=
  let (o, w) := fieldCtl b
  let x := a / 2 ^ o % 2 ^ w
  if signed && w != 0 && decide (2 ^ (w - 1) ≤ x) then x + (2 ^ 32 - 2 ^ w) else x
/-- The inserted field: bits above bit 31 are dropped (R188). -/
def bfiBits (old a b : Nat) : Nat :=
  let (o, w) := fieldCtl b
  let m := (2 ^ w - 1) * 2 ^ o % 2 ^ 32
  let x := (a % 2 ^ w) * 2 ^ o % 2 ^ 32
  (old &&& (2 ^ 32 - 1 - m)) ||| (x &&& m)

/-- VBFE (R188). -/
def execVbfe (t : BitVec 2) (d a b : BitVec 7) (p : Option Pfx) (s : State) : Host.Outcome State Fault Refusal :=
  bitOp (.vbfe t d a b p) p (tyD p (intMajor t)) d a b s (bfeBits (tyD p (intMajor t)).signed)
/-- VBFI (R188). -/
def execVbfi (t : BitVec 2) (d a b : BitVec 7) (p : Option Pfx) (s : State) : Host.Outcome State Fault Refusal :=
  vecOp (.vbfi t d a b p) p (tyD p (intMajor t)) d s fun c l =>
    bfiBits (c.elem .b32 d.toNat l) (c.elem .b32 a.toNat l) (c.elem .b32 b.toNat l)
/-- VPOPC (R189). -/
def execVpopc (t : BitVec 2) (d a : BitVec 7) (p : Option Pfx) (s : State) : Host.Outcome State Fault Refusal :=
  bitOp (.vpopc t d a p) p (tyD p (intMajor t)) d a a s fun x _ => popN (tyD p (intMajor t)).bits x
/-- VCLZ (R189). -/
def execVclz (t : BitVec 2) (d a : BitVec 7) (p : Option Pfx) (s : State) : Host.Outcome State Fault Refusal :=
  bitOp (.vclz t d a p) p (tyD p (intMajor t)) d a a s fun x _ =>
    if x = 0 then (tyD p (intMajor t)).bits else (tyD p (intMajor t)).bits - 1 - x.log2

/-- The sum of the four byte products (R190). -/
def dot4 (t : Ty) (a b : Nat) : Int :=
  ((List.range 4).map fun j => intVal t (a / 256 ^ j) * intVal t (b / 256 ^ j)).foldl (· + ·) 0
/-- VDOT4 (R190). -/
def execVdot4 (d a b : BitVec 7) (p : Option Pfx) (s : State) : Host.Outcome State Fault Refusal :=
  let y := tyD p .i8
  let r : Ty := if y.signed then .i32 else .n32
  vecOp (.vdot4 d a b p) p .b32 d s fun c l =>
    intResult r (pfxOf p).sat (intVal r (c.elem .b32 (addendReg p d) l) + dot4 y (c.elem .b32 a.toNat l) (c.elem .b32 b.toNat l))

/-- VCMP on integers (R191). -/
def execVcmpI (t : BitVec 2) (d : BitVec 4) (a b : BitVec 7) (k : BitVec 3) (p : Option Pfx) (s : State) : Host.Outcome State Fault Refusal :=
  let y := tyD p (intMajor t)
  maskOp (.vcmpI t d a b k p) p d s fun c l => intCond k.toNat (intVal y (c.elem y a.toNat l)) (intVal y (c.elem y b.toNat l))

/-- VIADD with an immediate, whose low n bits are read in the type (R186). -/
def execViaddImm (d a : BitVec 7) (i : BitVec 12) (h : Option (BitVec 24)) (p : Option Pfx) (s : State) : Host.Outcome State Fault Refusal :=
  let y := tyD p .i32
  vecOp (.viaddImm d a i h p) p y d s fun c l =>
    intResult y (pfxOf p).sat (intVal y (c.elem y a.toNat l) + intVal y (riImm i h).toNat)
/-- VMOVI (R186). -/
def execVmovi (d : BitVec 7) (i : BitVec 12) (h : Option (BitVec 24)) (p : Option Pfx) (s : State) : Host.Outcome State Fault Refusal :=
  vecOp (.vmovi d i h p) p .b32 d s fun _ _ => (riImm i h).toNat

/-! ## Bitwise operations, moves and selection (R192) -/

/-- VAND. -/
def execVand (d a b : BitVec 7) (p : Option Pfx) (s : State) : Host.Outcome State Fault Refusal := bitOp (.vand d a b p) p .b32 d a b s (· &&& ·)
/-- VOR. -/
def execVor (d a b : BitVec 7) (p : Option Pfx) (s : State) : Host.Outcome State Fault Refusal := bitOp (.vor d a b p) p .b32 d a b s (· ||| ·)
/-- VXOR. -/
def execVxor (d a b : BitVec 7) (p : Option Pfx) (s : State) : Host.Outcome State Fault Refusal := bitOp (.vxor d a b p) p .b32 d a b s (· ^^^ ·)
/-- VNOT. -/
def execVnot (d a : BitVec 7) (p : Option Pfx) (s : State) : Host.Outcome State Fault Refusal := bitOp (.vnot d a p) p .b32 d a a s fun x _ => 2 ^ 32 - 1 - x
/-- VMOV. -/
def execVmov (d a : BitVec 7) (p : Option Pfx) (s : State) : Host.Outcome State Fault Refusal :=
  bitOp (.vmov d a p) p (tyD p .b32) d a a s fun x _ => x
/-- VSEL. -/
def execVsel (d a b : BitVec 7) (k : BitVec 4) (p : Option Pfx) (s : State) : Host.Outcome State Fault Refusal :=
  let y := tyD p .b32
  vecOp (.vsel d a b k p) p y d s fun c l => if bitAt (c.mask k.toNat) l then c.elem y a.toNat l else c.elem y b.toNat l

/-! ## Conversions (R193 to R196) -/

/-- The type of a code of a checked conversion. -/
def tyC (f : BitVec 5) : Ty := (Ty.ofCode f).getD .b32
/-- One conversion of a lane. -/
def State.conv (s : State) (p : Option Pfx) (src dst : Ty) (l x : Nat) : Nat := cvt src dst (s.rnd p l) (pfxOf p).ftz (pfxOf p).sat x

/-- VCVT (R194). -/
def execVcvt (d a : BitVec 7) (u f : BitVec 5) (p : Option Pfx) (s : State) : Host.Outcome State Fault Refusal :=
  vecOp (.vcvt d a u f p) p (tyC f) d s fun c l => s.conv p (tyC u) (tyC f) l (c.elem (tyC u) a.toNat l)
/-- VPACK (R195): each source of a lane rounds by itself. -/
def execVpack (d a b : BitVec 7) (f : BitVec 5) (p : Option Pfx) (s : State) : Host.Outcome State Fault Refusal :=
  let y := tyC f
  let src := tyD p (if y.isFloat then .f32 else .i32)
  issue (.vpack d a b f p) s fun c =>
    let g := fun l =>
      if y.bits = 8 then ((List.range 4).map fun j => s.conv p src y l (c.elem src (a.toNat + j) l) * 256 ^ j).foldl (· + ·) 0
      else s.conv p src y l (c.elem src a.toNat l) + 2 ^ 16 * s.conv p src y l (c.elem src b.toNat l)
    .ok ((s.drawn p 64).retire c (.vpack d a b f p) (c.result p .b32 d.toNat g))
/-- VUNPK (R196). -/
def execVunpk (d a : BitVec 7) (u : BitVec 5) (i : BitVec 2) (f : BitVec 5) (p : Option Pfx) (s : State) : Host.Outcome State Fault Refusal :=
  let src := tyC u
  vecOp (.vunpk d a u i f p) p (tyC f) d s fun c l =>
    s.conv p src (tyC f) l (c.elem .b32 a.toNat l / 2 ^ (i.toNat * src.bits) % 2 ^ src.bits)

end Sys2Proof.Machine
end

