-- ==== Sys2Proof/Machine/CrossLane.lean ====
section
/-!
DEFINITION. Cross-lane instructions (06 R197 to R202): each acts in windows of W = Wmin lanes, all inside the executing part.
-/
namespace Sys2Proof.Machine

/-- The first lane of the window of a lane (R197). -/
def windowBase (w l : Nat) : Nat := l / w * w

/-- A copy from lane `base(l) + idx l mod W` (R198, R199): 0 or LANE for a lane that is not readable. -/
def shuffle (i : Instr) (w : BitVec 3) (pz : Bool) (p : Option Pfx) (d a : BitVec 7) (s : State) (idx : Ctx → Nat → Nat) :
    Host.Outcome State Fault Refusal :=
  let y := tyD p .b32
  issue i s fun c =>
    let src := fun l => windowBase (wminOf w) l + idx c l % wminOf w
    let bad := (lanesOf (c.active p)).filter fun l => !bitAt (c.active p) (src l)
    if !pz && !bad.isEmpty then .error (c.trap cLane 0 0 0 (laneMask bad))
    else .ok (s.retire c i (c.result p y d.toNat fun l => if bitAt (c.active p) (src l) then c.elem y a.toNat (src l) else 0))

/-- VSHFL (R199): the index is B[l]. -/
def execVshfl (d a b : BitVec 7) (w : BitVec 3) (g : BitVec 1) (p : Option Pfx) (s : State) : Host.Outcome State Fault Refusal :=
  shuffle (.vshfl d a b w g p) w (g == 1) p d a s fun c l => (c.v b.toNat l).toNat
/-- VBCST (R199): the index is a constant or a scalar. -/
def execVbcst (d a b : BitVec 7) (w : BitVec 3) (g : BitVec 1) (p : Option Pfx) (s : State) : Host.Outcome State Fault Refusal :=
  shuffle (.vbcst d a b w g p) w (g == 1) p d a s fun c _ => if bitAt b 6 then (c.s (field b 0 6)).toNat else b.toNat

/-- VBALLOT (R200). -/
def execVballot (d : BitVec 5) (a : BitVec 4) (w : BitVec 3) (p : Option Pfx) (s : State) : Host.Outcome State Fault Refusal :=
  issueWave (.vballot d a w p) s fun c => c.putS64 c.w (2 * d.toNat) (c.active p &&& c.mask a.toNat)

/-- VCONF (R201): an earlier lane of the window holds the same element. -/
def execVconf (d : BitVec 4) (a : BitVec 7) (w : BitVec 3) (p : Option Pfx) (s : State) : Host.Outcome State Fault Refusal :=
  let y := tyD p .b32
  maskOp (.vconf d a w p) p d s fun c l =>
    (lanesOf (c.active p)).any fun j => decide (windowBase (wminOf w) l ≤ j) && decide (j < l) && c.elem y a.toNat j == c.elem y a.toNat l

/-! ## Reductions and scans (R202) -/

/-- What `comb` needs: operation, type, prefix. -/
structure Comb where
  op : Nat
  ty : Ty
  ftz : Bool
  sat : Bool
  deriving DecidableEq, Repr

/-- `comb` of two values that are there, rounding in mode `m`. -/
def Comb.both (k : Comb) (m : Rnd) (p q : Nat) : Nat :=
  let F := k.ty.fmt
  match k.op with
  | 0 => if k.ty.isFloat then F.round m k.ftz false ((F.read k.ftz p).add m.isRdn (F.read k.ftz q)) else intResult k.ty k.sat (intVal k.ty p + intVal k.ty q)
  | 1 => if k.ty.isFloat then fminBits F false (F.flush k.ftz p) (F.flush k.ftz q) else if intVal k.ty q < intVal k.ty p then q else p
  | 2 => if k.ty.isFloat then fminBits F true (F.flush k.ftz p) (F.flush k.ftz q) else if intVal k.ty p < intVal k.ty q then q else p
  | 3 => p &&& q
  | 4 => p ||| q
  | _ => p ^^^ q

/-- `comb`; `none` is ABSENT. -/
def Comb.comb (k : Comb) (m : Rnd) : Option Nat → Option Nat → Option Nat
  | none, q => q
  | p, none => p
  | some p, some q => some (k.both m p q)

/-- The identity of the operation. -/
def Comb.ident (k : Comb) : Nat :=
  let F := k.ty.fmt
  match k.op with
  | 1 => if k.ty.isFloat then F.infBits else wrapInt k.ty.bits k.ty.hi
  | 2 => if k.ty.isFloat then F.signed true F.infBits else wrapInt k.ty.bits k.ty.lo
  | 3 => 2 ^ k.ty.bits - 1
  | _ => 0

/-- The steps of WRED from distance `s` on; `rnd j i` is the mode of the comb at index i of step j. -/
def Comb.reduce (k : Comb) (rnd : Nat → Nat → Rnd) : Nat → Nat → Nat → List (Option Nat) → List (Option Nat)
  | 0, _, _, xs => xs
  | n + 1, j, s, xs =>
    k.reduce rnd n (j + 1) (2 * s) (xs.mapIdx fun i x => if i % (2 * s) = 0 then k.comb (rnd j i) x ((xs[i + s]?).getD none) else x)

/-- The steps of WSCAN from distance `s` on. -/
def Comb.scan (k : Comb) (rnd : Nat → Nat → Rnd) : Nat → Nat → Nat → List (Option Nat) → List (Option Nat)
  | 0, _, _, xs => xs
  | n + 1, j, s, xs =>
    k.scan rnd n (j + 1) (2 * s) (xs.mapIdx fun i x => if i < s then x else k.comb (rnd j i) ((xs[i - s]?).getD none) x)

/-- The operation of an instruction. -/
def combOf (o : BitVec 3) (p : Option Pfx) : Comb := { op := o.toNat, ty := tyD p .i32, ftz := (pfxOf p).ftz, sat := (pfxOf p).sat }

/-- An operand as it is read: FTZ flushes every binary32 operand (R53), and a NaN operand of ADD, MIN or MAX is the canonical one, also where it
meets only ABSENT (R52). -/
def Comb.input (k : Comb) (x : Nat) : Nat :=
  if !k.ty.isFloat then x
  else if decide (k.op ≤ 2) && (k.ty.fmt.value x).isNan then k.ty.fmt.nanBits
  else k.ty.fmt.flush k.ftz x

/-- The inputs of the window at `base` (R202). -/
def Ctx.window (c : Ctx) (p : Option Pfx) (k : Comb) (a : BitVec 7) (base w : Nat) : List (Option Nat) :=
  (List.range w).map fun i => if bitAt (c.active p) (base + i) then some (k.input (c.elem k.ty a.toNat (base + i))) else none

/-- The results of the windows of the part, by lane. -/
def perWindow (w : Nat) (f : Nat → List (Option Nat)) : List (List (Option Nat)) := (List.range (64 / w)).map fun b => f (b * w)

/-- WRED (R202). -/
def execWred (d a : BitVec 7) (o w : BitVec 3) (p : Option Pfx) (s : State) : Host.Outcome State Fault Refusal :=
  let i := Instr.wred d a o w p
  let k := combOf o p
  let n := wminOf w
  issue i s fun c =>
    let xs := perWindow n fun b => k.reduce (fun j i => s.rnd p (64 * j + b + i)) (n.log2) 0 1 (c.window p k a b n)
    .ok ((s.drawn p 384).retire c i (c.result p k.ty d.toNat fun l => ((((xs[l / n]?).getD []).headD none).getD 0)))

/-- WSCAN (R202). -/
def execWscan (d a : BitVec 7) (o : BitVec 3) (e : BitVec 1) (w : BitVec 3) (p : Option Pfx) (s : State) : Host.Outcome State Fault Refusal :=
  let i := Instr.wscan d a o e w p
  let k := combOf o p
  let n := wminOf w
  issue i s fun c =>
    let ys := perWindow n fun b => k.scan (fun j i => s.rnd p (64 * j + b + i)) (n.log2) 0 1 (c.window p k a b n)
    let at' := fun (l j : Nat) => ((((ys[l / n]?).getD [])[j]?).getD none)
    .ok ((s.drawn p 384).retire c i (c.result p k.ty d.toNat fun l =>
      if e = 0 then (at' l (l % n)).getD 0 else if l % n = 0 then k.ident else (at' l (l % n - 1)).getD k.ident))

end Sys2Proof.Machine
end

