-- ==== Sys2Proof/Machine/Rays.lean ====
section
/-!
DEFINITION. Ray tests (09 R292 to R294).
-/
namespace Sys2Proof.Machine

/-- A vector of three binary32 values. -/
structure Vec3 where
  x : Nat
  y : Nat
  z : Nat
  deriving DecidableEq, Repr

def Vec3.sub (a b : Vec3) : Vec3 := ⟨f32sub a.x b.x, f32sub a.y b.y, f32sub a.z b.z⟩
/-- cross(a, b), as R294 writes it. -/
def Vec3.cross (a b : Vec3) : Vec3 :=
  ⟨f32sub (f32mul a.y b.z) (f32mul a.z b.y), f32sub (f32mul a.z b.x) (f32mul a.x b.z), f32sub (f32mul a.x b.y) (f32mul a.y b.x)⟩
/-- dot(a, b), as R294 writes it. -/
def Vec3.dot (a b : Vec3) : Nat := f32add (f32add (f32mul a.x b.x) (f32mul a.y b.y)) (f32mul a.z b.z)

/-- a ≤ b; false on a NaN. -/
def f32le (a b : Nat) : Bool := let x := f32v a; let y := f32v b; x.lt y || x.eq y

/-- A ray: origin, direction, tmax. -/
structure Ray where
  o : Vec3
  d : Vec3
  tmax : Nat
  deriving DecidableEq, Repr

/-- The ray block of a lane. -/
def Ctx.ray (c : Ctx) (r ln : Nat) : Ray :=
  let v := fun (k : Nat) => (c.v (r + k) ln).toNat
  ⟨⟨v 0, v 1, v 2⟩, ⟨v 3, v 4, v 5⟩, v 6⟩

/-- Word `k` of a record. -/
def recWord (bs : List Byte) (k : Nat) : Nat := ofBytes ((bs.drop (4 * k)).take 4)

/-- Near and far distances of one axis (R293). -/
def slab (lo hi o d : Nat) : Nat × Nat :=
  let inv := f32div f32one d
  let t1 := f32mul (f32sub lo o) inv
  let t2 := f32mul (f32sub hi o) inv
  (f32min t1 t2, f32max t1 t2)

/-- Box `j` of a node: whether it is hit, and tn. -/
def boxTest (bs : List Byte) (r : Ray) (j : Nat) : Bool × Nat :=
  let w := fun (k : Nat) => recWord bs (6 * j + k)
  let x := slab (w 0) (w 3) r.o.x r.d.x
  let y := slab (w 1) (w 4) r.o.y r.d.y
  let z := slab (w 2) (w 5) r.o.z r.d.z
  let tn := f32max (f32max (f32max 0 x.1) y.1) z.1
  let tf := f32min (f32min (f32min r.tmax x.2) y.2) z.2
  (((bs[112]?).getD 0).getLsbD j && f32le tn tf, tn)

/-- The eight results of RBOX. -/
def boxResults (bs : List Byte) (r : Ray) : List Word :=
  let ts := (List.range 4).map fun j => (j, boxTest bs r j)
  let hits := sortBy (fun (a b : Nat × Bool × Nat) => !(f32v b.2.2).lt (f32v a.2.2)) (ts.filter fun t => t.2.1)
  let misses := ts.filter fun t => !t.2.1
  (hits.map fun t => BitVec.ofNat 32 t.2.2) ++ (misses.map fun _ => BitVec.ofNat 32 f32inf) ++
    (hits.map fun t => BitVec.ofNat 32 (recWord bs (24 + t.1))) ++ misses.map fun _ => 0xffffffff

/-- The eight results of RTRI. -/
def triResults (bs : List Byte) (r : Ray) : List Word :=
  let p := fun (k : Nat) => (⟨recWord bs (3 * k), recWord bs (3 * k + 1), recWord bs (3 * k + 2)⟩ : Vec3)
  let e1 := (p 1).sub (p 0)
  let e2 := (p 2).sub (p 0)
  let q := r.d.cross e2
  let det := e1.dot q
  let s := r.o.sub (p 0)
  let u := s.cross e1
  let inv := f32div f32one det
  let b1 := f32mul (s.dot q) inv
  let b2 := f32mul (r.d.dot u) inv
  let t := f32mul (e2.dot u) inv
  let nz := !(f32v det).isNan && !(f32v det).isZero
  let hit := nz && f32le 0 b1 && f32le 0 b2 && f32le (f32add b1 b2) f32one && f32le 0 t && f32le t r.tmax
  let neg := (f32v det).lt .zero
  let w := BitVec.ofNat 32
  [w (if hit then t else f32inf), w (if hit then b1 else 0), w (if hit then b2 else 0), w (recWord bs 9),
   w ((if hit then 1 else 0) + if neg then 2 else 0), 0, 0, 0]

/-- A ray test: `n` bytes at the lane's address, a multiple of `al`. -/
def rayTest (i : Instr) (r : BitVec 3) (n : BitVec 6) (l : BitVec 4) (len al : Nat) (f : List Byte → Ray → List Word) (s : State) :
    Host.Outcome State Fault Refusal :=
  issue i s fun c =>
    let base := 16 * r.toNat
    let (s1, ps) := s.fetchNow c fun t v => (lanesOf (c.m0 &&& ~~~c.aux.done)).map fun ln =>
      let va := (pair64 (c.v (2 * n.toNat) ln) (c.v (2 * n.toNat + 1) ln)).toNat
      (ln, if va % al ≠ 0 then (.error ⟨rkAlign, cAlign, va, false⟩, []) else (t.take v va len).eval)
    s1.lanewise c i ps fun q ls =>
      (s1.pendAdd c i q l (ls.flatMap fun x => (f x.2 (c.ray base x.1)).mapIdx fun k y => (64 * (base + 8 + k) + x.1, y)) []).2

/-- RBOX (R293). -/
def execRbox (r : BitVec 3) (n : BitVec 6) (l : BitVec 4) (s : State) : Host.Outcome State Fault Refusal :=
  rayTest (.rbox r n l) r n l 128 128 boxResults s
/-- RTRI (R294). -/
def execRtri (r : BitVec 3) (n : BitVec 6) (l : BitVec 4) (s : State) : Host.Outcome State Fault Refusal :=
  rayTest (.rtri r n l) r n l 40 16 triResults s

end Sys2Proof.Machine
end

