-- ==== Sys2Proof/Machine/Scalar.lean ====
section
/-!
DEFINITION. Scalar arithmetic (05 R164, R165) and mask operations (06 R203). Sources are read before any write.
-/
namespace Sys2Proof.Machine

/-- A scalar operation with two sources: `f` of them goes to every copy of s[d]. -/
def scalar2 (i : Instr) (d a b : BitVec 6) (f : Word → Word → Word) (s : State) : Host.Outcome State Fault Refusal :=
  issueWave i s fun c => c.putS c.w d.toNat (f (c.s a.toNat) (c.s b.toNat))

/-- A scalar operation with one source. -/
def scalar1 (i : Instr) (d a : BitVec 6) (f : Word → Word) (s : State) : Host.Outcome State Fault Refusal :=
  issueWave i s fun c => c.putS c.w d.toNat (f (c.s a.toNat))

/-- SADD: a + b. -/
def execSadd (d a b : BitVec 6) (s : State) : Host.Outcome State Fault Refusal := scalar2 (.sadd d a b) d a b (fun a b => a + b) s
/-- SSUB: a - b. -/
def execSsub (d a b : BitVec 6) (s : State) : Host.Outcome State Fault Refusal := scalar2 (.ssub d a b) d a b (fun a b => a - b) s
/-- SMUL: the low 32 bits of a * b. -/
def execSmul (d a b : BitVec 6) (s : State) : Host.Outcome State Fault Refusal := scalar2 (.smul d a b) d a b (fun a b => a * b) s
/-- SMULH: bits [63:32] of the signed product. -/
def execSmulh (d a b : BitVec 6) (s : State) : Host.Outcome State Fault Refusal := scalar2 (.smulh d a b) d a b (fun a b => bits (a.signExtend 64 * b.signExtend 64) 32 32) s
/-- SMULH.n32: bits [63:32] of the unsigned product. -/
def execSmulhN32 (d a b : BitVec 6) (s : State) : Host.Outcome State Fault Refusal := scalar2 (.smulhN32 d a b) d a b (fun a b => bits (a.setWidth 64 * b.setWidth 64) 32 32) s
/-- SAND. -/
def execSand (d a b : BitVec 6) (s : State) : Host.Outcome State Fault Refusal := scalar2 (.sand d a b) d a b (fun a b => a &&& b) s
/-- SOR. -/
def execSor (d a b : BitVec 6) (s : State) : Host.Outcome State Fault Refusal := scalar2 (.sor d a b) d a b (fun a b => a ||| b) s
/-- SXOR. -/
def execSxor (d a b : BitVec 6) (s : State) : Host.Outcome State Fault Refusal := scalar2 (.sxor d a b) d a b (fun a b => a ^^^ b) s
/-- SSHL: shift left by b[4:0]. -/
def execSshl (d a b : BitVec 6) (s : State) : Host.Outcome State Fault Refusal := scalar2 (.sshl d a b) d a b (fun a b => a <<< (bits b 0 5).toNat) s
/-- SSHR: logical shift right by b[4:0]. -/
def execSshr (d a b : BitVec 6) (s : State) : Host.Outcome State Fault Refusal := scalar2 (.sshr d a b) d a b (fun a b => a >>> (bits b 0 5).toNat) s
/-- SSRA: arithmetic shift right by b[4:0]. -/
def execSsra (d a b : BitVec 6) (s : State) : Host.Outcome State Fault Refusal := scalar2 (.ssra d a b) d a b (fun a b => a.sshiftRight (bits b 0 5).toNat) s
/-- SMIN: the signed minimum. -/
def execSmin (d a b : BitVec 6) (s : State) : Host.Outcome State Fault Refusal := scalar2 (.smin d a b) d a b (fun a b => if ltS b a then b else a) s
/-- SMIN.n32: the unsigned minimum. -/
def execSminN32 (d a b : BitVec 6) (s : State) : Host.Outcome State Fault Refusal := scalar2 (.sminN32 d a b) d a b (fun a b => if ltU b a then b else a) s
/-- SMAX: the signed maximum. -/
def execSmax (d a b : BitVec 6) (s : State) : Host.Outcome State Fault Refusal := scalar2 (.smax d a b) d a b (fun a b => if ltS a b then b else a) s
/-- SMAX.n32: the unsigned maximum. -/
def execSmaxN32 (d a b : BitVec 6) (s : State) : Host.Outcome State Fault Refusal := scalar2 (.smaxN32 d a b) d a b (fun a b => if ltU a b then b else a) s
/-- SCMP.eq. -/
def execScmpEq (d a b : BitVec 6) (s : State) : Host.Outcome State Fault Refusal := scalar2 (.scmpEq d a b) d a b (fun a b => flagWord (a == b)) s
/-- SCMP.ne. -/
def execScmpNe (d a b : BitVec 6) (s : State) : Host.Outcome State Fault Refusal := scalar2 (.scmpNe d a b) d a b (fun a b => flagWord (a != b)) s
/-- SCMP.lt. -/
def execScmpLt (d a b : BitVec 6) (s : State) : Host.Outcome State Fault Refusal := scalar2 (.scmpLt d a b) d a b (fun a b => flagWord (ltS a b)) s
/-- SCMP.le. -/
def execScmpLe (d a b : BitVec 6) (s : State) : Host.Outcome State Fault Refusal := scalar2 (.scmpLe d a b) d a b (fun a b => flagWord (leS a b)) s
/-- SCMP.lt.n32. -/
def execScmpLtN32 (d a b : BitVec 6) (s : State) : Host.Outcome State Fault Refusal := scalar2 (.scmpLtN32 d a b) d a b (fun a b => flagWord (ltU a b)) s
/-- SCMP.le.n32. -/
def execScmpLeN32 (d a b : BitVec 6) (s : State) : Host.Outcome State Fault Refusal := scalar2 (.scmpLeN32 d a b) d a b (fun a b => flagWord (leU a b)) s
/-- SMOV. -/
def execSmov (d a : BitVec 6) (s : State) : Host.Outcome State Fault Refusal := scalar1 (.smov d a) d a (fun a => a) s
/-- SSEL: a if s[D] is not 0, else b; s[D] is condition and result. -/
def execSsel (d a b : BitVec 6) (s : State) : Host.Outcome State Fault Refusal :=
  issueWave (.ssel d a b) s fun c => c.putS c.w d.toNat (if c.s d.toNat != 0 then c.s a.toNat else c.s b.toNat)
/-- SSHL by the count in the word. -/
def execSshlImm (d a : BitVec 6) (n : BitVec 5) (s : State) : Host.Outcome State Fault Refusal := scalar1 (.sshlImm d a n) d a (fun a => a <<< n.toNat) s
/-- SSHR by the count in the word. -/
def execSshrImm (d a : BitVec 6) (n : BitVec 5) (s : State) : Host.Outcome State Fault Refusal := scalar1 (.sshrImm d a n) d a (fun a => a >>> n.toNat) s
/-- SSRA by the count in the word. -/
def execSsraImm (d a : BitVec 6) (n : BitVec 5) (s : State) : Host.Outcome State Fault Refusal := scalar1 (.ssraImm d a n) d a (fun a => a.sshiftRight n.toNat) s
/-- SADD.b64 on pairs. -/
def execSaddB64 (d a b : BitVec 5) (s : State) : Host.Outcome State Fault Refusal :=
  issueWave (.saddB64 d a b) s fun c => c.putS64 c.w (2 * d.toNat) (c.sp a + c.sp b)
/-- SSUB.b64 on pairs. -/
def execSsubB64 (d a b : BitVec 5) (s : State) : Host.Outcome State Fault Refusal :=
  issueWave (.ssubB64 d a b) s fun c => c.putS64 c.w (2 * d.toNat) (c.sp a - c.sp b)
/-- SMOV.b64 on pairs. -/
def execSmovB64 (d a : BitVec 5) (s : State) : Host.Outcome State Fault Refusal :=
  issueWave (.smovB64 d a) s fun c => c.putS64 c.w (2 * d.toNat) (c.sp a)
/-- SADD with an immediate. -/
def execSaddImm (d a : BitVec 6) (o : BitVec 12) (h : Option (BitVec 24)) (s : State) : Host.Outcome State Fault Refusal :=
  scalar1 (.saddImm d a o h) d a (fun a => a + riImm o h) s
/-- SAND with an immediate. -/
def execSandImm (d a : BitVec 6) (o : BitVec 12) (h : Option (BitVec 24)) (s : State) : Host.Outcome State Fault Refusal :=
  scalar1 (.sandImm d a o h) d a (fun a => a &&& riImm o h) s
/-- SOR with an immediate. -/
def execSorImm (d a : BitVec 6) (o : BitVec 12) (h : Option (BitVec 24)) (s : State) : Host.Outcome State Fault Refusal :=
  scalar1 (.sorImm d a o h) d a (fun a => a ||| riImm o h) s
/-- SXOR with an immediate. -/
def execSxorImm (d a : BitVec 6) (o : BitVec 12) (h : Option (BitVec 24)) (s : State) : Host.Outcome State Fault Refusal :=
  scalar1 (.sxorImm d a o h) d a (fun a => a ^^^ riImm o h) s
/-- SLI: the immediate. -/
def execSli (d : BitVec 6) (o : BitVec 12) (h : Option (BitVec 24)) (s : State) : Host.Outcome State Fault Refusal :=
  issueWave (.sli d o h) s fun c => c.putS c.w d.toNat (riImm o h)

/-! ## Mask operations (R203): only positions of the lanes of m0 are written -/

/-- A mask operation with two sources. -/
def mask2 (i : Instr) (d a b : BitVec 4) (f : Lanes → Lanes → Lanes) (s : State) : Host.Outcome State Fault Refusal :=
  issueWave i s fun c => c.w.putMask d.toNat c.m0 (f (c.mask a.toNat) (c.mask b.toNat))

/-- MAND. -/
def execMand (d a b : BitVec 4) (s : State) : Host.Outcome State Fault Refusal := mask2 (.mand d a b) d a b (fun a b => a &&& b) s
/-- MOR. -/
def execMor (d a b : BitVec 4) (s : State) : Host.Outcome State Fault Refusal := mask2 (.mor d a b) d a b (fun a b => a ||| b) s
/-- MXOR. -/
def execMxor (d a b : BitVec 4) (s : State) : Host.Outcome State Fault Refusal := mask2 (.mxor d a b) d a b (fun a b => a ^^^ b) s
/-- MNOT. -/
def execMnot (d a : BitVec 4) (s : State) : Host.Outcome State Fault Refusal :=
  issueWave (.mnot d a) s fun c => c.w.putMask d.toNat c.m0 (~~~c.mask a.toNat)
/-- MMOV mask to mask. -/
def execMmovMm (d a : BitVec 4) (s : State) : Host.Outcome State Fault Refusal :=
  issueWave (.mmovMm d a) s fun c => c.w.putMask d.toNat c.m0 (c.mask a.toNat)
/-- MPOPC: the number of lanes of m0 that are set. -/
def execMpopc (d : BitVec 6) (a : BitVec 4) (s : State) : Host.Outcome State Fault Refusal :=
  issueWave (.mpopc d a) s fun c => c.putS c.w d.toNat (BitVec.ofNat 32 (lanesOf (c.mask a.toNat &&& c.m0)).length)
/-- MFFS: the lowest such lane, or all ones. -/
def execMffs (d : BitVec 6) (a : BitVec 4) (s : State) : Host.Outcome State Fault Refusal :=
  issueWave (.mffs d a) s fun c => c.putS c.w d.toNat
    (match (lanesOf (c.mask a.toNat &&& c.m0)).head? with | some l => BitVec.ofNat 32 l | none => 0xffffffff)
/-- MMOV mask to scalar pair. -/
def execMmovMs (d : BitVec 5) (a : BitVec 4) (s : State) : Host.Outcome State Fault Refusal :=
  issueWave (.mmovMs d a) s fun c => c.putS64 c.w (2 * d.toNat) (c.mask a.toNat &&& c.m0)
/-- MMOV scalar pair to mask. -/
def execMmovSm (d : BitVec 4) (a : BitVec 5) (s : State) : Host.Outcome State Fault Refusal :=
  issueWave (.mmovSm d a) s fun c => c.w.putMask d.toNat c.m0 (c.sp a)

end Sys2Proof.Machine
end

