-- ==== Sys2Proof/Machine/Dispatch.lean ====
section
/-!
DEFINITION. The one dispatch: every instruction and every event to its meaning.
-/
namespace Sys2Proof.Machine

def exec (i : Instr) (s : State) : Host.Outcome State Fault Refusal :=
  match i with
  | .nop => Sys2Proof.Machine.execNop s
  | .exit => Sys2Proof.Machine.execExit s
  | .ret a => Sys2Proof.Machine.execRet a s
  | .join => Sys2Proof.Machine.execJoin s
  | .fuse => Sys2Proof.Machine.execFuse s
  | .trap c => Sys2Proof.Machine.execTrap c s
  | .rte => Sys2Proof.Machine.execRte s
  | .srd d n => Sys2Proof.Machine.execSrd d n s
  | .swr a n => Sys2Proof.Machine.execSwr a n s
  | .splrd d e w => Sys2Proof.Machine.execSplrd d e w s
  | .splwr a e w => Sys2Proof.Machine.execSplwr a e w s
  | .cfetch a r => Sys2Proof.Machine.execCfetch a r s
  | .cwait r => Sys2Proof.Machine.execCwait r s
  | .rgnEnter n0 => Sys2Proof.Machine.execRgnEnter n0 s
  | .rgnLeave n0 => Sys2Proof.Machine.execRgnLeave n0 s
  | .prog n0 => Sys2Proof.Machine.execProg n0 s
  | .bkpt c => Sys2Proof.Machine.execBkpt c s
  | .sleep a => Sys2Proof.Machine.execSleep a s
  | .evsig a q => Sys2Proof.Machine.execEvsig a q s
  | .fence k r => Sys2Proof.Machine.execFence k r s
  | .bar b => Sys2Proof.Machine.execBar b s
  | .barx a b => Sys2Proof.Machine.execBarx a b s
  | .bart d b => Sys2Proof.Machine.execBart d b s
  | .cbar k => Sys2Proof.Machine.execCbar k s
  | .mon a n => Sys2Proof.Machine.execMon a n s
  | .monw a => Sys2Proof.Machine.execMonw a s
  | .monwG a => Sys2Proof.Machine.execMonwG a s
  | .monc n => Sys2Proof.Machine.execMonc n s
  | .cpya a b => Sys2Proof.Machine.execCpya a b s
  | .bra o x => Sys2Proof.Machine.execBra o x s
  | .brc c r o x => Sys2Proof.Machine.execBrc c r o x s
  | .call d o x => Sys2Proof.Machine.execCall d o x s
  | .jmpf r o => Sys2Proof.Machine.execJmpf r o s
  | .brd k t j x => Sys2Proof.Machine.execBrd k t j x s
  | .wideImmediateHint w => Sys2Proof.Machine.execWideImmediateHint w s
  | .branchExtensionHint t j => Sys2Proof.Machine.execBranchExtensionHint t j s
  | .hintYield n => Sys2Proof.Machine.execHintYield n s
  | .hintUniform => Sys2Proof.Machine.execHintUniform s
  | .dict n0 j => Sys2Proof.Machine.execDict n0 j s
  | .sadd d a b => Sys2Proof.Machine.execSadd d a b s
  | .ssub d a b => Sys2Proof.Machine.execSsub d a b s
  | .smul d a b => Sys2Proof.Machine.execSmul d a b s
  | .smulh d a b => Sys2Proof.Machine.execSmulh d a b s
  | .smulhN32 d a b => Sys2Proof.Machine.execSmulhN32 d a b s
  | .sand d a b => Sys2Proof.Machine.execSand d a b s
  | .sor d a b => Sys2Proof.Machine.execSor d a b s
  | .sxor d a b => Sys2Proof.Machine.execSxor d a b s
  | .sshl d a b => Sys2Proof.Machine.execSshl d a b s
  | .sshr d a b => Sys2Proof.Machine.execSshr d a b s
  | .ssra d a b => Sys2Proof.Machine.execSsra d a b s
  | .smin d a b => Sys2Proof.Machine.execSmin d a b s
  | .sminN32 d a b => Sys2Proof.Machine.execSminN32 d a b s
  | .smax d a b => Sys2Proof.Machine.execSmax d a b s
  | .smaxN32 d a b => Sys2Proof.Machine.execSmaxN32 d a b s
  | .smov d a => Sys2Proof.Machine.execSmov d a s
  | .ssel d a b => Sys2Proof.Machine.execSsel d a b s
  | .scmpEq d a b => Sys2Proof.Machine.execScmpEq d a b s
  | .scmpNe d a b => Sys2Proof.Machine.execScmpNe d a b s
  | .scmpLt d a b => Sys2Proof.Machine.execScmpLt d a b s
  | .scmpLe d a b => Sys2Proof.Machine.execScmpLe d a b s
  | .scmpLtN32 d a b => Sys2Proof.Machine.execScmpLtN32 d a b s
  | .scmpLeN32 d a b => Sys2Proof.Machine.execScmpLeN32 d a b s
  | .saddB64 d a b => Sys2Proof.Machine.execSaddB64 d a b s
  | .ssubB64 d a b => Sys2Proof.Machine.execSsubB64 d a b s
  | .smovB64 d a => Sys2Proof.Machine.execSmovB64 d a s
  | .sshlImm d a n => Sys2Proof.Machine.execSshlImm d a n s
  | .sshrImm d a n => Sys2Proof.Machine.execSshrImm d a n s
  | .ssraImm d a n => Sys2Proof.Machine.execSsraImm d a n s
  | .saddImm d a n0 h => Sys2Proof.Machine.execSaddImm d a n0 h s
  | .sli d n0 h => Sys2Proof.Machine.execSli d n0 h s
  | .sandImm d a n0 h => Sys2Proof.Machine.execSandImm d a n0 h s
  | .sorImm d a n0 h => Sys2Proof.Machine.execSorImm d a n0 h s
  | .sxorImm d a n0 h => Sys2Proof.Machine.execSxorImm d a n0 h s
  | .sld d b l m h => Sys2Proof.Machine.execSld d b l m h s
  | .sst d b m h => Sys2Proof.Machine.execSst d b m h s
  | .vadd t d a b p => Sys2Proof.Machine.execVadd t d a b p s
  | .vsub t d a b p => Sys2Proof.Machine.execVsub t d a b p s
  | .vmul t d a b p => Sys2Proof.Machine.execVmul t d a b p s
  | .vfma t d a b p => Sys2Proof.Machine.execVfma t d a b p s
  | .vfms t d a b p => Sys2Proof.Machine.execVfms t d a b p s
  | .vmin t d a b p => Sys2Proof.Machine.execVmin t d a b p s
  | .vmax t d a b p => Sys2Proof.Machine.execVmax t d a b p s
  | .vrnd t d a p => Sys2Proof.Machine.execVrnd t d a p s
  | .vcmpF t d a b c p => Sys2Proof.Machine.execVcmpF t d a b c p s
  | .vrcp t d a l p => Sys2Proof.Machine.execVrcp t d a l p s
  | .vrsq t d a l p => Sys2Proof.Machine.execVrsq t d a l p s
  | .vsqrt t d a l p => Sys2Proof.Machine.execVsqrt t d a l p s
  | .vexp2 t d a l p => Sys2Proof.Machine.execVexp2 t d a l p s
  | .vlog2 t d a l p => Sys2Proof.Machine.execVlog2 t d a l p s
  | .vsin t d a l p => Sys2Proof.Machine.execVsin t d a l p s
  | .vcos t d a l p => Sys2Proof.Machine.execVcos t d a l p s
  | .vtanh t d a l p => Sys2Proof.Machine.execVtanh t d a l p s
  | .viadd t d a b p => Sys2Proof.Machine.execViadd t d a b p s
  | .visub t d a b p => Sys2Proof.Machine.execVisub t d a b p s
  | .vimul t d a b p => Sys2Proof.Machine.execVimul t d a b p s
  | .vimulh t d a b p => Sys2Proof.Machine.execVimulh t d a b p s
  | .vimad t d a b p => Sys2Proof.Machine.execVimad t d a b p s
  | .vimin t d a b p => Sys2Proof.Machine.execVimin t d a b p s
  | .vimax t d a b p => Sys2Proof.Machine.execVimax t d a b p s
  | .vshl t d a b p => Sys2Proof.Machine.execVshl t d a b p s
  | .vshr t d a b p => Sys2Proof.Machine.execVshr t d a b p s
  | .vsra t d a b p => Sys2Proof.Machine.execVsra t d a b p s
  | .vbfe t d a b p => Sys2Proof.Machine.execVbfe t d a b p s
  | .vbfi t d a b p => Sys2Proof.Machine.execVbfi t d a b p s
  | .vpopc t d a p => Sys2Proof.Machine.execVpopc t d a p s
  | .vclz t d a p => Sys2Proof.Machine.execVclz t d a p s
  | .vdot4 d a b p => Sys2Proof.Machine.execVdot4 d a b p s
  | .vcmpI t d a b c p => Sys2Proof.Machine.execVcmpI t d a b c p s
  | .viaddImm d a n0 h p => Sys2Proof.Machine.execViaddImm d a n0 h p s
  | .vmovi d n0 h p => Sys2Proof.Machine.execVmovi d n0 h p s
  | .vand d a b p => Sys2Proof.Machine.execVand d a b p s
  | .vor d a b p => Sys2Proof.Machine.execVor d a b p s
  | .vxor d a b p => Sys2Proof.Machine.execVxor d a b p s
  | .vnot d a p => Sys2Proof.Machine.execVnot d a p s
  | .vmov d a p => Sys2Proof.Machine.execVmov d a p s
  | .vsel d a b k p => Sys2Proof.Machine.execVsel d a b k p s
  | .vcvt d a r f p => Sys2Proof.Machine.execVcvt d a r f p s
  | .vpack d a b f p => Sys2Proof.Machine.execVpack d a b f p s
  | .vunpk d a r n0 f p => Sys2Proof.Machine.execVunpk d a r n0 f p s
  | .vshfl d a b w g p => Sys2Proof.Machine.execVshfl d a b w g p s
  | .vbcst d a b w g p => Sys2Proof.Machine.execVbcst d a b w g p s
  | .wred d a o w p => Sys2Proof.Machine.execWred d a o w p s
  | .wscan d a o e w p => Sys2Proof.Machine.execWscan d a o e w p s
  | .vballot d a w p => Sys2Proof.Machine.execVballot d a w p s
  | .vconf d a w p => Sys2Proof.Machine.execVconf d a w p s
  | .mand d a b => Sys2Proof.Machine.execMand d a b s
  | .mor d a b => Sys2Proof.Machine.execMor d a b s
  | .mxor d a b => Sys2Proof.Machine.execMxor d a b s
  | .mnot d a => Sys2Proof.Machine.execMnot d a s
  | .mpopc d a => Sys2Proof.Machine.execMpopc d a s
  | .mffs d a => Sys2Proof.Machine.execMffs d a s
  | .mmovMm d a => Sys2Proof.Machine.execMmovMm d a s
  | .mmovMs d a => Sys2Proof.Machine.execMmovMs d a s
  | .mmovSm d a => Sys2Proof.Machine.execMmovSm d a s
  | .vld d b v l m h p => Sys2Proof.Machine.execVld d b v l m h p s
  | .vldAcq d b v l r h p => Sys2Proof.Machine.execVldAcq d b v l r h p s
  | .vst d b v m h p => Sys2Proof.Machine.execVst d b v m h p s
  | .vstRel d b v r h p => Sys2Proof.Machine.execVstRel d b v r h p s
  | .vldp d v l m h p => Sys2Proof.Machine.execVldp d v l m h p s
  | .vstp d v m h p => Sys2Proof.Machine.execVstp d v m h p s
  | .vatom d b v l o h p => Sys2Proof.Machine.execVatom d b v l o h p s
  | .vatomNear d b v l o h p => Sys2Proof.Machine.execVatomNear d b v l o h p s
  | .vatomHome d b v l o h p => Sys2Proof.Machine.execVatomHome d b v l o h p s
  | .vared d b v g o h p => Sys2Proof.Machine.execVared d b v g o h p s
  | .fgath d v l m h p => Sys2Proof.Machine.execFgath d v l m h p s
  | .pref b v m h p => Sys2Proof.Machine.execPref b v m h p s
  | .disc b v m h p => Sys2Proof.Machine.execDisc b v m h p s
  | .tsmp d b v l m h p => Sys2Proof.Machine.execTsmp d b v l m h p s
  | .prime w c a p => Sys2Proof.Machine.execPrime w c a p s
  | .mma w t c p => Sys2Proof.Machine.execMma w t c p s
  | .mfence w => Sys2Proof.Machine.execMfence w s
  | .bwait w n => Sys2Proof.Machine.execBwait w n s
  | .bwaitAll w => Sys2Proof.Machine.execBwaitAll w s
  | .accz w t n => Sys2Proof.Machine.execAccz w t n s
  | .accwr w t r f => Sys2Proof.Machine.execAccwr w t r f s
  | .setscA w r => Sys2Proof.Machine.execSetscA w r s
  | .setscB w r => Sys2Proof.Machine.execSetscB w r s
  | .qntz w r a t u => Sys2Proof.Machine.execQntz w r a t u s
  | .dqnz w d a l => Sys2Proof.Machine.execDqnz w d a l s
  | .olrd w d a l => Sys2Proof.Machine.execOlrd w d a l s
  | .accrdReg r w t d l f => Sys2Proof.Machine.execAccrdReg r w t d l f s
  | .accrdMem r w t x0 y => Sys2Proof.Machine.execAccrdMem r w t x0 y s
  | .mcnt v p => Sys2Proof.Machine.execMcnt v p s
  | .mvtx n0 a n => Sys2Proof.Machine.execMvtx n0 a n s
  | .mprim n0 x => Sys2Proof.Machine.execMprim n0 x s
  | .vintp d b n => Sys2Proof.Machine.execVintp d b n s
  | .pxw c t => Sys2Proof.Machine.execPxw c t s
  | .pxk k => Sys2Proof.Machine.execPxk k s
  | .glzin n r => Sys2Proof.Machine.execGlzin n r s
  | .glzrd d n0 l r => Sys2Proof.Machine.execGlzrd d n0 l r s
  | .glzres c b l r => Sys2Proof.Machine.execGlzres c b l r s
  | .glzclr r x0 => Sys2Proof.Machine.execGlzclr r x0 s
  | .rbox r n l => Sys2Proof.Machine.execRbox r n l s
  | .rtri r n l => Sys2Proof.Machine.execRtri r n l s
  | .wapp n0 x => Sys2Proof.Machine.execWapp n0 x s
  | .wtake d x l => Sys2Proof.Machine.execWtake d x l s
  | .wqui d => Sys2Proof.Machine.execWqui d s
  | .missSplit wid ent => Sys2Proof.Machine.execMissSplit wid ent s
  | .joinLapse wid ent => Sys2Proof.Machine.execJoinLapse wid ent s
  | .fuseTimeout wid ent => Sys2Proof.Machine.execFuseTimeout wid ent s
  | .forcedFuseTimeout wid ent => Sys2Proof.Machine.execForcedFuseTimeout wid ent s
  | .longLatencyComplete wid pid => Sys2Proof.Machine.execLongLatencyComplete wid pid s
  | .memoryAccessPerform id piece => Sys2Proof.Machine.execMemoryAccessPerform id piece s
  | .lineMigration line => Sys2Proof.Machine.execLineMigration line s
  | .monwWake wid ent => Sys2Proof.Machine.execMonwWake wid ent s
  | .monwTimeout wid ent => Sys2Proof.Machine.execMonwTimeout wid ent s
  | .fallbackWindowEnd wid slot => Sys2Proof.Machine.execFallbackWindowEnd wid slot s
  | .sleepExpire wid ent => Sys2Proof.Machine.execSleepExpire wid ent s
  | .yieldExpire who => Sys2Proof.Machine.execYieldExpire who s
  | .fenceWaitEnd who => Sys2Proof.Machine.execFenceWaitEnd who s
  | .queueRoomWaitEnd who => Sys2Proof.Machine.execQueueRoomWaitEnd who s
  | .codeLoadComplete core slot => Sys2Proof.Machine.execCodeLoadComplete core slot s
  | .cwaitWaitEnd who => Sys2Proof.Machine.execCwaitWaitEnd who s
  | .copyChunkLand core cid => Sys2Proof.Machine.execCopyChunkLand core cid s
  | .primeTakesEffect core => Sys2Proof.Machine.execPrimeTakesEffect core s
  | .mmaTakesEffect core => Sys2Proof.Machine.execMmaTakesEffect core s
  | .bwaitWaitEnd who => Sys2Proof.Machine.execBwaitWaitEnd who s
  | .wappWaitEnd who => Sys2Proof.Machine.execWappWaitEnd who s
  | .glzinTurnWaitEnd who => Sys2Proof.Machine.execGlzinTurnWaitEnd who s
  | .trapEntry wid => Sys2Proof.Machine.execTrapEntry wid s
  | .doorbell func q t => Sys2Proof.Machine.execDoorbell func q t s
  | .arbiterDecision => Sys2Proof.Machine.execArbiterDecision s
  | .managementLaunch q => Sys2Proof.Machine.execManagementLaunch q s
  | .kernelLoad func v => Sys2Proof.Machine.execKernelLoad func v s
  | .kernelLoadDone func => Sys2Proof.Machine.execKernelLoadDone func s
  | .groupPlacement lid => Sys2Proof.Machine.execGroupPlacement lid s
  | .cohortPlacement lid => Sys2Proof.Machine.execCohortPlacement lid s
  | .cohortWaitHold lid => Sys2Proof.Machine.execCohortWaitHold lid s
  | .groupRetire gid => Sys2Proof.Machine.execGroupRetire gid s
  | .drawMeshPhase lid => Sys2Proof.Machine.execDrawMeshPhase lid s
  | .drawAttributePass lid => Sys2Proof.Machine.execDrawAttributePass lid s
  | .drawTileRaster lid tile => Sys2Proof.Machine.execDrawTileRaster lid tile s
  | .preemptRequest func v => Sys2Proof.Machine.execPreemptRequest func v s
  | .preemptSave gid => Sys2Proof.Machine.execPreemptSave gid s
  | .preemptDrainTimeout gid => Sys2Proof.Machine.execPreemptDrainTimeout gid s
  | .restore gid => Sys2Proof.Machine.execRestore gid s
  | .pageWalkComplete ctx va => Sys2Proof.Machine.execPageWalkComplete ctx va s
  | .invalidate func v => Sys2Proof.Machine.execInvalidate func v s
  | .invalidateDone func => Sys2Proof.Machine.execInvalidateDone func s
  | .resolve func v => Sys2Proof.Machine.execResolve func v s
  | .fbheadWrite func v => Sys2Proof.Machine.execFbheadWrite func v s
  | .hostWindowRead func off n => Sys2Proof.Machine.execHostWindowRead func off n s
  | .hostWindowWrite func off data ro => Sys2Proof.Machine.execHostWindowWrite func off data ro s
  | .hostAtomic func off op n x y => Sys2Proof.Machine.execHostAtomic func off op n x y s
  | .functionLevelReset func => Sys2Proof.Machine.execFunctionLevelReset func s
  | .remoteRequest req => Sys2Proof.Machine.execRemoteRequest req s
  | .fabricTimeout node => Sys2Proof.Machine.execFabricTimeout node s
  | .haltNoticeReceive node on v => Sys2Proof.Machine.execHaltNoticeReceive node on v s
  | .halt core => Sys2Proof.Machine.execHalt core s
  | .haltComplete core => Sys2Proof.Machine.execHaltComplete core s
  | .resume core => Sys2Proof.Machine.execResume core s
  | .pcComparatorMatch who k => Sys2Proof.Machine.execPcComparatorMatch who k s
  | .traceEnable core v => Sys2Proof.Machine.execTraceEnable core v s
  | .traceSample core => Sys2Proof.Machine.execTraceSample core s
  | .traceStagingDrain => Sys2Proof.Machine.execTraceStagingDrain s
  | .causalTrialStart core v => Sys2Proof.Machine.execCausalTrialStart core v s
  | .causalDelay => Sys2Proof.Machine.execCausalDelay s
  | .causalTrialEnd => Sys2Proof.Machine.execCausalTrialEnd s
  | .powerOnReset => Sys2Proof.Machine.execPowerOnReset s
  | .bootRomStageDone ok => Sys2Proof.Machine.execBootRomStageDone ok s
  | .firmwareVerify => Sys2Proof.Machine.execFirmwareVerify s
  | .selfTest found => Sys2Proof.Machine.execSelfTest found s
  | .firmwareStart ok => Sys2Proof.Machine.execFirmwareStart ok s
  | .getReport => Sys2Proof.Machine.execGetReport s
  | .getPubkey => Sys2Proof.Machine.execGetPubkey s
  | .getSelftest => Sys2Proof.Machine.execGetSelftest s
  | .retryBoot => Sys2Proof.Machine.execRetryBoot s
  | .sramScrub obs => Sys2Proof.Machine.execSramScrub obs s
  | .gddrScrub line obs => Sys2Proof.Machine.execGddrScrub line obs s
  | .gddrRebuildComplete => Sys2Proof.Machine.execGddrRebuildComplete s
  | .coreRetirement core => Sys2Proof.Machine.execCoreRetirement core s
  | .sliceRetirement slice => Sys2Proof.Machine.execSliceRetirement slice s
  | .spanLaneSpare port flit => Sys2Proof.Machine.execSpanLaneSpare port flit s
  | .laneRetrainComplete port => Sys2Proof.Machine.execLaneRetrainComplete port s
  | .counterFlush => Sys2Proof.Machine.execCounterFlush s
  | .counterFreeze func => Sys2Proof.Machine.execCounterFreeze func s
  | .freezeDone func => Sys2Proof.Machine.execFreezeDone func s
  | .energyWindow grains => Sys2Proof.Machine.execEnergyWindow grains s
  | .registerWrite bar func off v => Sys2Proof.Machine.execRegisterWrite bar func off v s
  | .reservedEncoding => Sys2Proof.Machine.execReservedEncoding s
  | .groupAbort gid => Sys2Proof.Machine.execGroupAbort gid s
  | .pcieConfigRequest req => Sys2Proof.Machine.execPcieConfigRequest req s
  | .spanPortDown port => Sys2Proof.Machine.execSpanPortDown port s
  | .pageUnpin page => Sys2Proof.Machine.execPageUnpin page s

end Sys2Proof.Machine
end

