-- ==== Sys2Proof/Machine/Place.lean ====
section
/-!
DEFINITION. A program placed by hand: one wave that fetches a given instruction next (log 13).
-/
namespace Sys2Proof.Machine

/-- The words that stand at word 0: the instruction, and after an attaching hint a word that the hint applies to. -/
def placedWords (w : Word) : List Word :=
  if isAttachingHint w then (if bits w 24 1 = 0#1 then [w, 0x28000000] else [w, 0x08000000]) else [w]

/-- A wave of width 4 whose root is READY at word 0, as at its launch (R29, R396). -/
def placedWave : Wave :=
  { wid := 1, gid := 1, width := 4, launched := 0xf, budget := 128,
    split := { kind := 1, qmask := 1, lmask := 0xf } :: List.replicate 15 {}, banks := [{}] }

/-- The group of that wave: one compute group with a palette, tiles, canvases and barriers. -/
def placedGroup : Group :=
  { gid := 1, lid := 1, group := 0, psize := 65536, tiles := [0, 1], cans := [0, 1, 2, 3], bars := List.replicate 32 {}, waves := 1 }

/-- Core 0 with the words at the start of slot 0, which is resident and landed; dictionary entries read as NOP. -/
def Core.placed (c : Core) (w : Word) : Core :=
  { c with imem := c.imem.setList 0 (placedWords w),
           slots := { st := .landed, resident := true, owner := some 0 } :: c.slots.drop 1,
           kslots := some ⟨1, 0⟩ :: c.kslots.drop 1,
           dict := (c.dict.set (field w 10 10) 0x04000000).set (field w 0 10) 0x04000000,
           issue := List.replicate 8 {}, issued := [], dbg := {} }

/-- The state with that wave and nothing else that could act first. -/
def State.placeWord (s : State) (nbits w : Nat) : State :=
  if nbits = 0 then s
  else
    let x : Word := BitVec.ofNat 32 w
    { s with boot := { s.boot with state := 0x05, stage := 0x05 }, inputs := [], waves := [placedWave], groups := [placedGroup], taken := [],
             inflight := [], cur := none, nextId := max s.nextId 2, cores := (s.core 0).placed x :: s.cores.drop 1 }

end Sys2Proof.Machine
end

