-- ==== Sys2Proof/Machine/Step.lean ====
section
/-!
DEFINITION. One step of the module: an event, or one instruction of one part, or one clk. What is due, what may come, who issues
and what a clk does are in Agenda and Sched; the meanings are `exec`'s.
-/
namespace Sys2Proof.Machine

/-- The part in `c` issues instruction `i`: the books of the clk, the meaning, the windows (R47, R125). -/
def issueStep (s : State) (c : Ctx) (i : Instr) : Host.Outcome State Fault Refusal :=
  match exec i { s.noteIssue c i with cur := some c.who } with
  | .next t => .next { t.closeIssue c i s.nextId with cur := none }
  | .fault r => .fault r
  | .refused r => .refused r

/-- A step in which no event comes: the part whose turn it is issues, or a clk passes. -/
def issueOrTick (s : State) : Host.Outcome State Fault Refusal :=
  match s.pickAny with
  | none => .next s.tick
  | some c => match s.comparator c with
    | some k => exec (.pcComparatorMatch c.who k) s
    | none => match s.nextInstr c with
      | none => .next (s.codeAbsent c c.pc)
      | some i => issueStep s c i

/-- One step. -/
def step (s : State) : Host.Outcome State Fault Refusal :=
  match s.event? with
  | some (i, t) => exec i t
  | none => issueOrTick s.noEvent

/-- The state with an instruction of `nbits` bits and value `w` stored where the next step fetches: a READY module with one wave of
width 4 of a compute group on core 0 at word 0 of a landed slot (log 13). -/
def State.withFetchWord (s : State) (nbits w : Nat) : State := s.placeWord nbits w

end Sys2Proof.Machine
end

