-- ==== Sys2Proof/Safety.lean ====
section
/-!
DEFINITION. What counts as a safe run, and the terms in which the claims speak: when a part issues an instruction past every
check, and what an instruction leaves as it was.
-/
namespace Sys2Proof
open Machine

/-- The first `n` steps from `s` all answer a next state. -/
def SafeRun (n : Nat) (s : State) : Prop := ∃ t, core.run n s = .next t

/-- Memory is in its canonical form. -/
def MemWf (s : State) : Prop := Memory.wf s.mem = true

/-- The part `c` is the one that issues in `s`, and neither the checks of its bundle (R142), nor the privilege check (R145), nor the
minimum width (R43) stops `i`. -/
structure Issues (i : Instr) (s : State) (c : Ctx) : Prop where
  cur : s.cur = some c.who
  part : s.ctx? c.who = some c
  legal : issueLegal i c = true
  priv : privileged i = true → c.hnd = true
  wide : ∀ n, wminI c.w.width i = some n → n ≤ c.pwidth

/-- The copy of the scalar registers in the bank of quad `q`, or of the handler. -/
def scalarCopy (w : Wave) : Option Nat → Option QBank
  | some q => w.banks[q]?
  | none => some w.handler.bank

/-- The copies that belong to the part (R21). -/
def holds (c : Ctx) : Option Nat → Bool
  | some q => !c.hnd && bitAt c.q q
  | none => c.hnd

/-- The PC of the part `c` in the wave `v`. -/
def pcIn (c : Ctx) (v : Wave) : CodeAddr := if c.hnd then v.handler.pc else (v.ent c.ent).pc

/-- Between `s` and `t` only the wave `wid` differs, and the model's own counter of free values (log 2): every byte of memory and
every other wave is as it was. -/
structure OnlyWave (s t : State) (wid : Nat) : Prop where
  rest : t = { s with waves := t.waves, fresh := t.fresh }
  bytes : ∀ k, t.mem.get k = s.mem.get k
  others : ∀ x, x ≠ wid → t.wave? x = s.wave? x

/-- Between the wave of `c` and `v` only these differ: scalars `r` with `sd r` in the part's own copies, vector registers `r` in the
lanes `l` with `vd r l`, mask bits `l` of `k` with `md k l`, and where the part stands in its code. -/
structure RegFrame (c : Ctx) (v : Wave) (sd : Nat → Prop) (vd md : Nat → Nat → Prop) : Prop where
  rest : v = { c.w with banks := v.banks, handler := v.handler, split := v.split, aux := v.aux, vreg := v.vreg, mask := v.mask }
  handler : v.handler = { c.w.handler with bank := v.handler.bank, pc := v.handler.pc, aux := v.handler.aux }
  trapped : c.hnd = false → v.handler = c.w.handler
  entry : v.ent c.ent = { c.w.ent c.ent with pc := (v.ent c.ent).pc }
  entries : ∀ e, (c.hnd = true ∨ e ≠ c.ent) → v.ent e = c.w.ent e ∧ v.auxAt e = c.w.auxAt e
  copies : ∀ q, holds c q = false → scalarCopy v q = scalarCopy c.w q
  scalars : ∀ q b, scalarCopy c.w q = some b → ∃ b', scalarCopy v q = some b' ∧
    b' = { b with sreg := b'.sreg, phase := b'.phase } ∧ ∀ r, ¬ sd r → b'.sreg.get r = b.sreg.get r
  vectors : ∀ r l, l < 64 → ¬ vd r l → v.vreg.get (64 * r + l) = c.w.vreg.get (64 * r + l)
  masks : ∀ k l, ¬ md k l → bitAt (v.mask.get k) l = bitAt (c.w.mask.get k) l

/-- The part has moved past `i`: to the next bundle, or between the two entries of a DICT word, whose address is its PC (R130). -/
def MovedPast (i : Instr) (c : Ctx) (v : Wave) : Prop :=
  pcIn c v = if c.aux.dict.isSome && !c.bank.phase then c.pc else c.nextPc i

/-- What the part `c` that issued left in `t`: its wave is `v`, and everything else is as it was in `s`. -/
structure Leaves (s t : State) (c : Ctx) (v : Wave) : Prop where
  only : OnlyWave s t c.w.wid
  wave : t.wave? c.w.wid = some v

end Sys2Proof
end

