-- ==== Sys2Proof/Certificates/Slice0/Obligations.lean ====
section
/-!
DEFINITION. The statements for the provers. Tables such as `scalarResult` write the spec's own tables down in integers, beside the
model's bit vectors.
-/
section
open Sys2Proof Sys2Proof.Machine

/-! ## Scalar arithmetic (R164, R165) and mask operations (R203) -/

namespace Sys2Proof

/-- s[r] read as unsigned, and as two's complement. -/
def uns (c : Ctx) (r : BitVec 6) : Int := (c.s r.toNat).toNat

def sig (c : Ctx) (r : BitVec 6) : Int := (c.s r.toNat).toInt

/-- The pair of an even register, as an unsigned number. -/
def unsPair (c : Ctx) (r : BitVec 5) : Int := (c.s (2 * r.toNat)).toNat + 2 ^ 32 * (c.s (2 * r.toNat + 1)).toNat

/-- The immediate of an RI word (R122, R165). -/
def immediate (o : BitVec 12) (h : Option (BitVec 24)) : Int :=
  match h with
  | some w => 4096 * (w.toNat % 2 ^ 20) + o.toNat
  | none => o.toInt

/-- 1 for a relation that holds, 0 otherwise. -/
def oneIf (p : Prop) [Decidable p] : Int := if p then 1 else 0

/-- The two registers of a 64-bit result: bits [31:0] in the even one. -/
def intoPair (r : BitVec 5) (x : Int) : List (Nat × Int) := [(2 * r.toNat, x), (2 * r.toNat + 1, x / 2 ^ 32)]

/-- The table of R164: the registers that a scalar operation writes, with numbers that are taken modulo 2^32. -/
def scalarResult (c : Ctx) : Instr → Option (List (Nat × Int))
  | .sadd d a b => some [(d.toNat, uns c a + uns c b)]
  | .ssub d a b => some [(d.toNat, uns c a - uns c b)]
  | .smul d a b => some [(d.toNat, uns c a * uns c b)]
  | .smulh d a b => some [(d.toNat, sig c a * sig c b / 2 ^ 32)]
  | .smulhN32 d a b => some [(d.toNat, uns c a * uns c b / 2 ^ 32)]
  | .sand d a b => some [(d.toNat, (c.s a.toNat &&& c.s b.toNat).toNat)]
  | .sor d a b => some [(d.toNat, (c.s a.toNat ||| c.s b.toNat).toNat)]
  | .sxor d a b => some [(d.toNat, (c.s a.toNat ^^^ c.s b.toNat).toNat)]
  | .sshl d a b => some [(d.toNat, uns c a * 2 ^ ((c.s b.toNat).toNat % 32))]
  | .sshr d a b => some [(d.toNat, uns c a / 2 ^ ((c.s b.toNat).toNat % 32))]
  | .ssra d a b => some [(d.toNat, sig c a / 2 ^ ((c.s b.toNat).toNat % 32))]
  | .sshlImm d a n => some [(d.toNat, uns c a * 2 ^ n.toNat)]
  | .sshrImm d a n => some [(d.toNat, uns c a / 2 ^ n.toNat)]
  | .ssraImm d a n => some [(d.toNat, sig c a / 2 ^ n.toNat)]
  | .smin d a b => some [(d.toNat, min (sig c a) (sig c b))]
  | .smax d a b => some [(d.toNat, max (sig c a) (sig c b))]
  | .sminN32 d a b => some [(d.toNat, min (uns c a) (uns c b))]
  | .smaxN32 d a b => some [(d.toNat, max (uns c a) (uns c b))]
  | .smov d a => some [(d.toNat, uns c a)]
  | .ssel d a b => some [(d.toNat, if uns c d ≠ 0 then uns c a else uns c b)]
  | .scmpEq d a b => some [(d.toNat, oneIf (uns c a = uns c b))]
  | .scmpNe d a b => some [(d.toNat, oneIf (uns c a ≠ uns c b))]
  | .scmpLt d a b => some [(d.toNat, oneIf (sig c a < sig c b))]
  | .scmpLe d a b => some [(d.toNat, oneIf (sig c a ≤ sig c b))]
  | .scmpLtN32 d a b => some [(d.toNat, oneIf (uns c a < uns c b))]
  | .scmpLeN32 d a b => some [(d.toNat, oneIf (uns c a ≤ uns c b))]
  | .saddB64 d a b => some (intoPair d (unsPair c a + unsPair c b))
  | .ssubB64 d a b => some (intoPair d (unsPair c a - unsPair c b))
  | .smovB64 d a => some (intoPair d (unsPair c a))
  | .saddImm d a o h => some [(d.toNat, uns c a + immediate o h)]
  | .sandImm d a o h => some [(d.toNat, (c.s a.toNat &&& BitVec.ofInt 32 (immediate o h)).toNat)]
  | .sorImm d a o h => some [(d.toNat, (c.s a.toNat ||| BitVec.ofInt 32 (immediate o h)).toNat)]
  | .sxorImm d a o h => some [(d.toNat, (c.s a.toNat ^^^ BitVec.ofInt 32 (immediate o h)).toNat)]
  | .sli d o h => some [(d.toNat, immediate o h)]
  | _ => none

/-- The rows of R203 with a scalar result: MPOPC, MFFS, MMOV to a pair. -/
def maskCount (c : Ctx) : Instr → Option (List (Nat × Int))
  | .mpopc d a => some [(d.toNat, (((List.range 64).filter fun l => bitAt c.m0 l && bitAt (c.mask a.toNat) l).length : Nat))]
  | .mffs d a => some [(d.toNat, match (List.range 64).find? fun l => bitAt c.m0 l && bitAt (c.mask a.toNat) l with
      | some l => (l : Int) | none => 0xffffffff)]
  | .mmovMs d a => some (intoPair d (c.mask a.toNat &&& c.m0).toNat)
  | _ => none

/-- The rows of R203 with a mask result: the mask, and its bit for each lane l of m0. -/
def maskRow (c : Ctx) : Instr → Option (Nat × (Nat → Bool))
  | .mand d a b => some (d.toNat, fun l => bitAt (c.mask a.toNat) l && bitAt (c.mask b.toNat) l)
  | .mor d a b => some (d.toNat, fun l => bitAt (c.mask a.toNat) l || bitAt (c.mask b.toNat) l)
  | .mxor d a b => some (d.toNat, fun l => bitAt (c.mask a.toNat) l ^^ bitAt (c.mask b.toNat) l)
  | .mnot d a => some (d.toNat, fun l => !bitAt (c.mask a.toNat) l)
  | .mmovMm d a => some (d.toNat, fun l => bitAt (c.mask a.toNat) l)
  | .mmovSm d a => some (d.toNat, fun l => bitAt (c.s64 (2 * a.toNat)) l)
  | _ => none

/-- Every copy of the part's scalars holds the given numbers, modulo 2^32; nothing else has changed but where the part stands. -/
def WritesScalars (i : Instr) (s : State) (c : Ctx) (rs : List (Nat × Int)) : Prop :=
  ∃ t v, exec i s = .next t ∧ Leaves s t c v ∧ MovedPast i c v ∧
    RegFrame c v (fun r => r ∈ rs.map (·.1)) (fun _ _ => False) (fun _ _ => False) ∧
    ∀ q b, holds c q = true → scalarCopy v q = some b → ∀ x ∈ rs, b.sreg.get x.1 = BitVec.ofInt 32 x.2

/-- A word by its fields: MAJ [31:26], D [25:19], A [18:12], B [11:5], FN [4:0]; an immediate takes the last two together. -/
def wordOf (maj d a b fn : Nat) : Nat := maj * 2 ^ 26 + d * 2 ^ 19 + a * 2 ^ 12 + b * 2 ^ 5 + fn

/-- The encodings in the table of R164. -/
def scalarWord : Instr → Option Nat
  | .sadd d a b => some (wordOf 0x08 d.toNat a.toNat b.toNat 0)
  | .ssub d a b => some (wordOf 0x08 d.toNat a.toNat b.toNat 1)
  | .smul d a b => some (wordOf 0x08 d.toNat a.toNat b.toNat 2)
  | .smulh d a b => some (wordOf 0x08 d.toNat a.toNat b.toNat 3)
  | .smulhN32 d a b => some (wordOf 0x08 d.toNat a.toNat b.toNat 4)
  | .sand d a b => some (wordOf 0x08 d.toNat a.toNat b.toNat 5)
  | .sor d a b => some (wordOf 0x08 d.toNat a.toNat b.toNat 6)
  | .sxor d a b => some (wordOf 0x08 d.toNat a.toNat b.toNat 7)
  | .sshl d a b => some (wordOf 0x08 d.toNat a.toNat b.toNat 8)
  | .sshr d a b => some (wordOf 0x08 d.toNat a.toNat b.toNat 9)
  | .ssra d a b => some (wordOf 0x08 d.toNat a.toNat b.toNat 10)
  | .smin d a b => some (wordOf 0x08 d.toNat a.toNat b.toNat 11)
  | .sminN32 d a b => some (wordOf 0x08 d.toNat a.toNat b.toNat 12)
  | .smax d a b => some (wordOf 0x08 d.toNat a.toNat b.toNat 13)
  | .smaxN32 d a b => some (wordOf 0x08 d.toNat a.toNat b.toNat 14)
  | .smov d a => some (wordOf 0x08 d.toNat a.toNat 0 15)
  | .ssel d a b => some (wordOf 0x08 d.toNat a.toNat b.toNat 16)
  | .scmpEq d a b => some (wordOf 0x08 d.toNat a.toNat b.toNat 17)
  | .scmpNe d a b => some (wordOf 0x08 d.toNat a.toNat b.toNat 18)
  | .scmpLt d a b => some (wordOf 0x08 d.toNat a.toNat b.toNat 19)
  | .scmpLe d a b => some (wordOf 0x08 d.toNat a.toNat b.toNat 20)
  | .scmpLtN32 d a b => some (wordOf 0x08 d.toNat a.toNat b.toNat 21)
  | .scmpLeN32 d a b => some (wordOf 0x08 d.toNat a.toNat b.toNat 22)
  | .saddB64 d a b => some (wordOf 0x08 (2 * d.toNat) (2 * a.toNat) (2 * b.toNat) 23)
  | .ssubB64 d a b => some (wordOf 0x08 (2 * d.toNat) (2 * a.toNat) (2 * b.toNat) 24)
  | .smovB64 d a => some (wordOf 0x08 (2 * d.toNat) (2 * a.toNat) 0 25)
  | .sshlImm d a m => some (wordOf 0x08 d.toNat a.toNat m.toNat 26)
  | .sshrImm d a m => some (wordOf 0x08 d.toNat a.toNat m.toNat 27)
  | .ssraImm d a m => some (wordOf 0x08 d.toNat a.toNat m.toNat 28)
  | .saddImm d a o _ => some (wordOf 0x09 d.toNat a.toNat 0 o.toNat)
  | .sandImm d a o _ => some (wordOf 0x0b d.toNat a.toNat 0 o.toNat)
  | .sorImm d a o _ => some (wordOf 0x0c d.toNat a.toNat 0 o.toNat)
  | .sxorImm d a o _ => some (wordOf 0x0d d.toNat a.toNat 0 o.toNat)
  | .sli d o _ => some (wordOf 0x0a d.toNat 0 0 o.toNat)
  | _ => none

/-- R203, R21: MPOPC, MFFS and MMOV to a pair count, find and copy over the lanes of m0, into every copy of the part's scalars. -/
def Claims.MaskCounts : Prop :=
  ∀ i s c rs, maskCount c i = some rs → Issues i s c → WritesScalars i s c rs

/-- R203, R22: a mask operation writes exactly the positions of the lanes of m0 in its destination. -/
def Claims.MaskWrites : Prop :=
  ∀ i s c d f, maskRow c i = some (d, f) → Issues i s c →
    ∃ t v, exec i s = .next t ∧ Leaves s t c v ∧ MovedPast i c v ∧
      RegFrame c v (fun _ => False) (fun _ _ => False) (fun k l => k = d ∧ bitAt c.m0 l = true) ∧
      ∀ l, bitAt c.m0 l = true → bitAt (v.mask.get d) l = f l

end Sys2Proof

/-- R164, R165: every scalar operation of the table completes with the table's result in every copy of the part's scalars (R21), with
no flags, no saturation and no fault; memory, vector registers, masks, other scalars and other parts keep their values. Its word is
the table's. -/
def Obligations.ScalarResults : Prop :=
  (∀ i s c rs, scalarResult c i = some rs → Issues i s c → WritesScalars i s c rs) ∧
  ∀ i x, scalarWord i = some x → (encodeWord i).toNat = x

/-- Mask operations (R203, R21, R22). -/
def Obligations.MaskResults : Prop := Claims.MaskCounts ∧ Claims.MaskWrites

/-! ## Vector instructions (R177 to R196) -/

namespace Sys2Proof

/-- The bits, and the number, of operand register `r` of lane `l`, read in type `t` (R178, R185). -/
def el (c : Ctx) (t : Ty) (r : BitVec 7) (l : Nat) : Nat := c.elem t r.toNat l

def iv (c : Ctx) (t : Ty) (r : BitVec 7) (l : Nat) : Int := intVal t (c.elem t r.toNat l)

/-- Operand A or B of a floating instruction, after sign forms and FTZ (R52, R53, R88), and the addend (R120). -/
def fa (c : Ctx) (p : Option Pfx) (t : Ty) (r : BitVec 7) (l : Nat) : Fl := t.fmt.value (c.bitsA p t r l)

def fb (c : Ctx) (p : Option Pfx) (t : Ty) (r : BitVec 7) (l : Nat) : Fl := t.fmt.value (c.bitsB p t r l)

def fc (c : Ctx) (p : Option Pfx) (t : Ty) (d : BitVec 7) (l : Nat) : Fl := t.fmt.value (c.bitsC p t d l)

/-- The signed number of the low `n` bits of `a` (VSRA, VBFE). -/
def signedOf (n a : Nat) : Int := if n ≠ 0 ∧ 2 ^ (n - 1) ≤ a % 2 ^ n then (a % 2 ^ n : Int) - 2 ^ n else (a % 2 ^ n : Int)

/-- A row of R181 to R183: prefix, type, destination, and the bits of a lane's result. Each lane rounds once, in its own mode. -/
def floatRow (s : State) (c : Ctx) : Instr → Option (Option Pfx × Ty × BitVec 7 × (Nat → Nat))
  | .vadd t d a b p => let y := tyD p (floatMajor t)
      some (p, y, d, fun l => y.fmt.round (s.rnd p l) (pfxOf p).ftz false ((fa c p y a l).add (s.rnd p l).isRdn (fb c p y b l)))
  | .vsub t d a b p => let y := tyD p (floatMajor t)
      some (p, y, d, fun l => y.fmt.round (s.rnd p l) (pfxOf p).ftz false ((fa c p y a l).add (s.rnd p l).isRdn (fb c p y b l).negate))
  | .vmul t d a b p => let y := tyD p (floatMajor t)
      some (p, y, d, fun l => y.fmt.round (s.rnd p l) (pfxOf p).ftz false ((fa c p y a l).mul (fb c p y b l)))
  | .vfma t d a b p => let y := tyD p (floatMajor t)
      some (p, y, d, fun l => y.fmt.round (s.rnd p l) (pfxOf p).ftz false
        (((fa c p y a l).mul (fb c p y b l)).add (s.rnd p l).isRdn (fc c p y d l)))
  | .vfms t d a b p => let y := tyD p (floatMajor t)
      some (p, y, d, fun l => y.fmt.round (s.rnd p l) (pfxOf p).ftz false
        (((fa c p y a l).mul (fb c p y b l)).add (s.rnd p l).isRdn (fc c p y d l).negate))
  | .vmin t d a b p => let y := tyD p (floatMajor t)
      some (p, y, d, fun l => fminBits y.fmt false (c.bitsA p y a l) (c.bitsB p y b l))
  | .vmax t d a b p => let y := tyD p (floatMajor t)
      some (p, y, d, fun l => fminBits y.fmt true (c.bitsA p y a l) (c.bitsB p y b l))
  | .vrnd t d a p => let y := tyD p (floatMajor t)
      some (p, y, d, fun l => integral y.fmt (s.rnd p l) (fa c p y a l))
  | _ => none

/-- A row of R185 to R190: the number of a lane's result, which the type's width then takes modulo 2^n, or saturates under SAT
where R179 allows it. -/
def integerRow (c : Ctx) : Instr → Option (Option Pfx × Ty × BitVec 7 × (Nat → Nat))
  | .viadd t d a b p => let y := tyD p (intMajor t); some (p, y, d, fun l => intResult y (pfxOf p).sat (iv c y a l + iv c y b l))
  | .visub t d a b p => let y := tyD p (intMajor t); some (p, y, d, fun l => intResult y (pfxOf p).sat (iv c y a l - iv c y b l))
  | .vimul t d a b p => let y := tyD p (intMajor t); some (p, y, d, fun l => intResult y (pfxOf p).sat (iv c y a l * iv c y b l))
  | .vimad t d a b p => let y := tyD p (intMajor t)
      some (p, y, d, fun l => intResult y (pfxOf p).sat (iv c y a l * iv c y b l + intVal y (c.elem y (addendReg p d) l)))
  | .vimulh t d a b p => let y := tyD p (intMajor t); some (p, y, d, fun l => wrapInt y.bits (iv c y a l * iv c y b l / 2 ^ y.bits))
  | .vimin t d a b p => let y := tyD p (intMajor t); some (p, y, d, fun l => wrapInt y.bits (min (iv c y a l) (iv c y b l)))
  | .vimax t d a b p => let y := tyD p (intMajor t); some (p, y, d, fun l => wrapInt y.bits (max (iv c y a l) (iv c y b l)))
  | .vshl t d a b p => let y := tyD p (intMajor t); some (p, y, d, fun l => el c y a l * 2 ^ (el c y b l % 256) % 2 ^ y.bits)
  | .vshr t d a b p => let y := tyD p (intMajor t); some (p, y, d, fun l => el c y a l / 2 ^ (el c y b l % 256))
  | .vsra t d a b p => let y := tyD p (intMajor t)
      some (p, y, d, fun l => wrapInt y.bits (signedOf y.bits (el c y a l) / 2 ^ (el c y b l % 256)))
  | .vbfe t d a b p => let y := tyD p (intMajor t)
      some (p, y, d, fun l =>
        let w := min (el c y b l / 256 % 64) 32
        let x := el c y a l / 2 ^ (el c y b l % 32) % 2 ^ w
        if y.signed then wrapInt 32 (signedOf w x) else x)
  | .vbfi t d a b p => let y := tyD p (intMajor t)
      some (p, y, d, fun l => bfiBits (el c .b32 d l) (el c .b32 a l) (el c .b32 b l))
  | .vpopc t d a p => let y := tyD p (intMajor t)
      some (p, y, d, fun l => ((List.range y.bits).filter fun j => (el c y a l).testBit j).length)
  | .vclz t d a p => let y := tyD p (intMajor t)
      some (p, y, d, fun l => ((List.range y.bits).takeWhile fun j => !(el c y a l).testBit (y.bits - 1 - j)).length)
  | .vdot4 d a b p =>
      let y := tyD p .i8
      let r : Ty := if y.signed then .i32 else .n32
      let at' := fun (r : BitVec 7) (l j : Nat) => intVal y (el c .b32 r l / 256 ^ j)
      some (p, .b32, d, fun l => intResult r (pfxOf p).sat (intVal r (c.elem .b32 (addendReg p d) l) +
        (at' a l 0 * at' b l 0 + at' a l 1 * at' b l 1 + at' a l 2 * at' b l 2 + at' a l 3 * at' b l 3)))
  | .viaddImm d a i h p => let y := tyD p .i32
      some (p, y, d, fun l => intResult y (pfxOf p).sat (iv c y a l + intVal y (BitVec.ofInt 32 (immediate i h)).toNat))
  | .vmovi d i h p => some (p, .b32, d, fun _ => (BitVec.ofInt 32 (immediate i h)).toNat)
  | _ => none

/-- A row of R192. -/
def bitRow (c : Ctx) : Instr → Option (Option Pfx × Ty × BitVec 7 × (Nat → Nat))
  | .vand d a b p => some (p, .b32, d, fun l => (c.v a.toNat l &&& c.v b.toNat l).toNat)
  | .vor d a b p => some (p, .b32, d, fun l => (c.v a.toNat l ||| c.v b.toNat l).toNat)
  | .vxor d a b p => some (p, .b32, d, fun l => (c.v a.toNat l ^^^ c.v b.toNat l).toNat)
  | .vnot d a p => some (p, .b32, d, fun l => (~~~c.v a.toNat l).toNat)
  | .vmov d a p => let y := tyD p .b32; some (p, y, d, fun l => el c y a l)
  | .vsel d a b k p => let y := tyD p .b32; some (p, y, d, fun l => if bitAt (c.mask k.toNat) l then el c y a l else el c y b l)
  | _ => none

/-- A row of R194 to R196. -/
def convertRow (s : State) (c : Ctx) : Instr → Option (Option Pfx × Ty × BitVec 7 × (Nat → Nat))
  | .vcvt d a u f p => some (p, tyC f, d, fun l => cvt (tyC u) (tyC f) (s.rnd p l) (pfxOf p).ftz (pfxOf p).sat (el c (tyC u) a l))
  | .vpack d a b f p =>
      let y := tyC f
      let src := tyD p (if y.isFloat then .f32 else .i32)
      let one := fun (r j l : Nat) => cvt src y (s.rnd p (64 * j + l)) (pfxOf p).ftz (pfxOf p).sat (c.elem src r l)
      some (p, .b32, d, fun l =>
        if y.bits = 8 then one a.toNat 0 l + one (a.toNat + 1) 1 l * 2 ^ 8 + one (a.toNat + 2) 2 l * 2 ^ 16 + one (a.toNat + 3) 3 l * 2 ^ 24
        else one a.toNat 0 l + one b.toNat 1 l * 2 ^ 16)
  | .vunpk d a u i f p =>
      let n := (tyC u).bits
      some (p, tyC f, d, fun l => cvt (tyC u) (tyC f) (s.rnd p l) (pfxOf p).ftz (pfxOf p).sat (el c .b32 a l / 2 ^ (i.toNat * n) % 2 ^ n))
  | _ => none

/-- A row of R191: prefix, destination mask, and the relation. -/
def compareRow (c : Ctx) : Instr → Option (Option Pfx × BitVec 4 × (Nat → Bool))
  | .vcmpF t d a b k p => let y := tyD p (floatMajor t)
      some (p, d, fun l =>
        let x := fa c p y a l
        let z := fb c p y b l
        let nan := x.isNan || z.isNan
        match k.toNat with
        | 0 => !nan && x.eq z
        | 1 => nan || !x.eq z
        | 2 => !nan && x.lt z
        | 3 => !nan && (x.lt z || x.eq z)
        | 4 => !nan && z.lt x
        | 5 => !nan && (z.lt x || z.eq x)
        | 6 => nan
        | _ => !nan)
  | .vcmpI t d a b k p => let y := tyD p (intMajor t)
      some (p, d, fun l =>
        let x := iv c y a l
        let z := iv c y b l
        match k.toNat with
        | 0 => decide (x = z)
        | 1 => decide (x ≠ z)
        | 2 => decide (x < z)
        | 3 => decide (x ≤ z)
        | 4 => decide (z < x)
        | _ => decide (z ≤ x))
  | _ => none

/-- A vector result under prefix `p` (R177, R178): the words of `f l` in the lanes of active(P), 0 in the lanes that `.z` zeroes; no other
register, lane, mask, part or byte of memory changes. -/
def WritesLanes (i : Instr) (s : State) (c : Ctx) (p : Option Pfx) (t : Ty) (d : BitVec 7) (f : Nat → Nat) : Prop :=
  ∃ u v, exec i s = .next u ∧ Leaves s u c v ∧ MovedPast i c v ∧
    RegFrame c v (fun _ => False)
      (fun r l => d.toNat ≤ r ∧ r < d.toNat + t.regs ∧ (bitAt (c.active p) l = true ∨ bitAt (c.zeroLanes p) l = true)) (fun _ _ => False) ∧
    (∀ l k x, bitAt (c.active p) l = true → (elemWords t (f l))[k]? = some x → v.vreg.get (64 * (d.toNat + k) + l) = x) ∧
    (∀ l k, bitAt (c.zeroLanes p) l = true → k < t.regs → v.vreg.get (64 * (d.toNat + k) + l) = 0)

/-- A mask result under prefix `p` (R177, R191). -/
def WritesMask (i : Instr) (s : State) (c : Ctx) (p : Option Pfx) (d : BitVec 4) (f : Nat → Bool) : Prop :=
  ∃ u v, exec i s = .next u ∧ Leaves s u c v ∧ MovedPast i c v ∧
    RegFrame c v (fun _ => False) (fun _ _ => False)
      (fun k l => k = d.toNat ∧ (bitAt (c.active p) l = true ∨ bitAt (c.zeroLanes p) l = true)) ∧
    (∀ l, bitAt (c.active p) l = true → bitAt (v.mask.get d.toNat) l = f l) ∧
    (∀ l, bitAt (c.zeroLanes p) l = true → bitAt (v.mask.get d.toNat) l = false)

/-- R181 to R183: floating arithmetic. -/
def Claims.FloatWrites : Prop :=
  ∀ i s c p t d f, floatRow s c i = some (p, t, d, f) → Issues i s c → WritesLanes i s c p t d f

/-- R185 to R190: integer arithmetic, which never faults. -/
def Claims.IntegerWrites : Prop :=
  ∀ i s c p t d f, integerRow c i = some (p, t, d, f) → Issues i s c → WritesLanes i s c p t d f

/-- R192: bitwise operations, moves and selection. -/
def Claims.BitwiseWrites : Prop :=
  ∀ i s c p t d f, bitRow c i = some (p, t, d, f) → Issues i s c → WritesLanes i s c p t d f

/-- R194 to R196: conversions. -/
def Claims.ConvertWrites : Prop :=
  ∀ i s c p t d f, convertRow s c i = some (p, t, d, f) → Issues i s c → WritesLanes i s c p t d f

end Sys2Proof

/-- Integer arithmetic, which never faults, bitwise operations, moves and selection (R185 to R190, R192). -/
def Obligations.IntegerResults : Prop := Claims.IntegerWrites ∧ Claims.BitwiseWrites

/-- Floating arithmetic and conversions (R181 to R183, R194 to R196). -/
def Obligations.FloatResults : Prop := Claims.FloatWrites ∧ Claims.ConvertWrites

/-- R191: comparisons write the mask bits of active(P), one into m0 raises ILLEGAL, and their words have the majors 0x10 to 0x17 with
FN 8 to 15 for floats and 16 to 21 for integers. -/
def Obligations.CompareResults : Prop :=
  (∀ i s c p d f, compareRow c i = some (p, d, f) → Issues i s c → WritesMask i s c p d f) ∧
  (∀ i s c p f, compareRow c i = some (p, 0, f) → s.cur = some c.who → s.ctx? c.who = some c → exec i s = .next (s.raise c (c.trap 0x01))) ∧
  (∀ t d a b k p, (encodeWord (.vcmpF t d a b k p)).toNat = wordOf (0x10 + t.toNat) d.toNat a.toNat b.toNat (8 + k.toNat)) ∧
  ∀ t d a b k p, (encodeWord (.vcmpI t d a b k p)).toNat = wordOf (0x14 + t.toNat) d.toNat a.toNat b.toNat (16 + k.toNat)

/-! ## Steps, decoding, memory -/

/-- A step in which no event comes runs the instruction that the words at the PC decode to (R47, R102), as `exec` of the decoded
instruction in the state whose clk has noted the issue; afterwards only the lookahead windows count on (R125).
That a step may bring no event is the model's choice (log 2). -/
def Obligations.StepRunsDecoded : Prop :=
  ∀ s c i, s.event? = none → s.noEvent.pickAny = some c → s.noEvent.comparator c = none → c.aux.dict = none →
    s.noEvent.landed c.w.core c.pc = true → decodeIssue (s.noEvent.words c.w.core c.pc) c.aux.hints = .ok i →
    step s = match exec i { s.noEvent.noteIssue c i with cur := some c.who } with
      | .next t => .next { t.closeIssue c i s.nextId with cur := none }
      | .fault r => .fault r
      | .refused r => .refused r

/-- The words that the spec itself works out (R111, R142, R147, R152 to R158, R161, R170, and the examples of its reference sections 06 to 09:
R202, R216, R223, and the programs after R232, R261, R265, R297) decode to the instructions that it gives for them. -/
def Obligations.DecodesWords : Prop :=
  decodeIssue [0xa008800c] 0 = .ok (.vld 1 2 0 1 4 none none) ∧
  decodeIssue [0x14c80002, 0x40101022] 0 = .ok (.vmul 0 2 1 1 (some { pfxOf none with pm := 3, rnd := 1, nb := true })) ∧
  decodeIssue [0x10000001, 0x60183388] 0 = .ok (.wideImmediateHint 1) ∧
  decodeIssue [0x10000001, 0x60183388] 1 = .ok (.viaddImm 3 3 0x388 (some 1) none) ∧
  decodeIssue [0x6018300c] 0 = .ok (.viaddImm 3 3 0x00c none none) ∧
  decodeIssue [0xac10c001] 0 = .ok (.vstRel 2 3 0 1 none none) ∧
  decodeIssue [0x04100000] 0 = .ok .exit ∧
  decodeIssue [0x18000001] 0 = .ok (.dict 0 1) ∧
  decodeIssue [0x0d404010] 0 = .ok (.brd 5 8 16 none) ∧
  decodeIssue [0x04300000] 0 = .ok .join ∧
  decodeIssue [0x04400000] 0 = .ok .fuse ∧
  decodeIssue [0x04600000] 0 = .ok .rte ∧
  decodeIssue [0x04000000] 0 = .ok .nop ∧
  decodeIssue [0x08803ffe] 0 = .ok (.brc 0 3 0xffe none) ∧
  decodeIssue [0x24183fff] 0 = .ok (.saddImm 3 3 0xfff none) ∧
  decodeIssue [0x28400000] 0 = .ok (.sli 8 0 none) ∧
  decodeIssue [0x28480040] 0 = .ok (.sli 9 0x40 none) ∧
  decodeIssue [0x04b10140] 0 = .ok (.cfetch 4 5) ∧
  decodeIssue [0x24a14001] 0 = .ok (.saddImm 20 20 1 none) ∧
  decodeIssue [0x04c00140] 0 = .ok (.cwait 5) ∧
  decodeIssue [0x09805000] 0 = .ok (.jmpf 5 0) ∧
  decodeIssue [0x05230001] 0 = .ok (.fence 3 1) ∧
  decodeIssue [0x05a180c0] 0 = .ok (.cpya 3 3) ∧
  decodeIssue [0x0540a0c0] 0 = .ok (.barx 5 3) ∧
  decodeIssue [0x14800800, 0x88284004] 0 = .ok (.wred 5 4 0 1 (some { pfxOf none with pm := 2, ty := 1 })) ∧
  decodeIssue [0xc04041f8] 0 = .ok (.vatomHome 8 1 3 15 0 none none) ∧
  decodeIssue [0xe2300010] 0 = .ok (.accz 3 0 1) ∧
  decodeIssue [0xe0304a80] 0 = .ok (.prime 3 1 5 4) ∧
  decodeIssue [0xe0b01054] 0 = .ok (.mma 3 1 1 5) ∧
  decodeIssue [0xe4b10430] 0 = .ok (.dqnz 3 8 4 3) ∧
  decodeIssue [0xecb0320c] 0 = .ok (.accrdMem 1 3 3 4 5) ∧
  decodeIssue [0xf0104214] 0 = .ok (.mvtx 2 2 5) ∧
  decodeIssue [0xd540c818] 0 = .ok (.tsmp 10 3 4 3 0 none none) ∧
  decodeIssue [0xf083c709] 0 = .ok (.glzres 15 14 2 1) ∧
  decodeIssue [0xf0a40310] 0 = .ok (.rbox 2 6 4) ∧
  decodeIssue [0xf0d0e240] 0 = .ok (.wtake 7 9 0)

/-- Decode and encode agree: the words of every well-formed instruction, hints and prefix included, decode to it again. -/
def Obligations.EncodeDecodes : Prop :=
  ∀ i : Instr, i.encoded = true → WellFormed i = true → decodeIssue (encode i) (encodeHints (attachOf i)).length = .ok i

/-- Every instruction and every event answers a next state in every state: no meaning faults and none refuses. -/
def Obligations.ExecAnswers : Prop := ∀ i s, ∃ t, exec i s = .next t

/-- Every step keeps memory in its canonical form, from every state that has it.
The form, and what an unlisted address reads, are the model's (log 1). -/
def Obligations.StepKeepsMemory : Prop := ∀ s t, MemWf s → step s = .next t → MemWf t

/-- What reset leaves (R154, R426, R466, R471): a module in the first boot stage that holds no wave, group or launch; memory lists nothing and is
canonical; every slot of every core is EMPTY, every accumulator tile FREE, and no context owns an accumulator store.
That memory lists nothing is the model's choice (log 1). -/
def Obligations.ResetState : Prop :=
  State.reset.boot.state = 0x01 ∧ State.reset.waves = [] ∧ State.reset.groups = [] ∧ State.reset.taken = [] ∧
    State.reset.mem = [] ∧ MemWf State.reset ∧ State.reset.cores.length = 64 ∧
    ∀ x ∈ State.reset.cores, x.clk = 0 ∧ x.acsown = 0xffff ∧ x.tst = [] ∧ ∀ k, (x.slot k).st = .empty

/-! ## The checks of a bundle and taking a trap (R142, R145, R43, R408 to R417) -/

namespace Sys2Proof

/-- The part `c` is the one that issues. -/
def Issuing (s : State) (c : Ctx) : Prop := s.cur = some c.who ∧ s.ctx? c.who = some c

/-- The checks before every instruction: a bundle that fails the checks of R142 raises ILLEGAL, a privileged one outside a handler
PRIV (R145), and one whose minimum width the wave cannot reach WIDTH_UNMET with that width (R43, R414); none has another effect. -/
def Claims.BundleChecks : Prop :=
  ∀ i s c, i.encoded = true → Issuing s c →
    (issueLegal i c = false → exec i s = .next (s.raise c (c.trap 0x01))) ∧
    (issueLegal i c = true → privileged i = true → c.hnd = false → exec i s = .next (s.raise c (c.trap 0x02))) ∧
    (∀ n, issueLegal i c = true → (privileged i = true → c.hnd = true) → wminI c.w.width i = some n → c.pwidth < n → c.w.width < n →
      exec i s = .next (s.raise c (c.trap 0x08 0 (BitVec.ofNat 32 n))))

/-- A reserved encoding raises ILLEGAL and has no other effect (R143): the meaning of the step at words that decode to nothing. -/
def Claims.ReservedEncodingTraps : Prop :=
  ∀ s c, Issuing s c → exec .reservedEncoding s = .next (s.raise c (c.trap 0x01))

/-- What entering the handler leaves of the trap `r` of the part in entry `e` of wave `w`, whose bank was `b` (R408, R409, R412, R413). -/
structure Entered (s t : State) (w v : Wave) (e : Nat) (b : QBank) (r : TrapRec) (tpc : CodeAddr) (more : Bool) : Prop where
  wave : t.wave? w.wid = some v
  bytes : ∀ k, t.mem.get k = s.mem.get k
  others : ∀ x, x ≠ w.wid → t.wave? x = s.wave? x
  run : v.handler.run = true
  pc : v.handler.pc = s.ctxTvec (((s.group? w.gid).map (·.ctx)).getD 0)
  scalars : v.handler.bank.sreg = w.handler.bank.sreg
  ts : v.handler.ts = b.sreg
  tcause : v.handler.treg.tcause = BitVec.ofNat 32 (r.code.toNat + 2 ^ 8 * r.sub.toNat) ||| bitIf 32 r.defer 16 ||| bitIf 32 more 17 |||
    bitIf 32 b.phase 18
  regs : v.handler.treg = { v.handler.treg with
    tpc := tpc.setWidth 32, tent := BitVec.ofNat 32 e, tinfo := r.info, taddr := r.addr, tmask := r.mask,
    tctx := BitVec.ofNat 32 (((s.group? w.gid).map (·.ctx)).getD 0), tlook := r.look }
  vectors : v.vreg = w.vreg ∧ v.mask = w.mask

/-- The wave of `c` has nothing left to complete, no other trap, and no other part that still issues in this clk; its handler's code is
there. -/
structure TrapsAtOnce (s : State) (c : Ctx) : Prop where
  part : c.hnd = false
  own : bitAt c.q c.part = true ∧ c.w.banks[c.part]? = some c.bank
  idle : c.w.handler.run = false
  done : c.w.pend = []
  only : c.w.trapped = [] ∧ c.aux.trap = none ∧ c.aux.later = none
  whole : ∀ e ∈ c.w.parts, (c.w.auxAt e).hints = 0
  live : s.frozen c.w = false
  last : ∀ e ∈ c.w.parts, (c.w.ent e).st = stReady → e ≠ c.ent → (s.core c.w.core).issued.contains ⟨c.w.wid, some e⟩ = true
  code : s.landed c.w.core (s.ctxTvec c.g.ctx) = true

/-- TRAP and BKPT: cause and code. -/
def softCause : Instr → Option (BitVec 8 × BitVec 14)
  | .trap k => some (0x13, k)
  | .bkpt k => some (0x11, k)
  | _ => none

/-- R169, R174, R408, R412: TRAP and BKPT enter the handler with their code in TINFO; RTE will resume at the next bundle, or in a DICT
at its other entry, and no other register changes. -/
def Claims.SoftwareTraps : Prop :=
  ∀ i s c code k, softCause i = some (code, k) → Issues i s c → TrapsAtOnce s c →
    ∃ t v b pc, exec i s = .next t ∧ b.sreg = c.bank.sreg ∧ b.phase = (c.aux.dict.isSome && !c.bank.phase) ∧
      pc = (if c.aux.dict.isSome && !c.bank.phase then c.pc else c.nextPc i) ∧
      Entered s t c.w v c.ent b { code, tpc := pc, info := k.setWidth 32, look := c.look } pc false

/-- R169, R174, R408, R409, R412: TRAP and BKPT complete: the wave runs its handler at TVEC, TCAUSE and TINFO say which instruction and which code, and
no byte of memory, vector register or mask changes. -/
def Claims.SoftwareTrapsComplete : Prop :=
  ∀ i s c code k, softCause i = some (code, k) → Issues i s c → TrapsAtOnce s c →
    ∃ t v, exec i s = .next t ∧ t.wave? c.w.wid = some v ∧ v.handler.run = true ∧ v.handler.pc = s.ctxTvec c.g.ctx ∧
      field v.handler.treg.tcause 0 8 = code.toNat ∧ v.handler.treg.tinfo = k.setWidth 32 ∧ v.handler.treg.tent = BitVec.ofNat 32 c.ent ∧
      v.vreg = c.w.vreg ∧ v.mask = c.w.mask ∧ ∀ j, t.mem.get j = s.mem.get j

/-- Wave `x` keeps its registers and its split table. -/
def KeepsRegs (s t : State) (x : Nat) : Prop :=
  ∀ w, s.wave? x = some w → ∃ u, t.wave? x = some u ∧ u.vreg = w.vreg ∧ u.mask = w.mask ∧ u.split = w.split ∧ u.banks = w.banks ∧ u.handler = w.handler

/-- R410: every fault `r` that a handler part raises is a double fault: the wave stays stopped with its registers, no part of it issues again, and a
record with DBL and the first cause is made for the function that owns the context. A bundle of a handler part that fails its checks is such
a fault. -/
def Claims.HandlerDoubleFaults : Prop :=
  (∀ s c (r : TrapRec), Issuing s c → c.hnd = true →
    ∃ v, (s.raise c r).wave? c.w.wid = some v ∧ v.dead = true ∧ v.vreg = c.w.vreg ∧ v.mask = c.w.mask ∧ v.split = c.w.split ∧ v.banks = c.w.banks ∧
      (∀ x, x ≠ c.w.wid → KeepsRegs s (s.raise c r) x) ∧
      ∃ n, (s.raise c r).rids = s.rids ++ [n] ∧ (∀ x ∈ s.rids, x.rid ≠ n.rid) ∧ n.func = s.ctxFunc c.g.ctx ∧ n.ctx = c.g.ctx ∧ n.parks = false ∧
        let f := s.func (s.ctxFunc c.g.ctx)
        (f.fbwait = [] → (f.fbtail - f.fbhead).toNat < 2 ^ field f.fbctl 0 4 → s.poison = [] → s.ctxFunc c.g.ctx < s.funcs.length →
          let words := [0, 1, 2].map fun k => (s.raise c r).rd64 (hostKey (f.fbbase.toNat + 32 * (f.fbtail.toNat % 2 ^ field f.fbctl 0 4)) + 8 * k)
          words = [place 64 c.g.ctx 48 ||| place 64 (s.core c.w.core).phys 40 ||| place 64 (field c.w.handler.treg.tcause 0 8) 32 ||| bitIf 64 true 21 |||
                     BitVec.ofNat 64 n.rid,
                   BitVec.ofNat 64 (c.w.handler.treg.taddr.toNat % 2 ^ 57),
                   BitVec.ofNat 64 r.code.toNat ||| place 64 (field c.w.handler.treg.tpc 0 17) 32])) ∧
  ∀ i s c, i.encoded = true → Issuing s c → c.hnd = true → issueLegal i c = false → exec i s = .next (s.raise c (c.trap 0x01))

/-- R170, R417: RTE over a well-formed table, with no other trap pending and no wait that ended meanwhile (R46), ends the handler: every scalar copy of the trapped part takes
TS0 to TS63 and TCAUSE.PHASE, the part's PC is TPC, and its lookahead state is that of TLOOK. -/
def Claims.ReturnResumes : Prop :=
  ∀ s c, Issues .rte s c → c.w.tableWf = true →
    (∀ k, (c.w.auxAt k).trap = none ∧ (c.w.auxAt k).later = none ∧ (∀ b, (c.w.auxAt k).park ≠ .over b) ∧ ∀ r, (c.w.auxAt k).park ≠ .hit r) →
    (c.w.ent (field c.w.handler.treg.tent 0 4)).isPart = true →
    ∃ t v, exec .rte s = .next t ∧ t.wave? c.w.wid = some v ∧ v.handler.run = false ∧
      (v.ent (field c.w.handler.treg.tent 0 4)).pc = bits c.w.handler.treg.tpc 0 17 ∧
      (c.w.aux.length = 16 → (v.auxAt (field c.w.handler.treg.tent 0 4)).look = c.w.handler.treg.tlook) ∧
      (∀ q b, bitAt (c.w.ent (field c.w.handler.treg.tent 0 4)).qmask q = true → v.banks[q]? = some b →
        b.sreg = c.w.handler.ts ∧ b.phase = bitAt c.w.handler.treg.tcause 18) ∧
      v.vreg = c.w.vreg ∧ v.mask = c.w.mask ∧ (∀ k, t.mem.get k = s.mem.get k) ∧ ∀ x, x ≠ c.w.wid → t.wave? x = s.wave? x

/-- R30, R170: RTE over a table that is not well-formed raises ILLEGAL in the handler, and the wave stays stopped. -/
def Claims.ReturnNeedsTable : Prop :=
  ∀ s c, Issues .rte s c → c.w.tableWf = false → ∃ t v, exec .rte s = .next t ∧ t.wave? c.w.wid = some v ∧ v.dead = true

end Sys2Proof

/-- The checks before every instruction (R142, R143, R145, R43, R414). -/
def Obligations.IssueChecks : Prop := Claims.BundleChecks ∧ Claims.ReservedEncodingTraps

/-- R408, R415: a pending trap that may be entered is entered for the part with the lowest quad; the trap registers take the values of
R412, the handler starts at TVEC and keeps its own scalars. -/
def Obligations.TrapEntry : Prop :=
  ∀ s wid w e rest r, s.wave? wid = some w → w.trapped = e :: rest → s.mayEnter w = true → (w.auxAt e).trap = some r →
    s.landed w.core (s.ctxTvec (((s.group? w.gid).map (·.ctx)).getD 0)) = true →
    ∃ t v, exec (.trapEntry wid) s = .next t ∧ v.split = w.split ∧ v.banks = w.banks ∧
      Entered s t w v e (w.bankOf e) r (if r.late then (w.ent e).pc else r.tpc) (!rest.isEmpty || (w.auxAt e).later.isSome)

/-- TRAP, BKPT and a fault in a handler part (R169, R174, R408, R410, R412). -/
def Obligations.TrapsTaken : Prop := Claims.SoftwareTraps ∧ Claims.HandlerDoubleFaults

/-- RTE (R30, R170, R417): the return from the handler, and the check of the split table before it; and TRAP and BKPT, which enter it (R169, R174). -/
def Obligations.TrapReturns : Prop := Claims.ReturnResumes ∧ Claims.ReturnNeedsTable ∧ Claims.SoftwareTrapsComplete

/-! ## Across lanes (R197 to R202), special functions (R59, R184) -/

namespace Sys2Proof

/-- VSHFL and VBCST: prefix, type, destination, source register, PZ, and the lane from which lane l takes its element (R197 to R199). -/
def shuffleRow (c : Ctx) : Instr → Option (Option Pfx × BitVec 7 × BitVec 7 × BitVec 1 × (Nat → Nat))
  | .vshfl d a b w g p => some (p, d, a, g, fun l => l - l % wminOf w + (c.v b.toNat l).toNat % wminOf w)
  | .vbcst d a b w g p => some (p, d, a, g, fun l => l - l % wminOf w + (if 64 ≤ b.toNat then (c.s (b.toNat - 64)).toNat else b.toNat) % wminOf w)
  | _ => none

/-- R200: VBALLOT writes the bits of mask A over active(P) into a scalar pair; its word has the major 0x23, D even and FN = 4 WM. -/
def Claims.BallotResult : Prop :=
  (∀ s c d a w p, Issues (.vballot d a w p) s c →
    WritesScalars (.vballot d a w p) s c (intoPair d (c.active p &&& c.mask a.toNat).toNat)) ∧
  ∀ d a w p, (encodeWord (.vballot d a w p)).toNat = wordOf 0x23 (2 * d.toNat) a.toNat 0 (4 * w.toNat)

/-- R201: VCONF sets the bit of each lane of active(P) whose element an earlier lane of active(P) in its window holds; its
word has the major 0x23 and FN = 4 WM + 1. -/
def Claims.ConflictResult : Prop :=
  (∀ s c d a w p, Issues (.vconf d a w p) s c →
    WritesMask (.vconf d a w p) s c p d fun l =>
      (List.range 64).any fun j => decide (l - l % wminOf w ≤ j ∧ j < l) && bitAt (c.active p) j && el c (tyD p .b32) a j == el c (tyD p .b32) a l) ∧
  ∀ d a w p, (encodeWord (.vconf d a w p)).toNat = wordOf 0x23 d.toNat a.toNat 0 (4 * w.toNat + 1)

/-- The inputs x[0] to x[W - 1] of the window of lane `l` for operation `o` (R202): `none` is ABSENT; a float is flushed under FTZ (R53), and a NaN
that is added or compared, also with ABSENT alone, gives the canonical NaN (R52), where a bitwise operation keeps it. -/
def windowOf (c : Ctx) (p : Option Pfx) (a : BitVec 7) (o w : BitVec 3) (l : Nat) : List (Option Nat) :=
  let y := tyD p .i32
  (List.range (wminOf w)).map fun i =>
    let x := el c y a (l - l % wminOf w + i)
    let nan := decide (o.toNat ≤ 2) && (y.fmt.value x).isNan
    if bitAt (c.active p) (l - l % wminOf w + i) then
      some (if !y.isFloat then x else if nan then y.fmt.nanBits else y.fmt.flush (pfxOf p).ftz x)
    else none

/-- A long-latency instruction of part `c` is pending in `t` (R124 to R126): its wave is `v`, its record `x` stands last, the part has
moved past it, and no register, no byte of memory and no other wave has changed. -/
structure Pending (i : Instr) (s t : State) (c : Ctx) (l : BitVec 4) (v : Wave) (x : Pend) : Prop where
  wave : t.wave? c.w.wid = some v
  pend : v.pend = c.w.pend ++ [x]
  window : x.win = if l = 15 then none else some l.toNat
  frame : RegFrame c { v with pend := c.w.pend } (fun _ => False) (fun _ _ => False) (fun _ _ => False)
  moved : MovedPast i c v
  bytes : ∀ k, t.mem.get k = s.mem.get k
  others : ∀ x, x ≠ c.w.wid → t.wave? x = s.wave? x

/-- The special functions: function, type, destination, source, L, prefix. -/
def specialRow : Instr → Option (Sf × Ty × BitVec 7 × BitVec 7 × BitVec 4 × Option Pfx)
  | .vrcp t d a l p => some (.rcp, tyD p (if t = 0 then .f32 else .f16), d, a, l, p)
  | .vrsq t d a l p => some (.rsq, tyD p (if t = 0 then .f32 else .f16), d, a, l, p)
  | .vsqrt t d a l p => some (.sqrt, tyD p (if t = 0 then .f32 else .f16), d, a, l, p)
  | .vexp2 t d a l p => some (.exp2, tyD p (if t = 0 then .f32 else .f16), d, a, l, p)
  | .vlog2 t d a l p => some (.log2, tyD p (if t = 0 then .f32 else .f16), d, a, l, p)
  | .vsin t d a l p => some (.sin, tyD p (if t = 0 then .f32 else .f16), d, a, l, p)
  | .vcos t d a l p => some (.cos, tyD p (if t = 0 then .f32 else .f16), d, a, l, p)
  | .vtanh t d a l p => some (.tanh, tyD p (if t = 0 then .f32 else .f16), d, a, l, p)
  | _ => none

/-- The operand of a special function: sign forms, then FTZ. -/
def specialOperand (c : Ctx) (p : Option Pfx) (y : Ty) (a : BitVec 7) (l : Nat) : Fl :=
  y.fmt.read (pfxOf p).ftz (y.fmt.signForm (pfxOf p).na (pfxOf p).aa (el c y a l))

end Sys2Proof

/-- R198, R199: a shuffle whose source lanes are readable, or with PZ, completes with the element of the source lane, 0 where that lane
is not readable; without PZ an unreadable source lane raises LANE with the failing lanes in TMASK, and nothing else happens. Their
words have the majors 0x20 and 0x21 and FN = 4 WM + 2 PZ. -/
def Obligations.ShuffleResults : Prop :=
  (∀ i s c p d a g src, shuffleRow c i = some (p, d, a, g, src) → Issues i s c →
    let fails := fun (l : Nat) => bitAt (c.active p) l && !bitAt (c.active p) (src l)
    ((g = 1 ∨ ∀ l < 64, fails l = false) →
      WritesLanes i s c p (tyD p .b32) d fun l => if bitAt (c.active p) (src l) then el c (tyD p .b32) a (src l) else 0) ∧
    ((g = 0 ∧ ∃ l < 64, fails l = true) →
      exec i s = .next (s.raise c (c.trap 0x06 0 0 0 (laneMask ((List.range 64).filter fails)))))) ∧
  (∀ d a b w g p, (encodeWord (.vshfl d a b w g p)).toNat = wordOf 0x20 d.toNat a.toNat b.toNat (4 * w.toNat + 2 * g.toNat)) ∧
  ∀ d a b w g p, (encodeWord (.vbcst d a b w g p)).toNat = wordOf 0x21 d.toNat a.toNat b.toNat (4 * w.toNat + 2 * g.toNat)

/-- VBALLOT and VCONF (R200, R201). -/
def Obligations.BallotAndConflict : Prop := Claims.BallotResult ∧ Claims.ConflictResult

/-- R202: WRED leaves x[0] of its window in every lane of active(P) of it; WSCAN leaves y[i], or with X what stood before it, or the
identity. -/
def Obligations.WindowResults : Prop :=
  (∀ s c d a o w p, Issues (.wred d a o w p) s c → WritesLanes (.wred d a o w p) s c p (tyD p .i32) d fun l =>
    ((((combOf o p).reduce (fun j i => s.rnd p (64 * j + (l - l % wminOf w) + i)) (wminOf w).log2 0 1 (windowOf c p a o w l)).headD none)).getD 0) ∧
  (∀ s c d a o e w p, Issues (.wscan d a o e w p) s c → WritesLanes (.wscan d a o e w p) s c p (tyD p .i32) d fun l =>
    let y := (combOf o p).scan (fun j i => s.rnd p (64 * j + (l - l % wminOf w) + i)) (wminOf w).log2 0 1 (windowOf c p a o w l)
    if e = 0 then ((y[l % wminOf w]?).getD none).getD 0
    else if l % wminOf w = 0 then (combOf o p).ident else ((y[l % wminOf w - 1]?).getD none).getD (combOf o p).ident)

/-- R202: an integer WRED.add without SAT leaves in every lane of active(P) the sum of its window's elements, modulo 2^n. -/
def Obligations.WredAdds : Prop :=
  ∀ s c d a w p, Issues (.wred d a 0 w p) s c → (tyD p .i32).isFloat = false → (pfxOf p).sat = false →
    WritesLanes (.wred d a 0 w p) s c p (tyD p .i32) d fun l =>
      wrapInt (tyD p .i32).bits (((windowOf c p a 0 w l).filterMap id).map fun x => intVal (tyD p .i32) x).sum

/-- R59, R184: a special function completes issue with its results pending; at the special inputs of R59's table a lane's result is the
one that the table states, and VEXP2 of a zero is exactly 1, which is the model's choice (log 42); other results are free within R59's bounds
(log 14). -/
def Obligations.SpecialFunctions : Prop :=
  ∀ i s c f y d a l p, specialRow i = some (f, y, d, a, l, p) → Issues i s c →
    ∃ t v x, exec i s = .next t ∧ Pending i s t c l v x ∧ x.quads = c.q ∧ x.vdst = [d.toNat] ∧ x.sres = [] ∧
      (∀ r ∈ x.vres, ∃ n < 64, r.1 = 64 * d.toNat + n ∧ (bitAt (c.active p) n = true ∨ bitAt (c.zeroLanes p) n = true)) ∧
      (∀ n < 64, bitAt (c.zeroLanes p) n = true → (64 * d.toNat + n, (0 : Word)) ∈ x.vres) ∧
      ∀ n < 64, bitAt (c.active p) n = true → ∃ r, (64 * d.toNat + n, BitVec.ofNat 32 r) ∈ x.vres ∧
        ∀ q, f.stated y.fmt (specialOperand c p y a n) = some q → r % 2 ^ y.bits = q

/-! ## Branches and jumps (R147 to R149, R158) -/

namespace Sys2Proof

/-- The condition of BRC (R147), over the lanes of m0. -/
def brcHolds (c : Ctx) (k : BitVec 4) (r : BitVec 7) : Bool :=
  match k.toNat with
  | 0 => decide (c.s r.toNat ≠ 0)
  | 1 => decide (c.s r.toNat = 0)
  | 2 => (List.range 64).any fun l => bitAt c.m0 l && bitAt (c.mask r.toNat) l
  | 3 => !(List.range 64).any fun l => bitAt c.m0 l && bitAt (c.mask r.toNat) l
  | _ => (List.range 64).all fun l => !bitAt c.m0 l || bitAt (c.mask r.toNat) l

/-- The lanes that take a BRD (R150): in m0 and in mK, m0 itself for K = 0. -/
def brdTakes (c : Ctx) (k : BitVec 4) : Lanes := c.m0 &&& c.mask k.toNat

/-- Quad `q` of the part has an active lane of m0 that takes, one that does not (R31). -/
def quadTakes (c : Ctx) (take : Lanes) (q : Nat) : Bool := (List.range 4).any fun j => bitAt c.m0 (4 * q + j) && bitAt take (4 * q + j)

def quadFalls (c : Ctx) (take : Lanes) (q : Nat) : Bool := (List.range 4).any fun j => bitAt c.m0 (4 * q + j) && !bitAt take (4 * q + j)

/-- A BRD is uniform (R31): not one quad of the part takes while one falls through. -/
def brdUniform (c : Ctx) (take : Lanes) : Bool := !((quadsOf c.q).any (quadTakes c take) && (quadsOf c.q).any (quadFalls c take))

/-- What a transfer does: the packet it traces (R458), the scalar it links, and where it goes; `none` falls through. -/
def transferRow (s : State) (c : Ctx) : Instr → Option (State × List (Nat × Int) × Option CodeAddr)
  | .bra o x => some (s, [], some (c.wordAddr (.bra o x) + bOffset o x))
  | .brc k r o x => some (s.tracePart c 3 (if brcHolds c k r then 1 else 0) [], [],
      if brcHolds c k r then some (c.wordAddr (.brc k r o x) + bOffset o x) else none)
  | .call d o x => some (s, [(d.toNat, (c.wordAddr (.call d o x) + 1).toNat)], some (c.wordAddr (.call d o x) + bOffset o x))
  | .ret a => some (s.tracePart c 4 0 [(bits (c.s a.toNat) 0 17).setWidth 32], [], some (bits (c.s a.toNat) 0 17))
  | .jmpf sl o => if s.landed c.w.core (sl ++ o) then some (s, [], some (sl ++ o)) else none
  | .brd k t j x => if brdUniform c (brdTakes c k) then
      some (s.tracePart c 3 (if brdTakes c k = 0 then 0 else 1) [], [],
        if brdTakes c k = 0 then none else some (c.wordAddr (.brd k t j x) + dOffset t (x.map (·.tx))))
      else none
  | _ => none

/-- The clk after that of a transfer from which on the target's bundle is eligible (R146): the third for a JMPF, else the second. -/
def transferLate : Instr → Nat
  | .jmpf .. => 3
  | _ => 2

/-- R146 to R150, R158: BRA, BRC, CALL, RET, a JMPF to a LANDED slot and a uniform BRD transfer the whole part, or let it fall through;
CALL links the address after its word; a backward branch rotates the part's paths (R34); the target is eligible some clk later; nothing else
changes. -/
def Claims.Transfers : Prop :=
  ∀ i s c s1 links target, transferRow s c i = some (s1, links, target) → Issues i s c →
    ∃ t v v0, exec i s = .next t ∧ Leaves s1 t c v ∧ (∀ k, t.mem.get k = s.mem.get k) ∧
      RegFrame c v0 (fun r => r ∈ links.map (·.1)) (fun _ _ => False) (fun _ _ => False) ∧
      (∀ q b, holds c q = true → scalarCopy v0 q = some b → ∀ x ∈ links, b.sreg.get x.1 = BitVec.ofInt 32 x.2) ∧
      match target with
      | none => v = v0 ∧ MovedPast i c v0
      | some a => pcIn c v0 = a ∧
          v = c.setAux (if c.hnd = false ∧ a.toNat ≤ (c.wordAddr i).toNat then v0.rotate c.ent else v0) fun x => { x with elig := transferLate i }

/-- R158: a JMPF to a slot that is not LANDED raises CODE_ABSENT at itself. -/
def Claims.JumpNeedsCode : Prop :=
  ∀ s c sl o, Issues (.jmpf sl o) s c → s.landed c.w.core (sl ++ o) = false →
    exec (.jmpf sl o) s = .next (s.raise c (c.trap 0x09 0 (sl.setWidth 32) ((sl ++ o).setWidth 64)))

end Sys2Proof

/-- Branches, calls and jumps of a whole part (R147 to R150, R158). -/
def Obligations.TransferResults : Prop := Claims.Transfers ∧ Claims.JumpNeedsCode

/-- R34: a rotation exchanges PC, LMASK and dictionary phase of the running path with those of the most recently created PENDING record;
a part without one keeps its path, and no register changes. -/
def Obligations.RotationExchanges : Prop :=
  ∀ (w : Wave) e, (w.ent e).isPart = true →
    match (w.records e).filter fun r => (w.ent r).st == 0 with
    | [] => w.rotate e = w
    | r :: _ =>
      ((w.rotate e).ent e).pc = (w.ent r).pc ∧ ((w.rotate e).ent e).lmask = (w.ent r).lmask ∧
      ((w.rotate e).ent r).pc = (w.ent e).pc ∧ ((w.rotate e).ent r).lmask = (w.ent e).lmask ∧
      ((w.rotate e).ent r).dph = (w.bankOf e).phase ∧
      (∀ q b, bitAt (w.ent e).qmask q = true → (w.rotate e).banks[q]? = some b → b.phase = (w.ent r).dph) ∧
      (w.rotate e).vreg = w.vreg ∧ (w.rotate e).mask = w.mask

/-! ## Divergence (R30 to R44, R150 to R153, R159) -/

namespace Sys2Proof

/-- Where a BRD goes: target, fall-through, join (R150). -/
def brdTarget (c : Ctx) (k : BitVec 4) (t j : BitVec 11) (x : Option BExt) : CodeAddr := c.wordAddr (.brd k t j x) + dOffset t (x.map (·.tx))

def brdFall (c : Ctx) (k : BitVec 4) (t j : BitVec 11) (x : Option BExt) : CodeAddr := c.wordAddr (.brd k t j x) + 1

def brdJoin (c : Ctx) (k : BitVec 4) (t j : BitVec 11) (x : Option BExt) : CodeAddr := c.wordAddr (.brd k t j x) + dOffset j (x.map (·.jx))

/-- The BRD of a part narrows its path instead of splitting (R33, R151). -/
def brdNarrows (c : Ctx) : Bool := bits c.w.splpol 0 2 == 1#2 || !(c.w.records c.ent).isEmpty

/-- Registers, scalar copies and masks are as they were. -/
def SameRegs (w v : Wave) : Prop := v.banks.map (·.sreg) = w.banks.map (·.sreg) ∧ v.vreg = w.vreg ∧ v.mask = w.mask ∧ v.handler = w.handler

/-- R33, R148, R151: a BRD that narrows keeps its taking lanes at the target and leaves its falling lanes in one PENDING record in the
lowest free entry; a backward one then rotates. No other entry and no register changes. -/
def Claims.BrdNarrows : Prop :=
  ∀ s c k t j x r rs, Issues (.brd k t j x) s c → brdUniform c (brdTakes c k) = false → brdNarrows c = true →
    c.w.freeEnts = r :: rs → c.w.split.length = 16 →
    ∃ u v v0, exec (.brd k t j x) s = .next u ∧ u.wave? c.w.wid = some v ∧ (∀ a, u.mem.get a = s.mem.get a) ∧
      (∀ y, y ≠ c.w.wid → u.wave? y = s.wave? y) ∧
      v = (if (brdTarget c k t j x).toNat ≤ (c.wordAddr (.brd k t j x)).toNat then v0.rotate c.ent else v0).late c.ent ∧ SameRegs c.w v0 ∧
      v0.ent c.ent = { c.w.ent c.ent with pc := brdTarget c k t j x, lmask := brdTakes c k } ∧
      v0.ent r = { kind := 3, pv := true, parent := BitVec.ofNat 4 c.ent, qmask := c.q, pc := brdFall c k t j x,
                   lmask := c.m0 &&& ~~~brdTakes c k, jpc := brdJoin c k t j x } ∧
      ∀ e, e ≠ c.ent → e ≠ r → v0.ent e = c.w.ent e

/-- R32, R33: a BRD that needs more entries than are free raises SPLIT_OVF at itself with the number needed, and does nothing else. -/
def Claims.BrdOverflows : Prop :=
  ∀ s c k t j x, Issues (.brd k t j x) s c → brdUniform c (brdTakes c k) = false →
    let n := if brdNarrows c then 1 else entriesNeeded (decomposePart c.q c.m0 (brdTakes c k))
    c.w.freeEnts.length < n → exec (.brd k t j x) s = .next (s.raise c (c.trap 0x07 0 (BitVec.ofNat 32 n)))

/-- The nearest OPEN join record above an entry (R38). -/
def openAbove (w : Wave) (e : Nat) : Option Nat := (w.ancestors 16 e).find? fun j => (w.ent j).isJoin && (w.ent j).st == 0

end Sys2Proof

/-- R32: a BRD that splits turns its part's entry into an OPEN join record; every lane of m0 stands in a new entry, at the target if it
takes and at the fall-through if it does not, the entry being a READY part below the record or a PENDING record below such a part;
entries that were in use and registers stay. -/
def Obligations.BrdSplits : Prop :=
  ∀ s c k t j x, Issues (.brd k t j x) s c → brdUniform c (brdTakes c k) = false → brdNarrows c = false →
    c.w.entWf c.ent = true → c.w.split.length = 16 → entriesNeeded (decomposePart c.q c.m0 (brdTakes c k)) ≤ c.w.freeEnts.length →
    ∃ u v, exec (.brd k t j x) s = .next u ∧ u.wave? c.w.wid = some v ∧ (∀ a, u.mem.get a = s.mem.get a) ∧
      (∀ y, y ≠ c.w.wid → u.wave? y = s.wave? y) ∧ SameRegs c.w v ∧
      v.ent c.ent = { c.w.ent c.ent with
        kind := 2, st := 0, pc := c.wordAddr (.brd k t j x), jpc := brdJoin c k t j x, jany := false, arrq := 0, tcnt := 0 } ∧
      (∀ e, e ≠ c.ent → (c.w.ent e).kind ≠ 0 → v.ent e = c.w.ent e) ∧
      (∀ l, bitAt c.m0 l = true → ∃ e, (c.w.ent e).kind = 0 ∧ (v.ent e).kind ≠ 0 ∧ bitAt (v.ent e).lmask l = true) ∧
      ∀ e l, (c.w.ent e).kind = 0 → (v.ent e).kind ≠ 0 → bitAt (v.ent e).lmask l = true →
        bitAt c.m0 l = true ∧ (v.ent e).st = 0 ∧ (v.ent e).pv = true ∧ bitAt (v.ent e).qmask (l / 4) = true ∧
        (v.ent e).pc = (if bitAt (brdTakes c k) l then brdTarget c k t j x else brdFall c k t j x) ∧
        (((v.ent e).isPart = true ∧ (v.ent e).parent = BitVec.ofNat 4 c.ent) ∨
          ((v.ent e).isPath = true ∧ (v.ent e).jpc = brdJoin c k t j x ∧ (v.ent (v.ent e).parent.toNat).isPart = true ∧
            (v.ent (v.ent e).parent.toNat).parent = BitVec.ofNat 4 c.ent ∧ (v.ent (v.ent e).parent.toNat).qmask = (v.ent e).qmask))

/-- BRDs that narrow, and BRDs for which entries are missing (R32, R33, R148, R151). -/
def Obligations.BrdNarrowsOrTraps : Prop := Claims.BrdNarrows ∧ Claims.BrdOverflows

/-- R35, R39, R40, R152: a JOIN of a part in a wave without a STUB. It exchanges the path for a PENDING record that names it; without a
record it waits at the nearest OPEN record that names it, completes that record when it arrives last, and passes when no record names
it. -/
def Obligations.JoinResults : Prop :=
  ∀ s c, Issues .join s c → c.w.hasStub = false → c.w.split.length = 16 →
    ∃ u v, exec .join s = .next u ∧ u.wave? c.w.wid = some v ∧ (∀ a, u.mem.get a = s.mem.get a) ∧
      (∀ y, y ≠ c.w.wid → u.wave? y = s.wave? y) ∧ v.vreg = c.w.vreg ∧ v.mask = c.w.mask ∧
      (∀ r rs, c.w.records c.ent = r :: rs → (c.w.ent r).jpc = c.pc → (c.w.ent r).st = 0 →
        (v.ent c.ent).pc = (c.w.ent r).pc ∧ (v.ent c.ent).lmask = (c.w.ent r).lmask ∧
        (v.ent r).st = 1 ∧ (v.ent r).pc = c.pc ∧ (v.ent r).lmask = (c.w.ent c.ent).lmask) ∧
      (c.w.records c.ent = [] → openAbove c.w c.ent = none → SameRegs c.w v ∧ (v.ent c.ent).pc = c.pc + 1 ∧
        ∀ e, e ≠ c.ent → v.ent e = c.w.ent e) ∧
      (∀ j, c.w.records c.ent = [] → openAbove c.w c.ent = some j → (c.w.ent j).jany = false → (c.w.ent j).jpc ≠ c.pc →
        SameRegs c.w v ∧ (v.ent c.ent).pc = c.pc + 1 ∧ ∀ e, e ≠ c.ent → v.ent e = c.w.ent e) ∧
      (∀ j k, c.w.records c.ent = [] → openAbove c.w c.ent = some j → j ≠ c.ent → (c.w.ent j).jany = false → (c.w.ent j).jpc = c.pc →
        k ∈ c.w.under j → (c.w.ent k).isPart = true → k ≠ c.ent → (c.w.ent k).st ≠ 1 →
        SameRegs c.w v ∧ v.ent c.ent = { c.w.ent c.ent with st := 1, pc := c.pc, tcnt := 0 } ∧
        v.ent j = { c.w.ent j with arrq := (c.w.ent j).arrq ||| c.q } ∧ ∀ e, e ≠ c.ent → e ≠ j → v.ent e = c.w.ent e) ∧
      (∀ j, c.w.records c.ent = [] → openAbove c.w c.ent = some j → j ≠ c.ent → (c.w.ent j).jany = false → (c.w.ent j).jpc = c.pc →
        (c.w.ent j).pv = false → c.ent ∈ c.w.under j →
        (∀ k ∈ c.w.under j, (c.w.ent k).isPart = true → k ≠ c.ent → (c.w.ent k).st = 1 ∧ (c.w.ent k).pc = c.pc) →
        v.ent j = { kind := 1, parent := (c.w.ent j).parent, qmask := (c.w.ent j).qmask, lmask := (c.w.ent j).lmask &&& c.w.living,
                    pc := c.pc + 1 } ∧
        ∀ k ∈ c.w.under j, v.ent k = {})

/-- R42, R153: FUSE of a part without records. A part that is the whole wave passes; one whose other parts are elsewhere becomes FWAIT;
the last to arrive makes the wave one READY part after the FUSE, with the scalars of the part of the lowest quad. -/
def Obligations.FuseResults : Prop :=
  ∀ s c, Issues .fuse s c → c.w.hasStub = false → c.w.split.length = 16 → c.w.records c.ent = [] → s.instrAt c.w.core c.pc = some .fuse →
    ((∀ e < 16, e ≠ c.ent → (c.w.ent e).kind = 0) → ∃ u v, exec .fuse s = .next u ∧ Leaves s u c v ∧ pcIn c v = c.pc + 1 ∧
      RegFrame c v (fun _ => False) (fun _ _ => False) (fun _ _ => False)) ∧
    ((∃ e ∈ c.w.parts, e ≠ c.ent) → (∀ e ∈ c.w.parts, e ≠ c.ent → (c.w.ent e).st ≠ 2) →
      ∃ u v, exec .fuse s = .next u ∧ Leaves s u c v ∧ SameRegs c.w v ∧
        v.ent c.ent = { c.w.ent c.ent with st := 2, tcnt := 0 } ∧ ∀ e, e ≠ c.ent → v.ent e = c.w.ent e) ∧
    ((∃ e ∈ c.w.parts, e ≠ c.ent) → (∀ e ∈ c.w.parts, e ≠ c.ent → (c.w.ent e).st = 2 ∧ (c.w.ent e).pc = c.pc) →
      ∃ u v root, exec .fuse s = .next u ∧ u.wave? c.w.wid = some v ∧ (∀ a, u.mem.get a = s.mem.get a) ∧
        (∀ y, y ≠ c.w.wid → u.wave? y = s.wave? y) ∧ v.vreg = c.w.vreg ∧ v.mask = c.w.mask ∧
        v.ent root = { kind := 1, qmask := c.w.allQuads, lmask := c.w.living, pc := c.pc + 1 } ∧
        (∀ e, e ≠ root → (v.ent e).kind = 0) ∧
        ∀ b, c.w.banks[c.w.lowestOf c.w.parts]? = some b → ∀ q b', bitAt c.w.allQuads q = true → v.banks[q]? = some b' → b' = { b with order := b'.order })

/-- R159, R160: EXIT outside a handler ends the lanes of m0; the wave whose last lanes they are gives back its registers, masks and table. In a handler part it is a double fault
(R410). -/
def Obligations.ExitResults : Prop :=
  ∀ s c, Issues .exit s c →
    (c.hnd = false → ∃ u, exec .exit s = .next u ∧ ∀ v, u.wave? c.w.wid = some v → v.exited = c.w.exited ||| c.m0 ∧
      (c.w.living = c.m0 → v.living = 0 ∧ v.vreg = [] ∧ v.mask = [] ∧ ∀ e, (v.ent e).kind = 0)) ∧
    (c.hnd = true → ∃ u v, exec .exit s = .next u ∧ u.wave? c.w.wid = some v ∧ v.dead = true ∧ v.exited = c.w.exited)

/-! ## Hints, dictionaries, special registers, split-table access, regions, waits (R102, R130, R161 to R176) -/

namespace Sys2Proof

/-- What a scalar special register reads as (R24, R73, R412): the registers that SRD writes. -/
def srdValue (s : State) (c : Ctx) (d n : Nat) : Option (List (Nat × Int)) :=
  let h := c.w.handler
  match n with
  | 0x002 => some [(d, c.w.idx)]
  | 0x003 => some [(d, c.part)]
  | 0x004 => some [(d, c.w.width)]
  | 0x005 => some [(d, c.pwidth)]
  | 0x006 => some [(d, c.g.group.toNat)]
  | 0x007 => some [(d, c.g.cohort.toNat)]
  | 0x008 => some [(d, (s.core c.w.core).clk.toNat), (d + 1, (s.core c.w.core).clk.toNat / 2 ^ 32)]
  | 0x009 => some [(d, c.w.fuseto.toNat)]
  | 0x00a => some [(d, c.w.splpol.toNat)]
  | 0x00b => some [(d, c.qtc.toNat)]
  | 0x00c => some [(d, (s.core c.w.core).acsown.toNat)]
  | 0x100 => some [(d, h.treg.tcause.toNat)]
  | 0x101 => some [(d, h.treg.tpc.toNat)]
  | 0x102 => some [(d, h.treg.tent.toNat)]
  | 0x103 => some [(d, h.treg.tinfo.toNat)]
  | 0x104 => some [(d, h.treg.taddr.toNat), (d + 1, h.treg.taddr.toNat / 2 ^ 32)]
  | 0x106 => some [(d, h.treg.tmask.toNat), (d + 1, h.treg.tmask.toNat / 2 ^ 32)]
  | 0x108 => some [(d, h.treg.tctx.toNat)]
  | 0x109 => some [(d, h.treg.tlook.toNat)]
  | n => if 0x140 ≤ n ∧ n ≤ 0x17f then some [(d, (h.ts.get (n - 0x140)).toNat)] else none

/-- R24, R168, R412: SRD of LANE and QUAD writes the lane's and the quad's index into the lanes of m0; SRD of any other special register
writes its value into the part's scalars. -/
def Claims.SpecialRegisterReads : Prop :=
  (∀ s c d, Issues (.srd d 0) s c → WritesLanes (.srd d 0) s c none .b32 d fun l => l) ∧
  (∀ s c d, Issues (.srd d 1) s c → WritesLanes (.srd d 1) s c none .b32 d fun l => l / 4) ∧
  ∀ s c d n rs, srdValue s c d.toNat n.toNat = some rs → Issues (.srd d n) s c → WritesScalars (.srd d n) s c rs

/-- The bits of the four words of an entry that are not reserved (R27); JPC reads 0 in a running part. -/
def entryMask (part : Bool) (k : Nat) : DWord :=
  match k with | 0 => 0xfff0ffff0001ffff | 1 => 0xffffffffffffffff | 2 => if part then 0x000001fffff00000 else 0x000001fffff1ffff | _ => 0xffff

/-- R27, R171: SPLRD reads a word of an entry into a scalar pair; SPLWR writes one, whose reserved bits then read 0, and leaves the
entry's other words, every other entry and every register as they were; a JPC that a new KIND shows or hides keeps its value. -/
def Claims.SplitTableAccess : Prop :=
  (∀ s c d e w, Issues (.splrd d e w) s c → WritesScalars (.splrd d e w) s c (intoPair d ((c.w.ent e.toNat).word w.toNat).toNat)) ∧
  ∀ s c a e w, Issues (.splwr a e w) s c → c.w.split.length = 16 →
    ∃ t v, exec (.splwr a e w) s = .next t ∧ Leaves s t c v ∧ MovedPast (.splwr a e w) c v ∧
      (v.ent e.toNat).word w.toNat = c.sp a &&& entryMask (v.ent e.toNat).isPart w.toNat ∧
      (w ≠ 2 → (v.ent e.toNat).jpc = (c.w.ent e.toNat).jpc) ∧
      (∀ k < 4, k ≠ w.toNat → (k = 2 → (v.ent e.toNat).isPart = (c.w.ent e.toNat).isPart) →
        (v.ent e.toNat).word k = (c.w.ent e.toNat).word k) ∧ (∀ k, k ≠ e.toNat → v.ent k = c.w.ent k) ∧
      RegFrame c { v with split := c.w.split } (fun _ => False) (fun _ _ => False) (fun _ _ => False)

end Sys2Proof

/-- R102, R121, R122, R123, R130, R161, R162: NOP and HINT.uniform only move past themselves; HINT.yield makes the part not ready for the n
clk after its own (the count is held two higher); a wide-immediate or branch-extension hint of a bundle that passes its checks leaves the part at
its bundle with one more hint issued; a DICT whose entries pass R129 issues them next. -/
def Obligations.HintResults : Prop :=
  (∀ i s c, i = .nop ∨ i = .hintUniform → Issues i s c → WritesScalars i s c []) ∧
  (∀ s c n, Issues (.hintYield n) s c → WritesScalars (.hintYield n) s c [] ∧ ((c.hnd = true ∨ c.ent < c.w.aux.length) →
    ∀ t v, exec (.hintYield n) s = .next t → t.wave? c.w.wid = some v →
      (if c.hnd then v.handler.aux else v.auxAt c.ent).yield = n.toNat + 2)) ∧
  (∀ i s c j n, (∃ w, i = .wideImmediateHint w) ∨ (∃ x y, i = .branchExtensionHint x y) → Issues i s c →
    decodeBundle (s.words c.w.core c.pc) = .ok (j, n) → issueLegal j c = true → (privileged j = true → c.hnd = true) →
    ∃ t, exec i s = .next t ∧ Leaves s t c (c.setAux c.w fun a => { a with hints := a.hints + 1 })) ∧
  (∀ s c a b x y, Issues (.dict a b) s c → s.dictEntry c a = some x → s.dictEntry c b = some y →
    ∃ t, exec (.dict a b) s = .next t ∧ Leaves s t c (c.setAux c.w fun u => { u with dict := some (x, y) })) ∧
  (∀ s c a b, Issues (.dict a b) s c → (s.dictEntry c a = none ∨ s.dictEntry c b = none) →
    exec (.dict a b) s = .next (s.raise c (c.trap 0x01)))

/-- R24 to R26, R73, R168, R412, R427: SWR. FUSETO and SPLPOL are staged for the next clk, clamped as their fields say; QTC is written in
every copy of the part; TPC and TSn take the value; read-only registers take none; ACSOWN takes only the wave's own context, at once when
it holds it already, and raises PERM for another. -/
def Obligations.SpecialWrites : Prop :=
  ∀ s c a n, Issues (.swr a n) s c →
    let x := (c.s a.toNat).toNat
    (n = 0x009 → ∃ t v, exec (.swr a n) s = .next t ∧ Leaves s t c v ∧ MovedPast (.swr a n) c v ∧
      RegFrame c { v with toFuseto := c.w.toFuseto } (fun _ => False) (fun _ _ => False) (fun _ _ => False) ∧
      (c.w.toFuseto = none → v.toFuseto = some (c.part, BitVec.ofNat 32 (min (max (x % 32) 8) 20)))) ∧
    (n = 0x00a → ∃ t v, exec (.swr a n) s = .next t ∧ Leaves s t c v ∧ MovedPast (.swr a n) c v ∧
      RegFrame c { v with toSplpol := c.w.toSplpol } (fun _ => False) (fun _ _ => False) (fun _ _ => False) ∧
      (c.w.toSplpol = none → v.toSplpol = some (c.part,
        BitVec.ofNat 32 (4 * (x / 4 % 4) + if x % 4 < 2 then x % 4 else c.w.splpol.toNat % 4)))) ∧
    (n = 0x00b → ∃ t v v0, exec (.swr a n) s = .next t ∧ Leaves s t c v ∧ MovedPast (.swr a n) c v ∧
      RegFrame c v0 (fun _ => False) (fun _ _ => False) (fun _ _ => False) ∧
      v = c.setBank v0 fun b => { b with qtc := qtcWord (x / 2 ^ 16 % 32) (x.testBit 8) (min (x % 32) 16) }) ∧
    (n = 0x101 → ∃ t v, exec (.swr a n) s = .next t ∧ Leaves s t c v ∧ MovedPast (.swr a n) c v ∧
      v.handler.treg = { c.w.handler.treg with tpc := BitVec.ofNat 32 (x % 2 ^ 17) } ∧
      RegFrame c { v with handler := { v.handler with treg := c.w.handler.treg } } (fun _ => False) (fun _ _ => False) (fun _ _ => False)) ∧
    (0x140 ≤ n.toNat → n.toNat ≤ 0x17f → ∃ t v, exec (.swr a n) s = .next t ∧ Leaves s t c v ∧ MovedPast (.swr a n) c v ∧
      v.handler.ts = c.w.handler.ts.set (n.toNat - 0x140) (c.s a.toNat) ∧
      RegFrame c { v with handler := { v.handler with ts := c.w.handler.ts } } (fun _ => False) (fun _ _ => False) (fun _ _ => False)) ∧
    (n.toNat ≤ 0x008 ∨ n = 0x100 ∨ (0x102 ≤ n.toNat ∧ n.toNat ≤ 0x109) → WritesScalars (.swr a n) s c []) ∧
    (n = 0x00c → x % 2 ^ 16 = c.w.handler.treg.tctx.toNat % 2 ^ 16 → x % 2 ^ 16 = (s.core c.w.core).acsown.toNat % 2 ^ 16 →
      WritesScalars (.swr a n) s c []) ∧
    (n = 0x00c → x % 2 ^ 16 = c.w.handler.treg.tctx.toNat % 2 ^ 16 → x % 2 ^ 16 ≠ (s.core c.w.core).acsown.toNat % 2 ^ 16 →
      ∃ t, exec (.swr a n) s = .next t ∧ (c.w.core < s.cores.length → (t.core c.w.core).acsown = BitVec.ofNat 32 (x % 2 ^ 16))) ∧
    (n = 0x00c → x % 2 ^ 16 ≠ c.w.handler.treg.tctx.toNat % 2 ^ 16 → exec (.swr a n) s = .next (s.raise c (c.trap 0x05)))

/-- SRD and access to the split table (R24, R27, R168, R171, R412). -/
def Obligations.SpecialReads : Prop := Claims.SpecialRegisterReads ∧ Claims.SplitTableAccess

/-! ## Regions, progress, waits, code loading (R154 to R157, R172 to R176) -/

namespace Sys2Proof

/-- The part has gone past `i`, and no register, no byte of memory and no other wave has changed: what `i` started stands elsewhere. -/
structure GoesOn (i : Instr) (s t : State) (c : Ctx) (v : Wave) : Prop where
  wave : t.wave? c.w.wid = some v
  moved : MovedPast i c v
  frame : RegFrame c v (fun _ => False) (fun _ _ => False) (fun _ _ => False)
  bytes : ∀ k, t.mem.get k = s.mem.get k
  others : ∀ x, x ≠ c.w.wid → t.wave? x = s.wave? x

/-- The instruction waits at issue, not ready: nothing but that has changed. -/
def WaitsAtIssue (i : Instr) (s t : State) (c : Ctx) : Prop :=
  Leaves s t c (c.setAux c.w fun a => { a with blocked := some i, hints := 0 })

/-- Instruction `i` of part `c` acts by `e`: as it issues, or by the event that ends its wait at issue. -/
def Acts (i : Instr) (ev : Issuer → Instr) (s : State) (c : Ctx) (e : Instr) : Prop :=
  (e = i ∧ Issues i s c) ∨ (e = ev c.who ∧ s.ctx? c.who = some c ∧ c.aux.blocked = some i)

/-- R172: RGN.enter and RGN.leave change the region stack, its depth and the mismatch bit in every copy of the part as the rule says, and
no other register. -/
def Claims.RegionResults : Prop :=
  ∀ i s c id, i = .rgnEnter id ∨ i = .rgnLeave id → Issues i s c →
    ∃ t v, exec i s = .next t ∧ t.wave? c.w.wid = some v ∧ MovedPast i c v ∧ (∀ k, t.mem.get k = s.mem.get k) ∧
      (∀ x, x ≠ c.w.wid → t.wave? x = s.wave? x) ∧ v.vreg = c.w.vreg ∧ v.mask = c.w.mask ∧
      (∀ q, holds c q = false → scalarCopy v q = scalarCopy c.w q) ∧
      ∀ q b b', holds c q = true → scalarCopy c.w q = some b → scalarCopy v q = some b' →
        b' = { b with phase := b'.phase, rgn := b'.rgn, rdepth := b'.rdepth, rmis := b'.rmis } ∧
        (i = .rgnEnter id → b'.rdepth = min 255 (b.rdepth + 1) ∧ b'.rmis = b.rmis ∧
          b'.rgn = if b.rdepth < 8 then id :: b.rgn else b.rgn) ∧
        (i = .rgnLeave id → b'.rdepth = b.rdepth - 1 ∧
          (1 ≤ b.rdepth ∧ b.rdepth ≤ 8 → b'.rgn = b.rgn.drop 1 ∧ b'.rmis = (b.rmis || b.rgn.head? != some id)) ∧
          (b.rdepth = 0 ∨ 8 < b.rdepth → b'.rgn = b.rgn ∧ b'.rmis = b.rmis))

/-- R173: PROG changes no register and no memory; outside a causal trial it has the effect of NOP. -/
def Claims.ProgressResults : Prop :=
  ∀ s c id, Issues (.prog id) s c → ∃ t v, exec (.prog id) s = .next t ∧ GoesOn (.prog id) s t c v ∧
    ((s.core c.w.core).dbg.run = false → Leaves s t c v)

/-- R175: a SLEEP of 0 clk goes on at once; one of n clk parks its path for n clk past itself, rotating another in if the part has one (R34).
The wave holds no STUB. -/
def Claims.SleepResults : Prop :=
  ∀ s c a, Issues (.sleep a) s c → c.w.hasStub = false →
    ((c.s a.toNat).toNat = 0 → WritesScalars (.sleep a) s c []) ∧
    ((c.s a.toNat).toNat ≠ 0 → ∃ t v v0, exec (.sleep a) s = .next t ∧ Leaves s t c v ∧ v = v0.rotate c.ent ∧ MovedPast (.sleep a) c v0 ∧
      (v0.ent c.ent).st = 4 ∧ (c.ent < c.w.aux.length → (v0.auxAt c.ent).park = .sleep (c.s a.toNat).toNat) ∧ SameRegs c.w v0)

/-- R176: EVSIG to a queue that is enabled for the context's function posts s[A], or sets OVF of a full queue; to another it raises PERM. -/
def Claims.EventSignals : Prop :=
  ∀ s c a q, Issues (.evsig a q) s c →
    let k := s.qtbase.toNat + 0x100200 + 16 * q.toNat
    let open_ := bitAt (s.rd64 k) 63 && bitAt (s.rd64 (k + 8)) (s.ctxFunc c.g.ctx)
    (open_ = true → ∀ l, s.events[q.toNat]? = some l → l.length < 64 → ∃ t v, exec (.evsig a q) s = .next t ∧
      GoesOn (.evsig a q) s t c v ∧ t.events[q.toNat]? = some (l ++ [c.s a.toNat]) ∧ ∀ n, n ≠ q.toNat → t.events[n]? = s.events[n]?) ∧
    (open_ = true → ∀ l, s.events[q.toNat]? = some l → 64 ≤ l.length → s.poison = [] → ∃ t, exec (.evsig a q) s = .next t ∧
      t.events = s.events ∧ bitAt (t.rd64 k) 62 = true ∧ ∀ x, (x < k ∨ k + 8 ≤ x) → t.mem.get x = s.mem.get x) ∧
    (open_ = false → exec (.evsig a q) s = .next (s.raise c (c.trap 0x05)))

/-- R155: a CFETCH of an aligned address into a slot that the group's kernel slot owns makes the slot LOADING from that address and goes
on; a ninth load waits at issue; a misaligned address raises ALIGN and another slot PERM, with the slot as it was. -/
def Claims.CodeFetches : Prop :=
  ∀ s c a sl e, Acts (.cfetch a sl) .queueRoomWaitEnd s c e →
    let va := (c.sp a).toNat
    let x := (s.core c.w.core).slot sl.toNat
    let room := x.busy = true ∨ ((s.core c.w.core).slots.filter Slot.busy).length < 8
    (e ≠ .cfetch a sl → ¬ room → exec e s = .next s) ∧
    ((e = .cfetch a sl ∨ room) → va % 4096 ≠ 0 → exec e s = .next (s.raise c (c.trap 0x03 0 0 (c.sp a)))) ∧
    ((e = .cfetch a sl ∨ room) → va % 4096 = 0 → (x.resident = true ∨ x.owner ≠ some c.g.kslot) →
      exec e s = .next (s.raise c (c.trap 0x05 0 0 (c.sp a)))) ∧
    (e = .cfetch a sl → va % 4096 = 0 → x.resident = false → x.owner = some c.g.kslot → ¬ room →
      ∃ t, exec e s = .next t ∧ WaitsAtIssue (.cfetch a sl) s t c) ∧
    (va % 4096 = 0 → x.resident = false → x.owner = some c.g.kslot → room → c.w.core < s.cores.length →
      ∃ t v, exec e s = .next t ∧ GoesOn (.cfetch a sl) s t c v ∧
        ((t.core c.w.core).slot sl.toNat).st = .loading ∧ ((t.core c.w.core).slot sl.toNat).src = some va ∧
        ((t.core c.w.core).slot sl.toNat).owner = x.owner ∧ (∀ k, k ≠ sl.toNat → (t.core c.w.core).slot k = (s.core c.w.core).slot k) ∧
        (t.core c.w.core).imem = (s.core c.w.core).imem)

/-- R157: CWAIT goes on at a LANDED or EMPTY slot and waits at issue for a LOADING one. At a FAILED one a part raises the recorded fault at
itself; the part whose CWAIT has raised a recorded PAGE then restarts the load and waits, and after a PERM it raises the fault again, which is
the model's reading (log 21). -/
def Claims.CodeWaits : Prop :=
  ∀ s c sl e, Acts (.cwait sl) .cwaitWaitEnd s c e →
    let x := (s.core c.w.core).slot sl.toNat
    (x.st = .landed ∨ x.st = .empty → ∃ t v, exec e s = .next t ∧ GoesOn (.cwait sl) s t c v) ∧
    (x.st = .loading → (e = .cwait sl → ∃ t, exec e s = .next t ∧ WaitsAtIssue (.cwait sl) s t c) ∧ (e ≠ .cwait sl → exec e s = .next s)) ∧
    (∀ r, x.st = .failed → x.fault = some r → c.aux.told ≠ some x.seq ∨ r.code ≠ 4 →
      exec e s = .next ((s.setWave (c.setAux c.w fun a => { a with told := some x.seq })).raise c { r with tpc := c.pc })) ∧
    (∀ r va, x.st = .failed → x.fault = some r → c.aux.told = some x.seq → r.code = 4 → x.src = some va → c.w.core < s.cores.length →
      ∃ t, exec e s = .next t ∧ t.wave? c.w.wid = some (c.setAux c.w fun a => { a with blocked := some (.cwait sl), hints := 0 }) ∧
        (∀ k, t.mem.get k = s.mem.get k) ∧ (∀ y, y ≠ c.w.wid → t.wave? y = s.wave? y) ∧
        ((t.core c.w.core).slot sl.toNat).st = .loading ∧ ((t.core c.w.core).slot sl.toNat).src = some va ∧
        ∀ k, k ≠ sl.toNat → (t.core c.w.core).slot k = (s.core c.w.core).slot k)

/-- R154, R155, R157, R416: CODE_LOAD_COMPLETE makes a LOADING slot LANDED once every word of its source has been read, and FAILED where the
source cannot be read, with the fault kept for CWAIT and, for a PAGE, a host record under an identifier of its own; before that it does
nothing. A restarted load that waits because eight loads are in flight begins as soon as one of the eight has ended. -/
def Claims.CodeLoadEnds : Prop :=
  ∀ s core k, core < s.cores.length → k < (s.core core).slots.length →
    let x := (s.core core).slot k
    x.st = .loading → x.resident = false → x.rid = none →
    (x.queued = true → ((s.core core).slots.filter Slot.busy).length ≥ 8 → exec (.codeLoadComplete core k) s = .next s) ∧
    (∀ va, x.queued = true → x.src = some va → ((s.core core).slots.filter Slot.busy).length < 8 → ∃ t, exec (.codeLoadComplete core k) s = .next t ∧
      ((t.core core).slot k).busy = true ∧ ((t.core core).slot k).src = some va ∧ t.mem = s.mem ∧ t.waves = s.waves) ∧
    (x.queued = false →
    (∀ id, x.fault = none → x.acc = some id → (∃ a ∈ s.inflight, a.id = id) → exec (.codeLoadComplete core k) s = .next s) ∧
    (∀ id, x.fault = none → x.acc = some id → (∀ a ∈ s.inflight, a.id ≠ id) → ∃ t, exec (.codeLoadComplete core k) s = .next t ∧
      t = { s with cores := t.cores } ∧ (t.core core).slot k = { x with st := .landed, acc := none } ∧
      (t.core core).imem = (s.core core).imem ∧ ∀ j, j ≠ k → (t.core core).slot j = (s.core core).slot j) ∧
    (∀ r, x.fault = some r → ∃ t q n, exec (.codeLoadComplete core k) s = .next t ∧ (t.core core).slot k = { x with st := .failed, rid := q, seq := n } ∧
      (r.code.toNat ≠ 0x04 → q = none ∧ t.mem = s.mem ∧ t.waves = s.waves) ∧
      (r.code.toNat = 0x04 → ∃ n y, q = some n ∧ y ∈ t.rids ∧ y.rid = n ∧ y.ctx = x.ctx ∧ y.page = r.addr.toNat / 4096 ∧ y.parks = true)))

end Sys2Proof

/-- RGN, PROG, SLEEP and EVSIG (R172, R173, R175, R176). -/
def Obligations.RegionsAndWaits : Prop := Claims.RegionResults ∧ Claims.ProgressResults ∧ Claims.SleepResults ∧ Claims.EventSignals

/-- CFETCH, CWAIT and the end of a load (R154, R155, R157, R416). -/
def Obligations.CodeLoading : Prop := Claims.CodeFetches ∧ Claims.CodeWaits ∧ Claims.CodeLoadEnds

/-! ## Loads, stores, atomics (R166, R204 to R216, R221, R222) -/

namespace Sys2Proof

/-- The address of lane `l` (R204, R205). -/
def laneAddr (c : Ctx) (b : BitVec 5) (v : BitVec 7) (h : Option (BitVec 24)) (l : Nat) : Nat :=
  ((c.sp b).toNat + (if v = 0x7f then 0 else (c.v v.toNat l).toNat) + (memOff h).toNat) % 2 ^ 64

/-- Where in storage a lane's access of `n` bytes to memory is, when its checks pass (R206). -/
def memKey (s : State) (c : Ctx) (n : Nat) (need : Need) (raw : Bool) (va : Nat) : Option Nat :=
  match s.probe c va n need true with
  | .ok x => if raw || !pteDec x.leaf then some x.key else none
  | .error _ => none

/-- The same in the palette (R212). -/
def palKeyOf (c : Ctx) (n : Nat) (v : BitVec 7) (h : Option (BitVec 24)) (l : Nat) : Option Nat :=
  let o : Int := (c.v v.toNat l).toNat + (memOff h).toInt
  if 0 ≤ o ∧ o % n = 0 ∧ o + n ≤ c.g.psize then some (palKey c.w.core (c.g.pbase + o.toNat)) else none

/-- A vector load: prefix, destination, bytes, sign extension, acquire, scope, L, and each lane's place in storage. -/
def loadRow (s : State) (c : Ctx) : Instr → Option (Option Pfx × BitVec 7 × Nat × Bool × Bool × Nat × BitVec 4 × (Nat → Option Nat))
  | .vld d b v l m h p => match modSize m with
    | some (n, sx) => some (p, d, n, sx, false, 0, l, fun ln => memKey s c n .rd (m != 4 || (pfxOf p).ty != 0) (laneAddr c b v h ln))
    | none => none
  | .vldAcq d b v l u h p => let z := acqSize p
      some (p, d, z.1, z.2, true, u.toNat, l, fun ln => memKey s c z.1 .rd true (laneAddr c b v h ln))
  | .vldp d v l m h p => match modSize m with
    | some (n, sx) => some (p, d, n, sx, false, 0, l, palKeyOf c n v h)
    | none => none
  | _ => none

/-- R208 to R210, R212: VLD, VLD.acq and VLDP complete: a load whose lanes of active(P) all pass their checks is pending on its part's quads, the part has
moved past it, and memory is as it was. -/
def Claims.VectorLoadsComplete : Prop :=
  ∀ i s c p d n sx acq scope l key, loadRow s c i = some (p, d, n, sx, acq, scope, l, key) → Issues i s c →
    (∀ ln < 64, bitAt (c.active p) ln = true → (key ln).isSome = true) →
    ∃ t v x, exec i s = .next t ∧ t.wave? c.w.wid = some v ∧ v.pend = c.w.pend ++ [x] ∧ x.quads = c.q ∧ MovedPast i c v ∧ ∀ k, t.mem.get k = s.mem.get k

/-- A vector store: prefix, source, bytes, release, scope, and each lane's place in storage. -/
def storeRow (s : State) (c : Ctx) : Instr → Option (Option Pfx × BitVec 7 × Nat × Bool × Nat × (Nat → Option Nat))
  | .vst d b v m h p => match modSize m with
    | some (n, _) => some (p, d, n, false, 0, fun ln => memKey s c n .wr true (laneAddr c b v h ln))
    | none => none
  | .vstRel d b v u h p => some (p, d, (acqSize p).1, true, u.toNat, fun ln => memKey s c (acqSize p).1 .wr true (laneAddr c b v h ln))
  | .vstp d v m h p => match modSize m with
    | some (n, _) => some (p, d, n, false, 0, palKeyOf c n v h)
    | none => none
  | _ => none

/-- R209, R210, R212: a store whose lanes all pass their checks goes on, with one access in flight that writes, for every lane still to
do, the lane's `n` bytes of D at the lane's place; its bytes change only when its pieces perform. -/
def Claims.StoreForms : Prop :=
  ∀ i s c p d n rel scope key, storeRow s c i = some (p, d, n, rel, scope, key) → Issues i s c →
    let lanes := (List.range 64).filter fun ln => bitAt (c.active p) ln && !bitAt c.aux.done ln
    (∀ ln ∈ lanes, (key ln).isSome = true) →
    ∃ t v, exec i s = .next t ∧ GoesOn i s t c v ∧ (lanes = [] → t.inflight = s.inflight) ∧
      (lanes ≠ [] → ∃ a, t.inflight = s.inflight ++ [a] ∧ a.wid = c.w.wid ∧ a.quads = c.q ∧ a.kind = .store ∧ a.acq = false ∧ a.rel = rel ∧
        a.scope = scope ∧ a.pend = none ∧
        a.pieces.map (fun y => (y.lane, y.addr, y.n, y.x)) = lanes.flatMap fun ln =>
          let x := fun (k : Nat) => c.v (d.toNat + k) ln
          if n = 16 then [(ln, (key ln).getD 0, 8, pair64 (x 0) (x 1)), (ln, (key ln).getD 0 + 8, 8, pair64 (x 2) (x 3))]
          else [(ln, (key ln).getD 0, n, if n = 8 then pair64 (x 0) (x 1) else (x 0).setWidth 64)])

/-- An atomic: prefix, operand register, op, whether it returns the old value, its L, base, offset register, hint. -/
def atomRow : Instr → Option (Option Pfx × BitVec 7 × BitVec 3 × Bool × BitVec 4 × BitVec 5 × BitVec 7 × Option (BitVec 24))
  | .vatom d b v l o h p | .vatomNear d b v l o h p | .vatomHome d b v l o h p => some (p, d, o, true, l, b, v, h)
  | .vared d b v _ o h p => some (p, d, o, false, 0, b, v, h)
  | _ => none

/-- The place of an atomic's lane, when its checks pass (R206, R216). -/
def atomKey (s : State) (c : Ctx) (p : Option Pfx) (o : BitVec 3) (va : Nat) : Option Nat :=
  match s.probe c va ((tyD p .i32).bits / 8) .both false with
  | .ok x => if x.isHost && !hostAtomOk o.toNat (tyD p .i32) then none else some x.key
  | .error _ => none

/-- R221, R222: PREF never faults and writes nothing; DISC never faults and has one access in flight that covers the elements of the
lanes whose page may be written; that a misaligned lane has no effect is the model's choice (log 39). -/
def Claims.PrefetchAndDiscard : Prop :=
  (∀ s c b v m h p, Issues (.pref b v m h p) s c → ∃ t w, exec (.pref b v m h p) s = .next t ∧ GoesOn (.pref b v m h p) s t c w ∧
    t.inflight = s.inflight) ∧
  (∀ s c b v m h p n sx, modSize m = some (n, sx) → Issues (.disc b v m h p) s c →
    let lanes := (List.range 64).filter fun ln => bitAt (c.active p) ln && (memKey s c n .wr true (laneAddr c b v h ln)).isSome
    ∃ t w, exec (.disc b v m h p) s = .next t ∧ GoesOn (.disc b v m h p) s t c w ∧ (lanes = [] → t.inflight = s.inflight) ∧
      (lanes ≠ [] → ∃ a, t.inflight = s.inflight ++ [a] ∧ a.wid = c.w.wid ∧ a.quads = c.q ∧ a.kind = .disc ∧ a.pend = none ∧
        a.pieces.map (fun y => (y.lane, y.addr, y.n)) = lanes.flatMap fun ln =>
          let k := (memKey s c n .wr true (laneAddr c b v h ln)).getD 0
          if n = 16 then [(ln, k, 8), (ln, k + 8, 8)] else [(ln, k, n)]))

/-- The number in `n` bytes that a reader finds at an address. -/
def FindsNum (s : State) (x : Via) (va n y : Nat) : Prop := ∀ ks, ∃ ks', s.takeNum x va n ks = (.ok y, ks')

/-- A reader gives `y` as element `k` of line `n` of a page with descriptor `d` (R60 to R62, R211, R218): 0 at or beyond KBLK, the exact value of a
float element as binary32, or the slot's integer q times 2^(E - 127) of a block without outliers, whose scale word has even parity, E from 1
to 254 and N 0. -/
def Claims.ElementValues : Prop :=
  ∀ s x (d : Desc) n k,
    (32 * d.kblk ≤ k → ∀ raw ks, ∃ ks', s.takeElem x d n k raw ks = (.ok 0, ks')) ∧
    (k < 32 * d.kblk → d.csrc ≠ 0 → ∀ y, FindsNum s x (d.dbase + n * 2 ^ d.dshift + k * d.elemBytes) d.elemBytes y →
      ∀ ks, ∃ ks', s.takeElem x d n k false ks = (.ok (Fmt.b32.round .rne false false (d.elemFmt.value y)), ks')) ∧
    (k < 32 * d.kblk → d.csrc = 0 → ∀ w m a,
      FindsNum s x (d.scaleVa n (k / 32)) 2 w → evenParity w = true → scN w = 0 → scE w ≠ 0 → scE w ≠ 255 →
      FindsNum s x (d.slotVa n (k / 32)) 4 a → FindsNum s x (d.slotVa n (k / 32)) (4 * (d.widths[scT w]?).getD 2) m →
      (∀ j < 32, slotElem ((d.widths[scT w]?).getD 2) m j ≠ escCode ((d.widths[scT w]?).getD 2)) →
      ∀ ks, ∃ ks', s.takeElem x d n k false ks =
        (let q := slotElem ((d.widths[scT w]?).getD 2) m (k % 32)
         .ok (Fmt.b32.round .rne false false (.dy (decide (q < 0)) q.natAbs ((scE w : Int) - 127))), ks'))

/-- R211: a 32-bit VLD without a prefix TY whose lanes' pages all have the decode attribute. Each lane gets, as binary32, element
32 times the block (or run of 32) plus LANE mod 32 of the line that its offset from DBASE names; no access is left in flight. It reads as it
issues, which is the model's choice (log 23). Nothing was in flight. -/
def Claims.DecodingLoads : Prop :=
  ∀ s c d b v l h p (y : Nat → Nat), Issues (.vld d b v l 4 h p) s c → (pfxOf p).ty = 0 → s.inflight = [] →
    (∀ ln < 64, bitAt (c.active p) ln = true → bitAt c.aux.done ln = false → ∃ x fd,
      s.probe c (laneAddr c b v h ln) 4 .rd true = .ok x ∧ pteDec x.leaf = true ∧ descOf (s.fdWords c.g.ctx (pteFd x.leaf)) = some fd ∧
      fd.dbase ≤ laneAddr c b v h ln ∧
      let o := laneAddr c b v h ln - fd.dbase
      let unit := if fd.csrc = 0 then fd.slotBytes else 32 * fd.elemBytes
      (s.takeElem { ctx := c.g.ctx, core := some c.w.core, errs := c.aux.errs, window := true } fd (o / 2 ^ fd.dshift)
        (32 * (o % 2 ^ fd.dshift / unit) + ln % 32) false []).1 = .ok (y ln)) →
    ∃ t w x, exec (.vld d b v l 4 h p) s = .next t ∧ Pending (.vld d b v l 4 h p) s t c l w x ∧ x.quads = c.q ∧ x.vdst = [d.toNat] ∧ x.sres = [] ∧
      t.inflight = [] ∧
      (∀ ln < 64, bitAt (c.active p) ln = true → bitAt c.aux.done ln = false → (64 * d.toNat + ln, BitVec.ofNat 32 (y ln)) ∈ x.vres) ∧
      (∀ ln < 64, bitAt (c.zeroLanes p) ln = true → (64 * d.toNat + ln, (0 : Word)) ∈ x.vres) ∧
      ∀ r ∈ x.vres, ∃ ln < 64, r.1 = 64 * d.toNat + ln ∧ (bitAt (c.active p) ln = true ∨ bitAt (c.zeroLanes p) ln = true)

end Sys2Proof

/-- R208 to R212, R37: a load whose lanes all pass their checks is pending, and one access is in flight that reads, for every lane still
to do, `n` bytes at the lane's place into D: one piece, two of 64 bits for 128 (R207). The lanes that `.z` zeroes get 0. A decoding load gives
each lane its element, at issue (the model's choice, log 23). -/
def Obligations.LoadsIssue : Prop :=
  Claims.DecodingLoads ∧ Claims.ElementValues ∧ ∀ i s c p d n sx acq scope l key, loadRow s c i = some (p, d, n, sx, acq, scope, l, key) → Issues i s c →
    let lanes := (List.range 64).filter fun ln => bitAt (c.active p) ln && !bitAt c.aux.done ln
    (∀ ln ∈ lanes, (key ln).isSome = true) →
    ∃ t v x, exec i s = .next t ∧ Pending i s t c l v x ∧ x.quads = c.q ∧ x.sres = [] ∧
      x.vdst = (List.range (if n = 16 then 4 else if n = 8 then 2 else 1)).map (d.toNat + ·) ∧
      (∀ r ∈ x.vres, r.2 = 0 ∧ bitAt (c.zeroLanes p) (r.1 % 64) = true) ∧
      (lanes = [] → t.inflight = s.inflight) ∧
      (lanes ≠ [] → ∃ a, t.inflight = s.inflight ++ [a] ∧ a.wid = c.w.wid ∧ a.quads = c.q ∧ a.kind = .load sx ∧ a.acq = acq ∧ a.rel = false ∧
        a.scope = scope ∧ a.pend = some x.id ∧ a.scalar = false ∧
        a.pieces.map (fun y => (y.lane, y.addr, y.n, y.reg)) = lanes.flatMap fun ln =>
          if n = 16 then [(ln, (key ln).getD 0, 8, d.toNat), (ln, (key ln).getD 0 + 8, 8, d.toNat + 2)] else [(ln, (key ln).getD 0, n, d.toNat)])

/-- R166, R167: SLD reads 4 or 8 bytes at s[SB pair] + e into its scalars; SST writes as many from them; each is one access of the part. VLD, VLD.acq and
VLDP complete (R208 to R210, R212). -/
def Obligations.ScalarAccesses : Prop :=
  Claims.VectorLoadsComplete ∧
  (∀ s c d b l m h key, Issues (.sld d b l m h) s c → memKey s c (if m = 1 then 8 else 4) .rd true (((c.sp b).toNat + (memOff h).toNat) % 2 ^ 64) = some key →
    ∃ t v x a, exec (.sld d b l m h) s = .next t ∧ Pending (.sld d b l m h) s t c l v x ∧ x.quads = c.q ∧ x.vres = [] ∧ x.sres = [] ∧
      x.sdst = (if m = 1 then [d.toNat, d.toNat + 1] else [d.toNat]) ∧
      t.inflight = s.inflight ++ [a] ∧ a.wid = c.w.wid ∧ a.quads = c.q ∧ a.kind = .load false ∧ a.acq = false ∧ a.pend = some x.id ∧ a.scalar = true ∧
      a.pieces.map (fun y => (y.addr, y.n, y.reg)) = [(key, if m = 1 then 8 else 4, d.toNat)]) ∧
  (∀ s c d b m h key, Issues (.sst d b m h) s c → memKey s c (if m = 1 then 8 else 4) .wr true (((c.sp b).toNat + (memOff h).toNat) % 2 ^ 64) = some key →
    ∃ t v a, exec (.sst d b m h) s = .next t ∧ GoesOn (.sst d b m h) s t c v ∧
      t.inflight = s.inflight ++ [a] ∧ a.wid = c.w.wid ∧ a.quads = c.q ∧ a.kind = .store ∧ a.rel = false ∧ a.pend = none ∧
      a.pieces.map (fun y => (y.addr, y.n, y.x)) =
        [(key, if m = 1 then 8 else 4, if m = 1 then c.s64 d.toNat else (c.s d.toNat).setWidth 64)])

/-- R214, R215: an atomic whose lanes all pass their checks has one access in flight that updates every lane's element with the lane's
operand (of a cas: compare value in D, new value in D + k); VATOM is pending for the old values, VARED goes on. -/
def Obligations.AtomicsIssue : Prop :=
  ∀ i s c p d o ret l b v h, atomRow i = some (p, d, o, ret, l, b, v, h) → Issues i s c →
    let y := tyD p .i32
    let lanes := (List.range 64).filter fun ln => bitAt (c.active p) ln && !bitAt c.aux.done ln
    let key := fun ln => atomKey s c p o (laneAddr c b v h ln)
    (∀ ln ∈ lanes, (key ln).isSome = true) →
    ∃ t w, exec i s = .next t ∧ (ret = false → GoesOn i s t c w) ∧
      (ret = true → ∃ x, Pending i s t c l w x ∧ x.quads = c.q ∧ x.vdst = (List.range y.regs).map (d.toNat + ·) ∧
        ∀ r ∈ x.vres, r.2 = 0 ∧ bitAt (c.zeroLanes p) (r.1 % 64) = true) ∧
      (lanes = [] → t.inflight = s.inflight) ∧
      (lanes ≠ [] → ∃ a, t.inflight = s.inflight ++ [a] ∧ a.wid = c.w.wid ∧ a.quads = c.q ∧ a.acq = false ∧ a.rel = false ∧
        (∃ k, a.kind = .atom o.toNat k ∧ Ty.ofCode (BitVec.ofNat 5 k) = some y) ∧ (a.pend.isSome = ret) ∧
        (∀ x, ret = true → w.pend = c.w.pend ++ [x] → a.pend = some x.id) ∧
        a.pieces.map (fun q => (q.lane, q.addr, q.n, q.reg, q.x.toNat, q.y.toNat)) = lanes.map fun ln =>
          (ln, (key ln).getD 0, y.bits / 8, d.toNat, if o = 7 then c.elem y (d.toNat + y.regs) ln else c.elem y d.toNat ln,
            if o = 7 then c.elem y d.toNat ln else 0))

/-- Stores, prefetch and discard (R209, R210, R212, R221, R222). -/
def Obligations.StoresIssue : Prop := Claims.StoreForms ∧ Claims.PrefetchAndDiscard

/-- A lane access of `n` bytes to storage: prefix, size, the address of each lane as a number, and whether it may decode (R211). The address of a
palette access is its offset (R212). -/
def Sys2Proof.alignRow (c : Ctx) : Instr → Option (Option Pfx × Nat × (Nat → Int) × Bool)
  | .vld _ b v _ m h p => match modSize m with
    | some (n, _) => some (p, n, fun l => laneAddr c b v h l, m == 4 && (pfxOf p).ty == 0)
    | none => none
  | .vldAcq _ b v _ _ h p => some (p, (acqSize p).1, fun l => laneAddr c b v h l, false)
  | .vst _ b v m h p => match modSize m with
    | some (n, _) => some (p, n, fun l => laneAddr c b v h l, false)
    | none => none
  | .vstRel _ b v _ h p => some (p, (acqSize p).1, fun l => laneAddr c b v h l, false)
  | .vldp _ v _ m h p | .vstp _ v m h p => match modSize m with
    | some (n, _) => some (p, n, fun l => (c.v v.toNat l).toNat + (memOff h).toInt, false)
    | none => none
  | .vatom _ b v _ _ h p | .vatomNear _ b v _ _ h p | .vatomHome _ b v _ _ h p | .vared _ b v _ _ h p =>
    some (p, (tyD p .i32).bits / 8, fun l => laneAddr c b v h l, false)
  | _ => none

/-- R206: a lane of active(P) whose address is not a multiple of the access size makes a load, a store, a palette access or an atomic raise ALIGN,
with every such lane in TMASK and the address of the first in TADDR, before any other check, and nothing is in flight for it. A 32-bit VLD does
so where none of its lanes' pages decodes. A scalar access raises it with TMASK 0, which is the model's reading (log 20). -/
def Sys2Proof.Claims.MisalignedTrap : Prop :=
  (∀ i s c p n va dec, alignRow c i = some (p, n, va, dec) → Issues i s c →
    let todo := (List.range 64).filter fun ln => bitAt (c.active p) ln && !bitAt c.aux.done ln
    (dec = true → ∀ l ∈ todo, ∀ x, s.probe c (va l).toNat n .rd true = .ok x → pteDec x.leaf = false) →
    ∀ l, (todo.filter fun ln => va ln % n != 0).head? = some l →
      exec i s = .next (s.raise c (c.trap 0x03 0 0 (BitVec.ofInt 64 (va l)) (laneMask (todo.filter fun ln => va ln % n != 0))))) ∧
  (∀ s c d b l m h, Issues (.sld d b l m h) s c → (((c.sp b).toNat + (memOff h).toNat) % 2 ^ 64) % (if m = 1 then 8 else 4) ≠ 0 →
    exec (.sld d b l m h) s = .next (s.raise c (c.trap 0x03 0 0 (c.sp b + memOff h)))) ∧
  (∀ s c d b m h, Issues (.sst d b m h) s c → (((c.sp b).toNat + (memOff h).toNat) % 2 ^ 64) % (if m = 1 then 8 else 4) ≠ 0 →
    exec (.sst d b m h) s = .next (s.raise c (c.trap 0x03 0 0 (c.sp b + memOff h))))

namespace Sys2Proof

/-- What a load or a store of memory needs of its pages (R206). -/
def pageNeed : Instr → Option Need
  | .vld .. | .vldAcq .. => some .rd
  | .vst .. | .vstRel .. => some .wr
  | _ => none

/-- R37, R206, R416, R436: a load or a store whose lanes pass the other checks, while pages of some of them are absent, never enters the handler. It is
in flight for the lanes of the quads without such a lane; each absent page has a record that parks; the part is PARKF at the instruction, or with FSPLIT,
room and no mask-path record it splits into parts that are so and READY parts after the instruction. No register changes. What a parked part still has to
do is its lanes that have not completed. A scalar load or store parks its whole part. -/
def Claims.PagesPark : Prop :=
  (∀ i s c p n va dec need, alignRow c i = some (p, n, va, dec) → pageNeed i = some need → Issues i s c → c.hnd = false → c.aux.errs = [] →
    c.w.aux.length = 16 → c.w.split.length = 16 →
    let todo := (List.range 64).filter fun ln => bitAt (c.active p) ln && !bitAt c.aux.done ln
    let page := fun l => s.reach (some c.w.core) c.g.ctx (va l).toNat need true
    let bad := fun q => ∃ l ∈ todo, l / 4 = q ∧ page l = .error .page
    (∀ l ∈ todo, va l % n = 0 ∧ (page l = .error .page ∨ ∃ x, page l = .ok x ∧ (dec = true → pteDec x.leaf = false))) → (∃ q, bad q) →
    ∃ t v as, exec i s = .next t ∧ t.wave? c.w.wid = some v ∧ v.vreg = c.w.vreg ∧ v.mask = c.w.mask ∧ (∀ k, k < 2 ^ 58 → t.mem.get k = s.mem.get k) ∧
      (∀ x, x ≠ c.w.wid → KeepsRegs s t x) ∧
      t.inflight = s.inflight ++ as ∧ (∀ a ∈ as, ∀ x ∈ a.pieces, x.lane ∈ todo ∧ ¬ bad (x.lane / 4)) ∧
      (∀ l ∈ todo, ¬ bad (l / 4) → ∃ a ∈ as, ∃ x ∈ a.pieces, x.lane = l) ∧
      (∀ l ∈ todo, page l = .error .page → ∃ r ∈ t.rids, r.pg = true ∧ r.ctx = c.g.ctx ∧ r.page = (va l).toNat / 4096 ∧ r.parks = true) ∧
      ∀ P : Nat → Bool, (∀ q < 16, P q = true ↔ bad q) →
        let ps := decompose (fun q => if bits c.m0 (4 * q) 4 = 0 then .idle else if P q then .yes else .no) (runLog c.q) (lowQuad c.q)
        let splits := bitAt c.w.splpol 3 = true ∧ c.w.records c.ent = [] ∧ 2 ≤ ps.length ∧ entriesNeeded ps ≤ c.w.freeEnts.length
        let parked := fun k => (v.auxAt k).rids ≠ [] ∧
          ∀ l < 64, bitAt (v.auxAt k).done l = true ↔ bitAt c.aux.done l = true ∨ (l ∈ todo ∧ ¬ bad (l / 4))
        (¬ splits → v.ent c.ent = { c.w.ent c.ent with st := 3 } ∧ parked c.ent) ∧
        (splits → c.aux.dict = none → v.ent c.ent = { c.w.ent c.ent with kind := 2, st := 0, pc := c.pc, jpc := 0, jany := true, arrq := 0, tcnt := 0 } ∧
          (∀ l, bitAt c.m0 l = true → ∃ k, (c.w.ent k).kind = 0 ∧ (v.ent k).isPart = true ∧ bitAt (v.ent k).lmask l = true) ∧
          ∀ k l, (c.w.ent k).kind = 0 → (v.ent k).kind ≠ 0 → bitAt (v.ent k).lmask l = true → bitAt c.m0 l = true ∧
            (bad (l / 4) → (v.ent k).st = 3 ∧ (v.ent k).pc = c.pc ∧ parked k) ∧ (¬ bad (l / 4) → (v.ent k).st = 0 ∧ (v.ent k).pc = c.nextPc i) ∧
            (v.ent k).pv = true ∧ (v.ent k).parent = BitVec.ofNat 4 c.ent)) ∧
  ∀ i s c need va, Issues i s c → c.hnd = false → c.aux.errs = [] → c.w.aux.length = 16 →
    (∃ d b l m h, i = .sld d b l m h ∧ need = .rd ∧ va = (c.sp b + memOff h).toNat ∧ va % (if m = 1 then 8 else 4) = 0) ∨
      (∃ d b m h, i = .sst d b m h ∧ need = .wr ∧ va = (c.sp b + memOff h).toNat ∧ va % (if m = 1 then 8 else 4) = 0) →
    s.reach (some c.w.core) c.g.ctx va need true = .error .page →
    ∃ t v, exec i s = .next t ∧ t.wave? c.w.wid = some v ∧ v.vreg = c.w.vreg ∧ v.mask = c.w.mask ∧ v.banks.map (·.sreg) = c.w.banks.map (·.sreg) ∧
      t.inflight = s.inflight ∧ (∀ k, k < 2 ^ 58 → t.mem.get k = s.mem.get k) ∧ v.ent c.ent = { c.w.ent c.ent with st := 3 } ∧
      ∃ r ∈ t.rids, r.pg = true ∧ r.ctx = c.g.ctx ∧ r.page = va / 4096 ∧ r.parks = true ∧ (v.auxAt c.ent).rids = [r.rid]

/-- R416, R436: RESOLVE of a record of the function takes it out. Each part that waited for it notes the page where it is resolved with ERR, and one that
waits for no other record is READY where it stands, unless its wave is stopped (R46); the handler part goes on likewise, and so do copies, ops and code
loads that waited. A record that parks nothing only goes; an identifier without a record of the function does nothing. -/
def Claims.Resolves : Prop :=
  ∀ (s : State) func (v : Word),
    let rid := v.toNat % 2 ^ 16
    let noted := fun (page : Nat) (old : List Nat) => if bitAt v 16 = true then page :: old else old
    (s.hostOk func = false ∨ (∀ r ∈ s.rids, r.rid = rid → r.func ≠ func) → exec (.resolve func v) s = .next s) ∧
    ∀ r, s.hostOk func = true → r ∈ s.rids → r.rid = rid → r.func = func → (s.rids.map (·.rid)).Nodup →
      ∃ t : State, exec (.resolve func v) s = .next t ∧ (∀ x, x ∈ t.rids ↔ x ∈ s.rids ∧ x.rid ≠ rid) ∧
        t = { s with rids := t.rids, waves := t.waves, cores := t.cores, groups := t.groups } ∧
        (r.parks = false → t = { s with rids := t.rids }) ∧
        (r.parks = true →
          (∀ (n : Nat) w, s.waves[n]? = some w → w.split.length = 16 → w.aux.length = 16 → ∃ u, t.waves[n]? = some u ∧ u.wid = w.wid ∧ u.vreg = w.vreg ∧
            u.mask = w.mask ∧ u.banks = w.banks ∧ u.handler.run = w.handler.run ∧
            (w.handler.aux.park = .page → rid ∈ w.handler.aux.rids → (∀ k ∈ w.handler.aux.rids, k = rid) → u.handler.aux.park = .none) ∧
            ∀ e < 16, (rid ∉ (w.auxAt e).rids → u.ent e = w.ent e ∧ u.auxAt e = w.auxAt e) ∧
              (rid ∈ (w.auxAt e).rids → (u.auxAt e).rids = (w.auxAt e).rids.filter (· ≠ rid) ∧ (u.auxAt e).errs = noted r.page (w.auxAt e).errs ∧
                (u.auxAt e).done = (w.auxAt e).done ∧
                u.ent e = if (∀ k ∈ (w.auxAt e).rids, k = rid) ∧ s.stopped w = false ∧ (w.ent e).isPart = true ∧ (w.ent e).st = 3
                  then { w.ent e with st := 0 } else w.ent e)) ∧
          ∀ c < s.cores.length,
            (∀ x ∈ (s.core c).copies, x.rid = some rid → { x with rid := none, parked := false, errs := noted r.page x.errs } ∈ (t.core c).copies) ∧
            (∀ x ∈ (s.core c).easel, x.rid = some rid → { x with rid := none, errs := noted r.page x.errs } ∈ (t.core c).easel) ∧
            ∀ k, ((s.core c).slot k).rid = some rid → (t.core c).slot k = { (s.core c).slot k with rid := none, err := bitAt v 16 })

end Sys2Proof

/-- Accesses whose addresses are misaligned raise ALIGN (R206), and those whose pages are absent park (R37, R416). That a scalar access has TMASK 0
(log 20) is the model's reading. -/
def Obligations.MisalignedAccesses : Prop := Claims.MisalignedTrap ∧ Claims.PagesPark

/-! ## Fences, copies, barriers, monitors (R223 to R239) -/

namespace Sys2Proof

/-- The accesses of the part, or of the handler part, that are in flight (R331, R409); loads of code are the code-fetch engine's (R330). -/
def flightOf (s : State) (c : Ctx) : List Access :=
  s.inflight.filter fun a => a.wid == c.w.wid && a.hnd == c.hnd && a.host.isNone && (c.hnd || inOrder a.order c.bank.order) && !a.isCode

/-- Every kind of a FENCE at scope `sc` is satisfied (R223): no earlier access to memory is in flight, but for what only another module has yet
to acknowledge below module scope (R346), no acquire (R343), no access to the core's palette (R320), and no earlier copy runs. -/
def fenceSatisfied (s : State) (c : Ctx) (k : BitVec 4) (sc : BitVec 3) : Prop :=
  (bitAt k 0 = true → ∀ a ∈ flightOf s c, a.heldFor sc.toNat = true → ∀ p ∈ a.pieces, p.inPal c.w.core = true) ∧
  (bitAt k 1 = true → ∀ a ∈ flightOf s c, a.acq = false) ∧
  (bitAt k 2 = true → ∀ a ∈ flightOf s c, ∀ p ∈ a.pieces, p.inPal c.w.core = false) ∧
  (bitAt k 3 = true → ∀ x ∈ (s.core c.w.core).copies, x.wid = c.w.wid → x.hnd = c.hnd → (c.hnd = true ∨ inOrder x.order c.bank.order = true) → x.parked = true)

/-- R225: CPYA with its operands aligned and in range starts a copy of s[A+3] bytes to the palette and goes on, copies nothing for 0
bytes, waits at issue while the core has 16 copies, parked ones among them (the model's choice, log 48), and raises BARRIER_MISUSE, ALIGN or PERM at
itself otherwise, in that order and with TMASK 0 (the model's reading, log 20). -/
def Claims.CopyStarts : Prop :=
  ∀ s c a b e, Acts (.cpya a b) .queueRoomWaitEnd s c e →
    let src := (c.s64 (4 * a.toNat)).toNat
    let off := (c.s (4 * a.toNat + 2)).toNat
    let n := (c.s (4 * a.toNat + 3)).toNat
    let room := (s.core c.w.core).copies.length < 16
    (¬ room → (e = .cpya a b → ∃ t, exec e s = .next t ∧ WaitsAtIssue (.cpya a b) s t c) ∧ (e ≠ .cpya a b → exec e s = .next s)) ∧
    (room → c.g.bars.length ≤ b.toNat → exec e s = .next (s.raise c (c.trap 0x10 0 (BitVec.ofNat 32 b.toNat)))) ∧
    (room → b.toNat < c.g.bars.length → src % 16 ≠ 0 ∨ off % 16 ≠ 0 →
      exec e s = .next (s.raise c (c.trap 0x03 0 0 (BitVec.ofNat 64 (if src % 16 ≠ 0 then src else off))))) ∧
    (room → b.toNat < c.g.bars.length → src % 16 = 0 → off % 16 = 0 → n % 16 ≠ 0 ∨ 1048576 < n ∨ c.g.psize < off + n →
      exec e s = .next (s.raise c (c.trap 0x05 0 0 (BitVec.ofNat 64 off)))) ∧
    (room → b.toNat < c.g.bars.length → src % 16 = 0 → off % 16 = 0 → n % 16 = 0 → n ≤ 1048576 → off + n ≤ c.g.psize →
      c.w.core < s.cores.length →
      ∃ t v, exec e s = .next t ∧ GoesOn (.cpya a b) s t c v ∧
        (n = 0 → (t.core c.w.core).copies = (s.core c.w.core).copies) ∧
        (n ≠ 0 → ∃ x, (t.core c.w.core).copies = (s.core c.w.core).copies ++ [x] ∧ x.src = src ∧ x.off = off ∧ x.left = n ∧
          x.bar = b.toNat ∧ x.gid = c.g.gid ∧ x.wid = c.w.wid ∧ x.order = c.bank.order ∧ x.parked = false))

/-- R225, R226, R341: COPY_CHUNK_LAND brings the next bytes of a copy, at most 512, whose source can be read, to its place in the palette; its
barrier's signed 32-bit counter falls by as many (that it wraps is the model's choice, log 48), and the copy goes with its last byte. Nothing
waits at the barrier, nothing that its part did before is in flight, or goes to the same lines of other modules, and the source is served
(R444). -/
def Claims.CopyLands : Prop :=
  ∀ s core cid x g ks, ((s.core core).copies.find? fun y => y.cid == cid) = some x → s.group? x.gid = some g → x.parked = false →
    core < s.cores.length → ((s.core core).copies.map (·.cid)).Nodup → x.errs = [] → s.poison = [] → (∀ b ∈ g.bars, b.arrivals = 0) →
    x.bar < g.bars.length →
    let n := min 512 x.left
    s.span (some core) g.ctx x.src n .rd false = .ok ks → (∀ k ∈ ks, s.remoteBad k.key = none) →
    (∀ a ∈ s.inflight, a.wid ≠ x.wid ∧ a.sharesPath (ks.map (·.key)) = false) →
    ∃ t h, exec (.copyChunkLand core cid) s = .next t ∧
      (∀ j (k : Spot), ks[j]? = some k → t.mem.get (2 ^ 57 + core * 2 ^ 20 + (g.pbase + x.off) + j) = s.mem.get k.key) ∧
      (∀ k, (k < 2 ^ 57 + core * 2 ^ 20 + (g.pbase + x.off) ∨ 2 ^ 57 + core * 2 ^ 20 + (g.pbase + x.off) + n ≤ k) → t.mem.get k = s.mem.get k) ∧
      (x.left ≤ 512 → ((t.core core).copies.find? fun y => y.cid == cid) = none) ∧
      (512 < x.left → ((t.core core).copies.find? fun y => y.cid == cid) =
        some { x with src := x.src + 512, off := x.off + 512, left := x.left - 512 }) ∧
      t.group? x.gid = some h ∧ h = { g with bars := h.bars } ∧ (h.bar x.bar).cnt = Int.bmod ((g.bar x.bar).cnt - n) (2 ^ 32) ∧
      (h.bar x.bar).phase = (g.bar x.bar).phase ∧ ∀ k, k ≠ x.bar → h.bar k = g.bar k

/-- R227, R416: a chunk whose source must not be read, or is not present, parks its copy, and the barrier records the fault, unless it holds that
of another copy: PERM, or PAGE with a host record that the copy waits for. Nobody waits at the barrier. -/
def Claims.CopyFaults : Prop :=
  ∀ s core cid x g va, ((s.core core).copies.find? fun y => y.cid == cid) = some x → s.group? x.gid = some g → x.parked = false →
    core < s.cores.length → x.bar < g.bars.length → (s.parkedIn x.gid fun p => p == .bar x.bar) = [] →
    (∀ d, (g.bar x.bar).fault = some d → d.2 = cid) →
    (s.span (some core) g.ctx x.src (min 512 x.left) .rd false = .error (.perm, va) →
    ∃ t h d, exec (.copyChunkLand core cid) s = .next t ∧ t.group? x.gid = some h ∧ (h.bar x.bar).fault = some (d, cid) ∧
      d.trap.code = 0x05 ∧ d.trap.defer = true ∧ d.trap.info = BitVec.ofNat 32 x.bar ∧ d.trap.addr = BitVec.ofNat 64 va ∧ d.src = 1 ∧
      (∀ y ∈ (t.core core).copies, y.cid = cid → y.parked = true) ∧ t.mem = s.mem ∧ t.waves = s.waves) ∧
    (s.span (some core) g.ctx x.src (min 512 x.left) .rd false = .error (.page, va) → x.errs.contains (va / 4096) = false →
    ∃ t h d n r, exec (.copyChunkLand core cid) s = .next t ∧ t.group? x.gid = some h ∧ (h.bar x.bar).fault = some (d, cid) ∧
      d.trap.code = 0x04 ∧ d.trap.sub = 0 ∧ d.trap.defer = true ∧ d.trap.info = BitVec.ofNat 32 x.bar ∧ d.trap.addr = BitVec.ofNat 64 va ∧
      d.rid = some n ∧ r ∈ t.rids ∧ r.rid = n ∧ r.ctx = g.ctx ∧ r.page = va / 4096 ∧ r.parks = true ∧ (h.bar x.bar).cnt = (g.bar x.bar).cnt ∧
      ∀ y ∈ (t.core core).copies, y.cid = cid → y.parked = true ∧ y.rid = some n)

/-- The waves have identifiers of their own. -/
def DistinctWaves (s : State) : Prop := (s.waves.map (·.wid)).Nodup

/-- R224, R228, R231: BARX adds s[A] to the counter of a barrier at which none has arrived, without arriving; BART (major 0x01, FN 0x15, F1
[19:13], F2 [12:6]) reads the phase number; a counter that would leave its range, or a barrier that the group lacks, raises
BARRIER_MISUSE and changes nothing. -/
def Claims.BarrierCounters : Prop :=
  (∀ s c a k, Issues (.barx a k) s c →
    (∀ b, c.g.bars[k.toNat]? = some b → b.cnt + (c.s a.toNat).toNat < 2 ^ 31 → b.arrivals = 0 →
      ∃ t v g, exec (.barx a k) s = .next t ∧ GoesOn (.barx a k) s t c v ∧ t.group? c.g.gid = some g ∧
        g = { c.g with bars := g.bars } ∧ g.bars[k.toNat]? = some { b with cnt := b.cnt + (c.s a.toNat).toNat } ∧
        ∀ n, n ≠ k.toNat → g.bars[n]? = c.g.bars[n]?) ∧
    (∀ b, c.g.bars[k.toNat]? = some b → 2 ^ 31 ≤ b.cnt + (c.s a.toNat).toNat →
      exec (.barx a k) s = .next (s.raise c (c.trap 0x10 0 (BitVec.ofNat 32 k.toNat)))) ∧
    (c.g.bars.length ≤ k.toNat → exec (.barx a k) s = .next (s.raise c (c.trap 0x10 0 (BitVec.ofNat 32 k.toNat))))) ∧
  (∀ s c d k, Issues (.bart d k) s c →
    (∀ b, c.g.bars[k.toNat]? = some b → WritesScalars (.bart d k) s c [(d.toNat, b.phase.toNat)]) ∧
    (c.g.bars.length ≤ k.toNat → exec (.bart d k) s = .next (s.raise c (c.trap 0x10 0 (BitVec.ofNat 32 k.toNat))))) ∧
  ∀ d k, (encodeWord (.bart d k)).toNat = 0x01 * 2 ^ 26 + 0x15 * 2 ^ 20 + d.toNat * 2 ^ 13 + k.toNat * 2 ^ 6

/-- The status word of a MONW return (R236): the armed slots whose TRIG is set, FBK, TMO and RST. -/
def monStatus (w : Wave) (tmo : Bool) : Nat :=
  let hit := fun n => match w.mons[n]? with | some m => m.armed && m.trig | none => false
  let fbk := fun n => match w.mons[n]? with | some m => m.fbk | none => false
  ((List.range 4).map fun n => if hit n then 2 ^ n else 0).sum + (if tmo then 2 ^ 8 else 0) +
    (if (List.range 4).any fun n => hit n && fbk n then 2 ^ 9 else 0) + if w.rst then 2 ^ 10 else 0

/-- A wave but for the marks of its parts that read coherently. -/
def lessCoherence (w v : Wave) : Wave :=
  { v with coherent := w.coherent, handler := { v.handler with coherent := w.handler.coherent } }

/-- A wave but for its monitor slots and the return that a restore owes. -/
def lessMons (w v : Wave) : Wave := { v with mons := w.mons, rst := w.rst }

end Sys2Proof

/-- R223, R337, R346: a FENCE whose kinds are satisfied goes on, and one of memory at device scope or wider makes the part read coherently;
another waits at issue, and FENCE_WAIT_END lets it go on once its kinds are satisfied. -/
def Obligations.Fences : Prop :=
  (∀ s c k sc, Issues (.fence k sc) s c →
    (fenceSatisfied s c k sc → ∃ t v, exec (.fence k sc) s = .next t ∧ t.wave? c.w.wid = some v ∧ MovedPast (.fence k sc) c v ∧
      RegFrame c (lessCoherence c.w v) (fun _ => False) (fun _ _ => False) (fun _ _ => False) ∧
      (bitAt k 0 = true → 2 ≤ sc.toNat → if c.hnd then v.handler.coherent = true else v.coherent = c.w.coherent ||| c.q) ∧
      (∀ x, t.mem.get x = s.mem.get x) ∧ ∀ x, x ≠ c.w.wid → t.wave? x = s.wave? x) ∧
    (¬ fenceSatisfied s c k sc → ∃ t, exec (.fence k sc) s = .next t ∧ WaitsAtIssue (.fence k sc) s t c)) ∧
  ∀ s who c k sc, s.ctx? who = some c → c.aux.blocked = some (.fence k sc) →
    (fenceSatisfied s c k sc → ∃ t v, exec (.fenceWaitEnd who) s = .next t ∧ t.wave? c.w.wid = some v ∧ MovedPast (.fence k sc) c v ∧
      RegFrame c (lessCoherence c.w v) (fun _ => False) (fun _ _ => False) (fun _ _ => False)) ∧
    (¬ fenceSatisfied s c k sc → exec (.fenceWaitEnd who) s = .next s)

/-- R224, R227, R229, R230: BAR of a barrier that the group has. It raises the fault that the barrier holds; else it arrives and parks, its
wave being the last it completes the phase when the counter is 0 and every access of the group has performed, and goes on, unless its wave is
stopped (R46). A last arrival at a barrier whose counter is negative, or not 0 while no copy credits it, raises BARRIER_MISUSE instead, and has
not arrived. -/
def Obligations.BarrierArrives : Prop :=
  ∀ s c k, Issues (.bar k) s c → c.w.hasStub = false →
    (c.g.bars.length ≤ k.toNat → exec (.bar k) s = .next (s.raise c (c.trap 0x10 0 (BitVec.ofNat 32 k.toNat)))) ∧
    (∀ b, c.g.bars[k.toNat]? = some b → b.fault = none → c.w.records c.ent = [] → c.aux.dict = none → c.ent < c.w.aux.length →
      (b.arrivals + 1 + s.exitedWaves c.g.gid < c.g.waves → ∃ t v g, exec (.bar k) s = .next t ∧ t.wave? c.w.wid = some v ∧
        v.ent c.ent = { c.w.ent c.ent with st := 4 } ∧ (v.auxAt c.ent).park = .bar k.toNat ∧ SameRegs c.w v ∧
        t.group? c.g.gid = some g ∧ g.bars[k.toNat]? = some { b with arrivals := b.arrivals + 1 } ∧ (∀ x, t.mem.get x = s.mem.get x) ∧
        ∀ x, x ≠ c.w.wid → t.wave? x = s.wave? x) ∧
      (c.g.waves ≤ b.arrivals + 1 + s.exitedWaves c.g.gid → b.cnt = 0 → s.groupFlight c.g.gid = false → DistinctWaves s → c.aux.half = false →
        s.stopped c.w = false →
        ∃ t v g, exec (.bar k) s = .next t ∧ t.wave? c.w.wid = some v ∧ (v.ent c.ent).st = 0 ∧ (v.ent c.ent).pc = c.pc + 1 ∧
          v.vreg = c.w.vreg ∧ v.mask = c.w.mask ∧ t.group? c.g.gid = some g ∧
          g.bars[k.toNat]? = some { b with phase := b.phase + 1, arrivals := 0 } ∧ ∀ x, t.mem.get x = s.mem.get x) ∧
      (c.g.waves ≤ b.arrivals + 1 + s.exitedWaves c.g.gid → b.cnt < 0 ∨ (0 < b.cnt ∧ s.copyOn c.g k.toNat = false) → DistinctWaves s →
        s.stopped c.w = false → (s.parkedIn c.g.gid fun p => p == .bar k.toNat) = [] →
        ∃ t v g, exec (.bar k) s = .next t ∧ t.wave? c.w.wid = some v ∧
          (v.handler.run = true ∨ ∃ r, (v.auxAt c.ent).trap = some r ∧ r.code = 0x10 ∧ r.info = BitVec.ofNat 32 k.toNat) ∧
          t.group? c.g.gid = some g ∧ g.bars[k.toNat]? = some b)) ∧
    (∀ b d, c.g.bars[k.toNat]? = some b → b.fault = some d →
      exec (.bar k) s = .next ((s.clearBarFault c.g k.toNat).raise c { d.1.trap with tpc := c.pc }))

/-- Copies, BARX and BART (R224 to R228, R231, R341). That the chunks of a copy land in ascending order is the model's choice (log 18), as are the
order of CPYA's checks (log 20), the wrap of the counter and the place that a parked copy keeps (log 48). -/
def Obligations.CopyAndCounters : Prop := Claims.CopyStarts ∧ Claims.CopyLands ∧ Claims.CopyFaults ∧ Claims.BarrierCounters

/-- R233: CBAR of a barrier that the cohort was granted arrives and parks; the last wave completes the phase once every access of the
cohort has performed, and goes on, unless its wave is stopped (R46); a barrier that was not granted, or a grid group, raises BARRIER_MISUSE with SUB 1. -/
def Obligations.CohortBarriers : Prop :=
  ∀ s c k, Issues (.cbar k) s c → c.w.hasStub = false →
    ((∀ l, s.launch? c.g.lid = some l → l.cbars[k.toNat]? = none) ∨ c.g.cohort = 0xffffffff →
      exec (.cbar k) s = .next (s.raise c (c.trap 0x10 1 (BitVec.ofNat 32 k.toNat)))) ∧
    (∀ l m b, s.launch? c.g.lid = some l → l.cbars[k.toNat]? = some m → c.g.cohort ≠ 0xffffffff → s.cbars[m]? = some b → b.owner = some c.g.lid →
      c.w.records c.ent = [] → c.aux.dict = none → c.ent < c.w.aux.length →
      (b.arrived.length + 1 + l.exits < l.total * l.waves → ∃ t v b', exec (.cbar k) s = .next t ∧ t.wave? c.w.wid = some v ∧
        v.ent c.ent = { c.w.ent c.ent with st := 4 } ∧ SameRegs c.w v ∧ t.cbars[m]? = some b' ∧ b'.phase = b.phase ∧
        b'.arrived = c.w.key :: b.arrived ∧ (∀ x, t.mem.get x = s.mem.get x) ∧ ∀ x, x ≠ c.w.wid → t.wave? x = s.wave? x) ∧
      (l.total * l.waves ≤ b.arrived.length + 1 + l.exits → (∀ g ∈ s.groups, g.lid = c.g.lid → s.groupFlight g.gid = false) → DistinctWaves s →
        c.aux.half = false → s.stopped c.w = false →
        ∃ t v b', exec (.cbar k) s = .next t ∧ t.wave? c.w.wid = some v ∧ (v.ent c.ent).st = 0 ∧ (v.ent c.ent).pc = c.pc + 1 ∧
          v.vreg = c.w.vreg ∧ v.mask = c.w.mask ∧ t.cbars[m]? = some b' ∧ b'.phase = b.phase + 1 ∧ b'.arrived = [] ∧
          ∀ x, t.mem.get x = s.mem.get x))

/-- R234 to R236, R239: MON arms a slot on the line of its address, once nothing of its part, or for the same line of another module, is in flight
and the line is served; MONC disarms one; a MONW or
MONW.G that finds a trigger, no armed slot, or a restore's return due writes its status and clears what it reports; else its path parks.
No other register changes.
What a MONW in a wave with several parked parts reports is a reading (log 32). -/
def Obligations.MonitorResults : Prop :=
  (∀ s c a n x, Issues (.mon a n) s c → s.probe c (c.sp a).toNat 1 .rd false = .ok x → x.isHost = false → flightOf s c = [] →
    s.remoteBad x.key = none → (∀ a ∈ s.inflight, a.sharesPath [x.key] = false) →
    ∃ t v, exec (.mon a n) s = .next t ∧ t.wave? c.w.wid = some v ∧ MovedPast (.mon a n) c v ∧
      RegFrame c (lessMons c.w v) (fun _ => False) (fun _ _ => False) (fun _ _ => False) ∧
      (∀ k, k ≠ n.toNat → v.mons[k]? = c.w.mons[k]?) ∧
      (∀ m, v.mons[n.toNat]? = some m → m.armed = true ∧ m.trig = false ∧ m.line = x.key / 128 * 128) ∧
      (∀ k, t.mem.get k = s.mem.get k) ∧ ∀ y, y ≠ c.w.wid → t.wave? y = s.wave? y) ∧
  (∀ s c a n x, Issues (.mon a n) s c → s.probe c (c.sp a).toNat 1 .rd false = .ok x → x.isHost = true →
    exec (.mon a n) s = .next (s.raise c (c.trap 0x05 0 0 (c.sp a)))) ∧
  (∀ s c n, Issues (.monc n) s c → ∃ t v, exec (.monc n) s = .next t ∧ Leaves s t c v ∧ MovedPast (.monc n) c v ∧
    RegFrame c (lessMons c.w v) (fun _ => False) (fun _ _ => False) (fun _ _ => False) ∧
    (∀ k, k ≠ n.toNat → v.mons[k]? = c.w.mons[k]?) ∧ ∀ m, v.mons[n.toNat]? = some m → m.armed = false ∧ m.trig = false) ∧
  ∀ i s c a, i = .monw a ∨ i = .monwG a → Issues i s c → c.w.hasStub = false →
    let now := c.w.rst = true ∨ (∀ m ∈ c.w.mons.take 4, m.armed = false) ∨ ∃ m ∈ c.w.mons.take 4, m.armed = true ∧ m.trig = true
    (c.w.mons.length = 4 → now → ∃ t v, exec i s = .next t ∧ t.wave? c.w.wid = some v ∧ MovedPast i c v ∧
      (∀ k, t.mem.get k = s.mem.get k) ∧ (∀ y, y ≠ c.w.wid → t.wave? y = s.wave? y) ∧
      RegFrame c (lessMons c.w v) (fun r => r = a.toNat) (fun _ _ => False) (fun _ _ => False) ∧
      (∀ q b, holds c q = true → scalarCopy v q = some b → b.sreg.get a.toNat = BitVec.ofNat 32 (monStatus c.w false)) ∧
      v.rst = false ∧ ∀ m ∈ v.mons, m.armed = true → m.trig = false) ∧
    (c.w.mons.length = 4 → ¬ now → ∃ t v v0, exec i s = .next t ∧ t.wave? c.w.wid = some v ∧ v = v0.rotate c.ent ∧
      v0.ent c.ent = { c.w.ent c.ent with st := 4 } ∧ SameRegs c.w v0 ∧ v0.mons = c.w.mons ∧ (∀ k, t.mem.get k = s.mem.get k) ∧
      (c.ent < c.w.aux.length → (v0.auxAt c.ent).park = .monw a (if c.s a.toNat = 0 then none else some (c.s a.toNat).toNat) (i = .monwG a)) ∧
      (i = .monw a → ∀ y, y ≠ c.w.wid → t.wave? y = s.wave? y))

/-! ## What performs and completes later (R124, R207, R214, R222, R333) -/

namespace Sys2Proof

/-- Nothing waits at a named or cohort barrier that the performing of an access could complete. -/
def NoneArrived (s : State) : Prop := (∀ g ∈ s.groups, ∀ b ∈ g.bars, b.arrivals = 0) ∧ ∀ b ∈ s.cbars, b.arrived = []

/-- The bytes of storage from `k` on as a number, the lowest address least significant (R7). -/
def readNat (s : State) (k : Nat) : Nat → Nat
  | 0 => 0
  | n + 1 => (s.mem.get k).toNat + 256 * readNat s (k + 1) n

/-- Among the `n` bytes from `k` on there is none of a structure in memory whose fields have access codes of their own (R8): of the tables of
queues and events (R388, R402), of a pool control block (R360), of the header of an enabled trace (R456). -/
def Plain (s : State) (k n : Nat) : Prop :=
  (k + n ≤ s.qtbase.toNat ∨ s.qtbase.toNat + 0x100300 ≤ k) ∧ (∀ b ∈ s.pools, k + n ≤ b + 24 ∨ b + 33 ≤ k) ∧
  ∀ x ∈ s.cores, bitAt (x.dreg 0x200) 63 = true → k + n ≤ field (x.dreg 0x210) 0 57 ∨ field (x.dreg 0x210) 0 57 + 24 ≤ k

/-- Memory after `n` bytes of the number `x` have been written at `k`. -/
def WritesBytes (s t : State) (k n x : Nat) : Prop :=
  ∀ a, t.mem.get a = if k ≤ a ∧ a < k + n then BitVec.ofNat 8 (x / 256 ^ (a - k)) else s.mem.get a

/-- The words that a loaded number of `n` bytes puts into its registers (R208). -/
def wordsLoaded (n : Nat) (sx : Bool) (x : Nat) : List Word :=
  if n = 8 then [BitVec.ofNat 32 x, BitVec.ofNat 32 (x / 2 ^ 32)]
  else [BitVec.ofInt 32 (if sx ∧ n < 4 ∧ 2 ^ (8 * n - 1) ≤ x then (x : Int) - 2 ^ (8 * n) else x)]

/-- The instruction that waits for `a` has received `ws` for piece `p`, in a part's vector registers or its scalars. -/
def Received (s t : State) (a : Access) (p : Piece) (ws : List Word) : Prop :=
  ∀ w id, s.wave? a.wid = some w → a.pend = some id → ∃ v, t.wave? a.wid = some v ∧ v.vreg = w.vreg ∧ v.banks = w.banks ∧
    v.pend = w.pend.map fun x => if x.id = id then
      (if a.scalar then { x with sres := x.sres ++ ws.mapIdx fun k y => (p.reg + k, y) }
       else { x with vres := x.vres ++ ws.mapIdx fun k y => (64 * (p.reg + k) + p.lane, y) }) else x

/-- R207, R208, R214, R222, R333, R334: a piece that may perform, at an address that is served and with no poison in memory, leaves flight
and has its one effect: a store writes its bytes and no other, at plain bytes; a coherent load changes none and delivers them; an atomic delivers the old
value and writes the new one, or nothing where a cas fails; a DISC changes its own bytes alone. -/
def Claims.PieceActs : Prop :=
  ∀ s id k a p, (s.inflight.find? fun x => x.id == id) = some a → (a.pieces.find? fun x => x.k == k) = some p →
    mayPerform s.inflight a p = true → s.remoteBad p.addr = none → s.poison = [] → NoneArrived s →
    ∃ t, exec (.memoryAccessPerform id k) s = .next t ∧ t.inflight = dropPiece id p.k s.inflight ∧
      (a.kind = .store → Plain s p.addr p.n → WritesBytes s t p.addr p.n p.x.toNat) ∧
      (a.kind = .disc → ∀ x, (x < p.addr ∨ p.addr + p.n ≤ x) → t.mem.get x = s.mem.get x) ∧
      (∀ sx, a.kind = .load sx → (∀ x, t.mem.get x = s.mem.get x) ∧
        ((isLocalKey p.addr = false ∨ (p.home % 4 ≠ 0 ∧ p.home % 4 ≠ 2) ∨ a.acq = true ∨ ∃ w, s.wave? a.wid = some w ∧
            if a.hnd then w.handler.coherent = true else (w.coherent &&& a.quads) ≠ 0) →
          Received s t a p (wordsLoaded p.n sx (readNat s p.addr p.n)))) ∧
      (∀ op ty y, a.kind = .atom op ty → Ty.ofCode (BitVec.ofNat 5 ty) = some y → y.bits = 8 * p.n →
        let old := readNat s p.addr p.n
        let x := p.x.toNat
        Received s t a p (wordsLoaded p.n false old) ∧ (Plain s p.addr p.n →
        (op = 0 → y.isFloat = false → WritesBytes s t p.addr p.n ((old + x) % 2 ^ y.bits)) ∧
        (op = 0 → y.isFloat = true → WritesBytes s t p.addr p.n (y.fmt.round .rne false false ((y.fmt.value old).add false (y.fmt.value x)))) ∧
        (op = 1 ∨ op = 2 → y.isFloat = true → WritesBytes s t p.addr p.n (fminBits y.fmt (op == 2) old x)) ∧
        (op = 1 → y.isFloat = false → WritesBytes s t p.addr p.n (if intVal y x < intVal y old then x else old)) ∧
        (op = 2 → y.isFloat = false → WritesBytes s t p.addr p.n (if intVal y old < intVal y x then x else old)) ∧
        (op = 3 → WritesBytes s t p.addr p.n (old &&& x)) ∧ (op = 4 → WritesBytes s t p.addr p.n (old ||| x)) ∧
        (op = 5 → WritesBytes s t p.addr p.n (old ^^^ x)) ∧ (op = 6 → WritesBytes s t p.addr p.n x) ∧
        (op = 7 → (old = p.y.toNat → WritesBytes s t p.addr p.n x) ∧ (old ≠ p.y.toNat → ∀ z, t.mem.get z = s.mem.get z))))

/-- R331, R334, R346, R442: a piece does not perform before what comes earlier: an earlier access of its own part that is an acquire, that
its release covers (at device scope not the writes to other modules), or that meets it in a byte; and any earlier piece on the same line
of another module (log 38). -/
def Claims.PieceWaits : Prop :=
  ∀ s id k a p, (s.inflight.find? fun x => x.id == id) = some a → (a.pieces.find? fun x => x.k == k) = some p →
    (∃ b ∈ s.inflight.takeWhile fun x => x.id != id,
      (b.wid = a.wid ∧ b.hnd = a.hnd ∧ (a.hnd = true ∨ inOrder b.order a.order = true) ∧ a.host = none ∧ b.host = none ∧ a.isCode = false ∧
          b.isCode = false ∧
        (b.acq = true ∨ (a.rel = true ∧ (3 ≤ a.scope ∨ b.writes = false ∨ ∃ x ∈ b.pieces, isRemoteKey x.addr = false)) ∨
          ∃ x ∈ b.pieces, x.addr < p.addr + p.n ∧ p.addr < x.addr + x.n)) ∨
      ∃ x ∈ b.pieces, isRemoteKey x.addr = true ∧ x.addr / 128 = p.addr / 128) →
    exec (.memoryAccessPerform id k) s = .next s

end Sys2Proof

/-- MEMORY_ACCESS_PERFORM (R207, R208, R214, R222, R331, R333, R334). Storage keys are those of log 11. -/
def Obligations.AccessPerforms : Prop := Claims.PieceActs ∧ Claims.PieceWaits

/-- R124, R125, R126: a long-latency instruction completes in the quads for which nothing of it is in flight: those of its results are
written, a result being the only one of its register and lane; every other register keeps its value; the quads leave its record, which
goes with the last of them. No part of the wave has a trap pending. -/
def Obligations.LongLatencyCompletes : Prop :=
  ∀ s wid w pid p, s.wave? wid = some w → (w.pend.find? fun x => x.id == pid) = some p → s.readyQuads p ≠ 0 → w.trapped = [] →
    (p.vres.map (·.1)).Nodup → (p.sres.map (·.1)).Nodup → (w.pend.map (·.id)).Nodup → p.hnd = false →
    ∃ t v, exec (.longLatencyComplete wid pid) s = .next t ∧ OnlyWave s t wid ∧ t.wave? wid = some v ∧ v.mask = w.mask ∧ v.split = w.split ∧
      (∀ r ∈ p.vres, bitAt (s.readyQuads p) (r.1 % 64 / 4) = true → v.vreg.get r.1 = r.2) ∧
      (∀ k, (∀ x, bitAt (s.readyQuads p) (k % 64 / 4) = true → (k, x) ∉ p.vres) → v.vreg.get k = w.vreg.get k) ∧
      (∀ q b, v.banks[q]? = some b → ∃ b0, w.banks[q]? = some b0 ∧ b = { b0 with sreg := b.sreg } ∧
        (bitAt (s.readyQuads p) q = false → b = b0) ∧
        (bitAt (s.readyQuads p) q = true → (∀ r ∈ p.sres, b.sreg.get r.1 = r.2) ∧ ∀ n, n ∉ p.sres.map (·.1) → b.sreg.get n = b0.sreg.get n)) ∧
      (p.quads &&& ~~~s.readyQuads p = 0 → v.pend = w.pend.filter fun x => x.id != pid) ∧
      (p.quads &&& ~~~s.readyQuads p ≠ 0 → { p with quads := p.quads &&& ~~~s.readyQuads p } ∈ v.pend)

/-! ## The Easel, accumulators and blocks (R72, R240 to R265) -/

namespace Sys2Proof

/-- The context owns the accumulator store of its core (R242). -/
def ownsStore (s : State) (c : Ctx) : Prop := (s.core c.w.core).acsown.toNat % 2 ^ 16 = c.g.ctx

/-- An Easel op: whether it is an MMA, its canvas, tile and address, its four parameters. -/
def easelRow (c : Ctx) : Instr → Option (Bool × Nat × Nat × DWord × List Word)
  | .prime _ k a g => some (false, k.toNat, 0, c.sp a, (List.range 4).map fun j => c.s (4 * g.toNat + j))
  | .mma _ t k g => some (true, k.toNat, t.toNat, 0, (List.range 4).map fun j => c.s (4 * g.toNat + j))
  | _ => none

/-- The parameters of an Easel op pass the checks at issue (R245, R248, R250). -/
def easelFits (s : State) (c : Ctx) (mma : Bool) (can tile : Nat) (addr : DWord) (par : List Word) : Prop :=
  if mma then
    let p := mmaPar ((par[3]?).getD 0)
    let step := if p.pair then 2 else 1
    ∃ d, s.mmaDesc c.g.ctx par = some d ∧ p.nsel ≠ 3 ∧ p.zero = 0 ∧ p.m ≤ 32 ∧ (p.pair = true → can % 2 = 0) ∧
      can + step * p.kc ≤ c.g.cans.length ∧ (if p.nsel = 2 then tile + 1 else tile) < c.g.tiles.length ∧
      d.dbase % 64 = 0 ∧ d.sbase % 64 = 0 ∧ d.obase % 64 = 0 ∧ ∀ e ∈ mmaExtents d p, e.1 + e.2 ≤ c.g.psize
  else
    let p := fun k => ((par[k]?).getD 0).toNat
    1 ≤ p 0 ∧ p 0 ≤ 64 ∧ 1 ≤ p 1 ∧ p 1 ≤ 8 ∧ p 2 = 0 ∧ p 3 = 0 ∧ can < c.g.cans.length ∧
      ∀ f d, s.primeDesc c.w.core c.g.ctx addr.toNat = some (f, d) → d.isWide = true → can % 2 = 0 ∧ can + 1 < c.g.cans.length

/-- The part goes on, and of its wave only the batch state has changed. -/
structure GoesOnBatch (i : Instr) (s t : State) (c : Ctx) (v : Wave) : Prop where
  wave : t.wave? c.w.wid = some v
  moved : MovedPast i c v
  frame : RegFrame c { v with batch := c.w.batch } (fun _ => False) (fun _ _ => False) (fun _ _ => False)
  bytes : ∀ k, t.mem.get k = s.mem.get k
  others : ∀ x, x ≠ c.w.wid → t.wave? x = s.wave? x

/-- R243 to R245, R248, R250, R253: PRIME and MMA that pass their checks put one op with their operands into the core's Easel queue, after the
ops of earlier clk and among those of this clk by partition and lowest quad position, and into the wave's open batch, a 65th op into a new
one, and go on; tiles and canvases keep their values. Without the accumulator store they raise ACS_FIRST_USE with ACSOWN in TINFO (R242); a
full queue makes them wait at issue, and of the ops that wait the first in that order enters first.
The order of the checks is a reading (log 20). -/
def Claims.EaselOpsEnter : Prop :=
  ∀ i s c mma can tile addr par e, easelRow c i = some (mma, can, tile, addr, par) → Acts i .queueRoomWaitEnd s c e →
    let room := (s.core c.w.core).easel.length < 128 ∧ (c.w.batch.nopen < 64 ∨ c.w.batch.closed.length < 16)
    let turn := e = i ∨ s.opFirst c = true
    (e ≠ i → ¬ (room ∧ turn) → exec e s = .next s) ∧
    ((e = i ∨ (room ∧ turn)) → ¬ ownsStore s c → exec e s = .next (s.raise c (c.trap 0x0f 0 (s.core c.w.core).acsown))) ∧
    (ownsStore s c → easelFits s c mma can tile addr par →
      (room → turn → c.w.batch.faulted = false → c.w.core < s.cores.length →
        ∃ t v op, exec e s = .next t ∧ GoesOnBatch i s t c v ∧
          (let upTo := fun (o : EOp) => decide (o.key ≤ op.key)
           (t.core c.w.core).easel = (s.core c.w.core).easel.takeWhile upTo ++ op :: (s.core c.w.core).easel.dropWhile upTo) ∧
          op.key = 256 * (s.core c.w.core).clk.toNat + 16 * c.w.part + (c.w.qbase + lowQuad c.q) ∧
          op.mma = mma ∧ op.can = can ∧ op.tile = tile ∧ op.addr = addr ∧ op.par = par ∧ op.wid = c.w.wid ∧ op.gid = c.g.gid ∧ op.rid = none ∧
          op.again = false ∧ op.batch = v.batch.bseq ∧
          (c.w.batch.nopen < 64 → v.batch = { c.w.batch with nopen := c.w.batch.nopen + 1, left := c.w.batch.left + 1 } ∧ op.opix = c.w.batch.nopen) ∧
          (64 ≤ c.w.batch.nopen → v.batch.bseq = c.w.batch.bseq + 1 ∧ v.batch.nopen = 1 ∧ op.opix = 0) ∧
          (t.core c.w.core).tiles = (s.core c.w.core).tiles ∧ (t.core c.w.core).cans = (s.core c.w.core).cans) ∧
      (¬ room → e = i → ∃ t, exec e s = .next t ∧ WaitsAtIssue i s t c))

/-- R253: MFENCE closes the open batch under the number BSEQ and goes on; with 16 closed batches it waits at issue. -/
def Claims.BatchesClose : Prop :=
  ∀ s c w e, Acts (.mfence w) .queueRoomWaitEnd s c e →
    (c.w.batch.closed.length < 16 → ∃ t v, exec e s = .next t ∧ GoesOnBatch (.mfence w) s t c v ∧
      v.batch.bseq = c.w.batch.bseq + 1 ∧ v.batch.nopen = 0 ∧ v.batch.left = 0 ∧
      v.batch.closed = c.w.batch.closed ++ if c.w.batch.left = 0 then [] else [(c.w.batch.bseq, c.w.batch.left)]) ∧
    (16 ≤ c.w.batch.closed.length → (e = .mfence w → ∃ t, exec e s = .next t ∧ WaitsAtIssue (.mfence w) s t c) ∧
      (e ≠ .mfence w → exec e s = .next s))

/-- R254, R255: in a wave without a recorded fault, BWAIT n goes on when at most n closed batches are incomplete, and waits at issue
otherwise; BWAIT.all closes the open batch and goes on when none is. -/
def Claims.BatchWaits : Prop :=
  (∀ s c w n, Issues (.bwait w n) s c → c.w.batch.faults = [] → c.w.batch.replay = false →
    (c.w.batch.closed.length ≤ n.toNat → WritesScalars (.bwait w n) s c []) ∧
    (n.toNat < c.w.batch.closed.length → ∃ t, exec (.bwait w n) s = .next t ∧ WaitsAtIssue (.bwait w n) s t c)) ∧
  (∀ s c w e, Acts (.bwaitAll w) .queueRoomWaitEnd s c e → c.w.batch.faults = [] → c.w.batch.replay = false → c.w.batch.closed = [] →
    c.w.batch.left = 0 → ∃ t v, exec e s = .next t ∧ GoesOnBatch (.bwaitAll w) s t c v ∧ v.batch.bseq = c.w.batch.bseq + 1 ∧ v.batch.closed = []) ∧
  ∀ s who c w n, s.ctx? who = some c → c.aux.blocked = some (.bwait w n) → c.w.batch.faults = [] →
    (c.w.batch.closed.length ≤ n.toNat → ∃ t v, exec (.bwaitWaitEnd who) s = .next t ∧ GoesOn (.bwait w n) s t c v) ∧
    (n.toNat < c.w.batch.closed.length → exec (.bwaitWaitEnd who) s = .next s)

/-- No Easel op that writes one of the group's tiles from `t` on is under way (R261), and no tile of the core is poisoned. -/
def tilesQuiet (s : State) (c : Ctx) (t n : Nat) : Prop :=
  (s.core c.w.core).bad = [] ∧ ∀ k < n, s.racing c (c.g.tileAt (t + k)) = false

/-- An element of a tile drained into a type: 0xff in every byte where the tile is poisoned (R477), else `y`. -/
def drained (s : State) (c : Ctx) (t : Nat) (bits y : Nat) : Nat :=
  if (s.core c.w.core).bad.contains (c.g.tileAt t) then 2 ^ bits - 1 else y

/-- Element (m, n) of tile `t` of the allocation, in `s`. -/
def tileEl (s : State) (c : Ctx) (t m n : Nat) : DWord := (s.core c.w.core).tiles.get (1024 * c.g.tileAt t + 32 * m + n)

/-- The part goes on, and of memory, registers and other waves nothing has changed: its accumulator tiles may have. -/
def AccGoesOn (i : Instr) (s t : State) (c : Ctx) : Prop := ∃ v, GoesOn i s t c v

/-- R256: ACCZ writes +0 to every element of its tiles and to no other. -/
def Claims.TilesCleared : Prop :=
  ∀ s c w t n, Issues (.accz w t n) s c → ownsStore s c → t.toNat + n.toNat + 1 ≤ c.g.tiles.length → tilesQuiet s c t.toNat (n.toNat + 1) →
    c.w.core < s.cores.length →
    ∃ u, exec (.accz w t n) s = .next u ∧ AccGoesOn (.accz w t n) s u c ∧
      (∀ k ≤ n.toNat, ∀ m < 32, ∀ j < 32, tileEl u c (t.toNat + k) m j = 0) ∧
      ∀ x, (∀ k ≤ n.toNat, x / 1024 ≠ c.g.tileAt (t.toNat + k)) → (u.core c.w.core).tiles.get x = (s.core c.w.core).tiles.get x

/-- R257: ACCWR writes element (m, n) of tile aT + i from part lane 32 i + n of active(P), a binary32 value widened exactly; columns of
other lanes and other tiles keep their values. -/
def Claims.TilesWritten : Prop :=
  ∀ s c w t r f, Issues (.accwr w t r f) s c → ownsStore s c → t.toNat + c.windows ≤ c.g.tiles.length → tilesQuiet s c t.toNat c.windows →
    c.g.tiles.Nodup → c.w.core < s.cores.length →
    ∃ u, exec (.accwr w t r f) s = .next u ∧ AccGoesOn (.accwr w t r f) s u c ∧
      (∀ k < c.windows, ∀ n < 32, ∀ m < 32, let l := 4 * c.part + 32 * k + n
        tileEl u c (t.toNat + k) m n =
          if bitAt c.m0 l then
            (if f = 1 then pair64 (c.v (r.toNat + 2 * m) l) (c.v (r.toNat + 2 * m + 1) l)
             else BitVec.ofNat 64 (cvt .f32 .f64 .rne false false (c.v (r.toNat + m) l).toNat))
          else tileEl s c (t.toNat + k) m n) ∧
      ∀ x, (∀ k < c.windows, x / 1024 ≠ c.g.tileAt (t.toNat + k)) → (u.core c.w.core).tiles.get x = (s.core c.w.core).tiles.get x

/-- R72, R259, R477: ACCRD to registers is pending, element (m, n) of tile aT + i times the two scales, rounded once, for part lane 32 i + n of
active(P) in register D + m, or in the pair D + 2 m; the tiles keep their values. -/
def Claims.TilesDrained : Prop :=
  ∀ s c r w t d l f, Issues (.accrdReg r w t d l f) s c → ownsStore s c → t.toNat + c.windows ≤ c.g.tiles.length →
    (∀ k < c.windows, s.racing c (c.g.tileAt (t.toNat + k)) = false) → r ≠ 4 →
    ∃ u v x, exec (.accrdReg r w t d l f) s = .next u ∧ Pending (.accrdReg r w t d l f) s u c l v x ∧ x.quads = c.q ∧ x.sres = [] ∧
      u.cores = s.cores ∧
      (∀ k < c.windows, ∀ n < 32, ∀ m < 32, bitAt c.m0 (4 * c.part + 32 * k + n) = true →
        let y := (Fmt.b64.value (tileEl s c (t.toNat + k) m n).toNat).mul ((Fmt.b32.value c.bank.sca.toNat).mul (Fmt.b32.value c.bank.scb.toNat))
        if f = 1 then
          let z := drained s c (t.toNat + k) 64 (Fmt.b64.round (.ofCode r 0) false false y)
          (64 * (d.toNat + 2 * m) + (4 * c.part + 32 * k + n), BitVec.ofNat 32 z) ∈ x.vres ∧
            (64 * (d.toNat + 2 * m + 1) + (4 * c.part + 32 * k + n), BitVec.ofNat 32 (z / 2 ^ 32)) ∈ x.vres
        else (64 * (d.toNat + m) + (4 * c.part + 32 * k + n), BitVec.ofNat 32 (drained s c (t.toNat + k) 32 (Fmt.b32.round (.ofCode r 0) false false y))) ∈ x.vres) ∧
      ∀ z ∈ x.vres, bitAt c.m0 (z.1 % 64) = true

/-- R260: ACCRD to memory of a numeric type whose 1,024 addresses are reachable has one access of stores in flight: element (m, n) at
s[A:A+1] + (32 m + n) elements, drained; tiles, registers and, until the pieces perform, memory keep their values. -/
def Claims.TilesStored : Prop :=
  ∀ s c r w t a y ty, Issues (.accrdMem r w t a y) s c → Ty.ofCode y = some ty → ownsStore s c → t.toNat < c.g.tiles.length →
    s.racing c (c.g.tileAt t.toNat) = false → r ≠ 4 → (c.sp a).toNat % 16 = 0 →
    ∀ key : Nat → Nat, (∀ k < 1024, memKey s c (ty.bits / 8) .wr true (((c.sp a).toNat + k * (ty.bits / 8)) % 2 ^ 64) = some (key k)) →
    ∃ u acc, exec (.accrdMem r w t a y) s = .next u ∧ AccGoesOn (.accrdMem r w t a y) s u c ∧ u.cores = s.cores ∧
      u.inflight = s.inflight ++ [acc] ∧ acc.wid = c.w.wid ∧ acc.quads = c.q ∧ acc.kind = .store ∧ acc.rel = false ∧
      acc.pieces.map (fun q => (q.addr, q.n, q.x)) = (List.range 1024).map fun k =>
        (key k, ty.bits / 8, BitVec.ofNat 64 (drained s c t.toNat ty.bits (drain c.scale ty (.ofCode r 0) (tileEl s c t.toNat (k / 32) (k % 32)).toNat)))

/-- R258: SETSC (major 0x38, OP 7, WM, bit 19, A [11:6]) writes the bits of s[A] to scale register A or B of every copy of the part,
and to no other register. -/
def Claims.ScalesSet : Prop :=
  (∀ s c w a, Issues (.setscA w a) s c → ∃ t v v0, exec (.setscA w a) s = .next t ∧ Leaves s t c v ∧ MovedPast (.setscA w a) c v ∧
    RegFrame c v0 (fun _ => False) (fun _ _ => False) (fun _ _ => False) ∧ v = c.setBank v0 fun b => { b with sca := c.s a.toNat }) ∧
  (∀ s c w a, Issues (.setscB w a) s c → ∃ t v v0, exec (.setscB w a) s = .next t ∧ Leaves s t c v ∧ MovedPast (.setscB w a) c v ∧
    RegFrame c v0 (fun _ => False) (fun _ _ => False) (fun _ _ => False) ∧ v = c.setBank v0 fun b => { b with scb := c.s a.toNat }) ∧
  (∀ w a, (encodeWord (.setscA w a)).toNat = 0x38 * 2 ^ 26 + 7 * 2 ^ 23 + w.toNat * 2 ^ 20 + a.toNat * 2 ^ 6) ∧
  ∀ w a, (encodeWord (.setscB w a)).toNat = 0x38 * 2 ^ 26 + 7 * 2 ^ 23 + w.toNat * 2 ^ 20 + 2 ^ 19 + a.toNat * 2 ^ 6

/-- What one K-group does to an accumulator (R70): nothing where a block is a zero block and none is poisoned; a poisoned block leaves the NaN; blocks
without outliers, on an accumulator of +0, give the exact sum of the products of their mantissas times 2^(E_A + E_B - 254), rounded once. -/
def Claims.EaselSteps : Prop :=
  ∀ (acc : Nat) (a b : Block),
    (a.e = 255 ∨ b.e = 255 → easelStep acc a b = Fmt.b64.nanBits) ∧
    (a.e ≠ 255 → b.e ≠ 255 → a.e = 0 ∨ b.e = 0 → easelStep acc a b = acc) ∧
    (a.plain = true → b.plain = true → (∀ k < 32, a.esc k = false ∧ b.esc k = false ∧ (a.mant k).natAbs ≤ 2 ^ 15 ∧ (b.mant k).natAbs ≤ 2 ^ 15) →
      let p := ((List.range 32).map fun k => a.mant k * b.mant k).sum
      easelStep 0 a b = if p = 0 then 0 else Fmt.b64.round .rne false false (.dy (decide (p < 0)) p.natAbs ((a.e : Int) + b.e - 254)))

/-- An element after an MMA (R249): the K-groups from block position KB0 on, eight of them for each canvas, in ascending order; a position at or
beyond KBLK has a zero A block. -/
def Claims.MmaElements : Prop :=
  ∀ (x : Core) g op (d : Desc) (p : MmaPar) rows acc m col,
    mmaElem x g op d p rows acc m col = (List.range (8 * p.kc)).foldl (fun acc k =>
      let a := if p.kb0 + k < d.kblk then (((rows.find? fun r => r.1 == p.kb0 + k).map fun r => (r.2[m]?).getD zeroBlock)).getD zeroBlock else zeroBlock
      let c := op.can + (if p.pair then 2 else 1) * (k / 8)
      easelStep acc a (x.canBlock (g.canAt c) (g.canAt (c + 1)) (k % 8) col p.pair)) acc

/-- R243, R249, R251: an MMA at the head of its core's queue that meets no fault adds, to element (m, n) of its target tiles for every row
m below M, the products of row m with its column of the canvases, in ascending block positions, each step by R70; every other element
keeps its value, memory keeps every byte, and the op leaves the queue. What its part did to the palette before it has performed, no ACCZ or
ACCWR wrote its tiles meanwhile (R261), and no bit flips in its arithmetic (R480). That it reads fdFD and its operands at this one moment is the
model's choice (logs 40, 23). -/
def Claims.MmaActs : Prop :=
  ∀ s core op rest g d rows, (s.core core).easel = op :: rest → s.group? op.gid = some g → op.mma = true → op.rid = none → op.raced = [] →
    (∀ u ∈ s.upsets, u.1 ≠ core) →
    s.mmaDesc g.ctx op.par = some d → (s.core core).bad = [] → core < s.cores.length → g.tiles.Nodup → (∀ o ∈ rest, o.oid ≠ op.oid) →
    (s.inflight.filter fun a => a.wid == op.wid) = [] →
    let p := mmaPar ((op.par[3]?).getD 0)
    (p.m ≤ 32 ∧ (mmaTargets op.tile p).all fun t => decide (t.1 < g.tiles.length)) →
    (if p.m = 0 then .ok [] else (s.mmaRows { ctx := g.ctx, core := some core, pal := some (core, g.pbase) } d p).eval.1) = .ok rows →
    ∃ t, exec (.mmaTakesEffect core) s = .next t ∧ (t.core core).easel = rest ∧ (∀ k, t.mem.get k = s.mem.get k) ∧
      (t.core core).cans = (s.core core).cans ∧
      (∀ x ∈ mmaTargets op.tile p, ∀ m < 32, ∀ n < 32,
        (t.core core).tiles.get (1024 * g.tileAt x.1 + 32 * m + n) =
          if m < p.m then BitVec.ofNat 64 (mmaElem (s.core core) g op d p rows ((s.core core).tiles.get (1024 * g.tileAt x.1 + 32 * m + n)).toNat m (n + x.2))
          else (s.core core).tiles.get (1024 * g.tileAt x.1 + 32 * m + n)) ∧
      ∀ k, (∀ x ∈ mmaTargets op.tile p, k / 1024 ≠ g.tileAt x.1) → (t.core core).tiles.get k = (s.core core).tiles.get k

/-- A reader gave `x`, and all that it read is served (R444). -/
def Reads {α : Type} (s : State) (r : Except LFault α × List Spot) (x : α) : Prop := r.1 = .ok x ∧ ∀ k ∈ r.2, s.remoteBad k.key = none

/-- Canvas `x` holds the blocks `bs` (R240, R246), of the cells `part` of each mantissa: the exponent of block i of column n, its cells, 0 where
an element is an outlier, and zero blocks in every other column and K-group. -/
def HoldsBlocks (x : Canvas) (bs : List (List Block)) (part : Int → Int) : Prop :=
  (∀ i n b, (bs[i]?).bind (·[n]?) = some b → x.exp.get (64 * i + n) = BitVec.ofNat 8 b.e ∧
    ∀ j < 32, x.cell.get (64 * (32 * i + j) + n) = BitVec.ofInt 8 (part (if b.esc j then 0 else b.mant j))) ∧
  ∀ i n, n < 64 → (bs[i]?).bind (·[n]?) = none → x.exp.get (64 * i + n) = 0

/-- R241, R246, R247: a PRIME at the head of its core's queue whose operand is read without a fault gives its canvas, or a pair for a
width-16 operand, the state of its width, the blocks of its operand (of a pair the high and the low halves of the mantissas) with the outliers
in the Stipple list, and a prime record of its operands; tiles and other canvases keep their values. That it reads its operand at one moment is
the model's choice (log 23). Nothing of its part, and nothing that goes to another module, is in flight. -/
def Claims.PrimeActs : Prop :=
  ∀ s core op rest g n0 kb0 fd d bs, (s.core core).easel = op :: rest → s.group? op.gid = some g → op.mma = false → op.rid = none → op.again = false →
    core < s.cores.length → g.cans.Nodup → op.can < g.cans.length → (d.isWide = true → op.can + 1 < g.cans.length) → (∀ o ∈ rest, o.oid ≠ op.oid) →
    (∀ a ∈ s.inflight, a.wid ≠ op.wid ∧ ∀ p ∈ a.pieces, isRemoteKey p.addr = false) → s.primeStart core g.ctx op = .ok (n0, kb0, fd, d) →
    ((op.par[0]?).getD 0).toNat ≤ 64 →
    Reads s (s.primeBlocks { ctx := g.ctx, core := some core, errs := op.errs } d n0 kb0 ((op.par[0]?).getD 0).toNat ((op.par[1]?).getD 0).toNat).eval bs →
    ∃ t r, exec (.primeTakesEffect core) s = .next t ∧ (t.core core).easel = rest ∧ (∀ k, t.mem.get k = s.mem.get k) ∧
      (t.core core).tiles = (s.core core).tiles ∧
      ((t.core core).can (g.canAt op.can)).st = (if d.isWide then .b16h else .b8) ∧ ((t.core core).can (g.canAt op.can)).prime = some r ∧
      r.addr = op.addr ∧ r.fd = fd ∧ r.nc = ((op.par[0]?).getD 0).toNat ∧ r.nk = ((op.par[1]?).getD 0).toNat ∧ r.batch = op.batch ∧ r.opix = op.opix ∧
      HoldsBlocks ((t.core core).can (g.canAt op.can)) bs (fun q => if d.isWide then q / 256 else q) ∧
      (∀ i n b j v, (bs[i]?).bind (·[n]?) = some b → b.vals[j]? = some (some v) →
        (32 * i + j, n, BitVec.ofNat 32 v) ∈ ((t.core core).can (g.canAt op.can)).stipple) ∧
      (d.isWide = true → ((t.core core).can (g.canAt (op.can + 1))).st = .b16l ∧ HoldsBlocks ((t.core core).can (g.canAt (op.can + 1))) bs (· % 256)) ∧
      ∀ k, k ≠ g.canAt op.can → (d.isWide = true → k ≠ g.canAt (op.can + 1)) → (t.core core).can k = (s.core core).can k

end Sys2Proof

/-- The Easel's queue and batches (R242 to R255). -/
def Obligations.EaselQueue : Prop := Claims.EaselOpsEnter ∧ Claims.BatchesClose ∧ Claims.BatchWaits

/-- Accumulator tiles as instructions see them (R72, R256 to R261). -/
def Obligations.AccumulatorResults : Prop :=
  Claims.TilesCleared ∧ Claims.TilesWritten ∧ Claims.TilesDrained ∧ Claims.TilesStored ∧ Claims.ScalesSet

/-- What the Easel does (R70, R241 to R251). That an op reads fdFD and its operands at the one moment at which it takes effect is the model's choice
(logs 23 and 40). -/
def Obligations.EaselEffects : Prop := Claims.MmaActs ∧ Claims.PrimeActs ∧ Claims.EaselSteps ∧ Claims.MmaElements

/-! ## Blocks (R262 to R265) -/

namespace Sys2Proof

/-- R262, R263: QNTZ of a slot that its address names, on the line that QTC expects, whose stores are all reachable and whose outlier list
has room, has the stores of its blocks in flight, and QTC counts on (R73, R76); a misplaced address raises ALIGN, with nothing written.
The order of the checks is a reading (log 20). -/
def Claims.Quantises : Prop :=
  ∀ s c w r a t u d n kb, Issues (.qntz w r a t u) s c → s.blockAt c (c.sp a).toNat ⟨rkPerm, cPerm, (c.sp a).toNat, true⟩ = .ok (d, n, kb) →
    let xs := fun (k : Nat) => (List.range 32).map fun j =>
      if bitAt c.m0 (4 * c.part + 32 * k + j) then Fmt.b32.value (c.v r.toNat (4 * c.part + 32 * k + j)).toNat else .zero
    let q0 : QState := { blk := c.bank.qtc.toNat / 2 ^ 16 % 32, count := c.bank.qtc.toNat % 32, clamped := c.bank.qtc.toNat.testBit 8 }
    let q := (List.range c.windows).foldl (fun (q : QState) k => q.block d (if u = 1 then none else some t.toNat) (n + k) kb (xs k)) q0
    (n % 32 ≠ q0.blk → exec (.qntz w r a t u) s = .next (s.raise c (c.trap 0x03 0 0 (c.sp a) c.m0))) ∧
    (n % 32 = q0.blk → q.full = false → (∀ x ∈ q.clears ++ q.puts, (memKey s c x.2.1 .wr true x.1).isSome = true) →
      ∃ u' v v0, exec (.qntz w r a t u) s = .next u' ∧ u'.wave? c.w.wid = some v ∧ (∀ k, u'.mem.get k = s.mem.get k) ∧
        (∀ x, x ≠ c.w.wid → u'.wave? x = s.wave? x) ∧ MovedPast (.qntz w r a t u) c v ∧
        RegFrame c v0 (fun _ => False) (fun _ _ => False) (fun _ _ => False) ∧
        v = (c.setBank v0 fun b => { b with qtc := qtcWord q.blk q.clamped q.count }) ∧
        (u'.inflight.drop s.inflight.length).flatMap (fun x => x.pieces.map fun y => (y.addr, y.n, y.x)) =
          (q.clears ++ q.puts).map fun x => ((memKey s c x.2.1 .wr true x.1).getD 0, x.2.1, BitVec.ofNat 64 x.2.2)) ∧
    (n % 32 = q0.blk → q.full = true → (∀ x ∈ q.clears ++ q.puts, (memKey s c x.2.1 .wr true x.1).isSome = true) →
      exec (.qntz w r a t u) s = .next (s.raise c (c.trap 0x0a 0 0 (c.sp a))))

/-- What quantising gives one block (R74, R75): E 255 and a slot of zeros where an element is a NaN or an infinity, E 0 where all are zero; else, with
no outliers allowed and a given tag, q of each element is its magnitude over 2^(E - 127), rounded to nearest even and limited to
2^(w-1) - 1, with its sign, for the least E from 1 on at which the largest needs no limit. -/
def Claims.QuantisesBlocks : Prop :=
  ∀ (d : Desc) t count xs b, quantise d t count xs = some b → xs.length = 32 →
    (xs.any (fun x => x.isNan || x.isInf) = true → b.e = 255 ∧ b.slot = 0 ∧ b.elected = []) ∧
    (xs.all Fl.isZero = true → b.e = 0 ∧ b.slot = 0 ∧ b.elected = []) ∧
    (∀ tag, t = some tag → d.esc = false → xs.any (fun x => x.isNan || x.isInf) = false → xs.all Fl.isZero = false →
      let w := (d.widths[tag]?).getD 2
      let top := (xs.map mag32).foldl max 0
      2 ≤ w → b.tag = tag ∧ b.elected = [] ∧ 1 ≤ b.e ∧ b.e ≤ 254 ∧ (∀ e, 1 ≤ e → e < b.e → 2 ^ (w - 1) - 1 < roundNat .rne false top (2 ^ (e + 22))) ∧
      ∀ j x, xs[j]? = some x →
        slotElem w b.slot j = sgn x.neg? (min (roundNat .rne false (mag32 x) (2 ^ (b.e + 22))) (2 ^ (w - 1) - 1)))

/-- What one block of a QNTZ brings (R61, R76): its slot's words, its scale word, of even parity with E, T and N, and one list entry for each
outlier, after those that the tile has; BLK goes on modulo 32, and COUNT by the outliers, or to 0 after line 31. -/
def Claims.BlockStores : Prop :=
  ∀ (q : QState) (d : Desc) t n kb xs b, quantise d t q.count xs = some b → b.e < 256 → b.tag < 4 → b.elected.length ≤ 16 →
    let r := q.block d t n kb xs
    r.full = q.full ∧ r.blk = (if q.blk = 31 then 0 else q.blk + 1) ∧ r.count = (if q.blk = 31 then 0 else q.count + b.elected.length) ∧
    ∃ x, r.puts = q.puts ++ (List.range d.wmax).map (fun k => (d.slotVa n kb + 4 * k, 4, b.slot / 2 ^ (32 * k) % 2 ^ 32)) ++ [(d.scaleVa n kb, 2, x)] ++
        b.elected.mapIdx (fun k y => (d.listVa (n / 32) kb + 4 * (q.count + k), 4, 65536 * y.2 + 64 * (n % 32 * 32 + y.1) + 1)) ∧
      scE x = b.e ∧ scT x = b.tag ∧ scN x = b.elected.length ∧ evenParity x = true

/-- Nothing of the part is in flight, and nothing that goes to another module (R442). -/
def Quiet (s : State) (c : Ctx) : Prop := flightOf s c = [] ∧ ∀ a ∈ s.inflight, ∀ p ∈ a.pieces, isRemoteKey p.addr = false

/-- R264, R265: DQNZ and OLRD of a slot that their address names, with nothing of their part in flight and every lane's element, or list
entry, readable, are pending with those values for their lanes of active(P). That they read as they issue is the model's choice (log 23); so is
that a palette window may hold their page (log 24). -/
def Claims.BlocksRead : Prop :=
  (∀ s c w d a l ds n kb (f : Nat → Nat), Issues (.dqnz w d a l) s c → Quiet s c →
    s.blockAt c (c.sp a).toNat ⟨rkPerm, cPerm, (c.sp a).toNat, false⟩ = .ok (ds, n, kb) →
    (∀ ln < 64, bitAt c.m0 ln = true → Reads s (s.takeElem { ctx := c.g.ctx, core := some c.w.core, errs := c.aux.errs, window := true } ds (n + (ln - 4 * c.part) / 32)
      (32 * kb + (ln - 4 * c.part) % 32) false).eval (f ln)) →
    ∃ t v x, exec (.dqnz w d a l) s = .next t ∧ Pending (.dqnz w d a l) s t c l v x ∧ x.quads = c.q ∧ x.sres = [] ∧
      x.vres = ((List.range 64).filter (bitAt c.m0)).map fun ln => (64 * d.toNat + ln, BitVec.ofNat 32 (f ln))) ∧
  ∀ s c w d a l ds n kb (f : Nat → Nat), Issues (.olrd w d a l) s c → Quiet s c →
    s.blockAt c (c.sp a).toNat ⟨rkPerm, cPerm, (c.sp a).toNat, false⟩ = .ok (ds, n, kb) →
    (∀ k < 16, bitAt c.m0 (4 * c.part + k) = true →
      Reads s (s.takeNum { ctx := c.g.ctx, core := some c.w.core, errs := c.aux.errs, window := true } (ds.listVa (n / 32) kb + 4 * k) 4).eval (f k)) →
    ∃ t v x, exec (.olrd w d a l) s = .next t ∧ Pending (.olrd w d a l) s t c l v x ∧ x.quads = c.q ∧ x.sres = [] ∧
      x.vres = ((List.range 16).filter fun k => bitAt c.m0 (4 * c.part + k)).map fun k => (64 * d.toNat + (4 * c.part + k), BitVec.ofNat 32 (f k))

end Sys2Proof

/-! ## The fetch unit (R217 to R220, R285 to R294) -/

namespace Sys2Proof

/-- How the fetch unit of the part's core reads for it (R220). -/
def fetchVia (c : Ctx) : Via := { ctx := c.g.ctx, core := some c.w.core, errs := c.aux.errs, cache := some (fetchCache c.w.core) }

/-- What a lane of FGATH gets (R217 to R219): LANE for a handle of 0, ALIGN for one that is no multiple of 64, ILLEGAL for an invalid descriptor;
else element s of its line, of a float page the value of its bytes as binary32, or the bytes themselves. -/
def Claims.GatheredElements : Prop :=
  ∀ s x h n k raw,
    (h = 0 → (s.gathLane x h n k raw).1 = .error ⟨0, 0x06, 0, false⟩) ∧
    (h % 64 ≠ 0 → (s.gathLane x h n k raw).1 = .error ⟨1, 0x03, h, false⟩) ∧
    ∀ bs, h ≠ 0 → h % 64 = 0 → (s.take x h 64 []).1 = .ok bs →
      let o := descOf ((List.range 8).map fun i => BitVec.ofNat 64 (ofBytes ((bs.drop (8 * i)).take 8)))
      (o = none → (s.gathLane x h n k raw).1 = .error ⟨3, 0x01, 0, false⟩) ∧
      ∀ d y, o = some d → (32 * d.kblk ≤ k → (s.gathLane x h n k raw).1 = .ok 0) ∧
        (k < 32 * d.kblk → d.csrc ≠ 0 → FindsNum s x (d.dbase + n * 2 ^ d.dshift + k * d.elemBytes) d.elemBytes y →
          (s.gathLane x h n k raw).1 = .ok (if raw then y else Fmt.b32.round .rne false false (d.elemFmt.value y)))

/-- What a tap reads (R287, R288, R290): texel (x, y) of level 0 of layer 0 of a texture that is not compressed stands at row pitch times y and texel
size times x from the base, the pitch being the least multiple of 64 that holds a row; a texel of four 8-bit components gives each over 255;
outside a texture with border addressing there is the border, 0 with alpha 0 or 1. Point filtering gives the texel at the floors of the coordinates
times the extents of the nearest level. -/
def Claims.Texels : Prop :=
  (∀ (s : State) (v : Via) (t : Tex) (x y : Nat) bs, isAstc t.fmt = false → x < t.w → y < t.h → t.au < 4 → t.av < 4 →
    (∀ ks, ∃ ks', s.take v (t.base + y * ((t.w * texBytes t.fmt + 63) / 64 * 64) + x * texBytes t.fmt) (texBytes t.fmt) ks = (.ok bs, ks')) →
    ∀ ks, ∃ ks', s.takeTexel v t 0 0 x y ks = (.ok (texelOf t.fmt bs), ks')) ∧
  (∀ r g b a : Byte, texelOf 3 [r, g, b, a] = [r, g, b, a].map fun z => Fmt.b32.round .rne false false (.fin false z.toNat 255)) ∧
  (∀ (s : State) (v : Via) (t : Tex) l i j ks, t.au = 3 → (i < 0 ∨ (t.lw l : Int) ≤ i) →
    ∀ y, s.takeTexel v t y l i j ks = (.ok [0, 0, 0, if t.bord then 0x3f800000 else 0], ks)) ∧
  ∀ (s : State) (v : Via) (t : Tex) layer q lod (u w : Fl) cs, t.filt = 0 → cs.length = 4 →
    (let l := min t.levm1 ((q + 128) / 256)
     ∀ ks, ∃ ks', s.takeTexel v t layer l (u.mul (.fin false (t.lw l) 1)).floor (w.mul (.fin false (t.lh l) 1)).floor ks = (.ok cs, ks')) →
    ∀ ks, ∃ ks', s.takeSample v t layer q lod u w ks = (.ok (cs.map fun x => Fmt.b32.round .rne false false (Fmt.b32.value x)), ks')

/-- R218: FGATH whose lanes all read their elements through the fetch unit is pending, with element s of the line that each lane names, as
binary32 or raw; the lanes that `.z` zeroes get 0. -/
def Claims.Gathers : Prop :=
  ∀ s c d b l m h p (f : Nat → Nat), Issues (.fgath d b l m h p) s c → Quiet s c →
    let r := 4 * b.toNat
    let lanes := (List.range 64).filter fun ln => bitAt (c.active p) ln && !bitAt c.aux.done ln
    (∀ ln ∈ lanes, Reads s (s.gathLane (fetchVia c) (pair64 (c.v r ln) (c.v (r + 1) ln)).toNat (c.v (r + 2) ln).toNat (c.v (r + 3) ln).toNat (m == 1))
      (f ln)) →
    ∃ t v x, exec (.fgath d b l m h p) s = .next t ∧ Pending (.fgath d b l m h p) s t c l v x ∧ x.quads = c.q ∧ x.sres = [] ∧
      (∀ ln ∈ lanes, (64 * d.toNat + ln, BitVec.ofNat 32 (f ln)) ∈ x.vres) ∧
      ∀ y ∈ x.vres, (∃ ln ∈ lanes, y = (64 * d.toNat + ln, BitVec.ofNat 32 (f ln))) ∨ (y.2 = 0 ∧ bitAt (c.zeroLanes p) (y.1 % 64) = true)

/-- R285: TSMP whose descriptor stands at a multiple of 64, and whose lanes all read their texels, is pending with four components for
each lane, +0 in all four where u or v is NaN; another address makes the whole part raise ALIGN.
Roundings that the rules leave out are readings (log 24). -/
def Claims.Samples : Prop :=
  ∀ s c d b v l m h p (f : Nat → List Nat), Issues (.tsmp d b v l m h p) s c →
    ((c.sp b).toNat % 64 ≠ 0 → exec (.tsmp d b v l m h p) s = .next (s.raise c (c.trap 0x03 0 0 (c.sp b) (c.active p)))) ∧
    (let lanes := (List.range 64).filter fun ln => bitAt (c.active p) ln && !bitAt c.aux.done ln
     (c.sp b).toNat % 64 = 0 → Quiet s c →
     (∀ ln ∈ lanes, Reads s (s.sampleLane (fetchVia c) c (c.sp b).toNat (4 * v.toNat) m.toNat ln) (f ln)) →
     ∃ t w x, exec (.tsmp d b v l m h p) s = .next t ∧ Pending (.tsmp d b v l m h p) s t c l w x ∧ x.quads = c.q ∧ x.sres = [] ∧
       (∀ ln ∈ lanes, (f ln).length = 4 ∧
         ((Fmt.b32.value (c.v (4 * v.toNat) ln).toNat = .nan ∨ Fmt.b32.value (c.v (4 * v.toNat + 1) ln).toNat = .nan) → f ln = [0, 0, 0, 0]) ∧
         ∀ k y, (f ln)[k]? = some y → (64 * (4 * d.toNat + k) + ln, BitVec.ofNat 32 y) ∈ x.vres) ∧
       ∀ y ∈ x.vres, (∃ ln ∈ lanes, y.1 % 64 = ln) ∨ (y.2 = 0 ∧ bitAt (c.zeroLanes p) (y.1 % 64) = true))

/-- The lanes of a ray test with their records: `n` bytes at the lane's address, which is a multiple of `al`. -/
def rayReads (s : State) (c : Ctx) (n : BitVec 6) (len al : Nat) (lanes : List Nat) (bs : Nat → List Byte) : Prop :=
  ∀ ln ∈ lanes, let va := (pair64 (c.v (2 * n.toNat) ln) (c.v (2 * n.toNat + 1) ln)).toNat
    va % al = 0 ∧ Reads s (s.take (fetchVia c) va len).eval (bs ln)

/-- The results of a ray test: register 16 R + 8 + k of each lane takes entry k of the lane's list, and no other register is written. -/
def rayWrites (r : BitVec 3) (lanes : List Nat) (x : Pend) (f : Nat → List Nat) : Prop :=
  x.vres = lanes.flatMap fun ln => (f ln).mapIdx fun k y => (64 * (16 * r.toNat + 8 + k) + ln, BitVec.ofNat 32 y)

/-- The order of R293 on two boxes: hits before misses, hits by tn, ties and misses by index. -/
def boxBefore (bs : List Byte) (y : Ray) (i j : Nat) : Prop :=
  let a := boxTest bs y i
  let b := boxTest bs y j
  if a.1 then (b.1 = true → (f32v a.2).lt (f32v b.2) = true ∨ ((f32v a.2).eq (f32v b.2) = true ∧ i < j)) else b.1 = false ∧ i < j

/-- R293: RBOX gives each lane of m0 the four boxes of its node in the order of the rule: tn or +∞, then the child word or all ones. -/
def Claims.BoxTests : Prop :=
  ∀ s c r n l bs, Issues (.rbox r n l) s c → Quiet s c →
    let lanes := (List.range 64).filter fun ln => bitAt c.m0 ln && !bitAt c.aux.done ln
    let ray := fun ln => c.ray (16 * r.toNat) ln
    rayReads s c n 128 128 lanes bs →
    ∃ t v x, ∃ os : Nat → List Nat, exec (.rbox r n l) s = .next t ∧ Pending (.rbox r n l) s t c l v x ∧ x.quads = c.q ∧ x.sres = [] ∧
      (∀ ln ∈ lanes, (os ln).Perm [0, 1, 2, 3] ∧ (os ln).Pairwise (boxBefore (bs ln) (ray ln))) ∧
      rayWrites r lanes x fun ln =>
        ((os ln).map fun j => if (boxTest (bs ln) (ray ln) j).1 then (boxTest (bs ln) (ray ln) j).2 else 0x7f800000) ++
          (os ln).map fun j => if (boxTest (bs ln) (ray ln) j).1 then recWord (bs ln) (24 + j) else 0xffffffff

/-- Component `k` of cross(a, b), and dot(a, b), with every operation rounded to binary32 in the order written (R294). -/
def crossAt (a b : Nat → Nat) (k : Nat) : Nat :=
  f32sub (f32mul (a ((k + 1) % 3)) (b ((k + 2) % 3))) (f32mul (a ((k + 2) % 3)) (b ((k + 1) % 3)))

def dotOf (a b : Nat → Nat) : Nat := f32add (f32add (f32mul (a 0) (b 0)) (f32mul (a 1) (b 1))) (f32mul (a 2) (b 2))

/-- The eight results of R294 for a record and a ray given by component. -/
def triangleRow (rec : Nat → Nat) (o d : Nat → Nat) (tmax : Nat) : List Nat :=
  let side := fun (i k : Nat) => f32sub (rec (3 * i + k)) (rec k)
  let q := crossAt d (side 2)
  let det := dotOf (side 1) q
  let sv := fun k => f32sub (o k) (rec k)
  let rv := crossAt sv (side 1)
  let inv := f32div 0x3f800000 det
  let b1 := f32mul (dotOf sv q) inv
  let b2 := f32mul (dotOf d rv) inv
  let t := f32mul (dotOf (side 2) rv) inv
  let hit := !(f32v det).isNan && !(f32v det).isZero && f32le 0 b1 && f32le 0 b2 && f32le (f32add b1 b2) 0x3f800000 && f32le 0 t && f32le t tmax
  [if hit then t else 0x7f800000, if hit then b1 else 0, if hit then b2 else 0, rec 9,
    (if hit then 1 else 0) + (if (f32v det).lt .zero then 2 else 0), 0, 0, 0]

/-- R294: RTRI gives each lane of m0 the test of its ray with the triangle at its address. -/
def Claims.TriangleTests : Prop :=
  ∀ s c r n l bs, Issues (.rtri r n l) s c → Quiet s c →
    let lanes := (List.range 64).filter fun ln => bitAt c.m0 ln && !bitAt c.aux.done ln
    rayReads s c n 40 16 lanes bs →
    ∃ t v x, exec (.rtri r n l) s = .next t ∧ Pending (.rtri r n l) s t c l v x ∧ x.quads = c.q ∧ x.sres = [] ∧
      rayWrites r lanes x fun ln => let y := fun k => (c.v (16 * r.toNat + k) ln).toNat
        triangleRow (recWord (bs ln)) y (fun k => y (3 + k)) (y 6)

/-- An instruction of the fetch unit: its L, and that every one of its lanes can be served: a descriptor, node or triangle where R285, R293 and R294 want
it, and every byte that the lane names readable. -/
def fetchRow (s : State) (c : Ctx) : Instr → Option (BitVec 4 × Prop)
  | .fgath _ b l m _ p => some (l, ∀ ln < 64, bitAt (c.active p) ln = true →
      let r := 4 * b.toNat
      ∃ y, Reads s (s.gathLane (fetchVia c) (pair64 (c.v r ln) (c.v (r + 1) ln)).toNat (c.v (r + 2) ln).toNat (c.v (r + 3) ln).toNat (m == 1)) y)
  | .tsmp _ b v l m _ p => some (l, (c.sp b).toNat % 64 = 0 ∧ ∀ ln < 64, bitAt (c.active p) ln = true →
      ∃ y, Reads s (s.sampleLane (fetchVia c) c (c.sp b).toNat (4 * v.toNat) m.toNat ln) y)
  | .rbox _ n l => some (l, ∃ bs, rayReads s c n 128 128 ((List.range 64).filter (bitAt c.m0)) bs)
  | .rtri _ n l => some (l, ∃ bs, rayReads s c n 40 16 ((List.range 64).filter (bitAt c.m0)) bs)
  | _ => none

/-- R218, R285, R293, R294: FGATH, TSMP, RBOX and RTRI complete: with nothing of their part in flight and every lane served they are pending, and nothing
but the part's place has changed. -/
def Claims.FetchesComplete : Prop :=
  ∀ i s c l served, fetchRow s c i = some (l, served) → Issues i s c → Quiet s c → served →
    ∃ t v x, exec i s = .next t ∧ Pending i s t c l v x ∧ x.quads = c.q ∧ x.sres = []

end Sys2Proof

/-- Blocks that instructions of a part write and read (R61, R73 to R76, R262 to R265), and that the instructions of the fetch unit complete (R218, R285,
R293, R294). That all of them read as they issue is the model's choice (log 23), and so is the order of their checks (log 20) and that a
palette window may hold blocks (log 24). -/
def Obligations.BlockResults : Prop :=
  Claims.Quantises ∧ Claims.QuantisesBlocks ∧ Claims.BlockStores ∧ Claims.BlocksRead ∧ Claims.FetchesComplete

/-- What reads through the fetch unit (R217 to R220, R285 to R290, R292 to R294). That it reads as it issues is the model's choice (log 23), as are the
roundings that the rules leave out (log 24). -/
def Obligations.FetchUnitResults : Prop :=
  Claims.Gathers ∧ Claims.GatheredElements ∧ Claims.Samples ∧ Claims.Texels ∧ Claims.BoxTests ∧ Claims.TriangleTests

/-! ## Mesh output and pixels (R269 to R276, R349) -/

namespace Sys2Proof

/-- The part goes on, and its group's mesh output is `m`. -/
def MeshGoesOn (i : Instr) (s t : State) (c : Ctx) (m : MeshOut) : Prop :=
  (∃ v, GoesOn i s t c v) ∧ t.group? c.g.gid = some { c.g with mesh := m } ∧ ∀ x, x ≠ c.g.gid → t.group? x = s.group? x

/-- R269, R349: MCNT fixes the group's counts, each at most 256, once; in strict mode a greater count raises MESH_OVERRUN, of which TMASK is that of
active(P) (the model's reading, log 20). In the attribute pass it has no effect. -/
def Claims.MeshCounts : Prop :=
  ∀ s c v p, Issues (.mcnt v p) s c →
    let nv := (c.s v.toNat).toNat
    let np := (c.s p.toNat).toNat
    (s.attrPass c.g = true → ∃ t, exec (.mcnt v p) s = .next t ∧ MeshGoesOn (.mcnt v p) s t c c.g.mesh) ∧
    (s.attrPass c.g = false → c.g.mesh.declared = true → exec (.mcnt v p) s = .next (s.raise c (c.trap 0x01))) ∧
    (s.attrPass c.g = false → c.g.mesh.declared = false → (256 < nv ∨ 256 < np) → c.g.strict = true →
      exec (.mcnt v p) s = .next (s.raise c (c.trap 0x0e 0 0 0 c.m0))) ∧
    (s.attrPass c.g = false → c.g.mesh.declared = false → ((nv ≤ 256 ∧ np ≤ 256) ∨ c.g.strict = false) →
      ∃ t, exec (.mcnt v p) s = .next t ∧ MeshGoesOn (.mcnt v p) s t c
        { c.g.mesh with declared := true, nv := min nv 256, np := min np 256,
                        overrun := c.g.mesh.overrun || decide (256 < nv ∨ 256 < np) })

/-- R270, R349: MVTX writes attributes of the vertices that the lanes of m0 name, 0 to 3 in the position pass and the others in the attribute
pass; of several lanes that name one vertex each word has the value of one. A vertex out of range is dropped and sets the overrun bit, or
raises MESH_OVERRUN with every such lane in strict mode.
R270 keeps all of them in the attribute pass, R349 only the others: a free value says (log 19). -/
def Claims.MeshVertices : Prop :=
  ∀ s c r a n, Issues (.mvtx r a n) s c →
    let ix := fun l => (c.v r.toNat l).toNat
    let out := (List.range 64).filter fun l => bitAt c.m0 l && decide (c.g.mesh.nv ≤ ix l)
    let kept := fun (j : Nat) => decide (j ≤ n.toNat) && (if s.attrPass c.g then decide (4 ≤ j) || Config.keepsPosition else decide (j < 4))
    (out ≠ [] → c.g.strict = true → exec (.mvtx r a n) s = .next (s.raise c (c.trap 0x0e 0 0 0 (laneMask out)))) ∧
    (out = [] ∨ c.g.strict = false → ∃ (t : State) (m : MeshOut), exec (.mvtx r a n) s = .next t ∧ MeshGoesOn (.mvtx r a n) s t c m ∧
      m = { c.g.mesh with attr := m.attr, overrun := c.g.mesh.overrun || !out.isEmpty } ∧
      (∀ x j, x < c.g.mesh.nv → kept j = true → (∃ l, bitAt c.m0 l = true ∧ ix l = x) →
        ∃ l, bitAt c.m0 l = true ∧ ix l = x ∧ m.attr.get (64 * x + j) = c.v (4 * a.toNat + j) l) ∧
      ∀ k, (¬ ∃ l, bitAt c.m0 l = true ∧ ix l = k / 64 ∧ k / 64 < c.g.mesh.nv ∧ kept (k % 64) = true) → m.attr.get k = c.g.mesh.attr.get k)

/-- The packed primitive at index `p`; none where it is culled or not written. -/
def primAt (m : MeshOut) (p : Nat) : Option Word := (m.prim.find? fun x => x.1 == p).map (·.2)

/-- A primitive word names a vertex out of range (R271). -/
def badPrim (m : MeshOut) (w : Word) : Prop := m.nv ≤ w.toNat % 256 ∨ m.nv ≤ w.toNat / 2 ^ 8 % 256 ∨ m.nv ≤ w.toNat / 2 ^ 16 % 256

/-- R271, R272, R349: MPRIM writes the primitives that the lanes of m0 name; one with a vertex out of range is culled and counted, an index
out of range sets the overrun bit, and in strict mode both raise MESH_OVERRUN instead. In the attribute pass it has no effect. -/
def Claims.MeshPrimitives : Prop :=
  ∀ s c r x, Issues (.mprim r x) s c →
    let ix := fun l => (c.v r.toNat l).toNat
    let out := fun l => bitAt c.m0 l = true ∧ c.g.mesh.np ≤ ix l
    let inn := fun l => bitAt c.m0 l = true ∧ ix l < c.g.mesh.np
    let bad := fun l => badPrim c.g.mesh (c.v x.toNat l)
    (s.attrPass c.g = true → ∃ t, exec (.mprim r x) s = .next t ∧ MeshGoesOn (.mprim r x) s t c c.g.mesh) ∧
    (s.attrPass c.g = false → c.g.strict = true → (∃ l, out l ∨ (inn l ∧ bad l)) →
      ∃ ls, exec (.mprim r x) s = .next (s.raise c (c.trap 0x0e 0 0 0 (laneMask ls))) ∧ ∀ l, l ∈ ls ↔ (out l ∨ (inn l ∧ bad l))) ∧
    (s.attrPass c.g = false → (c.g.strict = false ∨ ¬ ∃ l, out l ∨ (inn l ∧ bad l)) →
      ∃ (t : State) (m : MeshOut) (cs : List Nat), exec (.mprim r x) s = .next t ∧ MeshGoesOn (.mprim r x) s t c m ∧ cs.Nodup ∧ (∀ l, l ∈ cs ↔ (inn l ∧ bad l)) ∧
        m = { c.g.mesh with prim := m.prim, overrun := m.overrun, culled := min 65535 (c.g.mesh.culled + cs.length) } ∧
        (m.overrun = true ↔ c.g.mesh.overrun = true ∨ ∃ l, out l) ∧
        (∀ p, (∃ l, inn l ∧ ix l = p) → ∃ l, inn l ∧ ix l = p ∧ (bad l → primAt m p = none) ∧
          (¬ bad l → primAt m p = some (BitVec.ofNat 32 ((c.v x.toNat l).toNat % 2 ^ 25)))) ∧
        ∀ p, (¬ ∃ l, inn l ∧ ix l = p) → primAt m p = primAt c.g.mesh p)

/-- R274: VINTP interpolates attribute n of each lane's triangle: the exact sum, rounded once to binary32. -/
def Claims.Interpolates : Prop :=
  ∀ s c d b n, Issues (.vintp d b n) s c → WritesLanes (.vintp d b n) s c none .b32 d fun l =>
    let a := fun (k : Nat) => ((s.attrs c n.toNat l)[k]?).getD Fl.zero
    let w := fun (k : Nat) => Fmt.b32.value (c.v (2 * b.toNat + k) l).toNat
    Fmt.b32.round .rne false false (((a 0).add false ((w 0).mul ((a 1).add false (a 0).negate))).add false ((w 1).mul ((a 2).add false (a 0).negate)))

/-- R275: PXW records four registers of each lane of m0 that has a fragment for its target, in place of an earlier record of the lane for the
same target; a target without a colour format raises ILLEGAL. -/
def Claims.PixelWrites : Prop :=
  ∀ s c r t, Issues (.pxw r t) s c →
    ((∀ d, s.drawOf c.g = some d → d.cfmt t.toNat = 0) → exec (.pxw r t) s = .next (s.raise c (c.trap 0x01))) ∧
    ∀ d, s.drawOf c.g = some d → d.cfmt t.toNat ≠ 0 →
      ∃ (u : State) (v : Wave) (d' : Draw), exec (.pxw r t) s = .next u ∧ GoesOn (.pxw r t) s u c v ∧ u.drawOf c.g = some d' ∧ d' = { d with frags := d'.frags } ∧
        d'.frags.length = d.frags.length ∧
        ∀ (k : Nat) (f : Frag), d.frags[k]? = some f → ∃ f' : Frag, d'.frags[k]? = some f' ∧ f' = { f with writes := f'.writes } ∧
          f'.writes = if f.gid = c.g.gid ∧ f.wave = c.w.idx ∧ bitAt c.m0 f.lane = true ∧ f.helper = false
            then f.writes.filter (fun w => w.1 != t.toNat) ++ [(t.toNat, (List.range 4).map fun j => c.v (4 * r.toNat + j) f.lane)] else f.writes

/-- R276: PXK of no lane of m0 goes on; else those lanes exit, and of their fragments no record is left to blend. A path that keeps lanes
goes on with them; fragments of other lanes that have not exited stay. -/
def Claims.PixelKills : Prop :=
  ∀ s c k, Issues (.pxk k) s c → c.hnd = false →
    let ls := if k = 0 then c.m0 else c.m0 &&& c.mask k.toNat
    (ls = 0 → WritesScalars (.pxk k) s c []) ∧
    (ls ≠ 0 → ∃ t, exec (.pxk k) s = .next t ∧ (∀ v, t.wave? c.w.wid = some v → v.exited = c.w.exited ||| ls) ∧
      (∀ d, s.drawOf c.g = some d → c.m0 ≠ ls → ∃ d' : Draw, t.drawOf c.g = some d' ∧
        (∀ f ∈ d'.frags, f.gid = c.g.gid → f.wave = c.w.idx → bitAt ls f.lane = true → f.done = true ∧ f.writes = [] ∧ f.helper = false) ∧
        ∀ f ∈ d.frags, f.done = false → ¬ (f.gid = c.g.gid ∧ f.wave = c.w.idx ∧ bitAt ls f.lane = true) → f ∈ d'.frags) ∧
      (c.m0 ≠ ls → ∃ v, t.wave? c.w.wid = some v ∧ MovedPast (.pxk k) c v ∧ (v.ent c.ent).lmask = (c.w.ent c.ent).lmask &&& ~~~ls ∧
        v.vreg = c.w.vreg ∧ v.mask = c.w.mask ∧ v.banks.map (·.sreg) = c.w.banks.map (·.sreg) ∧ ∀ e, e ≠ c.ent → v.ent e = c.w.ent e))

end Sys2Proof

/-- Mesh output and pixels (R269 to R276, R349). -/
def Obligations.MeshAndPixels : Prop :=
  Claims.MeshCounts ∧ Claims.MeshVertices ∧ Claims.MeshPrimitives ∧ Claims.Interpolates ∧ Claims.PixelWrites ∧ Claims.PixelKills

/-! ## Work lists (R295 to R297) -/

namespace Sys2Proof

/-- The part has moved past `i`, which has written memory: none of its registers has changed, and no other entry of the table. -/
structure StoresAtIssue (i : Instr) (t : State) (c : Ctx) (v : Wave) : Prop where
  wave : t.wave? c.w.wid = some v
  moved : MovedPast i c v
  scalars : v.banks.map (·.sreg) = c.w.banks.map (·.sreg) ∧ v.handler.bank.sreg = c.w.handler.bank.sreg
  vectors : v.vreg = c.w.vreg ∧ v.mask = c.w.mask
  saved : v.handler.treg = c.w.handler.treg ∧ v.handler.ts = c.w.handler.ts
  entries : ∀ e, (c.hnd = true ∨ e ≠ c.ent) → v.ent e = c.w.ent e

/-- The place of a ring slot that may be written, or read (R206, R296). -/
def ringKey (s : State) (c : Ctx) (need : Need) (va : Nat) : Option Nat :=
  match s.probe c va 4 need false with
  | .ok x => some x.key
  | .error _ => none

/-- No part of the wave waits in a WQUI. -/
def NotInQuiet (w : Wave) : Prop := ∀ a ∈ w.aux, ∀ d, a.park ≠ .wqui d

/-- R295: WAPP. A lane without a list, or with the item 0xffffffff, raises LANE for every such lane. With room in every list that it names,
its items stand in consecutive slots from T in ascending lane order, and each T has gone on; without, it waits at issue. What waits in a
WQUI of the group then returns 0 (R297). -/
def Claims.ListAppends : Prop :=
  ∀ s c a x e, Acts (.wapp a x) .wappWaitEnd s c e →
    let item := fun l => c.v a.toNat l
    let ix := fun l => (c.v x.toNat l).toNat
    let lanes := (List.range 64).filter (bitAt c.m0)
    let bad := lanes.filter fun l => item l == 0xffffffff || (s.listAt c.g (ix l)).isNone
    let many := fun k => (lanes.filter fun l => ix l == k).length
    let room := ∀ k y, 0 < many k → s.listAt c.g k = some y → y.count + many k ≤ 2 ^ y.kcap
    let slot := fun (y : WorkList) (l : Nat) => y.rbase + 4 * ((y.tail.toNat + (lanes.filter fun j => decide (j < l) && ix j == ix l).length) % 2 ^ 32 % 2 ^ y.kcap)
    (e = .wapp a x → bad ≠ [] → exec e s = .next (s.raise c (c.trap 0x06 0 0 0 (laneMask bad)))) ∧
    (bad = [] → ¬ room → (e = .wapp a x → ∃ t, exec e s = .next t ∧ WaitsAtIssue (.wapp a x) s t c) ∧ (e ≠ .wapp a x → exec e s = .next s)) ∧
    (bad = [] → room → Quiet s c → s.poison = [] → DistinctWaves s → NotInQuiet c.w →
      ∀ key : Nat → Nat, (∀ l ∈ lanes, ∀ y, s.listAt c.g (ix l) = some y → ringKey s c .wr (slot y l) = some (key l)) →
      (∀ l ∈ lanes, (∀ j < 4, s.remoteBad (key l + j) = none) ∧ Plain s (key l) 4) →
      (∀ l ∈ lanes, ∀ j ∈ lanes, l ≠ j → key l + 4 ≤ key j ∨ key j + 4 ≤ key l) →
      ∃ t v, exec e s = .next t ∧ StoresAtIssue (.wapp a x) t c v ∧
        (∀ l ∈ lanes, readNat t (key l) 4 = (item l).toNat) ∧
        (∀ k, (∀ l ∈ lanes, k < key l ∨ key l + 4 ≤ k) → t.mem.get k = s.mem.get k) ∧
        (∀ k y, s.listAt c.g k = some y → t.listAt c.g k = some { y with tail := y.tail + BitVec.ofNat 32 (many k) }) ∧
        (lanes ≠ [] → (∀ y ∈ s.listsOf c.g, y.kcap < 32) → ∀ w n d, s.wave? w.wid = some w → w.gid = c.g.gid → w.wid ≠ c.w.wid →
          s.stopped w = false → n < 16 → (w.ent n).isPart = true → (w.ent n).st = 4 → (w.auxAt n).park = .wqui d →
          ∃ u, t.wave? w.wid = some u ∧ (u.ent n).st = 0 ∧ ∀ q b, bitAt (w.ent n).qmask q = true → u.banks[q]? = some b → b.sreg.get d.toNat = 0))

/-- R296: WTAKE gives the lanes of m0, in ascending order, the items from H on while there are items, and the others 0xffffffff; H goes on by
what was taken. An index beyond the lists raises PERM, with TMASK of active(P), which is the model's reading (log 20). That it reads the ring as it
issues is the model's choice (log 23). -/
def Claims.ListTakes : Prop :=
  ∀ s c d x l, Issues (.wtake d x l) s c →
    let lanes := (List.range 64).filter (bitAt c.m0)
    (s.listAt c.g (c.s x.toNat).toNat = none → exec (.wtake d x l) s = .next (s.raise c (c.trap 0x05 0 0 0 c.m0))) ∧
    ∀ y, s.listAt c.g (c.s x.toNat).toNat = some y → Quiet s c → DistinctWaves s → NotInQuiet c.w →
      let n := min lanes.length y.count
      ∀ key : Nat → Nat, (∀ k < n, ringKey s c .rd (y.rbase + 4 * ((y.head.toNat + k) % 2 ^ 32 % 2 ^ y.kcap)) = some (key k)) →
      (∀ k < n, ∀ j < 4, s.remoteBad (key k + j) = none) →
      ∃ t v u, exec (.wtake d x l) s = .next t ∧ t.wave? c.w.wid = some v ∧ v.pend = c.w.pend ++ [u] ∧ MovedPast (.wtake d x l) c v ∧
        RegFrame c { lessCoherence c.w v with pend := c.w.pend } (fun _ => False) (fun _ _ => False) (fun _ _ => False) ∧
        u.quads = c.q ∧ u.sres = [] ∧ u.win = (if l = 15 then none else some l.toNat) ∧
        u.vres = lanes.mapIdx (fun k ln => (64 * d.toNat + ln, if k < n then BitVec.ofNat 32 (readNat s (key k) 4) else 0xffffffff)) ∧
        t.listAt c.g (c.s x.toNat).toNat = some { y with head := y.head + BitVec.ofNat 32 n } ∧
        (0 < n → y.cohort = true → if c.hnd then v.handler.coherent = true else v.coherent = c.w.coherent ||| c.q) ∧ (∀ k, t.mem.get k = s.mem.get k)

/-- The wave is idle: it has exited, or a part of it waits in a WQUI and no trap stops it (R297, R371). -/
def idleWave (w : Wave) : Prop :=
  w.living = 0 ∨ (w.handler.run = false ∧ w.dead = false ∧ ∃ e < 16, ∃ d, (w.ent e).isPart = true ∧ (w.ent e).st = 4 ∧ (w.auxAt e).park = .wqui d)

/-- R297: WQUI returns 0 at once while a list of its scope holds items; it parks while another wave of the scope is not idle; it returns 1,
and so does every WQUI of its group, when every list is empty and every other wave of the scope is idle. -/
def Claims.Quiescence : Prop :=
  ∀ s c d, Issues (.wqui d) s c →
    (s.scopeEmpty c.g = false → WritesScalars (.wqui d) s c [(d.toNat, 0)]) ∧
    (s.scopeEmpty c.g = true → c.w.hasStub = false → c.w.records c.ent = [] → c.aux.dict = none → c.ent < c.w.aux.length → c.ent < 16 → DistinctWaves s →
      s.stopped c.w = false →
      ((∃ w ∈ s.waves, w.gid = c.g.gid ∧ w.wid ≠ c.w.wid ∧ ¬ idleWave w) →
        ∃ t v, exec (.wqui d) s = .next t ∧ t.wave? c.w.wid = some v ∧ v.ent c.ent = { c.w.ent c.ent with st := 4 } ∧ SameRegs c.w v ∧
          (∀ k, t.mem.get k = s.mem.get k) ∧ ∀ x, x ≠ c.w.wid → t.wave? x = s.wave? x) ∧
      ((∀ l, s.launch? c.g.lid = some l → l.lkind = 1 → l.placed = l.total ∧ ∀ g ∈ s.groups, g.lid = c.g.lid → g.state = .resident) →
        (∀ w ∈ s.waves, w.gid ∈ s.scopeGroups c.g → w.wid ≠ c.w.wid → idleWave w) →
        ∃ t, exec (.wqui d) s = .next t ∧ (∀ k, t.mem.get k = s.mem.get k) ∧
          (∃ v, t.wave? c.w.wid = some v ∧ (v.ent c.ent).st = 0 ∧ (v.ent c.ent).pc = c.pc + 1 ∧
            ∀ q b, bitAt c.q q = true → v.banks[q]? = some b → b.sreg.get d.toNat = 1) ∧
          ∀ w n r, s.wave? w.wid = some w → w.gid = c.g.gid → w.wid ≠ c.w.wid → s.stopped w = false → n < 16 → (w.ent n).isPart = true → (w.ent n).st = 4 →
            (w.auxAt n).park = .wqui r → ∃ u, t.wave? w.wid = some u ∧ (u.ent n).st = 0 ∧
              ∀ q b, bitAt (w.ent n).qmask q = true → u.banks[q]? = some b → b.sreg.get r.toNat = 1))

end Sys2Proof

/-- Work lists (R295 to R297). That WTAKE reads as it issues, and its TMASK, are the model's choices (logs 23 and 20). -/
def Obligations.WorkListResults : Prop := Claims.ListAppends ∧ Claims.ListTakes ∧ Claims.Quiescence

/-! ## Glaze (R277 to R284) -/

namespace Sys2Proof

/-- A GLZIN, GLZRD, GLZRES or GLZCLR. -/
def glazeOp : Instr → Prop
  | .glzin .. | .glzrd .. | .glzres .. | .glzclr .. => True
  | _ => False

/-- What waits for its turn: a GLZIN, GLZRD or GLZRES while an earlier lane of one of its pixels, a helper lane too, has not exited (R281, R353);
a GLZCLR in a group of a draw while a launch of its queue before the draw is not complete (R356). -/
def glazeWaits (s : State) (c : Ctx) : Instr → Prop
  | .glzclr .. => ∃ l, s.launch? c.g.lid = some l ∧ l.draw.isSome = true ∧ s.earlier l (fun _ => true) = true
  | _ => ∃ d, s.drawOf c.g = some d ∧ ∃ x ∈ s.glzLanes c, ∃ f ∈ d.frags.takeWhile fun f => !(f.gid == c.g.gid && f.wave == c.w.idx && f.lane == x.1),
      f.done = false ∧ f.x = x.2.x ∧ f.y = x.2.y

/-- R281, R353, R356: a glaze operation whose turn has not come waits at issue, and GLZIN_TURN_WAIT_END leaves it waiting. R281 says so of GLZIN: that
GLZRD and GLZRES wait in the same way, and for helper lanes too, is the model's choice (log 26). -/
def Claims.GlazeTurns : Prop :=
  (∀ i s c, glazeOp i → Issues i s c → glazeWaits s c i → ∃ t, exec i s = .next t ∧ WaitsAtIssue i s t c) ∧
  ∀ i s c, glazeOp i → s.ctx? c.who = some c → c.aux.blocked = some i → glazeWaits s c i → exec (.glzinTurnWaitEnd c.who) s = .next s

/-- Of `s`, nothing has changed in `u` but what the caches and slices hold and what they and the span links count (R314 to R326, R474, R488). -/
structure OnlyCaches (s u : State) : Prop where
  rest : u = { s with copies := u.copies, stale := u.stale, lines := u.lines, atoms := u.atoms, fresh := u.fresh, funcs := u.funcs, energy := u.energy }
  energy : u.energy = { s.energy with ecnt := u.energy.ecnt }
  funcs : ∀ f, u.func f = { s.func f with staged := (u.func f).staged }

/-- R282: GLZRD whose turn has come, and whose lanes can all read their lists, is pending with node v[I][l] of each lane's list in the image
of R277, or with +∞ and the count beyond its end; no list changes. -/
def Claims.GlazeReads : Prop :=
  ∀ s c d x l z e (f : Nat → GTarget × GList), Acts (.glzrd d x l z) .glzinTurnWaitEnd s c e → ¬ glazeWaits s c (.glzrd d x l z) → Quiet s c →
    (∀ y ∈ s.glzLanes c, Reads s (s.glzReadLane c z.toNat y.2 .rd).eval (f y.1)) →
    ∃ t v u, exec e s = .next t ∧ Pending (.glzrd d x l z) s t c l v u ∧ u.quads = c.q ∧ u.sres = [] ∧
      u.vres = (s.glzLanes c).flatMap fun y =>
        let ns := (f y.1).2.nodes
        let ws := match ns[(c.v x.toNat y.1).toNat]? with
          | some n => [n.depth, n.r + 2 ^ 16 * n.g, n.b + 2 ^ 16 * n.a, n.cov + 2 ^ 4 * n.flags + 2 ^ 8 * ns.length]
          | none => [0x7f800000, 0, 0, 2 ^ 8 * ns.length]
        ws.mapIdx fun k w => (64 * (4 * d.toNat + k) + y.1, BitVec.ofNat 32 w)

/-- The pool that a lane of GLZRES has to reach: none for a helper or an empty list. -/
def poolLook (s : State) (c : Ctx) (y : Nat × Frag) (g : GTarget) (ls : GList) : Except LFault (Option Pool) × List Spot :=
  (s.takePoolIf c.glzVia g (!y.2.helper && !ls.idx.isEmpty)).eval

/-- The colour and the transmittance that a front-to-back pass over channel values with their alphas leaves (R283). -/
def overAll : Nat → Nat → List (Nat × Nat) → Nat × Nat
  | col, tr, [] => (col, tr)
  | col, tr, (x, a) :: r =>
    overAll (f32add col (f32 ((f32v tr).mul (Fmt.b16.value x)))) (f32 ((f32v tr).mul (f32v (f32 (Fl.add false (.fin false 1 1) (Fmt.b16.value a).negate))))) r

/-- What insertion, merge and composite give (R278, R279, R280, R283), in the terms of the rules. A node goes behind all that are not deeper; a merge
takes the pair of smallest gap, of equal ones the farthest, and keeps the list's nodes in place; an empty list without a node drops the fragment. The
merged node keeps the front's depth, and each channel is rounded once. -/
def Claims.GlazeLists : Prop :=
  (∀ (l : GList) rule layers n,
    let p := (l.nodes.filter fun m => (f32v m.depth).lt (f32v n.depth) || (f32v m.depth).eq (f32v n.depth)).length
    let ns := l.nodes.take p ++ n :: l.nodes.drop p
    (∀ j, l.insert rule layers n (some j) = { l with idx := l.idx.take p ++ j :: l.idx.drop p, nodes := ns }) ∧
    (l.nodes = [] → l.insert rule layers n none = { l with dgr := true }) ∧
    (l.nodes ≠ [] → (∀ m ∈ ns, (f32v m.depth).isNan = false) → ∃ k f b, ns[k]? = some f ∧ ns[k + 1]? = some b ∧
      l.insert rule layers n none = { l with nodes := ns.take k ++ glzMerge rule f b :: ns.drop (k + 2), mrg := true,
                                             dgr := l.dgr || decide (l.nodes.length ≠ layers) } ∧
      ∀ j f' b', ns[j]? = some f' → ns[j + 1]? = some b' →
        (j < k → (glzGap f'.depth b'.depth).lt (glzGap f.depth b.depth) = false) ∧
        (k < j → (glzGap f.depth b.depth).lt (glzGap f'.depth b'.depth) = true))) ∧
  (∀ rule (f b : GNode),
    let x := glzMerge rule f b
    x.depth = f.depth ∧ x.cov = f.cov ||| b.cov ∧ x.flags = f.flags ||| 8 ∧
    (rule = 1 → [x.r, x.g, x.b, x.a] = [f.r, f.g, f.b, f.a]) ∧
    (rule = 2 → [x.r, x.g, x.b, x.a] = List.zipWith (fun u v => Fmt.b16.round .rne false false ((Fmt.b16.value u).add false (Fmt.b16.value v)))
      [f.r, f.g, f.b, f.a] [b.r, b.g, b.b, b.a]) ∧
    (rule = 0 → [x.r, x.g, x.b, x.a] = List.zipWith (fun u v => Fmt.b16.round .rne false false
      ((Fmt.b16.value u).add false ((Fl.add false (.fin false 1 1) (Fmt.b16.value f.a).negate).mul (Fmt.b16.value v))))
      [f.r, f.g, f.b, f.a] [b.r, b.g, b.b, b.a])) ∧
  ∀ (l : GList) (lo hi : Word),
    let out := fun (ch : GNode → Nat) (bg : Nat) =>
      let r := overAll 0 0x3f800000 (l.nodes.map fun n => (ch n, n.a))
      Fmt.b16.round .rne false false ((f32v r.1).add false ((f32v r.2).mul (Fmt.b16.value bg)))
    l.resolve lo hi =
      [BitVec.ofNat 32 (out GNode.g (lo.toNat / 2 ^ 16) * 65536 + out GNode.r (lo.toNat % 2 ^ 16)),
       BitVec.ofNat 32 (out GNode.a (hi.toNat / 2 ^ 16) * 65536 + out GNode.b (hi.toNat % 2 ^ 16))]

/-- What an allocation and a free do to a pool (R361): a node comes from FREEHEAD, whose NEXT follows it, else from FRESH while that is below the
capacity, else there is none; lists without a node leave the pool as it is, and their head words empty. -/
def Claims.GlazePools : Prop :=
  (∀ (s : State) v t (p : Pool),
    (∀ a bs, p.freeHead ≠ 0xffffff → p.freeHead < p.cap → (∀ ks, ∃ ks', s.takeNodeVa v t p.freeHead ks = (.ok a, ks')) →
      (∀ ks, ∃ ks', s.takeFor v .both a 16 ks = (.ok bs, ks')) →
      ∀ ks, ∃ ks', s.takeNode v t p ks = (.ok (some p.freeHead, { p with freeHead := ofBytes ((bs.drop 13).take 3), used := p.used + 1 }), ks')) ∧
    (∀ a bs, p.freeHead = 0xffffff ∨ p.cap ≤ p.freeHead → p.fresh < p.cap → (∀ ks, ∃ ks', s.takeNodeVa v t p.fresh ks = (.ok a, ks')) →
      (∀ ks, ∃ ks', s.takeFor v .both a 16 ks = (.ok bs, ks')) →
      ∀ ks, ∃ ks', s.takeNode v t p ks = (.ok (some p.fresh, { p with fresh := p.fresh + 1, used := p.used + 1 }), ks')) ∧
    (p.freeHead = 0xffffff ∨ p.cap ≤ p.freeHead → p.cap ≤ p.fresh → ∀ ks, s.takeNode v t p ks = (.ok (none, p), ks))) ∧
  (∀ (s : State) ctx core t p (ls : List GList), (∀ l ∈ ls, l.idx = []) →
    s.freeLists ctx core t p ls = ls.foldl (fun u l => u.glzPut ctx core l.va (toBytes 4 0xffffff00)) s) ∧
  ∀ (s : State) ctx core t p (l : GList) i n, l.idx = [i] → l.nodes = [n] →
    s.freeLists ctx core t p [l] =
      ((s.glzPut ctx core (s.nodeVa core ctx t i) (n.bytes p.freeHead)).glzPut ctx core l.va (toBytes 4 0xffffff00)).putPool ctx core t
        { p with freeHead := i, used := p.used + 2 ^ 25 - 1 } false

/-- R283: GLZRES whose turn has come, and whose lanes can reach their lists and the pool, is pending with each lane's composite over the
background in v[B] and v[B + 1]; the lists of its lanes that are no helpers and whose pixel lies in the target are empty and their nodes free,
and no other byte changes. -/
def Claims.GlazeResolves : Prop :=
  ∀ s c d b l z e (f : Nat → GTarget × GList) (p : Nat → Option Pool), Acts (.glzres d b l z) .glzinTurnWaitEnd s c e →
    ¬ glazeWaits s c (.glzres d b l z) → Quiet s c →
    (∀ y ∈ s.glzLanes c, Reads s (s.glzReadLane c z.toNat y.2 .both).eval (f y.1) ∧ Reads s (poolLook s c y (f y.1).1 (f y.1).2) (p y.1)) →
    let own := (s.glzLanes c).filter fun y => !y.2.helper && decide (y.2.x < (f y.1).1.w) && decide (y.2.y < (f y.1).1.h)
    ∃ t v u s1, OnlyCaches s s1 ∧ exec e s = .next t ∧ StoresAtIssue (.glzres d b l z) t c v ∧ v.pend = c.w.pend ++ [u] ∧ u.quads = c.q ∧ u.sres = [] ∧
      u.win = (if l = 15 then none else some l.toNat) ∧
      u.vres = ((s.glzLanes c).flatMap fun y =>
        ((f y.1).2.resolve (c.v (2 * b.toNat) y.1) (c.v (2 * b.toNat + 1) y.1)).mapIdx fun k w => (64 * (2 * d.toNat + k) + y.1, w)) ∧
      (own = [] → ∀ k, t.mem.get k = s.mem.get k) ∧
      (∀ y, own.head? = some y → ∀ k, t.mem.get k = (s1.freeLists c.g.ctx c.w.core (f y.1).1
        ((own.findSome? fun o => p o.1).getD { freeHead := 0xffffff, fresh := 0, npages := 0, used := 0 }) (own.map fun o => (f o.1).2)).mem.get k) ∧
      ∀ x, x ≠ c.w.wid → KeepsRegs s t x

/-- R278, R279: GLZIN whose turn has come, of lanes that can all reach their lists and for which the pool has a node each, inserts: the lists
with their new nodes, and the pool, are written, and no other byte changes.
That it acts at issue is a reading (log 26). -/
def Claims.GlazeInserts : Prop :=
  ∀ s c n z e (g : GTarget) (f : Nat → Option (GList × GNode)) al p, Acts (.glzin n z) .glzinTurnWaitEnd s c e →
    ¬ glazeWaits s c (.glzin n z) → Quiet s c → s.glzLanes c ≠ [] →
    (∀ y ∈ s.glzLanes c, Reads s (s.glzinLane c z.toNat (4 * n.toNat) y.2 y.1).eval (g, f y.1)) →
    let ins := (s.glzLanes c).filterMap fun y => (f y.1).map fun w => (y.1, w)
    let need := (ins.filter fun y => decide (y.2.1.nodes.length < g.layers)).map (·.1)
    s.glzSupply c.glzVia g need = (al, p) → (∀ y ∈ al, ∃ j, y.2 = .ok (some j)) →
    ∃ t v s1, OnlyCaches s s1 ∧ exec e s = .next t ∧ StoresAtIssue (.glzin n z) t c v ∧
      (∀ k, t.mem.get k =
        (let nodeOf := fun (l : Nat) => (al.find? fun y => y.1 == l).bind fun y => match y.2 with | .ok j => j | .error _ => none
         let u := ins.foldl (fun (u : State) y => u.putList c.g.ctx c.w.core g (y.2.1.insert g.rule g.layers y.2.2 (nodeOf y.1))) s1
         match p with | some q => (u.putPool c.g.ctx c.w.core g q false).mem.get k | none => u.mem.get k)) ∧
      ∀ x, x ≠ c.w.wid → KeepsRegs s t x

/-- R280: with too few nodes in the pool of a target under FAULT, GLZIN raises GLAZE_POOL_EMPTY before any lane inserts, with the lanes that
need a node in TMASK. -/
def Claims.GlazePoolFaults : Prop :=
  ∀ s c n z (g : GTarget) (f : Nat → Option (GList × GNode)) al p, Issues (.glzin n z) s c → ¬ glazeWaits s c (.glzin n z) →
    Quiet s c → s.glzLanes c ≠ [] →
    (∀ y ∈ s.glzLanes c, Reads s (s.glzinLane c z.toNat (4 * n.toNat) y.2 y.1).eval (g, f y.1)) →
    let ins := (s.glzLanes c).filterMap fun y => (f y.1).map fun w => (y.1, w)
    let need := (ins.filter fun y => decide (y.2.1.nodes.length < g.layers)).map (·.1)
    s.glzSupply c.glzVia g need = (al, p) → (∀ y ∈ al, ∃ j, y.2 = .ok j) → (∃ y ∈ al, y.2 = .ok none) → g.degrade = false →
    ∃ s1, OnlyCaches s s1 ∧ exec (.glzin n z) s = .next (s1.raise c (c.trap 0x0d 0 (BitVec.ofNat 32 z.toNat) (BitVec.ofNat 64 g.pctl) (laneMask need)))

/-- R284, R356: GLZCLR whose turn has come, and whose target, lists and pool can be reached, empties every list of its rectangle and frees their
nodes; no register and no other byte changes. -/
def Claims.GlazeClears : Prop :=
  ∀ s c r z e g ls p, Acts (.glzclr r z) .glzinTurnWaitEnd s c e → ¬ glazeWaits s c (.glzclr r z) → Quiet s c →
    let a := (c.s (2 * r.toNat)).toNat
    let b := (c.s (2 * r.toNat + 1)).toNat
    Reads s (s.takeTarget c.glzVia c.g z.toNat).eval g →
    Reads s (Rd.eval ((g.rect (a % 2 ^ 16) (a / 2 ^ 16 % 2 ^ 16) (b % 2 ^ 16) (b / 2 ^ 16 % 2 ^ 16)).mapM fun x => s.takeList c.glzVia g x.1 x.2 .both)) ls →
    Reads s (s.takePoolIf c.glzVia g (ls.any fun l => !l.idx.isEmpty)).eval p →
    ∃ t v s1, OnlyCaches s s1 ∧ exec e s = .next t ∧ StoresAtIssue (.glzclr r z) t c v ∧
      (∀ k, t.mem.get k = (s1.freeLists c.g.ctx c.w.core g (p.getD { freeHead := 0xffffff, fresh := 0, npages := 0, used := 0 }) ls).mem.get k) ∧
      ∀ x, x ≠ c.w.wid → KeepsRegs s t x

end Sys2Proof

/-- Glaze lists (R277 to R284, R361). That they act at issue, and which of them wait for their turn, are the model's choices (log 26). -/
def Obligations.GlazeResults : Prop :=
  Claims.GlazeLists ∧ Claims.GlazePools ∧ Claims.GlazeTurns ∧ Claims.GlazeReads ∧ Claims.GlazeResolves ∧ Claims.GlazeInserts ∧ Claims.GlazePoolFaults ∧ Claims.GlazeClears

/-! ## Events of waves (R25, R36, R41, R42, R44, R162, R175, R236 to R238, R322, R347) -/

namespace Sys2Proof

/-- Of wave `w` in `s`, only the entry `e` and what stands beside it have changed in `t`: the entry is now `x`. -/
def EntryBecomes (s t : State) (w : Wave) (e : Nat) (x : SplitEntry) : Prop :=
  OnlyWave s t w.wid ∧ ∃ v, t.wave? w.wid = some v ∧ v = { w with split := v.split, aux := v.aux } ∧ v.ent e = x ∧
    ∀ k, k ≠ e → v.ent k = w.ent k ∧ v.auxAt k = w.auxAt k

/-- R162, R175, R25, R42: the waits that run out. A SLEEP that has no clk left makes its part READY; a yield that has run down is over; a part
whose wait at a FUSE has lasted 2^FUSETO clk goes on alone after it. Before that the events do nothing. -/
def Claims.WaitsRunOut : Prop :=
  (∀ s w e, s.wave? w.wid = some w → (w.ent e).isPart = true → (w.ent e).st = 4 →
    ((w.auxAt e).park = .sleep 0 → ∃ t, exec (.sleepExpire w.wid e) s = .next t ∧ EntryBecomes s t w e { w.ent e with st := 0 }) ∧
    ((w.auxAt e).park ≠ .sleep 0 → exec (.sleepExpire w.wid e) s = .next s)) ∧
  (∀ s who c, s.ctx? who = some c →
    (c.aux.yield = 1 → ∃ t, exec (.yieldExpire who) s = .next t ∧ Leaves s t c (c.setAux c.w fun a => { a with yield := 0 })) ∧
    (c.aux.yield ≠ 1 → exec (.yieldExpire who) s = .next s)) ∧
  ∀ s w e, s.wave? w.wid = some w → (w.ent e).isPart = true → (w.ent e).st = 2 → s.instrAt w.core (w.ent e).pc = some .fuse →
    (2 ^ (w.fuseto.toNat % 32) ≤ (w.ent e).tcnt.toNat → ∃ t, exec (.fuseTimeout w.wid e) s = .next t ∧
      EntryBecomes s t w e { w.ent e with st := 0, pc := (w.ent e).pc + 1, tcnt := 0 }) ∧
    ((w.ent e).tcnt.toNat < 2 ^ (w.fuseto.toNat % 32) → exec (.fuseTimeout w.wid e) s = .next s)

/-- R41: JOIN_LAPSE, when a part has waited 2^FUSETO clk at its record: every part that waits there goes on after its JOIN, and the record is
LAPSED with no arrivals; no other entry and no register changes. -/
def Claims.JoinLapses : Prop :=
  ∀ s w e j, s.wave? w.wid = some w → (w.ent e).isPart = true → (w.ent e).st = 1 → 2 ^ (w.fuseto.toNat % 32) ≤ (w.ent e).tcnt.toNat →
    openAbove w e = some j → e < 16 →
    let waits := fun k => k < 16 ∧ (w.ent k).isPart = true ∧ (w.ent k).st = 1 ∧ openAbove w k = some j
    ∃ t v, exec (.joinLapse w.wid e) s = .next t ∧ t.wave? w.wid = some v ∧ SameRegs w v ∧
      v.ent j = { w.ent j with st := 1, arrq := 0 } ∧
      (∀ k, waits k → v.ent k = { w.ent k with st := 0, pc := (w.ent k).pc + 1, tcnt := 0 }) ∧
      (∀ k, k ≠ j → ¬ waits k → v.ent k = w.ent k) ∧
      (∀ k, t.mem.get k = s.mem.get k) ∧ ∀ x, x ≠ w.wid → t.wave? x = s.wave? x

/-- R44, R414: FORCED_FUSE_TIMEOUT raises WIDTH_UNMET in every FWAIT part of the fuse set, each at its own instruction with its own minimum
width in TINFO; the traps stand pending, or the handler has been entered for one of them. -/
def Claims.ForcedFusesTimeOut : Prop :=
  ∀ s w e n, s.wave? w.wid = some w → (w.ent e).isPart = true → s.forcedAt w e = some n → 2 ^ (w.fuseto.toNat % 32) ≤ (w.ent e).tcnt.toNat →
    w.aux.length = 16 → w.split.length = 16 →
    ∃ t v, exec (.forcedFuseTimeout w.wid e) s = .next t ∧ t.wave? w.wid = some v ∧ v.vreg = w.vreg ∧ v.mask = w.mask ∧
      v.banks.map (·.sreg) = w.banks.map (·.sreg) ∧
      ∀ k ∈ w.partsIn (fuseSet (w.ent e).qmask n), (w.ent k).st = 2 → v.ent k = { w.ent k with st := 0, tcnt := 0 } ∧
        ((v.auxAt k).trap = some { code := 0x08, tpc := (w.ent k).pc, info := BitVec.ofNat 32 ((s.forcedAt w k).getD w.width), look := w.lookAt k } ∨
          (v.handler.run = true ∧ v.handler.treg.tent = BitVec.ofNat 32 k ∧ v.handler.treg.tcause.toNat % 2 ^ 16 = 0x08 ∧
            v.handler.treg.tpc.toNat = (w.ent k).pc.toNat ∧ v.handler.treg.tinfo = BitVec.ofNat 32 ((s.forcedAt w k).getD w.width)))

/-- R36: MISS_SPLIT of a READY part without mask-path records that has stalled 32 clk at a load that is there for some of its quads: with
room for a split into two parts or more, the part's entry becomes an OPEN join record with JANY, and every lane of m0 stands in a new READY
part at the instruction, lanes with their data apart from lanes without. -/
def Claims.MissSplits : Prop :=
  ∀ s wid e c i p, s.ctx? ⟨wid, some e⟩ = some c → s.nextInstr c = some i → c.partial? i = some p →
    (c.w.ent e).st = 0 → bitAt c.w.splpol 2 = true → c.w.records e = [] → 32 ≤ c.aux.stall → c.w.entWf e = true → c.w.split.length = 16 →
    let ps := decompose (fun q => if bits c.m0 (4 * q) 4 = 0 then .idle else if bitAt p.quads q then .no else .yes) (runLog c.q) (lowQuad c.q)
    (2 ≤ ps.length → entriesNeeded ps ≤ c.w.freeEnts.length →
      ∃ t v, exec (.missSplit wid e) s = .next t ∧ t.wave? wid = some v ∧ (∀ a, t.mem.get a = s.mem.get a) ∧
        (∀ y, y ≠ wid → t.wave? y = s.wave? y) ∧ SameRegs c.w v ∧
        v.ent e = { c.w.ent e with kind := 2, st := 0, pc := c.pc, jpc := 0, jany := true, arrq := 0, tcnt := 0 } ∧
        (∀ k, k ≠ e → (c.w.ent k).kind ≠ 0 → v.ent k = c.w.ent k) ∧
        (∀ l, bitAt c.m0 l = true → ∃ k, (c.w.ent k).kind = 0 ∧ (v.ent k).isPart = true ∧ bitAt (v.ent k).lmask l = true) ∧
        ∀ k l, (c.w.ent k).kind = 0 → (v.ent k).kind ≠ 0 → bitAt (v.ent k).lmask l = true →
          bitAt c.m0 l = true ∧ (v.ent k).st = 0 ∧ (v.ent k).pc = c.pc ∧ (v.ent k).pv = true ∧ (v.ent k).parent = BitVec.ofNat 4 e ∧
          bitAt (v.ent k).qmask (l / 4) = true ∧
          ∀ l', bitAt (v.ent k).lmask l' = true → bitAt p.quads (l / 4) = bitAt p.quads (l' / 4)) ∧
    ((ps.length < 2 ∨ c.w.freeEnts.length < entriesNeeded ps) → exec (.missSplit wid e) s = .next s)

/-- R236, R238, R46: a parked MONW returns, by MONW_WAKE with the slots that were triggered, or a restore's return, unless its wave is stopped,
and by MONW_TIMEOUT with TMO when its timeout has run out: its status stands in every scalar copy of its part, which goes on, from entry I0 of
a DICT to I1 (R130); the parts that a MONW.G parked go on too (R237), unless their waves are stopped (R46).
That each parked part wakes is a reading (log 32). -/
def Claims.MonitorReturns : Prop :=
  ∀ s w e a n g, s.wave? w.wid = some w → w.monAt e = some (a, n, g) →
    (s.holdsTrig w = true ∨ ((w.auxAt e).fired = 0 ∧ w.rst = false) → exec (.monwWake w.wid e) s = .next s) ∧
    ∀ i tmo, (i = .monwWake w.wid e ∧ tmo = false ∧ s.holdsTrig w = false ∧ ((w.auxAt e).fired ≠ 0 ∨ w.rst = true)) ∨
        (i = .monwTimeout w.wid e ∧ tmo = true ∧ n = some 0) →
      ∃ t v, exec i s = .next t ∧ t.wave? w.wid = some v ∧ v.vreg = w.vreg ∧ v.mask = w.mask ∧ v.rst = false ∧ (v.ent e).st = 0 ∧
        ((w.auxAt e).half = false → (v.ent e).pc = (w.ent e).pc + 1) ∧ ((w.auxAt e).half = true → (v.ent e).pc = (w.ent e).pc) ∧
        (∀ q b, bitAt (w.ent e).qmask q = true → v.banks[q]? = some b → b.sreg.get a.toNat =
          BitVec.ofNat 32 ((w.auxAt e).fired.toNat + (if tmo then 2 ^ 8 else 0) +
            (if (List.range 4).any (fun k => bitAt (w.auxAt e).fired k && (w.mons[k]?).any fun m => m.fbk) then 2 ^ 9 else 0) +
            if w.rst then 2 ^ 10 else 0)) ∧
        (∀ k, t.mem.get k = s.mem.get k) ∧ (g = false → ∀ x, x ≠ w.wid → t.wave? x = s.wave? x) ∧
        (g = true → ∀ u k, s.wave? u.wid = some u → u.gid = w.gid → u.wid ≠ w.wid → s.stopped u = false → k < 16 → (u.ent k).isPart = true → (u.ent k).st = 4 →
          (u.auxAt k).park = .frozen w.wid → ∃ z, t.wave? u.wid = some z ∧ z.ent k = { u.ent k with st := 0 } ∧ SameRegs u z)

/-- R238: FALLBACK_WINDOW_END delivers the trigger that a fallback slot holds once 65,536 clk have passed since its last return. -/
def Claims.FallbackWindows : Prop :=
  ∀ s w n m, s.wave? w.wid = some w → w.mons[n]? = some m →
    ∃ t v, exec (.fallbackWindowEnd w.wid n) s = .next t ∧ OnlyWave s t w.wid ∧ t.wave? w.wid = some v ∧ SameRegs w v ∧ v.split = w.split ∧
      (∀ k, k ≠ n → v.mons[k]? = w.mons[k]?) ∧
      (∀ x, m.last = some x → m.held = true → x + 65536 ≤ (s.core w.core).clk.toNat → v.mons[n]? = some { m with held := false, trig := true }) ∧
      (m.held = false ∨ (∀ x, m.last = some x → (s.core w.core).clk.toNat < x + 65536) → v.mons[n]? = some m)

/-- R319, R322: LINE_MIGRATION of a line that no pinned page holds, on its eighth request in a row from another panel, moves it to a slice of that
panel; no byte of memory and no wave changes, and before that it does nothing. -/
def Claims.LinesMigrate : Prop :=
  ∀ s line r, (s.lines.find? fun x => x.line == line) = some r →
    (8 ≤ r.run → r.pinned = false → r.panel ≠ r.slice / 16 → ∃ t x, exec (.lineMigration line) s = .next t ∧ OnlyCaches s t ∧ x ∈ t.lines ∧
      x.line = line ∧ x.slice / 16 = r.panel ∧ x.run = 0 ∧ x.tag = r.tag ∧ x.dirty = r.dirty ∧ ∀ y ∈ t.lines, y.line = line → y = x) ∧
    (r.run < 8 ∨ r.pinned = true ∨ r.panel = r.slice / 16 → exec (.lineMigration line) s = .next s)

end Sys2Proof

/-- What time and completion bring to waves and lines (R25, R36, R41, R42, R44, R162, R175, R236 to R238, R322). -/
def Obligations.WaveEvents : Prop :=
  Claims.WaitsRunOut ∧ Claims.JoinLapses ∧ Claims.ForcedFusesTimeOut ∧ Claims.MissSplits ∧ Claims.MonitorReturns ∧ Claims.FallbackWindows ∧
    Claims.LinesMigrate

/-! ## Queues, launches and kernel loads (R388 to R403, R406) -/

namespace Sys2Proof

/-- Every wave keeps its registers and its split table. -/
def KeepsWaves (s t : State) : Prop := ∀ x, KeepsRegs s t x

/-- No byte of a span that a device access can reach lies where a request is not served (R444). -/
def Served (s : State) (ctx va n : Nat) : Prop :=
  ∀ i < n, (match s.reach none ctx (va + i) .rd false with | .ok x => (s.remoteBad x.key).isNone | .error _ => true) = true

/-- A vector of a function has been signalled: sent when its entry of the MSI-X table is not masked, pending otherwise (R485).
The mask bit, which is kept inverted, is the model's reading of the table (log 50). -/
def Signalled (s t : State) (func vec : Nat) : Prop :=
  let mask := bitAt ((s.func func).msix.get (2 * vec + 1)) 32
  (mask = true → (func, vec) ∈ t.msi) ∧ (mask = false → func < s.funcs.length → bitAt ((t.func func).pba.get (vec / 64)) (vec % 64) = true)

/-- R391, R392: DOORBELL by the function of an enabled queue writes TAIL when at most 2^KSZ records are then offered, sets ERR too when the
entry is not valid, and stops the queue with ERR otherwise; a queue that is not enabled, or is another function's, ignores it.
That TAIL is written and ERR set as the doorbell finds an entry that is not valid is the model's choice (logs 27 and 44). -/
def Claims.Doorbells : Prop :=
  ∀ s func q (x : Word), s.isReady = true → s.hostOk func = true → q < 32768 → s.poison = [] →
    let va := s.qtbase.toNat + 32 * q
    let w := fun (u : State) (k : Nat) => readNat u (va + 8 * k) 8
    let mine := (w s 2).testBit 0 = true ∧ w s 2 / 2 ^ 10 % 64 = func
    let fits := (x - BitVec.ofNat 32 (w s 1 / 2 ^ 32)).toNat ≤ 2 ^ (w s 0 / 2 ^ 57 % 32)
    (¬ mine → exec (.doorbell func q x) s = .next s) ∧
    (mine → fits → ∃ t, exec (.doorbell func q x) s = .next t ∧ readNat t (va + 8) 4 = x.toNat ∧ KeepsWaves s t ∧
      (s.queueOk q = true → ∀ k, (k < va + 8 ∨ va + 12 ≤ k) → t.mem.get k = s.mem.get k) ∧
      (s.queueOk q = false → w t 2 = w s 2 / 4 * 4 + 3 ∧
        ∀ k, (k < va + 8 ∨ (va + 12 ≤ k ∧ k < va + 16) ∨ va + 24 ≤ k) → t.mem.get k = s.mem.get k)) ∧
    (mine → ¬ fits → ∃ t, exec (.doorbell func q x) s = .next t ∧ w t 2 = w s 2 / 4 * 4 + 2 ∧ KeepsWaves s t ∧
      ∀ k, (k < va + 16 ∨ va + 24 ≤ k) → t.mem.get k = s.mem.get k)

/-- R399: the arbiter serves a live and eligible queue of the highest priority among those. -/
def Claims.ArbiterServesHighest : Prop :=
  ∀ (s : State) q a, s.arbitrate = some (q, a) → q ∈ s.liveQueues ∧ s.eligible q = true ∧
    ∀ k ∈ s.liveQueues, s.eligible k = true → field (s.queueWord k 2) 2 3 ≤ field (s.queueWord q 2) 2 3

/-- A record that is taken as it is: valid, of a grid, a cohort or a management kind, without a draw block, of at least one group, its kernel
held by some core (R394, R406). -/
def plainRecord (s : State) (ctx : Nat) (ws : List DWord) : Prop :=
  recordBad (wordAt ws) = [] ∧ (wordAt ws 0).toNat / 2 ^ 60 ≠ 2 ∧ wordAt ws 11 = 0 ∧ 0 < (wordAt ws 0).toNat % 2 ^ 21 ∧
    s.hasKernels { lid := 0, words := ws, ctx } = true

/-- R394, R399: ARBITER_DECISION takes the head record of the queue it serves: HEAD goes on by one, and a valid record stands among the taken
ones with the queue's function, context, vector and priority; one with an invalid word is not kept. Without an eligible queue, or while an
event queue may launch (R403), nothing happens, but that an enabled entry that is not valid gets ERR (R389).
That the arbiter's decision sets this ERR, and when a function's turn ends, is the model's choice (log 44). -/
def Claims.RecordsTaken : Prop :=
  (∀ s, s.isReady = true → s.badQueues = [] → (s.arbitrate = none ∨ ∃ e < 16, s.eventReady e = true) → exec .arbiterDecision s = .next s) ∧
  (∀ s q, s.isReady = true → s.badQueues = [q] → s.poison = [] → (∃ e < 16, s.flagQueues.eventReady e = true) →
    let va := s.qtbase.toNat + 32 * q + 16
    ∃ t, exec .arbiterDecision s = .next t ∧ readNat t va 8 = readNat s va 8 / 4 * 4 + 3 ∧ KeepsWaves s t ∧
      ∀ k, (k < va ∨ va + 8 ≤ k) → t.mem.get k = s.mem.get k) ∧
  ∀ s q a ws, s.isReady = true → s.badQueues = [] → (∀ e < 16, s.eventReady e = false) → s.arbitrate = some (q, a) → s.headRecord q = some ws →
    s.poison = [] →
    let w := fun k => s.queueWord q k
    let ctx := (w 3).toNat % 2 ^ 16
    Served s ctx (qBase (w 0) + 128 * ((w 1).toNat / 2 ^ 32 % 2 ^ qKsz (w 0))) 128 →
    (plainRecord s ctx ws → ∃ t l, exec .arbiterDecision s = .next t ∧ t.taken = s.taken ++ [l] ∧ t.arb = ({ t with arb := a } : State).endTurns.arb ∧
      l.words = ws ∧ l.queue = q ∧ l.func = (w 2).toNat / 2 ^ 10 % 64 ∧ l.ctx = ctx ∧ l.vec = (w 2).toNat / 2 ^ 16 % 2 ^ 11 ∧
      l.pri = (w 2).toNat / 4 % 8 ∧ l.seq = BitVec.ofNat 32 ((w 1).toNat / 2 ^ 32) ∧ l.total = (wordAt ws 0).toNat % 2 ^ 21 ∧ l.placed = 0 ∧
      l.retired = 0 ∧ l.draw = none ∧ l.event = none ∧
      readNat t (s.qtbase.toNat + 32 * q + 12) 4 = ((w 1).toNat / 2 ^ 32 + 1) % 2 ^ 32 ∧
      (∀ k, (k < s.qtbase.toNat + 32 * q + 12 ∨ s.qtbase.toNat + 32 * q + 16 ≤ k) → t.mem.get k = s.mem.get k) ∧ KeepsWaves s t) ∧
    (recordBad (wordAt ws) ≠ [] → (∀ l ∈ s.taken, l.lid ≠ s.nextId) → ∃ t, exec .arbiterDecision s = .next t ∧ t.taken = s.taken ∧
      t.arb = ({ t with arb := a } : State).endTurns.arb)

/-- R402, R403: MANAGEMENT_LAUNCH of an event queue that may launch removes its oldest payload and takes the record at MREC in the entry's
context, which it keeps busy; of another it does nothing. -/
def Claims.ManagementLaunches : Prop :=
  ∀ s e, (s.eventReady e = false → exec (.managementLaunch e) s = .next s) ∧
    ∀ x rest, s.eventReady e = true → s.events[e]? = some (x :: rest) → e < s.evbusy.length →
      let w := readNat s (s.qtbase.toNat + 0x100200 + 16 * e) 8
      let ws := (List.range 16).map fun k => BitVec.ofNat 64 (readNat s (w % 2 ^ 45 + 8 * k) 8)
      ∃ t, exec (.managementLaunch e) s = .next t ∧ t.events[e]? = some rest ∧
        (plainRecord s (w / 2 ^ 45 % 2 ^ 16) ws → ∃ l, t.taken = s.taken ++ [l] ∧ l.words = ws ∧ l.ctx = w / 2 ^ 45 % 2 ^ 16 ∧ l.payload = x ∧
          l.event = some e ∧ l.pri = 8 ∧ t.evbusy[e]? = some (some l.lid) ∧ (∀ k, t.mem.get k = s.mem.get k) ∧ t.waves = s.waves)

/-- Nothing that a kernel load reads lies where a request is not served (R444). -/
def LoadServed (s : State) (ctx va : Nat) (w : Nat → DWord) : Prop :=
  Served s ctx va 64 ∧ (loadInvalid w = false → (w 0).toNat / 2 ^ 48 ≠ 0 →
    Served s ctx ((w 6).toNat % 2 ^ 57) (4096 * (maskSlots (w 2) (w 3)).length) ∧ Served s ctx ((w 7).toNat % 2 ^ 57) 4096)

/-- R393: KERNEL_LOAD by a write to KLOAD of a ready module whose function has no load under way. Without GO the address alone is stored; an
unreadable or invalid record ends with STATUS 1, a conflict with STATUS 2; a valid load is BUSY, its resident slots LOADING with the words of
the image, its overlay slots EMPTY, both owned by the kernel slot. While a load is under way a write changes the address alone.
Cases that the rule leaves out are readings (log 27). -/
def Claims.KernelLoads : Prop :=
  (∀ s func (v : DWord), s.isReady = true → s.hostOk func = true → bitAt (s.func func).kload 62 = true → func < s.funcs.length →
    ∃ t, exec (.kernelLoad func v) s = .next t ∧ t = { s with funcs := t.funcs } ∧ (∀ f, f ≠ func → t.func f = s.func f) ∧
      t.func func = { s.func func with kload := BitVec.ofNat 64 (2 ^ 62 + 2 ^ 60 * ((s.func func).kload.toNat / 2 ^ 60 % 4) + v.toNat % 2 ^ 57) }) ∧
  ∀ s func (v : DWord), s.isReady = true → s.hostOk func = true → bitAt (s.func func).kload 62 = false → func < s.funcs.length →
    let va := v.toNat % 2 ^ 57
    let ctx := (s.func func).klctx.toNat % 2 ^ 16
    let word := fun (busy status : Nat) => BitVec.ofNat 64 (2 ^ 62 * busy + 2 ^ 60 * status + va)
    let fin := fun (busy status : Nat) => ∃ t, exec (.kernelLoad func v) s = .next t ∧ t = { s with funcs := t.funcs } ∧
      t.func func = { s.func func with kload := word busy status } ∧ ∀ f, f ≠ func → t.func f = s.func f
    (bitAt v 63 = false → fin 0 ((s.func func).kload.toNat / 2 ^ 60 % 4)) ∧
    (bitAt v 63 = true → va % 64 ≠ 0 ∨ s.ctxOk ctx func = false → fin 0 1) ∧
    (∀ e, bitAt v 63 = true → s.devWords ctx va 8 = .error e → fin 0 1) ∧
    ∀ ws, bitAt v 63 = true → va % 64 = 0 → s.ctxOk ctx func = true → s.devWords ctx va 8 = .ok ws → LoadServed s ctx va (wordAt ws) →
      let w := wordAt ws
      let k := (w 0).toNat % 8
      (loadInvalid w = true → fin 0 1) ∧
      (loadInvalid w = false → (∀ c ∈ loadCores w, s.loadConflict w c = false) →
        (w 0).toNat / 2 ^ 48 = 0 ∨ (∃ e, s.loadImages ctx w = .error e) →
        ∃ t, exec (.kernelLoad func v) s = .next t ∧ (t.func func).kload = word 1 0 ∧
          (t.func func).kl = some (ws, if (w 0).toNat / 2 ^ 48 = 0 then 0 else 3) ∧ (t.func func).klat = ctx ∧ t.mem = s.mem ∧ t.waves = s.waves ∧
          (∀ c, c ∉ loadCores w → t.core c = s.core c) ∧
          ∀ c ∈ loadCores w, ∀ i, (t.core c).slot i = if ((s.core c).slot i).owner = some k then {} else (s.core c).slot i) ∧
      (loadInvalid w = false → (∃ c ∈ loadCores w, s.loadConflict w c = true) → fin 0 2) ∧
      (∀ code dict, loadInvalid w = false → (∀ c ∈ loadCores w, s.loadConflict w c = false) → (w 0).toNat / 2 ^ 48 ≠ 0 →
        s.loadImages ctx w = .ok (code, dict) → (∀ x ∈ s.cores, x.slots.length = 128) → s.cores.length = 64 →
        ∃ t, exec (.kernelLoad func v) s = .next t ∧ (t.func func).kload = word 1 0 ∧ (t.func func).kl = some (ws, 0) ∧ (t.func func).klat = ctx ∧ t.mem = s.mem ∧
          t.waves = s.waves ∧ (∀ c, c ∉ loadCores w → t.core c = s.core c) ∧
          ∀ c ∈ loadCores w, (∀ j i, (maskSlots (w 2) (w 3))[j]? = some i →
              (t.core c).slot i = { st := .loading, resident := true, owner := some k, src := some ((w 6).toNat % 2 ^ 57 + 4096 * j) } ∧
              ∀ x < 1024, (t.core c).imem.get (1024 * i + x) = BitVec.ofNat 32 (ofBytes ((code.drop (4096 * j + 4 * x)).take 4))) ∧
            ∀ i ∈ maskSlots (w 4) (w 5), (t.core c).slot i = { owner := some k })

/-- R393: KERNEL_LOAD_DONE ends a load: BUSY falls with its STATUS; of a load that succeeded the resident slots are LANDED, and the cores'
kernel slot holds the kernel for the context that KLCTX named at its GO. -/
def Claims.KernelLoadsEnd : Prop :=
  ∀ s func ws st, func < s.funcs.length → s.cores.length = 64 → (s.func func).kl = some (ws, st) →
    let w := wordAt ws
    let k := (w 0).toNat % 8
    let kid := (w 0).toNat / 2 ^ 48
    ∃ t, exec (.kernelLoadDone func) s = .next t ∧ (t.func func).kl = none ∧ t.mem = s.mem ∧ t.waves = s.waves ∧
      (t.func func).kload = BitVec.ofNat 64 (2 ^ 60 * st + (s.func func).kload.toNat % 2 ^ 57) ∧
      (∀ c, (c ∉ loadCores w ∨ st ≠ 0 ∨ kid = 0) → t.core c = s.core c) ∧
      ∀ c ∈ loadCores w, st = 0 → kid ≠ 0 →
        (∀ i, ((s.core c).slot i).owner = some k → ((s.core c).slot i).resident = true → ((t.core c).slot i).st = .landed) ∧
        (∀ i, ((s.core c).slot i).owner ≠ some k → (t.core c).slot i = (s.core c).slot i) ∧
        (k < (s.core c).kslots.length → (t.core c).kslots[k]? = some (some ⟨BitVec.ofNat 16 kid, (s.func func).klat⟩))

end Sys2Proof

/-- Queues, launch records and kernel loads (R388 to R403, R406).
Which event a step brings is a free choice of the model (log 2). When ERR of an entry that is not valid is set, at the doorbell with TAIL written and at
the arbiter's decision, is its choice too (logs 27 and 44), and so is what a load does in cases that the rules leave out (log 27). -/
def Obligations.LaunchRecords : Prop :=
  Claims.Doorbells ∧ Claims.ArbiterServesHighest ∧ Claims.RecordsTaken ∧ Claims.ManagementLaunches ∧ Claims.KernelLoads ∧ Claims.KernelLoadsEnd

/-! ## Groups and draws (R160, R348 to R354, R404 to R407, R410) -/

namespace Sys2Proof

/-- The device's own identifiers: those of waves, of groups with the pixel groups that wait, and of launches are distinct and were all handed
out; every wave, and every wave that a saved group keeps, belongs to a group. -/
def Ids (s : State) : Prop :=
  let ws := s.waves ++ s.groups.flatMap (·.kept)
  let ps := s.groups.map (·.gid) ++ s.taken.flatMap fun l => match l.draw with | some d => d.wait.map (·.gid) | none => []
  (ws.map (·.wid)).Nodup ∧ ps.Nodup ∧ (s.taken.map (·.lid)).Nodup ∧
    (∀ w ∈ ws, w.wid < s.nextId) ∧ (∀ k ∈ ps, k < s.nextId) ∧ (∀ l ∈ s.taken, l.lid < s.nextId) ∧
    (∀ w ∈ s.waves, ∃ g ∈ s.groups, g.gid = w.gid) ∧ ∀ g ∈ s.groups, ∀ w ∈ g.kept, w.gid = g.gid

/-- R404, R405, R16, R19: a place that is found has what the group asks for, free: wave slots, aligned quad positions with at most 1,024
registers each, palette, canvases; no core with room holds fewer waves. -/
def Claims.SeatsHaveRoom : Prop :=
  ∀ (s : State) ctx group acs (k : Kernel) (n : Need1) (ws : List (Nat × Nat)) (cores : List Nat) (seat : Seat), s.bestSeat ctx group acs k n ws cores = some seat →
    let nq := k.width / 4
    seat.core ∈ cores ∧ s.accepts seat.core = true ∧ (s.core seat.core).holds k ctx = true ∧ seat.waves.length = ws.length ∧
    (∀ c x, c ∈ cores → s.seat c ctx group acs k n ws = some x → (s.occ seat.core).length ≤ (s.occ c).length) ∧
    (∀ (i : Nat) (o : Occ), seat.waves[i]? = some o → o.part < 8 ∧ o.slot < 16 ∧ o.nq = nq ∧ o.qbase % nq = 0 ∧ o.qbase + nq ≤ 16 ∧
      (∀ x ∈ s.occ seat.core, x.part = o.part → x.slot ≠ o.slot) ∧
      (∀ (j : Nat) (x : Occ), j ≠ i → seat.waves[j]? = some x → x.part = o.part → x.slot ≠ o.slot) ∧
      (∀ (w : Nat × Nat), ws[i]? = some w → o.budget = w.2) ∧
      ∀ q, o.qbase ≤ q → q < o.qbase + nq → loadAt (s.occ seat.core ++ seat.waves) o.part q ≤ 1024) ∧
    (0 < n.pal → seat.pbase + n.pal ≤ 2 ^ 20 ∧ (∀ b, n.fixed = some b → seat.pbase = b) ∧
      ∀ g ∈ s.residents seat.core, 0 < g.psize → seat.pbase + n.pal ≤ g.pbase ∨ g.pbase + g.psize ≤ seat.pbase) ∧
    seat.cans.length = n.can ∧ seat.cans.Nodup ∧ (∀ c ∈ seat.cans, c < 64 ∧ ∀ g ∈ s.residents seat.core, c ∉ g.cans)

/-- The groups that a launch places next, one at a time (R348, R349, R397, R405): kind, GROUP, launch arguments. -/
def nextGroup (l : Launch) : Option (GroupKind × Nat × List Word) :=
  let own := if l.lkind = 3 then [l.payload, BitVec.ofNat 32 (l.event.getD 0)] ++ l.args.drop 2 else l.args
  match l.draw with
  | none => if l.lkind ≠ 1 ∧ l.placed < l.total then some (.compute, l.placed, own) else none
  | some d => match d.phase with
    | .amp => if l.placed < l.total then some (.compute, l.placed, own) else none
    | .raster => none
    | _ => d.todo.head?.map fun g =>
        let pay := (d.dword 4).toNat % 2 ^ 57 + 64 + 64 * g
        (.mesh, g, if d.amplifies then [BitVec.ofNat 32 pay, BitVec.ofNat 32 (pay / 2 ^ 32)] ++ l.args.drop 2 else l.args)

/-- A group of a launch begins at a seat (R29, R396, R404, R409): its waves stand at their roles' entries with the arguments in s2 up, every
other register 0, the handler's s0:s1 at the wave's vector area of the save image. -/
def Begins (s t : State) (l : Launch) (k : Kernel) (seat : Seat) (image : Nat) (group : Word) (args : List Word) (g : Group) : Prop :=
  ∃ ws, t.groups = s.groups ++ [g] ∧ t.waves = s.waves ++ ws ∧ t.mem = s.mem ∧ g.lid = l.lid ∧ g.group = group ∧ g.ctx = l.ctx ∧
    g.core = seat.core ∧ g.kslot = k.slot ∧ g.state = .resident ∧ g.image = image ∧ g.pbase = seat.pbase ∧ g.psize = (needOf (l.word 1)).pal ∧
    g.cans = seat.cans ∧ g.tiles.length = (needOf (l.word 1)).acs ∧ g.bars = List.replicate (needOf (l.word 1)).bars {} ∧
    g.waves = k.waves.length ∧ ws.length = k.waves.length ∧
    ∀ i w, ws[i]? = some w → ∃ o x, seat.waves[i]? = some o ∧ k.waves[i]? = some x ∧ w.gid = g.gid ∧ w.idx = i ∧ w.width = k.width ∧
      w.core = seat.core ∧ w.part = o.part ∧ w.slot = o.slot ∧ w.qbase = o.qbase ∧ w.budget = o.budget ∧ w.exited = 0 ∧
      (w.ent 0).kind = 1 ∧ (w.ent 0).st = 0 ∧ (w.ent 0).pc = x.2 ∧ (w.ent 0).lmask = BitVec.ofNat 64 (2 ^ k.width - 1) ∧
      w.launched = BitVec.ofNat 64 (2 ^ k.width - 1) ∧ w.vreg = [] ∧ w.mask = [] ∧ (∀ e, 0 < e → w.ent e = {}) ∧
      w.fuseto = BitVec.ofNat 32 ((l.word 0).toNat / 2 ^ 48 % 32) ∧ w.splpol = BitVec.ofNat 32 ((l.word 0).toNat / 2 ^ 44 % 16) ∧
      w.banks.length = k.width / 4 ∧
      (∀ b ∈ w.banks, b.qtc = 0 ∧ b.rgn = [] ∧ b.sca = 0x3f800000 ∧ b.scb = 0x3f800000 ∧
        ∀ r, b.sreg.get r = if 2 ≤ r then (args[r - 2]?).getD 0 else 0) ∧
      (let va := s.imageVa l.ctx image + 0x42000 + 32768 * i
       w.handler.bank.sreg.get 0 = BitVec.ofNat 32 va ∧ w.handler.bank.sreg.get 1 = BitVec.ofNat 32 (va / 2 ^ 32) ∧ w.handler.run = false)

/-- Nothing of a launch's work-list table lies where a request is not served (R444). -/
def ListsServed (s : State) (l : Launch) : Prop :=
  ∀ fresh, Served { s with fresh } l.ctx ((l.word 9).toNat % 2 ^ 57) (16 * ((l.word 0).toNat / 2 ^ 32 % 2 ^ 9))

/-- R404, R405, R369: GROUP_PLACEMENT places the next group of a launch where a core has room (and here without first spilling another context's
tiles), with its work lists; with an invalid table, which is read when there is room (R368), the launch ends with status 0x02; without room, or
before its turn, nothing happens. That a table which cannot be read is an invalid one is the model's choice (log 27). -/
def Claims.GroupsPlaced : Prop :=
  ∀ (s : State) lid l kind n args, s.launch? lid = some l → nextGroup l = some (kind, n, args) → Ids s →
    let need := needOf (l.word 1)
    let room := s.bestSeat l.ctx n need.acs l.kernel need l.kernel.budgets coreIdx
    (s.mayPlace l = false ∨ s.freeImage l.ctx = none ∨ room = none → exec (.groupPlacement lid) s = .next s) ∧
    (s.mayPlace l = true → s.freeImage l.ctx ≠ none → room ≠ none → s.readLists l 0 false = none → ∃ t, exec (.groupPlacement lid) s = .next t ∧ KeepsWaves s t ∧ t.groups = s.groups ∧
      ((l.placed = l.retired + l.aborted ∧ t.launch? lid = none) ∨ (l.placed ≠ l.retired + l.aborted ∧ ∃ l', t.launch? lid = some l' ∧ l'.status = 2 ∧
        l'.total = l.placed ∧ nextGroup l' = none))) ∧
    ∀ ls image seat, s.mayPlace l = true → ListsServed s l → s.readLists l 0 false = some ls → s.freeImage l.ctx = some image → room = some seat → seat.spills = [] →
      ∃ t g l', exec (.groupPlacement lid) s = .next t ∧ Begins s t l l.kernel seat image (BitVec.ofNat 32 n) args g ∧ g.kind = kind ∧
        g.cohort = 0xffffffff ∧ t.launch? lid = some l' ∧ l'.placed = l.placed + 1 ∧ t.lists = s.lists ++ ls.map (fun x => { x with scope := g.gid }) ∧
        (kind = .mesh → g.index = n ∧ ∀ d, l.draw = some d → ∃ d', l'.draw = some d' ∧ d'.todo = d.todo.filter (· ≠ n) ∧
          (d.phase = .position → g.mesh = {}))

/-- R352, R353: GROUP_PLACEMENT of a pixel group: its waves start with the pixel, weights, depth, primitive index and coverage of their lanes in
v0 to v5, and the lanes with a fragment in m1. A tile keeps its core while the core is in service. -/
def Claims.PixelGroupsPlaced : Prop :=
  ∀ (s : State) lid l d p rest ls image seat, s.launch? lid = some l → l.draw = some d → d.phase = .raster → d.wait = p :: rest → Ids s →
    s.mayPlace l = true → ListsServed s l → s.readLists l 0 false = some ls → s.freeImage l.ctx = some image → seat.spills = [] →
    let same := ((d.home.filter fun x => x.1 == p.tile).map (·.2)).filter fun c => !s.spares.offline.contains c
    let k0 := blockKernel (d.dword 2)
    let k := { k0 with waves := k0.waves.take p.waves }
    let need := needOf (l.word 1)
    let mine := d.frags.filter fun f => f.gid == p.gid
    s.bestSeat l.ctx (Config.pick s.fresh p.gid % 2 ^ 32) need.acs k need k.budgets (if same.isEmpty then coreIdx else same.take 1) = some seat →
    (∀ f ∈ mine, f.lane < 64 ∧ ∀ f' ∈ mine, f'.wave = f.wave → f'.lane = f.lane → f' = f) →
    ∃ t g l' ws, exec (.groupPlacement lid) s = .next t ∧ t.groups = s.groups ++ [g] ∧ t.waves = s.waves ++ ws ∧ ws.length = k.waves.length ∧
      t.mem = s.mem ∧ g.gid = p.gid ∧ g.kind = .pixel ∧ g.lid = lid ∧ g.ctx = l.ctx ∧ g.index = p.tile ∧ g.core = seat.core ∧
      t.launch? lid = some l' ∧ l'.placed = l.placed + 1 ∧ l'.draw = some { d with wait := rest, home := (p.tile, seat.core) :: d.home.filter fun x => x.1 != p.tile } ∧
      ∀ i w, ws[i]? = some w → w.gid = p.gid ∧ w.idx = i ∧ w.core = seat.core ∧
        (∀ r, 2 ≤ r → r < 10 → ∀ b ∈ w.banks, b.sreg.get r = (l.args[r - 2]?).getD 0) ∧
        (∀ ln < 64, bitAt w.launched ln = true ↔ ∃ f ∈ mine, f.wave = i ∧ f.lane = ln) ∧
        ∀ f ∈ mine, f.wave = i → bitAt (w.mask.get 1) f.lane = !f.helper ∧
          w.vreg.get f.lane = BitVec.ofNat 32 (f.x % 2 ^ 16 + 2 ^ 16 * (f.y % 2 ^ 16)) ∧ w.vreg.get (64 + f.lane) = f.b1 ∧
          w.vreg.get (128 + f.lane) = f.b2 ∧ w.vreg.get (192 + f.lane) = f.z ∧
          (∀ tr, d.prims[f.prim]? = some tr → w.vreg.get (256 + f.lane) = BitVec.ofNat 32 tr.p) ∧ w.vreg.get (320 + f.lane) = BitVec.ofNat 32 f.cover

/-- R405: COHORT_PLACEMENT places every group of a cohort with its barriers in one step, or nothing. -/
def Claims.CohortsPlaced : Prop :=
  ∀ (s : State) lid l, s.launch? lid = some l → l.lkind = 1 → l.draw = none → l.placed = 0 → l.total ≠ 0 → Ids s →
    (∀ x ∈ s.cores, x.heldImages = []) →
    let ncb := (l.word 0).toNat / 2 ^ 27 % 32
    let free := (List.range 16).filter fun m => match s.cbars[m]? with | some b => b.owner.isNone | none => false
    let x : Word := BitVec.ofNat 32 (Config.pick s.fresh lid % (2 ^ 32 - 1))
    let all := (List.range l.total).foldlM (fun (u : State) i => u.placeOne l .compute i x l.args) { s with fresh := s.fresh + 1 }
    (s.mayPlace l = false ∨ free.length < ncb ∨ all = none → exec (.cohortPlacement lid) s = .next s) ∧
    ∀ ls, s.mayPlace l = true → ListsServed s l → s.readLists l lid true = some ls →
      (ncb ≤ free.length → all ≠ none → ∃ t gs ws l', exec (.cohortPlacement lid) s = .next t ∧ t.groups = s.groups ++ gs ∧
        gs.length = l.total ∧ t.waves = s.waves ++ ws ∧ ws.length = l.total * l.kernel.waves.length ∧ t.mem = s.mem ∧ x ≠ (0xffffffff : Word) ∧
        (∀ i g, gs[i]? = some g → g.lid = lid ∧ g.group = BitVec.ofNat 32 i ∧ g.cohort = x ∧ g.ctx = l.ctx ∧ g.kind = .compute ∧ g.state = .resident) ∧
        t.launch? lid = some l' ∧ l'.placed = l.total ∧ l'.hold = false ∧ l'.cbars = free.take ncb ∧ t.lists = s.lists ++ ls ∧
        ∀ m, (m ∈ free.take ncb → t.cbars[m]? = some { owner := some lid }) ∧ (m ∉ free.take ncb → t.cbars[m]? = s.cbars[m]?))

/-- R405: COHORT_WAIT_HOLD: a cohort that has waited 16,384 fclk, which are 7 units of the time base each, holds placement. -/
def Claims.CohortsHold : Prop :=
  ∀ (s : State) lid l, s.launch? lid = some l →
    (l.lkind = 1 ∧ l.placed = 0 ∧ l.since + 114688 ≤ s.time → ∃ t : State, exec (.cohortWaitHold lid) s = .next t ∧ t = { s with taken := t.taken } ∧
      t.launch? lid = some { l with hold := true } ∧ ∀ k, k ≠ lid → t.launch? k = s.launch? k) ∧
    (¬ (l.lkind = 1 ∧ l.placed = 0 ∧ l.since + 114688 ≤ s.time) → exec (.cohortWaitHold lid) s = .next s)

/-- No group of the launch is left or to come once `n` have ended; a draw none of whose triangles touches a tile ends with its attribute pass. -/
def lastEnds (l : Launch) (n : Nat) : Prop :=
  match l.draw with
  | none => l.placed = l.total ∧ n = l.total
  | some d => (d.phase = .raster ∨ (d.phase = .attrs ∧ d.todo = [])) ∧ d.tiles = [] ∧ d.wait = [] ∧ n = l.placed

/-- R160, R407: GROUP_RETIRE: the group and its waves are gone and the launch counts it; a fault that nobody reported makes the status 0x04; with
the last group the launch is complete, its record is written where it can be, and its vector signalled.
Cases that the rules leave out are readings (log 28). -/
def Claims.GroupsRetire : Prop :=
  ∀ (s : State) gid g, s.group? gid = some g →
    (s.retires g = false → exec (.groupRetire gid) s = .next s) ∧
    ∀ l, s.retires g = true → s.launch? g.lid = some l →
      ∃ t, exec (.groupRetire gid) s = .next t ∧ (t.groups = s.groups.filter fun x => x.gid != gid) ∧ (∀ w ∈ t.waves, w.gid ≠ gid) ∧
        (l.lkind ≠ 1 → (∀ b ∈ s.cbars, b.owner ≠ some g.lid) → ∀ w ∈ s.waves, w.gid ≠ gid → DistinctWaves s → KeepsRegs s t w.wid) ∧
        (¬ lastEnds l (l.retired + 1 + l.aborted) → ∃ l', t.launch? g.lid = some l' ∧ l'.retired = l.retired + 1 ∧ l'.aborted = l.aborted ∧
          l'.placed = l.placed ∧ l'.status = if s.unreported g ≠ [] ∧ l.status = 0 then 4 else l.status) ∧
        (lastEnds l (l.retired + 1 + l.aborted) → t.launch? g.lid = none ∧ (bitAt (l.word 0) 25 = true → l.event = none → Signalled s t l.func l.vec) ∧
          ∀ u, l.draw = none → s.poison = [] → s.unreported g = [] → s.lists = [] →
            s.devWrite l.ctx ((l.word 8).toNat % 2 ^ 57) ((completionWords l.seq 0 l.status l.culled (l.retired + 1) (l.degraded || g.degraded)
              l.overrun).flatMap fun w => toBytes 8 w.toNat) = .ok u → t.mem = u.mem)

/-- R410, R407: GROUP_ABORT ends a group without retiring it, and its launch has status 0x05. -/
def Claims.GroupsAbort : Prop :=
  ∀ (s : State) gid g l, s.group? gid = some g → s.launch? g.lid = some l →
    ∃ t, exec (.groupAbort gid) s = .next t ∧ (t.groups = s.groups.filter fun x => x.gid != gid) ∧ (∀ w ∈ t.waves, w.gid ≠ gid) ∧
      (¬ lastEnds l (l.retired + (l.aborted + 1)) → ∃ l', t.launch? g.lid = some l' ∧ l'.retired = l.retired ∧ l'.aborted = l.aborted + 1 ∧ l'.status = 5) ∧
      (lastEnds l (l.retired + (l.aborted + 1)) → t.launch? g.lid = none)

/-- R348: DRAW_MESH_PHASE: after the last amplification group the position pass has as many groups as the indirect block says, at most 2^20;
with none, or with a block that cannot be read, the draw is over; the latter is the model's choice (log 25), as is an amplification that runs no
group (log 27). -/
def Claims.MeshPhaseBegins : Prop :=
  ∀ (s : State) lid l, s.launch? lid = some l →
    (l.ampDone = false → exec (.drawMeshPhase lid) s = .next s) ∧
    ∀ d, l.ampDone = true → l.draw = some d →
      let va := (d.dword 4).toNat % 2 ^ 57
      Served s l.ctx va 4 →
      (∀ bs, s.vread l.ctx va 4 = .ok bs → ofBytes bs ≠ 0 → ∃ t : State, exec (.drawMeshPhase lid) s = .next t ∧ t = { s with taken := t.taken } ∧
        t.launch? lid = some { l with draw := some { d with phase := .position, todo := List.range (min (2 ^ 20) (ofBytes bs)) } }) ∧
      ((∀ bs, s.vread l.ctx va 4 = .ok bs → ofBytes bs = 0) → ∃ t, exec (.drawMeshPhase lid) s = .next t ∧ t.launch? lid = none ∧ KeepsWaves s t)

/-- R350 steps 1, 2, 4, 5: a primitive with a vertex that is not finite, with the cull flag, or outside one plane of the view volume with all its
vertices is dropped; of a triangle that needs no clipping the corners are snapped to 1/256 pixel, RNE, and no area or a culled side drops it. -/
def Claims.PrimitivesCulled : Prop :=
  ∀ fresh w h cull g p (m : MeshOut) (word : Word),
    let vs := (List.range 3).map fun k => m.corner (word.toNat / 256 ^ k % 256) k
    ((none ∈ vs ∨ word.toNat.testBit 24 = true) → survivors fresh w h cull g p m word = []) ∧
    ∀ a b c, vs = [some a, some b, some c] → word.toNat.testBit 24 = false →
      ((∃ k < 6, ∀ v ∈ [a, b, c], v.outside[k]? = some true) → survivors fresh w h cull g p m word = []) ∧
      ((∀ k < 6, ∃ v ∈ [a, b, c], v.outside[k]? = some false) → (∀ v ∈ [a, b, c], 0 < v.w.num ∧ 0 ≤ v.z.num ∧ 0 < v.w.den ∧ 0 < v.x.den ∧ 0 < v.y.den) →
        ∃ X Y : Nat → Int, (∀ k v, [a, b, c][k]? = some v →
            let near := fun (x : Int) (q : Frac) (n : Nat) =>
              let D : Int := q.den * v.w.num
              let N : Int := 128 * n * (q.num * v.w.den + D)
              2 * (x * D - N).natAbs ≤ D.natAbs ∧ (2 * (x * D - N).natAbs = D.natAbs → x % 2 = 0)
            near (X k) v.x w ∧ near (Y k) v.y h) ∧
          let area := (X 1 - X 0) * (Y 2 - Y 0) - (X 2 - X 0) * (Y 1 - Y 0)
          ((area = 0 ∨ (cull = 1 ∧ 0 < area) ∨ (cull = 2 ∧ area < 0)) → survivors fresh w h cull g p m word = []) ∧
          (¬ (area = 0 ∨ (cull = 1 ∧ 0 < area) ∨ (cull = 2 ∧ area < 0)) → ∃ tr, survivors fresh w h cull g p m word = [tr] ∧ tr.g = g ∧ tr.p = p ∧
            tr.vtx = [(X 0, Y 0), (X 1, Y 1), (X 2, Y 2)]))

/-- R349: DRAW_ATTRIBUTE_PASS: after the position pass the groups with a surviving primitive run again; a draw without one is over. -/
def Claims.AttributePassBegins : Prop :=
  ∀ (s : State) lid l, s.launch? lid = some l →
    (l.meshDone = false → exec (.drawAttributePass lid) s = .next s) ∧
    ∀ d (outs : List (Nat × MeshOut)), l.meshDone = true → l.draw = some d → outs.Perm d.outs → (outs.map (·.1)).Pairwise (· < ·) →
      let prims := outs.flatMap fun o => o.2.triangles s.fresh d.wid d.hei ((d.dword 3).toNat / 2 ^ 32 % 4) o.1
      (prims = [] → d.wait = [] → ∃ t, exec (.drawAttributePass lid) s = .next t ∧ t.launch? lid = none ∧ KeepsWaves s t) ∧
      (prims ≠ [] → ∃ t l' d', exec (.drawAttributePass lid) s = .next t ∧ t.launch? lid = some l' ∧ l'.draw = some d' ∧ d'.phase = .attrs ∧
        d'.prims = prims ∧ (∀ g, g ∈ d'.todo ↔ ∃ x ∈ prims, x.g = g) ∧ d'.todo.Nodup ∧ t.groups = s.groups ∧ KeepsWaves s t ∧
        ((∀ va ∈ l.glz, va ≠ 0 → ∀ fresh, Served { s with fresh } l.ctx va 64) → t.mem = s.mem ∧ t.waves = s.waves))

/-- R352: a sample is covered when it lies strictly inside the snapped triangle, or on it on a top or a left edge. -/
def Claims.SamplesCovered : Prop :=
  ∀ (tr : DPrim) (x y k : Nat) px py, [((96 : Int), (32 : Int)), (224, 96), (32, 160), (160, 224)][k]? = some (px, py) →
    let es := if 0 < tr.area then [(0, 1), (1, 2), (2, 0)] else [(0, 2), (2, 1), (1, 0)]
    let side := fun (e : Nat × Nat) =>
      ((tr.at e.2).1 - (tr.at e.1).1) * (256 * (y : Int) + py - (tr.at e.1).2) - ((tr.at e.2).2 - (tr.at e.1).2) * (256 * (x : Int) + px - (tr.at e.1).1)
    let topLeft := fun (e : Nat × Nat) => (tr.at e.2).2 < (tr.at e.1).2 ∨ ((tr.at e.2).2 = (tr.at e.1).2 ∧ (tr.at e.1).1 < (tr.at e.2).1)
    ((tr.coverage x y).testBit k = true ↔ (∀ e ∈ es, 0 < side e) ∨ ((∀ e ∈ es, 0 ≤ side e) ∧ ∃ e ∈ es, side e = 0 ∧ topLeft e))

/-- R273, R352 to R354: DRAW_TILE_RASTER: the covered pixels of a tile become lanes of pixel groups, by triangle. The four lanes of a quad hold the
2×2 block of their pixels in one triangle, helper lanes where it has no fragment, and no wave holds two lanes of one pixel.
The packing is a free choice (log 25). -/
def Claims.TilesRaster : Prop :=
  ∀ (s : State) lid tile l, s.launch? lid = some l →
    (s.mayRaster l tile = false → exec (.drawTileRaster lid tile) s = .next s) ∧
    ∀ d, s.mayRaster l tile = true → l.draw = some d → ∃ t, exec (.drawTileRaster lid tile) s = .next t ∧ KeepsWaves s t ∧ t.groups = s.groups ∧
      (t.launch? lid = none ∨ ∃ l' d' gs fs, t.launch? lid = some l' ∧ l'.draw = some d' ∧ d'.phase = .raster ∧ d'.prims = d.prims ∧
        d'.tiles = d.tiles.filter (· ≠ tile) ∧ d'.wait = d.wait ++ gs ∧ d'.frags = d.frags ++ fs ∧ (∀ p ∈ gs, p.tile = tile) ∧
        (∀ f ∈ fs, f.x / 32 = tile % d.tilesAcross ∧ f.y / 32 = tile / d.tilesAcross ∧ (f.helper = true ↔ f.cover = 0) ∧
          (f.helper = false → ∃ tr, d.prims[f.prim]? = some tr ∧ f.cover = tr.coverage f.x f.y) ∧ ∃ p ∈ gs, f.gid = p.gid ∧ f.wave < p.waves) ∧
        (∀ f ∈ fs, f.x % 2 = f.lane % 2 ∧ f.y % 2 = f.lane / 2 % 2 ∧ (∃ h ∈ fs, h.gid = f.gid ∧ h.wave = f.wave ∧ h.lane / 4 = f.lane / 4 ∧ h.helper = false) ∧
          ∀ k < 4, ∃ h ∈ fs, h.gid = f.gid ∧ h.wave = f.wave ∧ h.lane = f.lane / 4 * 4 + k ∧ h.prim = f.prim ∧ h.x = f.x / 2 * 2 + k % 2 ∧
            h.y = f.y / 2 * 2 + k / 2) ∧
        (∀ f ∈ fs, ∀ h ∈ fs, f.gid = h.gid → f.wave = h.wave → f.x = h.x ∧ f.y = h.y ∨ f.lane = h.lane → f = h) ∧
        ((d.dword 5).toNat / 2 ^ 61 = 0 → ∀ (k : Nat) (tr : DPrim) (x y : Nat), d.prims[k]? = some tr → x / 32 = tile % d.tilesAcross →
          y / 32 = tile / d.tilesAcross →
          let box := tr.box (s.extent l d).1 (s.extent l d).2
          (box.1.1 ≤ x ∧ x < box.1.2 ∧ box.2.1 ≤ y ∧ y < box.2.2) → tr.coverage x y ≠ 0 → ∃ f ∈ fs, f.prim = k ∧ f.x = x ∧ f.y = y ∧ f.helper = false))

end Sys2Proof

/-- Identifiers stay distinct in every run (log 2). -/
def Obligations.StepKeepsIds : Prop :=
  Ids State.reset ∧ ∀ s t, Ids s → step s = .next t → Ids t

namespace Sys2Proof

/-- R418, R419, R423, R441: PREEMPT_REQUEST, PREEMPT_SAVE, PREEMPT_DRAIN_TIMEOUT and RESTORE complete: the groups asked for drain; one that has drained is
saved and has left its core; one that drains too long has no PRIME left to run; a saved one with room and an image that can be used is installed again,
and runs when its slots have settled. -/
def Claims.PreemptionCompletes : Prop :=
  (∀ (s : State) (v : DWord), s.hostOk 0 = true → bitAt s.prectl 31 = false → bitAt v 31 = true →
    ∃ t : State, exec (.preemptRequest 0 v) s = .next t ∧ ∀ (i : Nat) g, s.groups[i]? = some g → g.state = .resident → g.ctx = v.toNat % 2 ^ 16 →
      g.core = v.toNat / 2 ^ 16 % 64 → ∃ g' n, t.groups[i]? = some g' ∧ g'.gid = g.gid ∧ g'.state = .draining n) ∧
  (∀ (s u : State) gid g n l, Ids s → s.group? gid = some g → g.state = .draining n → s.drained g = true → s.launch? g.lid = some l →
    s.writeImage g l = .ok u →
    ∃ t g', exec (.preemptSave gid) s = .next t ∧ t.group? gid = some g' ∧ g'.state = .saved ∧ ∀ w ∈ t.waves, w.gid ≠ gid) ∧
  (∀ (s : State) gid g, s.group? gid = some g → s.drainLate g = true → g.core < s.cores.length → (s.core g.core).easel.length ≤ 128 →
    ((s.core g.core).copies.map (·.cid)).Nodup →
    ∃ t, exec (.preemptDrainTimeout gid) s = .next t ∧ ∀ o ∈ (t.core g.core).easel, o.gid = gid → o.mma = true) ∧
  (∀ (s : State) gid g, s.group? gid = some g → g.state = .restoring → s.settled g = true →
    ∃ t g', exec (.restore gid) s = .next t ∧ t.group? gid = some g' ∧ g'.state = .resident) ∧
  ∀ (s u : State) gid g l seat im, s.group? gid = some g → g.state = .saved → s.launch? g.lid = some l → s.restoreSeat g l = some seat →
    Served s g.ctx (s.imageVa g.ctx g.image) 0x2000 → s.readImage g seat = .ok im → s.install g l seat im = .ok u → exec (.restore gid) s = .next u

end Sys2Proof

/-- Groups, from their placement to their end, and draws (R160, R273, R348 to R354, R404 to R407, R410); and that pre-emption and restore complete (R418 to
R423). Which event a step brings (log 2), and the waves into which whole quads are packed (log 25), are free choices of the model. That a draw whose indirect
block cannot be read ends (log 25), that a work-list table which cannot be read is invalid (log 27), and what a group's end does in cases that the rules
leave out (log 28), are its choices. -/
def Obligations.GroupsAndDraws : Prop :=
  Claims.SeatsHaveRoom ∧ Claims.GroupsPlaced ∧ Claims.PixelGroupsPlaced ∧ Claims.CohortsPlaced ∧ Claims.CohortsHold ∧ Claims.GroupsRetire ∧
  Claims.GroupsAbort ∧ Claims.MeshPhaseBegins ∧ Claims.PrimitivesCulled ∧ Claims.AttributePassBegins ∧ Claims.SamplesCovered ∧ Claims.TilesRaster ∧
  Claims.PreemptionCompletes

/-! ## Pre-emption and save images (R418 to R425, R441, R498) -/

namespace Sys2Proof

/-- R418, R441: PREEMPT_REQUEST: a write of PRECTL with GO by the physical function makes the placed groups of the context on the core drain; without
one DONE reads 1 at once. While a request is in flight GO is ignored. Without GO the fields are stored, and DONE stays. -/
def Claims.PreemptRequests : Prop :=
  ∀ (s : State) func (v : DWord),
    let keep := v &&& 0x000007ff003fffff
    let busy := bitAt s.prectl 31 = true
    let hit := fun (g : Group) => g.ctx = v.toNat % 2 ^ 16 ∧ g.core = v.toNat / 2 ^ 16 % 64 ∧ (g.state = .resident ∨ g.state = .restoring)
    (func ≠ 0 ∨ s.hostOk 0 = false → exec (.preemptRequest func v) s = .next s) ∧
    (s.hostOk 0 = true →
      (busy → bitAt v 31 = true → exec (.preemptRequest 0 v) s = .next s) ∧
      (busy → bitAt v 31 = false → exec (.preemptRequest 0 v) s = .next { s with prectl := keep ||| 0x80000000 }) ∧
      (¬ busy → bitAt v 31 = false → exec (.preemptRequest 0 v) s = .next { s with prectl := keep ||| (s.prectl &&& 0x40000000) }) ∧
      (¬ busy → bitAt v 31 = true →
        let now := (s.core (v.toNat / 2 ^ 16 % 64)).clk.toNat
        let any := ∃ g ∈ s.groups, hit g ∨ (g.ctx = v.toNat % 2 ^ 16 ∧ g.core = v.toNat / 2 ^ 16 % 64 ∧ ∃ n, g.state = .draining n)
        ∃ t : State, exec (.preemptRequest 0 v) s = .next t ∧ KeepsWaves s t ∧ t.groups.length = s.groups.length ∧
          (∀ (i : Nat) g, s.groups[i]? = some g → (hit g → t.groups[i]? = some { g with state := .draining now }) ∧ (¬ hit g → t.groups[i]? = some g)) ∧
          (any → t = { s with prectl := keep ||| 0x80000000, groups := t.groups, preq := (v.toNat % 2 ^ 16, v.toNat / 2 ^ 16 % 64) }) ∧
          (¬ any → t.prectl = keep ||| 0x40000000 ∧ Signalled s t 0 (v.toNat / 2 ^ 32 % 2 ^ 11))))

/-- R419: PREEMPT_DRAIN_TIMEOUT, 65,536 clk after the request: no PRIME of the group is left to run, every copy is parked, with a fault that its
barrier has recorded or records once it has room, and no code load of its waves is under way. -/
def Claims.DrainTimesOut : Prop :=
  ∀ (s : State) gid g, s.group? gid = some g →
    (s.drainLate g = false → exec (.preemptDrainTimeout gid) s = .next s) ∧
    (s.drainLate g = true → g.core < s.cores.length → (s.core g.core).easel.length ≤ 128 → ((s.core g.core).copies.map (·.cid)).Nodup →
      ∃ t, exec (.preemptDrainTimeout gid) s = .next t ∧ (∀ o ∈ (t.core g.core).easel, o.gid = gid → o.mma = true) ∧
        (∀ x ∈ (t.core g.core).copies, x.gid = gid → x.parked = true) ∧
        (∀ x ∈ (s.core g.core).copies, x.gid = gid → x.parked = false → x.bar < g.bars.length → ∃ y ∈ (t.core g.core).copies, y.cid = x.cid ∧
          (y.late.isSome = true ∨ ∃ g' d, t.group? gid = some g' ∧ (g'.bar x.bar).fault = some (d, x.cid) ∧ d.trap = x.fault 0x04 1 x.src)) ∧
        t.loadsOf g.core ((s.wavesOf gid).map (·.wid)) = [])

/-- R418: PREEMPT_SAVE of a group that has drained: its image is written, its live tiles are HELD, its waves leave the core; after the last group of
the request DONE reads 1 with its signal. Where the image cannot be written the group ends and its launch has status 0x04. -/
def Claims.PreemptSaves : Prop :=
  ∀ (s : State) gid g, s.group? gid = some g →
    (((∀ n, g.state ≠ .draining n) ∨ s.drained g = false) → exec (.preemptSave gid) s = .next s) ∧
    ∀ n l, Ids s → g.state = .draining n → s.drained g = true → s.launch? g.lid = some l →
      let only := bitAt s.prectl 31 = true ∧ ∀ x ∈ s.groups, x.gid ≠ gid → (x.ctx, x.core) = s.preq → ∀ n, x.state ≠ .draining n
      let done := fun (t : State) => bitAt t.prectl 31 = false ∧ bitAt t.prectl 30 = true ∧ Signalled s t 0 (s.prectl.toNat / 2 ^ 32 % 2 ^ 11)
      (∀ u, s.writeImage g l = .ok u → ∃ t g', exec (.preemptSave gid) s = .next t ∧ t.group? gid = some g' ∧ g'.state = .saved ∧
        g'.image = g.image ∧ g'.kept.map (·.wid) = (s.wavesOf gid).map (·.wid) ∧ (∀ w ∈ t.waves, w.gid ≠ gid) ∧ t.launch? g.lid = some l ∧
        (l.lkind ≠ 1 → DistinctWaves s → ∀ w ∈ s.waves, w.gid ≠ gid → KeepsRegs s t w.wid) ∧
        (g.core < s.cores.length → g.tiles.Nodup → ∀ k tl, g.tiles[k]? = some tl →
          (t.core g.core).tile tl = if (s.core g.core).tile tl = .live then .held g.ctx g.image k else .free) ∧
        (bitAt s.prectl 31 = false → t.mem = u.mem) ∧ (only → done t)) ∧
      (∀ e, s.writeImage g l = .error e → (∀ x ∈ s.groups, x.ctx = g.ctx → x.image = g.image → x = g) →
        ∃ t, exec (.preemptSave gid) s = .next t ∧ t.group? gid = none ∧ (∀ w ∈ t.waves, w.gid ≠ gid) ∧ (only → done t) ∧
          (lastEnds l (l.retired + (l.aborted + 1)) → t.launch? g.lid = none) ∧
          (¬ lastEnds l (l.retired + (l.aborted + 1)) → ∃ l', t.launch? g.lid = some l' ∧ l'.status = 4 ∧ l'.aborted = l.aborted + 1))

/-- R420 to R422, R424, R498: what an image holds, and where.
Cases that the rules leave out are readings (log 29). -/
def Claims.ImageHolds : Prop :=
  ∀ (s : State) g l,
    let ps := s.imagePieces g l
    (∃ hd : List DWord, (0, le64 hd) ∈ ps ∧ hd.length = 32 ∧ hd[1]? = some 0 ∧ (∀ k < 16, hd[3 + k]? = some (l.word k)) ∧
      (g.ctx < 2 ^ 16 → g.waves ≤ 32 → hd[0]? = some (BitVec.ofNat 64 (2 ^ 48 * g.ctx + 2 ^ 40 + 2 ^ 34 * g.waves))) ∧ hd[19]? = some (pair64 g.group g.cohort) ∧
      ∀ k < 12, hd[20 + k]? = some 0) ∧
    (∀ k b, g.bars[k]? = some b → ∃ f : Word, (0x100 + 16 * k, le32 [b.phase, BitVec.ofNat 32 b.arrivals, BitVec.ofInt 32 b.cnt, f]) ∈ ps ∧ (b.fault = none → f = 0)) ∧
    (∀ x ∈ s.lists, x.cohort = false → x.scope = g.gid → (0x300 + 8 * x.idx, le32 [x.head, x.tail]) ∈ ps) ∧
    (∀ n k, g.cans[n]? = some k → ((s.core g.core).can k).prime = none → (0xb00 + 16 * n, le64 [0, 0]) ∈ ps) ∧
    ((0x142000, s.mem.getList (palKey g.core g.pbase) g.psize) ∈ ps) ∧
    ∀ w ∈ s.wavesOf g.gid, w.living ≠ 0 →
      let o := 0x2000 + 8192 * w.idx
      (∀ r < w.budget, (0x42000 + 32768 * w.idx + 256 * r, le32 ((List.range w.width).map fun ln => w.vreg.get (64 * r + ln))) ∈ ps) ∧
      (∃ m0 : DWord, (∀ l < 64, bitAt m0 l = true ↔ ∃ e < 16, (w.ent e).isPart = true ∧ bitAt (w.ent e).lmask l = true) ∧
        (o + 0x40, le64 ((List.range 16).map fun k => if k = 0 then m0 else w.mask.get k)) ∈ ps) ∧
      (o + 0x100, le64 ((List.range 64).map fun k => (w.ent (k / 4)).word (k % 4))) ∈ ps ∧
      ∀ e < 16, (w.ent e).isPart = true → ∃ bs, (o + 0x800 + 384 * e, bs) ∈ ps ∧ bs.length = 384 ∧
        (w.handler.run = false → bs.take 256 = le32 ((w.bankOf e).sreg.getList 0 64))

/-- R423: what a restore makes of a wave's record is the wave that was saved: masks, FUSETO, SPLPOL, batch sequence, armed slots with TRIG, the split
table (the JPC of a running part is reserved), and each part's scalars, quantiser state, scales, dictionary phase, lookahead window and
pending trap; of QTC, reserved bits come back as 0 and COUNT as at most 16 (R73). -/
def Claims.ImageRoundTrip : Prop :=
  ∀ (s u : State) g l (w : Wave) core o vreg (ws : List DWord), w.tableWf = true → w.split.length = 16 → w.banks.length = w.nq → w.handler.run = false →
    w.mons.length = 4 → w.idx < 32 → w.width ≤ 64 → w.qbase < 16 → w.slot < 16 → w.part < 8 →
    (∀ e < 16, (w.ent e).isPart = true → ((w.ent e).qmask &&& ~~~w.allQuads) = 0 ∧ (w.ent e).qmask ≠ 0 ∧
      ∀ e' < 16, e' ≠ e → (w.ent e').isPart = true → ((w.ent e).qmask &&& (w.ent e').qmask) = 0) →
    (∀ p ∈ s.waveRecord g l w, ∀ i b, p.2[i]? = some b → (at64 ws ((p.1 + i) / 8 * 8)).toNat / 256 ^ ((p.1 + i) % 8) % 256 = b.toNat) →
    let v := waveOfImage u w core o ws vreg
    v.wid = w.wid ∧ v.core = core ∧ v.part = o.part ∧ v.slot = o.slot ∧ v.qbase = o.qbase ∧ v.vreg = vreg ∧ v.rst = true ∧
      (∀ e < 16, v.ent e = { w.ent e with jpc := if (w.ent e).isPart = true then 0 else (w.ent e).jpc }) ∧
      (∀ k, 1 ≤ k → k < 16 → v.mask.get k = w.mask.get k) ∧ v.fuseto = w.fuseto ∧ v.splpol = w.splpol ∧ v.batch.bseq = w.batch.bseq ∧
      (∀ (n : Nat) (m : Mon), w.mons[n]? = some m → ∃ m' : Mon, v.mons[n]? = some m' ∧ m'.armed = m.armed ∧ m'.trig = m.trig) ∧
      ∀ e < 16, (w.ent e).isPart = true → (v.bankOf e).qtc = qtcOf (w.bankOf e).qtc ∧ (v.bankOf e).sca = (w.bankOf e).sca ∧
        (v.bankOf e).scb = (w.bankOf e).scb ∧ (v.bankOf e).phase = (w.bankOf e).phase ∧
        (w.aux.length = 16 → (v.auxAt e).look = (w.auxAt e).look ∧ (v.auxAt e).trap.isSome = (w.auxAt e).trap.isSome) ∧
        ∀ n < 64, (v.bankOf e).sreg.get n = (w.bankOf e).sreg.get n

/-- R423 to R425: RESTORE: a saved group waits for a place; then it has its waves back there with RST due and its palette, and runs when its overlay
slots have settled. An image that cannot be used ends the group, and its launch has status 0x04. -/
def Claims.GroupsRestore : Prop :=
  ∀ (s : State) gid g, s.group? gid = some g →
    (g.state = .restoring → (s.settled g = false → exec (.restore gid) s = .next s) ∧
      (s.settled g = true → ∃ t g', exec (.restore gid) s = .next t ∧ t.group? gid = some g' ∧ g'.state = .resident)) ∧
    (g.state = .resident ∨ (∃ n, g.state = .draining n) → exec (.restore gid) s = .next s) ∧
    ∀ l, g.state = .saved → s.launch? g.lid = some l →
      (s.restoreSeat g l = none → exec (.restore gid) s = .next s) ∧
      ∀ seat, s.restoreSeat g l = some seat →
        (∀ e, s.readImage g seat = .error e → (∀ x ∈ s.groups, x.ctx = g.ctx → x.image = g.image → x = g) →
          ∃ t, exec (.restore gid) s = .next t ∧ t.group? gid = none ∧
            (lastEnds l (l.retired + (l.aborted + 1)) → t.launch? g.lid = none) ∧
            (¬ lastEnds l (l.retired + (l.aborted + 1)) → ∃ l', t.launch? g.lid = some l' ∧ l'.status = 4 ∧ l'.aborted = l.aborted + 1)) ∧
        ∀ im u, Served s g.ctx (s.imageVa g.ctx g.image) 0x2000 → s.readImage g seat = .ok im → s.install g l seat im = .ok u → exec (.restore gid) s = .next u ∧ (Ids s → seat.spills = [] →
          (∃ g', u.group? gid = some g' ∧ g'.state = .restoring ∧ g'.core = seat.core ∧ g'.pbase = seat.pbase ∧ g'.cans = seat.cans ∧ g'.bars = im.bars ∧
            g'.image = g.image) ∧
          (∀ w ∈ g.kept, ∃ v ∈ u.waves, v.wid = w.wid ∧ v.gid = w.gid ∧ v.core = seat.core ∧ (w.living ≠ 0 → v.rst = true)) ∧
          (s.poison = [] → ∀ i b, im.pal[i]? = some b → u.mem.get (palKey seat.core seat.pbase + i) = b))

end Sys2Proof

/-- Pre-emption, save images and restore (R418 to R425, R441, R498).
What a saved group keeps beside its image is the model's (log 15). -/
def Obligations.Preemption : Prop :=
  Claims.PreemptRequests ∧ Claims.DrainTimesOut ∧ Claims.PreemptSaves ∧ Claims.ImageHolds ∧ Claims.ImageRoundTrip ∧ Claims.GroupsRestore

/-! ## Translation, host and fabric (R319, R345, R416, R430 to R447) -/

namespace Sys2Proof

/-- A physical address on the own module, inside its memory (R431). -/
def ownMemory (s : State) (p : Nat) : Prop := p / 2 ^ 45 % 2 ^ 11 = s.nodeid.toNat ∧ p % 2 ^ 45 < 248000000000

/-- An entry that names the next table (R432), and the physical address in an entry. -/
def namesTable (s : State) (e : Nat) : Prop := e % 128 / 64 = 0 ∧ e % 4 = 1 ∧ e / 16 % 4 = 0 ∧ e / 2 ^ 56 = 0 ∧ ownMemory s (e % 2 ^ 56 / 4096 * 4096)

def entryPa (e : Nat) : Nat := e % 2 ^ 56 / 4096 * 4096

/-- R430, R432, R434: a walk of the five tables finds the leaf of level 0, 1 or 2 that the address indexes, and PAGE_WALK_COMPLETE puts it into the
TLBs of a core, of 256 entries, and of its panel, of 8,192, having read through the slices; an absent entry is PAGE, a broken root PERM, and nothing is put there. -/
def Claims.PageWalks : Prop :=
  ∀ (s : State) ctx va (tb : Nat → Nat) n, n ≤ 4 →
    let root := readNat s (s.astbase.toNat + 8 * ctx) 8
    let e := fun k => readNat s (tb k + 8 * (va / 2 ^ (12 + 9 * k) % 512)) 8
    let size := 12 + 9 * n
    let good := root % 4096 = 1 ∧ root / 2 ^ 56 = 0 ∧ ownMemory s (entryPa root) ∧ tb 4 = entryPa root % 2 ^ 45 ∧
      ∀ k, n < k → k ≤ 4 → namesTable s (e k) ∧ tb (k - 1) = entryPa (e k) % 2 ^ 45
    (good → n ≤ 2 → e n % 4 = 3 → e n / 16 % 8 = 0 → (e n / 2 ^ 56 = 0 ∨ e n / 2 ^ 56 = 192) → entryPa (e n) % 2 ^ size = 0 →
      s.walk ctx va = .ok (BitVec.ofNat 64 (e n), size) ∧
      ∃ t : State, exec (.pageWalkComplete ctx va) s = .next t ∧ OnlyCaches s { t with tlb := s.tlb } ∧ ∃ core < 64,
        let put := fun (unit : Nat) => (unit, ctx, va / 2 ^ size * 2 ^ (size - 12), BitVec.ofNat 64 (e n), size)
        let held := fun (u : State) (unit : Nat) => (u.tlb.filter fun x => x.1 = unit).length
        put core ∈ t.tlb ∧ put (64 + core / 16) ∈ t.tlb ∧ (∀ x ∈ t.tlb, x ∈ s.tlb ∨ x = put core ∨ x = put (64 + core / 16)) ∧
        (∀ u < 64, held s u ≤ 256 → held t u ≤ 256) ∧ ∀ u, 64 ≤ u → held s u ≤ 8192 → held t u ≤ 8192) ∧
    (good → e n % 2 = 0 → s.walk ctx va = .error .page ∧ exec (.pageWalkComplete ctx va) s = .next s) ∧
    (root % 2 = 0 ∨ root / 2 ^ 56 ≠ 0 ∨ root % 4096 / 2 ≠ 0 ∨ ¬ ownMemory s (entryPa root) →
      s.walk ctx va = .error .perm ∧ exec (.pageWalkComplete ctx va) s = .next s)

/-- R430 to R432, R434, R206: an address of 2^57 or more is PERM; where no TLB holds it, one whose page is found has the storage key of its physical
address, or PERM where that names nothing. A leaf that the TLB of the core holds is in force for it before one of its panel's TLB, and that before the
tables; TLBs of other cores and panels do not matter. -/
def Claims.AddressesTranslate : Prop :=
  (∀ (s : State) core ctx va leaf size,
    let hits := fun (unit : Nat) (x : Nat × Nat × Nat × DWord × Nat) => x.1 = unit ∧ x.2.1 = ctx ∧ va / 2 ^ x.2.2.2.2 = x.2.2.1 / 2 ^ (x.2.2.2.2 - 12)
    let only := fun (unit : Nat) => (∃ x ∈ s.tlb, hits unit x) ∧ ∀ x ∈ s.tlb, hits unit x → x.2.2.2 = (leaf, size)
    let none' := fun (unit : Nat) => ∀ x ∈ s.tlb, ¬ hits unit x
    (only core → s.leafOf (some core) ctx va = .ok (leaf, size)) ∧
    (none' core → only (64 + core / 16) → s.leafOf (some core) ctx va = .ok (leaf, size)) ∧
    (none' core → none' (64 + core / 16) → s.leafOf (some core) ctx va = s.walk ctx va)) ∧
  ∀ (s : State) who ctx va,
    (2 ^ 57 ≤ va → s.xlate who ctx va = .error .perm) ∧
    (va < 2 ^ 57 → (∀ x ∈ s.tlb, x.2.1 ≠ ctx) →
      (∀ f, s.walk ctx va = .error f → s.xlate who ctx va = .error f) ∧
      ∀ leaf size, s.walk ctx va = .ok (leaf, size) → leaf.toNat / 2 ^ 62 ≠ 1 →
        let p := entryPa leaf.toNat / 2 ^ size * 2 ^ size + va % 2 ^ size
        let node := p / 2 ^ 45 % 2 ^ 11
        (ownMemory s p → ∃ x, s.xlate who ctx va = .ok x ∧ x.key = p % 2 ^ 45 ∧ x.leaf = leaf ∧ x.left = 2 ^ size - va % 2 ^ size) ∧
        (node ≠ s.nodeid.toNat → (node < 1152 ∨ node = 2047) → ∃ x, s.xlate who ctx va = .ok x ∧ x.key = 2 ^ 58 + p) ∧
        ((node = s.nodeid.toNat ∧ 248000000000 ≤ p % 2 ^ 45) ∨ (node ≠ s.nodeid.toNat ∧ 1152 ≤ node ∧ node ≠ 2047) → s.xlate who ctx va = .error .perm))

/-- R435, R437: INVALIDATE: GO drops every TLB entry that the range, or ALL, names, and the accesses that used one are awaited; a write without GO
stores CTX and ALL; GO while BUSY, and a write for a context of another function, are ignored. -/
def Claims.Invalidates : Prop :=
  ∀ (s : State) func (v : Word),
    let w1 := fun (ctx : Nat) => readNat s (s.ctxbase.toNat + 64 * ctx + 8) 8
    let owns := fun (ctx : Nat) => w1 ctx / 2 ^ 17 % 64 = func
    let mayNot := s.hostOk func = false ∨ (func ≠ 0 ∧ ¬ owns (v.toNat % 2 ^ 16))
    let busy := bitAt (s.func func).invctl 30 = true
    let put := fun (busy : Bool) => (v &&& 0x1ffff) ||| (if busy then 0x40000000 else 0)
    let hit := fun (ctx page size : Nat) =>
      if bitAt v 16 = true then owns ctx
      else ctx = v.toNat % 2 ^ 16 ∧
        let first := (s.func func).invva.toNat / 4096 % 2 ^ 45
        page < first + (s.func func).invcnt.toNat ∧ first < page + 2 ^ (size - 12)
    (mayNot → exec (.invalidate func v) s = .next s) ∧
    (¬ mayNot → func < s.funcs.length →
      (busy → bitAt v 31 = true → exec (.invalidate func v) s = .next s) ∧
      (bitAt v 31 = false → ∃ t : State, exec (.invalidate func v) s = .next t ∧ t = { s with funcs := t.funcs } ∧
        t.func func = { s.func func with invctl := put (bitAt (s.func func).invctl 30) }) ∧
      (¬ busy → bitAt v 31 = true → ∃ (t : State) (ids : List Nat), exec (.invalidate func v) s = .next t ∧
        t = { s with funcs := t.funcs, tlb := t.tlb } ∧ t.func func = { s.func func with invctl := put true, inv := some ids } ∧
        (∀ x, x ∈ t.tlb ↔ x ∈ s.tlb ∧ ¬ hit x.2.1 x.2.2.1 x.2.2.2.2) ∧ ∀ a ∈ s.inflight, (∃ p ∈ a.pages, hit p.1 p.2.1 p.2.2) → a.id ∈ ids))

/-- R435: INVALIDATE_DONE: BUSY reads 0 once every access that used a dropped entry has performed. -/
def Claims.InvalidationsEnd : Prop :=
  ∀ (s : State) func ids, (s.func func).inv = some ids → func < s.funcs.length →
    ((∃ a ∈ s.inflight, a.id ∈ ids) → exec (.invalidateDone func) s = .next s) ∧
    ((∀ a ∈ s.inflight, a.id ∉ ids) → ∃ t : State, exec (.invalidateDone func) s = .next t ∧ t = { s with funcs := t.funcs } ∧
      (t.func func).inv = none ∧ bitAt (t.func func).invctl 30 = false ∧ ∀ f, f ≠ func → t.func f = s.func f)

/-- What the byte at offset `off` of BAR 0 of a function is (R438, R439): no window, a window access that fails, or a byte of storage. -/
def hostByte (s : State) (func off : Nat) (need : Need) : Option (Option Nat) :=
  let r := ((s.func func).win.get ((off - 2 ^ 30) / 2 ^ 22)).toNat
  let va := r % 2 ^ 35 * 2 ^ 22 + off % 2 ^ 22
  let ctx := r / 2 ^ 46 % 2 ^ 16
  if off < 2 ^ 30 ∨ 2 ^ 31 ≤ off then none
  else some (
    if r / 2 ^ 63 = 0 then none
    else if r / 2 ^ 62 % 2 = 1 then (if va < 248000000000 then some va else none)
    else if s.ctxOk ctx func = false then none
    else match s.reach none ctx va need false with
      | .error _ => none
      | .ok x => if (s.remoteBad x.key).isNone then some x.key else none)

/-- No write of the host is still to perform. -/
def HostIdle (s : State) : Prop := ∀ a ∈ s.inflight, a.host = none

/-- R345, R437, R439: HOST_WINDOW_READ answers the bytes that the windows reach; a byte that fails reads 0xff and a record says so; no window, or a
function that does not answer, reads 0. Below the windows it answers registers. A write of the host that may still perform does so before a read, an
AtomicOp or a write without Relaxed Ordering, and the read finds it done (R345). -/
def Claims.HostReads : Prop :=
  ∀ (s : State) func (off : DWord) n,
    (off.toNat < 2 ^ 30 → exec (.hostWindowRead func off n) s = .next { s with answers := s.answers ++ [s.regBytes 0 func off.toNat n] }) ∧
    (2 ^ 30 ≤ off.toNat → s.hostOk func = false → exec (.hostWindowRead func off n) s = .next { s with answers := s.answers ++ [List.replicate n 0] }) ∧
    (2 ^ 30 ≤ off.toNat → s.hostOk func = true → HostIdle s → ∃ (t : State) (bs : List Byte), exec (.hostWindowRead func off n) s = .next t ∧
      t.answers = s.answers ++ [bs] ∧
      bs.length = n ∧ KeepsWaves s t ∧ (∀ i < n, bs[i]? = some (match hostByte s func (off.toNat + i) .rd with
        | none => 0 | some none => 0xff | some (some k) => s.mem.get k)) ∧
      ((∀ i < n, hostByte s func (off.toNat + i) .rd ≠ some none) → OnlyCaches s { t with answers := s.answers }) ∧
      ((∃ i < n, hostByte s func (off.toNat + i) .rd = some none) → (∀ r ∈ s.rids, r.pg = false) →
        ∃ r, r ∈ t.rids ∧ (∀ x ∈ s.rids, x.rid ≠ r.rid) ∧ r.func = func ∧ r.parks = false) ∧
      ∀ k, k < 2 ^ 58 → t.mem.get k = s.mem.get k) ∧
    ∀ a p f, s.inflight = [a] → a.pieces = [p] → a.host = some f → a.kind = .store → a.acq = false → p.addr + p.n ≤ 2 ^ 45 → s.poison = [] →
      Plain s p.addr p.n → s.hostOk func = true →
      (2 ^ 30 ≤ off.toNat → ∀ r va, (s.func func).win.get ((off.toNat - 2 ^ 30) / 2 ^ 22) = r → r.toNat / 2 ^ 62 = 3 → va = r.toNat % 2 ^ 35 * 2 ^ 22 + off.toNat % 2 ^ 22 →
        off.toNat < 2 ^ 31 → off.toNat % 2 ^ 22 + n ≤ 2 ^ 22 → va + n ≤ 248000000000 → ∃ t : State, exec (.hostWindowRead func off n) s = .next t ∧ t.inflight = [] ∧
          WritesBytes s t p.addr p.n p.x.toNat ∧ t.answers = s.answers ++ [(List.range n).map fun i => t.mem.get (va + i)]) ∧
      (∀ data, ∃ t, exec (.hostWindowWrite func off data false) s = .next t ∧ t.inflight = []) ∧
      ∀ op x y, n = 4 ∨ n = 8 → off.toNat % n = 0 → ∃ t, exec (.hostAtomic func off op n x y) s = .next t ∧ t.inflight = []

/-- Pool control blocks and headers of enabled traces lie apart from the tables of queues and events. -/
def TablesApart (s : State) : Prop :=
  let a := s.qtbase.toNat
  (∀ b ∈ s.pools, b + 33 ≤ a ∨ a + 0x100300 ≤ b) ∧
  ∀ x ∈ s.cores, bitAt (x.dreg 0x200) 63 = true → field (x.dreg 0x210) 0 57 + 24 ≤ a ∨ a + 0x100300 ≤ field (x.dreg 0x210) 0 57

/-- R8, R345, R360, R389, R402, R439, R456: HOST_WINDOW_WRITE writes the bytes that the windows reach, in order, and drops the others with a record.
HEAD and TAIL of a queue entry, USED of a pool control block and WCNT and LOST of an enabled trace stay; an entry that the write enables loses its ERR;
OVF of an event entry and DEGRADED of a pool are cleared by a 1 and set by none. With Relaxed Ordering the bytes are in flight, with nothing before or
behind them, and an invalidation of their page awaits them (R435). That the fields of such structures follow their access codes whoever writes them, and
from when on a pool's block is one, is the model's choice (log 43). -/
def Claims.HostWrites : Prop :=
  ∀ (s : State) func (off : DWord) (data : List Byte) ro,
    (s.hostOk func = false → exec (.hostWindowWrite func off data ro) s = .next s) ∧
    (s.hostOk func = true → s.poison = [] → s.qtbase.toNat < 2 ^ 57 →
      let at' := fun i => hostByte s func (off.toNat + i) .wr
      (HostIdle s ∨ ro = true) → ∃ t, exec (.hostWindowWrite func off data ro) s = .next t ∧ KeepsWaves s t ∧
        (ro = false → ∀ k, k < 2 ^ 58 →
          ((∀ i < data.length, at' i ≠ some (some k)) → t.mem.get k = s.mem.get k) ∧
          ∀ i b, Plain s k 1 → data[i]? = some b → at' i = some (some k) → (∀ j, i < j → j < data.length → at' j ≠ some (some k)) → t.mem.get k = b) ∧
        (ro = true → (∀ k, k < 2 ^ 58 → t.mem.get k = s.mem.get k) ∧ ((∀ i < data.length, ∀ k, at' i ≠ some (some k)) → t.inflight = s.inflight) ∧
          ((∃ i < data.length, ∃ k, at' i = some (some k)) → (∀ x ∈ s.tlb, 12 ≤ x.2.2.2.2) → off.toNat % 4096 + data.length ≤ 4096 →
            ∃ a, t.inflight = s.inflight ++ [a] ∧ a.host = some func ∧ a.kind = .store ∧
              (let r := ((s.func func).win.get ((off.toNat - 2 ^ 30) / 2 ^ 22)).toNat
               r / 2 ^ 62 % 2 = 0 → ∃ p ∈ a.pages, p.1 = r / 2 ^ 46 % 2 ^ 16 ∧ p.2.1 * 4096 ≤ r % 2 ^ 35 * 2 ^ 22 + off.toNat % 2 ^ 22 ∧
                r % 2 ^ 35 * 2 ^ 22 + off.toNat % 2 ^ 22 < p.2.1 * 4096 + 2 ^ p.2.2) ∧ ∀ (i : Nat) b k, data[i]? = some b → at' i = some (some k) →
              ∃ p ∈ a.pieces, p.addr ≤ k ∧ k < p.addr + p.n ∧ p.x.toNat / 256 ^ (k - p.addr) % 256 = b.toNat)) ∧
        ((∃ i < data.length, at' i = some none) → (∀ r ∈ s.rids, r.pg = false) →
          ∃ r, r ∈ t.rids ∧ (∀ x ∈ s.rids, x.rid ≠ r.rid) ∧ r.func = func ∧ r.parks = false) ∧
        (∀ b ∈ s.pools, b + 33 ≤ 2 ^ 58 → (∀ j, b + 24 ≤ j → j < b + 32 → t.mem.get j = s.mem.get j) ∧
          (ro = false → s.fixedByte (b + 32) = false → ∀ i x, data[i]? = some x → at' i = some (some (b + 32)) →
            (∀ j, i < j → j < data.length → at' j ≠ some (some (b + 32))) →
            (t.mem.get (b + 32)).getLsbD 0 = ((s.mem.get (b + 32)).getLsbD 0 && !x.getLsbD 0))) ∧
        (∀ x ∈ s.cores, bitAt (x.dreg 0x200) 63 = true →
          let h := field (x.dreg 0x210) 0 57
          ∀ j, (h ≤ j ∧ j < h + 8) ∨ (h + 16 ≤ j ∧ j < h + 24) → t.mem.get j = s.mem.get j) ∧
        (∀ q < 32768, TablesApart s → t.queueWord q 1 = s.queueWord q 1 ∧
          (ro = false → bitAt (s.queueWord q 2) 0 = false → bitAt (t.queueWord q 2) 0 = true → bitAt (t.queueWord q 2) 1 = false)) ∧
        (ro = false → TablesApart s → ∀ n < 16, ∀ i b, data[i]? = some b → at' i = some (some (s.qtbase.toNat + 0x100207 + 16 * n)) →
          (∀ j, i < j → j < data.length → at' j ≠ some (some (s.qtbase.toNat + 0x100207 + 16 * n))) →
          (t.mem.get (s.qtbase.toNat + 0x100207 + 16 * n)).getLsbD 6 = ((s.mem.get (s.qtbase.toNat + 0x100207 + 16 * n)).getLsbD 6 && !b.getLsbD 6))) ∧
    ∃ t, exec (.hostWindowWrite func off data ro) s = .next t

/-- R216, R437, R477: HOST_ATOMIC answers the old value and writes the result of FetchAdd, Swap or CAS; where it cannot reach, and of a poisoned unit,
all ones. -/
def Claims.HostAtomics : Prop :=
  ∀ (s : State) func (off : DWord) op n (x y : DWord), n = 4 ∨ n = 8 → off.toNat % n = 0 → s.hostOk func = true → HostIdle s →
    match hostByte s func off.toNat .both with
    | none => exec (.hostAtomic func off op n x y) s = .next { s with answers := s.answers ++ [List.replicate n 0] }
    | some none => ∃ t, exec (.hostAtomic func off op n x y) s = .next t ∧ t.answers = s.answers ++ [List.replicate n 0xff] ∧ KeepsWaves s t ∧
        ∀ k, k < 2 ^ 58 → t.mem.get k = s.mem.get k
    | some (some k) => (unitOf k ∈ s.poison → exec (.hostAtomic func off op n x y) s = .next { s with answers := s.answers ++ [List.replicate n 0xff] }) ∧
      (s.poison = [] → ∃ (t : State) (bs : List Byte), exec (.hostAtomic func off op n x y) s = .next t ∧ KeepsWaves s t ∧ t.answers = s.answers ++ [bs] ∧
        ofBytes bs = readNat s k n ∧ bs.length = n ∧
        let m := 2 ^ (8 * n)
        Plain s k n → WritesBytes s t k n (match op with
          | .fetchAdd => (readNat s k n + x.toNat) % m
          | .swap => x.toNat % m
          | .cas => if readNat s k n = y.toNat % m then x.toNat % m else readNat s k n))

/-- R436: FBHEAD_WRITE stores the consumed count, and waiting records are written in order while the buffer has room. -/
def Claims.FaultBufferDrains : Prop :=
  ∀ (s : State) func (v : Word), s.hostOk func = true → func < s.funcs.length →
    ∃ t k, exec (.fbheadWrite func v) s = .next t ∧ KeepsWaves s t ∧ (t.func func).fbhead = v ∧ (t.func func).fbwait = (s.func func).fbwait.drop k ∧
      k ≤ (s.func func).fbwait.length ∧ (t.func func).fbtail = (s.func func).fbtail + BitVec.ofNat 32 k ∧
      (let vec := (s.func func).fbctl.toNat / 2 ^ 16 % 2 ^ 11
       if bitAt ((s.func func).msix.get (2 * vec + 1)) 32 = true then t.msi = s.msi ++ List.replicate k (func, vec)
       else t.msi = s.msi ∧ (0 < k → bitAt ((t.func func).pba.get (vec / 64)) (vec % 64) = true)) ∧
      ((t.func func).fbwait = [] ∨ 2 ^ ((s.func func).fbctl.toNat % 16) ≤ ((t.func func).fbtail - v).toNat)

/-- R440: FUNCTION_LEVEL_RESET of a virtual function: none of its groups is left, its windows, fault-buffer registers and counters are 0, its TLB
entries and records are gone, its queues are disabled; of the physical function it does nothing here.
Cases that the rule leaves out are readings (log 30). -/
def Claims.FunctionsReset : Prop :=
  ∀ (s : State) func,
    (func = 0 ∨ s.hostOk func = false → exec (.functionLevelReset func) s = .next s) ∧
    (func ≠ 0 → s.hostOk func = true → func < s.funcs.length → ∃ t, exec (.functionLevelReset func) s = .next t ∧
      (∀ g ∈ t.groups, s.ctxFunc g.ctx ≠ func) ∧ (Ids s → ∀ g ∈ s.groups, s.ctxFunc g.ctx ≠ func → ∃ g' ∈ t.groups, g'.gid = g.gid) ∧
      (let f := t.func func
       f.win = [] ∧ f.fbbase = 0 ∧ f.fbctl = 0 ∧ f.fbtail = 0 ∧ f.fbhead = 0 ∧ f.fbwait = [] ∧ f.ctr = [] ∧ f.staged = [] ∧ f.frz = false) ∧
      (∀ f, f ≠ func → (t.func f).win = (s.func f).win ∧ (t.func f).fbbase = (s.func f).fbbase ∧ (t.func f).fbctl = (s.func f).fbctl) ∧
      (∀ x ∈ t.tlb, s.ctxFunc x.2.1 ≠ func) ∧ (∀ r ∈ t.rids, r.func ≠ func) ∧
      (s.poison = [] → (∀ g ∈ s.groups, s.ctxFunc g.ctx ≠ func) → (∀ l ∈ s.taken, l.func ≠ func) → ∀ q < 32768, bitAt (s.queueWord q 2) 0 = true →
        (s.queueWord q 2).toNat / 2 ^ 10 % 64 = func → bitAt (t.queueWord q 2) 0 = false))

/-- R443, R445, R470, R477: REMOTE_REQUEST: a load, a store or an atomic of another module performs here, a VARED without an answer; an address without
memory is turned away with SUB 0x82, which answers all ones, or drops the write, and so does an atomic on a poisoned unit. In the safe state none
performs. That a DISC leaves zeros or the bytes as they are, and that 0x82 is the SUB, are the model's choices (log 38). -/
def Claims.RemoteRequests : Prop :=
  (∀ (s : State) r, s.boot.state = 0x80 → (∀ a sub, r ≠ .refuse a sub) → (∀ node, r ≠ .answers node) → (∀ a bs, r ≠ .elsewhere a bs) →
    exec (.remoteRequest r) s = .next s) ∧
  ∀ (s : State), s.boot.state ≠ 0x80 →
    let turned := fun (a : Nat) (bs : List (List Byte)) => .next { s with turned := s.turned ++ [(a, 0x82)], answers := s.answers ++ bs }
    (∀ a n, let k := a % 2 ^ 45
      (248000000000 ≤ k → exec (.remoteRequest (.load a n)) s = turned a [List.replicate n 0xff]) ∧
      (k < 248000000000 → ∃ t, exec (.remoteRequest (.load a n)) s = .next t ∧ OnlyCaches s { t with answers := s.answers } ∧
        t.answers = s.answers ++ [s.mem.getList k n])) ∧
    (∀ a bs, let k := a % 2 ^ 45
      (248000000000 ≤ k → exec (.remoteRequest (.store a bs)) s = turned a []) ∧
      (k < 248000000000 → s.poison = [] → Plain s k bs.length → ∃ t, exec (.remoteRequest (.store a bs)) s = .next t ∧ KeepsWaves s t ∧ t.answers = s.answers ∧
        (∀ i b, bs[i]? = some b → t.mem.get (k + i) = b) ∧ ∀ j, (j < k ∨ k + bs.length ≤ j) → t.mem.get j = s.mem.get j)) ∧
    (∀ a n op ty (x y : DWord) v, let k := a % 2 ^ 45
      let old := readNat s k n
      (248000000000 ≤ k → exec (.remoteRequest (.atomic a n op ty x y)) s = turned a [List.replicate n 0xff]) ∧
      (k < 248000000000 → unitOf k ∈ s.poison →
        exec (.remoteRequest (.atomic a n op ty x y)) s = .next { s with answers := s.answers ++ [List.replicate n 0xff] }) ∧
      (k < 248000000000 → s.poison = [] → Plain s k n → atomNew op ((Ty.ofCode (BitVec.ofNat 5 ty)).getD .i32) old x.toNat y.toNat = v →
      ∃ (t : State) (bs : List Byte), exec (.remoteRequest (.atomic a n op ty x y)) s = .next t ∧ KeepsWaves s t ∧ t.answers = s.answers ++ [bs] ∧
        ofBytes bs = old ∧ WritesBytes s t k n ((v.getD old) % 2 ^ (8 * n)))) ∧
    (∀ a n op ty (x : DWord) v, let k := a % 2 ^ 45
      let old := readNat s k n
      (248000000000 ≤ k → exec (.remoteRequest (.reduce a n op ty x)) s = turned a []) ∧
      (k < 248000000000 → unitOf k ∈ s.poison → exec (.remoteRequest (.reduce a n op ty x)) s = .next s) ∧
      (k < 248000000000 → s.poison = [] → Plain s k n → atomNew op ((Ty.ofCode (BitVec.ofNat 5 ty)).getD .i32) old x.toNat 0 = v →
        ∃ t, exec (.remoteRequest (.reduce a n op ty x)) s = .next t ∧ KeepsWaves s t ∧ t.answers = s.answers ∧
          WritesBytes s t k n ((v.getD old) % 2 ^ (8 * n)))) ∧
    ∀ a n, let k := a % 2 ^ 45
      (248000000000 ≤ k → exec (.remoteRequest (.disc a n)) s = turned a []) ∧
      (k < 248000000000 → s.poison = [] → Plain s k n → ∃ t, exec (.remoteRequest (.disc a n)) s = .next t ∧ KeepsWaves s t ∧ t.answers = s.answers ∧ (∀ j, (j < k ∨ k + n ≤ j) → t.mem.get j = s.mem.get j) ∧
        ((∀ j, t.mem.get j = s.mem.get j) ∨ ∀ j, k ≤ j → j < k + n → t.mem.get j = 0))

/-- R234, R238, R443: a watch that another module asks for enters the directory of the line's slice, in exact form while fewer than 1,024 are there,
and leaves it; a write here to a line so watched sends its wake-up; a wake-up from another module sets TRIG of every armed slot on the line, one of a page
of every fallback slot on the page, and of no other. R345, R346, R444, R445: what happens on other modules comes as input: a page that its module
refuses, a node that answers again, a write at another home (log 38). -/
def Claims.RemoteWatches : Prop :=
  ∀ (s : State), s.boot.state ≠ 0x80 →
    (∀ node a, a % 2 ^ 45 < 248000000000 → let k := a % 2 ^ 45 / 128
      (∃ t page, exec (.remoteRequest (.watch node a true)) s = .next t ∧ t = { s with foreign := t.foreign } ∧ (node, k, page) ∈ t.foreign ∧
        (s.watches (homeSlice (128 * k)) < 1024 → page = false) ∧
        ∀ f, (f.1 = node ∧ f.2.1 = k) ∨ (f ∈ t.foreign ↔ f ∈ s.foreign)) ∧
      ∃ t, exec (.remoteRequest (.watch node a false)) s = .next t ∧ t = { s with foreign := t.foreign } ∧
        ∀ f, f ∈ t.foreign ↔ f ∈ s.foreign ∧ ¬ (f.1 = node ∧ f.2.1 = k)) ∧
    (∀ a bs f, a % 2 ^ 45 < 248000000000 → s.poison = [] → Plain s (a % 2 ^ 45) bs.length → bs ≠ [] → f ∈ s.foreign → f.2.1 = a % 2 ^ 45 / 128 →
      ∃ t, exec (.remoteRequest (.store a bs)) s = .next t ∧ (f.1, f.2.1) ∈ t.woken) ∧
    (∀ a page, ∃ t, exec (.remoteRequest (.wake a page)) s = .next t ∧ KeepsWaves s t ∧ t.mem = s.mem ∧ t.inflight = s.inflight ∧
      ∀ (w : Wave) (n : Nat) (m : Mon), DistinctWaves s → s.wave? w.wid = some w → w.mons[n]? = some m →
        let mine := m.armed = true ∧ ((page = false ∧ m.line / 128 = physKey s a / 128) ∨ (page = true ∧ m.fbk = true ∧ m.line / 4096 = physKey s a / 4096))
        ∃ (w' : Wave) (m' : Mon), t.wave? w.wid = some w' ∧ w'.mons[n]? = some m' ∧ (¬ mine → m' = m) ∧
          (mine → ((m.fbk = false ∨ m.last = none) → m'.trig = true) ∧ (m'.trig = true ∨ m'.held = true))) ∧
    (∀ a sub, let key := physKey s a
      (sub = 0x82 ∨ sub = 0x83 → isRemoteKey key = true → ∃ t : State, exec (.remoteRequest (.refuse a sub)) s = .next t ∧ t = { s with refused := t.refused } ∧
        ∀ k, k / 4096 = key / 4096 → s.remoteBad k = none → t.remoteBad k = some sub) ∧
      (isRemoteKey key = true → ∃ t : State, exec (.remoteRequest (.refuse a 0)) s = .next t ∧ t = { s with refused := t.refused } ∧
        ∀ k, k / 4096 = key / 4096 → ∀ b, s.remoteBad k = some b → k % 2 ^ 45 < 248000000000 → b ≠ 0x80 → b ≠ 0x81 → t.remoteBad k = none) ∧
      (isRemoteKey key = false ∨ (sub ≠ 0x82 ∧ sub ≠ 0x83 ∧ sub ≠ 0) → exec (.remoteRequest (.refuse a sub)) s = .next s)) ∧
    (∀ node, exec (.remoteRequest (.answers node)) s = .next { s with silent := s.silent.filter (· ≠ node) }) ∧
    ∀ a bs, let key := physKey s a
      (key < 2 ^ 58 → exec (.remoteRequest (.elsewhere a bs)) s = .next s) ∧
      (2 ^ 58 ≤ key → ∃ t : State, exec (.remoteRequest (.elsewhere a bs)) s = .next t ∧ t = { s with mem := t.mem } ∧
        (∀ i b, bs[i]? = some b → t.mem.get (key + i) = b) ∧ ∀ j, (j < key ∨ key + bs.length ≤ j) → t.mem.get j = s.mem.get j)

/-- R444, R445: FABRIC_TIMEOUT: no request waits for the node any more; a load from it has all ones for its register, and a record says so, with PERM
and SUB 0x80. That later requests find the node unreachable until it answers again is the model's choice (log 38). -/
def Claims.NodesTimeOut : Prop :=
  ∀ (s : State) node, ∃ t, exec (.fabricTimeout node) s = .next t ∧ (∀ a ∈ t.inflight, ∀ p ∈ a.pieces, p.toNode node = false) ∧
    (∀ k, isRemoteKey k = true → keyNode k = node → t.remoteBad k = some 0x80 ∨ t.remoteBad k = some 0x81) ∧
    ∀ a p id w x sx, s.inflight = [a] → a.pieces = [p] → p.toNode node = true → a.kind = .load sx → a.scalar = false → a.pend = some id → p.n ≠ 8 →
      a.host = none → DistinctWaves s → s.wave? a.wid = some w → x ∈ w.pend → x.id = id → s.cbars = [] → (∀ g ∈ s.groups, g.bars = []) →
      (∃ w' x', t.wave? a.wid = some w' ∧ x' ∈ w'.pend ∧ x'.id = id ∧ x'.vres = x.vres ++ [(64 * p.reg + p.lane, 0xffffffff)]) ∧
      let ctx := ((s.group? w.gid).map (·.ctx)).getD 0
      let f := s.func (s.ctxFunc ctx)
      ∃ n, t.rids = s.rids ++ [n] ∧ (∀ r ∈ s.rids, r.rid ≠ n.rid) ∧ n.func = s.ctxFunc ctx ∧ n.parks = false ∧
        (f.fbwait = [] → (f.fbtail - f.fbhead).toNat < 2 ^ field f.fbctl 0 4 → s.poison = [] → s.ctxFunc ctx < s.funcs.length →
          let words := [0, 1].map fun k => t.rd64 (hostKey (f.fbbase.toNat + 32 * (f.fbtail.toNat % 2 ^ field f.fbctl 0 4)) + 8 * k)
          words = [place 64 ctx 48 ||| place 64 (s.core w.core).phys 40 ||| place 64 0x05 32 ||| place 64 0x80 24 ||| BitVec.ofNat 64 n.rid,
                   BitVec.ofNat 64 (p.va % 2 ^ 57)])

/-- R447, R470: HALT_NOTICE_RECEIVE: with RECV the NBASE line gets the node, whether it is a halt, and the sender's CLK; without it, and in the safe
state, nothing happens. -/
def Claims.NoticesArrive : Prop :=
  ∀ (s : State) node on (v : DWord),
    let k := s.notice.toNat % 2 ^ 56 / 128 * 128
    (bitAt s.notice 62 = false ∨ s.boot.state = 0x80 → exec (.haltNoticeReceive node on v) s = .next s) ∧
    (bitAt s.notice 62 = true → s.boot.state ≠ 0x80 → s.poison = [] → Plain s k 16 → ∃ t, exec (.haltNoticeReceive node on v) s = .next t ∧ KeepsWaves s t ∧
      readNat t k 8 = node % 2 ^ 11 + (if on then 2 ^ 16 else 0) ∧ readNat t (k + 8) 8 = v.toNat ∧
        ∀ j, (j < k ∨ k + 16 ≤ j) → t.mem.get j = s.mem.get j)

/-- R319: PAGE_UNPIN: the slices hold no line of the page any more, no core owns one that they held, and no value changes. -/
def Claims.PagesUnpin : Prop :=
  ∀ (s : State) page, ∃ t : State, exec (.pageUnpin page) s = .next t ∧ OnlyCaches s t ∧ (∀ r ∈ t.lines, r.line / 32 = page → r.tag = none) ∧
    ∀ r, r.line / 32 ≠ page → (r ∈ t.lines ↔ r ∈ s.lines)

/-- A register of BAR 0, 2 or 4 that a write only stores into (R437, R438, R448, R487, R494): offset, whether it is the physical function's,
and the state afterwards. -/
def plainRegister (s : State) (bar func : Nat) (v : DWord) : Nat → Option (Bool × State) := fun o =>
  let x := v.toNat
  let page := BitVec.ofNat 64 (x / 4096 * 4096)
  let f := fun (g : Func → Func) => some (false, s.updFunc func g)
  if bar = 0 then
    if 0x10000 ≤ o ∧ o < 0x10800 then
      f fun y => { y with win := y.win.set ((o - 0x10000) / 8) (v &&& (if func = 0 then 0xffffc007ffffffff else 0xbfffc007ffffffff)) }
    else match o with
      | 0x08 => some (true, { s with nodeid := BitVec.ofNat 11 x })
      | 0x10 => some (true, { s with qtbase := page })
      | 0x18 => some (true, { s with ctxbase := page })
      | 0x20 => some (true, { s with astbase := page })
      | 0x40 => f fun y => { y with fbbase := page }
      | 0x48 => f fun y => { y with fbctl := BitVec.ofNat 32 (x % 2 ^ 4 + x / 2 ^ 16 % 2 ^ 11 * 2 ^ 16) }
      | 0x88 => f fun y => { y with invva := BitVec.ofNat 64 (x % 2 ^ 57 / 4096 * 4096) }
      | 0x90 => f fun y => { y with invcnt := BitVec.ofNat 32 x }
      | 0xc8 => f fun y => { y with klctx := BitVec.ofNat 32 (x % 2 ^ 16) }
      | 0x100 => some (true, { s with notice := BitVec.ofNat 64 (x / 2 ^ 62 * 2 ^ 62 + x % 2 ^ 56 / 128 * 128) })
      | _ => none
  else if bar = 2 then
    if o < 0x8000 ∧ o % 16 = 0 ∧ bitAt ((s.func func).pba.get (o / 1024)) (o / 16 % 64) = false then f fun y => { y with msix := y.msix.set (o / 8) v }
    else if o = 0x1c000 then some (true, { s with energy := { s.energy with wlen := BitVec.ofNat 10 (max 1 (x % 2 ^ 10)) } })
    else if o = 0x1c010 then some (true, { s with energy := { s.energy with mbud := BitVec.ofNat 32 x } })
    else none
  else if bar = 4 then
    let core := o / 4096
    let put := fun (y : Nat) => some (true, s.updCore core fun c => c.setDreg (o % 4096) (BitVec.ofNat 64 y))
    if 0x40000 ≤ o then none
    else match o % 4096 with
      | 0x208 => put (x % 2 ^ 57)
      | 0x210 => put (x % 2 ^ 57)
      | 0x308 => put (x / 2 ^ 32 % 2 ^ 17 * 2 ^ 32 + x % 2 ^ 17)
      | _ => none
  else none

/-- R437, R485: a write of the second word of a vector in the MSI-X table stores its data and its mask bit; a vector that is pending goes out when the
write unmasks it. That the mask is bit 32 of the word, which is kept inverted, is the model's reading of the table (log 50). -/
def Claims.VectorsUnmask : Prop :=
  ∀ (s : State) func n (v : DWord), s.hostOk func = true → func < s.funcs.length → n < 2048 →
    let pending := fun (u : State) => bitAt ((u.func func).pba.get (n / 64)) (n % 64)
    ∃ t : State, exec (.registerWrite 2 func (BitVec.ofNat 64 (16 * n + 8)) v) s = .next t ∧ t = { s with funcs := t.funcs, msi := t.msi } ∧
      (∀ f, f ≠ func → t.func f = s.func f) ∧ (∀ i, i ≠ 2 * n + 1 → (t.func func).msix.get i = (s.func func).msix.get i) ∧
      (t.func func).msix.get (2 * n + 1) = BitVec.ofNat 64 (v.toNat % 2 ^ 32 + if bitAt v 32 = true then 0 else 2 ^ 32) ∧
      (bitAt v 32 = false → pending s = true → t.msi = s.msi ++ [(func, n)] ∧ pending t = false) ∧
      (bitAt v 32 = true ∨ pending s = false → t.msi = s.msi ∧ (t.func func).pba = (s.func func).pba)

/-- R486, R490: a write of CFG in a bank that is not frozen stores the counter's event, panels and enables, after every count that was staged before has
reached the bank as it stood. -/
def Claims.CountersConfigure : Prop :=
  ∀ (s : State) func n (v : DWord), s.hostOk func = true → func < s.funcs.length → n < 8 → (s.func func).frz = false →
    let cfg := fun (u : State) => (u.func func).ctr.get (4 * n)
    let count := fun (u : State) => ((u.func func).ctr.get (4 * n + 1)).toNat % 2 ^ 48
    ∃ t : State, exec (.registerWrite 2 func (BitVec.ofNat 64 (0x10000 + 32 * n)) v) s = .next t ∧ KeepsWaves s t ∧ (t.func func).staged = [] ∧
      (cfg t).toNat / 2 ^ 61 = v.toNat / 2 ^ 61 ∧ (cfg t).toNat / 2 ^ 16 % 2 ^ 4 = v.toNat / 2 ^ 16 % 2 ^ 4 ∧
      (cfg t).toNat % 2 ^ 16 = (if v.toNat % 2 ^ 16 ∈ [1, 2, 3, 4, 5, 6, 7, 8, 9, 10, 11, 12, 13, 14, 15, 0x11, 0x20, 0x21, 0x22, 0x30] then v.toNat % 2 ^ 16 else 0) ∧
      ∀ c : Nat × DWord → Bool, (∀ x, c x = true ↔ (cfg s).toNat / 2 ^ 63 = 1 ∧ x.1 / 4 ≠ 0 ∧ (cfg s).toNat % 2 ^ 16 = x.1 / 4 ∧
          ((cfg s).toNat / 2 ^ 16 % 16 = 0 ∨ (cfg s).toNat.testBit (16 + x.1 % 4) = true)) →
        count t = (count s + (((s.func func).staged.filter c).map fun x => x.2.toNat).foldl (· + ·) 0) % 2 ^ 48

/-- R8, R9, R437: REGISTER_WRITE goes to the register at the offset: it stores the register's fields, or is the operation that the register stands
for. A virtual function's write to a row of the physical function, an offset that no register has, and a function that does not answer change nothing. -/
def Claims.RegistersWrite : Prop :=
  ∀ (s : State) bar func (off v : DWord),
    let o := off.toNat
    let w := exec (.registerWrite bar func off v) s
    (o % 8 ≠ 0 ∨ (s.hostOk func = false ∧ (bar ≠ 0 ∨ o / 4096 ≠ 2)) → w = .next s) ∧
    (s.hostOk func = true → o % 8 = 0 →
      (∀ pf t, plainRegister s bar func v o = some (pf, t) → w = .next (if pf = true ∧ func ≠ 0 then s else t)) ∧
      (bar = 0 → o = 0x58 → w = exec (.fbheadWrite func (BitVec.ofNat 32 v.toNat)) s) ∧
      (bar = 0 → o = 0x60 → w = exec (.resolve func (BitVec.ofNat 32 v.toNat)) s) ∧
      (bar = 0 → o = 0x80 → w = exec (.invalidate func (BitVec.ofNat 32 v.toNat)) s) ∧
      (bar = 0 → o = 0xc0 → w = exec (.preemptRequest func v) s) ∧
      (bar = 0 → o = 0xd0 → w = exec (.kernelLoad func v) s) ∧
      (bar = 0 → 0x200000 ≤ o → o < 0x240000 → w = exec (.doorbell func ((o - 0x200000) / 8) (BitVec.ofNat 32 v.toNat)) s) ∧
      (bar = 0 → 2 ^ 30 ≤ o → w = exec (.hostWindowWrite func off (toBytes 8 v.toNat) false) s) ∧
      (bar = 0 → o / 4096 = 2 → func ≠ 0 → w = .next s) ∧
      (bar = 4 → func ≠ 0 → w = .next s) ∧
      (∀ c, bar = 4 → func = 0 → o = 4096 * c → c < 64 → bitAt v 1 = false → w = if bitAt v 0 = true then exec (.halt c) s else .next s) ∧
      (∀ c, bar = 4 → func = 0 → o = 4096 * c → c < 64 → bitAt v 1 = true → bitAt v 0 = false → w = exec (.resume c) s) ∧
      (∀ c, bar = 4 → func = 0 → o = 4096 * c + 0x200 → c < 64 → w = exec (.traceEnable c v) s) ∧
      (∀ c, bar = 4 → func = 0 → o = 4096 * c + 0x300 → c < 64 → w = exec (.causalTrialStart c v) s) ∧
      (∀ f, bar = 2 → func = 0 → f < 64 → o = 0x12000 + 0x200 * f + 0x100 → bitAt v 0 = true → (s.func f).frz = false → w = exec (.counterFreeze f) s) ∧
      (bar ≠ 0 → bar ≠ 2 → bar ≠ 4 → w = .next s))

/-- R434, R435: PAGE_WALK_COMPLETE, INVALIDATE and INVALIDATE_DONE complete: a leaf that the walk finds is in the TLB of a core; a GO that names a context's
range leaves no entry of it, with BUSY; and BUSY goes when nothing awaited is in flight. -/
def Claims.TranslationCompletes : Prop :=
  (∀ (s : State) ctx va leaf size, s.walk ctx va = .ok (leaf, size) → ∃ (t : State) (core : Nat), core < 64 ∧ exec (.pageWalkComplete ctx va) s = .next t ∧
    OnlyCaches s { t with tlb := s.tlb } ∧ (core, ctx, va / 2 ^ size * 2 ^ (size - 12), leaf, size) ∈ t.tlb) ∧
  (∀ (s : State) (v : Word), s.hostOk 0 = true → 0 < s.funcs.length → bitAt (s.func 0).invctl 30 = false → bitAt v 31 = true → bitAt v 16 = false →
    let first := (s.func 0).invva.toNat / 4096 % 2 ^ 45
    ∃ t : State, exec (.invalidate 0 v) s = .next t ∧ t = { s with funcs := t.funcs, tlb := t.tlb } ∧ bitAt (t.func 0).invctl 30 = true ∧
      ∀ x ∈ t.tlb, x.2.1 = v.toNat % 2 ^ 16 → ¬ (x.2.2.1 < first + (s.func 0).invcnt.toNat ∧ first < x.2.2.1 + 2 ^ (x.2.2.2.2 - 12))) ∧
  ∀ (s : State) func ids, (s.func func).inv = some ids → func < s.funcs.length → (∀ a ∈ s.inflight, a.id ∉ ids) →
    ∃ t : State, exec (.invalidateDone func) s = .next t ∧ t = { s with funcs := t.funcs } ∧ bitAt (t.func func).invctl 30 = false

/-- R345, R437, R439: HOST_WINDOW_READ, HOST_WINDOW_WRITE, HOST_ATOMIC and REGISTER_WRITE complete: a read whose bytes all can be reached answers them, a write
of which the same holds outside structures with access codes has written them, FetchAdd has added and answered the old value; a plain register is stored. -/
def Claims.HostAccessesComplete : Prop :=
  (∀ (s : State) func (off : DWord) n (k : Nat → Nat), 2 ^ 30 ≤ off.toNat → s.hostOk func = true → HostIdle s →
    (∀ i < n, hostByte s func (off.toNat + i) .rd = some (some (k i))) →
    ∃ t : State, exec (.hostWindowRead func off n) s = .next t ∧ t.answers = s.answers ++ [(List.range n).map fun i => s.mem.get (k i)]) ∧
  (∀ (s : State) func (off : DWord) (data : List Byte) k, s.hostOk func = true → HostIdle s → s.poison = [] → s.qtbase.toNat < 2 ^ 57 → k + data.length ≤ 2 ^ 58 →
    (∀ i < data.length, hostByte s func (off.toNat + i) .wr = some (some (k + i)) ∧ Plain s (k + i) 1) →
    ∃ t : State, exec (.hostWindowWrite func off data false) s = .next t ∧ ∀ (i : Nat) b, data[i]? = some b → t.mem.get (k + i) = b) ∧
  (∀ (s : State) func (off : DWord) n (x y : DWord) k, n = 4 ∨ n = 8 → off.toNat % n = 0 → s.hostOk func = true → s.poison = [] → HostIdle s →
    hostByte s func off.toNat .both = some (some k) → Plain s k n →
    ∃ (t : State) (bs : List Byte), exec (.hostAtomic func off .fetchAdd n x y) s = .next t ∧ t.answers = s.answers ++ [bs] ∧ ofBytes bs = readNat s k n ∧
      readNat t k n = (readNat s k n + x.toNat) % 2 ^ (8 * n)) ∧
  ∀ (s t : State) bar func (off v : DWord) pf, s.hostOk func = true → off.toNat % 8 = 0 → plainRegister s bar func v off.toNat = some (pf, t) →
    (pf = true → func = 0) → exec (.registerWrite bar func off v) s = .next t

/-- R319, R436, R440, R443, R444, R447: FBHEAD_WRITE, FUNCTION_LEVEL_RESET, REMOTE_REQUEST, FABRIC_TIMEOUT, HALT_NOTICE_RECEIVE and PAGE_UNPIN complete. -/
def Claims.FabricStepsComplete : Prop :=
  (∀ (s : State) func (v : Word), s.hostOk func = true → func < s.funcs.length → ∃ t : State, exec (.fbheadWrite func v) s = .next t ∧ (t.func func).fbhead = v) ∧
  (∀ (s : State) func, func ≠ 0 → s.hostOk func = true → func < s.funcs.length → ∃ t : State, exec (.functionLevelReset func) s = .next t ∧
    (t.func func).win = [] ∧ (t.func func).fbctl = 0 ∧ ∀ g ∈ t.groups, s.ctxFunc g.ctx ≠ func) ∧
  (∀ (s : State) a n, s.boot.state ≠ 0x80 → a % 2 ^ 45 < 248000000000 → ∃ t : State, exec (.remoteRequest (.load a n)) s = .next t ∧
    t.answers = s.answers ++ [s.mem.getList (a % 2 ^ 45) n]) ∧
  (∀ (s : State) a bs, s.boot.state ≠ 0x80 → a % 2 ^ 45 < 248000000000 → s.poison = [] → Plain s (a % 2 ^ 45) bs.length → ∃ t : State, exec (.remoteRequest (.store a bs)) s = .next t ∧
    ∀ (i : Nat) b, bs[i]? = some b → t.mem.get (a % 2 ^ 45 + i) = b) ∧
  (∀ (s : State) node, ∃ t : State, exec (.fabricTimeout node) s = .next t ∧ ∀ a ∈ t.inflight, ∀ p ∈ a.pieces, p.toNode node = false) ∧
  (∀ (s : State) node on (v : DWord), bitAt s.notice 62 = true → s.boot.state ≠ 0x80 → s.poison = [] → Plain s (s.notice.toNat % 2 ^ 56 / 128 * 128) 16 →
    ∃ t : State, exec (.haltNoticeReceive node on v) s = .next t ∧
    readNat t (s.notice.toNat % 2 ^ 56 / 128 * 128) 8 = node % 2 ^ 11 + (if on then 2 ^ 16 else 0)) ∧
  ∀ (s : State) page, ∃ t : State, exec (.pageUnpin page) s = .next t ∧ ∀ r ∈ t.lines, r.line / 32 = page → r.tag = none

end Sys2Proof

/-- Translation, the host's accesses and the span fabric (R319, R345, R416, R430 to R447, R485).
The storage keys (log 11), the inputs that bring these events (log 3), the alignment of a host's AtomicOps (log 16), the place of a context's entry in its
table (log 12), the SUB of a refusal, what a remote DISC leaves and how long a node counts as unreachable (log 38), the access codes of structures in
memory (log 43), what resets leave (log 30) and the mask bits of vectors (log 50) are the model's. -/
def Obligations.HostAndFabric : Prop :=
  Claims.PageWalks ∧ Claims.AddressesTranslate ∧ Claims.Invalidates ∧ Claims.InvalidationsEnd ∧ Claims.HostReads ∧ Claims.HostWrites ∧
  Claims.HostAtomics ∧ Claims.Resolves ∧ Claims.VectorsUnmask ∧ Claims.FaultBufferDrains ∧ Claims.FunctionsReset ∧ Claims.RemoteRequests ∧ Claims.RemoteWatches ∧ Claims.NodesTimeOut ∧ Claims.NoticesArrive ∧
  Claims.PagesUnpin ∧ Claims.RegistersWrite

/-! ## Boot and reliability (R466 to R484) -/

namespace Sys2Proof

/-- A fault record that parks nothing has been made for a function (R436, R475). -/
def Reported (s t : State) (func : Nat) : Prop := ∃ r ∈ t.rids, (∀ x ∈ s.rids, x.rid ≠ r.rid) ∧ r.func = func ∧ r.parks = false

/-- The safe state (R470): no wave runs, virtual functions are off. -/
def Safe (s t : State) (stage : BitVec 8) : Prop :=
  t.boot.state = 0x80 ∧ t.boot.stage = stage ∧ t.boot.vfEnable = false ∧ t.mem = s.mem ∧ t.waves.length = s.waves.length ∧ ∀ w ∈ t.waves, w.dead = true

/-- R466: POWER_ON_RESET leaves the state of reset, but for flash, fuses and the world outside: no wave, group or launch, device memory as nothing has
written it (log 1), stage 0x01. -/
def Claims.PowerOnResets : Prop :=
  ∀ (s : State), ∃ t : State, exec .powerOnReset s = .next t ∧ t.waves = [] ∧ t.groups = [] ∧ t.taken = [] ∧ t.inflight = [] ∧ t.cores = resetCores ∧
    t.funcs = List.replicate 64 {} ∧ t.tlb = [] ∧ t.fds = [] ∧ t.routes = [] ∧ t.nodeid = 0 ∧ t.qtbase = 0 ∧ t.ctxbase = 0 ∧ t.astbase = 0 ∧ t.time = 0 ∧
    t.boot = { imageA := s.boot.imageA, imageB := s.boot.imageB, rollback := s.boot.rollback } ∧ t.inputs = s.inputs ∧ t.upsets = s.upsets ∧ t.fleet = s.fleet ∧
    (∀ k, k < 2 ^ 58 → t.mem.get k = 0) ∧ ∀ k, 2 ^ 58 ≤ k → t.mem.get k = s.mem.get k

/-- The module boots in a stage (R466). -/
def Booting (s : State) (stage : BitVec 8) : Prop := s.boot.state = 0x01 ∧ s.boot.stage = stage

/-- R466, R468, R470: the boot ROM's stage clears the measurements and goes on, or ends in the safe state; outside the stage nothing happens. -/
def Claims.BootRomEnds : Prop :=
  ∀ (s : State),
    (∀ ok, ¬ Booting s 1 → exec (.bootRomStageDone ok) s = .next s) ∧
    (Booting s 1 → (∃ t : State, exec (.bootRomStageDone true) s = .next t ∧
        t = { s with boot := { s.boot with stage := 0x02, meas0 := List.replicate 64 0, meas1 := List.replicate 64 0, locked0 := false } }) ∧
      ∃ t, exec (.bootRomStageDone false) s = .next t ∧ Safe s t 0x01)

/-- R467, R468: FIRMWARE_VERIFY takes slot A, or B where A does not verify, measures the image and what was accepted; with neither the safe state says
why; a register that is locked is not extended. An image that verifies has its magic, a signature of at most 1,280 B that is good for its digest, and a version that is not below the fused count. -/
def Claims.FirmwareVerifies : Prop :=
  (∀ im rb v d, checkImage im rb = .ok (v, d) →
    let word := fun (k : Nat) => ofBytes ((im.drop (4 * k)).take 4)
    64 + word 2 + word 3 ≤ im.length ∧ word 0 = 0x6c4e414c ∧ word 3 ≤ 1280 ∧ rb ≤ word 1 ∧ v = BitVec.ofNat 32 (word 1) ∧
      Config.falconVerify d ((im.drop (64 + word 2)).take (word 3)) = true ∧ d = (Config.shake256 (im.take (64 + word 2)) ++ List.replicate 64 0).take 64) ∧
  ∀ (s : State), (¬ Booting s 2 → exec .firmwareVerify s = .next s) ∧
    (Booting s 2 →
      let accepts := fun (letter : Byte) (v : Word) (d : List Byte) => ∃ t : State, exec .firmwareVerify s = .next t ∧
        t = { s with boot := { s.boot with stage := 0x03, letter, version := v, meas0 := if s.boot.locked0 = true then s.boot.meas0
                                           else extend (extend s.boot.meas0 d) (acceptRecord letter v s.boot.rollback) } }
      (∀ v d, checkImage s.boot.imageA s.boot.rollback = .ok (v, d) → accepts 0x41 v d) ∧
      (∀ e v d, checkImage s.boot.imageA s.boot.rollback = .error e → checkImage s.boot.imageB s.boot.rollback = .ok (v, d) → accepts 0x42 v d) ∧
      ∀ a b, checkImage s.boot.imageA s.boot.rollback = .error a → checkImage s.boot.imageB s.boot.rollback = .error b →
        ∃ t, exec .firmwareVerify s = .next t ∧ Safe s t 0x02 ∧ t.boot.fcode = 0x0201 ∧ t.boot.fdetail = BitVec.ofNat 32 (a + 2 ^ 16 * b))

/-- A defect that no spare absorbs, and the failure code of R469. -/
def unabsorbed : Defect → Option (Nat × Nat)
  | .sram m false => some (0x0101, m)
  | .device i => some (0x0104, i)
  | .port p => some (0x0105, p)
  | _ => none

/-- The spare that a defect takes: of a panel's cores, a panel's slices, a port's lanes. -/
def spareOf : Defect → Option (Nat × Nat)
  | .core p => some (0, p / 17)
  | .slice k => some (1, k / 16)
  | .lane p => some (2, p)
  | _ => none

/-- R468, R469: SELF_TEST passes when every defect has a spare of its own, and locks MEAS0 with the summary; one that no spare absorbs, first of all,
ends in the safe state with its code and index. -/
def Claims.SelfTests : Prop :=
  ∀ (s : State) found, (¬ Booting s 3 → exec (.selfTest found) s = .next s) ∧
    (Booting s 3 →
      ((∀ d ∈ found, unabsorbed d = none) → (found.filterMap spareOf).Nodup → ∃ t, exec (.selfTest found) s = .next t ∧ t.boot.state = 0x01 ∧
        t.boot.stage = 0x04 ∧ t.boot.locked0 = true ∧
        t.boot.meas0 = (if s.boot.locked0 = true then s.boot.meas0 else extend s.boot.meas0 t.boot.selfSum) ∧ t.mem = s.mem ∧
        (∀ p, Defect.core p ∈ found → (p / 17, p) ∈ t.spares.cores) ∧ (∀ p, Defect.unlinked p ∈ found → p ∈ t.spares.down)) ∧
      ∀ (pre : List Defect) d post code ix, found = pre ++ d :: post → (∀ x ∈ pre, unabsorbed x = none) → (pre.filterMap spareOf).Nodup → unabsorbed d = some (code, ix) →
        ∃ t, exec (.selfTest found) s = .next t ∧ Safe s t 0x03 ∧ t.boot.fcode = BitVec.ofNat 16 code ∧ t.boot.fdetail = BitVec.ofNat 32 ix ∧
          t.boot.meas0 = s.boot.meas0)

/-- R466, R468, R484: FIRMWARE_START makes the module READY with its tables cleared, NODEID 0, every core idle and MEAS1 extended, without the ports that
are down; or the safe state. That the route table (R442) is in force from then on is a reading (log 5). That the tables which are cleared are those that
the base registers name and those at 0, that the rest of memory is kept, and that the safe state stops every wave are the model's choices (log 33); which
components MEAS1 measures is a free value (log 30). -/
def Claims.FirmwareStarts : Prop :=
  ∀ (s : State), (∀ ok, ¬ Booting s 4 → exec (.firmwareStart ok) s = .next s) ∧
    (Booting s 4 →
      (∃ t, exec (.firmwareStart true) s = .next t ∧ t.boot = { s.boot with state := 0x05, stage := 0x05, meas1 := t.boot.meas1 } ∧
        (∃ ms : List (List Byte), t.boot.meas1 = ms.foldl extend s.boot.meas1) ∧ t.waves = [] ∧ t.groups = [] ∧
        (let within := fun (k base n : Nat) => base ≤ k ∧ k < base + n
         let table := fun (k : Nat) => within k s.qtbase.toNat 0x100300 ∨ within k s.ctxbase.toNat 0x400000 ∨ within k s.astbase.toNat 0x80000 ∨ k < 0x400000
         ∀ k, (table k → t.mem.get k = 0) ∧ (¬ table k → t.mem.get k = s.mem.get k)) ∧
        t.taken = [] ∧ t.nodeid = 0 ∧ t.qtbase = 0 ∧ t.ctxbase = 0 ∧ t.astbase = 0 ∧ t.spares = s.spares ∧ t.cores.length = 64 ∧
        t.routes.length = s.fleet.length ∧ (∀ (i : Nat) r, s.fleet[i]? = some r → t.routes[i]? = some (r.1, r.2.filter (· ∉ s.spares.down))) ∧
        (∀ c < 64, (t.core c).clk = (s.core c).clk ∧ (t.core c).easel = [] ∧ (t.core c).copies = [] ∧ (t.core c).dbg = {}) ∧ t.funcs = List.replicate 64 {}) ∧
      ∃ t, exec (.firmwareStart false) s = .next t ∧ Safe s t 0x04)

/-- R466, R470: a configuration request gets Retry Status in stage 0x01; later it succeeds, and VF Enable is set but in the safe state. -/
def Claims.ConfigRequests : Prop :=
  ∀ (s : State),
    (Booting s 1 → ∀ r, exec (.pcieConfigRequest r) s = .next { s with config := s.config ++ [.retry] }) ∧
    (¬ Booting s 1 →
      (∃ (t : State) (v : Word), exec (.pcieConfigRequest .read) s = .next t ∧ t = { s with config := s.config ++ [.data v], fresh := t.fresh }) ∧
      exec (.pcieConfigRequest .writeOther) s = .next { s with config := s.config ++ [.done] } ∧
      ∀ on, let b : Boot := if s.boot.state = 0x80 then s.boot else { s.boot with vfEnable := on }
        exec (.pcieConfigRequest (.writeVfEnable on)) s = .next { s with config := s.config ++ [.done], boot := b })

/-- The response of a mailbox command (R471, R472): status, bytes at the start of BUF, and what else the module's state is. -/
def Responds (s t : State) (rst : BitVec 16) (bs : List Byte) : Prop :=
  t.boot.busy = false ∧ t.boot.rst = rst ∧ t.boot.rlen = BitVec.ofNat 16 bs.length ∧ (s.boot.raced = false → ∀ i b, bs[i]? = some b → t.boot.buf.get i = b) ∧
    t.boot.state = s.boot.state ∧ t.boot.stage = s.boot.stage ∧ t = { s with boot := t.boot, fresh := t.fresh }

/-- R472, R473: a mailbox command under way ends with its response: 2 for a wrong argument length; RETRY_BOOT restarts the sequence from the safe state,
and answers 3 elsewhere. Of another command, and while booting, nothing happens. The command that runs, and the length of its argument, are those that
its GO found. The order of the checks is a reading (log 33). -/
def Claims.MailboxResponds : Prop :=
  ∀ (s : State),
    let b := s.boot
    let under := fun (k : Nat) => b.busy = true ∧ b.run.1.toNat = k ∧ b.state ≠ 0x01
    (∀ i k, (i, k) ∈ [(Instr.getReport, 1), (.getPubkey, 2), (.getSelftest, 3), (.retryBoot, 4)] →
      (¬ under k → exec i s = .next s) ∧
      (under k → b.run.2 ≠ (if k = 1 then 32 else 0) → ∃ t, exec i s = .next t ∧ Responds s t 2 [])) ∧
    (under 1 → b.run.2 = 32 → b.meas0.length = 64 → b.meas1.length = 64 → b.selfSum.length = 64 → ∃ t bs sig, exec .getReport s = .next t ∧ Responds s t 0 bs ∧ bs.take 320 = s.reportBody ∧ s.reportBody.length = 320 ∧
      sig = (Config.falconSign (bs.take 320)).take 1280 ∧ bs.drop 320 = toBytes 2 sig.length ++ sig ∧ bs[0]? = some 1 ∧ bs[1]? = some b.state ∧
      bs[2]? = some b.stage ∧ ∀ i < 32, bs[8 + i]? = some (b.buf.get i)) ∧
    (under 2 → b.run.2 = 0 → ∃ t bs, exec .getPubkey s = .next t ∧ Responds s t 0 bs ∧ bs.take 1793 = (Config.attestationKey ++ List.replicate 1793 0).take 1793 ∧
      bs.drop 1793 = Config.attestationCert.take 2047) ∧
    (under 3 → b.run.2 = 0 → ∃ t, exec .getSelftest s = .next t ∧ Responds s t 0 (b.selfSum ++ (b.selfEnt.take 472).flatten)) ∧
    (under 4 → b.run.2 = 0 →
      (b.state = 0x80 → ∃ t, exec .retryBoot s = .next t ∧ Booting t 1 ∧ t.boot.busy = false ∧ t.boot.imageA = b.imageA ∧ t.boot.imageB = b.imageB ∧
        t.boot.rollback = b.rollback ∧ t = { s with boot := t.boot }) ∧
      (b.state ≠ 0x80 → ∃ t, exec .retryBoot s = .next t ∧ Responds s t 3 []))

/-- R471, R472: a write of MBCMD by the physical function stores LEN and CMD, and with GO starts the command, or answers 1 for one that is unknown;
GO while BUSY or while booting is ignored, and what is stored while a command runs does not change it. -/
def Claims.MailboxWrites : Prop :=
  ∀ (s : State) (v : DWord), s.inStage 1 = false →
    let go := bitAt v 63
    let w := exec (.registerWrite 0 0 0x2008 v) s
    let len : BitVec 16 := BitVec.ofNat 16 (v.toNat / 2 ^ 16)
    let cmd : BitVec 16 := BitVec.ofNat 16 v.toNat
    (go = true → s.boot.busy = true ∨ s.boot.state = 0x01 → w = .next s) ∧
    (go = false → w = .next { s with boot := { s.boot with len, cmd } }) ∧
    (go = true → s.boot.busy = false → s.boot.state ≠ 0x01 →
      (1 ≤ cmd.toNat → cmd.toNat ≤ 4 → w = .next { s with boot := { s.boot with len, cmd, busy := true, raced := false, run := (cmd, len) } }) ∧
      (cmd = 0 ∨ 4 < cmd.toNat → ∃ t, w = .next t ∧ t.boot.busy = false ∧ t.boot.rst = 1 ∧ t.boot.rlen = 0))

/-- A unit of storage is poisoned (R477): its bytes read all ones, other bytes below host memory are as before. -/
def Poisoned (s t : State) (key : Nat) : Prop :=
  let n := if 2 ^ 57 ≤ key ∧ key < 2 ^ 58 then 64 else 128
  let u := key / n * n
  u ∈ t.poison ∧ KeepsWaves s t ∧ (∀ k, u ≤ k → k < u + n → t.mem.get k = 0xff) ∧ ∀ k, k < 2 ^ 58 → (k < u ∨ u + n ≤ k) → t.mem.get k = s.mem.get k

/-- One more corrected error of kind `k` stands in its register, which saturates (R474, R494). -/
def CorrectedOnce (s t : State) (k : Nat) : Prop :=
  ∃ x y, s.energy.ecnt[k]? = some x ∧ t.energy.ecnt[k]? = some y ∧ y.toNat = min (x.toNat + 1) (2 ^ 48 - 1)

/-- R474 to R477, R482, R483: SRAM_SCRUB: a corrected error is counted, and a row that has needed 16 within a scrub period is due for its spare; a line of a
cache with a parity error is fetched again. An uncorrectable error poisons the palette's 64 bytes, the tile, the canvas or the line, stops
the group of a wave, or of base-die state the module; each is reported, to the function that owns the context too where the context is known. A slice
retires with an error in its directory, or with 4,096 corrected ones within 2^32 fclk. That two group-fatal errors wear out a core, and when a line's
context is known, are the model's choices (log 34). -/
def Claims.SramScrubs : Prop :=
  ∀ (s : State), s.cores.length = 64 → s.energy.ecnt.length = 4 →
    exec (.sramScrub .clean) s = .next s ∧
    (∀ c m row, ∃ t : State, exec (.sramScrub (.corrected c m row)) s = .next t ∧ CorrectedOnce s t 0 ∧ t.mem = s.mem ∧ t.waves = s.waves ∧ t.cores = s.cores ∧
      let key := 2 ^ 24 * c + 2 ^ 16 * (m % 256) + row % 2 ^ 16
      15 ≤ (s.spares.sram.filter fun x => x.1 = key ∧ s.time < x.2 + 10 * 2 ^ 30).length → key ∈ t.spares.sramDue) ∧
    (∀ cache line, cache < 128 → ∃ t : State, exec (.sramScrub (.refetched cache line)) s = .next t ∧ CorrectedOnce s t 0 ∧ t.mem = s.mem ∧ t.waves = s.waves ∧
      t.cores = s.cores ∧ ((cache, line) ∈ s.copies → ∀ x ∈ t.stale, x.1 = cache → x.2.1 / (if cache < 64 then 128 else 64) ≠ line)) ∧
    (∀ k, exec (.sramScrub (.directory k)) s = exec (.sliceRetirement k) s) ∧
    (∀ k, k < 64 → k ∉ s.spares.gone → ∃ t : State, exec (.sramScrub (.sliceCorrected k)) s = .next t ∧ CorrectedOnce s t 0 ∧ KeepsWaves s t ∧
      let recent := (s.spares.sliceErrs.filter fun x => x.1 = k ∧ s.time < x.2 + 7 * 2 ^ 32).length
      (recent < 4095 → t.spares.slices = s.spares.slices ∧ t.spares.gone = s.spares.gone) ∧
      (4095 ≤ recent → (k / 16, k) ∈ t.spares.slices ∨ k ∈ t.spares.gone)) ∧
    (∀ core row off g, core < 64 → s.groups = [g] → g.core = core → g.state ≠ .saved → g.pbase ≤ off → off < g.pbase + g.psize → off < 2 ^ 20 →
      g.ctx < 0xffff → s.ctxbase.toNat < 2 ^ 56 → s.ctxFunc g.ctx ≠ 0 →
      ∃ t, exec (.sramScrub (.palette core row off)) s = .next t ∧ Reported s t (s.ctxFunc g.ctx)) ∧
    (∀ core row off, core < 64 → ∃ t, exec (.sramScrub (.palette core row off)) s = .next t ∧ Poisoned s t (2 ^ 57 + 2 ^ 20 * core + off % 2 ^ 20) ∧ Reported s t 0) ∧
    (∀ core row key, key < 2 ^ 58 → ∃ t, exec (.sramScrub (.l1 core row key)) s = .next t ∧ Poisoned s t key ∧ Reported s t 0) ∧
    (∀ slice key, key < 2 ^ 58 → ∃ t, exec (.sramScrub (.line slice key)) s = .next t ∧ Poisoned s t key ∧ Reported s t 0) ∧
    (∀ core row tl, core < 64 → ∃ t, exec (.sramScrub (.tile core row tl)) s = .next t ∧ KeepsWaves s t ∧ Reported s t 0 ∧ tl ∈ (t.core core).bad ∧
      (∀ k < 1024, (t.core core).tiles.get (1024 * tl + k) = 0xffffffffffffffff) ∧ ∀ k, k / 1024 ≠ tl → (t.core core).tiles.get k = (s.core core).tiles.get k) ∧
    (∀ core row k, core < 64 → ∃ t, exec (.sramScrub (.canvas core row k)) s = .next t ∧ KeepsWaves s t ∧ Reported s t 0 ∧
      (∀ i < 4096, ((t.core core).can k).cell.get i = 0xff) ∧ ∀ i < 128, ((t.core core).can k).exp.get i = 0xff) ∧
    (∀ wid m row w, s.wave? wid = some w → ∃ t, exec (.sramScrub (.wave wid m row)) s = .next t ∧ Reported s t 0 ∧
      (∀ x ∈ t.waves, x.gid = w.gid → x.dead = true) ∧ (w.core < 64 → 1 ≤ (s.core w.core).fatal → (t.core w.core).worn = true) ∧ ∀ k, KeepsRegs s t k) ∧
    ∀ unit, ∃ t, exec (.sramScrub (.baseDie unit)) s = .next t ∧ t.boot.state = 0x80 ∧ t.boot.stage = 0x05 ∧ t.boot.fcode = 0x0301 ∧
      t.boot.fdetail = BitVec.ofNat 32 unit ∧ (∀ w ∈ t.waves, w.dead = true) ∧ Reported s t 0

/-- R327: 32 units of 256 bytes in succession lie in 32 devices. -/
def Claims.DevicesSpread : Prop := ∀ first, ∀ d < 32, ∃ i < 32, lineDevice (2 * (first + i)) = d ∧ lineDevice (2 * (first + i) + 1) = d

/-- R478, R479: GDDR_SCRUB counts a corrected line, and a row of a device that needed 16 corrections as remapped; an uncorrectable line is poisoned and
reported. After a device's retirement, and outside memory, it finds nothing. A device with 1,024 remapped rows, or one that fails retraining, is
retired, and a second one is module-fatal. Which row and device a line lies in is the model's free value (log 36). -/
def Claims.GddrScrubs : Prop :=
  ∀ (s : State) line, s.energy.ecnt.length = 4 →
    (248000000000 ≤ 128 * line → ∀ o, exec (.gddrScrub line o) s = .next s) ∧
    (s.spares.devices ≠ [] → ∀ o, o ≠ .retrainFailed → exec (.gddrScrub line o) s = .next s) ∧
    (128 * line < 248000000000 →
      let dev := lineDevice line
      let out := s.spares.rebuild = some dev ∨ dev ∈ s.spares.devices
      let first := s.spares.rebuild = none ∧ s.spares.devices = []
      (out → exec (.gddrScrub line .retrainFailed) s = .next s) ∧
      (first → exec (.gddrScrub line .retrainFailed) s = .next { s with spares := { s.spares with rebuild := some dev } }) ∧
      (¬ out → ¬ first → ∃ t, exec (.gddrScrub line .retrainFailed) s = .next t ∧ t.boot.state = 0x80 ∧ t.boot.fcode = 0x0301 ∧ t.boot.fdetail = 4 ∧
        (∀ w ∈ t.waves, w.dead = true) ∧ Reported s t 0)) ∧
    (s.spares.devices = [] → 128 * line < 248000000000 →
      exec (.gddrScrub line .clean) s = .next s ∧
      (∃ t, exec (.gddrScrub line .uncorrectable) s = .next t ∧ Poisoned s t (128 * line) ∧ Reported s t 0) ∧
      (let dev := lineDevice line
       let row := 32 * Config.rowOf line + dev
       ∃ t, exec (.gddrScrub line .corrected) s = .next t ∧ CorrectedOnce s t 1 ∧ (∀ k, k < 2 ^ 58 → t.mem.get k = s.mem.get k) ∧
        (countAt s.spares.rows row + 1 < 16 → countAt t.spares.rows row = countAt s.spares.rows row + 1) ∧
        (countAt s.spares.rows row + 1 = 16 → countAt t.spares.rows row = 0 ∧ countAt t.spares.remapped dev = countAt s.spares.remapped dev + 1 ∧
          (countAt s.spares.remapped dev + 1 = 1024 → s.spares.rebuild = none → t.spares.rebuild = some dev))))

/-- R479, R475: GDDR_REBUILD_COMPLETE: the retired device is out of service, and the record says so. -/
def Claims.RebuildEnds : Prop :=
  ∀ (s : State), (s.spares.rebuild = none → exec .gddrRebuildComplete s = .next s) ∧
    ∀ dev, s.spares.rebuild = some dev → ∃ t, exec .gddrRebuildComplete s = .next t ∧ t.spares = { s.spares with rebuild := none, devices := s.spares.devices ++ [dev] } ∧
      KeepsWaves s t ∧ Reported s t 0 ∧ ∀ k, k < 2 ^ 58 → t.mem.get k = s.mem.get k

/-- R482: CORE_RETIREMENT: the core takes no more groups and its groups drain; with none left the panel's spare core takes its index with its resident
segments and a palette without poison, or without a spare the core is offline.
What the taking core keeps is a reading (log 34); that physical cores are numbered by panels of 17, the last one its spare, is presumed (log 7). -/
def Claims.CoresRetire : Prop :=
  ∀ (s : State) core, (64 ≤ core ∨ core ∈ s.spares.offline → exec (.coreRetirement core) s = .next s) ∧
    (core < 64 → core ∉ s.spares.offline → s.cores.length = 64 →
      ((∃ g ∈ s.groups, g.core = core ∧ g.state ≠ .saved) → ∃ t : State, exec (.coreRetirement core) s = .next t ∧
        t = { s with groups := t.groups, spares := { s.spares with retiring := t.spares.retiring } } ∧ core ∈ t.spares.retiring ∧
        t.accepts core = false ∧ t.groups.length = s.groups.length ∧ (∀ g ∈ t.groups, g.core = core → g.state = .saved ∨ ∃ n, g.state = .draining n) ∧
        ∀ (i : Nat) g, s.groups[i]? = some g → g.core ≠ core → t.groups[i]? = some g) ∧
      ((∀ g ∈ s.groups, g.core = core → g.state = .saved) → (s.core core).heldImages = [] → ∃ t, exec (.coreRetirement core) s = .next t ∧ Reported s t 0 ∧
        core ∉ t.spares.retiring ∧ t.groups = s.groups ∧
        ((∀ x ∈ s.spares.cores, x.1 ≠ core / 16) → (core / 16, (s.core core).phys) ∈ t.spares.cores ∧ (t.core core).phys = 17 * (core / 16) + 16 ∧
          (t.core core).clk = (s.core core).clk ∧ (t.core core).imem = (s.core core).imem ∧ (t.core core).dict = (s.core core).dict ∧
          (t.core core).kslots = (s.core core).kslots ∧ (t.core core).easel = [] ∧
          (∀ u ∈ t.poison, ¬ (2 ^ 57 ≤ u ∧ u < 2 ^ 58 ∧ (u - 2 ^ 57) / 2 ^ 20 = core)) ∧ ∀ i, ((s.core core).slot i).resident = true → (t.core core).slot i = (s.core core).slot i) ∧
        ((∃ x ∈ s.spares.cores, x.1 = core / 16) → core ∈ t.spares.offline ∧ t.cores = s.cores)))

/-- R483: SLICE_RETIREMENT writes the slice's dirty lines back; the panel's spare slice takes the index with every line. Without a spare another slice of
the panel that is in service serves them, and those that come later too; which one is the model's choice (log 34). -/
def Claims.SlicesRetire : Prop :=
  ∀ (s : State) slice, (64 ≤ slice ∨ slice ∈ s.spares.gone → exec (.sliceRetirement slice) s = .next s) ∧
    (slice < 64 → slice ∉ s.spares.gone → ∃ t : State, exec (.sliceRetirement slice) s = .next t ∧ Reported s t 0 ∧ KeepsWaves s t ∧
      (∀ k, k < 2 ^ 58 → t.mem.get k = s.mem.get k) ∧
      ((∀ x ∈ s.spares.slices, x.1 ≠ slice / 16) → (slice / 16, slice) ∈ t.spares.slices ∧ t.spares.gone = s.spares.gone ∧
        ((s.lines.map (·.line)).Nodup → (∀ r ∈ s.lines, r.tag.isSome = true → ∃ x ∈ t.lines, x.line = r.line) ∧
          ∀ x ∈ t.lines, ∃ r ∈ s.lines, x.line = r.line ∧ x.tag = r.tag ∧ x.owner = r.owner ∧ x.slice = r.slice ∧ x.dirty = (r.dirty && r.slice != slice))) ∧
      ((∃ x ∈ s.spares.slices, x.1 = slice / 16) → (∃ k, k / 16 = slice / 16 ∧ k ≠ slice ∧ k ∉ s.spares.gone) →
        t.spares.slices = s.spares.slices ∧ slice ∈ t.spares.gone ∧ t.serving slice ∉ t.spares.gone ∧ t.serving slice / 16 = slice / 16 ∧
        ((s.lines.map (·.line)).Nodup → (∀ r ∈ s.lines, r.tag.isSome = true → ∃ x ∈ t.lines, x.line = r.line) ∧
          ∀ x ∈ t.lines, ∃ r ∈ s.lines, x.line = r.line ∧ x.tag = r.tag ∧ x.owner = r.owner ∧ x.dirty = (r.dirty && r.slice != slice) ∧
            x.slice = if r.slice = slice then t.serving slice else r.slice)))

/-- R474, R484: a flit of a lane that fails its check is a corrected error; with the second one within 2^30 flits of the lane a spare lane takes over and the
port retrains, with a record; the end of it, and a port that goes down, which no route takes any more. -/
def Claims.SpanPorts : Prop :=
  ∀ (s : State) port,
    (∀ lane since, (18 ≤ port ∨ 9 ≤ lane ∨ port ∈ s.spares.down ∨ (port, lane) ∈ s.spares.lanes → exec (.spanLaneSpare port ⟨lane, since⟩) s = .next s) ∧
      (port < 18 → lane < 9 → port ∉ s.spares.down → (port, lane) ∉ s.spares.lanes → s.energy.ecnt.length = 4 → 2 ^ 30 ≤ since →
        ∃ t : State, exec (.spanLaneSpare port ⟨lane, since⟩) s = .next t ∧ CorrectedOnce s t 2 ∧ t = { s with energy := t.energy, funcs := t.funcs }) ∧
      (port < 18 → lane < 9 → port ∉ s.spares.down → (port, lane) ∉ s.spares.lanes → s.energy.ecnt.length = 4 → since < 2 ^ 30 →
        ∃ t, exec (.spanLaneSpare port ⟨lane, since⟩) s = .next t ∧ Reported s t 0 ∧ CorrectedOnce s t 2 ∧ KeepsWaves s t ∧ (port, lane) ∈ t.spares.lanes ∧ port ∈ t.spares.retrain ∧ t.routes = s.routes)) ∧
    (∃ t : State, exec (.laneRetrainComplete port) s = .next t ∧ t = { s with spares := { s.spares with retrain := t.spares.retrain } } ∧
      ∀ p, p ∈ t.spares.retrain ↔ p ∈ s.spares.retrain ∧ p ≠ port) ∧
    ∃ t : State, exec (.spanPortDown port) s = .next t ∧ t.mem = s.mem ∧ t.waves = s.waves ∧ port ∈ t.spares.down ∧ t.routes.length = s.routes.length ∧
      ∀ (i : Nat) r, s.routes[i]? = some r → t.routes[i]? = some (r.1, r.2.filter (· ≠ port))

end Sys2Proof

/-- Boot, the mailbox, errors and takeover (R466 to R484), and that the steps of translation, host and fabric complete (R319, R345, R434 to R447).
The inputs that bring these events (log 3), the layouts of headers and summaries (log 4), the numbers of physical cores (log 7), which tables firmware
clears, that it keeps the rest of memory and that the safe state stops every wave (log 33), and what retirements do in cases that the rules leave out
(log 34) are the model's. -/
def Obligations.BootAndReliability : Prop :=
  Claims.PowerOnResets ∧ Claims.BootRomEnds ∧ Claims.FirmwareVerifies ∧ Claims.SelfTests ∧ Claims.FirmwareStarts ∧ Claims.ConfigRequests ∧
  Claims.MailboxResponds ∧ Claims.MailboxWrites ∧ Claims.SramScrubs ∧ Claims.DevicesSpread ∧ Claims.GddrScrubs ∧ Claims.RebuildEnds ∧ Claims.CoresRetire ∧ Claims.SlicesRetire ∧
  Claims.SpanPorts ∧ Claims.TranslationCompletes ∧ Claims.HostAccessesComplete ∧ Claims.FabricStepsComplete

/-! ## Debug, trace, causal trials, counters, energy (R401, R446 to R464, R485 to R497) -/

namespace Sys2Proof

/-- The notices that a halt or a resume of the module sends (R447). -/
def notices (s : State) (core : Nat) (on : Bool) : List (Nat × Bool × DWord) :=
  if bitAt s.notice 63 = true then s.routes.map fun r => (r.1, on, (s.core core).clk) else []

/-- R449: HALT asks the parts of a core to stop at their next bundles; a core that is halted, and a module that does not answer, ignore it.
Details are readings (log 31). -/
def Claims.HaltsBegin : Prop :=
  ∀ (s : State) core,
    (s.hostOk 0 = false ∨ (s.core core).dbg.halted = true → exec (.halt core) s = .next s) ∧
    (s.hostOk 0 = true → core < s.cores.length → (s.core core).dbg.halted = false → ∃ t : State, exec (.halt core) s = .next t ∧ t = { s with cores := t.cores } ∧
      t.core core = { s.core core with dbg := { (s.core core).dbg with halting := true } } ∧ ∀ c, c ≠ core → t.core c = s.core c)

/-- R447, R449: HALT_COMPLETE once every part stands at a bundle boundary: HALTED reads 1, no register changes, and the first halted core of the module
sends the notice. -/
def Claims.HaltsComplete : Prop :=
  ∀ (s : State) core, core < s.cores.length →
    ((s.core core).dbg.halting = false ∨ s.atRest core = false → exec (.haltComplete core) s = .next s) ∧
    ((s.core core).dbg.halting = true → s.atRest core = true → ∃ t, exec (.haltComplete core) s = .next t ∧ KeepsWaves s t ∧
      (t.core core).dbg.halted = true ∧ (t.core core).dbg.halting = false ∧ (∀ c, c ≠ core → t.core c = s.core c) ∧
      t.sent = s.sent ++ if s.cores.any (fun c => c.dbg.halted) then [] else notices s core true)

/-- Nothing that ended while the wave was stopped is still to take effect (R46). -/
def NothingOver (w : Wave) : Prop :=
  ∀ e < 16, (∀ b, (w.auxAt e).park ≠ .over b) ∧ (∀ r, (w.auxAt e).park ≠ .hit r) ∧ ¬ ((w.ent e).isPart = true ∧ (w.ent e).st = stParkf ∧ (w.auxAt e).rids = [])

/-- R46, R447, R449: RESUME lets a halted core run, and takes back a halt that is not complete (the model's choice, log 31); the module's last resume sends the notice. What ended
during the halt takes effect: a part whose page was resolved is READY where it stands. -/
def Claims.Resumes : Prop :=
  ∀ (s : State) core, core < s.cores.length →
    (s.hostOk 0 = false → exec (.resume core) s = .next s) ∧
    (s.hostOk 0 = true → ∃ t, exec (.resume core) s = .next t ∧ t.mem = s.mem ∧ (t.core core).dbg.halted = false ∧
      (t.core core).dbg.halting = false ∧ (∀ c, c ≠ core → t.core c = s.core c) ∧
      (∀ x w, s.wave? x = some w → w.core ≠ core ∨ (s.core core).dbg.halted = false ∨ NothingOver w → t.wave? x = some w) ∧
      (∀ x w, DistinctWaves s → s.wave? x = some w → ∃ v, t.wave? x = some v ∧ v.vreg = w.vreg ∧ v.mask = w.mask ∧ v.handler = w.handler ∧
        (∀ e < 16, (s.core core).dbg.halted = true → w.core = core → w.dead = false → w.handler.run = false →
          (∃ g, s.group? w.gid = some g ∧ g.state = .resident) → w.split.length = 16 → w.aux.length = 16 → (w.ent e).isPart = true → (w.ent e).st = stParkf →
          (w.auxAt e).park = .none → (w.auxAt e).rids = [] → v.ent e = { w.ent e with st := stReady })) ∧
      ((s.core core).dbg.halted = false → t.sent = s.sent) ∧
      ((s.core core).dbg.halted = true →
        ((∃ c, c ≠ core ∧ (s.core c).dbg.halted = true) → t.sent = s.sent) ∧
        ((∀ c, c ≠ core → (s.core c).dbg.halted = false) → t.sent = s.sent ++ notices s core false)))

/-- A comparator matches a part (R453, R454). -/
def matchesPart (s : State) (c : Ctx) (n : Nat) : Prop :=
  let a := ((s.core c.w.core).dreg (0x100 + 16 * n)).toNat
  let b := ((s.core c.w.core).dreg (0x108 + 16 * n)).toNat
  a / 2 ^ 63 = 1 ∧ a % 2 ^ 17 = c.pc.toNat ∧ (a / 2 ^ 61 % 2 = 1 → a / 2 ^ 46 % 2 ^ 15 = c.g.queue) ∧
    ∀ k < 20, b.testBit k = true → c.g.group.toNat.testBit k = b.testBit (32 + k)

/-- R454, R449, R408: PC_COMPARATOR_MATCH: at a bundle that comparators match, one with ACT = 1 halts the core, and one with ACT = 0 enters the handler with
BREAK, SUB 1 and the index of the lowest match; where both kinds match, both happen. Neither changes a register. A handler part, a dictionary phase of 1
and a bundle that has matched do not match. -/
def Claims.ComparatorsMatch : Prop :=
  ∀ (s : State) who c k, s.ctx? who = some c →
    let may := c.hnd = false ∧ c.bank.phase = false ∧ c.aux.skipCmp ≠ some c.pc ∧ c.aux.hints = 0
    let first := k < 8 ∧ matchesPart s c k ∧ ∀ j < k, ¬ matchesPart s c j
    let act := fun (n : Nat) => (s.core c.w.core).dreg (0x100 + 16 * n) &&& 0x4000000000000000 ≠ 0
    let halts := ∃ n < 8, matchesPart s c n ∧ act n
    let breaks := ∃ n < 8, matchesPart s c n ∧ ¬ act n
    let asked := fun (t : State) => (t.core c.w.core).dbg.halting = true ∨ (t.core c.w.core).dbg.halted = true
    (¬ (may ∧ first) → exec (.pcComparatorMatch who k) s = .next s) ∧
    (may → first → c.w.core < s.cores.length →
      (halts → ∃ t, exec (.pcComparatorMatch who k) s = .next t ∧ asked t) ∧
      (¬ breaks → ∃ t, exec (.pcComparatorMatch who k) s = .next t ∧ t.mem = s.mem ∧ KeepsWaves s t ∧ asked t ∧
        (c.ent < c.w.aux.length → ∃ v, t.wave? c.w.wid = some v ∧ (v.auxAt c.ent).skipCmp = some c.pc)) ∧
      (breaks → TrapsAtOnce s c → ∃ t v, exec (.pcComparatorMatch who k) s = .next t ∧
        (¬ halts → (t.core c.w.core).dbg.halting = (s.core c.w.core).dbg.halting) ∧
        Entered s t c.w v c.ent c.bank { code := 0x11, sub := 1, tpc := c.pc, info := BitVec.ofNat 32 k, look := c.look } c.pc false))

/-- R455, R456: TRACE_ENABLE stores TCTL; EN stays 0 when TSZ, TBASE or THDR is out of range or not aligned; setting EN makes WCNT and LOST 0. That the
staging area then starts empty is the model's choice (log 31). -/
def Claims.TracesEnable : Prop :=
  ∀ (s : State) core (v : DWord), core < s.cores.length →
    let sz := v.toNat / 2 ^ 56 % 64
    let hdr := ((s.core core).dreg 0x210).toNat % 2 ^ 57
    let fits := 12 ≤ sz ∧ sz ≤ 40 ∧ ((s.core core).dreg 0x208).toNat % 2 ^ 57 % 2 ^ sz = 0 ∧ hdr % 64 = 0
    let was := bitAt ((s.core core).dreg 0x200) 63
    (s.hostOk 0 = false → exec (.traceEnable core v) s = .next s) ∧
    (s.hostOk 0 = true → ∃ t, exec (.traceEnable core v) s = .next t ∧ KeepsWaves s t ∧ (∀ c, c ≠ core → t.core c = s.core c) ∧
      (fits → (t.core core).dreg 0x200 = v &&& 0xff80ff1f0000ffff) ∧ (¬ fits → (t.core core).dreg 0x200 = v &&& 0x7f80ff1f0000ffff) ∧
      (was = false → bitAt v 63 = true → fits → s.poison = [] → readNat t hdr 8 = 0 ∧ readNat t (hdr + 16) 8 = 0 ∧ (t.core core).dbg.tw = 0 ∧
        (t.core core).dbg.staged = [] ∧ ∀ k, (k < hdr ∨ (hdr + 8 ≤ k ∧ k < hdr + 16) ∨ hdr + 24 ≤ k) → t.mem.get k = s.mem.get k) ∧
      (was = bitAt v 63 → (bitAt v 63 = true → fits) → t.mem = s.mem))

/-- R459: TRACE_SAMPLE takes the next resident part after the one sampled last, and asks for no further sample; a part that is not traced gives no packet. -/
def Claims.TracesSample : Prop :=
  ∀ (s : State) core, core < s.cores.length →
    ((s.core core).dbg.smp = false → exec (.traceSample core) s = .next s) ∧
    ((s.core core).dbg.smp = true → ∃ t, exec (.traceSample core) s = .next t ∧ t.waves = s.waves ∧ t.mem = s.mem ∧ (t.core core).dbg.smp = false ∧
      ∀ w e, w ∈ s.waves → w.core = core → e < 16 → (w.ent e).isPart = true → w.part < 8 → w.slot < 16 → (∃ g, s.group? w.gid = some g ∧ g.state ≠ .saved) →
        let place := fun (w : Wave) (e : Nat) => 4096 * w.part + 64 * w.slot + e
        let d := (s.core core).dbg.sampled
        d ≤ place w e → (∀ x ∈ s.waves, ∀ f < 16, x.core = core → (x.ent f).isPart = true → d ≤ place x f → place w e ≤ place x f ∧ (place x f = place w e → x = w ∧ f = e)) →
        (t.core core).dbg.sampled = place w e + 1 ∧
        (s.tracing w = true → ∃ p, (t.core core).dbg.tbuf = (s.core core).dbg.tbuf ++ [p] ∧ p.part = w.part ∧ p.slot = w.slot ∧ p.ent = e ∧
          p.w0.toNat / 2 ^ 28 = 9 ∧ p.more[0]? = some (BitVec.ofNat 32 ((w.ent e).pc.toNat + 2 ^ 17 * (w.ent e).st.toNat)) ∧ p.more.length = 2))

/-- R461, R456: TRACE_STAGING_DRAIN writes the oldest staged packet of a core when the ring has room for it. -/
def Claims.StagingDrains : Prop :=
  ∀ (s : State) core ws rest, core < 64 → core < s.cores.length → (s.core core).dbg.staged = ws :: rest → (∀ c, c ≠ core → (s.core c).dbg.staged = []) → s.poison = [] →
    let c := s.core core
    let sz := 2 ^ ((c.dreg 0x200).toNat / 2 ^ 56 % 64)
    let base := (c.dreg 0x208).toNat % 2 ^ 57
    let hdr := (c.dreg 0x210).toNat % 2 ^ 57
    let fits := 4 * ws.length ≤ sz - (BitVec.ofNat 64 c.dbg.tw - BitVec.ofNat 64 (readNat s (hdr + 8) 8)).toNat
    (¬ fits → exec .traceStagingDrain s = .next s) ∧
    (fits → ∃ t, exec .traceStagingDrain s = .next t ∧ KeepsWaves s t ∧ (t.core core).dbg.staged = rest ∧ (t.core core).dbg.tw = c.dbg.tw + 4 * ws.length ∧
      (4 * ws.length ≤ sz → (hdr + 64 ≤ base ∨ base + sz ≤ hdr) → ∀ k x, ws[k]? = some x → ∀ j < 4,
        t.mem.get (base + (c.dbg.tw + 4 * k + j) % sz) = BitVec.ofNat 8 (x.toNat / 256 ^ j)))

/-- R463, R464: CAUSAL_TRIAL_START: a write of 0x300 stores its fields; GO with DUR ≠ 0 and no trial running clears the counters and DONE, and the trial
runs; otherwise GO is ignored. That a write with a GO that is ignored stores its fields is the model's choice (log 31). -/
def Claims.TrialsStart : Prop :=
  ∀ (s : State) core (v : DWord), core < s.cores.length →
    let x := v.toNat
    let put := 2 ^ 61 * (x / 2 ^ 61 % 2) + 2 ^ 48 * min 16 (x / 2 ^ 48 % 32) + x % 2 ^ 48
    let go := bitAt v 63 = true ∧ x % 2 ^ 32 ≠ 0 ∧ (s.core core).dbg.run = false
    (s.hostOk 0 = false → exec (.causalTrialStart core v) s = .next s) ∧
    (s.hostOk 0 = true → ∃ t : State, exec (.causalTrialStart core v) s = .next t ∧ t = { s with cores := t.cores } ∧ (∀ c, c ≠ core → t.core c = s.core c) ∧
      (¬ go → t.core core = (s.core core).setDreg 0x300 (BitVec.ofNat 64 (put + 2 ^ 62 * (((s.core core).dreg 0x300).toNat / 2 ^ 62 % 2)))) ∧
      (go → (t.core core).dreg 0x300 = BitVec.ofNat 64 put ∧ (t.core core).dbg.run = true ∧ (t.core core).dbg.dacc = 0 ∧ (t.core core).dbg.delay = false ∧
        (∀ off ∈ [0x318, 0x320, 0x328, 0x330, 0x338], (t.core core).dreg off = 0) ∧ ∀ off ∈ [0x308, 0x310], (t.core core).dreg off = (s.core core).dreg off))

/-- R464 step 1, and the end of a trial: CAUSAL_DELAY makes this a delay clk on each core with DACC ≥ 16, with DLY one more; CAUSAL_TRIAL_END makes DONE 1
on each core whose trial has run DUR clk, and its counters stand. -/
def Claims.TrialsDelayAndEnd : Prop :=
  ∀ (s : State),
    let dur := fun (c : Core) => (c.dreg 0x300).toNat % 2 ^ 32
    let elapsed := fun (c : Core) => (c.dreg 0x318).toNat % 2 ^ 48
    (∃ t : State, exec .causalDelay s = .next t ∧ t = { s with cores := t.cores } ∧ t.cores.length = s.cores.length ∧
      ∀ (i : Nat) c, s.cores[i]? = some c → ∃ d, t.cores[i]? = some d ∧
        (c.dbg.run = true → c.dbg.halted = false → c.dbg.delay = false → 16 ≤ c.dbg.dacc → elapsed c < dur c → d.dbg.delay = true ∧ d.dbg.dacc = c.dbg.dacc - 16 ∧
          (d.dreg 0x328).toNat = ((c.dreg 0x328).toNat % 2 ^ 48 + 1) % 2 ^ 48 ∧ d.clk = c.clk ∧ d.slots = c.slots ∧ d.easel = c.easel) ∧
        (c.dbg.run = false ∨ c.dbg.halted = true ∨ c.dbg.delay = true ∨ c.dbg.dacc < 16 ∨ dur c ≤ elapsed c → d = c)) ∧
    ∃ t : State, exec .causalTrialEnd s = .next t ∧ t = { s with cores := t.cores } ∧ t.cores.length = s.cores.length ∧
      ∀ (i : Nat) c, s.cores[i]? = some c → ∃ d, t.cores[i]? = some d ∧
        (c.dbg.run = true → dur c ≤ elapsed c → d.dbg.run = false ∧ bitAt (d.dreg 0x300) 62 = true ∧ d.dbg.dacc = 0 ∧
          ∀ off ∈ [0x318, 0x320, 0x328, 0x330, 0x338], d.dreg off = c.dreg off) ∧
        (c.dbg.run = false ∨ elapsed c < dur c → d = c)

/-- A counter counts an event of a panel: EN, EVT, and the panels that it takes (R486). -/
def countsEvent (cfg : DWord) (evt panel : Nat) : Prop :=
  cfg.toNat / 2 ^ 63 = 1 ∧ evt ≠ 0 ∧ cfg.toNat % 2 ^ 16 = evt ∧ (cfg.toNat / 2 ^ 16 % 16 = 0 ∨ cfg.toNat.testBit (16 + panel) = true)

/-- R490 to R492: COUNTER_FLUSH adds every staged count to the counters that count it, modulo 2^48, with OVF on a wrap; one addition that takes COUNT to TH
sets THX once, and posts 8 f + n to event queue EQ with TE, when that queue permits the function. -/
def Claims.CountersFlush : Prop :=
  ∀ (s : State), ∃ t, exec .counterFlush s = .next t ∧ KeepsWaves s t ∧
    ∀ f, f < 64 → f < s.funcs.length →
      (t.func f).staged = [] ∧
      ∀ n < 8,
        let word := fun (u : State) (k : Nat) => (u.func f).ctr.get (4 * n + k)
        let count := fun (u : State) => (word u 1).toNat % 2 ^ 48
        let th := (word s 2).toNat % 2 ^ 48
        (∀ c : Nat × DWord → Bool, (∀ x, c x = true ↔ countsEvent (word s 0) (x.1 / 4) (x.1 % 4)) →
          let sum := (((s.func f).staged.filter c).map fun x => x.2.toNat).foldl (· + ·) 0
          count t = (count s + sum) % 2 ^ 48 ∧ (2 ^ 48 ≤ count s + sum → bitAt (word t 0) 60 = true) ∧ word t 2 = word s 2) ∧
        (∀ code k, (s.func f).staged = [(code, k)] → countsEvent (word s 0) (code / 4) (code % 4) → count s + k.toNat < 2 ^ 48 → bitAt (word s 0) 59 = false →
          (bitAt (word t 0) 59 = true ↔ count s < th ∧ th ≤ count s + k.toNat) ∧
          (count s < th → th ≤ count s + k.toNat → bitAt (word s 0) 61 = true → (∀ g, g ≠ f → (s.func g).staged = []) →
            (∀ m < 8, m ≠ n → (s.func f).counts m (code / 4) (code % 4) = false) →
            let q := (word s 0).toNat / 2 ^ 54 % 16
            (readNat s (s.qtbase.toNat + 0x100200 + 16 * q + 8) 8).testBit f = true → ∀ ev, s.events[q]? = some ev → ev.length < 64 →
              t.events[q]? = some (ev ++ [BitVec.ofNat 32 (8 * f + n)])))

/-- R493: COUNTER_FREEZE sets FRZ; FREEZE_DONE sets FRZD once the staged counts are in the bank. -/
def Claims.CountersFreeze : Prop :=
  ∀ (s : State) func, func < s.funcs.length →
    (∃ t : State, exec (.counterFreeze func) s = .next t ∧ t = { s with funcs := t.funcs } ∧ (t.func func).frz = true ∧ bitAt ((t.func func).ctr.get 32) 0 = true ∧
      (∀ k, k ≠ 32 → (t.func func).ctr.get k = (s.func func).ctr.get k) ∧ ∀ f, f ≠ func → t.func f = s.func f) ∧
    ((s.func func).frz = false → exec (.freezeDone func) s = .next s) ∧
    ((s.func func).frz = true → ∃ t, exec (.freezeDone func) s = .next t ∧ KeepsWaves s t ∧ (t.func func).frz = true ∧ (t.func func).staged = [] ∧
      bitAt ((t.func func).ctr.get 32) 0 = true ∧ bitAt ((t.func func).ctr.get 32) 1 = true)

/-- R494, R495, R497: ENERGY_WINDOW counts the window and its grains; every function, queue and the module start with their budget, less what they overdrew.
The grains are attributed to functions and panels as event 0x11, in shares that with an unattributed one make up the grains; which shares is a free value
(log 31). -/
def Claims.EnergyWindows : Prop :=
  ∀ (s : State) grains, ∃ t : State, exec (.energyWindow grains) s = .next t ∧ t = { s with funcs := t.funcs, energy := t.energy, fresh := t.fresh } ∧
    t.energy.ewnum = s.energy.ewnum + 1 ∧ t.energy.wgrn.toNat = grains % 2 ^ 48 ∧ t.energy.mgrn.toNat = (s.energy.mgrn.toNat + grains) % 2 ^ 48 ∧
    t.energy.start = s.time ∧ t.energy.mrem = s.energy.mbud.toNat + min s.energy.mrem 0 ∧ t.funcs.length = s.funcs.length ∧
    (∃ share : Nat → Nat, ((List.range 256).map share).sum ≤ grains ∧ ∀ f < 64, f < s.funcs.length →
      (∀ k, (t.func f).staged.get k = if (s.func f).frz = true ∨ k / 4 ≠ 0x11 then (s.func f).staged.get k
        else (s.func f).staged.get k + BitVec.ofNat 64 (share (4 * f + k % 4)))) ∧
    (∀ f, f < s.funcs.length → t.func f = { s.func f with staged := (t.func f).staged, rem := (readNat s (s.qtbase.toNat + 0x100000 + 8 * f + 4) 4 : Int) + min (s.func f).rem 0 }) ∧
    ∀ q < 32768, t.queueRem q = (readNat s (s.qtbase.toNat + 32 * q + 20) 4 : Int) + min (s.queueRem q) 0

end Sys2Proof

/-- Debugging, tracing, causal trials, counters and energy (R447 to R464, R485 to R497).
The inputs that bring some of these events are the model's (log 3). That a RESUME takes back a halt which is not complete, that a GO during a trial stores
the fields, that the staging area starts empty at EN, and how a window's grains are shared are its choices (log 31). -/
def Obligations.DebugAndCounters : Prop :=
  Claims.HaltsBegin ∧ Claims.HaltsComplete ∧ Claims.Resumes ∧ Claims.ComparatorsMatch ∧ Claims.TracesEnable ∧ Claims.TracesSample ∧ Claims.StagingDrains ∧
  Claims.TrialsStart ∧ Claims.TrialsDelayAndEnd ∧ Claims.CountersFlush ∧ Claims.CountersConfigure ∧ Claims.CountersFreeze ∧ Claims.EnergyWindows

end
end

