-- ==== Sys2Proof/Laws/State.lean ====
section
/-!
SUPPORT. One lemma per field per update of the state and of a wave, true by unfolding: what an update changes, and that it changes
nothing else.
-/
namespace Sys2Proof.Machine

/-! ## `State.updCore` -/

@[simp] theorem State.updCore_mem (s : State) (c : Nat) (f : Core → Core) : (s.updCore c f).mem = s.mem := rfl
@[simp] theorem State.updCore_poison (s : State) (c : Nat) (f : Core → Core) : (s.updCore c f).poison = s.poison := rfl
@[simp] theorem State.updCore_copies (s : State) (c : Nat) (f : Core → Core) : (s.updCore c f).copies = s.copies := rfl
@[simp] theorem State.updCore_stale (s : State) (c : Nat) (f : Core → Core) : (s.updCore c f).stale = s.stale := rfl
@[simp] theorem State.updCore_atoms (s : State) (c : Nat) (f : Core → Core) : (s.updCore c f).atoms = s.atoms := rfl
@[simp] theorem State.updCore_lines (s : State) (c : Nat) (f : Core → Core) : (s.updCore c f).lines = s.lines := rfl
@[simp] theorem State.updCore_inflight (s : State) (c : Nat) (f : Core → Core) : (s.updCore c f).inflight = s.inflight := rfl
@[simp] theorem State.updCore_time (s : State) (c : Nat) (f : Core → Core) : (s.updCore c f).time = s.time := rfl
@[simp] theorem State.updCore_fresh (s : State) (c : Nat) (f : Core → Core) : (s.updCore c f).fresh = s.fresh := rfl
@[simp] theorem State.updCore_nextId (s : State) (c : Nat) (f : Core → Core) : (s.updCore c f).nextId = s.nextId := rfl
@[simp] theorem State.updCore_inputs (s : State) (c : Nat) (f : Core → Core) : (s.updCore c f).inputs = s.inputs := rfl
@[simp] theorem State.updCore_cur (s : State) (c : Nat) (f : Core → Core) : (s.updCore c f).cur = s.cur := rfl
@[simp] theorem State.updCore_waves (s : State) (c : Nat) (f : Core → Core) : (s.updCore c f).waves = s.waves := rfl
@[simp] theorem State.updCore_groups (s : State) (c : Nat) (f : Core → Core) : (s.updCore c f).groups = s.groups := rfl
@[simp] theorem State.updCore_taken (s : State) (c : Nat) (f : Core → Core) : (s.updCore c f).taken = s.taken := rfl
@[simp] theorem State.updCore_cores (s : State) (c : Nat) (f : Core → Core) : (s.updCore c f).cores = modifyAt c f s.cores := rfl
@[simp] theorem State.updCore_funcs (s : State) (c : Nat) (f : Core → Core) : (s.updCore c f).funcs = s.funcs := rfl
@[simp] theorem State.updCore_fds (s : State) (c : Nat) (f : Core → Core) : (s.updCore c f).fds = s.fds := rfl
@[simp] theorem State.updCore_tlb (s : State) (c : Nat) (f : Core → Core) : (s.updCore c f).tlb = s.tlb := rfl
@[simp] theorem State.updCore_rids (s : State) (c : Nat) (f : Core → Core) : (s.updCore c f).rids = s.rids := rfl
@[simp] theorem State.updCore_msi (s : State) (c : Nat) (f : Core → Core) : (s.updCore c f).msi = s.msi := rfl
@[simp] theorem State.updCore_answers (s : State) (c : Nat) (f : Core → Core) : (s.updCore c f).answers = s.answers := rfl
@[simp] theorem State.updCore_config (s : State) (c : Nat) (f : Core → Core) : (s.updCore c f).config = s.config := rfl
@[simp] theorem State.updCore_nodeid (s : State) (c : Nat) (f : Core → Core) : (s.updCore c f).nodeid = s.nodeid := rfl
@[simp] theorem State.updCore_qtbase (s : State) (c : Nat) (f : Core → Core) : (s.updCore c f).qtbase = s.qtbase := rfl
@[simp] theorem State.updCore_ctxbase (s : State) (c : Nat) (f : Core → Core) : (s.updCore c f).ctxbase = s.ctxbase := rfl
@[simp] theorem State.updCore_astbase (s : State) (c : Nat) (f : Core → Core) : (s.updCore c f).astbase = s.astbase := rfl
@[simp] theorem State.updCore_prectl (s : State) (c : Nat) (f : Core → Core) : (s.updCore c f).prectl = s.prectl := rfl
@[simp] theorem State.updCore_notice (s : State) (c : Nat) (f : Core → Core) : (s.updCore c f).notice = s.notice := rfl
@[simp] theorem State.updCore_past (s : State) (c : Nat) (f : Core → Core) : (s.updCore c f).past = s.past := rfl
@[simp] theorem State.updCore_foreign (s : State) (c : Nat) (f : Core → Core) : (s.updCore c f).foreign = s.foreign := rfl
@[simp] theorem State.updCore_woken (s : State) (c : Nat) (f : Core → Core) : (s.updCore c f).woken = s.woken := rfl
@[simp] theorem State.updCore_upsets (s : State) (c : Nat) (f : Core → Core) : (s.updCore c f).upsets = s.upsets := rfl
@[simp] theorem State.updCore_fleet (s : State) (c : Nat) (f : Core → Core) : (s.updCore c f).fleet = s.fleet := rfl
@[simp] theorem State.updCore_preq (s : State) (c : Nat) (f : Core → Core) : (s.updCore c f).preq = s.preq := rfl
@[simp] theorem State.updCore_routes (s : State) (c : Nat) (f : Core → Core) : (s.updCore c f).routes = s.routes := rfl
@[simp] theorem State.updCore_sent (s : State) (c : Nat) (f : Core → Core) : (s.updCore c f).sent = s.sent := rfl
@[simp] theorem State.updCore_arb (s : State) (c : Nat) (f : Core → Core) : (s.updCore c f).arb = s.arb := rfl
@[simp] theorem State.updCore_events (s : State) (c : Nat) (f : Core → Core) : (s.updCore c f).events = s.events := rfl
@[simp] theorem State.updCore_evbusy (s : State) (c : Nat) (f : Core → Core) : (s.updCore c f).evbusy = s.evbusy := rfl
@[simp] theorem State.updCore_cbars (s : State) (c : Nat) (f : Core → Core) : (s.updCore c f).cbars = s.cbars := rfl
@[simp] theorem State.updCore_lists (s : State) (c : Nat) (f : Core → Core) : (s.updCore c f).lists = s.lists := rfl
@[simp] theorem State.updCore_glz (s : State) (c : Nat) (f : Core → Core) : (s.updCore c f).glz = s.glz := rfl
@[simp] theorem State.updCore_energy (s : State) (c : Nat) (f : Core → Core) : (s.updCore c f).energy = s.energy := rfl
@[simp] theorem State.updCore_boot (s : State) (c : Nat) (f : Core → Core) : (s.updCore c f).boot = s.boot := rfl
@[simp] theorem State.updCore_spares (s : State) (c : Nat) (f : Core → Core) : (s.updCore c f).spares = s.spares := rfl
@[simp] theorem State.updCore_pools (s : State) (c : Nat) (f : Core → Core) : (s.updCore c f).pools = s.pools := rfl
@[simp] theorem State.updCore_refused (s : State) (c : Nat) (f : Core → Core) : (s.updCore c f).refused = s.refused := rfl
@[simp] theorem State.updCore_silent (s : State) (c : Nat) (f : Core → Core) : (s.updCore c f).silent = s.silent := rfl
@[simp] theorem State.updCore_turned (s : State) (c : Nat) (f : Core → Core) : (s.updCore c f).turned = s.turned := rfl
@[simp] theorem State.updCore_fdLoads (s : State) (c : Nat) (f : Core → Core) : (s.updCore c f).fdLoads = s.fdLoads := rfl

/-! ## `State.updFunc` -/

@[simp] theorem State.updFunc_mem (s : State) (i : Nat) (f : Func → Func) : (s.updFunc i f).mem = s.mem := rfl
@[simp] theorem State.updFunc_poison (s : State) (i : Nat) (f : Func → Func) : (s.updFunc i f).poison = s.poison := rfl
@[simp] theorem State.updFunc_copies (s : State) (i : Nat) (f : Func → Func) : (s.updFunc i f).copies = s.copies := rfl
@[simp] theorem State.updFunc_stale (s : State) (i : Nat) (f : Func → Func) : (s.updFunc i f).stale = s.stale := rfl
@[simp] theorem State.updFunc_atoms (s : State) (i : Nat) (f : Func → Func) : (s.updFunc i f).atoms = s.atoms := rfl
@[simp] theorem State.updFunc_lines (s : State) (i : Nat) (f : Func → Func) : (s.updFunc i f).lines = s.lines := rfl
@[simp] theorem State.updFunc_inflight (s : State) (i : Nat) (f : Func → Func) : (s.updFunc i f).inflight = s.inflight := rfl
@[simp] theorem State.updFunc_time (s : State) (i : Nat) (f : Func → Func) : (s.updFunc i f).time = s.time := rfl
@[simp] theorem State.updFunc_fresh (s : State) (i : Nat) (f : Func → Func) : (s.updFunc i f).fresh = s.fresh := rfl
@[simp] theorem State.updFunc_nextId (s : State) (i : Nat) (f : Func → Func) : (s.updFunc i f).nextId = s.nextId := rfl
@[simp] theorem State.updFunc_inputs (s : State) (i : Nat) (f : Func → Func) : (s.updFunc i f).inputs = s.inputs := rfl
@[simp] theorem State.updFunc_cur (s : State) (i : Nat) (f : Func → Func) : (s.updFunc i f).cur = s.cur := rfl
@[simp] theorem State.updFunc_waves (s : State) (i : Nat) (f : Func → Func) : (s.updFunc i f).waves = s.waves := rfl
@[simp] theorem State.updFunc_groups (s : State) (i : Nat) (f : Func → Func) : (s.updFunc i f).groups = s.groups := rfl
@[simp] theorem State.updFunc_taken (s : State) (i : Nat) (f : Func → Func) : (s.updFunc i f).taken = s.taken := rfl
@[simp] theorem State.updFunc_cores (s : State) (i : Nat) (f : Func → Func) : (s.updFunc i f).cores = s.cores := rfl
@[simp] theorem State.updFunc_funcs (s : State) (i : Nat) (f : Func → Func) : (s.updFunc i f).funcs = modifyAt i f s.funcs := rfl
@[simp] theorem State.updFunc_fds (s : State) (i : Nat) (f : Func → Func) : (s.updFunc i f).fds = s.fds := rfl
@[simp] theorem State.updFunc_tlb (s : State) (i : Nat) (f : Func → Func) : (s.updFunc i f).tlb = s.tlb := rfl
@[simp] theorem State.updFunc_rids (s : State) (i : Nat) (f : Func → Func) : (s.updFunc i f).rids = s.rids := rfl
@[simp] theorem State.updFunc_msi (s : State) (i : Nat) (f : Func → Func) : (s.updFunc i f).msi = s.msi := rfl
@[simp] theorem State.updFunc_answers (s : State) (i : Nat) (f : Func → Func) : (s.updFunc i f).answers = s.answers := rfl
@[simp] theorem State.updFunc_config (s : State) (i : Nat) (f : Func → Func) : (s.updFunc i f).config = s.config := rfl
@[simp] theorem State.updFunc_nodeid (s : State) (i : Nat) (f : Func → Func) : (s.updFunc i f).nodeid = s.nodeid := rfl
@[simp] theorem State.updFunc_qtbase (s : State) (i : Nat) (f : Func → Func) : (s.updFunc i f).qtbase = s.qtbase := rfl
@[simp] theorem State.updFunc_ctxbase (s : State) (i : Nat) (f : Func → Func) : (s.updFunc i f).ctxbase = s.ctxbase := rfl
@[simp] theorem State.updFunc_astbase (s : State) (i : Nat) (f : Func → Func) : (s.updFunc i f).astbase = s.astbase := rfl
@[simp] theorem State.updFunc_prectl (s : State) (i : Nat) (f : Func → Func) : (s.updFunc i f).prectl = s.prectl := rfl
@[simp] theorem State.updFunc_notice (s : State) (i : Nat) (f : Func → Func) : (s.updFunc i f).notice = s.notice := rfl
@[simp] theorem State.updFunc_past (s : State) (i : Nat) (f : Func → Func) : (s.updFunc i f).past = s.past := rfl
@[simp] theorem State.updFunc_foreign (s : State) (i : Nat) (f : Func → Func) : (s.updFunc i f).foreign = s.foreign := rfl
@[simp] theorem State.updFunc_woken (s : State) (i : Nat) (f : Func → Func) : (s.updFunc i f).woken = s.woken := rfl
@[simp] theorem State.updFunc_upsets (s : State) (i : Nat) (f : Func → Func) : (s.updFunc i f).upsets = s.upsets := rfl
@[simp] theorem State.updFunc_fleet (s : State) (i : Nat) (f : Func → Func) : (s.updFunc i f).fleet = s.fleet := rfl
@[simp] theorem State.updFunc_preq (s : State) (i : Nat) (f : Func → Func) : (s.updFunc i f).preq = s.preq := rfl
@[simp] theorem State.updFunc_routes (s : State) (i : Nat) (f : Func → Func) : (s.updFunc i f).routes = s.routes := rfl
@[simp] theorem State.updFunc_sent (s : State) (i : Nat) (f : Func → Func) : (s.updFunc i f).sent = s.sent := rfl
@[simp] theorem State.updFunc_arb (s : State) (i : Nat) (f : Func → Func) : (s.updFunc i f).arb = s.arb := rfl
@[simp] theorem State.updFunc_events (s : State) (i : Nat) (f : Func → Func) : (s.updFunc i f).events = s.events := rfl
@[simp] theorem State.updFunc_evbusy (s : State) (i : Nat) (f : Func → Func) : (s.updFunc i f).evbusy = s.evbusy := rfl
@[simp] theorem State.updFunc_cbars (s : State) (i : Nat) (f : Func → Func) : (s.updFunc i f).cbars = s.cbars := rfl
@[simp] theorem State.updFunc_lists (s : State) (i : Nat) (f : Func → Func) : (s.updFunc i f).lists = s.lists := rfl
@[simp] theorem State.updFunc_glz (s : State) (i : Nat) (f : Func → Func) : (s.updFunc i f).glz = s.glz := rfl
@[simp] theorem State.updFunc_energy (s : State) (i : Nat) (f : Func → Func) : (s.updFunc i f).energy = s.energy := rfl
@[simp] theorem State.updFunc_boot (s : State) (i : Nat) (f : Func → Func) : (s.updFunc i f).boot = s.boot := rfl
@[simp] theorem State.updFunc_spares (s : State) (i : Nat) (f : Func → Func) : (s.updFunc i f).spares = s.spares := rfl
@[simp] theorem State.updFunc_pools (s : State) (i : Nat) (f : Func → Func) : (s.updFunc i f).pools = s.pools := rfl
@[simp] theorem State.updFunc_refused (s : State) (i : Nat) (f : Func → Func) : (s.updFunc i f).refused = s.refused := rfl
@[simp] theorem State.updFunc_silent (s : State) (i : Nat) (f : Func → Func) : (s.updFunc i f).silent = s.silent := rfl
@[simp] theorem State.updFunc_turned (s : State) (i : Nat) (f : Func → Func) : (s.updFunc i f).turned = s.turned := rfl
@[simp] theorem State.updFunc_fdLoads (s : State) (i : Nat) (f : Func → Func) : (s.updFunc i f).fdLoads = s.fdLoads := rfl

/-! ## `State.updWave` -/

@[simp] theorem State.updWave_mem (s : State) (wid : Nat) (f : Wave → Wave) : (s.updWave wid f).mem = s.mem := rfl
@[simp] theorem State.updWave_poison (s : State) (wid : Nat) (f : Wave → Wave) : (s.updWave wid f).poison = s.poison := rfl
@[simp] theorem State.updWave_copies (s : State) (wid : Nat) (f : Wave → Wave) : (s.updWave wid f).copies = s.copies := rfl
@[simp] theorem State.updWave_stale (s : State) (wid : Nat) (f : Wave → Wave) : (s.updWave wid f).stale = s.stale := rfl
@[simp] theorem State.updWave_atoms (s : State) (wid : Nat) (f : Wave → Wave) : (s.updWave wid f).atoms = s.atoms := rfl
@[simp] theorem State.updWave_lines (s : State) (wid : Nat) (f : Wave → Wave) : (s.updWave wid f).lines = s.lines := rfl
@[simp] theorem State.updWave_inflight (s : State) (wid : Nat) (f : Wave → Wave) : (s.updWave wid f).inflight = s.inflight := rfl
@[simp] theorem State.updWave_time (s : State) (wid : Nat) (f : Wave → Wave) : (s.updWave wid f).time = s.time := rfl
@[simp] theorem State.updWave_fresh (s : State) (wid : Nat) (f : Wave → Wave) : (s.updWave wid f).fresh = s.fresh := rfl
@[simp] theorem State.updWave_nextId (s : State) (wid : Nat) (f : Wave → Wave) : (s.updWave wid f).nextId = s.nextId := rfl
@[simp] theorem State.updWave_inputs (s : State) (wid : Nat) (f : Wave → Wave) : (s.updWave wid f).inputs = s.inputs := rfl
@[simp] theorem State.updWave_cur (s : State) (wid : Nat) (f : Wave → Wave) : (s.updWave wid f).cur = s.cur := rfl
@[simp] theorem State.updWave_waves (s : State) (wid : Nat) (f : Wave → Wave) : (s.updWave wid f).waves = modifyFirst (fun w => w.wid == wid) f s.waves := rfl
@[simp] theorem State.updWave_groups (s : State) (wid : Nat) (f : Wave → Wave) : (s.updWave wid f).groups = s.groups := rfl
@[simp] theorem State.updWave_taken (s : State) (wid : Nat) (f : Wave → Wave) : (s.updWave wid f).taken = s.taken := rfl
@[simp] theorem State.updWave_cores (s : State) (wid : Nat) (f : Wave → Wave) : (s.updWave wid f).cores = s.cores := rfl
@[simp] theorem State.updWave_funcs (s : State) (wid : Nat) (f : Wave → Wave) : (s.updWave wid f).funcs = s.funcs := rfl
@[simp] theorem State.updWave_fds (s : State) (wid : Nat) (f : Wave → Wave) : (s.updWave wid f).fds = s.fds := rfl
@[simp] theorem State.updWave_tlb (s : State) (wid : Nat) (f : Wave → Wave) : (s.updWave wid f).tlb = s.tlb := rfl
@[simp] theorem State.updWave_rids (s : State) (wid : Nat) (f : Wave → Wave) : (s.updWave wid f).rids = s.rids := rfl
@[simp] theorem State.updWave_msi (s : State) (wid : Nat) (f : Wave → Wave) : (s.updWave wid f).msi = s.msi := rfl
@[simp] theorem State.updWave_answers (s : State) (wid : Nat) (f : Wave → Wave) : (s.updWave wid f).answers = s.answers := rfl
@[simp] theorem State.updWave_config (s : State) (wid : Nat) (f : Wave → Wave) : (s.updWave wid f).config = s.config := rfl
@[simp] theorem State.updWave_nodeid (s : State) (wid : Nat) (f : Wave → Wave) : (s.updWave wid f).nodeid = s.nodeid := rfl
@[simp] theorem State.updWave_qtbase (s : State) (wid : Nat) (f : Wave → Wave) : (s.updWave wid f).qtbase = s.qtbase := rfl
@[simp] theorem State.updWave_ctxbase (s : State) (wid : Nat) (f : Wave → Wave) : (s.updWave wid f).ctxbase = s.ctxbase := rfl
@[simp] theorem State.updWave_astbase (s : State) (wid : Nat) (f : Wave → Wave) : (s.updWave wid f).astbase = s.astbase := rfl
@[simp] theorem State.updWave_prectl (s : State) (wid : Nat) (f : Wave → Wave) : (s.updWave wid f).prectl = s.prectl := rfl
@[simp] theorem State.updWave_notice (s : State) (wid : Nat) (f : Wave → Wave) : (s.updWave wid f).notice = s.notice := rfl
@[simp] theorem State.updWave_past (s : State) (wid : Nat) (f : Wave → Wave) : (s.updWave wid f).past = s.past := rfl
@[simp] theorem State.updWave_foreign (s : State) (wid : Nat) (f : Wave → Wave) : (s.updWave wid f).foreign = s.foreign := rfl
@[simp] theorem State.updWave_woken (s : State) (wid : Nat) (f : Wave → Wave) : (s.updWave wid f).woken = s.woken := rfl
@[simp] theorem State.updWave_upsets (s : State) (wid : Nat) (f : Wave → Wave) : (s.updWave wid f).upsets = s.upsets := rfl
@[simp] theorem State.updWave_fleet (s : State) (wid : Nat) (f : Wave → Wave) : (s.updWave wid f).fleet = s.fleet := rfl
@[simp] theorem State.updWave_preq (s : State) (wid : Nat) (f : Wave → Wave) : (s.updWave wid f).preq = s.preq := rfl
@[simp] theorem State.updWave_routes (s : State) (wid : Nat) (f : Wave → Wave) : (s.updWave wid f).routes = s.routes := rfl
@[simp] theorem State.updWave_sent (s : State) (wid : Nat) (f : Wave → Wave) : (s.updWave wid f).sent = s.sent := rfl
@[simp] theorem State.updWave_arb (s : State) (wid : Nat) (f : Wave → Wave) : (s.updWave wid f).arb = s.arb := rfl
@[simp] theorem State.updWave_events (s : State) (wid : Nat) (f : Wave → Wave) : (s.updWave wid f).events = s.events := rfl
@[simp] theorem State.updWave_evbusy (s : State) (wid : Nat) (f : Wave → Wave) : (s.updWave wid f).evbusy = s.evbusy := rfl
@[simp] theorem State.updWave_cbars (s : State) (wid : Nat) (f : Wave → Wave) : (s.updWave wid f).cbars = s.cbars := rfl
@[simp] theorem State.updWave_lists (s : State) (wid : Nat) (f : Wave → Wave) : (s.updWave wid f).lists = s.lists := rfl
@[simp] theorem State.updWave_glz (s : State) (wid : Nat) (f : Wave → Wave) : (s.updWave wid f).glz = s.glz := rfl
@[simp] theorem State.updWave_energy (s : State) (wid : Nat) (f : Wave → Wave) : (s.updWave wid f).energy = s.energy := rfl
@[simp] theorem State.updWave_boot (s : State) (wid : Nat) (f : Wave → Wave) : (s.updWave wid f).boot = s.boot := rfl
@[simp] theorem State.updWave_spares (s : State) (wid : Nat) (f : Wave → Wave) : (s.updWave wid f).spares = s.spares := rfl
@[simp] theorem State.updWave_pools (s : State) (wid : Nat) (f : Wave → Wave) : (s.updWave wid f).pools = s.pools := rfl
@[simp] theorem State.updWave_refused (s : State) (wid : Nat) (f : Wave → Wave) : (s.updWave wid f).refused = s.refused := rfl
@[simp] theorem State.updWave_silent (s : State) (wid : Nat) (f : Wave → Wave) : (s.updWave wid f).silent = s.silent := rfl
@[simp] theorem State.updWave_turned (s : State) (wid : Nat) (f : Wave → Wave) : (s.updWave wid f).turned = s.turned := rfl
@[simp] theorem State.updWave_fdLoads (s : State) (wid : Nat) (f : Wave → Wave) : (s.updWave wid f).fdLoads = s.fdLoads := rfl

/-! ## `State.updGroup` -/

@[simp] theorem State.updGroup_mem (s : State) (gid : Nat) (f : Group → Group) : (s.updGroup gid f).mem = s.mem := rfl
@[simp] theorem State.updGroup_poison (s : State) (gid : Nat) (f : Group → Group) : (s.updGroup gid f).poison = s.poison := rfl
@[simp] theorem State.updGroup_copies (s : State) (gid : Nat) (f : Group → Group) : (s.updGroup gid f).copies = s.copies := rfl
@[simp] theorem State.updGroup_stale (s : State) (gid : Nat) (f : Group → Group) : (s.updGroup gid f).stale = s.stale := rfl
@[simp] theorem State.updGroup_atoms (s : State) (gid : Nat) (f : Group → Group) : (s.updGroup gid f).atoms = s.atoms := rfl
@[simp] theorem State.updGroup_lines (s : State) (gid : Nat) (f : Group → Group) : (s.updGroup gid f).lines = s.lines := rfl
@[simp] theorem State.updGroup_inflight (s : State) (gid : Nat) (f : Group → Group) : (s.updGroup gid f).inflight = s.inflight := rfl
@[simp] theorem State.updGroup_time (s : State) (gid : Nat) (f : Group → Group) : (s.updGroup gid f).time = s.time := rfl
@[simp] theorem State.updGroup_fresh (s : State) (gid : Nat) (f : Group → Group) : (s.updGroup gid f).fresh = s.fresh := rfl
@[simp] theorem State.updGroup_nextId (s : State) (gid : Nat) (f : Group → Group) : (s.updGroup gid f).nextId = s.nextId := rfl
@[simp] theorem State.updGroup_inputs (s : State) (gid : Nat) (f : Group → Group) : (s.updGroup gid f).inputs = s.inputs := rfl
@[simp] theorem State.updGroup_cur (s : State) (gid : Nat) (f : Group → Group) : (s.updGroup gid f).cur = s.cur := rfl
@[simp] theorem State.updGroup_waves (s : State) (gid : Nat) (f : Group → Group) : (s.updGroup gid f).waves = s.waves := rfl
@[simp] theorem State.updGroup_groups (s : State) (gid : Nat) (f : Group → Group) : (s.updGroup gid f).groups = modifyFirst (fun g => g.gid == gid) f s.groups := rfl
@[simp] theorem State.updGroup_taken (s : State) (gid : Nat) (f : Group → Group) : (s.updGroup gid f).taken = s.taken := rfl
@[simp] theorem State.updGroup_cores (s : State) (gid : Nat) (f : Group → Group) : (s.updGroup gid f).cores = s.cores := rfl
@[simp] theorem State.updGroup_funcs (s : State) (gid : Nat) (f : Group → Group) : (s.updGroup gid f).funcs = s.funcs := rfl
@[simp] theorem State.updGroup_fds (s : State) (gid : Nat) (f : Group → Group) : (s.updGroup gid f).fds = s.fds := rfl
@[simp] theorem State.updGroup_tlb (s : State) (gid : Nat) (f : Group → Group) : (s.updGroup gid f).tlb = s.tlb := rfl
@[simp] theorem State.updGroup_rids (s : State) (gid : Nat) (f : Group → Group) : (s.updGroup gid f).rids = s.rids := rfl
@[simp] theorem State.updGroup_msi (s : State) (gid : Nat) (f : Group → Group) : (s.updGroup gid f).msi = s.msi := rfl
@[simp] theorem State.updGroup_answers (s : State) (gid : Nat) (f : Group → Group) : (s.updGroup gid f).answers = s.answers := rfl
@[simp] theorem State.updGroup_config (s : State) (gid : Nat) (f : Group → Group) : (s.updGroup gid f).config = s.config := rfl
@[simp] theorem State.updGroup_nodeid (s : State) (gid : Nat) (f : Group → Group) : (s.updGroup gid f).nodeid = s.nodeid := rfl
@[simp] theorem State.updGroup_qtbase (s : State) (gid : Nat) (f : Group → Group) : (s.updGroup gid f).qtbase = s.qtbase := rfl
@[simp] theorem State.updGroup_ctxbase (s : State) (gid : Nat) (f : Group → Group) : (s.updGroup gid f).ctxbase = s.ctxbase := rfl
@[simp] theorem State.updGroup_astbase (s : State) (gid : Nat) (f : Group → Group) : (s.updGroup gid f).astbase = s.astbase := rfl
@[simp] theorem State.updGroup_prectl (s : State) (gid : Nat) (f : Group → Group) : (s.updGroup gid f).prectl = s.prectl := rfl
@[simp] theorem State.updGroup_notice (s : State) (gid : Nat) (f : Group → Group) : (s.updGroup gid f).notice = s.notice := rfl
@[simp] theorem State.updGroup_past (s : State) (gid : Nat) (f : Group → Group) : (s.updGroup gid f).past = s.past := rfl
@[simp] theorem State.updGroup_foreign (s : State) (gid : Nat) (f : Group → Group) : (s.updGroup gid f).foreign = s.foreign := rfl
@[simp] theorem State.updGroup_woken (s : State) (gid : Nat) (f : Group → Group) : (s.updGroup gid f).woken = s.woken := rfl
@[simp] theorem State.updGroup_upsets (s : State) (gid : Nat) (f : Group → Group) : (s.updGroup gid f).upsets = s.upsets := rfl
@[simp] theorem State.updGroup_fleet (s : State) (gid : Nat) (f : Group → Group) : (s.updGroup gid f).fleet = s.fleet := rfl
@[simp] theorem State.updGroup_preq (s : State) (gid : Nat) (f : Group → Group) : (s.updGroup gid f).preq = s.preq := rfl
@[simp] theorem State.updGroup_routes (s : State) (gid : Nat) (f : Group → Group) : (s.updGroup gid f).routes = s.routes := rfl
@[simp] theorem State.updGroup_sent (s : State) (gid : Nat) (f : Group → Group) : (s.updGroup gid f).sent = s.sent := rfl
@[simp] theorem State.updGroup_arb (s : State) (gid : Nat) (f : Group → Group) : (s.updGroup gid f).arb = s.arb := rfl
@[simp] theorem State.updGroup_events (s : State) (gid : Nat) (f : Group → Group) : (s.updGroup gid f).events = s.events := rfl
@[simp] theorem State.updGroup_evbusy (s : State) (gid : Nat) (f : Group → Group) : (s.updGroup gid f).evbusy = s.evbusy := rfl
@[simp] theorem State.updGroup_cbars (s : State) (gid : Nat) (f : Group → Group) : (s.updGroup gid f).cbars = s.cbars := rfl
@[simp] theorem State.updGroup_lists (s : State) (gid : Nat) (f : Group → Group) : (s.updGroup gid f).lists = s.lists := rfl
@[simp] theorem State.updGroup_glz (s : State) (gid : Nat) (f : Group → Group) : (s.updGroup gid f).glz = s.glz := rfl
@[simp] theorem State.updGroup_energy (s : State) (gid : Nat) (f : Group → Group) : (s.updGroup gid f).energy = s.energy := rfl
@[simp] theorem State.updGroup_boot (s : State) (gid : Nat) (f : Group → Group) : (s.updGroup gid f).boot = s.boot := rfl
@[simp] theorem State.updGroup_spares (s : State) (gid : Nat) (f : Group → Group) : (s.updGroup gid f).spares = s.spares := rfl
@[simp] theorem State.updGroup_pools (s : State) (gid : Nat) (f : Group → Group) : (s.updGroup gid f).pools = s.pools := rfl
@[simp] theorem State.updGroup_refused (s : State) (gid : Nat) (f : Group → Group) : (s.updGroup gid f).refused = s.refused := rfl
@[simp] theorem State.updGroup_silent (s : State) (gid : Nat) (f : Group → Group) : (s.updGroup gid f).silent = s.silent := rfl
@[simp] theorem State.updGroup_turned (s : State) (gid : Nat) (f : Group → Group) : (s.updGroup gid f).turned = s.turned := rfl
@[simp] theorem State.updGroup_fdLoads (s : State) (gid : Nat) (f : Group → Group) : (s.updGroup gid f).fdLoads = s.fdLoads := rfl

/-! ## `State.updLaunch` -/

@[simp] theorem State.updLaunch_mem (s : State) (lid : Nat) (f : Launch → Launch) : (s.updLaunch lid f).mem = s.mem := rfl
@[simp] theorem State.updLaunch_poison (s : State) (lid : Nat) (f : Launch → Launch) : (s.updLaunch lid f).poison = s.poison := rfl
@[simp] theorem State.updLaunch_copies (s : State) (lid : Nat) (f : Launch → Launch) : (s.updLaunch lid f).copies = s.copies := rfl
@[simp] theorem State.updLaunch_stale (s : State) (lid : Nat) (f : Launch → Launch) : (s.updLaunch lid f).stale = s.stale := rfl
@[simp] theorem State.updLaunch_atoms (s : State) (lid : Nat) (f : Launch → Launch) : (s.updLaunch lid f).atoms = s.atoms := rfl
@[simp] theorem State.updLaunch_lines (s : State) (lid : Nat) (f : Launch → Launch) : (s.updLaunch lid f).lines = s.lines := rfl
@[simp] theorem State.updLaunch_inflight (s : State) (lid : Nat) (f : Launch → Launch) : (s.updLaunch lid f).inflight = s.inflight := rfl
@[simp] theorem State.updLaunch_time (s : State) (lid : Nat) (f : Launch → Launch) : (s.updLaunch lid f).time = s.time := rfl
@[simp] theorem State.updLaunch_fresh (s : State) (lid : Nat) (f : Launch → Launch) : (s.updLaunch lid f).fresh = s.fresh := rfl
@[simp] theorem State.updLaunch_nextId (s : State) (lid : Nat) (f : Launch → Launch) : (s.updLaunch lid f).nextId = s.nextId := rfl
@[simp] theorem State.updLaunch_inputs (s : State) (lid : Nat) (f : Launch → Launch) : (s.updLaunch lid f).inputs = s.inputs := rfl
@[simp] theorem State.updLaunch_cur (s : State) (lid : Nat) (f : Launch → Launch) : (s.updLaunch lid f).cur = s.cur := rfl
@[simp] theorem State.updLaunch_waves (s : State) (lid : Nat) (f : Launch → Launch) : (s.updLaunch lid f).waves = s.waves := rfl
@[simp] theorem State.updLaunch_groups (s : State) (lid : Nat) (f : Launch → Launch) : (s.updLaunch lid f).groups = s.groups := rfl
@[simp] theorem State.updLaunch_taken (s : State) (lid : Nat) (f : Launch → Launch) : (s.updLaunch lid f).taken = modifyFirst (fun l => l.lid == lid) f s.taken := rfl
@[simp] theorem State.updLaunch_cores (s : State) (lid : Nat) (f : Launch → Launch) : (s.updLaunch lid f).cores = s.cores := rfl
@[simp] theorem State.updLaunch_funcs (s : State) (lid : Nat) (f : Launch → Launch) : (s.updLaunch lid f).funcs = s.funcs := rfl
@[simp] theorem State.updLaunch_fds (s : State) (lid : Nat) (f : Launch → Launch) : (s.updLaunch lid f).fds = s.fds := rfl
@[simp] theorem State.updLaunch_tlb (s : State) (lid : Nat) (f : Launch → Launch) : (s.updLaunch lid f).tlb = s.tlb := rfl
@[simp] theorem State.updLaunch_rids (s : State) (lid : Nat) (f : Launch → Launch) : (s.updLaunch lid f).rids = s.rids := rfl
@[simp] theorem State.updLaunch_msi (s : State) (lid : Nat) (f : Launch → Launch) : (s.updLaunch lid f).msi = s.msi := rfl
@[simp] theorem State.updLaunch_answers (s : State) (lid : Nat) (f : Launch → Launch) : (s.updLaunch lid f).answers = s.answers := rfl
@[simp] theorem State.updLaunch_config (s : State) (lid : Nat) (f : Launch → Launch) : (s.updLaunch lid f).config = s.config := rfl
@[simp] theorem State.updLaunch_nodeid (s : State) (lid : Nat) (f : Launch → Launch) : (s.updLaunch lid f).nodeid = s.nodeid := rfl
@[simp] theorem State.updLaunch_qtbase (s : State) (lid : Nat) (f : Launch → Launch) : (s.updLaunch lid f).qtbase = s.qtbase := rfl
@[simp] theorem State.updLaunch_ctxbase (s : State) (lid : Nat) (f : Launch → Launch) : (s.updLaunch lid f).ctxbase = s.ctxbase := rfl
@[simp] theorem State.updLaunch_astbase (s : State) (lid : Nat) (f : Launch → Launch) : (s.updLaunch lid f).astbase = s.astbase := rfl
@[simp] theorem State.updLaunch_prectl (s : State) (lid : Nat) (f : Launch → Launch) : (s.updLaunch lid f).prectl = s.prectl := rfl
@[simp] theorem State.updLaunch_notice (s : State) (lid : Nat) (f : Launch → Launch) : (s.updLaunch lid f).notice = s.notice := rfl
@[simp] theorem State.updLaunch_past (s : State) (lid : Nat) (f : Launch → Launch) : (s.updLaunch lid f).past = s.past := rfl
@[simp] theorem State.updLaunch_foreign (s : State) (lid : Nat) (f : Launch → Launch) : (s.updLaunch lid f).foreign = s.foreign := rfl
@[simp] theorem State.updLaunch_woken (s : State) (lid : Nat) (f : Launch → Launch) : (s.updLaunch lid f).woken = s.woken := rfl
@[simp] theorem State.updLaunch_upsets (s : State) (lid : Nat) (f : Launch → Launch) : (s.updLaunch lid f).upsets = s.upsets := rfl
@[simp] theorem State.updLaunch_fleet (s : State) (lid : Nat) (f : Launch → Launch) : (s.updLaunch lid f).fleet = s.fleet := rfl
@[simp] theorem State.updLaunch_preq (s : State) (lid : Nat) (f : Launch → Launch) : (s.updLaunch lid f).preq = s.preq := rfl
@[simp] theorem State.updLaunch_routes (s : State) (lid : Nat) (f : Launch → Launch) : (s.updLaunch lid f).routes = s.routes := rfl
@[simp] theorem State.updLaunch_sent (s : State) (lid : Nat) (f : Launch → Launch) : (s.updLaunch lid f).sent = s.sent := rfl
@[simp] theorem State.updLaunch_arb (s : State) (lid : Nat) (f : Launch → Launch) : (s.updLaunch lid f).arb = s.arb := rfl
@[simp] theorem State.updLaunch_events (s : State) (lid : Nat) (f : Launch → Launch) : (s.updLaunch lid f).events = s.events := rfl
@[simp] theorem State.updLaunch_evbusy (s : State) (lid : Nat) (f : Launch → Launch) : (s.updLaunch lid f).evbusy = s.evbusy := rfl
@[simp] theorem State.updLaunch_cbars (s : State) (lid : Nat) (f : Launch → Launch) : (s.updLaunch lid f).cbars = s.cbars := rfl
@[simp] theorem State.updLaunch_lists (s : State) (lid : Nat) (f : Launch → Launch) : (s.updLaunch lid f).lists = s.lists := rfl
@[simp] theorem State.updLaunch_glz (s : State) (lid : Nat) (f : Launch → Launch) : (s.updLaunch lid f).glz = s.glz := rfl
@[simp] theorem State.updLaunch_energy (s : State) (lid : Nat) (f : Launch → Launch) : (s.updLaunch lid f).energy = s.energy := rfl
@[simp] theorem State.updLaunch_boot (s : State) (lid : Nat) (f : Launch → Launch) : (s.updLaunch lid f).boot = s.boot := rfl
@[simp] theorem State.updLaunch_spares (s : State) (lid : Nat) (f : Launch → Launch) : (s.updLaunch lid f).spares = s.spares := rfl
@[simp] theorem State.updLaunch_pools (s : State) (lid : Nat) (f : Launch → Launch) : (s.updLaunch lid f).pools = s.pools := rfl
@[simp] theorem State.updLaunch_refused (s : State) (lid : Nat) (f : Launch → Launch) : (s.updLaunch lid f).refused = s.refused := rfl
@[simp] theorem State.updLaunch_silent (s : State) (lid : Nat) (f : Launch → Launch) : (s.updLaunch lid f).silent = s.silent := rfl
@[simp] theorem State.updLaunch_turned (s : State) (lid : Nat) (f : Launch → Launch) : (s.updLaunch lid f).turned = s.turned := rfl
@[simp] theorem State.updLaunch_fdLoads (s : State) (lid : Nat) (f : Launch → Launch) : (s.updLaunch lid f).fdLoads = s.fdLoads := rfl

/-! ## `State.setWave` -/

@[simp] theorem State.setWave_mem (s : State) (w : Wave) : (s.setWave w).mem = s.mem := rfl
@[simp] theorem State.setWave_poison (s : State) (w : Wave) : (s.setWave w).poison = s.poison := rfl
@[simp] theorem State.setWave_copies (s : State) (w : Wave) : (s.setWave w).copies = s.copies := rfl
@[simp] theorem State.setWave_stale (s : State) (w : Wave) : (s.setWave w).stale = s.stale := rfl
@[simp] theorem State.setWave_atoms (s : State) (w : Wave) : (s.setWave w).atoms = s.atoms := rfl
@[simp] theorem State.setWave_lines (s : State) (w : Wave) : (s.setWave w).lines = s.lines := rfl
@[simp] theorem State.setWave_inflight (s : State) (w : Wave) : (s.setWave w).inflight = s.inflight := rfl
@[simp] theorem State.setWave_time (s : State) (w : Wave) : (s.setWave w).time = s.time := rfl
@[simp] theorem State.setWave_fresh (s : State) (w : Wave) : (s.setWave w).fresh = s.fresh := rfl
@[simp] theorem State.setWave_nextId (s : State) (w : Wave) : (s.setWave w).nextId = s.nextId := rfl
@[simp] theorem State.setWave_inputs (s : State) (w : Wave) : (s.setWave w).inputs = s.inputs := rfl
@[simp] theorem State.setWave_cur (s : State) (w : Wave) : (s.setWave w).cur = s.cur := rfl
@[simp] theorem State.setWave_waves (s : State) (w : Wave) : (s.setWave w).waves = modifyFirst (fun v => v.wid == w.wid) (fun _ => w) s.waves := rfl
@[simp] theorem State.setWave_groups (s : State) (w : Wave) : (s.setWave w).groups = s.groups := rfl
@[simp] theorem State.setWave_taken (s : State) (w : Wave) : (s.setWave w).taken = s.taken := rfl
@[simp] theorem State.setWave_cores (s : State) (w : Wave) : (s.setWave w).cores = s.cores := rfl
@[simp] theorem State.setWave_funcs (s : State) (w : Wave) : (s.setWave w).funcs = s.funcs := rfl
@[simp] theorem State.setWave_fds (s : State) (w : Wave) : (s.setWave w).fds = s.fds := rfl
@[simp] theorem State.setWave_tlb (s : State) (w : Wave) : (s.setWave w).tlb = s.tlb := rfl
@[simp] theorem State.setWave_rids (s : State) (w : Wave) : (s.setWave w).rids = s.rids := rfl
@[simp] theorem State.setWave_msi (s : State) (w : Wave) : (s.setWave w).msi = s.msi := rfl
@[simp] theorem State.setWave_answers (s : State) (w : Wave) : (s.setWave w).answers = s.answers := rfl
@[simp] theorem State.setWave_config (s : State) (w : Wave) : (s.setWave w).config = s.config := rfl
@[simp] theorem State.setWave_nodeid (s : State) (w : Wave) : (s.setWave w).nodeid = s.nodeid := rfl
@[simp] theorem State.setWave_qtbase (s : State) (w : Wave) : (s.setWave w).qtbase = s.qtbase := rfl
@[simp] theorem State.setWave_ctxbase (s : State) (w : Wave) : (s.setWave w).ctxbase = s.ctxbase := rfl
@[simp] theorem State.setWave_astbase (s : State) (w : Wave) : (s.setWave w).astbase = s.astbase := rfl
@[simp] theorem State.setWave_prectl (s : State) (w : Wave) : (s.setWave w).prectl = s.prectl := rfl
@[simp] theorem State.setWave_notice (s : State) (w : Wave) : (s.setWave w).notice = s.notice := rfl
@[simp] theorem State.setWave_past (s : State) (w : Wave) : (s.setWave w).past = s.past := rfl
@[simp] theorem State.setWave_foreign (s : State) (w : Wave) : (s.setWave w).foreign = s.foreign := rfl
@[simp] theorem State.setWave_woken (s : State) (w : Wave) : (s.setWave w).woken = s.woken := rfl
@[simp] theorem State.setWave_upsets (s : State) (w : Wave) : (s.setWave w).upsets = s.upsets := rfl
@[simp] theorem State.setWave_fleet (s : State) (w : Wave) : (s.setWave w).fleet = s.fleet := rfl
@[simp] theorem State.setWave_preq (s : State) (w : Wave) : (s.setWave w).preq = s.preq := rfl
@[simp] theorem State.setWave_routes (s : State) (w : Wave) : (s.setWave w).routes = s.routes := rfl
@[simp] theorem State.setWave_sent (s : State) (w : Wave) : (s.setWave w).sent = s.sent := rfl
@[simp] theorem State.setWave_arb (s : State) (w : Wave) : (s.setWave w).arb = s.arb := rfl
@[simp] theorem State.setWave_events (s : State) (w : Wave) : (s.setWave w).events = s.events := rfl
@[simp] theorem State.setWave_evbusy (s : State) (w : Wave) : (s.setWave w).evbusy = s.evbusy := rfl
@[simp] theorem State.setWave_cbars (s : State) (w : Wave) : (s.setWave w).cbars = s.cbars := rfl
@[simp] theorem State.setWave_lists (s : State) (w : Wave) : (s.setWave w).lists = s.lists := rfl
@[simp] theorem State.setWave_glz (s : State) (w : Wave) : (s.setWave w).glz = s.glz := rfl
@[simp] theorem State.setWave_energy (s : State) (w : Wave) : (s.setWave w).energy = s.energy := rfl
@[simp] theorem State.setWave_boot (s : State) (w : Wave) : (s.setWave w).boot = s.boot := rfl
@[simp] theorem State.setWave_spares (s : State) (w : Wave) : (s.setWave w).spares = s.spares := rfl
@[simp] theorem State.setWave_pools (s : State) (w : Wave) : (s.setWave w).pools = s.pools := rfl
@[simp] theorem State.setWave_refused (s : State) (w : Wave) : (s.setWave w).refused = s.refused := rfl
@[simp] theorem State.setWave_silent (s : State) (w : Wave) : (s.setWave w).silent = s.silent := rfl
@[simp] theorem State.setWave_turned (s : State) (w : Wave) : (s.setWave w).turned = s.turned := rfl
@[simp] theorem State.setWave_fdLoads (s : State) (w : Wave) : (s.setWave w).fdLoads = s.fdLoads := rfl

/-! ## `State.signal` -/

@[simp] theorem State.signal_mem (s : State) (f v : Nat) : (s.signal f v).mem = s.mem := by unfold State.signal; split <;> rfl
@[simp] theorem State.signal_poison (s : State) (f v : Nat) : (s.signal f v).poison = s.poison := by unfold State.signal; split <;> rfl
@[simp] theorem State.signal_copies (s : State) (f v : Nat) : (s.signal f v).copies = s.copies := by unfold State.signal; split <;> rfl
@[simp] theorem State.signal_stale (s : State) (f v : Nat) : (s.signal f v).stale = s.stale := by unfold State.signal; split <;> rfl
@[simp] theorem State.signal_atoms (s : State) (f v : Nat) : (s.signal f v).atoms = s.atoms := by unfold State.signal; split <;> rfl
@[simp] theorem State.signal_lines (s : State) (f v : Nat) : (s.signal f v).lines = s.lines := by unfold State.signal; split <;> rfl
@[simp] theorem State.signal_inflight (s : State) (f v : Nat) : (s.signal f v).inflight = s.inflight := by unfold State.signal; split <;> rfl
@[simp] theorem State.signal_time (s : State) (f v : Nat) : (s.signal f v).time = s.time := by unfold State.signal; split <;> rfl
@[simp] theorem State.signal_fresh (s : State) (f v : Nat) : (s.signal f v).fresh = s.fresh := by unfold State.signal; split <;> rfl
@[simp] theorem State.signal_nextId (s : State) (f v : Nat) : (s.signal f v).nextId = s.nextId := by unfold State.signal; split <;> rfl
@[simp] theorem State.signal_inputs (s : State) (f v : Nat) : (s.signal f v).inputs = s.inputs := by unfold State.signal; split <;> rfl
@[simp] theorem State.signal_cur (s : State) (f v : Nat) : (s.signal f v).cur = s.cur := by unfold State.signal; split <;> rfl
@[simp] theorem State.signal_waves (s : State) (f v : Nat) : (s.signal f v).waves = s.waves := by unfold State.signal; split <;> rfl
@[simp] theorem State.signal_groups (s : State) (f v : Nat) : (s.signal f v).groups = s.groups := by unfold State.signal; split <;> rfl
@[simp] theorem State.signal_taken (s : State) (f v : Nat) : (s.signal f v).taken = s.taken := by unfold State.signal; split <;> rfl
@[simp] theorem State.signal_cores (s : State) (f v : Nat) : (s.signal f v).cores = s.cores := by unfold State.signal; split <;> rfl
@[simp] theorem State.signal_funcs_open {s : State} {f v : Nat} (h : (s.func f).open v = true) : (s.signal f v).funcs = s.funcs := by simp [State.signal, h]
@[simp] theorem State.signal_fds (s : State) (f v : Nat) : (s.signal f v).fds = s.fds := by unfold State.signal; split <;> rfl
@[simp] theorem State.signal_tlb (s : State) (f v : Nat) : (s.signal f v).tlb = s.tlb := by unfold State.signal; split <;> rfl
@[simp] theorem State.signal_rids (s : State) (f v : Nat) : (s.signal f v).rids = s.rids := by unfold State.signal; split <;> rfl
@[simp] theorem State.signal_msi (s : State) (f v : Nat) : (s.signal f v).msi = if (s.func f).open v then s.msi ++ [(f, v)] else s.msi := by unfold State.signal; split <;> rfl
@[simp] theorem State.signal_answers (s : State) (f v : Nat) : (s.signal f v).answers = s.answers := by unfold State.signal; split <;> rfl
@[simp] theorem State.signal_config (s : State) (f v : Nat) : (s.signal f v).config = s.config := by unfold State.signal; split <;> rfl
@[simp] theorem State.signal_nodeid (s : State) (f v : Nat) : (s.signal f v).nodeid = s.nodeid := by unfold State.signal; split <;> rfl
@[simp] theorem State.signal_qtbase (s : State) (f v : Nat) : (s.signal f v).qtbase = s.qtbase := by unfold State.signal; split <;> rfl
@[simp] theorem State.signal_ctxbase (s : State) (f v : Nat) : (s.signal f v).ctxbase = s.ctxbase := by unfold State.signal; split <;> rfl
@[simp] theorem State.signal_astbase (s : State) (f v : Nat) : (s.signal f v).astbase = s.astbase := by unfold State.signal; split <;> rfl
@[simp] theorem State.signal_prectl (s : State) (f v : Nat) : (s.signal f v).prectl = s.prectl := by unfold State.signal; split <;> rfl
@[simp] theorem State.signal_notice (s : State) (f v : Nat) : (s.signal f v).notice = s.notice := by unfold State.signal; split <;> rfl
@[simp] theorem State.signal_past (s : State) (f v : Nat) : (s.signal f v).past = s.past := by unfold State.signal; split <;> rfl
@[simp] theorem State.signal_foreign (s : State) (f v : Nat) : (s.signal f v).foreign = s.foreign := by unfold State.signal; split <;> rfl
@[simp] theorem State.signal_woken (s : State) (f v : Nat) : (s.signal f v).woken = s.woken := by unfold State.signal; split <;> rfl
@[simp] theorem State.signal_upsets (s : State) (f v : Nat) : (s.signal f v).upsets = s.upsets := by unfold State.signal; split <;> rfl
@[simp] theorem State.signal_fleet (s : State) (f v : Nat) : (s.signal f v).fleet = s.fleet := by unfold State.signal; split <;> rfl
@[simp] theorem State.signal_preq (s : State) (f v : Nat) : (s.signal f v).preq = s.preq := by unfold State.signal; split <;> rfl
@[simp] theorem State.signal_routes (s : State) (f v : Nat) : (s.signal f v).routes = s.routes := by unfold State.signal; split <;> rfl
@[simp] theorem State.signal_sent (s : State) (f v : Nat) : (s.signal f v).sent = s.sent := by unfold State.signal; split <;> rfl
@[simp] theorem State.signal_arb (s : State) (f v : Nat) : (s.signal f v).arb = s.arb := by unfold State.signal; split <;> rfl
@[simp] theorem State.signal_events (s : State) (f v : Nat) : (s.signal f v).events = s.events := by unfold State.signal; split <;> rfl
@[simp] theorem State.signal_evbusy (s : State) (f v : Nat) : (s.signal f v).evbusy = s.evbusy := by unfold State.signal; split <;> rfl
@[simp] theorem State.signal_cbars (s : State) (f v : Nat) : (s.signal f v).cbars = s.cbars := by unfold State.signal; split <;> rfl
@[simp] theorem State.signal_lists (s : State) (f v : Nat) : (s.signal f v).lists = s.lists := by unfold State.signal; split <;> rfl
@[simp] theorem State.signal_glz (s : State) (f v : Nat) : (s.signal f v).glz = s.glz := by unfold State.signal; split <;> rfl
@[simp] theorem State.signal_energy (s : State) (f v : Nat) : (s.signal f v).energy = s.energy := by unfold State.signal; split <;> rfl
@[simp] theorem State.signal_boot (s : State) (f v : Nat) : (s.signal f v).boot = s.boot := by unfold State.signal; split <;> rfl
@[simp] theorem State.signal_spares (s : State) (f v : Nat) : (s.signal f v).spares = s.spares := by unfold State.signal; split <;> rfl
@[simp] theorem State.signal_pools (s : State) (f v : Nat) : (s.signal f v).pools = s.pools := by unfold State.signal; split <;> rfl
@[simp] theorem State.signal_refused (s : State) (f v : Nat) : (s.signal f v).refused = s.refused := by unfold State.signal; split <;> rfl
@[simp] theorem State.signal_silent (s : State) (f v : Nat) : (s.signal f v).silent = s.silent := by unfold State.signal; split <;> rfl
@[simp] theorem State.signal_turned (s : State) (f v : Nat) : (s.signal f v).turned = s.turned := by unfold State.signal; split <;> rfl
@[simp] theorem State.signal_fdLoads (s : State) (f v : Nat) : (s.signal f v).fdLoads = s.fdLoads := by unfold State.signal; split <;> rfl

/-! ## `State.retire` -/

@[simp] theorem State.retire_mem (s : State) (c : Ctx) (i : Instr) (w : Wave) : (s.retire c i w).mem = s.mem := rfl
@[simp] theorem State.retire_poison (s : State) (c : Ctx) (i : Instr) (w : Wave) : (s.retire c i w).poison = s.poison := rfl
@[simp] theorem State.retire_copies (s : State) (c : Ctx) (i : Instr) (w : Wave) : (s.retire c i w).copies = s.copies := rfl
@[simp] theorem State.retire_stale (s : State) (c : Ctx) (i : Instr) (w : Wave) : (s.retire c i w).stale = s.stale := rfl
@[simp] theorem State.retire_atoms (s : State) (c : Ctx) (i : Instr) (w : Wave) : (s.retire c i w).atoms = s.atoms := rfl
@[simp] theorem State.retire_lines (s : State) (c : Ctx) (i : Instr) (w : Wave) : (s.retire c i w).lines = s.lines := rfl
@[simp] theorem State.retire_inflight (s : State) (c : Ctx) (i : Instr) (w : Wave) : (s.retire c i w).inflight = s.inflight := rfl
@[simp] theorem State.retire_time (s : State) (c : Ctx) (i : Instr) (w : Wave) : (s.retire c i w).time = s.time := rfl
@[simp] theorem State.retire_fresh (s : State) (c : Ctx) (i : Instr) (w : Wave) : (s.retire c i w).fresh = s.fresh := rfl
@[simp] theorem State.retire_nextId (s : State) (c : Ctx) (i : Instr) (w : Wave) : (s.retire c i w).nextId = s.nextId := rfl
@[simp] theorem State.retire_inputs (s : State) (c : Ctx) (i : Instr) (w : Wave) : (s.retire c i w).inputs = s.inputs := rfl
@[simp] theorem State.retire_cur (s : State) (c : Ctx) (i : Instr) (w : Wave) : (s.retire c i w).cur = s.cur := rfl
@[simp] theorem State.retire_waves (s : State) (c : Ctx) (i : Instr) (w : Wave) : (s.retire c i w).waves = modifyFirst (fun v => v.wid == (c.advance i w).wid) (fun _ => c.advance i w) s.waves := rfl
@[simp] theorem State.retire_groups (s : State) (c : Ctx) (i : Instr) (w : Wave) : (s.retire c i w).groups = s.groups := rfl
@[simp] theorem State.retire_taken (s : State) (c : Ctx) (i : Instr) (w : Wave) : (s.retire c i w).taken = s.taken := rfl
@[simp] theorem State.retire_cores (s : State) (c : Ctx) (i : Instr) (w : Wave) : (s.retire c i w).cores = s.cores := rfl
@[simp] theorem State.retire_funcs (s : State) (c : Ctx) (i : Instr) (w : Wave) : (s.retire c i w).funcs = s.funcs := rfl
@[simp] theorem State.retire_fds (s : State) (c : Ctx) (i : Instr) (w : Wave) : (s.retire c i w).fds = s.fds := rfl
@[simp] theorem State.retire_tlb (s : State) (c : Ctx) (i : Instr) (w : Wave) : (s.retire c i w).tlb = s.tlb := rfl
@[simp] theorem State.retire_rids (s : State) (c : Ctx) (i : Instr) (w : Wave) : (s.retire c i w).rids = s.rids := rfl
@[simp] theorem State.retire_msi (s : State) (c : Ctx) (i : Instr) (w : Wave) : (s.retire c i w).msi = s.msi := rfl
@[simp] theorem State.retire_answers (s : State) (c : Ctx) (i : Instr) (w : Wave) : (s.retire c i w).answers = s.answers := rfl
@[simp] theorem State.retire_config (s : State) (c : Ctx) (i : Instr) (w : Wave) : (s.retire c i w).config = s.config := rfl
@[simp] theorem State.retire_nodeid (s : State) (c : Ctx) (i : Instr) (w : Wave) : (s.retire c i w).nodeid = s.nodeid := rfl
@[simp] theorem State.retire_qtbase (s : State) (c : Ctx) (i : Instr) (w : Wave) : (s.retire c i w).qtbase = s.qtbase := rfl
@[simp] theorem State.retire_ctxbase (s : State) (c : Ctx) (i : Instr) (w : Wave) : (s.retire c i w).ctxbase = s.ctxbase := rfl
@[simp] theorem State.retire_astbase (s : State) (c : Ctx) (i : Instr) (w : Wave) : (s.retire c i w).astbase = s.astbase := rfl
@[simp] theorem State.retire_prectl (s : State) (c : Ctx) (i : Instr) (w : Wave) : (s.retire c i w).prectl = s.prectl := rfl
@[simp] theorem State.retire_notice (s : State) (c : Ctx) (i : Instr) (w : Wave) : (s.retire c i w).notice = s.notice := rfl
@[simp] theorem State.retire_past (s : State) (c : Ctx) (i : Instr) (w : Wave) : (s.retire c i w).past = s.past := rfl
@[simp] theorem State.retire_foreign (s : State) (c : Ctx) (i : Instr) (w : Wave) : (s.retire c i w).foreign = s.foreign := rfl
@[simp] theorem State.retire_woken (s : State) (c : Ctx) (i : Instr) (w : Wave) : (s.retire c i w).woken = s.woken := rfl
@[simp] theorem State.retire_upsets (s : State) (c : Ctx) (i : Instr) (w : Wave) : (s.retire c i w).upsets = s.upsets := rfl
@[simp] theorem State.retire_fleet (s : State) (c : Ctx) (i : Instr) (w : Wave) : (s.retire c i w).fleet = s.fleet := rfl
@[simp] theorem State.retire_preq (s : State) (c : Ctx) (i : Instr) (w : Wave) : (s.retire c i w).preq = s.preq := rfl
@[simp] theorem State.retire_routes (s : State) (c : Ctx) (i : Instr) (w : Wave) : (s.retire c i w).routes = s.routes := rfl
@[simp] theorem State.retire_sent (s : State) (c : Ctx) (i : Instr) (w : Wave) : (s.retire c i w).sent = s.sent := rfl
@[simp] theorem State.retire_arb (s : State) (c : Ctx) (i : Instr) (w : Wave) : (s.retire c i w).arb = s.arb := rfl
@[simp] theorem State.retire_events (s : State) (c : Ctx) (i : Instr) (w : Wave) : (s.retire c i w).events = s.events := rfl
@[simp] theorem State.retire_evbusy (s : State) (c : Ctx) (i : Instr) (w : Wave) : (s.retire c i w).evbusy = s.evbusy := rfl
@[simp] theorem State.retire_cbars (s : State) (c : Ctx) (i : Instr) (w : Wave) : (s.retire c i w).cbars = s.cbars := rfl
@[simp] theorem State.retire_lists (s : State) (c : Ctx) (i : Instr) (w : Wave) : (s.retire c i w).lists = s.lists := rfl
@[simp] theorem State.retire_glz (s : State) (c : Ctx) (i : Instr) (w : Wave) : (s.retire c i w).glz = s.glz := rfl
@[simp] theorem State.retire_energy (s : State) (c : Ctx) (i : Instr) (w : Wave) : (s.retire c i w).energy = s.energy := rfl
@[simp] theorem State.retire_boot (s : State) (c : Ctx) (i : Instr) (w : Wave) : (s.retire c i w).boot = s.boot := rfl
@[simp] theorem State.retire_spares (s : State) (c : Ctx) (i : Instr) (w : Wave) : (s.retire c i w).spares = s.spares := rfl
@[simp] theorem State.retire_pools (s : State) (c : Ctx) (i : Instr) (w : Wave) : (s.retire c i w).pools = s.pools := rfl
@[simp] theorem State.retire_refused (s : State) (c : Ctx) (i : Instr) (w : Wave) : (s.retire c i w).refused = s.refused := rfl
@[simp] theorem State.retire_silent (s : State) (c : Ctx) (i : Instr) (w : Wave) : (s.retire c i w).silent = s.silent := rfl
@[simp] theorem State.retire_turned (s : State) (c : Ctx) (i : Instr) (w : Wave) : (s.retire c i w).turned = s.turned := rfl
@[simp] theorem State.retire_fdLoads (s : State) (c : Ctx) (i : Instr) (w : Wave) : (s.retire c i w).fdLoads = s.fdLoads := rfl

/-! ## `State.newId`, `State.draw` -/

@[simp] theorem State.newId_fst (s : State) : s.newId.1 = s.nextId := rfl
@[simp] theorem State.draw_fst (s : State) : s.draw.1 = s.fresh := rfl
@[simp] theorem State.newId_mem (s : State) : s.newId.2.mem = s.mem := rfl
@[simp] theorem State.newId_poison (s : State) : s.newId.2.poison = s.poison := rfl
@[simp] theorem State.newId_copies (s : State) : s.newId.2.copies = s.copies := rfl
@[simp] theorem State.newId_stale (s : State) : s.newId.2.stale = s.stale := rfl
@[simp] theorem State.newId_atoms (s : State) : s.newId.2.atoms = s.atoms := rfl
@[simp] theorem State.newId_lines (s : State) : s.newId.2.lines = s.lines := rfl
@[simp] theorem State.newId_inflight (s : State) : s.newId.2.inflight = s.inflight := rfl
@[simp] theorem State.newId_time (s : State) : s.newId.2.time = s.time := rfl
@[simp] theorem State.newId_fresh (s : State) : s.newId.2.fresh = s.fresh := rfl
@[simp] theorem State.newId_nextId (s : State) : s.newId.2.nextId = s.nextId + 1 := rfl
@[simp] theorem State.newId_inputs (s : State) : s.newId.2.inputs = s.inputs := rfl
@[simp] theorem State.newId_cur (s : State) : s.newId.2.cur = s.cur := rfl
@[simp] theorem State.newId_waves (s : State) : s.newId.2.waves = s.waves := rfl
@[simp] theorem State.newId_groups (s : State) : s.newId.2.groups = s.groups := rfl
@[simp] theorem State.newId_taken (s : State) : s.newId.2.taken = s.taken := rfl
@[simp] theorem State.newId_cores (s : State) : s.newId.2.cores = s.cores := rfl
@[simp] theorem State.newId_funcs (s : State) : s.newId.2.funcs = s.funcs := rfl
@[simp] theorem State.newId_fds (s : State) : s.newId.2.fds = s.fds := rfl
@[simp] theorem State.newId_tlb (s : State) : s.newId.2.tlb = s.tlb := rfl
@[simp] theorem State.newId_rids (s : State) : s.newId.2.rids = s.rids := rfl
@[simp] theorem State.newId_msi (s : State) : s.newId.2.msi = s.msi := rfl
@[simp] theorem State.newId_answers (s : State) : s.newId.2.answers = s.answers := rfl
@[simp] theorem State.newId_config (s : State) : s.newId.2.config = s.config := rfl
@[simp] theorem State.newId_nodeid (s : State) : s.newId.2.nodeid = s.nodeid := rfl
@[simp] theorem State.newId_qtbase (s : State) : s.newId.2.qtbase = s.qtbase := rfl
@[simp] theorem State.newId_ctxbase (s : State) : s.newId.2.ctxbase = s.ctxbase := rfl
@[simp] theorem State.newId_astbase (s : State) : s.newId.2.astbase = s.astbase := rfl
@[simp] theorem State.newId_prectl (s : State) : s.newId.2.prectl = s.prectl := rfl
@[simp] theorem State.newId_notice (s : State) : s.newId.2.notice = s.notice := rfl
@[simp] theorem State.newId_past (s : State) : s.newId.2.past = s.past := rfl
@[simp] theorem State.newId_foreign (s : State) : s.newId.2.foreign = s.foreign := rfl
@[simp] theorem State.newId_woken (s : State) : s.newId.2.woken = s.woken := rfl
@[simp] theorem State.newId_upsets (s : State) : s.newId.2.upsets = s.upsets := rfl
@[simp] theorem State.newId_fleet (s : State) : s.newId.2.fleet = s.fleet := rfl
@[simp] theorem State.newId_preq (s : State) : s.newId.2.preq = s.preq := rfl
@[simp] theorem State.newId_routes (s : State) : s.newId.2.routes = s.routes := rfl
@[simp] theorem State.newId_sent (s : State) : s.newId.2.sent = s.sent := rfl
@[simp] theorem State.newId_arb (s : State) : s.newId.2.arb = s.arb := rfl
@[simp] theorem State.newId_events (s : State) : s.newId.2.events = s.events := rfl
@[simp] theorem State.newId_evbusy (s : State) : s.newId.2.evbusy = s.evbusy := rfl
@[simp] theorem State.newId_cbars (s : State) : s.newId.2.cbars = s.cbars := rfl
@[simp] theorem State.newId_lists (s : State) : s.newId.2.lists = s.lists := rfl
@[simp] theorem State.newId_glz (s : State) : s.newId.2.glz = s.glz := rfl
@[simp] theorem State.newId_energy (s : State) : s.newId.2.energy = s.energy := rfl
@[simp] theorem State.newId_boot (s : State) : s.newId.2.boot = s.boot := rfl
@[simp] theorem State.newId_spares (s : State) : s.newId.2.spares = s.spares := rfl
@[simp] theorem State.newId_pools (s : State) : s.newId.2.pools = s.pools := rfl
@[simp] theorem State.newId_refused (s : State) : s.newId.2.refused = s.refused := rfl
@[simp] theorem State.newId_silent (s : State) : s.newId.2.silent = s.silent := rfl
@[simp] theorem State.newId_turned (s : State) : s.newId.2.turned = s.turned := rfl
@[simp] theorem State.newId_fdLoads (s : State) : s.newId.2.fdLoads = s.fdLoads := rfl
@[simp] theorem State.draw_mem (s : State) : s.draw.2.mem = s.mem := rfl
@[simp] theorem State.draw_poison (s : State) : s.draw.2.poison = s.poison := rfl
@[simp] theorem State.draw_copies (s : State) : s.draw.2.copies = s.copies := rfl
@[simp] theorem State.draw_stale (s : State) : s.draw.2.stale = s.stale := rfl
@[simp] theorem State.draw_atoms (s : State) : s.draw.2.atoms = s.atoms := rfl
@[simp] theorem State.draw_lines (s : State) : s.draw.2.lines = s.lines := rfl
@[simp] theorem State.draw_inflight (s : State) : s.draw.2.inflight = s.inflight := rfl
@[simp] theorem State.draw_time (s : State) : s.draw.2.time = s.time := rfl
@[simp] theorem State.draw_fresh (s : State) : s.draw.2.fresh = s.fresh + 1 := rfl
@[simp] theorem State.draw_nextId (s : State) : s.draw.2.nextId = s.nextId := rfl
@[simp] theorem State.draw_inputs (s : State) : s.draw.2.inputs = s.inputs := rfl
@[simp] theorem State.draw_cur (s : State) : s.draw.2.cur = s.cur := rfl
@[simp] theorem State.draw_waves (s : State) : s.draw.2.waves = s.waves := rfl
@[simp] theorem State.draw_groups (s : State) : s.draw.2.groups = s.groups := rfl
@[simp] theorem State.draw_taken (s : State) : s.draw.2.taken = s.taken := rfl
@[simp] theorem State.draw_cores (s : State) : s.draw.2.cores = s.cores := rfl
@[simp] theorem State.draw_funcs (s : State) : s.draw.2.funcs = s.funcs := rfl
@[simp] theorem State.draw_fds (s : State) : s.draw.2.fds = s.fds := rfl
@[simp] theorem State.draw_tlb (s : State) : s.draw.2.tlb = s.tlb := rfl
@[simp] theorem State.draw_rids (s : State) : s.draw.2.rids = s.rids := rfl
@[simp] theorem State.draw_msi (s : State) : s.draw.2.msi = s.msi := rfl
@[simp] theorem State.draw_answers (s : State) : s.draw.2.answers = s.answers := rfl
@[simp] theorem State.draw_config (s : State) : s.draw.2.config = s.config := rfl
@[simp] theorem State.draw_nodeid (s : State) : s.draw.2.nodeid = s.nodeid := rfl
@[simp] theorem State.draw_qtbase (s : State) : s.draw.2.qtbase = s.qtbase := rfl
@[simp] theorem State.draw_ctxbase (s : State) : s.draw.2.ctxbase = s.ctxbase := rfl
@[simp] theorem State.draw_astbase (s : State) : s.draw.2.astbase = s.astbase := rfl
@[simp] theorem State.draw_prectl (s : State) : s.draw.2.prectl = s.prectl := rfl
@[simp] theorem State.draw_notice (s : State) : s.draw.2.notice = s.notice := rfl
@[simp] theorem State.draw_past (s : State) : s.draw.2.past = s.past := rfl
@[simp] theorem State.draw_foreign (s : State) : s.draw.2.foreign = s.foreign := rfl
@[simp] theorem State.draw_woken (s : State) : s.draw.2.woken = s.woken := rfl
@[simp] theorem State.draw_upsets (s : State) : s.draw.2.upsets = s.upsets := rfl
@[simp] theorem State.draw_fleet (s : State) : s.draw.2.fleet = s.fleet := rfl
@[simp] theorem State.draw_preq (s : State) : s.draw.2.preq = s.preq := rfl
@[simp] theorem State.draw_routes (s : State) : s.draw.2.routes = s.routes := rfl
@[simp] theorem State.draw_sent (s : State) : s.draw.2.sent = s.sent := rfl
@[simp] theorem State.draw_arb (s : State) : s.draw.2.arb = s.arb := rfl
@[simp] theorem State.draw_events (s : State) : s.draw.2.events = s.events := rfl
@[simp] theorem State.draw_evbusy (s : State) : s.draw.2.evbusy = s.evbusy := rfl
@[simp] theorem State.draw_cbars (s : State) : s.draw.2.cbars = s.cbars := rfl
@[simp] theorem State.draw_lists (s : State) : s.draw.2.lists = s.lists := rfl
@[simp] theorem State.draw_glz (s : State) : s.draw.2.glz = s.glz := rfl
@[simp] theorem State.draw_energy (s : State) : s.draw.2.energy = s.energy := rfl
@[simp] theorem State.draw_boot (s : State) : s.draw.2.boot = s.boot := rfl
@[simp] theorem State.draw_spares (s : State) : s.draw.2.spares = s.spares := rfl
@[simp] theorem State.draw_pools (s : State) : s.draw.2.pools = s.pools := rfl
@[simp] theorem State.draw_refused (s : State) : s.draw.2.refused = s.refused := rfl
@[simp] theorem State.draw_silent (s : State) : s.draw.2.silent = s.silent := rfl
@[simp] theorem State.draw_turned (s : State) : s.draw.2.turned = s.turned := rfl
@[simp] theorem State.draw_fdLoads (s : State) : s.draw.2.fdLoads = s.fdLoads := rfl

/-! ## `Wave.updEnt` -/

@[simp] theorem Wave.updEnt_wid (w : Wave) (e : Nat) (f : SplitEntry → SplitEntry) : (w.updEnt e f).wid = w.wid := rfl
@[simp] theorem Wave.updEnt_gid (w : Wave) (e : Nat) (f : SplitEntry → SplitEntry) : (w.updEnt e f).gid = w.gid := rfl
@[simp] theorem Wave.updEnt_idx (w : Wave) (e : Nat) (f : SplitEntry → SplitEntry) : (w.updEnt e f).idx = w.idx := rfl
@[simp] theorem Wave.updEnt_width (w : Wave) (e : Nat) (f : SplitEntry → SplitEntry) : (w.updEnt e f).width = w.width := rfl
@[simp] theorem Wave.updEnt_core (w : Wave) (e : Nat) (f : SplitEntry → SplitEntry) : (w.updEnt e f).core = w.core := rfl
@[simp] theorem Wave.updEnt_part (w : Wave) (e : Nat) (f : SplitEntry → SplitEntry) : (w.updEnt e f).part = w.part := rfl
@[simp] theorem Wave.updEnt_slot (w : Wave) (e : Nat) (f : SplitEntry → SplitEntry) : (w.updEnt e f).slot = w.slot := rfl
@[simp] theorem Wave.updEnt_qbase (w : Wave) (e : Nat) (f : SplitEntry → SplitEntry) : (w.updEnt e f).qbase = w.qbase := rfl
@[simp] theorem Wave.updEnt_budget (w : Wave) (e : Nat) (f : SplitEntry → SplitEntry) : (w.updEnt e f).budget = w.budget := rfl
@[simp] theorem Wave.updEnt_launched (w : Wave) (e : Nat) (f : SplitEntry → SplitEntry) : (w.updEnt e f).launched = w.launched := rfl
@[simp] theorem Wave.updEnt_exited (w : Wave) (e : Nat) (f : SplitEntry → SplitEntry) : (w.updEnt e f).exited = w.exited := rfl
@[simp] theorem Wave.updEnt_vreg (w : Wave) (e : Nat) (f : SplitEntry → SplitEntry) : (w.updEnt e f).vreg = w.vreg := rfl
@[simp] theorem Wave.updEnt_mask (w : Wave) (e : Nat) (f : SplitEntry → SplitEntry) : (w.updEnt e f).mask = w.mask := rfl
@[simp] theorem Wave.updEnt_split (w : Wave) (e : Nat) (f : SplitEntry → SplitEntry) : (w.updEnt e f).split = modifyAt e f w.split := rfl
@[simp] theorem Wave.updEnt_aux (w : Wave) (e : Nat) (f : SplitEntry → SplitEntry) : (w.updEnt e f).aux = w.aux := rfl
@[simp] theorem Wave.updEnt_banks (w : Wave) (e : Nat) (f : SplitEntry → SplitEntry) : (w.updEnt e f).banks = w.banks := rfl
@[simp] theorem Wave.updEnt_fuseto (w : Wave) (e : Nat) (f : SplitEntry → SplitEntry) : (w.updEnt e f).fuseto = w.fuseto := rfl
@[simp] theorem Wave.updEnt_splpol (w : Wave) (e : Nat) (f : SplitEntry → SplitEntry) : (w.updEnt e f).splpol = w.splpol := rfl
@[simp] theorem Wave.updEnt_toFuseto (w : Wave) (e : Nat) (f : SplitEntry → SplitEntry) : (w.updEnt e f).toFuseto = w.toFuseto := rfl
@[simp] theorem Wave.updEnt_toSplpol (w : Wave) (e : Nat) (f : SplitEntry → SplitEntry) : (w.updEnt e f).toSplpol = w.toSplpol := rfl
@[simp] theorem Wave.updEnt_coherent (w : Wave) (e : Nat) (f : SplitEntry → SplitEntry) : (w.updEnt e f).coherent = w.coherent := rfl
@[simp] theorem Wave.updEnt_mons (w : Wave) (e : Nat) (f : SplitEntry → SplitEntry) : (w.updEnt e f).mons = w.mons := rfl
@[simp] theorem Wave.updEnt_rst (w : Wave) (e : Nat) (f : SplitEntry → SplitEntry) : (w.updEnt e f).rst = w.rst := rfl
@[simp] theorem Wave.updEnt_handler (w : Wave) (e : Nat) (f : SplitEntry → SplitEntry) : (w.updEnt e f).handler = w.handler := rfl
@[simp] theorem Wave.updEnt_pend (w : Wave) (e : Nat) (f : SplitEntry → SplitEntry) : (w.updEnt e f).pend = w.pend := rfl
@[simp] theorem Wave.updEnt_batch (w : Wave) (e : Nat) (f : SplitEntry → SplitEntry) : (w.updEnt e f).batch = w.batch := rfl
@[simp] theorem Wave.updEnt_dead (w : Wave) (e : Nat) (f : SplitEntry → SplitEntry) : (w.updEnt e f).dead = w.dead := rfl
@[simp] theorem Wave.updEnt_begun (w : Wave) (e : Nat) (f : SplitEntry → SplitEntry) : (w.updEnt e f).begun = w.begun := rfl

/-! ## `Wave.updAux` -/

@[simp] theorem Wave.updAux_wid (w : Wave) (e : Nat) (f : Aux → Aux) : (w.updAux e f).wid = w.wid := rfl
@[simp] theorem Wave.updAux_gid (w : Wave) (e : Nat) (f : Aux → Aux) : (w.updAux e f).gid = w.gid := rfl
@[simp] theorem Wave.updAux_idx (w : Wave) (e : Nat) (f : Aux → Aux) : (w.updAux e f).idx = w.idx := rfl
@[simp] theorem Wave.updAux_width (w : Wave) (e : Nat) (f : Aux → Aux) : (w.updAux e f).width = w.width := rfl
@[simp] theorem Wave.updAux_core (w : Wave) (e : Nat) (f : Aux → Aux) : (w.updAux e f).core = w.core := rfl
@[simp] theorem Wave.updAux_part (w : Wave) (e : Nat) (f : Aux → Aux) : (w.updAux e f).part = w.part := rfl
@[simp] theorem Wave.updAux_slot (w : Wave) (e : Nat) (f : Aux → Aux) : (w.updAux e f).slot = w.slot := rfl
@[simp] theorem Wave.updAux_qbase (w : Wave) (e : Nat) (f : Aux → Aux) : (w.updAux e f).qbase = w.qbase := rfl
@[simp] theorem Wave.updAux_budget (w : Wave) (e : Nat) (f : Aux → Aux) : (w.updAux e f).budget = w.budget := rfl
@[simp] theorem Wave.updAux_launched (w : Wave) (e : Nat) (f : Aux → Aux) : (w.updAux e f).launched = w.launched := rfl
@[simp] theorem Wave.updAux_exited (w : Wave) (e : Nat) (f : Aux → Aux) : (w.updAux e f).exited = w.exited := rfl
@[simp] theorem Wave.updAux_vreg (w : Wave) (e : Nat) (f : Aux → Aux) : (w.updAux e f).vreg = w.vreg := rfl
@[simp] theorem Wave.updAux_mask (w : Wave) (e : Nat) (f : Aux → Aux) : (w.updAux e f).mask = w.mask := rfl
@[simp] theorem Wave.updAux_split (w : Wave) (e : Nat) (f : Aux → Aux) : (w.updAux e f).split = w.split := rfl
@[simp] theorem Wave.updAux_aux (w : Wave) (e : Nat) (f : Aux → Aux) : (w.updAux e f).aux = modifyAt e f w.aux := rfl
@[simp] theorem Wave.updAux_banks (w : Wave) (e : Nat) (f : Aux → Aux) : (w.updAux e f).banks = w.banks := rfl
@[simp] theorem Wave.updAux_fuseto (w : Wave) (e : Nat) (f : Aux → Aux) : (w.updAux e f).fuseto = w.fuseto := rfl
@[simp] theorem Wave.updAux_splpol (w : Wave) (e : Nat) (f : Aux → Aux) : (w.updAux e f).splpol = w.splpol := rfl
@[simp] theorem Wave.updAux_toFuseto (w : Wave) (e : Nat) (f : Aux → Aux) : (w.updAux e f).toFuseto = w.toFuseto := rfl
@[simp] theorem Wave.updAux_toSplpol (w : Wave) (e : Nat) (f : Aux → Aux) : (w.updAux e f).toSplpol = w.toSplpol := rfl
@[simp] theorem Wave.updAux_coherent (w : Wave) (e : Nat) (f : Aux → Aux) : (w.updAux e f).coherent = w.coherent := rfl
@[simp] theorem Wave.updAux_mons (w : Wave) (e : Nat) (f : Aux → Aux) : (w.updAux e f).mons = w.mons := rfl
@[simp] theorem Wave.updAux_rst (w : Wave) (e : Nat) (f : Aux → Aux) : (w.updAux e f).rst = w.rst := rfl
@[simp] theorem Wave.updAux_handler (w : Wave) (e : Nat) (f : Aux → Aux) : (w.updAux e f).handler = w.handler := rfl
@[simp] theorem Wave.updAux_pend (w : Wave) (e : Nat) (f : Aux → Aux) : (w.updAux e f).pend = w.pend := rfl
@[simp] theorem Wave.updAux_batch (w : Wave) (e : Nat) (f : Aux → Aux) : (w.updAux e f).batch = w.batch := rfl
@[simp] theorem Wave.updAux_dead (w : Wave) (e : Nat) (f : Aux → Aux) : (w.updAux e f).dead = w.dead := rfl
@[simp] theorem Wave.updAux_begun (w : Wave) (e : Nat) (f : Aux → Aux) : (w.updAux e f).begun = w.begun := rfl

/-! ## `Wave.putV` -/

@[simp] theorem Wave.putV_wid (w : Wave) (r l : Nat) (x : Word) : (w.putV r l x).wid = w.wid := rfl
@[simp] theorem Wave.putV_gid (w : Wave) (r l : Nat) (x : Word) : (w.putV r l x).gid = w.gid := rfl
@[simp] theorem Wave.putV_idx (w : Wave) (r l : Nat) (x : Word) : (w.putV r l x).idx = w.idx := rfl
@[simp] theorem Wave.putV_width (w : Wave) (r l : Nat) (x : Word) : (w.putV r l x).width = w.width := rfl
@[simp] theorem Wave.putV_core (w : Wave) (r l : Nat) (x : Word) : (w.putV r l x).core = w.core := rfl
@[simp] theorem Wave.putV_part (w : Wave) (r l : Nat) (x : Word) : (w.putV r l x).part = w.part := rfl
@[simp] theorem Wave.putV_slot (w : Wave) (r l : Nat) (x : Word) : (w.putV r l x).slot = w.slot := rfl
@[simp] theorem Wave.putV_qbase (w : Wave) (r l : Nat) (x : Word) : (w.putV r l x).qbase = w.qbase := rfl
@[simp] theorem Wave.putV_budget (w : Wave) (r l : Nat) (x : Word) : (w.putV r l x).budget = w.budget := rfl
@[simp] theorem Wave.putV_launched (w : Wave) (r l : Nat) (x : Word) : (w.putV r l x).launched = w.launched := rfl
@[simp] theorem Wave.putV_exited (w : Wave) (r l : Nat) (x : Word) : (w.putV r l x).exited = w.exited := rfl
@[simp] theorem Wave.putV_vreg (w : Wave) (r l : Nat) (x : Word) : (w.putV r l x).vreg = w.vreg.set (64 * r + l) x := rfl
@[simp] theorem Wave.putV_mask (w : Wave) (r l : Nat) (x : Word) : (w.putV r l x).mask = w.mask := rfl
@[simp] theorem Wave.putV_split (w : Wave) (r l : Nat) (x : Word) : (w.putV r l x).split = w.split := rfl
@[simp] theorem Wave.putV_aux (w : Wave) (r l : Nat) (x : Word) : (w.putV r l x).aux = w.aux := rfl
@[simp] theorem Wave.putV_banks (w : Wave) (r l : Nat) (x : Word) : (w.putV r l x).banks = w.banks := rfl
@[simp] theorem Wave.putV_fuseto (w : Wave) (r l : Nat) (x : Word) : (w.putV r l x).fuseto = w.fuseto := rfl
@[simp] theorem Wave.putV_splpol (w : Wave) (r l : Nat) (x : Word) : (w.putV r l x).splpol = w.splpol := rfl
@[simp] theorem Wave.putV_toFuseto (w : Wave) (r l : Nat) (x : Word) : (w.putV r l x).toFuseto = w.toFuseto := rfl
@[simp] theorem Wave.putV_toSplpol (w : Wave) (r l : Nat) (x : Word) : (w.putV r l x).toSplpol = w.toSplpol := rfl
@[simp] theorem Wave.putV_coherent (w : Wave) (r l : Nat) (x : Word) : (w.putV r l x).coherent = w.coherent := rfl
@[simp] theorem Wave.putV_mons (w : Wave) (r l : Nat) (x : Word) : (w.putV r l x).mons = w.mons := rfl
@[simp] theorem Wave.putV_rst (w : Wave) (r l : Nat) (x : Word) : (w.putV r l x).rst = w.rst := rfl
@[simp] theorem Wave.putV_handler (w : Wave) (r l : Nat) (x : Word) : (w.putV r l x).handler = w.handler := rfl
@[simp] theorem Wave.putV_pend (w : Wave) (r l : Nat) (x : Word) : (w.putV r l x).pend = w.pend := rfl
@[simp] theorem Wave.putV_batch (w : Wave) (r l : Nat) (x : Word) : (w.putV r l x).batch = w.batch := rfl
@[simp] theorem Wave.putV_dead (w : Wave) (r l : Nat) (x : Word) : (w.putV r l x).dead = w.dead := rfl
@[simp] theorem Wave.putV_begun (w : Wave) (r l : Nat) (x : Word) : (w.putV r l x).begun = w.begun := rfl

/-! ## `Wave.putMask` -/

@[simp] theorem Wave.putMask_wid (w : Wave) (k : Nat) (on v : Lanes) : (w.putMask k on v).wid = w.wid := rfl
@[simp] theorem Wave.putMask_gid (w : Wave) (k : Nat) (on v : Lanes) : (w.putMask k on v).gid = w.gid := rfl
@[simp] theorem Wave.putMask_idx (w : Wave) (k : Nat) (on v : Lanes) : (w.putMask k on v).idx = w.idx := rfl
@[simp] theorem Wave.putMask_width (w : Wave) (k : Nat) (on v : Lanes) : (w.putMask k on v).width = w.width := rfl
@[simp] theorem Wave.putMask_core (w : Wave) (k : Nat) (on v : Lanes) : (w.putMask k on v).core = w.core := rfl
@[simp] theorem Wave.putMask_part (w : Wave) (k : Nat) (on v : Lanes) : (w.putMask k on v).part = w.part := rfl
@[simp] theorem Wave.putMask_slot (w : Wave) (k : Nat) (on v : Lanes) : (w.putMask k on v).slot = w.slot := rfl
@[simp] theorem Wave.putMask_qbase (w : Wave) (k : Nat) (on v : Lanes) : (w.putMask k on v).qbase = w.qbase := rfl
@[simp] theorem Wave.putMask_budget (w : Wave) (k : Nat) (on v : Lanes) : (w.putMask k on v).budget = w.budget := rfl
@[simp] theorem Wave.putMask_launched (w : Wave) (k : Nat) (on v : Lanes) : (w.putMask k on v).launched = w.launched := rfl
@[simp] theorem Wave.putMask_exited (w : Wave) (k : Nat) (on v : Lanes) : (w.putMask k on v).exited = w.exited := rfl
@[simp] theorem Wave.putMask_vreg (w : Wave) (k : Nat) (on v : Lanes) : (w.putMask k on v).vreg = w.vreg := rfl
@[simp] theorem Wave.putMask_mask (w : Wave) (k : Nat) (on v : Lanes) : (w.putMask k on v).mask = w.mask.set k ((w.mask.get k &&& ~~~on) ||| (v &&& on)) := rfl
@[simp] theorem Wave.putMask_split (w : Wave) (k : Nat) (on v : Lanes) : (w.putMask k on v).split = w.split := rfl
@[simp] theorem Wave.putMask_aux (w : Wave) (k : Nat) (on v : Lanes) : (w.putMask k on v).aux = w.aux := rfl
@[simp] theorem Wave.putMask_banks (w : Wave) (k : Nat) (on v : Lanes) : (w.putMask k on v).banks = w.banks := rfl
@[simp] theorem Wave.putMask_fuseto (w : Wave) (k : Nat) (on v : Lanes) : (w.putMask k on v).fuseto = w.fuseto := rfl
@[simp] theorem Wave.putMask_splpol (w : Wave) (k : Nat) (on v : Lanes) : (w.putMask k on v).splpol = w.splpol := rfl
@[simp] theorem Wave.putMask_toFuseto (w : Wave) (k : Nat) (on v : Lanes) : (w.putMask k on v).toFuseto = w.toFuseto := rfl
@[simp] theorem Wave.putMask_toSplpol (w : Wave) (k : Nat) (on v : Lanes) : (w.putMask k on v).toSplpol = w.toSplpol := rfl
@[simp] theorem Wave.putMask_coherent (w : Wave) (k : Nat) (on v : Lanes) : (w.putMask k on v).coherent = w.coherent := rfl
@[simp] theorem Wave.putMask_mons (w : Wave) (k : Nat) (on v : Lanes) : (w.putMask k on v).mons = w.mons := rfl
@[simp] theorem Wave.putMask_rst (w : Wave) (k : Nat) (on v : Lanes) : (w.putMask k on v).rst = w.rst := rfl
@[simp] theorem Wave.putMask_handler (w : Wave) (k : Nat) (on v : Lanes) : (w.putMask k on v).handler = w.handler := rfl
@[simp] theorem Wave.putMask_pend (w : Wave) (k : Nat) (on v : Lanes) : (w.putMask k on v).pend = w.pend := rfl
@[simp] theorem Wave.putMask_batch (w : Wave) (k : Nat) (on v : Lanes) : (w.putMask k on v).batch = w.batch := rfl
@[simp] theorem Wave.putMask_dead (w : Wave) (k : Nat) (on v : Lanes) : (w.putMask k on v).dead = w.dead := rfl
@[simp] theorem Wave.putMask_begun (w : Wave) (k : Nat) (on v : Lanes) : (w.putMask k on v).begun = w.begun := rfl

/-! ## Writes through the issuing part -/

@[simp] theorem Ctx.setBank_wid (c : Ctx) (w : Wave) (f : QBank → QBank) : (c.setBank w f).wid = w.wid := by
  unfold Ctx.setBank; split <;> rfl
@[simp] theorem Ctx.setBank_gid (c : Ctx) (w : Wave) (f : QBank → QBank) : (c.setBank w f).gid = w.gid := by
  unfold Ctx.setBank; split <;> rfl
@[simp] theorem Ctx.setBank_idx (c : Ctx) (w : Wave) (f : QBank → QBank) : (c.setBank w f).idx = w.idx := by
  unfold Ctx.setBank; split <;> rfl
@[simp] theorem Ctx.setBank_width (c : Ctx) (w : Wave) (f : QBank → QBank) : (c.setBank w f).width = w.width := by
  unfold Ctx.setBank; split <;> rfl
@[simp] theorem Ctx.setBank_core (c : Ctx) (w : Wave) (f : QBank → QBank) : (c.setBank w f).core = w.core := by
  unfold Ctx.setBank; split <;> rfl
@[simp] theorem Ctx.setBank_part (c : Ctx) (w : Wave) (f : QBank → QBank) : (c.setBank w f).part = w.part := by
  unfold Ctx.setBank; split <;> rfl
@[simp] theorem Ctx.setBank_slot (c : Ctx) (w : Wave) (f : QBank → QBank) : (c.setBank w f).slot = w.slot := by
  unfold Ctx.setBank; split <;> rfl
@[simp] theorem Ctx.setBank_qbase (c : Ctx) (w : Wave) (f : QBank → QBank) : (c.setBank w f).qbase = w.qbase := by
  unfold Ctx.setBank; split <;> rfl
@[simp] theorem Ctx.setBank_budget (c : Ctx) (w : Wave) (f : QBank → QBank) : (c.setBank w f).budget = w.budget := by
  unfold Ctx.setBank; split <;> rfl
@[simp] theorem Ctx.setBank_launched (c : Ctx) (w : Wave) (f : QBank → QBank) : (c.setBank w f).launched = w.launched := by
  unfold Ctx.setBank; split <;> rfl
@[simp] theorem Ctx.setBank_exited (c : Ctx) (w : Wave) (f : QBank → QBank) : (c.setBank w f).exited = w.exited := by
  unfold Ctx.setBank; split <;> rfl
@[simp] theorem Ctx.setBank_vreg (c : Ctx) (w : Wave) (f : QBank → QBank) : (c.setBank w f).vreg = w.vreg := by
  unfold Ctx.setBank; split <;> rfl
@[simp] theorem Ctx.setBank_mask (c : Ctx) (w : Wave) (f : QBank → QBank) : (c.setBank w f).mask = w.mask := by
  unfold Ctx.setBank; split <;> rfl
@[simp] theorem Ctx.setBank_split (c : Ctx) (w : Wave) (f : QBank → QBank) : (c.setBank w f).split = w.split := by
  unfold Ctx.setBank; split <;> rfl
@[simp] theorem Ctx.setBank_aux (c : Ctx) (w : Wave) (f : QBank → QBank) : (c.setBank w f).aux = w.aux := by
  unfold Ctx.setBank; split <;> rfl
@[simp] theorem Ctx.setBank_fuseto (c : Ctx) (w : Wave) (f : QBank → QBank) : (c.setBank w f).fuseto = w.fuseto := by
  unfold Ctx.setBank; split <;> rfl
@[simp] theorem Ctx.setBank_splpol (c : Ctx) (w : Wave) (f : QBank → QBank) : (c.setBank w f).splpol = w.splpol := by
  unfold Ctx.setBank; split <;> rfl
@[simp] theorem Ctx.setBank_toFuseto (c : Ctx) (w : Wave) (f : QBank → QBank) : (c.setBank w f).toFuseto = w.toFuseto := by
  unfold Ctx.setBank; split <;> rfl
@[simp] theorem Ctx.setBank_toSplpol (c : Ctx) (w : Wave) (f : QBank → QBank) : (c.setBank w f).toSplpol = w.toSplpol := by
  unfold Ctx.setBank; split <;> rfl
@[simp] theorem Ctx.setBank_coherent (c : Ctx) (w : Wave) (f : QBank → QBank) : (c.setBank w f).coherent = w.coherent := by
  unfold Ctx.setBank; split <;> rfl
@[simp] theorem Ctx.setBank_mons (c : Ctx) (w : Wave) (f : QBank → QBank) : (c.setBank w f).mons = w.mons := by
  unfold Ctx.setBank; split <;> rfl
@[simp] theorem Ctx.setBank_rst (c : Ctx) (w : Wave) (f : QBank → QBank) : (c.setBank w f).rst = w.rst := by
  unfold Ctx.setBank; split <;> rfl
@[simp] theorem Ctx.setBank_pend (c : Ctx) (w : Wave) (f : QBank → QBank) : (c.setBank w f).pend = w.pend := by
  unfold Ctx.setBank; split <;> rfl
@[simp] theorem Ctx.setBank_batch (c : Ctx) (w : Wave) (f : QBank → QBank) : (c.setBank w f).batch = w.batch := by
  unfold Ctx.setBank; split <;> rfl
@[simp] theorem Ctx.setBank_dead (c : Ctx) (w : Wave) (f : QBank → QBank) : (c.setBank w f).dead = w.dead := by
  unfold Ctx.setBank; split <;> rfl
@[simp] theorem Ctx.setBank_begun (c : Ctx) (w : Wave) (f : QBank → QBank) : (c.setBank w f).begun = w.begun := by
  unfold Ctx.setBank; split <;> rfl

@[simp] theorem Ctx.setAux_wid (c : Ctx) (w : Wave) (f : Aux → Aux) : (c.setAux w f).wid = w.wid := by
  unfold Ctx.setAux; split <;> rfl
@[simp] theorem Ctx.setAux_gid (c : Ctx) (w : Wave) (f : Aux → Aux) : (c.setAux w f).gid = w.gid := by
  unfold Ctx.setAux; split <;> rfl
@[simp] theorem Ctx.setAux_idx (c : Ctx) (w : Wave) (f : Aux → Aux) : (c.setAux w f).idx = w.idx := by
  unfold Ctx.setAux; split <;> rfl
@[simp] theorem Ctx.setAux_width (c : Ctx) (w : Wave) (f : Aux → Aux) : (c.setAux w f).width = w.width := by
  unfold Ctx.setAux; split <;> rfl
@[simp] theorem Ctx.setAux_core (c : Ctx) (w : Wave) (f : Aux → Aux) : (c.setAux w f).core = w.core := by
  unfold Ctx.setAux; split <;> rfl
@[simp] theorem Ctx.setAux_part (c : Ctx) (w : Wave) (f : Aux → Aux) : (c.setAux w f).part = w.part := by
  unfold Ctx.setAux; split <;> rfl
@[simp] theorem Ctx.setAux_slot (c : Ctx) (w : Wave) (f : Aux → Aux) : (c.setAux w f).slot = w.slot := by
  unfold Ctx.setAux; split <;> rfl
@[simp] theorem Ctx.setAux_qbase (c : Ctx) (w : Wave) (f : Aux → Aux) : (c.setAux w f).qbase = w.qbase := by
  unfold Ctx.setAux; split <;> rfl
@[simp] theorem Ctx.setAux_budget (c : Ctx) (w : Wave) (f : Aux → Aux) : (c.setAux w f).budget = w.budget := by
  unfold Ctx.setAux; split <;> rfl
@[simp] theorem Ctx.setAux_launched (c : Ctx) (w : Wave) (f : Aux → Aux) : (c.setAux w f).launched = w.launched := by
  unfold Ctx.setAux; split <;> rfl
@[simp] theorem Ctx.setAux_exited (c : Ctx) (w : Wave) (f : Aux → Aux) : (c.setAux w f).exited = w.exited := by
  unfold Ctx.setAux; split <;> rfl
@[simp] theorem Ctx.setAux_vreg (c : Ctx) (w : Wave) (f : Aux → Aux) : (c.setAux w f).vreg = w.vreg := by
  unfold Ctx.setAux; split <;> rfl
@[simp] theorem Ctx.setAux_mask (c : Ctx) (w : Wave) (f : Aux → Aux) : (c.setAux w f).mask = w.mask := by
  unfold Ctx.setAux; split <;> rfl
@[simp] theorem Ctx.setAux_split (c : Ctx) (w : Wave) (f : Aux → Aux) : (c.setAux w f).split = w.split := by
  unfold Ctx.setAux; split <;> rfl
@[simp] theorem Ctx.setAux_banks (c : Ctx) (w : Wave) (f : Aux → Aux) : (c.setAux w f).banks = w.banks := by
  unfold Ctx.setAux; split <;> rfl
@[simp] theorem Ctx.setAux_fuseto (c : Ctx) (w : Wave) (f : Aux → Aux) : (c.setAux w f).fuseto = w.fuseto := by
  unfold Ctx.setAux; split <;> rfl
@[simp] theorem Ctx.setAux_splpol (c : Ctx) (w : Wave) (f : Aux → Aux) : (c.setAux w f).splpol = w.splpol := by
  unfold Ctx.setAux; split <;> rfl
@[simp] theorem Ctx.setAux_toFuseto (c : Ctx) (w : Wave) (f : Aux → Aux) : (c.setAux w f).toFuseto = w.toFuseto := by
  unfold Ctx.setAux; split <;> rfl
@[simp] theorem Ctx.setAux_toSplpol (c : Ctx) (w : Wave) (f : Aux → Aux) : (c.setAux w f).toSplpol = w.toSplpol := by
  unfold Ctx.setAux; split <;> rfl
@[simp] theorem Ctx.setAux_coherent (c : Ctx) (w : Wave) (f : Aux → Aux) : (c.setAux w f).coherent = w.coherent := by
  unfold Ctx.setAux; split <;> rfl
@[simp] theorem Ctx.setAux_mons (c : Ctx) (w : Wave) (f : Aux → Aux) : (c.setAux w f).mons = w.mons := by
  unfold Ctx.setAux; split <;> rfl
@[simp] theorem Ctx.setAux_rst (c : Ctx) (w : Wave) (f : Aux → Aux) : (c.setAux w f).rst = w.rst := by
  unfold Ctx.setAux; split <;> rfl
@[simp] theorem Ctx.setAux_pend (c : Ctx) (w : Wave) (f : Aux → Aux) : (c.setAux w f).pend = w.pend := by
  unfold Ctx.setAux; split <;> rfl
@[simp] theorem Ctx.setAux_batch (c : Ctx) (w : Wave) (f : Aux → Aux) : (c.setAux w f).batch = w.batch := by
  unfold Ctx.setAux; split <;> rfl
@[simp] theorem Ctx.setAux_dead (c : Ctx) (w : Wave) (f : Aux → Aux) : (c.setAux w f).dead = w.dead := by
  unfold Ctx.setAux; split <;> rfl
@[simp] theorem Ctx.setAux_begun (c : Ctx) (w : Wave) (f : Aux → Aux) : (c.setAux w f).begun = w.begun := by
  unfold Ctx.setAux; split <;> rfl

@[simp] theorem Ctx.setPc_wid (c : Ctx) (w : Wave) (pc : CodeAddr) : (c.setPc w pc).wid = w.wid := by
  unfold Ctx.setPc; split <;> rfl
@[simp] theorem Ctx.setPc_gid (c : Ctx) (w : Wave) (pc : CodeAddr) : (c.setPc w pc).gid = w.gid := by
  unfold Ctx.setPc; split <;> rfl
@[simp] theorem Ctx.setPc_idx (c : Ctx) (w : Wave) (pc : CodeAddr) : (c.setPc w pc).idx = w.idx := by
  unfold Ctx.setPc; split <;> rfl
@[simp] theorem Ctx.setPc_width (c : Ctx) (w : Wave) (pc : CodeAddr) : (c.setPc w pc).width = w.width := by
  unfold Ctx.setPc; split <;> rfl
@[simp] theorem Ctx.setPc_core (c : Ctx) (w : Wave) (pc : CodeAddr) : (c.setPc w pc).core = w.core := by
  unfold Ctx.setPc; split <;> rfl
@[simp] theorem Ctx.setPc_part (c : Ctx) (w : Wave) (pc : CodeAddr) : (c.setPc w pc).part = w.part := by
  unfold Ctx.setPc; split <;> rfl
@[simp] theorem Ctx.setPc_slot (c : Ctx) (w : Wave) (pc : CodeAddr) : (c.setPc w pc).slot = w.slot := by
  unfold Ctx.setPc; split <;> rfl
@[simp] theorem Ctx.setPc_qbase (c : Ctx) (w : Wave) (pc : CodeAddr) : (c.setPc w pc).qbase = w.qbase := by
  unfold Ctx.setPc; split <;> rfl
@[simp] theorem Ctx.setPc_budget (c : Ctx) (w : Wave) (pc : CodeAddr) : (c.setPc w pc).budget = w.budget := by
  unfold Ctx.setPc; split <;> rfl
@[simp] theorem Ctx.setPc_launched (c : Ctx) (w : Wave) (pc : CodeAddr) : (c.setPc w pc).launched = w.launched := by
  unfold Ctx.setPc; split <;> rfl
@[simp] theorem Ctx.setPc_exited (c : Ctx) (w : Wave) (pc : CodeAddr) : (c.setPc w pc).exited = w.exited := by
  unfold Ctx.setPc; split <;> rfl
@[simp] theorem Ctx.setPc_vreg (c : Ctx) (w : Wave) (pc : CodeAddr) : (c.setPc w pc).vreg = w.vreg := by
  unfold Ctx.setPc; split <;> rfl
@[simp] theorem Ctx.setPc_mask (c : Ctx) (w : Wave) (pc : CodeAddr) : (c.setPc w pc).mask = w.mask := by
  unfold Ctx.setPc; split <;> rfl
@[simp] theorem Ctx.setPc_aux (c : Ctx) (w : Wave) (pc : CodeAddr) : (c.setPc w pc).aux = w.aux := by
  unfold Ctx.setPc; split <;> rfl
@[simp] theorem Ctx.setPc_banks (c : Ctx) (w : Wave) (pc : CodeAddr) : (c.setPc w pc).banks = w.banks := by
  unfold Ctx.setPc; split <;> rfl
@[simp] theorem Ctx.setPc_fuseto (c : Ctx) (w : Wave) (pc : CodeAddr) : (c.setPc w pc).fuseto = w.fuseto := by
  unfold Ctx.setPc; split <;> rfl
@[simp] theorem Ctx.setPc_splpol (c : Ctx) (w : Wave) (pc : CodeAddr) : (c.setPc w pc).splpol = w.splpol := by
  unfold Ctx.setPc; split <;> rfl
@[simp] theorem Ctx.setPc_toFuseto (c : Ctx) (w : Wave) (pc : CodeAddr) : (c.setPc w pc).toFuseto = w.toFuseto := by
  unfold Ctx.setPc; split <;> rfl
@[simp] theorem Ctx.setPc_toSplpol (c : Ctx) (w : Wave) (pc : CodeAddr) : (c.setPc w pc).toSplpol = w.toSplpol := by
  unfold Ctx.setPc; split <;> rfl
@[simp] theorem Ctx.setPc_coherent (c : Ctx) (w : Wave) (pc : CodeAddr) : (c.setPc w pc).coherent = w.coherent := by
  unfold Ctx.setPc; split <;> rfl
@[simp] theorem Ctx.setPc_mons (c : Ctx) (w : Wave) (pc : CodeAddr) : (c.setPc w pc).mons = w.mons := by
  unfold Ctx.setPc; split <;> rfl
@[simp] theorem Ctx.setPc_rst (c : Ctx) (w : Wave) (pc : CodeAddr) : (c.setPc w pc).rst = w.rst := by
  unfold Ctx.setPc; split <;> rfl
@[simp] theorem Ctx.setPc_pend (c : Ctx) (w : Wave) (pc : CodeAddr) : (c.setPc w pc).pend = w.pend := by
  unfold Ctx.setPc; split <;> rfl
@[simp] theorem Ctx.setPc_batch (c : Ctx) (w : Wave) (pc : CodeAddr) : (c.setPc w pc).batch = w.batch := by
  unfold Ctx.setPc; split <;> rfl
@[simp] theorem Ctx.setPc_dead (c : Ctx) (w : Wave) (pc : CodeAddr) : (c.setPc w pc).dead = w.dead := by
  unfold Ctx.setPc; split <;> rfl
@[simp] theorem Ctx.setPc_begun (c : Ctx) (w : Wave) (pc : CodeAddr) : (c.setPc w pc).begun = w.begun := by
  unfold Ctx.setPc; split <;> rfl

@[simp] theorem Ctx.putS_wid (c : Ctx) (w : Wave) (n : Nat) (x : Word) : (c.putS w n x).wid = w.wid := by
  simp [Ctx.putS]
@[simp] theorem Ctx.putS_gid (c : Ctx) (w : Wave) (n : Nat) (x : Word) : (c.putS w n x).gid = w.gid := by
  simp [Ctx.putS]
@[simp] theorem Ctx.putS_idx (c : Ctx) (w : Wave) (n : Nat) (x : Word) : (c.putS w n x).idx = w.idx := by
  simp [Ctx.putS]
@[simp] theorem Ctx.putS_width (c : Ctx) (w : Wave) (n : Nat) (x : Word) : (c.putS w n x).width = w.width := by
  simp [Ctx.putS]
@[simp] theorem Ctx.putS_core (c : Ctx) (w : Wave) (n : Nat) (x : Word) : (c.putS w n x).core = w.core := by
  simp [Ctx.putS]
@[simp] theorem Ctx.putS_part (c : Ctx) (w : Wave) (n : Nat) (x : Word) : (c.putS w n x).part = w.part := by
  simp [Ctx.putS]
@[simp] theorem Ctx.putS_slot (c : Ctx) (w : Wave) (n : Nat) (x : Word) : (c.putS w n x).slot = w.slot := by
  simp [Ctx.putS]
@[simp] theorem Ctx.putS_qbase (c : Ctx) (w : Wave) (n : Nat) (x : Word) : (c.putS w n x).qbase = w.qbase := by
  simp [Ctx.putS]
@[simp] theorem Ctx.putS_budget (c : Ctx) (w : Wave) (n : Nat) (x : Word) : (c.putS w n x).budget = w.budget := by
  simp [Ctx.putS]
@[simp] theorem Ctx.putS_launched (c : Ctx) (w : Wave) (n : Nat) (x : Word) : (c.putS w n x).launched = w.launched := by
  simp [Ctx.putS]
@[simp] theorem Ctx.putS_exited (c : Ctx) (w : Wave) (n : Nat) (x : Word) : (c.putS w n x).exited = w.exited := by
  simp [Ctx.putS]
@[simp] theorem Ctx.putS_vreg (c : Ctx) (w : Wave) (n : Nat) (x : Word) : (c.putS w n x).vreg = w.vreg := by
  simp [Ctx.putS]
@[simp] theorem Ctx.putS_mask (c : Ctx) (w : Wave) (n : Nat) (x : Word) : (c.putS w n x).mask = w.mask := by
  simp [Ctx.putS]
@[simp] theorem Ctx.putS_split (c : Ctx) (w : Wave) (n : Nat) (x : Word) : (c.putS w n x).split = w.split := by
  simp [Ctx.putS]
@[simp] theorem Ctx.putS_aux (c : Ctx) (w : Wave) (n : Nat) (x : Word) : (c.putS w n x).aux = w.aux := by
  simp [Ctx.putS]
@[simp] theorem Ctx.putS_fuseto (c : Ctx) (w : Wave) (n : Nat) (x : Word) : (c.putS w n x).fuseto = w.fuseto := by
  simp [Ctx.putS]
@[simp] theorem Ctx.putS_splpol (c : Ctx) (w : Wave) (n : Nat) (x : Word) : (c.putS w n x).splpol = w.splpol := by
  simp [Ctx.putS]
@[simp] theorem Ctx.putS_toFuseto (c : Ctx) (w : Wave) (n : Nat) (x : Word) : (c.putS w n x).toFuseto = w.toFuseto := by
  simp [Ctx.putS]
@[simp] theorem Ctx.putS_toSplpol (c : Ctx) (w : Wave) (n : Nat) (x : Word) : (c.putS w n x).toSplpol = w.toSplpol := by
  simp [Ctx.putS]
@[simp] theorem Ctx.putS_coherent (c : Ctx) (w : Wave) (n : Nat) (x : Word) : (c.putS w n x).coherent = w.coherent := by
  simp [Ctx.putS]
@[simp] theorem Ctx.putS_mons (c : Ctx) (w : Wave) (n : Nat) (x : Word) : (c.putS w n x).mons = w.mons := by
  simp [Ctx.putS]
@[simp] theorem Ctx.putS_rst (c : Ctx) (w : Wave) (n : Nat) (x : Word) : (c.putS w n x).rst = w.rst := by
  simp [Ctx.putS]
@[simp] theorem Ctx.putS_pend (c : Ctx) (w : Wave) (n : Nat) (x : Word) : (c.putS w n x).pend = w.pend := by
  simp [Ctx.putS]
@[simp] theorem Ctx.putS_batch (c : Ctx) (w : Wave) (n : Nat) (x : Word) : (c.putS w n x).batch = w.batch := by
  simp [Ctx.putS]
@[simp] theorem Ctx.putS_dead (c : Ctx) (w : Wave) (n : Nat) (x : Word) : (c.putS w n x).dead = w.dead := by
  simp [Ctx.putS]
@[simp] theorem Ctx.putS_begun (c : Ctx) (w : Wave) (n : Nat) (x : Word) : (c.putS w n x).begun = w.begun := by
  simp [Ctx.putS]

@[simp] theorem Ctx.putS64_wid (c : Ctx) (w : Wave) (n : Nat) (x : DWord) : (c.putS64 w n x).wid = w.wid := by
  simp [Ctx.putS64]
@[simp] theorem Ctx.putS64_gid (c : Ctx) (w : Wave) (n : Nat) (x : DWord) : (c.putS64 w n x).gid = w.gid := by
  simp [Ctx.putS64]
@[simp] theorem Ctx.putS64_idx (c : Ctx) (w : Wave) (n : Nat) (x : DWord) : (c.putS64 w n x).idx = w.idx := by
  simp [Ctx.putS64]
@[simp] theorem Ctx.putS64_width (c : Ctx) (w : Wave) (n : Nat) (x : DWord) : (c.putS64 w n x).width = w.width := by
  simp [Ctx.putS64]
@[simp] theorem Ctx.putS64_core (c : Ctx) (w : Wave) (n : Nat) (x : DWord) : (c.putS64 w n x).core = w.core := by
  simp [Ctx.putS64]
@[simp] theorem Ctx.putS64_part (c : Ctx) (w : Wave) (n : Nat) (x : DWord) : (c.putS64 w n x).part = w.part := by
  simp [Ctx.putS64]
@[simp] theorem Ctx.putS64_slot (c : Ctx) (w : Wave) (n : Nat) (x : DWord) : (c.putS64 w n x).slot = w.slot := by
  simp [Ctx.putS64]
@[simp] theorem Ctx.putS64_qbase (c : Ctx) (w : Wave) (n : Nat) (x : DWord) : (c.putS64 w n x).qbase = w.qbase := by
  simp [Ctx.putS64]
@[simp] theorem Ctx.putS64_budget (c : Ctx) (w : Wave) (n : Nat) (x : DWord) : (c.putS64 w n x).budget = w.budget := by
  simp [Ctx.putS64]
@[simp] theorem Ctx.putS64_launched (c : Ctx) (w : Wave) (n : Nat) (x : DWord) : (c.putS64 w n x).launched = w.launched := by
  simp [Ctx.putS64]
@[simp] theorem Ctx.putS64_exited (c : Ctx) (w : Wave) (n : Nat) (x : DWord) : (c.putS64 w n x).exited = w.exited := by
  simp [Ctx.putS64]
@[simp] theorem Ctx.putS64_vreg (c : Ctx) (w : Wave) (n : Nat) (x : DWord) : (c.putS64 w n x).vreg = w.vreg := by
  simp [Ctx.putS64]
@[simp] theorem Ctx.putS64_mask (c : Ctx) (w : Wave) (n : Nat) (x : DWord) : (c.putS64 w n x).mask = w.mask := by
  simp [Ctx.putS64]
@[simp] theorem Ctx.putS64_split (c : Ctx) (w : Wave) (n : Nat) (x : DWord) : (c.putS64 w n x).split = w.split := by
  simp [Ctx.putS64]
@[simp] theorem Ctx.putS64_aux (c : Ctx) (w : Wave) (n : Nat) (x : DWord) : (c.putS64 w n x).aux = w.aux := by
  simp [Ctx.putS64]
@[simp] theorem Ctx.putS64_fuseto (c : Ctx) (w : Wave) (n : Nat) (x : DWord) : (c.putS64 w n x).fuseto = w.fuseto := by
  simp [Ctx.putS64]
@[simp] theorem Ctx.putS64_splpol (c : Ctx) (w : Wave) (n : Nat) (x : DWord) : (c.putS64 w n x).splpol = w.splpol := by
  simp [Ctx.putS64]
@[simp] theorem Ctx.putS64_toFuseto (c : Ctx) (w : Wave) (n : Nat) (x : DWord) : (c.putS64 w n x).toFuseto = w.toFuseto := by
  simp [Ctx.putS64]
@[simp] theorem Ctx.putS64_toSplpol (c : Ctx) (w : Wave) (n : Nat) (x : DWord) : (c.putS64 w n x).toSplpol = w.toSplpol := by
  simp [Ctx.putS64]
@[simp] theorem Ctx.putS64_coherent (c : Ctx) (w : Wave) (n : Nat) (x : DWord) : (c.putS64 w n x).coherent = w.coherent := by
  simp [Ctx.putS64]
@[simp] theorem Ctx.putS64_mons (c : Ctx) (w : Wave) (n : Nat) (x : DWord) : (c.putS64 w n x).mons = w.mons := by
  simp [Ctx.putS64]
@[simp] theorem Ctx.putS64_rst (c : Ctx) (w : Wave) (n : Nat) (x : DWord) : (c.putS64 w n x).rst = w.rst := by
  simp [Ctx.putS64]
@[simp] theorem Ctx.putS64_pend (c : Ctx) (w : Wave) (n : Nat) (x : DWord) : (c.putS64 w n x).pend = w.pend := by
  simp [Ctx.putS64]
@[simp] theorem Ctx.putS64_batch (c : Ctx) (w : Wave) (n : Nat) (x : DWord) : (c.putS64 w n x).batch = w.batch := by
  simp [Ctx.putS64]
@[simp] theorem Ctx.putS64_dead (c : Ctx) (w : Wave) (n : Nat) (x : DWord) : (c.putS64 w n x).dead = w.dead := by
  simp [Ctx.putS64]
@[simp] theorem Ctx.putS64_begun (c : Ctx) (w : Wave) (n : Nat) (x : DWord) : (c.putS64 w n x).begun = w.begun := by
  simp [Ctx.putS64]

@[simp] theorem Ctx.goto_wid (c : Ctx) (w : Wave) (pc : CodeAddr) : (c.goto w pc).wid = w.wid := by
  simp [Ctx.goto]
@[simp] theorem Ctx.goto_gid (c : Ctx) (w : Wave) (pc : CodeAddr) : (c.goto w pc).gid = w.gid := by
  simp [Ctx.goto]
@[simp] theorem Ctx.goto_idx (c : Ctx) (w : Wave) (pc : CodeAddr) : (c.goto w pc).idx = w.idx := by
  simp [Ctx.goto]
@[simp] theorem Ctx.goto_width (c : Ctx) (w : Wave) (pc : CodeAddr) : (c.goto w pc).width = w.width := by
  simp [Ctx.goto]
@[simp] theorem Ctx.goto_core (c : Ctx) (w : Wave) (pc : CodeAddr) : (c.goto w pc).core = w.core := by
  simp [Ctx.goto]
@[simp] theorem Ctx.goto_part (c : Ctx) (w : Wave) (pc : CodeAddr) : (c.goto w pc).part = w.part := by
  simp [Ctx.goto]
@[simp] theorem Ctx.goto_slot (c : Ctx) (w : Wave) (pc : CodeAddr) : (c.goto w pc).slot = w.slot := by
  simp [Ctx.goto]
@[simp] theorem Ctx.goto_qbase (c : Ctx) (w : Wave) (pc : CodeAddr) : (c.goto w pc).qbase = w.qbase := by
  simp [Ctx.goto]
@[simp] theorem Ctx.goto_budget (c : Ctx) (w : Wave) (pc : CodeAddr) : (c.goto w pc).budget = w.budget := by
  simp [Ctx.goto]
@[simp] theorem Ctx.goto_launched (c : Ctx) (w : Wave) (pc : CodeAddr) : (c.goto w pc).launched = w.launched := by
  simp [Ctx.goto]
@[simp] theorem Ctx.goto_exited (c : Ctx) (w : Wave) (pc : CodeAddr) : (c.goto w pc).exited = w.exited := by
  simp [Ctx.goto]
@[simp] theorem Ctx.goto_vreg (c : Ctx) (w : Wave) (pc : CodeAddr) : (c.goto w pc).vreg = w.vreg := by
  simp [Ctx.goto]
@[simp] theorem Ctx.goto_mask (c : Ctx) (w : Wave) (pc : CodeAddr) : (c.goto w pc).mask = w.mask := by
  simp [Ctx.goto]
@[simp] theorem Ctx.goto_fuseto (c : Ctx) (w : Wave) (pc : CodeAddr) : (c.goto w pc).fuseto = w.fuseto := by
  simp [Ctx.goto]
@[simp] theorem Ctx.goto_splpol (c : Ctx) (w : Wave) (pc : CodeAddr) : (c.goto w pc).splpol = w.splpol := by
  simp [Ctx.goto]
@[simp] theorem Ctx.goto_toFuseto (c : Ctx) (w : Wave) (pc : CodeAddr) : (c.goto w pc).toFuseto = w.toFuseto := by
  simp [Ctx.goto]
@[simp] theorem Ctx.goto_toSplpol (c : Ctx) (w : Wave) (pc : CodeAddr) : (c.goto w pc).toSplpol = w.toSplpol := by
  simp [Ctx.goto]
@[simp] theorem Ctx.goto_coherent (c : Ctx) (w : Wave) (pc : CodeAddr) : (c.goto w pc).coherent = w.coherent := by
  simp [Ctx.goto]
@[simp] theorem Ctx.goto_mons (c : Ctx) (w : Wave) (pc : CodeAddr) : (c.goto w pc).mons = w.mons := by
  simp [Ctx.goto]
@[simp] theorem Ctx.goto_rst (c : Ctx) (w : Wave) (pc : CodeAddr) : (c.goto w pc).rst = w.rst := by
  simp [Ctx.goto]
@[simp] theorem Ctx.goto_pend (c : Ctx) (w : Wave) (pc : CodeAddr) : (c.goto w pc).pend = w.pend := by
  simp [Ctx.goto]
@[simp] theorem Ctx.goto_batch (c : Ctx) (w : Wave) (pc : CodeAddr) : (c.goto w pc).batch = w.batch := by
  simp [Ctx.goto]
@[simp] theorem Ctx.goto_dead (c : Ctx) (w : Wave) (pc : CodeAddr) : (c.goto w pc).dead = w.dead := by
  simp [Ctx.goto]
@[simp] theorem Ctx.goto_begun (c : Ctx) (w : Wave) (pc : CodeAddr) : (c.goto w pc).begun = w.begun := by
  simp [Ctx.goto]

@[simp] theorem Ctx.advance_wid (c : Ctx) (i : Instr) (w : Wave) : (c.advance i w).wid = w.wid := by
  unfold Ctx.advance; split <;> simp
@[simp] theorem Ctx.advance_gid (c : Ctx) (i : Instr) (w : Wave) : (c.advance i w).gid = w.gid := by
  unfold Ctx.advance; split <;> simp
@[simp] theorem Ctx.advance_idx (c : Ctx) (i : Instr) (w : Wave) : (c.advance i w).idx = w.idx := by
  unfold Ctx.advance; split <;> simp
@[simp] theorem Ctx.advance_width (c : Ctx) (i : Instr) (w : Wave) : (c.advance i w).width = w.width := by
  unfold Ctx.advance; split <;> simp
@[simp] theorem Ctx.advance_core (c : Ctx) (i : Instr) (w : Wave) : (c.advance i w).core = w.core := by
  unfold Ctx.advance; split <;> simp
@[simp] theorem Ctx.advance_part (c : Ctx) (i : Instr) (w : Wave) : (c.advance i w).part = w.part := by
  unfold Ctx.advance; split <;> simp
@[simp] theorem Ctx.advance_slot (c : Ctx) (i : Instr) (w : Wave) : (c.advance i w).slot = w.slot := by
  unfold Ctx.advance; split <;> simp
@[simp] theorem Ctx.advance_qbase (c : Ctx) (i : Instr) (w : Wave) : (c.advance i w).qbase = w.qbase := by
  unfold Ctx.advance; split <;> simp
@[simp] theorem Ctx.advance_budget (c : Ctx) (i : Instr) (w : Wave) : (c.advance i w).budget = w.budget := by
  unfold Ctx.advance; split <;> simp
@[simp] theorem Ctx.advance_launched (c : Ctx) (i : Instr) (w : Wave) : (c.advance i w).launched = w.launched := by
  unfold Ctx.advance; split <;> simp
@[simp] theorem Ctx.advance_exited (c : Ctx) (i : Instr) (w : Wave) : (c.advance i w).exited = w.exited := by
  unfold Ctx.advance; split <;> simp
@[simp] theorem Ctx.advance_vreg (c : Ctx) (i : Instr) (w : Wave) : (c.advance i w).vreg = w.vreg := by
  unfold Ctx.advance; split <;> simp
@[simp] theorem Ctx.advance_mask (c : Ctx) (i : Instr) (w : Wave) : (c.advance i w).mask = w.mask := by
  unfold Ctx.advance; split <;> simp
@[simp] theorem Ctx.advance_fuseto (c : Ctx) (i : Instr) (w : Wave) : (c.advance i w).fuseto = w.fuseto := by
  unfold Ctx.advance; split <;> simp
@[simp] theorem Ctx.advance_splpol (c : Ctx) (i : Instr) (w : Wave) : (c.advance i w).splpol = w.splpol := by
  unfold Ctx.advance; split <;> simp
@[simp] theorem Ctx.advance_toFuseto (c : Ctx) (i : Instr) (w : Wave) : (c.advance i w).toFuseto = w.toFuseto := by
  unfold Ctx.advance; split <;> simp
@[simp] theorem Ctx.advance_toSplpol (c : Ctx) (i : Instr) (w : Wave) : (c.advance i w).toSplpol = w.toSplpol := by
  unfold Ctx.advance; split <;> simp
@[simp] theorem Ctx.advance_coherent (c : Ctx) (i : Instr) (w : Wave) : (c.advance i w).coherent = w.coherent := by
  unfold Ctx.advance; split <;> simp
@[simp] theorem Ctx.advance_mons (c : Ctx) (i : Instr) (w : Wave) : (c.advance i w).mons = w.mons := by
  unfold Ctx.advance; split <;> simp
@[simp] theorem Ctx.advance_rst (c : Ctx) (i : Instr) (w : Wave) : (c.advance i w).rst = w.rst := by
  unfold Ctx.advance; split <;> simp
@[simp] theorem Ctx.advance_pend (c : Ctx) (i : Instr) (w : Wave) : (c.advance i w).pend = w.pend := by
  unfold Ctx.advance; split <;> simp
@[simp] theorem Ctx.advance_batch (c : Ctx) (i : Instr) (w : Wave) : (c.advance i w).batch = w.batch := by
  unfold Ctx.advance; split <;> simp
@[simp] theorem Ctx.advance_dead (c : Ctx) (i : Instr) (w : Wave) : (c.advance i w).dead = w.dead := by
  unfold Ctx.advance; split <;> simp
@[simp] theorem Ctx.advance_begun (c : Ctx) (i : Instr) (w : Wave) : (c.advance i w).begun = w.begun := by
  unfold Ctx.advance; split <;> simp

end Sys2Proof.Machine
end

