-- ==== Sys2Proof/Laws/Store.lean ====
section
/-!
SUPPORT. Laws of sparse storage: a read after a write gives the value written, a write leaves every other index alone, and
every operation keeps the canonical form.
-/
namespace Sys2Proof.Machine

theorem Store.get_nil {w : Nat} (a : Nat) : Store.get ([] : Store w) a = 0 := rfl

/-- Below the lower bound of a canonical store nothing is listed. -/
theorem Store.get_below {w : Nat} (m : Store w) (lo a : Nat) (h : Store.wfAbove lo m = true) (ha : a < lo) : m.get a = 0 := by
  induction m generalizing lo with
  | nil => rfl
  | cons c m ih =>
    obtain ⟨k, v⟩ := c
    simp only [Store.wfAbove, Bool.and_eq_true, decide_eq_true_eq] at h
    have hk : a ≠ k := by omega
    simp only [Store.get, hk, if_false]
    exact ih (k + 1) h.2 (by omega)

/-- A lower bound may be lowered. -/
theorem Store.wfAbove_mono {w : Nat} (m : Store w) (lo lo' : Nat) (h : Store.wfAbove lo m = true) (hl : lo' ≤ lo) :
    Store.wfAbove lo' m = true := by
  cases m with
  | nil => rfl
  | cons c m =>
    obtain ⟨k, v⟩ := c
    simp only [Store.wfAbove, Bool.and_eq_true, decide_eq_true_eq] at h ⊢
    exact ⟨⟨by omega, h.1.2⟩, h.2⟩

theorem Store.wfAbove_filter {w : Nat} (m : Store w) (p : Nat × BitVec w → Bool) (lo : Nat) (h : Store.wfAbove lo m = true) :
    Store.wfAbove lo (m.filter p) = true := by
  induction m generalizing lo with
  | nil => rfl
  | cons c m ih =>
    obtain ⟨k, v⟩ := c
    simp only [Store.wfAbove, Bool.and_eq_true, decide_eq_true_eq] at h
    rw [List.filter_cons]
    split
    · simp only [Store.wfAbove, Bool.and_eq_true, decide_eq_true_eq]
      exact ⟨h.1, ih (k + 1) h.2⟩
    · exact Store.wfAbove_mono _ (k + 1) lo (ih (k + 1) h.2) (by omega)

theorem Store.wfAbove_insert {w : Nat} (m : Store w) (lo a : Nat) (x : BitVec w) (h : Store.wfAbove lo m = true) (ha : lo ≤ a)
    (hx : x ≠ 0) : Store.wfAbove lo (m.insert a x) = true := by
  induction m generalizing lo with
  | nil => simp only [Store.insert, Store.wfAbove, Bool.and_eq_true, decide_eq_true_eq]; exact ⟨⟨ha, hx⟩, trivial⟩
  | cons c m ih =>
    obtain ⟨k, v⟩ := c
    simp only [Store.wfAbove, Bool.and_eq_true, decide_eq_true_eq] at h
    unfold Store.insert
    split
    · subst a
      simp only [Store.wfAbove, Bool.and_eq_true, decide_eq_true_eq]
      exact ⟨⟨ha, hx⟩, h.2⟩
    · split
      · simp only [Store.wfAbove, Bool.and_eq_true, decide_eq_true_eq]
        exact ⟨⟨ha, hx⟩, ⟨by omega, h.1.2⟩, h.2⟩
      · simp only [Store.wfAbove, Bool.and_eq_true, decide_eq_true_eq]
        exact ⟨h.1, ih (k + 1) h.2 (by omega)⟩

/-- The empty store is in the canonical form. -/
@[simp] theorem Store.wf_nil {w : Nat} : Store.wf ([] : Store w) = true := rfl

/-- A write keeps the canonical form. -/
theorem Store.wf_set {w : Nat} (m : Store w) (a : Nat) (x : BitVec w) (h : m.wf = true) : (m.set a x).wf = true := by
  unfold Store.set
  split
  · exact Store.wfAbove_filter m _ 0 h
  · exact Store.wfAbove_insert m 0 a x h (Nat.zero_le a) ‹_›

/-- Writing a list keeps the canonical form. -/
theorem Store.wf_setList {w : Nat} (xs : List (BitVec w)) (m : Store w) (a : Nat) (h : m.wf = true) :
    (m.setList a xs).wf = true := by
  induction xs generalizing m a with
  | nil => exact h
  | cons x xs ih => exact ih _ _ (m.wf_set a x h)

/-- Writing pairs one after the other keeps the canonical form. -/
theorem Store.wf_foldl_set {w : Nat} (xs : List (Nat × BitVec w)) (m : Store w) (h : m.wf = true) :
    (xs.foldl (fun (m : Store w) (x : Nat × BitVec w) => m.set x.1 x.2) m).wf = true := by
  induction xs generalizing m with
  | nil => exact h
  | cons x xs ih => exact ih _ (m.wf_set x.1 x.2 h)

/-- Leaving entries out keeps the canonical form. -/
theorem Store.wf_filter {w : Nat} (m : Store w) (p : Nat × BitVec w → Bool) (h : m.wf = true) : Store.wf (m.filter p) = true :=
  Store.wfAbove_filter m p 0 h

/-- Clearing indices keeps the canonical form. -/
theorem Store.wf_clear {w : Nat} (m : Store w) (p : Nat → Bool) (h : m.wf = true) : (m.clear p).wf = true :=
  Store.wfAbove_filter m _ 0 h

theorem Store.get_insert_same {w : Nat} (m : Store w) (a : Nat) (x : BitVec w) : (m.insert a x).get a = x := by
  induction m with
  | nil => simp [Store.insert, Store.get]
  | cons c m ih =>
    obtain ⟨k, v⟩ := c
    unfold Store.insert
    split
    · simp [Store.get]
    · split
      · simp [Store.get]
      · simp only [Store.get, *, if_false]

theorem Store.get_insert_other {w : Nat} (m : Store w) (a b : Nat) (x : BitVec w) (h : b ≠ a) : (m.insert a x).get b = m.get b := by
  induction m with
  | nil => simp [Store.insert, Store.get, h]
  | cons c m ih =>
    obtain ⟨k, v⟩ := c
    unfold Store.insert
    split
    · subst a; simp [Store.get, h]
    · split
      · simp [Store.get, h]
      · simp only [Store.get, ih]

theorem Store.get_erase_same {w : Nat} (m : Store w) (a : Nat) : (m.erase a).get a = 0 := by
  unfold Store.erase
  induction m with
  | nil => rfl
  | cons c m ih =>
    obtain ⟨k, v⟩ := c
    rw [List.filter_cons]
    split
    · rename_i hk
      have hk : a ≠ k := fun e => by simp [e] at hk
      simp only [Store.get, hk, if_false]
      exact ih
    · exact ih

theorem Store.get_erase_other {w : Nat} (m : Store w) (a b : Nat) (h : b ≠ a) : (m.erase a).get b = m.get b := by
  unfold Store.erase
  induction m with
  | nil => rfl
  | cons c m ih =>
    obtain ⟨k, v⟩ := c
    rw [List.filter_cons]
    split
    · simp only [Store.get, ih]
    · rename_i hk
      have hk : b ≠ k := fun e => by simp [← e, h] at hk
      simp only [Store.get, hk, if_false]
      exact ih

/-- A read after a write to the same index gives the value written. -/
@[simp] theorem Store.get_set_same {w : Nat} (m : Store w) (a : Nat) (x : BitVec w) : (m.set a x).get a = x := by
  unfold Store.set
  split
  · subst x; exact Store.get_erase_same m a
  · exact Store.get_insert_same m a x

/-- A write leaves every other index alone. -/
theorem Store.get_set_other {w : Nat} (m : Store w) (a b : Nat) (x : BitVec w) (h : b ≠ a) : (m.set a x).get b = m.get b := by
  unfold Store.set
  split
  · exact Store.get_erase_other m a b h
  · exact Store.get_insert_other m a b x h

/-- A list write leaves every index outside it alone. -/
theorem Store.get_setList_other {w : Nat} (xs : List (BitVec w)) (m : Store w) (a b : Nat) (h : b < a ∨ a + xs.length ≤ b) :
    (m.setList a xs).get b = m.get b := by
  induction xs generalizing m a with
  | nil => rfl
  | cons x xs ih =>
    simp only [List.length_cons] at h
    rw [Store.setList, ih _ _ (by omega), m.get_set_other a b x (by omega)]

/-- A read after a list write gives the value written. -/
theorem Store.get_setList_same {w : Nat} (xs : List (BitVec w)) (m : Store w) (a i : Nat) (hi : i < xs.length) :
    (m.setList a xs).get (a + i) = xs[i] := by
  induction xs generalizing m a i with
  | nil => simp at hi
  | cons x xs ih =>
    rw [Store.setList]
    cases i with
    | zero => rw [Store.get_setList_other xs _ _ _ (by omega), Nat.add_zero, m.get_set_same a x]; rfl
    | succ i =>
      have := ih (m.set a x) (a + 1) i (by simpa using hi)
      rw [show a + (i + 1) = a + 1 + i by omega, this]; rfl

/-- Canonical stores that read the same everywhere are equal. -/
theorem Store.wfAbove_ext {w : Nat} (m n : Store w) (lo : Nat) (hm : Store.wfAbove lo m = true) (hn : Store.wfAbove lo n = true)
    (h : ∀ a, m.get a = n.get a) : m = n := by
  induction m generalizing lo n with
  | nil =>
    cases n with
    | nil => rfl
    | cons c n =>
      obtain ⟨k, v⟩ := c
      simp only [Store.wfAbove, Bool.and_eq_true, decide_eq_true_eq] at hn
      have := h k
      simp only [Store.get, if_true] at this
      exact absurd this.symm hn.1.2
  | cons c m ih =>
    obtain ⟨k, v⟩ := c
    simp only [Store.wfAbove, Bool.and_eq_true, decide_eq_true_eq] at hm
    cases n with
    | nil =>
      have := h k
      simp only [Store.get, if_true] at this
      exact absurd this hm.1.2
    | cons d n =>
      obtain ⟨j, u⟩ := d
      simp only [Store.wfAbove, Bool.and_eq_true, decide_eq_true_eq] at hn
      have hkj : k = j := by
        rcases Nat.lt_trichotomy k j with hlt | heq | hgt
        · exfalso
          have hk := h k
          have : k ≠ j := by omega
          simp only [Store.get, if_true, this, if_false] at hk
          rw [Store.get_below n (j + 1) k hn.2 (by omega)] at hk
          exact hm.1.2 hk
        · exact heq
        · exfalso
          have hj := h j
          have : j ≠ k := by omega
          simp only [Store.get, if_true, this, if_false] at hj
          rw [Store.get_below m (k + 1) j hm.2 (by omega)] at hj
          exact hn.1.2 hj.symm
      subst j
      have hv : v = u := by have := h k; simpa [Store.get] using this
      subst u
      congr 1
      apply ih n (k + 1) hm.2 hn.2
      intro a
      by_cases ha : a = k
      · subst a
        rw [Store.get_below m (k + 1) k hm.2 (by omega), Store.get_below n (k + 1) k hn.2 (by omega)]
      · have := h a
        simpa [Store.get, ha] using this

/-- Equal canonical stores are equal data. -/
theorem Store.wf_ext {w : Nat} (m n : Store w) (hm : m.wf = true) (hn : n.wf = true) (h : ∀ a, m.get a = n.get a) : m = n :=
  Store.wfAbove_ext m n 0 hm hn h

end Sys2Proof.Machine
end

