-- ==== Sys2Proof/Laws/Issue.lean ====
section
/-!
SUPPORT. Laws of issuing: what `issue` answers when no check stops the part, what replacing a wave does, and the frames of the
operations that write registers and move the part on.
-/
namespace Sys2Proof
open Machine

/-! ## Lists -/

theorem find?_modifyFirst_self {α : Type} (p : α → Bool) (f : α → α) (xs : List α) (x : α) (h : xs.find? p = some x)
    (hp : p (f x) = true) : (modifyFirst p f xs).find? p = some (f x) := by
  induction xs with
  | nil => cases h
  | cons y ys ih =>
    rw [List.find?_cons] at h
    unfold modifyFirst
    by_cases hy : p y = true
    · rw [hy] at h; cases h; simp [hy, hp]
    · rw [Bool.not_eq_true] at hy
      rw [hy] at h
      simp [hy, ih h]

theorem find?_modifyFirst_other {α : Type} (p q : α → Bool) (f : α → α) (xs : List α) (hq : ∀ x, p x = true → q x = false ∧ q (f x) = false) :
    (modifyFirst p f xs).find? q = xs.find? q := by
  induction xs with
  | nil => rfl
  | cons y ys ih =>
    unfold modifyFirst
    split
    · rename_i hp
      simp [(hq y hp).1, (hq y hp).2]
    · simp only [List.find?_cons, ih]

theorem modifyAt_get {α : Type} (i : Nat) (f : α → α) (xs : List α) (j : Nat) :
    (modifyAt i f xs)[j]? = if j = i then xs[j]?.map f else xs[j]? := by
  induction xs generalizing i j with
  | nil => simp [modifyAt]
  | cons x xs ih =>
    cases i with
    | zero => cases j <;> simp [modifyAt]
    | succ i => cases j with
      | zero => simp [modifyAt]
      | succ j => simp [modifyAt, ih]

theorem modifyAt_getD {α : Type} (i : Nat) (f : α → α) (xs : List α) (j : Nat) (d : α) (h : i < xs.length ∨ f d = d) :
    ((modifyAt i f xs)[j]?).getD d = if j = i then f ((xs[j]?).getD d) else (xs[j]?).getD d := by
  rw [modifyAt_get]
  split
  · subst j
    rcases h with h | h
    · simp [List.getElem?_eq_getElem h]
    · cases xs[i]? <;> simp [h]
  · rfl

theorem mapQuads_get (q : Quads) (f : QBank → QBank) (bs : List QBank) (k n : Nat) :
    (mapQuads q f k bs)[n]? = bs[n]?.map fun b => if bitAt q (k + n) then f b else b := by
  induction bs generalizing k n with
  | nil => simp [mapQuads]
  | cons b bs ih =>
    cases n with
    | zero => simp [mapQuads]
    | succ n => simp [mapQuads, ih, Nat.add_assoc, Nat.add_comm 1 n]

/-! ## Waves -/

theorem State.wave?_wid {s : State} {x : Nat} {w : Wave} (h : s.wave? x = some w) : w.wid = x := by
  have := List.find?_some h
  simpa using this

theorem State.wave?_setWave_same {s : State} {w v : Wave} {x : Nat} (h : s.wave? x = some w) (hv : v.wid = x) :
    (s.setWave v).wave? x = some v := by
  subst hv
  exact find?_modifyFirst_self _ _ _ w h (by simp)

theorem State.wave?_setWave_other {s : State} {v : Wave} {x : Nat} (hx : x ≠ v.wid) : (s.setWave v).wave? x = s.wave? x := by
  refine find?_modifyFirst_other _ _ _ _ fun y hy => ?_
  simp only [beq_iff_eq] at hy
  exact ⟨by simpa [hy] using fun e => hx e.symm, by simpa using fun e => hx e.symm⟩

/-- What a part's context says of the state. -/
theorem ctx_of {s : State} {c : Ctx} (h : s.ctx? c.who = some c) :
    s.wave? c.w.wid = some c.w ∧ c.who.wid = c.w.wid ∧ s.group? c.w.gid = some c.g ∧
    (c.hnd = true ∧ c.who.ent = none ∧ c.w.handler.run = true ∧ c.q = c.w.allQuads ∧ c.m0 = c.w.living ∧ c.pc = c.w.handler.pc ∧
        c.bank = c.w.handler.bank ∧ c.aux = c.w.handler.aux ∧ c.ent = 0 ∨
      c.hnd = false ∧ c.who.ent = some c.ent ∧ (c.w.ent c.ent).isPart = true ∧ c.q = (c.w.ent c.ent).qmask ∧
        c.m0 = (c.w.ent c.ent).lmask &&& c.w.living ∧ c.pc = (c.w.ent c.ent).pc ∧ c.bank = c.w.bankOf c.ent ∧ c.aux = c.w.auxAt c.ent) := by
  unfold State.ctx? at h
  split at h
  · cases h
  · rename_i w hw
    have hid := State.wave?_wid hw
    split at h
    · cases h
    · rename_i g hg
      split at h
      · rename_i he
        split at h
        · rename_i hr
          have h := Option.some.inj h
          rw [← h]
          rw [← h] at hw hid he
          exact ⟨by rw [hid]; exact hw, hid.symm, hg, .inl ⟨rfl, he, hr, rfl, rfl, rfl, rfl, rfl, rfl⟩⟩
        · cases h
      · rename_i e he
        split at h
        · rename_i hr
          have h := Option.some.inj h
          rw [← h]
          rw [← h] at hw hid he
          exact ⟨by rw [hid]; exact hw, hid.symm, hg, .inr ⟨rfl, he, hr, rfl, rfl, rfl, rfl, rfl⟩⟩
        · cases h

/-! ## Issuing -/

/-- Where no check stops the part, the instruction's body decides: its state, or the trap it raises. -/
theorem issue_of {i : Instr} {s : State} {c : Ctx} (h : Issues i s c) (body : Ctx → Except TrapRec State) :
    issue i s body = .next (match body c with | .ok t => t | .error t => s.raise c t) := by
  unfold issue
  rw [h.cur]
  simp only [h.part]
  unfold State.perform
  rw [h.legal]
  simp only [Bool.not_true, Bool.false_eq_true, if_false]
  rw [if_neg (by
    intro e
    simp only [Bool.and_eq_true, Bool.not_eq_true'] at e
    exact absurd (h.priv e.1) (by simp [e.2]))]
  cases hw : wminI c.w.width i with
  | none => rfl
  | some n => simp only []; rw [if_neg (by have := h.wide n hw; omega)]; rfl

/-- The same for a body that answers a state. -/
theorem issue_ok {i : Instr} {s : State} {c : Ctx} (h : Issues i s c) {body : Ctx → Except TrapRec State} {t : State}
    (hb : body c = .ok t) : issue i s body = .next t := by
  rw [issue_of h, hb]

/-- An instruction that only changes the issuing wave. -/
theorem issueWave_ok {i : Instr} {s : State} {c : Ctx} (h : Issues i s c) (f : Ctx → Wave) :
    issueWave i s f = .next (s.retire c i (f c)) := issue_ok h rfl

/-! ## Frames -/

theorem OnlyWave.setWave {s : State} {v : Wave} : OnlyWave s (s.setWave v) v.wid :=
  ⟨rfl, fun _ => rfl, fun _ hx => State.wave?_setWave_other hx⟩

theorem RegFrame.refl (c : Ctx) (sd : Nat → Prop) (vd md : Nat → Nat → Prop) : RegFrame c c.w sd vd md :=
  ⟨rfl, rfl, fun _ => rfl, rfl, fun _ _ => ⟨rfl, rfl⟩, fun _ _ => rfl, fun _ b h => ⟨b, h, rfl, fun _ _ => rfl⟩, fun _ _ _ _ => rfl,
    fun _ _ _ => rfl⟩

@[simp] theorem ent_setBank (c : Ctx) (w : Wave) (f : QBank → QBank) (e : Nat) : (c.setBank w f).ent e = w.ent e := by
  unfold Ctx.setBank; split <;> rfl
@[simp] theorem auxAt_setBank (c : Ctx) (w : Wave) (f : QBank → QBank) (e : Nat) : (c.setBank w f).auxAt e = w.auxAt e := by
  unfold Ctx.setBank; split <;> rfl

/-- A write of the part's copies changes each of them and no other. -/
theorem scalarCopy_setBank (c : Ctx) (w : Wave) (f : QBank → QBank) (q : Option Nat) :
    scalarCopy (c.setBank w f) q = if holds c q then (scalarCopy w q).map f else scalarCopy w q := by
  unfold Ctx.setBank
  cases hh : c.hnd with
  | true => cases q <;> simp [scalarCopy, holds, hh]
  | false =>
    cases q with
    | none => simp [scalarCopy, holds, hh]
    | some n =>
      simp only [scalarCopy, holds, hh, Bool.not_false, Bool.true_and, Bool.false_eq_true, if_false, mapQuads_get, Nat.zero_add]
      split
      · simp
      · simp

/-- Writing banks in a way that keeps all but the scalars of `sd` and the phase. -/
theorem RegFrame.setBank {c : Ctx} {w : Wave} {sd : Nat → Prop} {vd md : Nat → Nat → Prop} (h : RegFrame c w sd vd md)
    (f : QBank → QBank) (hf : ∀ b, f b = { b with sreg := (f b).sreg, phase := (f b).phase } ∧ ∀ r, ¬ sd r → (f b).sreg.get r = b.sreg.get r) :
    RegFrame c (c.setBank w f) sd vd md where
  rest := by
    have h1 := h.rest
    unfold Ctx.setBank
    split
    · simp only []; rw [h1]
    · simp only []; rw [h1]
  handler := by
    have h1 := h.handler
    unfold Ctx.setBank
    split
    · simp only []; rw [h1]
    · exact h1
  trapped hh := by rw [show (c.setBank w f).handler = w.handler by simp [Ctx.setBank, hh]]; exact h.trapped hh
  entry := by simpa using h.entry
  entries e he := by simpa using h.entries e he
  copies q hq := by rw [scalarCopy_setBank, hq]; exact h.copies q hq
  scalars q b hb := by
    obtain ⟨b1, h1, h2, h3⟩ := h.scalars q b hb
    rw [scalarCopy_setBank]
    split
    · obtain ⟨h4, h5⟩ := hf b1
      refine ⟨f b1, by simp [h1], ?_, fun r hr => ?_⟩
      · rw [h4]; simp only []; rw [h2]
      · rw [h5 r hr]; exact h3 r hr
    · exact ⟨b1, h1, h2, h3⟩
  vectors r l hl hn := by
    rw [show (c.setBank w f).vreg = w.vreg by unfold Ctx.setBank; split <;> rfl]; exact h.vectors r l hl hn
  masks k l hn := by
    rw [show (c.setBank w f).mask = w.mask by unfold Ctx.setBank; split <;> rfl]; exact h.masks k l hn

/-- Writing a scalar of `sd`. -/
theorem RegFrame.putS {c : Ctx} {w : Wave} {sd : Nat → Prop} {vd md : Nat → Nat → Prop} (h : RegFrame c w sd vd md) {n : Nat}
    (x : Word) (hn : sd n) : RegFrame c (c.putS w n x) sd vd md :=
  h.setBank _ fun _ => ⟨rfl, fun _ hr => Store.get_set_other _ _ _ _ fun e => hr (e ▸ hn)⟩

/-- Writing a scalar pair of `sd`. -/
theorem RegFrame.putS64 {c : Ctx} {w : Wave} {sd : Nat → Prop} {vd md : Nat → Nat → Prop} (h : RegFrame c w sd vd md) {n : Nat}
    (x : DWord) (hn : sd n) (hm : sd (n + 1)) : RegFrame c (c.putS64 w n x) sd vd md := (h.putS _ hn).putS _ hm

/-- Writing a vector register of `vd` in a lane. -/
theorem RegFrame.putV {c : Ctx} {w : Wave} {sd : Nat → Prop} {vd md : Nat → Nat → Prop} (h : RegFrame c w sd vd md) {r l : Nat}
    (x : Word) (hl : l < 64) (hn : vd r l) : RegFrame c (w.putV r l x) sd vd md where
  rest := by have h1 := h.rest; unfold Wave.putV; simp only []; rw [h1]
  handler := h.handler
  trapped := h.trapped
  entry := h.entry
  entries := h.entries
  copies := h.copies
  scalars := h.scalars
  vectors r' l' hl' hn' := by
    rw [← h.vectors r' l' hl' hn']
    exact Store.get_set_other _ _ _ _ fun e => hn' (by
      have h1 : r' = r := by omega
      have h2 : l' = l := by omega
      subst h1; subst h2; exact hn)
  masks := h.masks

/-- Writing mask bits of `md`. -/
theorem RegFrame.putMask {c : Ctx} {w : Wave} {sd : Nat → Prop} {vd md : Nat → Nat → Prop} (h : RegFrame c w sd vd md) {k : Nat}
    (on x : Lanes) (hn : ∀ l, bitAt on l = true → md k l) : RegFrame c (w.putMask k on x) sd vd md where
  rest := by have h1 := h.rest; unfold Wave.putMask; simp only []; rw [h1]
  handler := h.handler
  trapped := h.trapped
  entry := h.entry
  entries := h.entries
  copies := h.copies
  scalars := h.scalars
  vectors := h.vectors
  masks k' l hn' := by
    rw [← h.masks k' l hn']
    unfold Wave.putMask
    by_cases e : k' = k
    · subst e
      simp only [Store.get_set_same]
      have : bitAt on l = false := by
        cases hb : bitAt on l with
        | false => rfl
        | true => exact absurd (hn l hb) hn'
      by_cases hl : l < 64
      · simp only [bitAt, BitVec.getLsbD_or, BitVec.getLsbD_and, BitVec.getLsbD_not, hl, decide_true, Bool.true_and] at this ⊢
        simp [this]
      · simp [BitVec.getLsbD_of_ge _ _ (Nat.le_of_not_lt hl)]
    · simp only [Store.get_set_other _ _ _ _ e]

/-- The entry of a part that issues is in the table. -/
theorem ent_lt {c : Ctx} {s : State} (h : s.ctx? c.who = some c) (hh : c.hnd = false) : c.ent < c.w.split.length := by
  rcases (ctx_of h).2.2.2 with h1 | h1
  · simp [hh] at h1
  · have h2 := h1.2.2.1
    simp only [SplitEntry.isPart, Wave.ent] at h2
    cases hx : c.w.split[c.ent]? with
    | none => simp [hx] at h2
    | some e => exact (List.getElem?_eq_some_iff.mp hx).1

theorem auxAt_updAux (w : Wave) (e k : Nat) (f : Aux → Aux) (hk : k ≠ e) : (w.updAux e f).auxAt k = w.auxAt k := by
  simp only [Wave.auxAt, Wave.updAux, modifyAt_get, if_neg hk]

theorem ent_updEnt (w : Wave) (e k : Nat) (f : SplitEntry → SplitEntry) (hk : k ≠ e) : (w.updEnt e f).ent k = w.ent k := by
  simp only [Wave.ent, Wave.updEnt, modifyAt_get, if_neg hk]

theorem ent_updEnt_same (w : Wave) (e : Nat) (f : SplitEntry → SplitEntry) (h : e < w.split.length) : (w.updEnt e f).ent e = f (w.ent e) := by
  simp only [Wave.ent, Wave.updEnt]
  rw [modifyAt_getD _ _ _ _ _ (.inl h), if_pos rfl]

/-- What the device holds beside the part may change. -/
theorem RegFrame.setAux {c : Ctx} {w : Wave} {sd : Nat → Prop} {vd md : Nat → Nat → Prop} (h : RegFrame c w sd vd md) (f : Aux → Aux) :
    RegFrame c (c.setAux w f) sd vd md := by
  unfold Ctx.setAux
  split
  · rename_i hh
    refine ⟨?_, ?_, fun e => by simp [hh] at e, h.entry, h.entries, fun q hq => ?_, fun q b hb => ?_, h.vectors, h.masks⟩
    · have h1 := h.rest; simp only []; rw [h1]
    · have h1 := h.handler; simp only []; rw [h1]
    · rw [← h.copies q hq]; cases q <;> rfl
    · obtain ⟨b1, h1, h2⟩ := h.scalars q b hb
      exact ⟨b1, by rw [← h1]; cases q <;> rfl, h2⟩
  · rename_i hh
    refine ⟨?_, h.handler, h.trapped, h.entry, fun e he => ⟨(h.entries e he).1, ?_⟩, h.copies, h.scalars, h.vectors, h.masks⟩
    · have h1 := h.rest; unfold Wave.updAux; simp only []; rw [h1]
    · rw [auxAt_updAux _ _ _ _ (he.resolve_left hh)]; exact (h.entries e he).2

/-- The part's PC may change. -/
theorem RegFrame.setPc {c : Ctx} {w : Wave} {sd : Nat → Prop} {vd md : Nat → Nat → Prop} (h : RegFrame c w sd vd md) (pc : CodeAddr) :
    RegFrame c (c.setPc w pc) sd vd md := by
  unfold Ctx.setPc
  split
  · rename_i hh
    refine ⟨?_, ?_, fun e => by simp [hh] at e, h.entry, h.entries, fun q hq => ?_, fun q b hb => ?_, h.vectors, h.masks⟩
    · have h1 := h.rest; simp only []; rw [h1]
    · have h1 := h.handler; simp only []; rw [h1]
    · rw [← h.copies q hq]; cases q <;> rfl
    · obtain ⟨b1, h1, h2⟩ := h.scalars q b hb
      exact ⟨b1, by rw [← h1]; cases q <;> rfl, h2⟩
  · rename_i hh
    refine ⟨?_, h.handler, h.trapped, ?_, fun e he => ⟨?_, (h.entries e he).2⟩, h.copies, h.scalars, h.vectors, h.masks⟩
    · have h1 := h.rest; unfold Wave.updEnt; simp only []; rw [h1]
    · simp only [Wave.ent, Wave.updEnt, modifyAt_get, if_true]
      have h1 := h.entry
      simp only [Wave.ent] at h1
      cases hx : w.split[c.ent]? with
      | none => simp only [hx, Option.map_none, Option.getD_none] at h1 ⊢; exact h1
      | some x => simp only [hx, Option.map_some, Option.getD_some] at h1 ⊢; rw [h1]
    · rw [ent_updEnt _ _ _ _ (he.resolve_left hh)]; exact (h.entries e he).1

theorem RegFrame.phase {c : Ctx} {w : Wave} {sd : Nat → Prop} {vd md : Nat → Nat → Prop} (h : RegFrame c w sd vd md) (b : Bool) :
    RegFrame c (c.setBank w fun x => { x with phase := b }) sd vd md := h.setBank _ fun _ => ⟨rfl, fun _ _ => rfl⟩

/-- Going to another place in the code changes no register. -/
theorem RegFrame.goto {c : Ctx} {w : Wave} {sd : Nat → Prop} {vd md : Nat → Nat → Prop} (h : RegFrame c w sd vd md) (pc : CodeAddr) :
    RegFrame c (c.goto w pc) sd vd md := ((h.setAux _).setPc _).phase _

/-- Moving past an instruction changes no register. -/
theorem RegFrame.advance {c : Ctx} {w : Wave} {sd : Nat → Prop} {vd md : Nat → Nat → Prop} (h : RegFrame c w sd vd md) (i : Instr) :
    RegFrame c (c.advance i w) sd vd md := by
  unfold Ctx.advance
  split
  · exact (h.setAux _).phase _
  · exact h.goto _

@[simp] theorem handler_pc_setBank (c : Ctx) (w : Wave) (f : QBank → QBank) : (c.setBank w f).handler.pc = w.handler.pc := by
  unfold Ctx.setBank; split <;> rfl
@[simp] theorem split_setBank (c : Ctx) (w : Wave) (f : QBank → QBank) : (c.setBank w f).split = w.split := by
  unfold Ctx.setBank; split <;> rfl
@[simp] theorem split_setAux (c : Ctx) (w : Wave) (f : Aux → Aux) : (c.setAux w f).split = w.split := by
  unfold Ctx.setAux; split <;> rfl
@[simp] theorem handler_pc_setAux (c : Ctx) (w : Wave) (f : Aux → Aux) : (c.setAux w f).handler.pc = w.handler.pc := by
  unfold Ctx.setAux; split <;> rfl
@[simp] theorem pcIn_setBank (c : Ctx) (w : Wave) (f : QBank → QBank) : pcIn c (c.setBank w f) = pcIn c w := by simp [pcIn, Wave.ent]
@[simp] theorem pcIn_setAux (c : Ctx) (w : Wave) (f : Aux → Aux) : pcIn c (c.setAux w f) = pcIn c w := by simp [pcIn, Wave.ent]

theorem pcIn_setPc (c : Ctx) (w : Wave) (pc : CodeAddr) (h : c.hnd = false → c.ent < w.split.length) : pcIn c (c.setPc w pc) = pc := by
  unfold pcIn Ctx.setPc
  cases hh : c.hnd with
  | true => simp
  | false => simp only [Bool.false_eq_true, if_false]; rw [ent_updEnt_same _ _ _ (h hh)]

/-- A transfer goes to its target. -/
theorem pcIn_goto (c : Ctx) (w : Wave) (pc : CodeAddr) (h : c.hnd = false → c.ent < w.split.length) : pcIn c (c.goto w pc) = pc := by
  unfold Ctx.goto
  rw [pcIn_setBank, pcIn_setPc]
  simpa using h

/-- The part of a context stands at the context's PC. -/
theorem pcIn_self {s : State} {c : Ctx} (h : s.ctx? c.who = some c) : pcIn c c.w = c.pc := by
  rcases (ctx_of h).2.2.2 with ⟨h1, _, _, _, _, h2, _⟩ | ⟨h1, _, _, _, _, h2, _⟩ <;> simp [pcIn, h1, h2]

/-- Advancing moves past the instruction. -/
theorem movedPast_advance {s : State} {c : Ctx} (h : s.ctx? c.who = some c) (i : Instr) (w : Wave) (hw : w.split = c.w.split)
    (hp : w.handler.pc = c.w.handler.pc) : MovedPast i c (c.advance i w) := by
  unfold MovedPast Ctx.advance
  split
  · rw [pcIn_setBank, pcIn_setAux, ← pcIn_self h]
    simp [pcIn, Wave.ent, hw, hp]
  · exact pcIn_goto _ _ _ fun hh => by rw [hw]; exact ent_lt h hh

theorem scalarCopy_setAux (c : Ctx) (w : Wave) (f : Aux → Aux) (q : Option Nat) : scalarCopy (c.setAux w f) q = scalarCopy w q := by
  unfold Ctx.setAux; split <;> cases q <;> rfl
theorem scalarCopy_setPc (c : Ctx) (w : Wave) (pc : CodeAddr) (q : Option Nat) : scalarCopy (c.setPc w pc) q = scalarCopy w q := by
  unfold Ctx.setPc; split <;> cases q <;> rfl

/-- Moving on writes no scalar. -/
theorem sreg_advance {c : Ctx} {i : Instr} {w : Wave} {q : Option Nat} {b : QBank} (h : scalarCopy (c.advance i w) q = some b) :
    ∃ b', scalarCopy w q = some b' ∧ b = { b' with phase := b.phase } := by
  unfold Ctx.advance Ctx.goto at h
  split at h <;> simp only [scalarCopy_setBank, scalarCopy_setAux, scalarCopy_setPc] at h <;> split at h
  all_goals (cases hx : scalarCopy w q with
    | none => simp [hx] at h
    | some x => exact ⟨x, rfl, by simp only [hx, Option.map_some, Option.some.injEq] at h; rw [← h]⟩)

@[simp] theorem vreg_setBank (c : Ctx) (w : Wave) (f : QBank → QBank) : (c.setBank w f).vreg = w.vreg := by
  unfold Ctx.setBank; split <;> rfl
@[simp] theorem mask_setBank (c : Ctx) (w : Wave) (f : QBank → QBank) : (c.setBank w f).mask = w.mask := by
  unfold Ctx.setBank; split <;> rfl
@[simp] theorem vreg_advance (c : Ctx) (i : Instr) (w : Wave) : (c.advance i w).vreg = w.vreg := by
  unfold Ctx.advance Ctx.goto Ctx.setAux Ctx.setPc; split <;> split <;> simp <;> rfl
@[simp] theorem mask_advance (c : Ctx) (i : Instr) (w : Wave) : (c.advance i w).mask = w.mask := by
  unfold Ctx.advance Ctx.goto Ctx.setAux Ctx.setPc; split <;> split <;> simp <;> rfl

/-- A scalar that is written reads as written in every copy of the part. -/
theorem sreg_putS {c : Ctx} {w : Wave} {n : Nat} {x : Word} {q : Option Nat} {b : QBank} (hq : holds c q = true)
    (h : scalarCopy (c.putS w n x) q = some b) : b.sreg.get n = x := by
  unfold Ctx.putS at h
  rw [scalarCopy_setBank, if_pos hq] at h
  cases hx : scalarCopy w q with
  | none => simp [hx] at h
  | some y => simp only [hx, Option.map_some, Option.some.injEq] at h; rw [← h]; exact Store.get_set_same _ _ _

/-- A scalar other than the one written keeps its value. -/
theorem sreg_putS_other {c : Ctx} {w : Wave} {n m : Nat} {x : Word} {q : Option Nat} {b : QBank} (hm : m ≠ n)
    (h : scalarCopy (c.putS w n x) q = some b) : ∃ b', scalarCopy w q = some b' ∧ b.sreg.get m = b'.sreg.get m := by
  unfold Ctx.putS at h
  rw [scalarCopy_setBank] at h
  cases hx : scalarCopy w q with
  | none => simp [hx] at h
  | some y =>
    refine ⟨y, rfl, ?_⟩
    simp only [hx, Option.map_some] at h
    split at h
    · simp only [Option.some.injEq] at h; rw [← h]; exact Store.get_set_other _ _ _ _ hm
    · simp only [Option.some.injEq] at h; rw [← h]

/-- The state in which a part has retired an instruction, its registers written in `w`. -/
theorem leaves_retire {s : State} {c : Ctx} {i : Instr} {w : Wave} {sd : Nat → Prop} {vd md : Nat → Nat → Prop}
    (h : s.ctx? c.who = some c) (hw : RegFrame c w sd vd md) : Leaves s (s.retire c i w) c (c.advance i w) := by
  have hid : (c.advance i w).wid = c.w.wid := by rw [(hw.advance i).rest]
  exact ⟨hid ▸ OnlyWave.setWave, State.wave?_setWave_same (ctx_of h).1 hid⟩

end Sys2Proof
end

