-- ==== Sys2Proof/Laws/MemWf.lean ====
section
/-!
SUPPORT. Memory under the shared operations: one lemma for each operation that answers a state, `(f s).mem = s.mem` where the
operation stores nothing, and that the canonical form is kept where it stores.
-/
namespace Sys2Proof.Machine

@[simp] theorem ite_mem (c : Prop) [Decidable c] (a b : State) : (if c then a else b).mem = if c then a.mem else b.mem := by
  split <;> rfl
theorem wf_ite (c : Prop) [Decidable c] (a b : State) (ha : a.mem.wf = true) (hb : b.mem.wf = true) : (if c then a else b).mem.wf = true := by
  split
  · exact ha
  · exact hb
/-- A fold of operations that keep memory keeps memory. -/
@[simp] theorem foldl_mem {α : Type} (f : State → α → State) (h : ∀ s a, (f s a).mem = s.mem) (xs : List α) (s : State) :
    (xs.foldl f s).mem = s.mem := by
  exact xs.foldlRecOn (motive := fun t => t.mem = s.mem) f rfl fun t e x _ => (h t x).trans e
@[simp] theorem foldl_wf {α : Type} (f : State → α → State) (h : ∀ s a, s.mem.wf = true → (f s a).mem.wf = true) (xs : List α) (s : State)
    (hs : s.mem.wf = true) : (xs.foldl f s).mem.wf = true :=
  xs.foldlRecOn (motive := fun t => t.mem.wf = true) f hs fun t ht x _ => h t x ht
/-- A step that may fail, then another that answers a state: what holds of every answer of the second holds of the whole. -/
theorem holds_after {α ε : Type} (P : State → Prop) (x : Except ε α) (f : α → Except ε State)
    (h : ∀ a, x = .ok a → ∀ t, f a = .ok t → P t) : ∀ t, (x >>= f) = .ok t → P t := by
  match x, h with
  | .ok a, h => exact h a rfl
  | .error _, _ => exact fun _ e => nomatch e
theorem foldlM_wf {α ε : Type} (f : State → α → Except ε State) (h : ∀ s a, s.mem.wf = true → ∀ t, f s a = .ok t → t.mem.wf = true) :
    ∀ (xs : List α) (s : State), s.mem.wf = true → ∀ t, xs.foldlM f s = .ok t → t.mem.wf = true
  | [], _, hs => fun _ e => by cases e; exact hs
  | x :: xs, s, hs => by
    rw [List.foldlM_cons]
    exact holds_after _ _ _ fun u hu => foldlM_wf f h xs u (h s x hs u hu)
theorem foldlM_mem {α ε : Type} (f : State → α → Except ε State) (h : ∀ s a t, f s a = .ok t → t.mem = s.mem) :
    ∀ (xs : List α) (s t : State), xs.foldlM f s = .ok t → t.mem = s.mem
  | [], _ => fun _ e => by cases e; rfl
  | x :: xs, s => by
    rw [List.foldlM_cons]
    exact holds_after _ _ _ fun u hu t e => by rw [foldlM_mem f h xs u t e, h s x u hu]
theorem foldl_inv {α β : Type} (P : β → Prop) (f : β → α → β) (h : ∀ b a, P b → P (f b a)) (xs : List α) (b : β) (hb : P b) : P (xs.foldl f b) :=
  xs.foldlRecOn f hb fun c hc x _ => h c x hc
@[simp] theorem State.count_mem (s : State) (f : Nat) (evt : Nat) (panel : Nat) (n : Nat) : (State.count s f evt panel n).mem = s.mem := by
  simp [State.count]
@[simp] theorem State.notify_mem (s : State) (k : Nat) (n : Nat) : (State.notify s k n).mem = s.mem := by
  simp [State.notify]
@[simp] theorem State.cleanse_mem (s : State) (covers : Nat → Bool) : (State.cleanse s covers).mem = s.mem := by
  simp [State.cleanse]
@[simp] theorem State.wr_mem (s : State) (k : Nat) (bs : List Byte) (h : s.mem.wf = true) : (s.wr k bs).mem.wf = true := by
  unfold State.wr
  split
  · simpa [Memory.wf] using Store.wf_setList bs s.mem k h
  · simpa [Memory.wf] using Store.wf_foldl_set _ _ h

@[simp] theorem State.wr64_mem (s : State) (k : Nat) (x : DWord) (h : s.mem.wf = true) : (State.wr64 s k x).mem.wf = true := by
  simp [State.wr64, h]
@[simp] theorem State.wr32_mem (s : State) (k : Nat) (x : Word) (h : s.mem.wf = true) : (State.wr32 s k x).mem.wf = true := by
  simp [State.wr32, h]
@[simp] theorem State.putRecord_mem (s : State) (f : Nat) (ws : List DWord) (h : s.mem.wf = true) : (State.putRecord s f ws).mem.wf = true := by
  unfold State.putRecord; dsimp only; (repeat' split) <;> simp_all
@[simp] theorem State.faultRecord_mem (s : State) (f : Nat) (i : FaultInfo) (parks : Bool) (h : s.mem.wf = true) : (State.faultRecord s f i parks).2.mem.wf = true := by
  unfold State.faultRecord; (repeat' split) <;> simp [h]
@[simp] theorem State.emitAt_mem (s : State) (w : Wave) (ent : Nat) (pc : CodeAddr) (w0 : Word) (more : List Word) :
    (s.emitAt w ent pc w0 more).mem = s.mem := by
  simp [State.emitAt]
@[simp] theorem State.emit_mem (s : State) (w : Wave) (ent : Nat) (w0 : Word) (more : List Word) : (State.emit s w ent w0 more).mem = s.mem := by
  simp [State.emit]
@[simp] theorem State.traceAt_mem (s : State) (w : Wave) (ent type sub : Nat) (pc : CodeAddr) (more : List Word) :
    (s.traceAt w ent type sub pc more).mem = s.mem := by
  simp [State.traceAt]
@[simp] theorem State.trace_mem (s : State) (w : Wave) (ent : Nat) (type : Nat) (sub : Nat) (more : List Word) : (State.trace s w ent type sub more).mem = s.mem := by
  simp [State.trace]
@[simp] theorem State.traceHalt_mem (s : State) (core : Nat) (sub : Nat) : (State.traceHalt s core sub).mem = s.mem := by
  simp [State.traceHalt]
@[simp] theorem State.traceWcnt_mem (s : State) (core : Nat) (h : s.mem.wf = true) : (State.traceWcnt s core).mem.wf = true := by
  simp [State.traceWcnt, h]
@[simp] theorem State.tracePut_mem (s : State) (core : Nat) (ws : List Word) (h : s.mem.wf = true) : (s.tracePut core ws).mem.wf = true := by
  unfold State.tracePut
  dsimp only
  have h1 := foldl_wf (fun (t : State) (x : Byte × Nat) => t.wr (field ((s.core core).dreg 520) 0 57 +
    ((s.core core).dbg.tw + x.2) % 2 ^ field ((s.core core).dreg 512) 56 6) [x.1]) (fun s a h => by simp [h])
  split
  · exact State.traceWcnt_mem _ _ (by rw [State.updCore_mem]; exact h1 _ _ h)
  · rw [State.updCore_mem]; exact h1 _ _ h

@[simp] theorem State.traceFull_mem (s : State) (p : TPkt) : (State.traceFull s p).mem = s.mem := by
  simp [State.traceFull]
@[simp] theorem State.traceWrite_mem (s : State) (core : Nat) (p : TPkt) (h : s.mem.wf = true) : (State.traceWrite s core p).mem.wf = true := by
  unfold State.traceWrite; dsimp only; (repeat' split) <;> simp_all
@[simp] theorem State.traceFlush_mem (s : State) (core : Nat) (h : s.mem.wf = true) : (State.traceFlush s core).mem.wf = true := by
  unfold State.traceFlush; dsimp only; (repeat' split) <;> simp_all
@[simp] theorem State.traceDrain_mem (s : State) (core : Nat) (h : s.mem.wf = true) : (State.traceDrain s core).mem.wf = true := by
  unfold State.traceDrain; (repeat' split) <;> simp [h]
@[simp] theorem State.doubleFault_mem (s : State) (w : Wave) (trapped : Nat) (handlerCode : Nat) (tpc : Word) (va : DWord) (h : s.mem.wf = true) : (State.doubleFault s w trapped handlerCode tpc va).mem.wf = true := by
  simp [State.doubleFault, h]
@[simp] theorem State.enterTrap_mem (s : State) (w : Wave) (e : Nat) (t : TrapRec) (more : Bool) (h : s.mem.wf = true) : (State.enterTrap s w e t more).mem.wf = true := by
  unfold State.enterTrap; dsimp only; (repeat' split) <;> simp_all
@[simp] theorem State.enterPending_mem (s : State) (wid : Nat) (h : s.mem.wf = true) : (State.enterPending s wid).mem.wf = true := by
  unfold State.enterPending; (repeat' split) <;> simp [h]
@[simp] theorem State.raise_mem (s : State) (c : Ctx) (t : TrapRec) (h : s.mem.wf = true) : (State.raise s c t).mem.wf = true := by
  unfold State.raise; (repeat' split) <;> simp [h]
@[simp] theorem State.unstop_mem (s : State) (wid : Nat) : (s.unstop wid).mem = s.mem := by
  unfold State.unstop; (repeat' split) <;> simp
@[simp] theorem State.letGo_mem (s : State) (wid e : Nat) : (s.letGo wid e).mem = s.mem := rfl
@[simp] theorem State.rteResume_mem (s : State) (c : Ctx) (h : s.mem.wf = true) : (State.rteResume s c).mem.wf = true := by
  simp [State.rteResume, h]
@[simp] theorem State.settle_mem (s : State) (wid : Nat) : (State.settle s wid).mem = s.mem := by
  unfold State.settle; (repeat' split) <;> simp
@[simp] theorem State.clash_mem (s : State) (wid : Nat) (h : s.mem.wf = true) : (State.clash s wid).mem.wf = true := by
  unfold State.clash; dsimp only; (repeat' split) <;> simp_all
@[simp] theorem State.restoreCheck_mem (s : State) (wid : Nat) (h : s.mem.wf = true) : (s.restoreCheck wid).mem.wf = true := by
  unfold State.restoreCheck; (repeat' split) <;> simp [h]
@[simp] theorem State.stubCheck_mem (s : State) (wid : Nat) (q : Quads) (freed : Bool) (h : s.mem.wf = true) : (s.stubCheck wid q freed).mem.wf = true := by
  unfold State.stubCheck; (repeat' split) <;> simp_all
@[simp] theorem State.noteSplit_mem (s : State) (w : Wave) (e : Nat) (kind : Nat) (lanes : Lanes) : (State.noteSplit s w e kind lanes).mem = s.mem := by
  simp [State.noteSplit]
@[simp] theorem State.faultPark_mem (s : State) (c : Ctx) (bad : Lanes) (pcAfter : CodeAddr) (phaseAfter : Bool) (park : Aux → Aux) : (State.faultPark s c bad pcAfter phaseAfter park).mem = s.mem := by
  simp [State.faultPark]
@[simp] theorem State.gather_mem (s : State) (c : Ctx) (n : Nat) (h : s.mem.wf = true) : (State.gather s c n).mem.wf = true := by
  unfold State.gather; (repeat' split) <;> simp [h]
theorem State.perform.run_mem (s : State) (c : Ctx) (body : Ctx → Except TrapRec State) (h : s.mem.wf = true)
    (hb : ∀ t, body c = .ok t → t.mem.wf = true) : (State.perform.run s c body).mem.wf = true := by
  unfold State.perform.run
  split
  · exact hb _ ‹_›
  · exact State.raise_mem _ _ _ h
theorem State.perform_mem (s : State) (i : Instr) (c : Ctx) (body : Ctx → Except TrapRec State) (h : s.mem.wf = true)
    (hb : ∀ t, body c = .ok t → t.mem.wf = true) : (s.perform i c body).mem.wf = true := by
  unfold State.perform
  (repeat' split) <;> first | exact State.raise_mem _ _ _ h | exact State.gather_mem _ _ _ h | exact State.perform.run_mem _ _ _ h hb


@[simp] theorem State.block_mem (s : State) (c : Ctx) (i : Instr) : (State.block s c i).mem = s.mem := by
  rfl
@[simp] theorem State.codeAbsent_mem (s : State) (c : Ctx) (target : CodeAddr) (h : s.mem.wf = true) : (State.codeAbsent s c target).mem.wf = true := by
  simp [State.codeAbsent, h]
@[simp] theorem State.drawn_mem (s : State) (p : Option Pfx) (n : Nat) : (State.drawn s p n).mem = s.mem := by
  simp [State.drawn]
@[simp] theorem State.pendAdd_mem (s : State) (c : Ctx) (i : Instr) (q : Quads) (l : BitVec 4) (vres : List (Nat × Word)) (sres : List (Nat × Word)) : (State.pendAdd s c i q l vres sres).2.mem = s.mem := by
  rfl
@[simp] theorem State.done_mem (s : State) (c : Ctx) (i : Instr) : (State.done s c i).mem = s.mem := by
  rfl
@[simp] theorem State.pendNew_mem (s : State) (c : Ctx) (i : Instr) (l : BitVec 4) (vres : List (Nat × Word)) (sres : List (Nat × Word)) : (State.pendNew s c i l vres sres).mem = s.mem := by
  rfl
@[simp] theorem State.tlbPut_mem (s : State) (unit ctx va : Nat) (leaf : DWord) (size : Nat) : (s.tlbPut unit ctx va leaf size).mem = s.mem := by
  unfold State.tlbPut; dsimp only; split <;> rfl
@[simp] theorem State.tlbFill_mem (s : State) (core ctx va : Nat) (leaf : DWord) (size : Nat) : (s.tlbFill core ctx va leaf size).mem = s.mem := by
  simp [State.tlbFill]
@[simp] theorem State.unservedAt_mem (s : State) (ctx : Nat) (core : Option Nat) (wr : Bool) (ks : List Spot) (h : s.mem.wf = true) :
    (s.unservedAt ctx core wr ks).mem.wf = true :=
  foldl_wf _ (fun s _ h => State.faultRecord_mem s _ _ _ h) _ _ h
@[simp] theorem State.devSeen_mem (s : State) (ctx va n : Nat) (h : s.mem.wf = true) : (s.devSeen ctx va n).mem.wf = true := by
  unfold State.devSeen
  refine foldl_wf _ (fun t k h => ?_) _ _ h
  dsimp only
  split
  · exact State.unservedAt_mem _ _ _ _ _ h
  · exact h
@[simp] theorem State.putLine_mem (s : State) (r : Line) : (s.putLine r).mem = s.mem := by
  unfold State.putLine; (repeat' split) <;> rfl
@[simp] theorem State.evictLine_mem (s : State) (r : Line) (counts : Bool) : (s.evictLine r counts).mem = s.mem := by
  simp [State.evictLine]
@[simp] theorem State.makeRoom_mem (s : State) (slice line : Nat) : (s.makeRoom slice line).mem = s.mem := by
  unfold State.makeRoom; dsimp only; (repeat' split) <;> simp
@[simp] theorem State.dropCopy_mem (s : State) (cache line : Nat) : (s.dropCopy cache line).mem = s.mem := rfl
@[simp] theorem State.recall_mem (s : State) (q : Req) (line : Nat) : (s.recall q line).mem = s.mem := by
  unfold State.recall; (repeat' split) <;> simp
@[simp] theorem State.touchLine_mem (s : State) (q : Req) (line : Nat) : (s.touchLine q line).mem = s.mem := by
  unfold State.touchLine; simp
@[simp] theorem State.sliceReq_mem (s : State) (q : Req) (home key n : Nat) (wr : Bool) : (s.sliceReq q home key n wr).mem = s.mem := by
  unfold State.sliceReq; dsimp only; (repeat' split) <;> simp
@[simp] theorem State.walkReads_mem (s : State) (ctx va : Nat) : (s.walkReads ctx va).mem = s.mem := by
  simp [State.walkReads]
@[simp] theorem State.tlbTouch_mem (s : State) (core ctx va : Nat) : (s.tlbTouch core ctx va).mem = s.mem := by
  unfold State.tlbTouch; (repeat' split) <;> simp
@[simp] theorem State.correctedBy_mem (s : State) (k panel n : Nat) : (s.correctedBy k panel n).mem = s.mem := by
  simp [State.correctedBy]
@[simp] theorem State.flits_mem (s : State) (q : Req) (panel key : Nat) : (s.flits q panel key).mem = s.mem := by
  unfold State.flits; split <;> simp
@[simp] theorem State.flitsAt_mem (s : State) (q : Req) (panel : Nat) (ks : List Spot) : (s.flitsAt q panel ks).mem = s.mem := by
  simp [State.flitsAt]
@[simp] theorem State.dropCopies_mem (s : State) (cache : Nat) : (State.dropCopies s cache).mem = s.mem := by
  rfl
@[simp] theorem State.disown_mem (s : State) (core line : Nat) : (s.disown core line).mem = s.mem := rfl
@[simp] theorem State.hold_mem (s : State) (cache line : Nat) : (s.hold cache line).mem = s.mem := by
  unfold State.hold; dsimp only; (repeat' split) <;> simp
@[simp] theorem State.forget_mem (s : State) (core key : Nat) : (s.forget core key).mem = s.mem := by
  unfold State.forget; split <;> rfl
@[simp] theorem State.l1Miss_mem (s : State) (q : Req) (core home key n : Nat) : (s.l1Miss q core home key n).mem = s.mem := by
  simp [State.l1Miss]
@[simp] theorem State.cacheRead_mem (s : State) (q : Req) (core home key n : Nat) : (s.cacheRead q core home key n).2.mem = s.mem := by
  unfold State.cacheRead; dsimp only; (repeat' split) <;> simp
@[simp] theorem State.readLines_mem (s : State) (q : Req) (core : Nat) (way : Way) (ks : List Spot) : (s.readLines q core way ks).mem = s.mem := by
  unfold State.readLines
  dsimp only
  split <;> rw [foldl_mem _ (fun t x => ?_) _ _, State.flitsAt_mem] <;> try dsimp only
  all_goals (repeat' split) <;> simp
@[simp] theorem State.ageCopies_mem (s : State) (writer : Option Nat) (key : Nat) (old new : Byte) : (s.ageCopies writer key old new).mem = s.mem := by
  unfold State.ageCopies; dsimp only; (repeat' split) <;> rfl
@[simp] theorem State.wrByteBy_mem (s : State) (writer : Option Nat) (key : Nat) (b : Byte) : (State.wrByteBy s writer key b).mem = s.mem := by
  simp [State.wrByteBy]
@[simp] theorem State.wrHere_mem (s : State) (q : Req) (key : Nat) (bs : List Byte) (h : s.mem.wf = true) : (s.wrHere q key bs).mem.wf = true := by
  unfold State.wrHere
  exact State.wr_mem _ _ _ (by rw [foldl_mem _ (fun s x => State.wrByteBy_mem s _ _ _)]; exact h)
@[simp] theorem State.wrBy_mem (s : State) (q : Req) (home key : Nat) (bs : List Byte) (h : s.mem.wf = true) : (s.wrBy q home key bs).mem.wf = true :=
  State.wrHere_mem _ _ _ _ (by rw [State.sliceReq_mem]; exact h)
@[simp] theorem State.wrSpots_mem (s : State) (q : Req) (ks : List (Spot × Byte)) (h : s.mem.wf = true) : (s.wrSpots q ks).mem.wf = true := by
  unfold State.wrSpots
  refine foldl_wf _ (fun s x h => wf_ite _ _ _ h (State.wr_mem _ _ _ (by simpa using h))) _ _ ?_
  rw [foldl_mem _ (fun s x => State.sliceReq_mem s _ _ _ _ _)]
  simpa using h
@[simp] theorem State.pageRecords_mem (s : State) (c : Ctx) (x2 : List (Nat × LFault)) (h : s.mem.wf = true) :
    (s.pageRecords c x2).2.mem.wf = true := by
  induction x2 generalizing s with
  | nil => exact h
  | cons x xs ih => unfold State.pageRecords; exact ih _ (by simp [h])

@[simp] theorem State.park_mem (s : State) (c : Ctx) (i : Instr) (bad : List (Nat × LFault)) (did : Lanes) (scalar : Bool) (h : s.mem.wf = true) : (State.park s c i bad did scalar).mem.wf = true := by
  simp [State.park, h]
theorem State.lanewise_mem {α : Type} (s : State) (c : Ctx) (i : Instr) (ps : List (Nat × Except LFault α)) (go : Quads → List (Nat × α) → State)
    (h : s.mem.wf = true) (hg : ∀ q xs, (go q xs).mem.wf = true) : ∀ t, s.lanewise c i ps go = .ok t → t.mem.wf = true := by
  intro t e
  unfold State.lanewise at e
  dsimp only at e
  (repeat' split at e) <;> (first | cases e | skip) <;> simp_all

theorem State.scalarwise_mem {α : Type} (s : State) (c : Ctx) (i : Instr) (p : Except LFault α) (go : α → State)
    (h : s.mem.wf = true) (hg : ∀ a, (go a).mem.wf = true) : ∀ t, s.scalarwise c i p go = .ok t → t.mem.wf = true := by
  intro t e
  unfold State.scalarwise at e
  (repeat' split at e) <;> (first | cases e | skip) <;> simp_all

@[simp] theorem State.deliver_mem (s : State) (a : Access) (p : Piece) (ws : List Word) : (State.deliver s a p ws).mem = s.mem := by
  unfold State.deliver; split <;> simp
@[simp] theorem State.putCode_mem (s : State) (core : Nat) (slot : Nat) (word : Nat) (ws : List Word) : (State.putCode s core slot word ws).mem = s.mem := by
  rfl
@[simp] theorem State.unserved_mem (s : State) (a : Access) (p : Piece) (sub : Nat) (h : s.mem.wf = true) : (State.unserved s a p sub).mem.wf = true := by
  unfold State.unserved; (repeat' split) <;> simp [h]
@[simp] theorem State.predict_mem (s : State) (core lead : Nat) (p : Piece) : (s.predict core lead p).mem = s.mem := by
  unfold State.predict; dsimp only; (repeat' split) <;> rfl
@[simp] theorem State.own_mem (s : State) (core line : Nat) : (s.own core line).mem = s.mem := by
  simp [State.own]
@[simp] theorem State.remember_mem (s : State) (a : Access) (p : Piece) : (s.remember a p).mem = s.mem := by
  unfold State.remember; split <;> rfl
@[simp] theorem State.act_mem (s : State) (a : Access) (p : Piece) (h : s.mem.wf = true) : (s.act a p).mem.wf = true := by
  have h1 : (s.flits (s.reqOf a) (if a.host.isSome then 0 else panelOf (s.coreOf a)) p.addr).mem.wf = true := by simpa using h
  unfold State.act
  dsimp only
  generalize s.flits (s.reqOf a) (if a.host.isSome then 0 else panelOf (s.coreOf a)) p.addr = v at h1 ⊢
  split
  · exact State.unserved_mem _ _ _ _ h1
  · split
    · rw [State.deliver_mem]
      split
      · rw [State.cacheRead_mem]; exact h1
      · rw [State.forget_mem, State.sliceReq_mem]; exact h1
    · exact State.wrBy_mem _ _ _ _ _ (by rw [State.cleanse_mem, State.remember_mem]; exact h1)
    · rw [State.putCode_mem, State.sliceReq_mem]; exact h1
    · exact State.wrBy_mem _ _ _ _ _ (by rw [State.draw_mem]; exact h1)
    · have hu : ∀ (c : Prop) [Decidable c] (t u : State), t.mem = u.mem → (if c then t else u).mem = u.mem := by
        intro c _ t u e; split <;> simp [e]
      refine wf_ite _ _ _ ?_ ?_ <;> simp only [State.own_mem, State.predict_mem, State.deliver_mem]
      all_goals split
      all_goals first
        | exact State.wrHere_mem _ _ _ _ (by rw [State.remember_mem]; exact wf_ite _ _ _ h1 (by rw [State.sliceReq_mem]; exact h1))
        | (rw [State.forget_mem]; exact wf_ite _ _ _ h1 (by rw [State.sliceReq_mem]; exact h1))
@[simp] theorem State.acquire_mem (s : State) (wid : Nat) (hnd : Bool) (q : Quads) (scope : Nat) : (s.acquire wid hnd q scope).mem = s.mem := by
  unfold State.acquire; (repeat' split) <;> simp
@[simp] theorem State.performPiece_mem (s : State) (a : Access) (p : Piece) (h : s.mem.wf = true) : (s.performPiece a p).mem.wf = true := by
  unfold State.performPiece; dsimp only; split <;> simp [h]
@[simp] theorem State.performAll_mem (s : State) (a : Access) (h : s.mem.wf = true) : (s.performAll a).mem.wf = true :=
  foldl_wf _ (fun s p h => State.performPiece_mem s a p h) _ _ h

@[simp] theorem State.before_mem (s : State) (c : Ctx) (hit : Access → Bool) (ks : List Nat) (h : s.mem.wf = true) : (s.before c hit ks).mem.wf = true :=
  foldl_wf _ (fun s a h => State.performAll_mem s a h) _ _ h

@[simp] theorem State.launchAccess_mem (s : State) (a : Access) : (s.launchAccess a).mem = s.mem := by
  unfold State.launchAccess
  split
  · rfl
  · dsimp only
    split
    · rfl
    · rw [foldl_mem _ (fun s p => State.tlbTouch_mem s _ _ _)]
@[simp] theorem State.loadLanes_mem (s : State) (c : Ctx) (i : Instr) (p : Option Pfx) (d : Nat) (n : Nat) (sx : Bool) (l : BitVec 4) (acq : Bool) (scope : Nat) (q : Quads) (ls : List (Nat × Found)) : (State.loadLanes s c i p d n sx l acq scope q ls).mem = s.mem := by
  simp [State.loadLanes]
theorem State.readSettle_mem {α : Type} (c : Ctx) (f : State → List (Nat × Except LFault α × List Spot)) (n : Nat) (s : State)
    (h : s.mem.wf = true) : (State.readSettle c f n s).mem.wf = true := by
  induction n generalizing s with
  | zero => unfold State.readSettle; simp [h]
  | succ n ih =>
    unfold State.readSettle; dsimp only
    split
    · exact h
    · exact ih _ (State.before_mem _ _ _ _ h)

theorem State.readNow_mem {α : Type} (s : State) (c : Ctx) (f : State → List (Nat × Except LFault α × List Spot)) (way : Way)
    (h : s.mem.wf = true) : (s.readNow c f way).1.mem.wf = true := by
  unfold State.readNow
  exact State.unservedAt_mem _ _ _ _ _ (by rw [State.readLines_mem]; exact State.readSettle_mem _ _ _ _ h)

@[simp] theorem State.storeLanes_mem (s : State) (c : Ctx) (d : Nat) (n : Nat) (kind : AccKind) (rel : Bool) (scope : Nat) (q : Quads) (ls : List (Nat × Nat × Xlat)) : (State.storeLanes s c d n kind rel scope q ls).mem = s.mem := by
  simp [State.storeLanes]
@[simp] theorem State.raiseAt_mem (s : State) (wid : Nat) (ent : Nat) (t : TrapRec) (h : s.mem.wf = true) : (State.raiseAt s wid ent t).mem.wf = true := by
  unfold State.raiseAt; (repeat' split) <;> simp [h]
@[simp] theorem State.updBar_mem (s : State) (gid : Nat) (k : Nat) (f : Barrier → Barrier) : (State.updBar s gid k f).mem = s.mem := by
  rfl
@[simp] theorem State.barCheck_mem (s : State) (gid : Nat) (k : Nat) (h : s.mem.wf = true) : (State.barCheck s gid k).mem.wf = true := by
  unfold State.barCheck; dsimp only; (repeat' split) <;> simp_all
@[simp] theorem State.barSweep_mem (s : State) (gid : Nat) (h : s.mem.wf = true) : (s.barSweep gid).mem.wf = true := by
  unfold State.barSweep
  split
  · exact h
  · exact foldl_wf _ (fun s k h => State.barCheck_mem s gid k h) _ _ h

@[simp] theorem State.copyNote_mem (s : State) (core : Nat) (x : Copy) (t : TrapRec) (rid : Option Nat) : (s.copyNote core x t rid).mem = s.mem := rfl
@[simp] theorem State.copyLate_mem (g : Group) (k : Nat) (s : State) : (State.copyLate g k s).mem = s.mem := by
  unfold State.copyLate; split <;> rfl
@[simp] theorem State.clearBarFault_mem (s : State) (g : Group) (k : Nat) (h : s.mem.wf = true) : (State.clearBarFault s g k).mem.wf = true := by
  unfold State.clearBarFault; rw [State.copyLate_mem]; dsimp only; (repeat' split) <;> simp [h]
@[simp] theorem State.barFault_mem (s : State) (gid k : Nat) (h : s.mem.wf = true) : (s.barFault gid k).mem.wf = true := by
  unfold State.barFault
  split
  · exact h
  · split
    · refine foldl_wf _ (fun s w h => State.raiseAt_mem s _ _ _ h) _ _ ?_
      rw [State.updBar_mem]
      exact State.clearBarFault_mem _ _ _ h
    · exact h
theorem State.copyStart_mem (s : State) (c : Ctx) (a : BitVec 4) (b : BitVec 5) : ∀ t, (State.copyStart s c a b) = .ok t → t.mem = s.mem := by
  unfold State.copyStart; dsimp only; (repeat' split) <;> simp_all
@[simp] theorem State.copyRecord_mem (s : State) (core : Nat) (x : Copy) (t : TrapRec) (rid : Option Nat) (h : s.mem.wf = true) :
    (s.copyRecord core x t rid).mem.wf = true := by
  simp [State.copyRecord, h]

@[simp] theorem State.copyFault_mem (s : State) (core : Nat) (x : Copy) (f : XFault) (va : Nat) (h : s.mem.wf = true) : (State.copyFault s core x f va).mem.wf = true := by
  unfold State.copyFault; dsimp only; (repeat' split) <;> simp_all
@[simp] theorem State.fenceEnd_mem (s : State) (c : Ctx) (k : BitVec 4) (sc : BitVec 3) : (State.fenceEnd s c k sc).mem = s.mem := by
  unfold State.fenceEnd; dsimp only; (repeat' split) <;> simp
@[simp] theorem State.cbarCheck_mem (s : State) (m : Nat) : (State.cbarCheck s m).mem = s.mem := by
  unfold State.cbarCheck
  (repeat' split) <;> try rfl
  dsimp only
  split
  · rfl
  · refine foldl_mem _ (fun t g => ?_) _ _
    exact foldl_mem _ (fun t x => by simp) _ _
@[simp] theorem State.cbarSweep_mem (s : State) (lid : Nat) : (s.cbarSweep lid).mem = s.mem := by
  unfold State.cbarSweep
  refine foldl_mem _ (fun t m => ?_) _ _
  split <;> simp
@[simp] theorem State.sweep_mem (s : State) (h : s.mem.wf = true) : s.sweep.mem.wf = true := by
  unfold State.sweep
  exact foldl_wf _ (fun t g h => by rw [State.cbarSweep_mem]; exact State.barSweep_mem _ _ h) _ _ h

@[simp] theorem State.thaw_mem (s : State) (gid : Nat) (wid : Nat) : (State.thaw s gid wid).mem = s.mem := by
  rfl
@[simp] theorem State.freeze_mem (s : State) (gid : Nat) (wid : Nat) : (State.freeze s gid wid).mem = s.mem := by
  rfl
@[simp] theorem State.monEnd_mem (s : State) (w : Wave) (ent : Nat) (a : BitVec 6) (g : Bool) (tmo : Bool) : (State.monEnd s w ent a g tmo).mem = s.mem := by
  simp [State.monEnd]
@[simp] theorem State.updBatch_mem (s : State) (wid : Nat) (f : Batch → Batch) : (State.updBatch s wid f).mem = s.mem := by
  rfl
@[simp] theorem State.enqueue_mem (s : State) (c : Ctx) (i : Instr) (op : EOp) : (State.enqueue s c i op).mem = s.mem := by
  unfold State.enqueue; split <;> simp
theorem State.primeBody_mem (s : State) (c : Ctx) (i : Instr) (can : Nat) (a : Nat) (g : Nat) : ∀ t, (State.primeBody s c i can a g) = .ok t → t.mem = s.mem := by
  unfold State.primeBody; dsimp only; (repeat' split) <;> simp_all
theorem State.mmaBody_mem (s : State) (c : Ctx) (i : Instr) (tile : Nat) (can : Nat) (g : Nat) : ∀ t, (State.mmaBody s c i tile can g) = .ok t → t.mem = s.mem := by
  unfold State.mmaBody; dsimp only; (repeat' split) <;> simp_all
@[simp] theorem State.opDone_mem (s : State) (core : Nat) (op : EOp) : (State.opDone s core op).mem = s.mem := by
  simp [State.opDone]
@[simp] theorem State.opRecord_mem (s : State) (core : Nat) (op : EOp) (t : TrapRec) (rid : Option Nat) (retry : Bool) : (State.opRecord s core op t rid retry).mem = s.mem := by
  rfl
@[simp] theorem State.opFault_mem (s : State) (core : Nat) (op : EOp) (f : LFault) (h : s.mem.wf = true) : (State.opFault s core op f).mem.wf = true := by
  unfold State.opFault; (repeat' split) <;> simp [h]
@[simp] theorem State.beforeOp_mem (s : State) (op : EOp) (hit : Access → Bool) (ks : List Nat) (h : s.mem.wf = true) : (s.beforeOp op hit ks).mem.wf = true :=
  foldl_wf _ (fun s a h => State.performAll_mem s a h) _ _ h

@[simp] theorem State.failCanvas_mem (s : State) (core : Nat) (g : Group) (can : Nat) (wide : Bool) : (State.failCanvas s core g can wide).mem = s.mem := by
  rfl
@[simp] theorem State.replayOps_mem (s : State) (w : Wave) : (State.replayOps s w).mem = s.mem := by
  simp [State.replayOps]
@[simp] theorem State.reportFault_mem (s : State) (c : Ctx) (f : DFault) (h : s.mem.wf = true) : (State.reportFault s c f).mem.wf = true := by
  simp [State.reportFault, h]
@[simp] theorem State.bwaitEnd_mem (s : State) (c : Ctx) (i : Instr) (h : s.mem.wf = true) : (State.bwaitEnd s c i).mem.wf = true := by
  unfold State.bwaitEnd; (repeat' split) <;> simp [h]
@[simp] theorem State.bwaitGo_mem (s : State) (c : Ctx) (i : Instr) (n : Nat) (h : s.mem.wf = true) : (State.bwaitGo s c i n).mem.wf = true := by
  unfold State.bwaitGo; dsimp only; (repeat' split) <;> simp_all
@[simp] theorem State.accWrite_mem (s : State) (c : Ctx) (ts : List Nat) (cells : List (Nat × DWord)) : (State.accWrite s c ts cells).mem = s.mem := by
  simp [State.accWrite]
@[simp] theorem State.accRead_mem (s : State) (c : Ctx) (ts : List Nat) : (State.accRead s c ts).2.mem = s.mem := by
  simp [State.accRead]
theorem State.withTiles_mem (s : State) (c : Ctx) (t n : Nat) (go : List Nat → Except TrapRec State)
    (hg : ∀ ts t, go ts = .ok t → t.mem.wf = true) : ∀ u, s.withTiles c t n go = .ok u → u.mem.wf = true := by
  intro u e
  unfold State.withTiles at e
  split at e
  · cases e
  · split at e
    · cases e
    · exact hg _ u e

@[simp] theorem State.drainDrawn_mem (s : State) (r : BitVec 3) (n : Nat) : (State.drainDrawn s r n).mem = s.mem := by
  simp [State.drainDrawn]
theorem State.wholewise_mem {α : Type} (s : State) (c : Ctx) (i : Instr) (ps : List (Nat × Except LFault α)) (go : List (Nat × α) → Except TrapRec State)
    (h : s.mem.wf = true) (hg : ∀ xs t, go xs = .ok t → t.mem.wf = true) : ∀ t, s.wholewise c i ps go = .ok t → t.mem.wf = true := by
  intro t e
  unfold State.wholewise at e
  split at e
  · cases e
  · split at e
    · cases hk : go (okLanes ps) with
      | error r => rw [hk] at e; cases e
      | ok u => rw [hk] at e; cases e; simpa using hg _ _ hk
    · cases e; simp [h]

@[simp] theorem State.storePart_mem (s : State) (c : Ctx) (ps : List (Piece × Xlat)) : (State.storePart s c ps).mem = s.mem := by
  simp [State.storePart]
theorem State.quantStores_mem (s : State) (c : Ctx) (i : Instr) (va : Nat) (q : QState) (fin : State → State) (h : s.mem.wf = true)
    (hf : ∀ t, (fin t).mem = t.mem) : ∀ t, s.quantStores c i va q fin = .ok t → t.mem.wf = true := by
  intro t e
  unfold State.quantStores at e
  refine State.wholewise_mem s c i _ _ h (fun xs t e => ?_) t e
  dsimp only at e
  split at e
  · cases e
  · cases e; rw [hf, State.storePart_mem, State.storePart_mem]; exact h

@[simp] theorem State.updSlot_mem (s : State) (core : Nat) (k : Nat) (f : Slot → Slot) : (State.updSlot s core k f).mem = s.mem := by
  rfl
@[simp] theorem State.loadStart_mem (s : State) (core : Nat) (slot : Nat) (ctx : Nat) (wid : Nat) (q : Quads) (src : Nat) : (State.loadStart s core slot ctx wid q src).mem = s.mem := by
  unfold State.loadStart; dsimp only; (repeat' split) <;> simp_all
@[simp] theorem State.loadAgain_mem (s : State) (core slot ctx wid : Nat) (q : Quads) (src : Nat) :
    (s.loadAgain core slot ctx wid q src).mem = s.mem := by
  unfold State.loadAgain; dsimp only; split <;> simp
theorem State.cfetchBody_mem (s : State) (c : Ctx) (a : BitVec 5) (sl : BitVec 7) : ∀ t, (State.cfetchBody s c a sl) = .ok t → t.mem = s.mem := by
  unfold State.cfetchBody; dsimp only; (repeat' split) <;> simp_all
theorem State.cwaitBody_mem (s : State) (c : Ctx) (sl : BitVec 7) (h : s.mem.wf = true) : ∀ t, (State.cwaitBody s c sl) = .ok t → t.mem.wf = true := by
  unfold State.cwaitBody; dsimp only; (repeat' split) <;> simp_all
theorem State.fetchNow_mem {α : Type} (s : State) (c : Ctx) (f : State → Via → List (Nat × Except LFault α × List Spot))
    (h : s.mem.wf = true) : (s.fetchNow c f).1.mem.wf = true := by
  unfold State.fetchNow
  exact State.readNow_mem _ _ _ _ h

@[simp] theorem State.blend_mem (s : State) (g : Group) (d : Draw) (f : Frag) (r : Nat × List Word) (h : s.mem.wf = true) : (State.blend s g d f r).mem.wf = true := by
  unfold State.blend; dsimp only; (repeat' split) <;> simp_all
@[simp] theorem State.updDraw_mem (s : State) (lid : Nat) (f : Draw → Draw) : (State.updDraw s lid f).mem = s.mem := by
  rfl
@[simp] theorem State.blendPixel_mem (s : State) (g : Group) (x y : Nat) (h : s.mem.wf = true) : (s.blendPixel g x y).mem.wf = true := by
  unfold State.blendPixel
  split
  · exact h
  · rw [State.updDraw_mem]
    refine foldl_wf _ (fun s f h => ?_) _ _ h
    exact foldl_wf _ (fun s r h => State.blend_mem s _ _ _ _ h) _ _ h

@[simp] theorem State.dropFrags_mem (s : State) (g : Group) (h : s.mem.wf = true) : (State.dropFrags s g).mem.wf = true := by
  unfold State.dropFrags; dsimp only; (repeat' split) <;> simp_all
theorem State.devWrite_mem (s : State) (ctx va : Nat) (bs : List Byte) (h : s.mem.wf = true) :
    ∀ t, s.devWrite ctx va bs = .ok t → t.mem.wf = true := by
  intro t e
  unfold State.devWrite at e
  cases hk : s.span none ctx va bs.length .wr false with
  | error r => rw [hk] at e; cases e
  | ok ks => rw [hk] at e; cases e; exact foldl_wf _ (fun s x h => by simp [h]) _ _ (by simp [h])

@[simp] theorem State.devTry_mem (s : State) (ctx va : Nat) (bs : List Byte) (h : s.mem.wf = true) : (s.devTry ctx va bs).mem.wf = true := by
  unfold State.devTry
  split
  · exact State.devWrite_mem s _ _ _ h _ ‹_›
  · exact h

@[simp] theorem State.complete_mem (s : State) (l : Launch) (detail : Nat) (h : s.mem.wf = true) : (State.complete s l detail).mem.wf = true := by
  simp [State.complete, h]
@[simp] theorem State.completeIf_mem (s : State) (lid : Nat) (h : s.mem.wf = true) : (State.completeIf s lid).mem.wf = true := by
  unfold State.completeIf; (repeat' split) <;> simp [h]
@[simp] theorem State.dropLists_mem (s : State) (ctx : Nat) (p : WorkList → Bool) (h : s.mem.wf = true) : (State.dropLists s ctx p).mem.wf = true := by
  unfold State.dropLists; dsimp only; (repeat' split) <;> simp_all
@[simp] theorem State.quietCheck_mem (s : State) (gid : Nat) : (s.quietCheck gid).mem = s.mem := by
  unfold State.quietCheck
  split
  · rfl
  · dsimp only
    split
    · rfl
    · refine foldl_mem _ (fun s k => ?_) _ _
      exact foldl_mem _ (fun s x => by rw [State.letGo_mem, State.updWave_mem]) _ _

@[simp] theorem State.energyAdd_mem (s : State) (func : Nat) (queue : Nat) (x : Int) : (State.energyAdd s func queue x).mem = s.mem := by
  rfl
@[simp] theorem State.groupRecord_mem (s : State) (g : Group) (code : Nat) (va : Nat) (wr : Bool) (defer : Bool) (sub : Nat) (h : s.mem.wf = true) : (State.groupRecord s g code va wr defer sub).mem.wf = true := by
  simp [State.groupRecord, h]
@[simp] theorem State.freeGroup_mem (s : State) (g : Group) (h : s.mem.wf = true) : (State.freeGroup s g).mem.wf = true := by
  simp [State.freeGroup, h]
@[simp] theorem State.cohortQuiet_mem (s : State) (lid : Nat) : (State.cohortQuiet s lid).mem = s.mem := by
  unfold State.cohortQuiet; split <;> simp
@[simp] theorem State.afterEnd_mem (s : State) (g : Group) (h : s.mem.wf = true) : (s.afterEnd g).mem.wf = true := by
  unfold State.afterEnd
  refine State.completeIf_mem _ _ (wf_ite _ _ _ (State.dropLists_mem _ _ _ ?_) ?_) <;> simpa using h

@[simp] theorem State.abortGroup_mem (s : State) (g : Group) (status : Nat) (h : s.mem.wf = true) : (s.abortGroup g status).mem.wf = true := by
  unfold State.abortGroup
  dsimp only
  refine State.afterEnd_mem _ _ ?_
  refine State.freeGroup_mem _ _ (State.dropFrags_mem _ _ ?_)
  exact foldl_wf _ (fun s a h => State.performAll_mem s a h) _ _ h

@[simp] theorem State.imageFail_mem (s : State) (ctx : Nat) (image : Nat) (f : XFault) (wr : Bool) (h : s.mem.wf = true) : (State.imageFail s ctx image f wr).mem.wf = true := by
  unfold State.imageFail; (repeat' split) <;> simp [h]
theorem State.setAcssp_mem (s : State) (ctx image : Nat) (on : Bool) (h : s.mem.wf = true) :
    ∀ t, s.setAcssp ctx image on = .ok t → t.mem.wf = true := by
  intro t e
  unfold State.setAcssp at e
  split at e
  · cases e
  · exact State.devWrite_mem s _ _ _ h t e

@[simp] theorem State.spill_mem (s : State) (core ctx image : Nat) (h : s.mem.wf = true) : (s.spill core ctx image).mem.wf = true := by
  unfold State.spill
  dsimp only
  split
  · rename_i t e
    rw [State.updCore_mem]
    exact holds_after (fun t => t.mem.wf = true) _ _ (fun u hu => State.setAcssp_mem u _ _ _
      (foldlM_wf _ (fun s a h => State.devWrite_mem s _ _ _ h) _ _ h u hu)) t e
  · exact State.imageFail_mem _ _ _ _ _ h

theorem State.loadTile_mem (s : State) (core ctx image k t : Nat) (h : s.mem.wf = true) :
    ∀ u, s.loadTile core ctx image k t = .ok u → u.mem.wf = true := by
  intro u e
  unfold State.loadTile at e
  cases hk : s.devWords ctx (s.acsVa ctx image k) 1024 with
  | error r => rw [hk] at e; cases e
  | ok ks => rw [hk] at e; cases e; rw [State.updCore_mem]; exact State.devSeen_mem _ _ _ _ h

theorem State.loadTiles_mem (s : State) (core ctx image : Nat) (ts : List (Nat × Nat)) (h : s.mem.wf = true) :
    ∀ u, s.loadTiles core ctx image ts = .ok u → u.mem.wf = true :=
  foldlM_wf _ (fun s _ h => State.loadTile_mem s _ _ _ _ _ h) _ _ h

@[simp] theorem State.attachPend_mem (s : State) (core : Nat) (g : Group) (h : s.mem.wf = true) : (s.attachPend core g).mem.wf = true := by
  unfold State.attachPend
  dsimp only
  split
  · exact h
  · split
    · rename_i t e
      exact holds_after (fun t => t.mem.wf = true) _ _ (fun u hu => State.setAcssp_mem u _ _ _
        (State.loadTiles_mem _ _ _ _ _ (by rw [State.updCore_mem]; exact h) u hu)) t e
    · exact State.imageFail_mem _ _ _ _ _ h

@[simp] theorem State.acsTransfer_mem (s : State) (core ctx : Nat) (h : s.mem.wf = true) : (s.acsTransfer core ctx).mem.wf = true := by
  unfold State.acsTransfer
  dsimp only
  rw [State.updCore_mem]
  refine foldl_wf _ (fun s g h => State.attachPend_mem s _ _ h) _ _ ?_
  exact foldl_wf _ (fun s x h => State.spill_mem s _ _ _ h) _ _ h

@[simp] theorem State.noteIssue_mem (s : State) (c : Ctx) (i : Instr) : (State.noteIssue s c i).mem = s.mem := by
  simp [State.noteIssue]
@[simp] theorem State.noteRan_mem (s : State) (c : Ctx) (i : Instr) : (s.noteRan c i).mem = s.mem := by
  unfold State.noteRan; dsimp only; split <;> simp
@[simp] theorem State.noteRanUnless_mem (s : State) (c : Ctx) (i : Instr) : (s.noteRanUnless c i).mem = s.mem := by
  unfold State.noteRanUnless; split <;> simp
@[simp] theorem State.closeWindow_mem (s : State) (c : Ctx) (idLimit : Nat) : (s.closeWindow c idLimit).mem = s.mem := by
  unfold State.closeWindow; (repeat' split) <;> simp
@[simp] theorem State.noteWaitEnd_mem (s : State) (i : Instr) : (s.noteWaitEnd i).mem = s.mem := by
  unfold State.noteWaitEnd; split <;> simp
@[simp] theorem State.closeIssue_mem (s : State) (c : Ctx) (i : Instr) (idLimit : Nat) : (State.closeIssue s c i idLimit).mem = s.mem := by
  unfold State.closeIssue; (repeat' split) <;> simp
@[simp] theorem State.requestHalt_mem (s : State) (core : Nat) : (State.requestHalt s core).mem = s.mem := by
  simp [State.requestHalt]
@[simp] theorem State.softTrap_mem (s : State) (c : Ctx) (i : Instr) (code : Nat) (info : Word) (h : s.mem.wf = true) : (State.softTrap s c i code info).mem.wf = true := by
  simp [State.softTrap, h]
@[simp] theorem State.regionStop_mem (s : State) (core : Nat) (id : BitVec 14) (edge : Nat) : (State.regionStop s core id edge).mem = s.mem := by
  simp [State.regionStop]
@[simp] theorem State.postEvent_mem (s : State) (q : Nat) (x : Word) (h : s.mem.wf = true) : (State.postEvent s q x).mem.wf = true := by
  unfold State.postEvent; (repeat' split) <;> simp [h]
@[simp] theorem State.postCounter_mem (s : State) (q : Nat) (f : Nat) (n : Nat) (h : s.mem.wf = true) : (State.postCounter s q f n).mem.wf = true := by
  unfold State.postCounter; (repeat' split) <;> simp [h]
@[simp] theorem State.addCount_mem (s : State) (f : Nat) (n : Nat) (k : Nat) (h : s.mem.wf = true) : (State.addCount s f n k).mem.wf = true := by
  unfold State.addCount; dsimp only; (repeat' split) <;> simp_all
@[simp] theorem State.flushOne_mem (s : State) (f code k : Nat) (h : s.mem.wf = true) : (s.flushOne f code k).mem.wf = true := by
  unfold State.flushOne
  refine foldl_wf _ (fun s n h => ?_) _ _ h
  split
  · exact State.addCount_mem s _ _ _ h
  · exact h

@[simp] theorem State.flushFunc_mem (s : State) (f : Nat) (h : s.mem.wf = true) : (s.flushFunc f).mem.wf = true :=
  foldl_wf _ (fun s _ h => State.flushOne_mem s _ _ _ h) _ _ h

@[simp] theorem State.enterSafe_mem (s : State) (stage : Nat) (fcode : Nat) (fdetail : Word) : (State.enterSafe s stage fcode fdetail).mem = s.mem := by
  rfl
@[simp] theorem State.stageTo_mem (s : State) (stage : Nat) : (State.stageTo s stage).mem = s.mem := by
  rfl
@[simp] theorem State.outside_mem (s : State) (h : s.mem.wf = true) : s.outside.mem.wf = true := Store.wf_filter _ _ h

@[simp] theorem State.accepted_mem (s : State) (letter : Byte) (version : Word) (d : List Byte) : (State.accepted s letter version d).mem = s.mem := by
  rfl
@[simp] theorem State.respond_mem (s : State) (rst : Nat) (bs : List Byte) : (State.respond s rst bs).mem = s.mem := by
  rfl
theorem State.command_mem (s : State) (cmd len : Nat) (go : State → State) (hg : ∀ s, (go s).mem = s.mem) : (s.command cmd len go).mem = s.mem := by
  unfold State.command
  split
  · rfl
  · split
    · simp
    · exact hg s

@[simp] theorem State.loadSeen_mem (s : State) (ctx va : Nat) (w : Nat → DWord) (h : s.mem.wf = true) : (s.loadSeen ctx va w).mem.wf = true := by
  unfold State.loadSeen
  extract_lets s1 n s2
  have h1 : s1.mem.wf = true := State.devSeen_mem _ _ _ _ h
  have h2 : s2.mem.wf = true := wf_ite _ _ _ h1 (State.devSeen_mem _ _ _ _ h1)
  exact wf_ite _ _ _ h1 (wf_ite _ _ _ h2 (State.devSeen_mem _ _ _ _ h2))
@[simp] theorem State.writeVec_mem (s : State) (func i : Nat) (v : DWord) : (s.writeVec func i v).mem = s.mem := by
  unfold State.writeVec; extract_lets s1 f n; rw [ite_mem, State.signal_mem]; simp [s1]
@[simp] theorem State.replaceRows_mem (s : State) (core : Nat) : (s.replaceRows core).mem = s.mem := rfl
@[simp] theorem State.hostLaunch_mem (s : State) (func off : Nat) (ps : List (Nat × Spot × Byte)) : (s.hostLaunch func off ps).mem = s.mem := by
  unfold State.hostLaunch
  exact foldl_mem _ (fun t w => by simp) _ _
@[simp] theorem State.attribute_mem (s : State) (grains : Nat) : (s.attribute grains).mem = s.mem := by
  simp [State.attribute]
@[simp] theorem State.elsewhere_mem (s : State) (key : Nat) (bs : List Byte) (h : s.mem.wf = true) : (s.elsewhere key bs).mem.wf = true := by
  unfold State.elsewhere
  split
  · exact Store.wf_setList bs s.mem key h
  · exact h
@[simp] theorem State.writeMbcmd_mem (s : State) (v : DWord) : (State.writeMbcmd s v).mem = s.mem := by
  simp [State.writeMbcmd]
@[simp] theorem State.writeBuf_mem (s : State) (off : Nat) (bs : List Byte) : (State.writeBuf s off bs).mem = s.mem := by
  rfl
@[simp] theorem State.queueFlags_mem (s : State) (q : Nat) (en : Bool) (err : Bool) (h : s.mem.wf = true) : (State.queueFlags s q en err).mem.wf = true := by
  simp [State.queueFlags, h]
@[simp] theorem State.accept_mem (s : State) (l : Launch) (h : s.mem.wf = true) : (s.accept l).mem.wf = true := by
  have h1 : (if field (l.word 11) 0 57 = 0 then s else s.devSeen l.ctx (field (l.word 11) 0 57) 256).mem.wf = true :=
    wf_ite _ _ _ h (State.devSeen_mem _ _ _ _ h)
  unfold State.accept
  dsimp only
  split
  · exact State.complete_mem _ _ _ h
  · split
    · exact State.complete_mem _ _ _ (State.faultRecord_mem _ _ _ _ h1)
    · exact wf_ite _ _ _ (State.complete_mem _ _ _ h1)
        (wf_ite _ _ _ (State.complete_mem _ _ _ h1) (wf_ite _ _ _ (State.complete_mem _ _ _ h1) h1))

@[simp] theorem State.charge_mem (s : State) (q : Nat) (func : Nat) (ch : Nat) : (State.charge s q func ch).mem = s.mem := by
  simp [State.charge]
@[simp] theorem State.takeTiles_mem (s : State) (core : Nat) (ctx : Nat) (acs : Nat) (spills : List (Nat × Nat)) (h : s.mem.wf = true) : (State.takeTiles s core ctx acs spills).2.mem.wf = true := by
  unfold State.takeTiles; dsimp only; (repeat' split) <;> simp_all
@[simp] theorem State.found_mem (s : State) (l : Launch) (k : Kernel) (seat : Seat) (kind : GroupKind) (gid : Nat) (group : Word) (cohort : Word) (args : List Word) (h : s.mem.wf = true) : (State.found s l k seat kind gid group cohort args).mem.wf = true := by
  unfold State.found; (repeat' split) <;> simp [h]
@[simp] theorem State.giveUp_mem (s : State) (l : Launch) (status : Nat) (h : s.mem.wf = true) : (State.giveUp s l status).mem.wf = true := by
  simp [State.giveUp, h]
theorem State.placeOne_mem (s : State) (l : Launch) (kind : GroupKind) (group : Nat) (cohort : Word) (args : List Word) (h : s.mem.wf = true) : ∀ t, (State.placeOne s l kind group cohort args) = some t → t.mem.wf = true := by
  unfold State.placeOne; dsimp only; (repeat' split) <;> simp_all
@[simp] theorem State.listsSeen_mem (s : State) (l : Launch) (h : s.mem.wf = true) : (s.listsSeen l).mem.wf = true := by
  unfold State.listsSeen; dsimp only; split <;> simp [h]
@[simp] theorem State.placeGrid_mem (s : State) (l : Launch) (h : s.mem.wf = true) : (s.placeGrid l).mem.wf = true := by
  unfold State.placeGrid
  dsimp only
  split
  · exact h
  · rename_i t e
    have := State.placeOne_mem s _ _ _ _ _ h t e
    split
    · exact State.giveUp_mem _ _ _ h
    · exact State.listsSeen_mem _ _ this

@[simp] theorem State.placeMesh_mem (s : State) (l : Launch) (d : Draw) (g : Nat) (h : s.mem.wf = true) : (s.placeMesh l d g).mem.wf = true := by
  unfold State.placeMesh
  dsimp only
  split
  · exact h
  · rename_i t e
    have := State.placeOne_mem s _ _ _ _ _ h t e
    split
    · exact State.giveUp_mem _ _ _ h
    · exact State.listsSeen_mem _ _ this

@[simp] theorem State.tracePart_mem (s : State) (c : Ctx) (type : Nat) (sub : Nat) (more : List Word) : (State.tracePart s c type sub more).mem = s.mem := by
  simp [State.tracePart]
@[simp] theorem State.noteFuses_mem (s : State) (w : Wave) (x : CodeAddr) (es : List Nat) : (State.noteFuses s w x es).mem = s.mem := by
  simp [State.noteFuses]
@[simp] theorem State.updMesh_mem (s : State) (gid : Nat) (f : MeshOut → MeshOut) : (State.updMesh s gid f).mem = s.mem := by
  rfl
@[simp] theorem State.pixelExit_mem (s : State) (c : Ctx) (ls : Lanes) (killed : Bool) (h : s.mem.wf = true) : (State.pixelExit s c ls killed).mem.wf = true := by
  unfold State.pixelExit; dsimp only; (repeat' split) <;> simp_all
@[simp] theorem State.afterExit_mem (s : State) (g : Group) (ended : Bool) (h : s.mem.wf = true) : (s.afterExit g ended).mem.wf = true := by
  unfold State.afterExit
  split
  · rw [State.quietCheck_mem, State.cbarSweep_mem]; exact State.barSweep_mem _ _ h
  · exact h

@[simp] theorem State.exitPart_mem (s : State) (c : Ctx) (h : s.mem.wf = true) : (State.exitPart s c).mem.wf = true := by
  unfold State.exitPart; dsimp only; (repeat' split) <;> simp_all
@[simp] theorem State.exitLanes_mem (s : State) (c : Ctx) (i : Instr) (ls : Lanes) (killed : Bool) (h : s.mem.wf = true) : (State.exitLanes s c i ls killed).mem.wf = true := by
  unfold State.exitLanes; (repeat' split) <;> simp [h]
@[simp] theorem State.glzPut_mem (s : State) (ctx core va : Nat) (bs : List Byte) (h : s.mem.wf = true) : (s.glzPut ctx core va bs).mem.wf = true := by
  unfold State.glzPut
  split
  · exact h
  · split
    · exact h
    · exact State.unservedAt_mem _ _ _ _ _ (State.wrSpots_mem _ _ _ h)

@[simp] theorem State.putList_mem (s : State) (ctx core : Nat) (t : GTarget) (l : GList) (h : s.mem.wf = true) :
    (s.putList ctx core t l).mem.wf = true := by
  unfold State.putList
  exact State.glzPut_mem _ _ _ _ _ (foldl_wf _ (fun s x h => State.glzPut_mem s _ _ _ _ h) _ _ h)

@[simp] theorem State.knowPool_mem (s : State) (ctx core : Nat) (t : GTarget) : (s.knowPool ctx core t).mem = s.mem := by
  unfold State.knowPool; (repeat' split) <;> rfl
@[simp] theorem State.putPool_mem (s : State) (ctx core : Nat) (t : GTarget) (p : Pool) (degraded : Bool) (h : s.mem.wf = true) :
    (s.putPool ctx core t p degraded).mem.wf = true := by
  have h := (congrArg Memory.wf (State.knowPool_mem s ctx core t)).trans h
  unfold State.putPool
  dsimp only
  split
  · exact State.glzPut_mem _ _ _ _ _ (State.glzPut_mem _ _ _ _ _ (State.glzPut_mem _ _ _ _ _ (State.glzPut_mem _ _ _ _ _ h)))
  · exact State.glzPut_mem _ _ _ _ _ (State.glzPut_mem _ _ _ _ _ (State.glzPut_mem _ _ _ _ _ h))

@[simp] theorem State.freeLists_mem (s : State) (ctx core : Nat) (t : GTarget) (p : Pool) (ls : List GList) (h : s.mem.wf = true) :
    (s.freeLists ctx core t p ls).mem.wf = true := by
  unfold State.freeLists
  dsimp only
  have h1 : ∀ (xs : List (Nat × GNode)) (u : State × Pool), u.1.mem.wf = true → (xs.foldl (fun (u : State × Pool) x =>
      (u.1.glzPut ctx core (u.1.nodeVa core ctx t x.1) (x.2.bytes u.2.freeHead), { u.2 with freeHead := x.1, used := u.2.used + 2 ^ 25 - 1 })) u).1.mem.wf = true := by
    intro xs
    induction xs with
    | nil => intro u hu; exact hu
    | cons x xs ih => intro u hu; exact ih _ (State.glzPut_mem _ _ _ _ _ hu)
  have h2 := foldl_wf (fun (u : State) (l : GList) => u.glzPut ctx core l.va (toBytes 4 0xffffff00)) (fun s l h => State.glzPut_mem s _ _ _ _ h) ls _ (h1 (ls.flatMap fun l => l.idx.zip l.nodes) (s, p) h)
  split
  · exact h2
  · exact State.putPool_mem _ _ _ _ _ _ h2

theorem State.together_mem {α : Type} (s : State) (c : Ctx) (i : Instr) (ps : List (Nat × Except LFault α)) (go : List (Nat × α) → Except TrapRec State)
    (h : s.mem.wf = true) (hg : ∀ xs t, go xs = .ok t → t.mem.wf = true) : ∀ t, s.together c i ps go = .ok t → t.mem.wf = true := by
  intro t e
  unfold State.together at e
  split at e
  · cases e
  · split at e
    · cases hk : go (okLanes ps) with
      | error r => rw [hk] at e; cases e
      | ok u => rw [hk] at e; cases e; simpa using hg _ _ hk
    · cases e; simp [h]

theorem State.glzInsert_mem (s : State) (c : Ctx) (i : Instr) (r slot : Nat) (h : s.mem.wf = true) :
    ∀ t, s.glzInsert c i r slot = .ok t → t.mem.wf = true := by
  intro t e
  unfold State.glzInsert at e
  have h1 := State.readNow_mem s c (fun t => (s.glzLanes c).map fun x => (x.1, (t.glzinLane c slot r x.2 x.1).eval)) .slice h
  generalize (s.readNow c (fun t => (s.glzLanes c).map fun x => (x.1, (t.glzinLane c slot r x.2 x.1).eval)) .slice) = rn at e h1
  obtain ⟨s1, ps⟩ := rn
  dsimp only at e h1
  split at e
  · exact State.together_mem _ _ _ _ _ h1 (fun xs t e => by cases e; exact h1) t e
  · refine State.together_mem _ _ _ _ _ h1 (fun xs t e => ?_) t e
    split at e
    · cases e
    · injection e with e
      subst e
      refine wf_ite _ _ _ ?_ ?_
      · rw [State.updGroup_mem]
        split
        · exact State.putPool_mem _ _ _ _ _ _ (foldl_wf _ (fun s x h => State.putList_mem s _ _ _ _ h) _ _ h1)
        · exact foldl_wf _ (fun s x h => State.putList_mem s _ _ _ _ h) _ _ h1
      · split
        · exact State.putPool_mem _ _ _ _ _ _ (foldl_wf _ (fun s x h => State.putList_mem s _ _ _ _ h) _ _ h1)
        · exact foldl_wf _ (fun s x h => State.putList_mem s _ _ _ _ h) _ _ h1

theorem State.glzRead_mem (s : State) (c : Ctx) (i : Instr) (d x : Nat) (l : BitVec 4) (slot : Nat) (h : s.mem.wf = true) :
    ∀ t, s.glzRead c i d x l slot = .ok t → t.mem.wf = true := by
  intro t e
  unfold State.glzRead at e
  have h1 := State.readNow_mem s c (fun t => (s.glzLanes c).map fun y => (y.1, (t.glzReadLane c slot y.2 .rd).eval)) .slice h
  refine State.together_mem _ _ _ _ _ h1 (fun xs t e => ?_) t e
  cases e
  rw [State.pendAdd_mem]
  exact h1

theorem State.glzResolve_mem (s : State) (c : Ctx) (i : Instr) (d b : Nat) (l : BitVec 4) (slot : Nat) (h : s.mem.wf = true) :
    ∀ t, s.glzResolve c i d b l slot = .ok t → t.mem.wf = true := by
  intro t e
  unfold State.glzResolve at e
  dsimp only at e
  refine State.together_mem _ _ _ _ _ (State.readNow_mem s c _ _ h) (fun xs t e => ?_) t e
  cases e
  rw [State.pendAdd_mem]
  split
  · exact State.readNow_mem s c _ _ h
  · exact State.freeLists_mem _ _ _ _ _ _ (State.readNow_mem s c _ _ h)

theorem State.glzClear_mem (s : State) (c : Ctx) (i : Instr) (r n : Nat) (h : s.mem.wf = true) :
    ∀ t, s.glzClear c i r n = .ok t → t.mem.wf = true := by
  intro t e
  unfold State.glzClear at e
  extract_lets a b look at e
  have h1 := State.readNow_mem s c (fun u => [(0, (look u).eval)]) .slice h
  generalize (s.readNow c (fun u => [(0, (look u).eval)]) .slice) = rn at e h1
  obtain ⟨s1, ps⟩ := rn
  dsimp only at e h1
  split at e
  · exact State.scalarwise_mem _ _ _ _ _ h1 (fun x => State.freeLists_mem _ _ _ _ _ _ h1) t e
  · cases e; exact h1

theorem State.glzWait_mem (s : State) (c : Ctx) (i : Instr) (go : Except TrapRec State) (h : s.mem.wf = true)
    (hg : ∀ t, go = .ok t → t.mem.wf = true) : ∀ t, s.glzWait c i go = .ok t → t.mem.wf = true := by
  intro t e
  unfold State.glzWait at e
  split at e
  · exact hg t e
  · cases e; simp [h]

@[simp] theorem State.preDone_mem (s : State) (h : s.mem.wf = true) : (State.preDone s).mem.wf = true := by
  unfold State.preDone; dsimp only; (repeat' split) <;> simp_all
@[simp] theorem State.preempt_mem (s : State) (ctx : Nat) (core : Nat) : (State.preempt s ctx core).mem = s.mem := by
  rfl
@[simp] theorem State.dropPrime_mem (s : State) (g : Group) (wid : Nat) : (State.dropPrime s g wid).mem = s.mem := by
  unfold State.dropPrime; split <;> simp
@[simp] theorem State.dropPrimes_mem (s : State) (g : Group) (n : Nat) : (s.dropPrimes g n).mem = s.mem := by
  induction n generalizing s with
  | zero => rfl
  | succ n ih => unfold State.dropPrimes; split <;> simp [ih]

@[simp] theorem State.stopCopy_mem (s : State) (core : Nat) (cid : Nat) (h : s.mem.wf = true) : (State.stopCopy s core cid).mem.wf = true := by
  unfold State.stopCopy; (repeat' split) <;> first | (simp [h]; done) | (rename_i e; cases e; simp [h])
@[simp] theorem State.stopLoad_mem (s : State) (core : Nat) (k : Nat) : (State.stopLoad s core k).mem = s.mem := by
  rfl
@[simp] theorem State.writeCohort_mem (s : State) (g : Group) (h : s.mem.wf = true) : (s.writeCohort g).mem.wf = true := by
  unfold State.writeCohort
  split
  · exact h
  · exact foldl_wf _ (fun t x h => wf_ite _ _ _ (State.devTry_mem _ _ _ _ h) h) _ _ h
theorem State.writeImage_mem (s : State) (g : Group) (l : Launch) (h : s.mem.wf = true) :
    ∀ t, s.writeImage g l = .ok t → t.mem.wf = true := by
  intro t e
  unfold State.writeImage at e
  refine holds_after (fun t => t.mem.wf = true) _ _ (fun u hu t e => ?_) t e
  cases e
  exact State.writeCohort_mem _ _ (foldlM_wf _ (fun s a h => State.devWrite_mem s _ _ _ h) _ _ h u hu)

@[simp] theorem State.release_mem (s : State) (g : Group) : (State.release s g).mem = s.mem := by
  rfl
theorem State.attachTiles_mem (s : State) (g : Group) (acs : Nat) (seat : Seat) (acssp : Bool) (h : s.mem.wf = true) :
    ∀ t, s.attachTiles g acs seat acssp = .ok t → t.2.mem.wf = true := by
  intro t e
  unfold State.attachTiles at e
  dsimp only at e
  split at e
  · cases e; exact h
  · split at e
    · cases e; exact h
    · split at e
      · cases hu : State.loadTiles _ _ _ _ _ with
        | error f => rw [hu] at e; cases e
        | ok u =>
          rw [hu] at e
          cases hv : u.setAcssp g.ctx g.image false with
          | error f => simp [bind, Except.bind, hv] at e
          | ok v =>
            simp only [bind, Except.bind, hv] at e
            cases e
            exact State.setAcssp_mem u _ _ _ (State.loadTiles_mem _ _ _ _ _ (State.takeTiles_mem _ _ _ _ _ h) u hu) v hv
      · split at e
        · cases e; simp [h]
        · cases e; simp [h]

@[simp] theorem State.cbarRestore_mem (s : State) (w : Wave) : (s.cbarRestore w).mem = s.mem := by
  unfold State.cbarRestore
  refine foldl_mem _ (fun t e => ?_) _ _
  split
  · split <;> simp
  · rfl

@[simp] theorem State.failLoad_mem (s : State) (a b c : Nat) (ovl : List DWord) (x : Nat × FaultEntry) : (s.failLoad a b c ovl x).mem = s.mem := by
  unfold State.failLoad; dsimp only; (repeat' split) <;> simp
@[simp] theorem State.rearm_mem (s : State) (w : Wave) : (s.rearm w).mem = s.mem := by
  unfold State.rearm
  refine foldl_mem _ (fun t n => ?_) _ _
  (repeat' split) <;> simp
@[simp] theorem State.retryOps_mem (s : State) (wid : Nat) : (s.retryOps wid).mem = s.mem := by
  unfold State.retryOps; (repeat' split) <;> simp
theorem State.install_mem (s : State) (g : Group) (l : Launch) (seat : Seat) (im : Image) (h : s.mem.wf = true) :
    ∀ t, s.install g l seat im = .ok t → t.mem.wf = true := by
  intro t e
  unfold State.install at e
  cases hu : s.attachTiles g (needOf (l.word 1)).acs seat im.acssp with
  | error f => rw [hu] at e; cases e
  | ok u =>
  rw [hu] at e
  have hu' := State.attachTiles_mem s _ _ _ _ h u hu
  cases e
  rw [foldl_mem _ (fun s w => State.cbarRestore_mem s w), foldl_mem _ (fun s w => by rw [State.rearm_mem, State.retryOps_mem]),
    ite_mem, State.updLaunch_mem, ite_self, foldl_mem _ (fun s x => State.failLoad_mem s _ _ _ _ _),
    foldl_mem _ (fun s x => State.loadAgain_mem s _ _ _ _ _ _), State.dropCopies_mem, State.dropCopies_mem, State.updCore_mem]
  exact State.wr_mem _ _ _ (by simpa using hu')

@[simp] theorem State.restoreFail_mem (s : State) (g : Group) (u : Unfit) (h : s.mem.wf = true) : (State.restoreFail s g u).mem.wf = true := by
  unfold State.restoreFail; (repeat' split) <;> simp [h]
@[simp] theorem State.sendNotice_mem (s : State) (core : Nat) (on : Bool) : (State.sendNotice s core on).mem = s.mem := by
  simp [State.sendNotice]
@[simp] theorem State.depthTest_mem (s : State) (l : Launch) (d : Draw) (x : Nat) (y : Nat) (z : Word) (h : s.mem.wf = true) : (State.depthTest s l d x y z).2.mem.wf = true := by
  unfold State.depthTest; dsimp only; (repeat' split) <;> simp_all
@[simp] theorem State.fragments_mem (s : State) (l : Launch) (d : Draw) (ext : Nat × Nat) (tile : Nat) (t : DPrim) (h : s.mem.wf = true) :
    (s.fragments l d ext tile t).2.mem.wf = true := by
  unfold State.fragments
  refine foldl_inv (fun (acc : List (Nat × Nat × Nat) × State) => acc.2.mem.wf = true) _ (fun acc p ha => ?_) _ ([], s) h
  dsimp only
  split
  · exact ha
  · split
    · exact State.depthTest_mem _ _ _ _ _ _ ha
    · exact ha

@[simp] theorem State.quadsOf_mem (s : State) (l : Launch) (d : Draw) (tile : Nat) (h : s.mem.wf = true) : (s.quadsOf l d tile).2.mem.wf = true := by
  unfold State.quadsOf
  exact foldl_inv (fun (acc : List (List Frag) × State) => acc.2.mem.wf = true) _ (fun acc p ha => State.fragments_mem _ _ _ _ _ _ ha) _ ([], s) h

@[simp] theorem State.placePixel_mem (s : State) (l : Launch) (d : Draw) (p : PixGroup) (h : s.mem.wf = true) : (State.placePixel s l d p).mem.wf = true := by
  unfold State.placePixel; dsimp only; (repeat' split) <;> first | exact h | exact State.giveUp_mem _ _ _ h | exact State.listsSeen_mem _ _ (by simp [h])
@[simp] theorem State.winRecords_mem (s : State) (func : Nat) (wr : Bool) (fs : List WinFault) (h : s.mem.wf = true) :
    (s.winRecords func wr fs).mem.wf = true :=
  foldl_wf _ (fun s _ h => State.faultRecord_mem s _ _ _ h) _ _ h

@[simp] theorem State.flagQueues_mem (s : State) (h : s.mem.wf = true) : s.flagQueues.mem.wf = true :=
  foldl_wf _ (fun s _ h => State.queueFlags_mem s _ _ _ h) _ _ h
@[simp] theorem State.endTurns_mem (s : State) : s.endTurns.mem = s.mem := by
  unfold State.endTurns; split <;> rfl
@[simp] theorem State.hostFlush_mem (s : State) (h : s.mem.wf = true) : s.hostFlush.mem.wf = true :=
  foldl_wf _ (fun s a h => State.performAll_mem s a h) _ _ h
@[simp] theorem State.watch_mem (s : State) (node line : Nat) (on : Bool) : (s.watch node line on).mem = s.mem := by
  unfold State.watch; dsimp only; split <;> rfl
@[simp] theorem State.woke_mem (s : State) (key : Nat) (page : Bool) : (s.woke key page).mem = s.mem := by
  unfold State.woke; split <;> simp
@[simp] theorem State.refusing_mem (s : State) (key sub : Nat) : (s.refusing key sub).mem = s.mem := by
  unfold State.refusing; dsimp only; (repeat' split) <;> rfl
@[simp] theorem State.remoteAtom_mem (s : State) (a n op ty : Nat) (x y : DWord) (h : s.mem.wf = true) :
    (s.remoteAtom a n op ty x y).2.mem.wf = true := by
  unfold State.remoteAtom; dsimp only; split <;> simp [h]
@[simp] theorem State.countMma_mem (s : State) (core : Nat) (g : Group) (op : EOp) (d : Desc) (rows : List (Nat × List Block)) :
    (s.countMma core g op d rows).mem = s.mem := by
  simp [State.countMma]
@[simp] theorem State.fbDrain_mem (s : State) (func n : Nat) (h : s.mem.wf = true) : (s.fbDrain func n).mem.wf = true := by
  induction n generalizing s with
  | zero => exact h
  | succ n ih =>
    unfold State.fbDrain
    dsimp only
    split
    · exact h
    · split
      · exact h
      · exact ih _ (by simp [h])

@[simp] theorem State.errorRecord_mem (s : State) (code sub ctx core : Nat) (aux : DWord) (owner : Bool) (va : Nat) (h : s.mem.wf = true) :
    (s.errorRecord code sub ctx core aux owner va).mem.wf = true := by
  unfold State.errorRecord
  dsimp only
  split
  · exact State.faultRecord_mem _ _ _ _ (State.faultRecord_mem _ _ _ _ h)
  · exact State.faultRecord_mem _ _ _ _ h

@[simp] theorem State.corrected_mem (s : State) (k : Nat) (panel : Nat) : (State.corrected s k panel).mem = s.mem := by
  simp [State.corrected]
@[simp] theorem State.mmaWrite_mem (s : State) (core : Nat) (op : EOp) (g : Group) (d : Desc) (rows : List (Nat × List Block)) :
    (s.mmaWrite core op g d rows).mem = s.mem := by
  unfold State.mmaWrite; dsimp only; (repeat' split) <;> simp
@[simp] theorem State.mismatch_mem (s : State) (core : Nat) (op : EOp) (g : Group) (h : s.mem.wf = true) : (s.mismatch core op g).mem.wf = true := by
  unfold State.mismatch
  extract_lets c now old ms worn drain s1 s2
  have h2 : s2.mem.wf = true := wf_ite _ _ _ (State.faultRecord_mem s1 _ _ _ h) h
  exact wf_ite _ _ _ (by rw [State.opRecord_mem]; exact h2) h2
@[simp] theorem State.mmaEffect_mem (s : State) (core : Nat) (op : EOp) (g : Group) (upset : Option Upset) (h : s.mem.wf = true) :
    (s.mmaEffect core op g upset).mem.wf = true := by
  unfold State.mmaEffect; dsimp only; (repeat' split) <;> simp [h]
@[simp] theorem State.primeReads_mem (s : State) (core ctx : Nat) (ks : List Spot) (h : s.mem.wf = true) : (s.primeReads core ctx ks).mem.wf = true :=
  State.unservedAt_mem _ _ _ _ _ (by rw [State.readLines_mem]; exact h)
theorem State.settleOp_mem (op : EOp) (hit : Access → Bool) (f : State → List Nat) :
    ∀ (n : Nat) (s : State), s.mem.wf = true → (State.settleOp op hit f n s).mem.wf = true
  | 0, _, h => h
  | n + 1, s, h => by
    have h1 := State.beforeOp_mem s op hit (f s) h
    unfold State.settleOp
    exact wf_ite _ _ _ h1 (State.settleOp_mem op hit f n _ h1)
@[simp] theorem State.primeEffect_mem (s : State) (core : Nat) (op : EOp) (g : Group) (h : s.mem.wf = true) : (s.primeEffect core op g).mem.wf = true := by
  unfold State.primeEffect
  extract_lets nc nk reads s1 wide failed idx
  have h1 : s1.mem.wf = true := State.settleOp_mem _ _ _ _ _ h
  have h2 : ∀ x, (failed x).mem.wf = true := fun x => by rw [State.failCanvas_mem]; exact State.opFault_mem _ _ _ _ h1
  clear_value failed
  dsimp only
  (repeat' split) <;> simp [h1, h2]
@[simp] theorem State.noteLook_mem (s : State) (w : Wave) : (s.noteLook w).mem = s.mem := by
  unfold State.noteLook
  (repeat' split) <;> try rfl
  refine foldl_mem _ (fun t e => ?_) _ _
  split <;> simp
@[simp] theorem State.moduleFatal_mem (s : State) (unit : Nat) (aux : DWord) (h : s.mem.wf = true) : (State.moduleFatal s unit aux).mem.wf = true := by
  simp [State.moduleFatal, h]
@[simp] theorem State.groupFatal_mem (s : State) (gid : Nat) (core : Nat) (aux : DWord) (h : s.mem.wf = true) : (State.groupFatal s gid core aux).mem.wf = true := by
  simp [State.groupFatal, h]
@[simp] theorem State.poisonUnit_mem (s : State) (key : Nat) (h : s.mem.wf = true) : (s.poisonUnit key).mem.wf = true :=
  Store.wf_setList _ _ _ h

@[simp] theorem State.lineRecord_mem (s : State) (unit : Nat → Bool) (sub core key : Nat) (aux : DWord) (h : s.mem.wf = true) :
    (s.lineRecord unit sub core key aux).mem.wf = true := by
  unfold State.lineRecord; split <;> simp [h]
@[simp] theorem State.writeBack_mem (s : State) (slice : Nat) : (s.writeBack slice).mem = s.mem := by
  simp [State.writeBack]
@[simp] theorem State.retireSlice_mem (s : State) (slice : Nat) (h : s.mem.wf = true) : (s.retireSlice slice).mem.wf = true := by
  unfold State.retireSlice; dsimp only; (repeat' split) <;> simp [h]
@[simp] theorem State.sliceCorrected_mem (s : State) (slice : Nat) (h : s.mem.wf = true) : (s.sliceCorrected slice).mem.wf = true := by
  unfold State.sliceCorrected; dsimp only; split <;> simp [h]
@[simp] theorem State.rowCorrected_mem (s : State) (core cls row : Nat) : (s.rowCorrected core cls row).mem = s.mem := by
  simp [State.rowCorrected]
@[simp] theorem State.refetch_mem (s : State) (cache line : Nat) : (s.refetch cache line).mem = s.mem := by
  unfold State.refetch; dsimp only; split <;> simp
@[simp] theorem State.retireDevice_mem (s : State) (dev : Nat) (h : s.mem.wf = true) : (State.retireDevice s dev).mem.wf = true := by
  unfold State.retireDevice; (repeat' split) <;> simp [h]
@[simp] theorem State.renameCore_mem (s : State) (g : Group) (phys : Nat) (h : s.mem.wf = true) : (State.renameCore s g phys).mem.wf = true := by
  simp [State.renameCore, h]
@[simp] theorem State.takeover_mem (s : State) (core : Nat) (h : s.mem.wf = true) : (s.takeover core).mem.wf = true := by
  unfold State.takeover
  extract_lets old s1 p free phys s2 sp s3
  have h1 : s1.mem.wf = true := foldl_wf _ (fun s x h => State.spill_mem s _ _ _ h) _ _ h
  have h2 : s2.mem.wf = true := foldl_wf _ (fun s g h => State.renameCore_mem s _ _ h) _ _ h1
  exact State.errorRecord_mem _ _ _ _ _ _ _ _ (wf_ite _ _ _ h2 h2)

@[simp] theorem State.writeMail_mem (s : State) (func : Nat) (off : Nat) (v : DWord) : (State.writeMail s func off v).mem = s.mem := by
  simp [State.writeMail]
@[simp] theorem State.updList_mem (s : State) (x : WorkList) (f : WorkList → WorkList) : (State.updList s x f).mem = s.mem := by
  rfl
theorem State.append_mem (s : State) (c : Ctx) (i : Instr) (a : BitVec 7) (ls : List (Nat × Option WorkList)) (h : s.mem.wf = true) :
    ∀ t, s.append c i a ls = .ok t → t.mem.wf = true := by
  intro t e
  unfold State.append at e
  dsimp only at e
  refine State.wholewise_mem s c i _ _ h (fun xs t e => ?_) t e
  cases e
  rw [State.quietCheck_mem]
  refine foldl_wf _ (fun s x h => ?_) _ _ (State.before_mem s c _ _ h)
  rw [State.updList_mem]
  exact State.unservedAt_mem _ _ _ _ _ (State.wrSpots_mem _ _ _ h)

theorem State.freeEvent?_mem (s : State) : ∀ t, s.freeEvent? = some t → t.2.mem = s.mem := by
  unfold State.freeEvent?
  intro t ht
  split at ht
  · cases ht
  · split at ht
    · cases ht
    · obtain ⟨i, -, rfl⟩ := Option.map_eq_some_iff.1 ht
      rfl
theorem State.event?_mem (s : State) : ∀ t, (State.event? s) = some t → t.2.mem = s.mem := by
  unfold State.event?
  intro t ht
  split at ht
  · cases ht; exact State.noteWaitEnd_mem _ _
  · split at ht
    · split at ht
      · cases ht; rfl
      · exact State.freeEvent?_mem s t ht
    · exact State.freeEvent?_mem s t ht
@[simp] theorem State.noEvent_mem (s : State) : s.noEvent.mem = s.mem := rfl
@[simp] theorem State.quietAll_mem (s : State) : (State.quietAll s).mem = s.mem := by
  simp [State.quietAll]
@[simp] theorem State.freezeAll_mem (s : State) : s.freezeAll.mem = s.mem := by
  unfold State.freezeAll
  refine foldl_mem _ (fun t g => ?_) _ _
  split <;> simp

@[simp] theorem State.countClk_mem (s : State) : s.countClk.mem = s.mem := by
  unfold State.countClk
  refine foldl_mem _ (fun t g => ?_) _ _
  split <;> simp

@[simp] theorem State.loadFds_mem (s : State) : s.loadFds.mem = s.mem := by
  exact foldl_mem (fun t x => t.loadFd x.2.1 x.2.2.1 x.2.2.2) (fun _ _ => rfl) (s.fdLoads.filter fun x => decide (x.1 ≤ s.time)) s

@[simp] theorem State.tick_mem (s : State) (h : s.mem.wf = true) : (State.tick s).mem.wf = true := by
  unfold State.tick
  refine State.preDone_mem _ ?_
  rw [State.quietAll_mem, State.freezeAll_mem, State.countClk_mem]
  refine foldl_wf _ (fun t c h => by rw [State.updCore_mem]; exact State.traceFlush_mem _ _ h) _ _ ?_
  show s.sweep.endTurns.loadFds.mem.wf = true
  rw [State.loadFds_mem, State.endTurns_mem]
  exact State.sweep_mem _ h
end Sys2Proof.Machine
end

