-- ==== Sys2Proof/Laws/Keep.lean ====
section
/-!
SUPPORT. Every meaning keeps memory in its canonical form: one lemma for each `exec…`.
-/
namespace Sys2Proof.Machine
theorem issue_keep (i : Instr) (s : State) (body : Ctx → Except TrapRec State) (h : s.mem.wf = true)
    (hb : ∀ c t, body c = .ok t → t.mem.wf = true) : ∀ t, issue i s body = .next t → t.mem.wf = true := by
  intro t e
  unfold issue at e
  split at e
  · cases e; exact h
  · split at e
    · cases e; exact h
    · cases e; exact State.perform_mem _ _ _ _ h (hb _)
theorem issueWave_keep (i : Instr) (s : State) (f : Ctx → Wave) (h : s.mem.wf = true) : ∀ t, issueWave i s f = .next t → t.mem.wf = true :=
  issue_keep i s _ h (fun c t e => by cases e; simp [h])
theorem foldlM_opt_wf {α : Type} (f : State → α → Option State) (h : ∀ s a t, s.mem.wf = true → f s a = some t → t.mem.wf = true)
    : ∀ (xs : List α) (s t : State), s.mem.wf = true → xs.foldlM f s = some t → t.mem.wf = true
  | [], _, _, hs, e => Option.some.inj e ▸ hs
  | x :: xs, s, t, hs, e => by
    rw [List.foldlM_cons] at e
    obtain ⟨u, hu, hr⟩ := Option.bind_eq_some_iff.1 e
    exact foldlM_opt_wf f h xs u t (h s x u hs hu) hr

theorem execLineMigration_keep (line : Nat) (s : State) (hm : s.mem.wf = true) : ∀ res, (execLineMigration line s) = .next res → res.mem.wf = true := by
  intro res e
  unfold execLineMigration at e
  (repeat' split at e) <;> cases e <;> simp_all
theorem vload_keep (i : Instr) (d : BitVec 7) (b : BitVec 5) (v : BitVec 7) (l : BitVec 4) (n : Nat) (sx acq : Bool) (scope : Nat) (dec : Bool)
    (h : Option (BitVec 24)) (p : Option Pfx) (s : State) (hm : s.mem.wf = true) :
    ∀ u, vload i d b v l n sx acq scope dec h p s = .next u → u.mem.wf = true := by
  intro u e
  unfold vload at e
  refine issue_keep _ _ _ hm (fun c u e => ?_) u e
  have h1 := State.readNow_mem s c (fun t => (c.todo p).map fun ln => (ln, t.loadLane c (c.addr b v h ln) ln n dec)) .l1 hm
  exact State.lanewise_mem _ _ _ _ _ h1 (fun q xs => by rw [State.loadLanes_mem]; exact h1) u e

theorem execVld_keep (d : BitVec 7) (b : BitVec 5) (v : BitVec 7) (l : BitVec 4) (m : BitVec 3) (h : Option (BitVec 24)) (p : Option Pfx) (s : State) (hm : s.mem.wf = true) : ∀ res, (execVld d b v l m h p s) = .next res → res.mem.wf = true := by
  intro res e
  unfold execVld at e
  exact vload_keep _ _ _ _ _ _ _ _ _ _ _ _ _ hm res e
theorem execVldAcq_keep (d : BitVec 7) (b : BitVec 5) (v : BitVec 7) (l : BitVec 4) (u : BitVec 3) (h : Option (BitVec 24)) (p : Option Pfx) (s : State) (hm : s.mem.wf = true) : ∀ res, (execVldAcq d b v l u h p s) = .next res → res.mem.wf = true := by
  intro res e
  unfold execVldAcq at e
  exact vload_keep _ _ _ _ _ _ _ _ _ _ _ _ _ hm res e
theorem vstore_keep (i : Instr) (d : BitVec 7) (b : BitVec 5) (v : BitVec 7) (n : Nat) (rel : Bool) (scope : Nat) (h : Option (BitVec 24))
    (p : Option Pfx) (s : State) (hm : s.mem.wf = true) :
    ∀ u, vstore i d b v n rel scope h p s = .next u → u.mem.wf = true := by
  intro u e
  unfold vstore at e
  refine issue_keep _ _ _ hm (fun c u e => ?_) u e
  exact State.lanewise_mem _ _ _ _ _ hm (fun q xs => by simp [hm]) u e

theorem execVst_keep (d : BitVec 7) (b : BitVec 5) (v : BitVec 7) (m : BitVec 3) (h : Option (BitVec 24)) (p : Option Pfx) (s : State) (hm : s.mem.wf = true) : ∀ res, (execVst d b v m h p s) = .next res → res.mem.wf = true := by
  intro res e
  unfold execVst at e
  exact vstore_keep _ _ _ _ _ _ _ _ _ _ hm res e
theorem execVstRel_keep (d : BitVec 7) (b : BitVec 5) (v : BitVec 7) (u : BitVec 3) (h : Option (BitVec 24)) (p : Option Pfx) (s : State) (hm : s.mem.wf = true) : ∀ res, (execVstRel d b v u h p s) = .next res → res.mem.wf = true := by
  intro res e
  unfold execVstRel at e
  exact vstore_keep _ _ _ _ _ _ _ _ _ _ hm res e
theorem execVldp_keep (d v : BitVec 7) (l : BitVec 4) (m : BitVec 3) (h : Option (BitVec 24)) (p : Option Pfx) (s : State) (hm : s.mem.wf = true) :
    ∀ u, execVldp d v l m h p s = .next u → u.mem.wf = true := by
  intro u e
  unfold execVldp at e
  refine issue_keep _ _ _ hm (fun c u e => ?_) u e
  exact State.lanewise_mem _ _ _ _ _ hm (fun q xs => by simp [hm]) u e

theorem execVstp_keep (d v : BitVec 7) (m : BitVec 3) (h : Option (BitVec 24)) (p : Option Pfx) (s : State) (hm : s.mem.wf = true) :
    ∀ u, execVstp d v m h p s = .next u → u.mem.wf = true := by
  intro u e
  unfold execVstp at e
  refine issue_keep _ _ _ hm (fun c u e => ?_) u e
  exact State.lanewise_mem _ _ _ _ _ hm (fun q xs => by simp [hm]) u e

theorem scalarAccess_keep (i : Instr) (b : BitVec 5) (n : Nat) (h : Option (BitVec 24)) (need : Need) (s : State) (go : Ctx → Nat → Xlat → State)
    (hm : s.mem.wf = true) (hg : ∀ c a x, (go c a x).mem.wf = true) :
    ∀ u, scalarAccess i b n h need s go = .next u → u.mem.wf = true := by
  intro u e
  unfold scalarAccess at e
  refine issue_keep _ _ _ hm (fun c u e => ?_) u e
  exact State.scalarwise_mem _ _ _ _ _ hm (fun r => hg _ _ _) u e

theorem execSld_keep (d : BitVec 6) (b : BitVec 5) (l : BitVec 4) (m : BitVec 1) (h : Option (BitVec 24)) (s : State) (hm : s.mem.wf = true) :
    ∀ u, execSld d b l m h s = .next u → u.mem.wf = true := by
  intro u e
  unfold execSld at e
  exact scalarAccess_keep _ _ _ _ _ _ _ hm (fun c a x => by simp [hm]) u e

theorem execSst_keep (d : BitVec 6) (b : BitVec 5) (m : BitVec 1) (h : Option (BitVec 24)) (s : State) (hm : s.mem.wf = true) :
    ∀ u, execSst d b m h s = .next u → u.mem.wf = true := by
  intro u e
  unfold execSst at e
  exact scalarAccess_keep _ _ _ _ _ _ _ hm (fun c a x => by simp [hm]) u e

theorem vatomic_keep (i : Instr) (d : BitVec 7) (b : BitVec 5) (v : BitVec 7) (l : BitVec 4) (o : BitVec 3) (place : Nat) (ret : Bool)
    (h : Option (BitVec 24)) (p : Option Pfx) (s : State) (hm : s.mem.wf = true) :
    ∀ u, vatomic i d b v l o place ret h p s = .next u → u.mem.wf = true := by
  intro u e
  unfold vatomic at e
  refine issue_keep _ _ _ hm (fun c u e => ?_) u e
  refine State.lanewise_mem _ _ _ _ _ hm (fun q xs => ?_) u e
  dsimp only
  rw [State.launchAccess_mem, State.newId_mem]
  split
  · rw [State.pendAdd_mem]; exact hm
  · exact hm

theorem execVatom_keep (d : BitVec 7) (b : BitVec 5) (v : BitVec 7) (l : BitVec 4) (o : BitVec 3) (h : Option (BitVec 24)) (p : Option Pfx) (s : State) (hm : s.mem.wf = true) : ∀ res, (execVatom d b v l o h p s) = .next res → res.mem.wf = true := by
  intro res e
  unfold execVatom at e
  exact vatomic_keep _ _ _ _ _ _ _ _ _ _ _ hm res e
theorem execVatomNear_keep (d : BitVec 7) (b : BitVec 5) (v : BitVec 7) (l : BitVec 4) (o : BitVec 3) (h : Option (BitVec 24)) (p : Option Pfx) (s : State) (hm : s.mem.wf = true) : ∀ res, (execVatomNear d b v l o h p s) = .next res → res.mem.wf = true := by
  intro res e
  unfold execVatomNear at e
  exact vatomic_keep _ _ _ _ _ _ _ _ _ _ _ hm res e
theorem execVatomHome_keep (d : BitVec 7) (b : BitVec 5) (v : BitVec 7) (l : BitVec 4) (o : BitVec 3) (h : Option (BitVec 24)) (p : Option Pfx) (s : State) (hm : s.mem.wf = true) : ∀ res, (execVatomHome d b v l o h p s) = .next res → res.mem.wf = true := by
  intro res e
  unfold execVatomHome at e
  exact vatomic_keep _ _ _ _ _ _ _ _ _ _ _ hm res e
theorem execVared_keep (d : BitVec 7) (b : BitVec 5) (v : BitVec 7) (g : BitVec 2) (o : BitVec 3) (h : Option (BitVec 24)) (p : Option Pfx) (s : State) (hm : s.mem.wf = true) : ∀ res, (execVared d b v g o h p s) = .next res → res.mem.wf = true := by
  intro res e
  unfold execVared at e
  exact vatomic_keep _ _ _ _ _ _ _ _ _ _ _ hm res e
theorem execPref_keep (b : BitVec 5) (v : BitVec 7) (m : BitVec 1) (h : Option (BitVec 24)) (p : Option Pfx) (s : State) (hm : s.mem.wf = true) : ∀ res, (execPref b v m h p s) = .next res → res.mem.wf = true := by
  intro res e
  unfold execPref at e
  exact issue_keep _ _ _ hm (fun c res e => by cases e; simp [hm]) res e
theorem execDisc_keep (b : BitVec 5) (v : BitVec 7) (m : BitVec 3) (h : Option (BitVec 24)) (p : Option Pfx) (s : State) (hm : s.mem.wf = true) : ∀ res, (execDisc b v m h p s) = .next res → res.mem.wf = true := by
  intro res e
  unfold execDisc at e
  exact issue_keep _ _ _ hm (fun c res e => by cases e; simp [hm]) res e
theorem execBar_keep (b : BitVec 5) (s : State) (hm : s.mem.wf = true) : ∀ res, (execBar b s) = .next res → res.mem.wf = true := by
  intro res e
  unfold execBar at e
  refine issue_keep _ _ _ hm (fun c res e => ?_) res e; dsimp only at e; (repeat' split at e) <;> (first | cases e | skip) <;> simp_all
theorem execBarx_keep (a : BitVec 6) (b : BitVec 5) (s : State) (hm : s.mem.wf = true) : ∀ res, (execBarx a b s) = .next res → res.mem.wf = true := by
  intro res e
  unfold execBarx at e
  refine issue_keep _ _ _ hm (fun c res e => ?_) res e; dsimp only at e; (repeat' split at e) <;> (first | cases e | skip) <;> simp_all
theorem execBart_keep (d : BitVec 6) (b : BitVec 5) (s : State) (hm : s.mem.wf = true) : ∀ res, (execBart d b s) = .next res → res.mem.wf = true := by
  intro res e
  unfold execBart at e
  refine issue_keep _ _ _ hm (fun c res e => ?_) res e; (repeat' split at e) <;> (first | cases e | skip) <;> simp_all
theorem execCpya_keep (a : BitVec 4) (b : BitVec 5) (s : State) (hm : s.mem.wf = true) :
    ∀ u, execCpya a b s = .next u → u.mem.wf = true := by
  intro u e
  unfold execCpya at e
  refine issue_keep _ _ _ hm (fun c u e => ?_) u e
  split at e
  · exact (State.copyStart_mem _ _ _ _ u e) ▸ hm
  · cases e; simp [hm]

theorem execCopyChunkLand_keep (core cid : Nat) (s : State) (hm : s.mem.wf = true) :
    ∀ u, execCopyChunkLand core cid s = .next u → u.mem.wf = true := by
  intro u e
  unfold execCopyChunkLand at e
  split at e
  · cases e; exact hm
  · split at e
    · cases e; exact hm
    · split at e
      · cases e; exact hm
      · split at e
        · cases e; simp [hm]
        · split at e
          · cases e; simp [hm]
          · cases e
            refine State.barCheck_mem _ _ _ ?_
            rw [State.updBar_mem, State.updCore_mem]
            exact State.wr_mem _ _ _ (State.unservedAt_mem _ _ _ _ _
              (by rw [State.readLines_mem]; exact foldl_wf _ (fun s a h => State.performAll_mem s a h) _ _ hm))

theorem execFence_keep (k : BitVec 4) (sc : BitVec 3) (s : State) (hm : s.mem.wf = true) : ∀ res, (execFence k sc s) = .next res → res.mem.wf = true := by
  intro res e
  unfold execFence at e
  exact issue_keep _ _ _ hm (fun c res e => by cases e; simp [hm]) res e
theorem execFenceWaitEnd_keep (who : Issuer) (s : State) (hm : s.mem.wf = true) : ∀ res, (execFenceWaitEnd who s) = .next res → res.mem.wf = true := by
  intro res e
  unfold execFenceWaitEnd at e
  (repeat' split at e) <;> cases e <;> simp_all
theorem execCbar_keep (k : BitVec 4) (s : State) (hm : s.mem.wf = true) : ∀ res, (execCbar k s) = .next res → res.mem.wf = true := by
  intro res e
  unfold execCbar at e
  refine issue_keep _ _ _ hm (fun c res e => ?_) res e; (repeat' split at e) <;> (first | cases e | skip) <;> simp_all
theorem execMon_keep (a : BitVec 5) (n : BitVec 2) (s : State) (hm : s.mem.wf = true) :
    ∀ u, execMon a n s = .next u → u.mem.wf = true := by
  intro u e
  unfold execMon at e
  refine issue_keep _ _ _ hm (fun c u e => ?_) u e
  extract_lets va p at e
  clear_value p
  split at e
  · cases e
    rw [State.done_mem, State.updWave_mem]
    refine State.unservedAt_mem _ _ _ _ _ ?_
    rw [State.forget_mem, State.readLines_mem]
    exact State.before_mem _ _ _ _ hm
  · exact State.scalarwise_mem _ _ _ _ _ hm (fun _ => hm) u e

theorem execMonc_keep (n : BitVec 2) (s : State) (hm : s.mem.wf = true) : ∀ res, (execMonc n s) = .next res → res.mem.wf = true := by
  intro res e
  unfold execMonc at e
  exact issue_keep _ _ _ hm (fun c res e => by cases e; simp [hm]) res e
theorem monWait_keep (i : Instr) (a : BitVec 6) (g : Bool) (s : State) (hm : s.mem.wf = true) : ∀ res, (monWait i a g s) = .next res → res.mem.wf = true := by
  intro res e
  unfold monWait at e
  refine issue_keep _ _ _ hm (fun c res e => ?_) res e; (repeat' split at e) <;> (first | cases e | skip) <;> simp_all
theorem execMonw_keep (a : BitVec 6) (s : State) (hm : s.mem.wf = true) : ∀ res, (execMonw a s) = .next res → res.mem.wf = true := by
  intro res e
  unfold execMonw at e
  exact monWait_keep _ _ _ _ hm res e
theorem execMonwG_keep (a : BitVec 6) (s : State) (hm : s.mem.wf = true) : ∀ res, (execMonwG a s) = .next res → res.mem.wf = true := by
  intro res e
  unfold execMonwG at e
  exact monWait_keep _ _ _ _ hm res e
theorem execMonwWake_keep (wid : Nat) (ent : Nat) (s : State) (hm : s.mem.wf = true) : ∀ res, (execMonwWake wid ent s) = .next res → res.mem.wf = true := by
  intro res e
  unfold execMonwWake at e
  (repeat' split at e) <;> cases e <;> simp_all
theorem execMonwTimeout_keep (wid : Nat) (ent : Nat) (s : State) (hm : s.mem.wf = true) : ∀ res, (execMonwTimeout wid ent s) = .next res → res.mem.wf = true := by
  intro res e
  unfold execMonwTimeout at e
  (repeat' split at e) <;> cases e <;> simp_all
theorem execFallbackWindowEnd_keep (wid : Nat) (slot : Nat) (s : State) (hm : s.mem.wf = true) : ∀ res, (execFallbackWindowEnd wid slot s) = .next res → res.mem.wf = true := by
  intro res e
  unfold execFallbackWindowEnd at e
  (repeat' split at e) <;> cases e <;> simp_all
theorem execMemoryAccessPerform_keep (id piece : Nat) (s : State) (hm : s.mem.wf = true) :
    ∀ u, execMemoryAccessPerform id piece s = .next u → u.mem.wf = true := by
  intro u e
  unfold execMemoryAccessPerform at e
  have h1 := fun (a : Access) (p : Piece) => State.performPiece_mem s a p hm
  split at e
  · cases e; exact hm
  · split at e
    · cases e; exact hm
    · split at e
      · cases e; exact hm
      · dsimp only at e
        split at e
        · cases e; exact h1 _ _
        · split at e
          · cases e; exact h1 _ _
          · rw [← Host.Outcome.next.inj e, State.cbarSweep_mem]; exact State.barSweep_mem _ _ (h1 _ _)

theorem execPrime_keep (w : BitVec 3) (k : BitVec 6) (a : BitVec 5) (g : BitVec 4) (s : State) (hm : s.mem.wf = true) :
    ∀ u, execPrime w k a g s = .next u → u.mem.wf = true := by
  intro u e
  unfold execPrime at e
  exact issue_keep _ _ _ hm (fun c u e => (State.primeBody_mem _ _ _ _ _ _ u e) ▸ hm) u e

theorem execMma_keep (w : BitVec 3) (t : BitVec 8) (k : BitVec 6) (g : BitVec 4) (s : State) (hm : s.mem.wf = true) :
    ∀ u, execMma w t k g s = .next u → u.mem.wf = true := by
  intro u e
  unfold execMma at e
  exact issue_keep _ _ _ hm (fun c u e => (State.mmaBody_mem _ _ _ _ _ _ u e) ▸ hm) u e

theorem execPrimeTakesEffect_keep (core : Nat) (s : State) (hm : s.mem.wf = true) : ∀ res, (execPrimeTakesEffect core s) = .next res → res.mem.wf = true := by
  intro res e
  unfold execPrimeTakesEffect at e
  (repeat' split at e) <;> cases e <;> simp [hm]
theorem execMmaTakesEffect_keep (core : Nat) (s : State) (hm : s.mem.wf = true) : ∀ res, (execMmaTakesEffect core s) = .next res → res.mem.wf = true := by
  intro res e
  unfold execMmaTakesEffect at e
  (repeat' split at e) <;> cases e <;> simp [hm]
theorem execBwait_keep (w : BitVec 3) (n : BitVec 4) (s : State) (hm : s.mem.wf = true) : ∀ res, (execBwait w n s) = .next res → res.mem.wf = true := by
  intro res e
  unfold execBwait at e
  exact issue_keep _ _ _ hm (fun c res e => by cases e; simp [hm]) res e
theorem execBwaitAll_keep (w : BitVec 3) (s : State) (hm : s.mem.wf = true) : ∀ res, (execBwaitAll w s) = .next res → res.mem.wf = true := by
  intro res e
  unfold execBwaitAll at e
  refine issue_keep _ _ _ hm (fun c res e => ?_) res e; (repeat' split at e) <;> (first | cases e | skip) <;> simp_all
theorem execBwaitWaitEnd_keep (who : Issuer) (s : State) (hm : s.mem.wf = true) : ∀ res, (execBwaitWaitEnd who s) = .next res → res.mem.wf = true := by
  intro res e
  unfold execBwaitWaitEnd at e
  (repeat' split at e) <;> cases e <;> simp_all
theorem execMfence_keep (w : BitVec 3) (s : State) (hm : s.mem.wf = true) : ∀ res, (execMfence w s) = .next res → res.mem.wf = true := by
  intro res e
  unfold execMfence at e
  refine issue_keep _ _ _ hm (fun c res e => ?_) res e; (repeat' split at e) <;> (first | cases e | skip) <;> simp_all
theorem execAccz_keep (w : BitVec 3) (t n : BitVec 8) (s : State) (hm : s.mem.wf = true) :
    ∀ u, execAccz w t n s = .next u → u.mem.wf = true := by
  intro u e
  unfold execAccz at e
  refine issue_keep _ _ _ hm (fun c u e => ?_) u e
  refine State.withTiles_mem _ _ _ _ _ (fun ts u e => ?_) u e
  cases e; rw [State.done_mem, State.accWrite_mem]; exact hm

theorem execAccwr_keep (w : BitVec 3) (t : BitVec 8) (r : BitVec 7) (f : BitVec 1) (s : State) (hm : s.mem.wf = true) :
    ∀ u, execAccwr w t r f s = .next u → u.mem.wf = true := by
  intro u e
  unfold execAccwr at e
  refine issue_keep _ _ _ hm (fun c u e => ?_) u e
  refine State.withTiles_mem _ _ _ _ _ (fun ts u e => ?_) u e
  cases e; rw [State.done_mem, State.accWrite_mem]; exact hm

theorem execSetscA_keep (w : BitVec 3) (a : BitVec 6) (s : State) (hm : s.mem.wf = true) : ∀ res, (execSetscA w a s) = .next res → res.mem.wf = true := by
  intro res e
  unfold execSetscA at e
  exact issue_keep _ _ _ hm (fun c res e => by cases e; simp [hm]) res e
theorem execSetscB_keep (w : BitVec 3) (a : BitVec 6) (s : State) (hm : s.mem.wf = true) : ∀ res, (execSetscB w a s) = .next res → res.mem.wf = true := by
  intro res e
  unfold execSetscB at e
  exact issue_keep _ _ _ hm (fun c res e => by cases e; simp [hm]) res e
theorem execAccrdReg_keep (r w : BitVec 3) (t : BitVec 8) (d : BitVec 7) (l : BitVec 4) (f : BitVec 1) (s : State) (hm : s.mem.wf = true) :
    ∀ u, execAccrdReg r w t d l f s = .next u → u.mem.wf = true := by
  intro u e
  unfold execAccrdReg at e
  refine issue_keep _ _ _ hm (fun c u e => ?_) u e
  refine State.withTiles_mem _ _ _ _ _ (fun ts u e => ?_) u e
  have h2 := State.accRead_mem s c ts
  generalize s.accRead c ts = ar at e h2
  obtain ⟨x, s1⟩ := ar
  cases e
  rw [State.pendNew_mem, State.drainDrawn_mem, show s1.mem = s.mem from h2]; exact hm

theorem execQntz_keep (w : BitVec 3) (r : BitVec 7) (a : BitVec 5) (t : BitVec 2) (u : BitVec 1) (s : State) (hm : s.mem.wf = true) :
    ∀ v, execQntz w r a t u s = .next v → v.mem.wf = true := by
  intro v e
  unfold execQntz at e
  refine issue_keep _ _ _ hm (fun c v e => ?_) v e
  extract_lets va blk at' at e
  clear_value at'
  split at e
  · exact State.wholewise_mem _ _ _ _ _ hm (fun _ v e => by cases e; exact hm) v e
  · dsimp only at e
    exact State.quantStores_mem _ _ _ _ _ _ hm (fun t => State.setWave_mem _ _) v e

theorem execDqnz_keep (w : BitVec 3) (d : BitVec 7) (a : BitVec 5) (l : BitVec 4) (s : State) (hm : s.mem.wf = true) :
    ∀ u, execDqnz w d a l s = .next u → u.mem.wf = true := by
  intro u e
  unfold execDqnz at e
  refine issue_keep _ _ _ hm (fun c u e => ?_) u e
  extract_lets va at e
  split at e
  · exact State.wholewise_mem _ _ _ _ _ hm (fun _ v e => by cases e; exact hm) u e
  · refine State.wholewise_mem _ _ _ _ _ (State.readNow_mem s c _ _ hm) (fun xs u e => ?_) u e
    cases e; rw [State.pendAdd_mem]; exact State.readNow_mem s c _ _ hm

theorem execOlrd_keep (w : BitVec 3) (d : BitVec 7) (a : BitVec 5) (l : BitVec 4) (s : State) (hm : s.mem.wf = true) :
    ∀ u, execOlrd w d a l s = .next u → u.mem.wf = true := by
  intro u e
  unfold execOlrd at e
  refine issue_keep _ _ _ hm (fun c u e => ?_) u e
  extract_lets va at e
  split at e
  · exact State.wholewise_mem _ _ _ _ _ hm (fun _ v e => by cases e; exact hm) u e
  · refine State.wholewise_mem _ _ _ _ _ (State.readNow_mem s c _ _ hm) (fun xs u e => ?_) u e
    cases e; rw [State.pendAdd_mem]; exact State.readNow_mem s c _ _ hm

theorem execAccrdMem_keep (r w : BitVec 3) (t : BitVec 8) (a y : BitVec 5) (s : State) (hm : s.mem.wf = true) :
    ∀ u, execAccrdMem r w t a y s = .next u → u.mem.wf = true := by
  intro u e
  unfold execAccrdMem at e
  refine issue_keep _ _ _ hm (fun c u e => ?_) u e
  refine State.withTiles_mem _ _ _ _ _ (fun ts u e => ?_) u e
  have h2 : ((s.accRead c ts).2.drainDrawn r 32).mem.wf = true := by rw [State.drainDrawn_mem, State.accRead_mem]; exact hm
  generalize s.accRead c ts = ar at e h2
  obtain ⟨x, s1⟩ := ar
  dsimp only at e h2
  split at e
  · split at e
    · cases e
    · refine State.wholewise_mem _ _ _ _ _ hm (fun xs u e => ?_) u e
      cases e; rw [State.storePart_mem]; exact h2
  · split at e
    · exact State.wholewise_mem _ _ _ _ _ hm (fun _ v e => by cases e; exact hm) u e
    · split at e
      · cases e
      · exact State.quantStores_mem _ _ _ _ _ _ h2 (fun t => State.setWave_mem _ _) u e

theorem execCfetch_keep (a : BitVec 5) (sl : BitVec 7) (s : State) (hm : s.mem.wf = true) :
    ∀ u, execCfetch a sl s = .next u → u.mem.wf = true := by
  intro u e
  unfold execCfetch at e
  exact issue_keep _ _ _ hm (fun c u e => (State.cfetchBody_mem _ _ _ _ u e) ▸ hm) u e

theorem execCodeLoadComplete_keep (core : Nat) (slot : Nat) (s : State) (hm : s.mem.wf = true) : ∀ res, (execCodeLoadComplete core slot s) = .next res → res.mem.wf = true := by
  intro res e
  unfold execCodeLoadComplete at e
  dsimp only at e; (repeat' split at e) <;> cases e <;> simp_all
theorem execCwait_keep (sl : BitVec 7) (s : State) (hm : s.mem.wf = true) :
    ∀ u, execCwait sl s = .next u → u.mem.wf = true := by
  intro u e
  unfold execCwait at e
  exact issue_keep _ _ _ hm (fun c u e => State.cwaitBody_mem _ _ _ hm u e) u e

theorem State.act?_keep (s : State) (c : Ctx) (r : Except TrapRec State) (hm : s.mem.wf = true) (hr : ∀ t, r = .ok t → t.mem.wf = true) :
    ∀ u, s.act? c r = .next u → u.mem.wf = true := by
  intro u e
  unfold State.act? at e
  split at e
  · cases e; exact hr _ rfl
  · cases e; simp [hm]

theorem execCwaitWaitEnd_keep (who : Issuer) (s : State) (hm : s.mem.wf = true) :
    ∀ u, execCwaitWaitEnd who s = .next u → u.mem.wf = true := by
  intro u e
  unfold execCwaitWaitEnd at e
  split at e
  · split at e
    · cases e; exact hm
    · exact State.act?_keep _ _ _ hm (State.cwaitBody_mem _ _ _ hm) u e
  · cases e; exact hm

theorem execQueueRoomWaitEnd_keep (who : Issuer) (s : State) (hm : s.mem.wf = true) :
    ∀ u, execQueueRoomWaitEnd who s = .next u → u.mem.wf = true := by
  intro u e
  unfold execQueueRoomWaitEnd at e
  split at e
  · cases e; exact hm
  · split at e
    · cases e; exact hm
    · split at e
      · exact State.act?_keep _ _ _ hm (fun t e => (State.copyStart_mem _ _ _ _ t e) ▸ hm) u e
      · exact State.act?_keep _ _ _ hm (fun t e => (State.cfetchBody_mem _ _ _ _ t e) ▸ hm) u e
      · exact State.act?_keep _ _ _ hm (fun t e => (State.primeBody_mem _ _ _ _ _ _ t e) ▸ hm) u e
      · exact State.act?_keep _ _ _ hm (fun t e => (State.mmaBody_mem _ _ _ _ _ _ t e) ▸ hm) u e
      · cases e; simp [hm]
      · cases e; simp [hm]
      · cases e; exact hm

theorem execFgath_keep (d : BitVec 7) (b : BitVec 5) (l : BitVec 4) (m : BitVec 1) (h : Option (BitVec 24)) (p : Option Pfx) (s : State)
    (hm : s.mem.wf = true) : ∀ u, execFgath d b l m h p s = .next u → u.mem.wf = true := by
  intro u e
  unfold execFgath at e
  refine issue_keep _ _ _ hm (fun c u e => ?_) u e
  dsimp only at e
  refine State.lanewise_mem _ _ _ _ _ (by exact State.fetchNow_mem s c _ hm) (fun q xs => ?_) u e
  rw [State.pendAdd_mem]; exact State.fetchNow_mem s c _ hm

theorem execTsmp_keep (d b v : BitVec 5) (l : BitVec 4) (m : BitVec 3) (h : Option (BitVec 24)) (p : Option Pfx) (s : State)
    (hm : s.mem.wf = true) : ∀ u, execTsmp d b v l m h p s = .next u → u.mem.wf = true := by
  intro u e
  unfold execTsmp at e
  refine issue_keep _ _ _ hm (fun c u e => ?_) u e
  extract_lets va at e
  split at e
  · cases e
  · dsimp only at e
    have h1 := State.fetchNow_mem s c (fun t w => (c.todo p).map fun ln => (ln, t.sampleLane w c va (4 * v.toNat) m.toNat ln)) hm
    generalize (s.fetchNow c fun t w => (c.todo p).map fun ln => (ln, t.sampleLane w c va (4 * v.toNat) m.toNat ln)) = rn at e h1
    obtain ⟨s1, ps⟩ := rn
    dsimp only at e h1
    refine State.lanewise_mem _ _ _ _ _ h1 (fun q xs => ?_) u e
    rw [State.pendAdd_mem]; exact h1

theorem execGroupRetire_keep (gid : Nat) (s : State) (hm : s.mem.wf = true) : ∀ u, execGroupRetire gid s = .next u → u.mem.wf = true := by
  intro u e
  unfold execGroupRetire at e
  split at e
  · cases e; exact hm
  · split at e
    · cases e; exact hm
    · extract_lets fs s1 bad s2 s3 at e
      have h1 : s1.mem.wf = true := foldl_wf _ (fun s f h => State.groupRecord_mem s _ _ _ _ _ _ h) _ _ hm
      have h2 : s2.mem.wf = true := by
        simp only [s2]; rw [State.updLaunch_mem]; exact State.freeGroup_mem _ _ h1
      have h3 : s3.mem.wf = true := by
        simp only [s3]
        split
        · refine wf_ite _ _ _ h2 ?_
          rw [State.energyAdd_mem]; exact h2
        · exact h2
      rw [← Host.Outcome.next.inj e]
      exact State.afterEnd_mem _ _ h3

theorem execGroupAbort_keep (gid : Nat) (s : State) (hm : s.mem.wf = true) : ∀ u, execGroupAbort gid s = .next u → u.mem.wf = true := by
  intro u e
  unfold execGroupAbort at e
  split at e
  · cases e; exact hm
  · rw [← Host.Outcome.next.inj e]; exact State.abortGroup_mem _ _ _ hm

theorem execJoinLapse_keep (wid : Nat) (ent : Nat) (s : State) (hm : s.mem.wf = true) : ∀ res, (execJoinLapse wid ent s) = .next res → res.mem.wf = true := by
  intro res e
  unfold execJoinLapse at e
  dsimp only at e; (repeat' split at e) <;> cases e <;> simp_all
theorem execFuseTimeout_keep (wid : Nat) (ent : Nat) (s : State) (hm : s.mem.wf = true) : ∀ res, (execFuseTimeout wid ent s) = .next res → res.mem.wf = true := by
  intro res e
  unfold execFuseTimeout at e
  (repeat' split at e) <;> cases e <;> simp_all
theorem execForcedFuseTimeout_keep (wid : Nat) (ent : Nat) (s : State) (hm : s.mem.wf = true) : ∀ res, (execForcedFuseTimeout wid ent s) = .next res → res.mem.wf = true := by
  intro res e
  unfold execForcedFuseTimeout at e
  (repeat' split at e) <;> cases e <;> simp_all
theorem execMissSplit_keep (wid : Nat) (ent : Nat) (s : State) (hm : s.mem.wf = true) : ∀ res, (execMissSplit wid ent s) = .next res → res.mem.wf = true := by
  intro res e
  unfold execMissSplit at e
  dsimp only at e; (repeat' split at e) <;> cases e <;> simp_all
theorem execLongLatencyComplete_keep (wid : Nat) (pid : Nat) (s : State) (hm : s.mem.wf = true) : ∀ res, (execLongLatencyComplete wid pid s) = .next res → res.mem.wf = true := by
  intro res e
  unfold execLongLatencyComplete at e
  dsimp only at e; (repeat' split at e) <;> cases e <;> simp_all
theorem execSleepExpire_keep (wid : Nat) (ent : Nat) (s : State) (hm : s.mem.wf = true) : ∀ res, (execSleepExpire wid ent s) = .next res → res.mem.wf = true := by
  intro res e
  unfold execSleepExpire at e
  (repeat' split at e) <;> cases e <;> simp_all
theorem execYieldExpire_keep (who : Issuer) (s : State) (hm : s.mem.wf = true) : ∀ res, (execYieldExpire who s) = .next res → res.mem.wf = true := by
  intro res e
  unfold execYieldExpire at e
  (repeat' split at e) <;> cases e <;> simp_all
theorem execTrapEntry_keep (wid : Nat) (s : State) (hm : s.mem.wf = true) : ∀ res, (execTrapEntry wid s) = .next res → res.mem.wf = true := by
  intro res e
  unfold execTrapEntry at e
  cases e
  refine State.enterPending_mem _ _ ?_
  split
  · exact wf_ite _ _ _ (State.restoreCheck_mem _ _ hm) hm
  · exact hm
theorem execPcComparatorMatch_keep (who : Issuer) (k : Nat) (s : State) (hm : s.mem.wf = true) : ∀ res, (execPcComparatorMatch who k s) = .next res → res.mem.wf = true := by
  intro res e
  unfold execPcComparatorMatch at e
  (repeat' split at e) <;> cases e <;> simp_all
theorem execSrd_keep (d : BitVec 7) (n : BitVec 13) (s : State) (hm : s.mem.wf = true) : ∀ res, (execSrd d n s) = .next res → res.mem.wf = true := by
  intro res e
  unfold execSrd at e
  exact issue_keep _ _ _ hm (fun c res e => by cases e; simp [hm]) res e
theorem execSwr_keep (a : BitVec 7) (n : BitVec 13) (s : State) (hm : s.mem.wf = true) : ∀ res, (execSwr a n s) = .next res → res.mem.wf = true := by
  intro res e
  unfold execSwr at e
  refine issue_keep _ _ _ hm (fun c res e => ?_) res e; dsimp only at e; (repeat' split at e) <;> (first | cases e | skip) <;> simp_all
theorem execTrap_keep (k : BitVec 14) (s : State) (hm : s.mem.wf = true) : ∀ res, (execTrap k s) = .next res → res.mem.wf = true := by
  intro res e
  unfold execTrap at e
  exact issue_keep _ _ _ hm (fun c res e => by cases e; simp [hm]) res e
theorem execBkpt_keep (k : BitVec 14) (s : State) (hm : s.mem.wf = true) : ∀ res, (execBkpt k s) = .next res → res.mem.wf = true := by
  intro res e
  unfold execBkpt at e
  exact issue_keep _ _ _ hm (fun c res e => by cases e; simp [hm]) res e
theorem execRte_keep (s : State) (hm : s.mem.wf = true) : ∀ res, (execRte s) = .next res → res.mem.wf = true := by
  intro res e
  unfold execRte at e
  refine issue_keep _ _ _ hm (fun c res e => ?_) res e; (repeat' split at e) <;> (first | cases e | skip) <;> simp_all
theorem execSplrd_keep (d : BitVec 5) (e : BitVec 4) (w : BitVec 2) (s : State) (hm : s.mem.wf = true) : ∀ res, (execSplrd d e w s) = .next res → res.mem.wf = true := by
  intro res e
  unfold execSplrd at e
  exact issue_keep _ _ _ hm (fun c res e => by cases e; simp [hm]) res e
theorem execSplwr_keep (a : BitVec 5) (e : BitVec 4) (w : BitVec 2) (s : State) (hm : s.mem.wf = true) : ∀ res, (execSplwr a e w s) = .next res → res.mem.wf = true := by
  intro res e
  unfold execSplwr at e
  exact issue_keep _ _ _ hm (fun c res e => by cases e; simp [hm]) res e
theorem execRgnEnter_keep (id : BitVec 14) (s : State) (hm : s.mem.wf = true) : ∀ res, (execRgnEnter id s) = .next res → res.mem.wf = true := by
  intro res e
  unfold execRgnEnter at e
  exact issue_keep _ _ _ hm (fun c res e => by cases e; simp [hm]) res e
theorem execRgnLeave_keep (id : BitVec 14) (s : State) (hm : s.mem.wf = true) : ∀ res, (execRgnLeave id s) = .next res → res.mem.wf = true := by
  intro res e
  unfold execRgnLeave at e
  exact issue_keep _ _ _ hm (fun c res e => by cases e; simp [hm]) res e
theorem execProg_keep (id : BitVec 14) (s : State) (hm : s.mem.wf = true) : ∀ res, (execProg id s) = .next res → res.mem.wf = true := by
  intro res e
  unfold execProg at e
  exact issue_keep _ _ _ hm (fun c res e => by cases e; simp [hm]) res e
theorem execSleep_keep (a : BitVec 6) (s : State) (hm : s.mem.wf = true) : ∀ res, (execSleep a s) = .next res → res.mem.wf = true := by
  intro res e
  unfold execSleep at e
  refine issue_keep _ _ _ hm (fun c res e => ?_) res e; dsimp only at e; (repeat' split at e) <;> (first | cases e | skip) <;> simp_all
theorem execEvsig_keep (a : BitVec 6) (q : BitVec 4) (s : State) (hm : s.mem.wf = true) : ∀ res, (execEvsig a q s) = .next res → res.mem.wf = true := by
  intro res e
  unfold execEvsig at e
  refine issue_keep _ _ _ hm (fun c res e => ?_) res e; dsimp only at e; (repeat' split at e) <;> (first | cases e | skip) <;> simp_all
theorem execCounterFlush_keep (s : State) (hm : s.mem.wf = true) : ∀ u, execCounterFlush s = .next u → u.mem.wf = true := by
  intro u e
  unfold execCounterFlush at e
  rw [← Host.Outcome.next.inj e]
  exact foldl_wf State.flushFunc (fun s f h => State.flushFunc_mem s f h) (List.range 64) s hm

theorem execCounterFreeze_keep (func : Nat) (s : State) (hm : s.mem.wf = true) : ∀ res, (execCounterFreeze func s) = .next res → res.mem.wf = true := by
  intro res e
  unfold execCounterFreeze at e
  cases e; simp [hm]
theorem execFreezeDone_keep (func : Nat) (s : State) (hm : s.mem.wf = true) : ∀ res, (execFreezeDone func s) = .next res → res.mem.wf = true := by
  intro res e
  unfold execFreezeDone at e
  (repeat' split at e) <;> cases e <;> simp_all
theorem execEnergyWindow_keep (grains : Nat) (s : State) (hm : s.mem.wf = true) : ∀ res, (execEnergyWindow grains s) = .next res → res.mem.wf = true := by
  intro res e
  unfold execEnergyWindow at e
  cases e; simp [hm]
theorem execPowerOnReset_keep (s : State) (hm : s.mem.wf = true) : ∀ res, (execPowerOnReset s) = .next res → res.mem.wf = true := by
  intro res e
  unfold execPowerOnReset at e
  cases e; simp [hm]
theorem execBootRomStageDone_keep (ok : Bool) (s : State) (hm : s.mem.wf = true) : ∀ res, (execBootRomStageDone ok s) = .next res → res.mem.wf = true := by
  intro res e
  unfold execBootRomStageDone at e
  (repeat' split at e) <;> cases e <;> simp_all
theorem execFirmwareVerify_keep (s : State) (hm : s.mem.wf = true) : ∀ res, (execFirmwareVerify s) = .next res → res.mem.wf = true := by
  intro res e
  unfold execFirmwareVerify at e
  (repeat' split at e) <;> cases e <;> simp_all
theorem execSelfTest_keep (found : List Defect) (s : State) (hm : s.mem.wf = true) : ∀ res, (execSelfTest found s) = .next res → res.mem.wf = true := by
  intro res e
  unfold execSelfTest at e
  dsimp only at e; (repeat' split at e) <;> cases e <;> simp_all
theorem execFirmwareStart_keep (ok : Bool) (s : State) (hm : s.mem.wf = true) : ∀ res, (execFirmwareStart ok s) = .next res → res.mem.wf = true := by
  intro res e
  unfold execFirmwareStart at e
  split at e
  · cases e; exact hm
  · split at e
    · cases e; exact Store.wf_filter _ _ hm
    · cases e; simp [hm]
theorem execPcieConfigRequest_keep (req : ConfigReq) (s : State) (hm : s.mem.wf = true) : ∀ res, (execPcieConfigRequest req s) = .next res → res.mem.wf = true := by
  intro res e
  unfold execPcieConfigRequest at e
  (repeat' split at e) <;> cases e <;> simp_all
theorem execGetReport_keep (s : State) (hm : s.mem.wf = true) : ∀ u, execGetReport s = .next u → u.mem.wf = true := by
  intro u e
  unfold execGetReport at e
  rw [← Host.Outcome.next.inj e, State.command_mem _ _ _ _ (fun s => State.respond_mem _ _ _)]; exact hm

theorem execGetPubkey_keep (s : State) (hm : s.mem.wf = true) : ∀ u, execGetPubkey s = .next u → u.mem.wf = true := by
  intro u e
  unfold execGetPubkey at e
  rw [← Host.Outcome.next.inj e, State.command_mem _ _ _ _ (fun s => State.respond_mem _ _ _)]; exact hm

theorem execGetSelftest_keep (s : State) (hm : s.mem.wf = true) : ∀ u, execGetSelftest s = .next u → u.mem.wf = true := by
  intro u e
  unfold execGetSelftest at e
  rw [← Host.Outcome.next.inj e, State.command_mem _ _ _ _ (fun s => State.respond_mem _ _ _)]; exact hm

theorem execRetryBoot_keep (s : State) (hm : s.mem.wf = true) : ∀ u, execRetryBoot s = .next u → u.mem.wf = true := by
  intro u e
  unfold execRetryBoot at e
  rw [← Host.Outcome.next.inj e, State.command_mem _ _ _ _ (fun s => by split <;> simp)]; exact hm

theorem execDoorbell_keep (func : Nat) (q : Nat) (t : Word) (s : State) (hm : s.mem.wf = true) : ∀ res, (execDoorbell func q t s) = .next res → res.mem.wf = true := by
  intro res e
  unfold execDoorbell at e
  dsimp only at e; (repeat' split at e) <;> cases e <;> simp_all
theorem execArbiterDecision_keep (s : State) (hm : s.mem.wf = true) : ∀ res, (execArbiterDecision s) = .next res → res.mem.wf = true := by
  intro res e
  unfold execArbiterDecision at e
  have h1 := State.flagQueues_mem s hm
  generalize s.flagQueues = s1 at e h1
  dsimp only at e
  split at e
  · cases e; exact hm
  · split at e
    · cases e; exact h1
    · split at e
      · cases e; exact h1
      · rename_i q arb _ ws _
        cases e
        rw [State.endTurns_mem]
        refine State.accept_mem _ _ ?_
        rw [State.newId_mem, State.charge_mem]
        exact State.wr32_mem _ _ _ (State.devSeen_mem s1 _ _ _ h1)
theorem execManagementLaunch_keep (e : Nat) (s : State) (hm : s.mem.wf = true) : ∀ res, (execManagementLaunch e s) = .next res → res.mem.wf = true := by
  intro res e
  unfold execManagementLaunch at e
  dsimp only at e; (repeat' split at e) <;> cases e <;> simp_all
theorem execKernelLoad_keep (func : Nat) (v : DWord) (s : State) (hm : s.mem.wf = true) : ∀ res, (execKernelLoad func v s) = .next res → res.mem.wf = true := by
  intro res e
  unfold execKernelLoad at e
  dsimp only at e
  have h1 := fun ws => State.loadSeen_mem s (field (s.func func).klctx 0 16) (field v 0 57) (wordAt ws) hm
  have h2 := fun ws f => (foldl_wf (fun (t : State) c => t.updCore c f) (fun t c h => by simpa using h) (loadCores (wordAt ws)) _ (h1 ws))
  have h3 := fun ws f g => (foldl_wf (fun (t : State) c => t.updCore c g) (fun t c h => by simpa using h) (loadCores (wordAt ws)) _ (h2 ws f))
  (repeat' split at e) <;> cases e <;> first | exact hm | exact h1 _ | exact h2 _ _ | exact h3 _ _ _
theorem execKernelLoadDone_keep (func : Nat) (s : State) (hm : s.mem.wf = true) : ∀ res, (execKernelLoadDone func s) = .next res → res.mem.wf = true := by
  intro res e
  unfold execKernelLoadDone at e
  dsimp only at e; (repeat' split at e) <;> cases e <;> simp_all
theorem execCohortPlacement_keep (lid : Nat) (s : State) (hm : s.mem.wf = true) :
    ∀ u, execCohortPlacement lid s = .next u → u.mem.wf = true := by
  intro u e
  unfold execCohortPlacement at e
  split at e
  · cases e; exact hm
  · split at e
    · cases e; exact hm
    · dsimp only at e
      split at e
      · cases e; exact hm
      · split at e
        · cases e; exact hm
        · rename_i v ev
          split at e
          · cases e; exact State.giveUp_mem _ _ _ hm
          · have hv : v.mem.wf = true :=
              foldlM_opt_wf _ (fun s a t h e => State.placeOne_mem s _ _ _ _ _ h t e) _ _ v (by exact hm) ev
            cases e; exact State.listsSeen_mem _ _ hv

theorem execCohortWaitHold_keep (lid : Nat) (s : State) (hm : s.mem.wf = true) : ∀ res, (execCohortWaitHold lid s) = .next res → res.mem.wf = true := by
  intro res e
  unfold execCohortWaitHold at e
  (repeat' split at e) <;> cases e <;> simp_all
theorem execBra_keep (o : BitVec 12) (x : Option BExt) (s : State) (hm : s.mem.wf = true) : ∀ res, (execBra o x s) = .next res → res.mem.wf = true := by
  intro res e
  unfold execBra at e
  exact issue_keep _ _ _ hm (fun c res e => by cases e; simp [hm]) res e
theorem execBrc_keep (k : BitVec 4) (r : BitVec 7) (o : BitVec 12) (x : Option BExt) (s : State) (hm : s.mem.wf = true) : ∀ res, (execBrc k r o x s) = .next res → res.mem.wf = true := by
  intro res e
  unfold execBrc at e
  exact issue_keep _ _ _ hm (fun c res e => by cases e; simp [hm]) res e
theorem execCall_keep (d : BitVec 6) (o : BitVec 12) (x : Option BExt) (s : State) (hm : s.mem.wf = true) : ∀ res, (execCall d o x s) = .next res → res.mem.wf = true := by
  intro res e
  unfold execCall at e
  exact issue_keep _ _ _ hm (fun c res e => by cases e; simp [hm]) res e
theorem execRet_keep (a : BitVec 6) (s : State) (hm : s.mem.wf = true) : ∀ res, (execRet a s) = .next res → res.mem.wf = true := by
  intro res e
  unfold execRet at e
  exact issue_keep _ _ _ hm (fun c res e => by cases e; simp [hm]) res e
theorem execJmpf_keep (sl : BitVec 7) (o : BitVec 10) (s : State) (hm : s.mem.wf = true) : ∀ res, (execJmpf sl o s) = .next res → res.mem.wf = true := by
  intro res e
  unfold execJmpf at e
  refine issue_keep _ _ _ hm (fun c res e => ?_) res e; dsimp only at e; (repeat' split at e) <;> (first | cases e | skip) <;> simp_all
theorem execBrd_keep (k : BitVec 4) (t : BitVec 11) (j : BitVec 11) (x : Option BExt) (s : State) (hm : s.mem.wf = true) : ∀ res, (execBrd k t j x s) = .next res → res.mem.wf = true := by
  intro res e
  unfold execBrd at e
  refine issue_keep _ _ _ hm (fun c res e => ?_) res e; dsimp only at e; (repeat' split at e) <;> (first | cases e | skip) <;> simp_all
theorem execJoin_keep (s : State) (hm : s.mem.wf = true) : ∀ res, (execJoin s) = .next res → res.mem.wf = true := by
  intro res e
  unfold execJoin at e
  refine issue_keep _ _ _ hm (fun c res e => ?_) res e; dsimp only at e; (repeat' split at e) <;> (first | cases e | skip) <;> simp_all
theorem execFuse_keep (s : State) (hm : s.mem.wf = true) : ∀ res, (execFuse s) = .next res → res.mem.wf = true := by
  intro res e
  unfold execFuse at e
  refine issue_keep _ _ _ hm (fun c res e => ?_) res e; dsimp only at e; (repeat' split at e) <;> (first | cases e | skip) <;> simp_all
theorem execNop_keep (s : State) (hm : s.mem.wf = true) : ∀ res, (execNop s) = .next res → res.mem.wf = true := by
  intro res e
  unfold execNop at e
  exact issue_keep _ _ _ hm (fun c res e => by cases e; simp [hm]) res e
theorem hintIssue_keep (i : Instr) (s : State) (hm : s.mem.wf = true) : ∀ res, (hintIssue i s) = .next res → res.mem.wf = true := by
  intro res e
  unfold hintIssue at e
  refine issue_keep _ _ _ hm (fun c res e => ?_) res e; (repeat' split at e) <;> (first | cases e | skip) <;> simp_all
theorem execWideImmediateHint_keep (w : BitVec 24) (s : State) (hm : s.mem.wf = true) : ∀ res, (execWideImmediateHint w s) = .next res → res.mem.wf = true := by
  intro res e
  unfold execWideImmediateHint at e
  exact hintIssue_keep _ _ hm res e
theorem execBranchExtensionHint_keep (t : BitVec 6) (j : BitVec 6) (s : State) (hm : s.mem.wf = true) : ∀ res, (execBranchExtensionHint t j s) = .next res → res.mem.wf = true := by
  intro res e
  unfold execBranchExtensionHint at e
  exact hintIssue_keep _ _ hm res e
theorem execHintYield_keep (n : BitVec 8) (s : State) (hm : s.mem.wf = true) : ∀ res, (execHintYield n s) = .next res → res.mem.wf = true := by
  intro res e
  unfold execHintYield at e
  exact issue_keep _ _ _ hm (fun c res e => by cases e; simp [hm]) res e
theorem execHintUniform_keep (s : State) (hm : s.mem.wf = true) : ∀ res, (execHintUniform s) = .next res → res.mem.wf = true := by
  intro res e
  unfold execHintUniform at e
  exact issue_keep _ _ _ hm (fun c res e => by cases e; simp [hm]) res e
theorem execDict_keep (a : BitVec 10) (b : BitVec 10) (s : State) (hm : s.mem.wf = true) : ∀ res, (execDict a b s) = .next res → res.mem.wf = true := by
  intro res e
  unfold execDict at e
  refine issue_keep _ _ _ hm (fun c res e => ?_) res e; (repeat' split at e) <;> (first | cases e | skip) <;> simp_all
theorem execReservedEncoding_keep (s : State) (hm : s.mem.wf = true) : ∀ res, (execReservedEncoding s) = .next res → res.mem.wf = true := by
  intro res e
  unfold execReservedEncoding at e
  refine issue_keep _ _ _ hm (fun c res e => ?_) res e; (repeat' split at e) <;> (first | cases e | skip) <;> simp_all
theorem execMcnt_keep (v : BitVec 6) (p : BitVec 6) (s : State) (hm : s.mem.wf = true) : ∀ res, (execMcnt v p s) = .next res → res.mem.wf = true := by
  intro res e
  unfold execMcnt at e
  refine issue_keep _ _ _ hm (fun c res e => ?_) res e; dsimp only at e; (repeat' split at e) <;> (first | cases e | skip) <;> simp_all
theorem execMvtx_keep (r : BitVec 7) (a : BitVec 5) (n : BitVec 4) (s : State) (hm : s.mem.wf = true) : ∀ res, (execMvtx r a n s) = .next res → res.mem.wf = true := by
  intro res e
  unfold execMvtx at e
  refine issue_keep _ _ _ hm (fun c res e => ?_) res e; dsimp only at e; (repeat' split at e) <;> (first | cases e | skip) <;> simp_all
theorem execMprim_keep (r : BitVec 7) (x : BitVec 7) (s : State) (hm : s.mem.wf = true) : ∀ res, (execMprim r x s) = .next res → res.mem.wf = true := by
  intro res e
  unfold execMprim at e
  refine issue_keep _ _ _ hm (fun c res e => ?_) res e; dsimp only at e; (repeat' split at e) <;> (first | cases e | skip) <;> simp_all
theorem execVintp_keep (d : BitVec 7) (b : BitVec 6) (n : BitVec 6) (s : State) (hm : s.mem.wf = true) : ∀ res, (execVintp d b n s) = .next res → res.mem.wf = true := by
  intro res e
  unfold execVintp at e
  exact issue_keep _ _ _ hm (fun c res e => by cases e; simp [hm]) res e
theorem execPxw_keep (r : BitVec 5) (t : BitVec 3) (s : State) (hm : s.mem.wf = true) : ∀ res, (execPxw r t s) = .next res → res.mem.wf = true := by
  intro res e
  unfold execPxw at e
  refine issue_keep _ _ _ hm (fun c res e => ?_) res e; (repeat' split at e) <;> (first | cases e | skip) <;> simp_all
theorem execExit_keep (s : State) (hm : s.mem.wf = true) : ∀ res, (execExit s) = .next res → res.mem.wf = true := by
  intro res e
  unfold execExit at e
  exact issue_keep _ _ _ hm (fun c res e => by cases e; simp [hm]) res e
theorem execPxk_keep (k : BitVec 4) (s : State) (hm : s.mem.wf = true) : ∀ u, execPxk k s = .next u → u.mem.wf = true := by
  intro u e
  unfold execPxk at e
  refine issue_keep _ _ _ hm (fun c u e => ?_) u e
  cases e
  refine wf_ite _ _ _ ?_ (State.exitLanes_mem _ _ _ _ _ hm)
  rw [State.done_mem]; exact hm

theorem execGlzin_keep (n : BitVec 5) (t : BitVec 2) (s : State) (hm : s.mem.wf = true) : ∀ u, execGlzin n t s = .next u → u.mem.wf = true := by
  intro u e
  unfold execGlzin at e
  exact issue_keep _ _ _ hm (fun c u e => State.glzWait_mem _ _ _ _ hm (State.glzInsert_mem _ _ _ _ _ hm) u e) u e

theorem execGlzrd_keep (d : BitVec 5) (x : BitVec 7) (l : BitVec 4) (t : BitVec 2) (s : State) (hm : s.mem.wf = true) :
    ∀ u, execGlzrd d x l t s = .next u → u.mem.wf = true := by
  intro u e
  unfold execGlzrd at e
  exact issue_keep _ _ _ hm (fun c u e => State.glzWait_mem _ _ _ _ hm (State.glzRead_mem _ _ _ _ _ _ _ hm) u e) u e

theorem execGlzres_keep (d b : BitVec 6) (l : BitVec 4) (t : BitVec 2) (s : State) (hm : s.mem.wf = true) :
    ∀ u, execGlzres d b l t s = .next u → u.mem.wf = true := by
  intro u e
  unfold execGlzres at e
  exact issue_keep _ _ _ hm (fun c u e => State.glzWait_mem _ _ _ _ hm (State.glzResolve_mem _ _ _ _ _ _ _ hm) u e) u e

theorem execGlzinTurnWaitEnd_keep (who : Issuer) (s : State) (hm : s.mem.wf = true) :
    ∀ u, execGlzinTurnWaitEnd who s = .next u → u.mem.wf = true := by
  intro u e
  unfold execGlzinTurnWaitEnd at e
  split at e
  · cases e; exact hm
  · split at e
    · cases e; exact hm
    · extract_lets r at e
      generalize hr : r = r' at e
      split at e
      · skip
        cases e
        have ev : r = .ok _ := hr
        simp only [r] at ev
        split at ev
        · exact State.glzInsert_mem _ _ _ _ _ hm _ ev
        · exact State.glzRead_mem _ _ _ _ _ _ _ hm _ ev
        · exact State.glzResolve_mem _ _ _ _ _ _ _ hm _ ev
        · exact State.glzClear_mem _ _ _ _ _ hm _ ev
        · cases ev; exact hm
      · cases e; simp [hm]

theorem execGlzclr_keep (r : BitVec 5) (t : BitVec 2) (s : State) (hm : s.mem.wf = true) : ∀ u, execGlzclr r t s = .next u → u.mem.wf = true := by
  intro u e
  unfold execGlzclr at e
  refine issue_keep _ _ _ hm (fun c u e => ?_) u e
  split at e
  · exact State.glzClear_mem _ _ _ _ _ hm u e
  · cases e; exact hm

theorem execPreemptRequest_keep (func : Nat) (v : DWord) (s : State) (hm : s.mem.wf = true) : ∀ res, (execPreemptRequest func v s) = .next res → res.mem.wf = true := by
  intro res e
  unfold execPreemptRequest at e
  (repeat' split at e) <;> cases e <;> simp_all
theorem execPreemptDrainTimeout_keep (gid : Nat) (s : State) (hm : s.mem.wf = true) : ∀ res, (execPreemptDrainTimeout gid s) = .next res → res.mem.wf = true := by
  intro res e
  unfold execPreemptDrainTimeout at e
  (repeat' split at e) <;> cases e <;> simp_all
theorem execPreemptSave_keep (gid : Nat) (s : State) (hm : s.mem.wf = true) : ∀ u, execPreemptSave gid s = .next u → u.mem.wf = true := by
  intro u e
  unfold execPreemptSave at e
  split at e
  · cases e; exact hm
  · split at e
    · split at e
      · cases e; exact hm
      · split at e
        · rename_i t ev
          cases e
          refine State.preDone_mem _ ?_
          rw [State.quietCheck_mem, State.replaceRows_mem, State.release_mem]
          exact State.writeImage_mem _ _ _ hm _ ev
        · cases e; simp [hm]
    · cases e; exact hm

theorem execRestore_keep (gid : Nat) (s : State) (hm : s.mem.wf = true) : ∀ u, execRestore gid s = .next u → u.mem.wf = true := by
  intro u e
  unfold execRestore at e
  split at e
  · cases e; exact hm
  · split at e
    · split at e
      · cases e; exact hm
      · split at e
        · cases e; simp [hm]
        · split at e
          · cases e; simp [hm]
          · rename_i ev
            cases e
            exact State.install_mem _ _ _ _ _ (State.devSeen_mem _ _ _ _ hm) _ ev
    · split at e
      · cases e
        rw [State.quietCheck_mem]
        refine foldl_wf _ (fun t w h => State.enterPending_mem _ _ (by rw [State.unstop_mem]; exact h)) _ _ ?_
        exact State.barSweep_mem _ _ (foldl_wf _ (fun t k h => State.barFault_mem _ _ _ h) _ _ (by rw [State.updGroup_mem]; exact hm))
      · cases e; exact hm
    · cases e; exact hm

theorem vecOp_keep (i : Instr) (p : Option Pfx) (t : Ty) (d : BitVec 7) (s : State) (f : Ctx → Nat → Nat) (hm : s.mem.wf = true) : ∀ res, (vecOp i p t d s f) = .next res → res.mem.wf = true := by
  intro res e
  unfold vecOp at e
  exact issue_keep _ _ _ hm (fun c res e => by cases e; simp [hm]) res e
theorem maskOp_keep (i : Instr) (p : Option Pfx) (d : BitVec 4) (s : State) (f : Ctx → Nat → Bool) (hm : s.mem.wf = true) : ∀ res, (maskOp i p d s f) = .next res → res.mem.wf = true := by
  intro res e
  unfold maskOp at e
  exact issue_keep _ _ _ hm (fun c res e => by cases e; simp [hm]) res e
theorem floatOp_keep (i : Instr) (p : Option Pfx) (t : Ty) (d : BitVec 7) (s : State) (f : Ctx → Nat → Bool → Fl) (hm : s.mem.wf = true) : ∀ res, (floatOp i p t d s f) = .next res → res.mem.wf = true := by
  intro res e
  unfold floatOp at e
  exact vecOp_keep _ _ _ _ _ _ hm res e
theorem intOp_keep (i : Instr) (p : Option Pfx) (t : Ty) (d : BitVec 7) (a : BitVec 7) (b : BitVec 7) (s : State) (f : Int → Int → Int → Int) (hm : s.mem.wf = true) : ∀ res, (intOp i p t d a b s f) = .next res → res.mem.wf = true := by
  intro res e
  unfold intOp at e
  exact vecOp_keep _ _ _ _ _ _ hm res e
theorem bitOp_keep (i : Instr) (p : Option Pfx) (t : Ty) (d : BitVec 7) (a : BitVec 7) (b : BitVec 7) (s : State) (f : Nat → Nat → Nat) (hm : s.mem.wf = true) : ∀ res, (bitOp i p t d a b s f) = .next res → res.mem.wf = true := by
  intro res e
  unfold bitOp at e
  exact vecOp_keep _ _ _ _ _ _ hm res e
theorem execVadd_keep (t : BitVec 2) (d : BitVec 7) (a : BitVec 7) (b : BitVec 7) (p : Option Pfx) (s : State) (hm : s.mem.wf = true) : ∀ res, (execVadd t d a b p s) = .next res → res.mem.wf = true := by
  intro res e
  unfold execVadd at e
  exact floatOp_keep _ _ _ _ _ _ hm res e
theorem execVsub_keep (t : BitVec 2) (d : BitVec 7) (a : BitVec 7) (b : BitVec 7) (p : Option Pfx) (s : State) (hm : s.mem.wf = true) : ∀ res, (execVsub t d a b p s) = .next res → res.mem.wf = true := by
  intro res e
  unfold execVsub at e
  exact floatOp_keep _ _ _ _ _ _ hm res e
theorem execVmul_keep (t : BitVec 2) (d : BitVec 7) (a : BitVec 7) (b : BitVec 7) (p : Option Pfx) (s : State) (hm : s.mem.wf = true) : ∀ res, (execVmul t d a b p s) = .next res → res.mem.wf = true := by
  intro res e
  unfold execVmul at e
  exact floatOp_keep _ _ _ _ _ _ hm res e
theorem execVfma_keep (t : BitVec 2) (d : BitVec 7) (a : BitVec 7) (b : BitVec 7) (p : Option Pfx) (s : State) (hm : s.mem.wf = true) : ∀ res, (execVfma t d a b p s) = .next res → res.mem.wf = true := by
  intro res e
  unfold execVfma at e
  exact floatOp_keep _ _ _ _ _ _ hm res e
theorem execVfms_keep (t : BitVec 2) (d : BitVec 7) (a : BitVec 7) (b : BitVec 7) (p : Option Pfx) (s : State) (hm : s.mem.wf = true) : ∀ res, (execVfms t d a b p s) = .next res → res.mem.wf = true := by
  intro res e
  unfold execVfms at e
  exact floatOp_keep _ _ _ _ _ _ hm res e
theorem execVmin_keep (t : BitVec 2) (d : BitVec 7) (a : BitVec 7) (b : BitVec 7) (p : Option Pfx) (s : State) (hm : s.mem.wf = true) : ∀ res, (execVmin t d a b p s) = .next res → res.mem.wf = true := by
  intro res e
  unfold execVmin at e
  exact vecOp_keep _ _ _ _ _ _ hm res e
theorem execVmax_keep (t : BitVec 2) (d : BitVec 7) (a : BitVec 7) (b : BitVec 7) (p : Option Pfx) (s : State) (hm : s.mem.wf = true) : ∀ res, (execVmax t d a b p s) = .next res → res.mem.wf = true := by
  intro res e
  unfold execVmax at e
  exact vecOp_keep _ _ _ _ _ _ hm res e
theorem execVrnd_keep (t : BitVec 2) (d : BitVec 7) (a : BitVec 7) (p : Option Pfx) (s : State) (hm : s.mem.wf = true) : ∀ res, (execVrnd t d a p s) = .next res → res.mem.wf = true := by
  intro res e
  unfold execVrnd at e
  exact vecOp_keep _ _ _ _ _ _ hm res e
theorem execVcmpF_keep (t : BitVec 2) (d : BitVec 4) (a : BitVec 7) (b : BitVec 7) (k : BitVec 3) (p : Option Pfx) (s : State) (hm : s.mem.wf = true) : ∀ res, (execVcmpF t d a b k p s) = .next res → res.mem.wf = true := by
  intro res e
  unfold execVcmpF at e
  exact maskOp_keep _ _ _ _ _ hm res e
theorem specialOp_keep (i : Instr) (f : Sf) (t : BitVec 1) (d : BitVec 7) (a : BitVec 7) (n : BitVec 4) (p : Option Pfx) (s : State) (hm : s.mem.wf = true) : ∀ res, (specialOp i f t d a n p s) = .next res → res.mem.wf = true := by
  intro res e
  unfold specialOp at e
  exact issue_keep _ _ _ hm (fun c res e => by cases e; simp [hm]) res e
theorem execVrcp_keep (t : BitVec 1) (d : BitVec 7) (a : BitVec 7) (l : BitVec 4) (p : Option Pfx) (s : State) (hm : s.mem.wf = true) : ∀ res, (execVrcp t d a l p s) = .next res → res.mem.wf = true := by
  intro res e
  unfold execVrcp at e
  exact specialOp_keep _ _ _ _ _ _ _ _ hm res e
theorem execVrsq_keep (t : BitVec 1) (d : BitVec 7) (a : BitVec 7) (l : BitVec 4) (p : Option Pfx) (s : State) (hm : s.mem.wf = true) : ∀ res, (execVrsq t d a l p s) = .next res → res.mem.wf = true := by
  intro res e
  unfold execVrsq at e
  exact specialOp_keep _ _ _ _ _ _ _ _ hm res e
theorem execVsqrt_keep (t : BitVec 1) (d : BitVec 7) (a : BitVec 7) (l : BitVec 4) (p : Option Pfx) (s : State) (hm : s.mem.wf = true) : ∀ res, (execVsqrt t d a l p s) = .next res → res.mem.wf = true := by
  intro res e
  unfold execVsqrt at e
  exact specialOp_keep _ _ _ _ _ _ _ _ hm res e
theorem execVexp2_keep (t : BitVec 1) (d : BitVec 7) (a : BitVec 7) (l : BitVec 4) (p : Option Pfx) (s : State) (hm : s.mem.wf = true) : ∀ res, (execVexp2 t d a l p s) = .next res → res.mem.wf = true := by
  intro res e
  unfold execVexp2 at e
  exact specialOp_keep _ _ _ _ _ _ _ _ hm res e
theorem execVlog2_keep (t : BitVec 1) (d : BitVec 7) (a : BitVec 7) (l : BitVec 4) (p : Option Pfx) (s : State) (hm : s.mem.wf = true) : ∀ res, (execVlog2 t d a l p s) = .next res → res.mem.wf = true := by
  intro res e
  unfold execVlog2 at e
  exact specialOp_keep _ _ _ _ _ _ _ _ hm res e
theorem execVsin_keep (t : BitVec 1) (d : BitVec 7) (a : BitVec 7) (l : BitVec 4) (p : Option Pfx) (s : State) (hm : s.mem.wf = true) : ∀ res, (execVsin t d a l p s) = .next res → res.mem.wf = true := by
  intro res e
  unfold execVsin at e
  exact specialOp_keep _ _ _ _ _ _ _ _ hm res e
theorem execVcos_keep (t : BitVec 1) (d : BitVec 7) (a : BitVec 7) (l : BitVec 4) (p : Option Pfx) (s : State) (hm : s.mem.wf = true) : ∀ res, (execVcos t d a l p s) = .next res → res.mem.wf = true := by
  intro res e
  unfold execVcos at e
  exact specialOp_keep _ _ _ _ _ _ _ _ hm res e
theorem execVtanh_keep (t : BitVec 1) (d : BitVec 7) (a : BitVec 7) (l : BitVec 4) (p : Option Pfx) (s : State) (hm : s.mem.wf = true) : ∀ res, (execVtanh t d a l p s) = .next res → res.mem.wf = true := by
  intro res e
  unfold execVtanh at e
  exact specialOp_keep _ _ _ _ _ _ _ _ hm res e
theorem execViadd_keep (t : BitVec 2) (d : BitVec 7) (a : BitVec 7) (b : BitVec 7) (p : Option Pfx) (s : State) (hm : s.mem.wf = true) : ∀ res, (execViadd t d a b p s) = .next res → res.mem.wf = true := by
  intro res e
  unfold execViadd at e
  exact intOp_keep _ _ _ _ _ _ _ _ hm res e
theorem execVisub_keep (t : BitVec 2) (d : BitVec 7) (a : BitVec 7) (b : BitVec 7) (p : Option Pfx) (s : State) (hm : s.mem.wf = true) : ∀ res, (execVisub t d a b p s) = .next res → res.mem.wf = true := by
  intro res e
  unfold execVisub at e
  exact intOp_keep _ _ _ _ _ _ _ _ hm res e
theorem execVimul_keep (t : BitVec 2) (d : BitVec 7) (a : BitVec 7) (b : BitVec 7) (p : Option Pfx) (s : State) (hm : s.mem.wf = true) : ∀ res, (execVimul t d a b p s) = .next res → res.mem.wf = true := by
  intro res e
  unfold execVimul at e
  exact intOp_keep _ _ _ _ _ _ _ _ hm res e
theorem execVimulh_keep (t : BitVec 2) (d : BitVec 7) (a : BitVec 7) (b : BitVec 7) (p : Option Pfx) (s : State) (hm : s.mem.wf = true) : ∀ res, (execVimulh t d a b p s) = .next res → res.mem.wf = true := by
  intro res e
  unfold execVimulh at e
  exact intOp_keep _ _ _ _ _ _ _ _ hm res e
theorem execVimad_keep (t : BitVec 2) (d : BitVec 7) (a : BitVec 7) (b : BitVec 7) (p : Option Pfx) (s : State) (hm : s.mem.wf = true) : ∀ res, (execVimad t d a b p s) = .next res → res.mem.wf = true := by
  intro res e
  unfold execVimad at e
  exact intOp_keep _ _ _ _ _ _ _ _ hm res e
theorem execVimin_keep (t : BitVec 2) (d : BitVec 7) (a : BitVec 7) (b : BitVec 7) (p : Option Pfx) (s : State) (hm : s.mem.wf = true) : ∀ res, (execVimin t d a b p s) = .next res → res.mem.wf = true := by
  intro res e
  unfold execVimin at e
  exact intOp_keep _ _ _ _ _ _ _ _ hm res e
theorem execVimax_keep (t : BitVec 2) (d : BitVec 7) (a : BitVec 7) (b : BitVec 7) (p : Option Pfx) (s : State) (hm : s.mem.wf = true) : ∀ res, (execVimax t d a b p s) = .next res → res.mem.wf = true := by
  intro res e
  unfold execVimax at e
  exact intOp_keep _ _ _ _ _ _ _ _ hm res e
theorem execVshl_keep (t : BitVec 2) (d : BitVec 7) (a : BitVec 7) (b : BitVec 7) (p : Option Pfx) (s : State) (hm : s.mem.wf = true) : ∀ res, (execVshl t d a b p s) = .next res → res.mem.wf = true := by
  intro res e
  unfold execVshl at e
  exact bitOp_keep _ _ _ _ _ _ _ _ hm res e
theorem execVshr_keep (t : BitVec 2) (d : BitVec 7) (a : BitVec 7) (b : BitVec 7) (p : Option Pfx) (s : State) (hm : s.mem.wf = true) : ∀ res, (execVshr t d a b p s) = .next res → res.mem.wf = true := by
  intro res e
  unfold execVshr at e
  exact bitOp_keep _ _ _ _ _ _ _ _ hm res e
theorem execVsra_keep (t : BitVec 2) (d : BitVec 7) (a : BitVec 7) (b : BitVec 7) (p : Option Pfx) (s : State) (hm : s.mem.wf = true) : ∀ res, (execVsra t d a b p s) = .next res → res.mem.wf = true := by
  intro res e
  unfold execVsra at e
  exact bitOp_keep _ _ _ _ _ _ _ _ hm res e
theorem execVbfe_keep (t : BitVec 2) (d : BitVec 7) (a : BitVec 7) (b : BitVec 7) (p : Option Pfx) (s : State) (hm : s.mem.wf = true) : ∀ res, (execVbfe t d a b p s) = .next res → res.mem.wf = true := by
  intro res e
  unfold execVbfe at e
  exact bitOp_keep _ _ _ _ _ _ _ _ hm res e
theorem execVbfi_keep (t : BitVec 2) (d : BitVec 7) (a : BitVec 7) (b : BitVec 7) (p : Option Pfx) (s : State) (hm : s.mem.wf = true) : ∀ res, (execVbfi t d a b p s) = .next res → res.mem.wf = true := by
  intro res e
  unfold execVbfi at e
  exact vecOp_keep _ _ _ _ _ _ hm res e
theorem execVpopc_keep (t : BitVec 2) (d : BitVec 7) (a : BitVec 7) (p : Option Pfx) (s : State) (hm : s.mem.wf = true) : ∀ res, (execVpopc t d a p s) = .next res → res.mem.wf = true := by
  intro res e
  unfold execVpopc at e
  exact bitOp_keep _ _ _ _ _ _ _ _ hm res e
theorem execVclz_keep (t : BitVec 2) (d : BitVec 7) (a : BitVec 7) (p : Option Pfx) (s : State) (hm : s.mem.wf = true) : ∀ res, (execVclz t d a p s) = .next res → res.mem.wf = true := by
  intro res e
  unfold execVclz at e
  exact bitOp_keep _ _ _ _ _ _ _ _ hm res e
theorem execVdot4_keep (d : BitVec 7) (a : BitVec 7) (b : BitVec 7) (p : Option Pfx) (s : State) (hm : s.mem.wf = true) : ∀ res, (execVdot4 d a b p s) = .next res → res.mem.wf = true := by
  intro res e
  unfold execVdot4 at e
  exact vecOp_keep _ _ _ _ _ _ hm res e
theorem execVcmpI_keep (t : BitVec 2) (d : BitVec 4) (a : BitVec 7) (b : BitVec 7) (k : BitVec 3) (p : Option Pfx) (s : State) (hm : s.mem.wf = true) : ∀ res, (execVcmpI t d a b k p s) = .next res → res.mem.wf = true := by
  intro res e
  unfold execVcmpI at e
  exact maskOp_keep _ _ _ _ _ hm res e
theorem execViaddImm_keep (d : BitVec 7) (a : BitVec 7) (i : BitVec 12) (h : Option (BitVec 24)) (p : Option Pfx) (s : State) (hm : s.mem.wf = true) : ∀ res, (execViaddImm d a i h p s) = .next res → res.mem.wf = true := by
  intro res e
  unfold execViaddImm at e
  exact vecOp_keep _ _ _ _ _ _ hm res e
theorem execVmovi_keep (d : BitVec 7) (i : BitVec 12) (h : Option (BitVec 24)) (p : Option Pfx) (s : State) (hm : s.mem.wf = true) : ∀ res, (execVmovi d i h p s) = .next res → res.mem.wf = true := by
  intro res e
  unfold execVmovi at e
  exact vecOp_keep _ _ _ _ _ _ hm res e
theorem execVand_keep (d : BitVec 7) (a : BitVec 7) (b : BitVec 7) (p : Option Pfx) (s : State) (hm : s.mem.wf = true) : ∀ res, (execVand d a b p s) = .next res → res.mem.wf = true := by
  intro res e
  unfold execVand at e
  exact bitOp_keep _ _ _ _ _ _ _ _ hm res e
theorem execVor_keep (d : BitVec 7) (a : BitVec 7) (b : BitVec 7) (p : Option Pfx) (s : State) (hm : s.mem.wf = true) : ∀ res, (execVor d a b p s) = .next res → res.mem.wf = true := by
  intro res e
  unfold execVor at e
  exact bitOp_keep _ _ _ _ _ _ _ _ hm res e
theorem execVxor_keep (d : BitVec 7) (a : BitVec 7) (b : BitVec 7) (p : Option Pfx) (s : State) (hm : s.mem.wf = true) : ∀ res, (execVxor d a b p s) = .next res → res.mem.wf = true := by
  intro res e
  unfold execVxor at e
  exact bitOp_keep _ _ _ _ _ _ _ _ hm res e
theorem execVnot_keep (d : BitVec 7) (a : BitVec 7) (p : Option Pfx) (s : State) (hm : s.mem.wf = true) : ∀ res, (execVnot d a p s) = .next res → res.mem.wf = true := by
  intro res e
  unfold execVnot at e
  exact bitOp_keep _ _ _ _ _ _ _ _ hm res e
theorem execVmov_keep (d : BitVec 7) (a : BitVec 7) (p : Option Pfx) (s : State) (hm : s.mem.wf = true) : ∀ res, (execVmov d a p s) = .next res → res.mem.wf = true := by
  intro res e
  unfold execVmov at e
  exact bitOp_keep _ _ _ _ _ _ _ _ hm res e
theorem execVsel_keep (d : BitVec 7) (a : BitVec 7) (b : BitVec 7) (k : BitVec 4) (p : Option Pfx) (s : State) (hm : s.mem.wf = true) : ∀ res, (execVsel d a b k p s) = .next res → res.mem.wf = true := by
  intro res e
  unfold execVsel at e
  exact vecOp_keep _ _ _ _ _ _ hm res e
theorem execVcvt_keep (d a : BitVec 7) (u f : BitVec 5) (p : Option Pfx) (s : State) (hm : s.mem.wf = true) :
    ∀ v, execVcvt d a u f p s = .next v → v.mem.wf = true := by
  intro v e
  unfold execVcvt at e
  exact vecOp_keep _ _ _ _ _ _ hm v e

theorem execVpack_keep (d : BitVec 7) (a : BitVec 7) (b : BitVec 7) (f : BitVec 5) (p : Option Pfx) (s : State) (hm : s.mem.wf = true) : ∀ res, (execVpack d a b f p s) = .next res → res.mem.wf = true := by
  intro res e
  unfold execVpack at e
  exact issue_keep _ _ _ hm (fun c res e => by cases e; simp [hm]) res e
theorem execVunpk_keep (d a : BitVec 7) (u : BitVec 5) (i : BitVec 2) (f : BitVec 5) (p : Option Pfx) (s : State) (hm : s.mem.wf = true) :
    ∀ v, execVunpk d a u i f p s = .next v → v.mem.wf = true := by
  intro v e
  unfold execVunpk at e
  exact vecOp_keep _ _ _ _ _ _ hm v e

theorem shuffle_keep (i : Instr) (w : BitVec 3) (pz : Bool) (p : Option Pfx) (d : BitVec 7) (a : BitVec 7) (s : State) (idx : Ctx → Nat → Nat) (hm : s.mem.wf = true) : ∀ res, (shuffle i w pz p d a s idx) = .next res → res.mem.wf = true := by
  intro res e
  unfold shuffle at e
  refine issue_keep _ _ _ hm (fun c res e => ?_) res e; dsimp only at e; (repeat' split at e) <;> (first | cases e | skip) <;> simp_all
theorem execVshfl_keep (d : BitVec 7) (a : BitVec 7) (b : BitVec 7) (w : BitVec 3) (g : BitVec 1) (p : Option Pfx) (s : State) (hm : s.mem.wf = true) : ∀ res, (execVshfl d a b w g p s) = .next res → res.mem.wf = true := by
  intro res e
  unfold execVshfl at e
  exact shuffle_keep _ _ _ _ _ _ _ _ hm res e
theorem execVbcst_keep (d : BitVec 7) (a : BitVec 7) (b : BitVec 7) (w : BitVec 3) (g : BitVec 1) (p : Option Pfx) (s : State) (hm : s.mem.wf = true) : ∀ res, (execVbcst d a b w g p s) = .next res → res.mem.wf = true := by
  intro res e
  unfold execVbcst at e
  exact shuffle_keep _ _ _ _ _ _ _ _ hm res e
theorem execVballot_keep (d : BitVec 5) (a : BitVec 4) (w : BitVec 3) (p : Option Pfx) (s : State) (hm : s.mem.wf = true) : ∀ res, (execVballot d a w p s) = .next res → res.mem.wf = true := by
  intro res e
  unfold execVballot at e
  exact issue_keep _ _ _ hm (fun c res e => by cases e; simp [hm]) res e
theorem execVconf_keep (d : BitVec 4) (a : BitVec 7) (w : BitVec 3) (p : Option Pfx) (s : State) (hm : s.mem.wf = true) : ∀ res, (execVconf d a w p s) = .next res → res.mem.wf = true := by
  intro res e
  unfold execVconf at e
  exact maskOp_keep _ _ _ _ _ hm res e
theorem execWred_keep (d : BitVec 7) (a : BitVec 7) (o : BitVec 3) (w : BitVec 3) (p : Option Pfx) (s : State) (hm : s.mem.wf = true) : ∀ res, (execWred d a o w p s) = .next res → res.mem.wf = true := by
  intro res e
  unfold execWred at e
  exact issue_keep _ _ _ hm (fun c res e => by cases e; simp [hm]) res e
theorem execWscan_keep (d : BitVec 7) (a : BitVec 7) (o : BitVec 3) (e : BitVec 1) (w : BitVec 3) (p : Option Pfx) (s : State) (hm : s.mem.wf = true) : ∀ res, (execWscan d a o e w p s) = .next res → res.mem.wf = true := by
  intro res e
  unfold execWscan at e
  exact issue_keep _ _ _ hm (fun c res e => by cases e; simp [hm]) res e
theorem execHalt_keep (core : Nat) (s : State) (hm : s.mem.wf = true) : ∀ res, (execHalt core s) = .next res → res.mem.wf = true := by
  intro res e
  unfold execHalt at e
  cases e; simp [hm]
theorem execHaltComplete_keep (core : Nat) (s : State) (hm : s.mem.wf = true) : ∀ res, (execHaltComplete core s) = .next res → res.mem.wf = true := by
  intro res e
  unfold execHaltComplete at e
  (repeat' split at e) <;> cases e <;> simp_all
theorem execResume_keep (core : Nat) (s : State) (hm : s.mem.wf = true) : ∀ res, (execResume core s) = .next res → res.mem.wf = true := by
  intro res e
  unfold execResume at e
  dsimp only at e; (repeat' split at e) <;> cases e <;> simp_all
theorem execTraceEnable_keep (core : Nat) (v : DWord) (s : State) (hm : s.mem.wf = true) : ∀ res, (execTraceEnable core v s) = .next res → res.mem.wf = true := by
  intro res e
  unfold execTraceEnable at e
  dsimp only at e; (repeat' split at e) <;> cases e <;> simp_all
theorem execTraceSample_keep (core : Nat) (s : State) (hm : s.mem.wf = true) : ∀ res, (execTraceSample core s) = .next res → res.mem.wf = true := by
  intro res e
  unfold execTraceSample at e
  dsimp only at e; (repeat' split at e) <;> cases e <;> simp_all
theorem execTraceStagingDrain_keep (s : State) (hm : s.mem.wf = true) : ∀ u, execTraceStagingDrain s = .next u → u.mem.wf = true := by
  intro u e
  unfold execTraceStagingDrain at e
  rw [← Host.Outcome.next.inj e]
  exact foldl_wf State.traceDrain (fun s f h => State.traceDrain_mem s f h) (List.range 64) s hm

theorem execCausalTrialStart_keep (core : Nat) (v : DWord) (s : State) (hm : s.mem.wf = true) : ∀ res, (execCausalTrialStart core v s) = .next res → res.mem.wf = true := by
  intro res e
  unfold execCausalTrialStart at e
  (repeat' split at e) <;> cases e <;> simp_all
theorem execCausalDelay_keep (s : State) (hm : s.mem.wf = true) : ∀ res, (execCausalDelay s) = .next res → res.mem.wf = true := by
  intro res e
  unfold execCausalDelay at e
  cases e; simp [hm]
theorem execCausalTrialEnd_keep (s : State) (hm : s.mem.wf = true) : ∀ res, (execCausalTrialEnd s) = .next res → res.mem.wf = true := by
  intro res e
  unfold execCausalTrialEnd at e
  cases e; simp [hm]
theorem execDrawMeshPhase_keep (lid : Nat) (s : State) (hm : s.mem.wf = true) : ∀ res, (execDrawMeshPhase lid s) = .next res → res.mem.wf = true := by
  intro res e
  unfold execDrawMeshPhase at e
  dsimp only at e; (repeat' split at e) <;> cases e <;> simp [hm]
theorem execDrawAttributePass_keep (lid : Nat) (s : State) (hm : s.mem.wf = true) : ∀ res, (execDrawAttributePass lid s) = .next res → res.mem.wf = true := by
  intro res e
  unfold execDrawAttributePass at e
  (repeat' split at e) <;> cases e <;> first | exact hm | skip
  refine State.completeIf_mem _ _ ?_
  rw [State.updDraw_mem]
  exact foldl_wf _ (fun t va h => wf_ite _ _ _ h (State.devSeen_mem _ _ _ _ h)) _ _ (by exact hm)
theorem execDrawTileRaster_keep (lid : Nat) (tile : Nat) (s : State) (hm : s.mem.wf = true) : ∀ res, (execDrawTileRaster lid tile s) = .next res → res.mem.wf = true := by
  intro res e
  unfold execDrawTileRaster at e
  dsimp only at e; (repeat' split at e) <;> cases e <;> simp_all
theorem execGroupPlacement_keep (lid : Nat) (s : State) (hm : s.mem.wf = true) : ∀ res, (execGroupPlacement lid s) = .next res → res.mem.wf = true := by
  intro res e
  unfold execGroupPlacement at e
  (repeat' split at e) <;> cases e <;> simp_all
theorem execHostWindowRead_keep (func : Nat) (off : DWord) (n : Nat) (s : State) (hm : s.mem.wf = true) : ∀ res, (execHostWindowRead func off n s) = .next res → res.mem.wf = true := by
  intro res e
  unfold execHostWindowRead at e
  (repeat' split at e) <;> cases e <;> simp_all
theorem execHostWindowWrite_keep (func : Nat) (off : DWord) (data : List Byte) (ro : Bool) (s : State) (hm : s.mem.wf = true) :
    ∀ u, execHostWindowWrite func off data ro s = .next u → u.mem.wf = true := by
  intro u e
  unfold execHostWindowWrite at e
  split at e
  · cases e; exact hm
  · cases e
    refine State.winRecords_mem _ _ _ _ ?_
    split
    · rw [State.hostLaunch_mem]; exact hm
    · exact State.wrSpots_mem _ _ _ (State.hostFlush_mem _ hm)

theorem execHostAtomic_keep (func : Nat) (off : DWord) (op : AtomOp) (n : Nat) (x : DWord) (y : DWord) (s : State) (hm : s.mem.wf = true) : ∀ res, (execHostAtomic func off op n x y s) = .next res → res.mem.wf = true := by
  intro res e
  unfold execHostAtomic at e
  dsimp only at e; (repeat' split at e) <;> cases e <;> simp_all
theorem execPageWalkComplete_keep (ctx : Nat) (va : Nat) (s : State) (hm : s.mem.wf = true) : ∀ res, (execPageWalkComplete ctx va s) = .next res → res.mem.wf = true := by
  intro res e
  unfold execPageWalkComplete at e
  split at e
  · cases e; rw [State.tlbFill_mem, State.walkReads_mem]; exact hm
  · cases e; exact hm
theorem execInvalidate_keep (func : Nat) (v : Word) (s : State) (hm : s.mem.wf = true) : ∀ res, (execInvalidate func v s) = .next res → res.mem.wf = true := by
  intro res e
  unfold execInvalidate at e
  dsimp only at e; (repeat' split at e) <;> cases e <;> simp_all
theorem execInvalidateDone_keep (func : Nat) (s : State) (hm : s.mem.wf = true) : ∀ res, (execInvalidateDone func s) = .next res → res.mem.wf = true := by
  intro res e
  unfold execInvalidateDone at e
  (repeat' split at e) <;> cases e <;> simp_all
theorem execResolve_keep (func : Nat) (v : Word) (s : State) (hm : s.mem.wf = true) : ∀ res, (execResolve func v s) = .next res → res.mem.wf = true := by
  intro res e
  unfold execResolve at e
  (repeat' split at e) <;> cases e <;> simp_all
theorem execFbheadWrite_keep (func : Nat) (v : Word) (s : State) (hm : s.mem.wf = true) : ∀ res, (execFbheadWrite func v s) = .next res → res.mem.wf = true := by
  intro res e
  unfold execFbheadWrite at e
  (repeat' split at e) <;> cases e <;> simp_all
theorem execFunctionLevelReset_keep (func : Nat) (s : State) (hm : s.mem.wf = true) :
    ∀ u, execFunctionLevelReset func s = .next u → u.mem.wf = true := by
  intro u e
  unfold execFunctionLevelReset at e
  split at e
  · cases e; exact hm
  · extract_lets s1 s2 s3 at e
    have h1 : s1.mem.wf = true := foldl_wf _ (fun s q h => State.queueFlags_mem s _ _ _ h) _ _ hm
    have h2 : s2.mem.wf = true := by
      refine foldl_wf _ (fun t g h => ?_) _ _ h1
      split
      · exact State.abortGroup_mem _ _ _ h
      · exact h
    have h3 : s3.mem.wf = true := by
      refine foldl_wf _ (fun t g h => ?_) _ _ h2
      split
      · exact State.giveUp_mem _ _ _ h
      · exact h
    cases e; exact h3

theorem execRemoteRequest_keep (req : Remote) (s : State) (hm : s.mem.wf = true) : ∀ res, (execRemoteRequest req s) = .next res → res.mem.wf = true := by
  intro res e
  unfold execRemoteRequest at e
  dsimp only at e; (repeat' split at e) <;> cases e <;> first | exact hm | (simp [hm]; done)
theorem execFabricTimeout_keep (node : Nat) (s : State) (hm : s.mem.wf = true) :
    ∀ u, execFabricTimeout node s = .next u → u.mem.wf = true := by
  intro u e
  unfold execFabricTimeout at e
  cases e
  refine State.sweep_mem _ ?_
  refine foldl_wf _ (fun t a h => ?_) _ _ (wf_ite _ _ _ hm hm)
  refine foldl_wf _ (fun t p h => ?_) _ _ h
  exact State.unserved_mem t a p 0x80 h

theorem execHaltNoticeReceive_keep (node : Nat) (on : Bool) (v : DWord) (s : State) (hm : s.mem.wf = true) : ∀ res, (execHaltNoticeReceive node on v s) = .next res → res.mem.wf = true := by
  intro res e
  unfold execHaltNoticeReceive at e
  split at e
  · cases e; exact hm
  · rw [← Host.Outcome.next.inj e]; exact State.wrBy_mem _ _ _ _ _ hm
theorem execPageUnpin_keep (page : Nat) (s : State) (hm : s.mem.wf = true) : ∀ res, (execPageUnpin page s) = .next res → res.mem.wf = true := by
  intro res e
  unfold execPageUnpin at e
  rw [← Host.Outcome.next.inj e]
  rw [foldl_mem _ (fun t r => by rw [State.evictLine_mem, State.recall_mem])]
  exact hm
theorem rayTest_keep (i : Instr) (r : BitVec 3) (n : BitVec 6) (l : BitVec 4) (len al : Nat) (f : List Byte → Ray → List Word) (s : State)
    (hm : s.mem.wf = true) : ∀ u, rayTest i r n l len al f s = .next u → u.mem.wf = true := by
  intro u e
  unfold rayTest at e
  refine issue_keep _ _ _ hm (fun c u e => ?_) u e
  dsimp only at e
  refine State.lanewise_mem _ _ _ _ _ (by exact State.fetchNow_mem s c _ hm) (fun q xs => ?_) u e
  rw [State.pendAdd_mem]; exact State.fetchNow_mem s c _ hm

theorem execRbox_keep (r : BitVec 3) (n : BitVec 6) (l : BitVec 4) (s : State) (hm : s.mem.wf = true) : ∀ res, (execRbox r n l s) = .next res → res.mem.wf = true := by
  intro res e
  unfold execRbox at e
  exact rayTest_keep _ _ _ _ _ _ _ _ hm res e
theorem execRtri_keep (r : BitVec 3) (n : BitVec 6) (l : BitVec 4) (s : State) (hm : s.mem.wf = true) : ∀ res, (execRtri r n l s) = .next res → res.mem.wf = true := by
  intro res e
  unfold execRtri at e
  exact rayTest_keep _ _ _ _ _ _ _ _ hm res e
theorem execSramScrub_keep (obs : Scrub) (s : State) (hm : s.mem.wf = true) : ∀ res, (execSramScrub obs s) = .next res → res.mem.wf = true := by
  intro res e
  unfold execSramScrub at e
  dsimp only at e; (repeat' split at e) <;> cases e <;> simp [hm]
theorem execGddrScrub_keep (line : Nat) (obs : LineState) (s : State) (hm : s.mem.wf = true) : ∀ res, (execGddrScrub line obs s) = .next res → res.mem.wf = true := by
  intro res e
  unfold execGddrScrub at e
  dsimp only at e; (repeat' split at e) <;> cases e <;> simp [hm]
theorem execGddrRebuildComplete_keep (s : State) (hm : s.mem.wf = true) : ∀ res, (execGddrRebuildComplete s) = .next res → res.mem.wf = true := by
  intro res e
  unfold execGddrRebuildComplete at e
  (repeat' split at e) <;> cases e <;> simp_all
theorem execCoreRetirement_keep (core : Nat) (s : State) (hm : s.mem.wf = true) : ∀ res, (execCoreRetirement core s) = .next res → res.mem.wf = true := by
  intro res e
  unfold execCoreRetirement at e
  dsimp only at e; (repeat' split at e) <;> cases e <;> simp_all
theorem execSliceRetirement_keep (slice : Nat) (s : State) (hm : s.mem.wf = true) : ∀ res, (execSliceRetirement slice s) = .next res → res.mem.wf = true := by
  intro res e
  unfold execSliceRetirement at e
  cases e; simp [hm]
theorem execSpanLaneSpare_keep (port : Nat) (flit : LaneFlit) (s : State) (hm : s.mem.wf = true) : ∀ res, (execSpanLaneSpare port flit s) = .next res → res.mem.wf = true := by
  intro res e
  unfold execSpanLaneSpare at e
  dsimp only at e; (repeat' split at e) <;> cases e <;> simp [hm]
theorem execLaneRetrainComplete_keep (port : Nat) (s : State) (hm : s.mem.wf = true) : ∀ res, (execLaneRetrainComplete port s) = .next res → res.mem.wf = true := by
  intro res e
  unfold execLaneRetrainComplete at e
  cases e; simp [hm]
theorem execSpanPortDown_keep (port : Nat) (s : State) (hm : s.mem.wf = true) : ∀ res, (execSpanPortDown port s) = .next res → res.mem.wf = true := by
  intro res e
  unfold execSpanPortDown at e
  cases e; simp [hm]
theorem stored_keep (s : State) (hm : s.mem.wf = true) : ∀ res, (stored s) = .next res → res.mem.wf = true := by
  intro res e
  unfold stored at e
  cases e; simp [hm]
theorem State.writeBar0_keep (s : State) (func off : Nat) (v : DWord) (hm : s.mem.wf = true) :
    ∀ u, s.writeBar0 func off v = .next u → u.mem.wf = true := by
  intro u e
  unfold State.writeBar0 at e
  extract_lets pf upd at e
  have hp : ∀ t, t.mem.wf = true → ∀ u, pf t = .next u → u.mem.wf = true := by
    intro t ht u e
    simp only [pf, stored] at e
    cases e
    split
    · exact ht
    · exact hm
  have hu : ∀ f u, upd f = .next u → u.mem.wf = true := by
    intro f u e
    simp only [upd, stored] at e
    cases e; exact hm
  split at e
  · exact hu _ _ e
  · split at e
    · exact hp _ (by exact hm) _ e
    · exact hp _ (by exact hm) _ e
    · exact hp _ (by exact hm) _ e
    · exact hp _ (by exact hm) _ e
    · exact hu _ _ e
    · exact hu _ _ e
    · exact execFbheadWrite_keep _ _ _ hm _ e
    · exact execResolve_keep _ _ _ hm _ e
    · exact execInvalidate_keep _ _ _ hm _ e
    · exact hu _ _ e
    · exact hu _ _ e
    · exact execPreemptRequest_keep _ _ _ hm _ e
    · exact hu _ _ e
    · exact execKernelLoad_keep _ _ _ hm _ e
    · exact hp _ (by exact hm) _ e
    · cases e; exact hm

theorem State.writeBank_keep (s : State) (func : Nat) (off : Nat) (v : DWord) (pf : Bool) (hm : s.mem.wf = true) : ∀ res, (State.writeBank s func off v pf) = .next res → res.mem.wf = true := by
  intro res e
  unfold State.writeBank at e
  dsimp only at e; (repeat' split at e) <;> cases e <;> simp_all
theorem State.writeBar2_keep (s : State) (func off : Nat) (v : DWord) (hm : s.mem.wf = true) :
    ∀ u, s.writeBar2 func off v = .next u → u.mem.wf = true := by
  intro u e
  unfold State.writeBar2 at e
  split at e
  · cases e; rw [State.writeVec_mem]; exact hm
  · split at e
    · exact State.writeBank_keep _ _ _ _ _ hm _ e
    · split at e
      · cases e; exact hm
      · split at e
        · exact State.writeBank_keep _ _ _ _ _ hm _ e
        · split at e
          · cases e; simpa using hm
          · cases e; exact hm

theorem State.writeDebug_keep (s : State) (core off : Nat) (v : DWord) (hm : s.mem.wf = true) :
    ∀ u, s.writeDebug core off v = .next u → u.mem.wf = true := by
  intro u e
  unfold State.writeDebug at e
  split at e
  · split at e
    · rename_i t ev
      have ht : t.mem.wf = true := by
        split at ev
        · exact execResume_keep _ _ hm _ ev
        · cases ev; exact hm
      split at e
      · exact execHalt_keep _ _ ht _ e
      · cases e; exact ht
    · rename_i o ho
      exact absurd e (ho u)
  · split at e
    · exact execTraceEnable_keep _ _ _ hm _ e
    · split at e
      · exact execCausalTrialStart_keep _ _ _ hm _ e
      · split at e
        · cases e; exact hm
        · cases e; exact hm

theorem execRegisterWrite_keep (bar func : Nat) (off v : DWord) (s : State) (hm : s.mem.wf = true) :
    ∀ u, execRegisterWrite bar func off v s = .next u → u.mem.wf = true := by
  intro u e
  unfold execRegisterWrite at e
  extract_lets o at e
  (repeat' split at e) <;> first
    | exact execHostWindowWrite_keep _ _ _ _ _ hm _ e
    | exact execDoorbell_keep _ _ _ _ hm _ e
    | exact State.writeBar0_keep _ _ _ _ hm _ e
    | exact State.writeBar2_keep _ _ _ _ hm _ e
    | exact State.writeDebug_keep _ _ _ _ hm _ e
    | (cases e; simp [hm])

theorem scalar2_keep (i : Instr) (d : BitVec 6) (a : BitVec 6) (b : BitVec 6) (f : Word → Word → Word) (s : State) (hm : s.mem.wf = true) : ∀ res, (scalar2 i d a b f s) = .next res → res.mem.wf = true := by
  intro res e
  unfold scalar2 at e
  exact issue_keep _ _ _ hm (fun c res e => by cases e; simp [hm]) res e
theorem scalar1_keep (i : Instr) (d : BitVec 6) (a : BitVec 6) (f : Word → Word) (s : State) (hm : s.mem.wf = true) : ∀ res, (scalar1 i d a f s) = .next res → res.mem.wf = true := by
  intro res e
  unfold scalar1 at e
  exact issue_keep _ _ _ hm (fun c res e => by cases e; simp [hm]) res e
theorem execSadd_keep (d : BitVec 6) (a : BitVec 6) (b : BitVec 6) (s : State) (hm : s.mem.wf = true) : ∀ res, (execSadd d a b s) = .next res → res.mem.wf = true := by
  intro res e
  unfold execSadd at e
  exact scalar2_keep _ _ _ _ _ _ hm res e
theorem execSsub_keep (d : BitVec 6) (a : BitVec 6) (b : BitVec 6) (s : State) (hm : s.mem.wf = true) : ∀ res, (execSsub d a b s) = .next res → res.mem.wf = true := by
  intro res e
  unfold execSsub at e
  exact scalar2_keep _ _ _ _ _ _ hm res e
theorem execSmul_keep (d : BitVec 6) (a : BitVec 6) (b : BitVec 6) (s : State) (hm : s.mem.wf = true) : ∀ res, (execSmul d a b s) = .next res → res.mem.wf = true := by
  intro res e
  unfold execSmul at e
  exact scalar2_keep _ _ _ _ _ _ hm res e
theorem execSmulh_keep (d : BitVec 6) (a : BitVec 6) (b : BitVec 6) (s : State) (hm : s.mem.wf = true) : ∀ res, (execSmulh d a b s) = .next res → res.mem.wf = true := by
  intro res e
  unfold execSmulh at e
  exact scalar2_keep _ _ _ _ _ _ hm res e
theorem execSmulhN32_keep (d : BitVec 6) (a : BitVec 6) (b : BitVec 6) (s : State) (hm : s.mem.wf = true) : ∀ res, (execSmulhN32 d a b s) = .next res → res.mem.wf = true := by
  intro res e
  unfold execSmulhN32 at e
  exact scalar2_keep _ _ _ _ _ _ hm res e
theorem execSand_keep (d : BitVec 6) (a : BitVec 6) (b : BitVec 6) (s : State) (hm : s.mem.wf = true) : ∀ res, (execSand d a b s) = .next res → res.mem.wf = true := by
  intro res e
  unfold execSand at e
  exact scalar2_keep _ _ _ _ _ _ hm res e
theorem execSor_keep (d : BitVec 6) (a : BitVec 6) (b : BitVec 6) (s : State) (hm : s.mem.wf = true) : ∀ res, (execSor d a b s) = .next res → res.mem.wf = true := by
  intro res e
  unfold execSor at e
  exact scalar2_keep _ _ _ _ _ _ hm res e
theorem execSxor_keep (d : BitVec 6) (a : BitVec 6) (b : BitVec 6) (s : State) (hm : s.mem.wf = true) : ∀ res, (execSxor d a b s) = .next res → res.mem.wf = true := by
  intro res e
  unfold execSxor at e
  exact scalar2_keep _ _ _ _ _ _ hm res e
theorem execSshl_keep (d : BitVec 6) (a : BitVec 6) (b : BitVec 6) (s : State) (hm : s.mem.wf = true) : ∀ res, (execSshl d a b s) = .next res → res.mem.wf = true := by
  intro res e
  unfold execSshl at e
  exact scalar2_keep _ _ _ _ _ _ hm res e
theorem execSshr_keep (d : BitVec 6) (a : BitVec 6) (b : BitVec 6) (s : State) (hm : s.mem.wf = true) : ∀ res, (execSshr d a b s) = .next res → res.mem.wf = true := by
  intro res e
  unfold execSshr at e
  exact scalar2_keep _ _ _ _ _ _ hm res e
theorem execSsra_keep (d : BitVec 6) (a : BitVec 6) (b : BitVec 6) (s : State) (hm : s.mem.wf = true) : ∀ res, (execSsra d a b s) = .next res → res.mem.wf = true := by
  intro res e
  unfold execSsra at e
  exact scalar2_keep _ _ _ _ _ _ hm res e
theorem execSmin_keep (d : BitVec 6) (a : BitVec 6) (b : BitVec 6) (s : State) (hm : s.mem.wf = true) : ∀ res, (execSmin d a b s) = .next res → res.mem.wf = true := by
  intro res e
  unfold execSmin at e
  exact scalar2_keep _ _ _ _ _ _ hm res e
theorem execSminN32_keep (d : BitVec 6) (a : BitVec 6) (b : BitVec 6) (s : State) (hm : s.mem.wf = true) : ∀ res, (execSminN32 d a b s) = .next res → res.mem.wf = true := by
  intro res e
  unfold execSminN32 at e
  exact scalar2_keep _ _ _ _ _ _ hm res e
theorem execSmax_keep (d : BitVec 6) (a : BitVec 6) (b : BitVec 6) (s : State) (hm : s.mem.wf = true) : ∀ res, (execSmax d a b s) = .next res → res.mem.wf = true := by
  intro res e
  unfold execSmax at e
  exact scalar2_keep _ _ _ _ _ _ hm res e
theorem execSmaxN32_keep (d : BitVec 6) (a : BitVec 6) (b : BitVec 6) (s : State) (hm : s.mem.wf = true) : ∀ res, (execSmaxN32 d a b s) = .next res → res.mem.wf = true := by
  intro res e
  unfold execSmaxN32 at e
  exact scalar2_keep _ _ _ _ _ _ hm res e
theorem execScmpEq_keep (d : BitVec 6) (a : BitVec 6) (b : BitVec 6) (s : State) (hm : s.mem.wf = true) : ∀ res, (execScmpEq d a b s) = .next res → res.mem.wf = true := by
  intro res e
  unfold execScmpEq at e
  exact scalar2_keep _ _ _ _ _ _ hm res e
theorem execScmpNe_keep (d : BitVec 6) (a : BitVec 6) (b : BitVec 6) (s : State) (hm : s.mem.wf = true) : ∀ res, (execScmpNe d a b s) = .next res → res.mem.wf = true := by
  intro res e
  unfold execScmpNe at e
  exact scalar2_keep _ _ _ _ _ _ hm res e
theorem execScmpLt_keep (d : BitVec 6) (a : BitVec 6) (b : BitVec 6) (s : State) (hm : s.mem.wf = true) : ∀ res, (execScmpLt d a b s) = .next res → res.mem.wf = true := by
  intro res e
  unfold execScmpLt at e
  exact scalar2_keep _ _ _ _ _ _ hm res e
theorem execScmpLe_keep (d : BitVec 6) (a : BitVec 6) (b : BitVec 6) (s : State) (hm : s.mem.wf = true) : ∀ res, (execScmpLe d a b s) = .next res → res.mem.wf = true := by
  intro res e
  unfold execScmpLe at e
  exact scalar2_keep _ _ _ _ _ _ hm res e
theorem execScmpLtN32_keep (d : BitVec 6) (a : BitVec 6) (b : BitVec 6) (s : State) (hm : s.mem.wf = true) : ∀ res, (execScmpLtN32 d a b s) = .next res → res.mem.wf = true := by
  intro res e
  unfold execScmpLtN32 at e
  exact scalar2_keep _ _ _ _ _ _ hm res e
theorem execScmpLeN32_keep (d : BitVec 6) (a : BitVec 6) (b : BitVec 6) (s : State) (hm : s.mem.wf = true) : ∀ res, (execScmpLeN32 d a b s) = .next res → res.mem.wf = true := by
  intro res e
  unfold execScmpLeN32 at e
  exact scalar2_keep _ _ _ _ _ _ hm res e
theorem execSmov_keep (d : BitVec 6) (a : BitVec 6) (s : State) (hm : s.mem.wf = true) : ∀ res, (execSmov d a s) = .next res → res.mem.wf = true := by
  intro res e
  unfold execSmov at e
  exact scalar1_keep _ _ _ _ _ hm res e
theorem execSsel_keep (d : BitVec 6) (a : BitVec 6) (b : BitVec 6) (s : State) (hm : s.mem.wf = true) : ∀ res, (execSsel d a b s) = .next res → res.mem.wf = true := by
  intro res e
  unfold execSsel at e
  exact issue_keep _ _ _ hm (fun c res e => by cases e; simp [hm]) res e
theorem execSshlImm_keep (d : BitVec 6) (a : BitVec 6) (n : BitVec 5) (s : State) (hm : s.mem.wf = true) : ∀ res, (execSshlImm d a n s) = .next res → res.mem.wf = true := by
  intro res e
  unfold execSshlImm at e
  exact scalar1_keep _ _ _ _ _ hm res e
theorem execSshrImm_keep (d : BitVec 6) (a : BitVec 6) (n : BitVec 5) (s : State) (hm : s.mem.wf = true) : ∀ res, (execSshrImm d a n s) = .next res → res.mem.wf = true := by
  intro res e
  unfold execSshrImm at e
  exact scalar1_keep _ _ _ _ _ hm res e
theorem execSsraImm_keep (d : BitVec 6) (a : BitVec 6) (n : BitVec 5) (s : State) (hm : s.mem.wf = true) : ∀ res, (execSsraImm d a n s) = .next res → res.mem.wf = true := by
  intro res e
  unfold execSsraImm at e
  exact scalar1_keep _ _ _ _ _ hm res e
theorem execSaddB64_keep (d : BitVec 5) (a : BitVec 5) (b : BitVec 5) (s : State) (hm : s.mem.wf = true) : ∀ res, (execSaddB64 d a b s) = .next res → res.mem.wf = true := by
  intro res e
  unfold execSaddB64 at e
  exact issue_keep _ _ _ hm (fun c res e => by cases e; simp [hm]) res e
theorem execSsubB64_keep (d : BitVec 5) (a : BitVec 5) (b : BitVec 5) (s : State) (hm : s.mem.wf = true) : ∀ res, (execSsubB64 d a b s) = .next res → res.mem.wf = true := by
  intro res e
  unfold execSsubB64 at e
  exact issue_keep _ _ _ hm (fun c res e => by cases e; simp [hm]) res e
theorem execSmovB64_keep (d : BitVec 5) (a : BitVec 5) (s : State) (hm : s.mem.wf = true) : ∀ res, (execSmovB64 d a s) = .next res → res.mem.wf = true := by
  intro res e
  unfold execSmovB64 at e
  exact issue_keep _ _ _ hm (fun c res e => by cases e; simp [hm]) res e
theorem execSaddImm_keep (d : BitVec 6) (a : BitVec 6) (o : BitVec 12) (h : Option (BitVec 24)) (s : State) (hm : s.mem.wf = true) : ∀ res, (execSaddImm d a o h s) = .next res → res.mem.wf = true := by
  intro res e
  unfold execSaddImm at e
  exact scalar1_keep _ _ _ _ _ hm res e
theorem execSandImm_keep (d : BitVec 6) (a : BitVec 6) (o : BitVec 12) (h : Option (BitVec 24)) (s : State) (hm : s.mem.wf = true) : ∀ res, (execSandImm d a o h s) = .next res → res.mem.wf = true := by
  intro res e
  unfold execSandImm at e
  exact scalar1_keep _ _ _ _ _ hm res e
theorem execSorImm_keep (d : BitVec 6) (a : BitVec 6) (o : BitVec 12) (h : Option (BitVec 24)) (s : State) (hm : s.mem.wf = true) : ∀ res, (execSorImm d a o h s) = .next res → res.mem.wf = true := by
  intro res e
  unfold execSorImm at e
  exact scalar1_keep _ _ _ _ _ hm res e
theorem execSxorImm_keep (d : BitVec 6) (a : BitVec 6) (o : BitVec 12) (h : Option (BitVec 24)) (s : State) (hm : s.mem.wf = true) : ∀ res, (execSxorImm d a o h s) = .next res → res.mem.wf = true := by
  intro res e
  unfold execSxorImm at e
  exact scalar1_keep _ _ _ _ _ hm res e
theorem execSli_keep (d : BitVec 6) (o : BitVec 12) (h : Option (BitVec 24)) (s : State) (hm : s.mem.wf = true) : ∀ res, (execSli d o h s) = .next res → res.mem.wf = true := by
  intro res e
  unfold execSli at e
  exact issue_keep _ _ _ hm (fun c res e => by cases e; simp [hm]) res e
theorem mask2_keep (i : Instr) (d : BitVec 4) (a : BitVec 4) (b : BitVec 4) (f : Lanes → Lanes → Lanes) (s : State) (hm : s.mem.wf = true) : ∀ res, (mask2 i d a b f s) = .next res → res.mem.wf = true := by
  intro res e
  unfold mask2 at e
  exact issue_keep _ _ _ hm (fun c res e => by cases e; simp [hm]) res e
theorem execMand_keep (d : BitVec 4) (a : BitVec 4) (b : BitVec 4) (s : State) (hm : s.mem.wf = true) : ∀ res, (execMand d a b s) = .next res → res.mem.wf = true := by
  intro res e
  unfold execMand at e
  exact mask2_keep _ _ _ _ _ _ hm res e
theorem execMor_keep (d : BitVec 4) (a : BitVec 4) (b : BitVec 4) (s : State) (hm : s.mem.wf = true) : ∀ res, (execMor d a b s) = .next res → res.mem.wf = true := by
  intro res e
  unfold execMor at e
  exact mask2_keep _ _ _ _ _ _ hm res e
theorem execMxor_keep (d : BitVec 4) (a : BitVec 4) (b : BitVec 4) (s : State) (hm : s.mem.wf = true) : ∀ res, (execMxor d a b s) = .next res → res.mem.wf = true := by
  intro res e
  unfold execMxor at e
  exact mask2_keep _ _ _ _ _ _ hm res e
theorem execMnot_keep (d : BitVec 4) (a : BitVec 4) (s : State) (hm : s.mem.wf = true) : ∀ res, (execMnot d a s) = .next res → res.mem.wf = true := by
  intro res e
  unfold execMnot at e
  exact issue_keep _ _ _ hm (fun c res e => by cases e; simp [hm]) res e
theorem execMmovMm_keep (d : BitVec 4) (a : BitVec 4) (s : State) (hm : s.mem.wf = true) : ∀ res, (execMmovMm d a s) = .next res → res.mem.wf = true := by
  intro res e
  unfold execMmovMm at e
  exact issue_keep _ _ _ hm (fun c res e => by cases e; simp [hm]) res e
theorem execMpopc_keep (d : BitVec 6) (a : BitVec 4) (s : State) (hm : s.mem.wf = true) : ∀ res, (execMpopc d a s) = .next res → res.mem.wf = true := by
  intro res e
  unfold execMpopc at e
  exact issue_keep _ _ _ hm (fun c res e => by cases e; simp [hm]) res e
theorem execMffs_keep (d : BitVec 6) (a : BitVec 4) (s : State) (hm : s.mem.wf = true) : ∀ res, (execMffs d a s) = .next res → res.mem.wf = true := by
  intro res e
  unfold execMffs at e
  exact issue_keep _ _ _ hm (fun c res e => by cases e; simp [hm]) res e
theorem execMmovMs_keep (d : BitVec 5) (a : BitVec 4) (s : State) (hm : s.mem.wf = true) : ∀ res, (execMmovMs d a s) = .next res → res.mem.wf = true := by
  intro res e
  unfold execMmovMs at e
  exact issue_keep _ _ _ hm (fun c res e => by cases e; simp [hm]) res e
theorem execMmovSm_keep (d : BitVec 4) (a : BitVec 5) (s : State) (hm : s.mem.wf = true) : ∀ res, (execMmovSm d a s) = .next res → res.mem.wf = true := by
  intro res e
  unfold execMmovSm at e
  exact issue_keep _ _ _ hm (fun c res e => by cases e; simp [hm]) res e
theorem execWapp_keep (a x : BitVec 7) (s : State) (hm : s.mem.wf = true) : ∀ u, execWapp a x s = .next u → u.mem.wf = true := by
  intro u e
  unfold execWapp at e
  refine issue_keep _ _ _ hm (fun c u e => ?_) u e
  extract_lets ls bad at e
  split at e
  · cases e
  · split at e
    · exact State.append_mem _ _ _ _ _ hm u e
    · cases e; simp [hm]

theorem execWappWaitEnd_keep (who : Issuer) (s : State) (hm : s.mem.wf = true) : ∀ u, execWappWaitEnd who s = .next u → u.mem.wf = true := by
  intro u e
  unfold execWappWaitEnd at e
  split at e
  · extract_lets ls at e
    split at e
    · split at e
      · rename_i ev
        cases e; exact State.append_mem _ _ _ _ _ hm _ ev
      · cases e; simp [hm]
    · cases e; exact hm
  · cases e; exact hm

theorem execWtake_keep (d : BitVec 7) (x : BitVec 6) (l : BitVec 4) (s : State) (hm : s.mem.wf = true) :
    ∀ u, execWtake d x l s = .next u → u.mem.wf = true := by
  intro u e
  unfold execWtake at e
  refine issue_keep _ _ _ hm (fun c u e => ?_) u e
  split at e
  · cases e
  · refine State.wholewise_mem _ _ _ _ _ hm (fun xs u e => ?_) u e
    cases e
    rw [State.quietCheck_mem, State.pendAdd_mem]
    have h1 := fun (ks : List Spot) (q : Req) => State.unservedAt_mem ((s.before c (fun a => a.touches (ks.map (·.key))) (ks.map (·.key))).readLines q c.w.core .slice ks)
      c.g.ctx (some c.w.core) false ks (by rw [State.readLines_mem]; exact State.before_mem _ _ _ _ hm)
    refine wf_ite _ _ _ ?_ ?_
    · rw [State.updList_mem]; exact h1 _ _
    · rw [State.acquire_mem, State.updList_mem]; exact h1 _ _

theorem execWqui_keep (d : BitVec 6) (s : State) (hm : s.mem.wf = true) : ∀ res, (execWqui d s) = .next res → res.mem.wf = true := by
  intro res e
  unfold execWqui at e
  refine issue_keep _ _ _ hm (fun c res e => ?_) res e; (repeat' split at e) <;> (first | cases e | skip) <;> simp_all
end Sys2Proof.Machine
end

