-- ==== Sys2Proof/Laws/PerInstr.lean ====
section
/-!
SUPPORT. Per-instruction laws. Family F: the word that the encoder gives a well-formed instruction decodes, with what attaches to
it, to that instruction.
-/
namespace Sys2Proof.Laws
set_option Elab.async false

/-- Decoding undoes encoding on one instruction. -/
def F.Statement (i : Instr) : Prop :=
  i.encoded = true → WellFormed i = true → decodeWord (encodeWord i) (attachOf i) = some i

theorem bits_hi {m n : Nat} (x : BitVec m) (y : BitVec n) (lo w : Nat) (h : n ≤ lo := by decide) :
    bits (x ++ y) lo w = bits x (lo - n) w := by
  apply BitVec.eq_of_getLsbD_eq
  intro i hi
  simp only [BitVec.getLsbD_extractLsb', BitVec.getLsbD_append, hi, decide_true, Bool.true_and]
  rw [if_neg (by omega)]
  congr 1; omega
theorem bits_lo {m n : Nat} (x : BitVec m) (y : BitVec n) (lo w : Nat) (h : lo + w ≤ n := by decide) :
    bits (x ++ y) lo w = bits y lo w := by
  apply BitVec.eq_of_getLsbD_eq
  intro i hi
  simp only [BitVec.getLsbD_extractLsb', BitVec.getLsbD_append, hi, decide_true, Bool.true_and]
  rw [if_pos (by omega)]
theorem bits_all {m : Nat} (x : BitVec m) : bits x 0 m = x := BitVec.extractLsb'_eq_self
theorem and_app {m n : Nat} (x : BitVec m) (y : BitVec n) (c : BitVec (m + n)) :
    (x ++ y) &&& c = (x &&& c.extractLsb' n m) ++ (y &&& c.extractLsb' 0 n) := by
  apply BitVec.eq_of_getLsbD_eq
  intro i hi
  simp only [BitVec.getLsbD_and, BitVec.getLsbD_append, BitVec.getLsbD_extractLsb']
  split
  · simp_all
  · rename_i h
    have : i - n < m := by omega
    simp [this, show n + (i - n) = i by omega]
theorem bits_mid {m p q : Nat} (x : BitVec m) (y : BitVec p) (z : BitVec q) : bits (x ++ y ++ z) 0 (p + q) = y ++ z := by
  apply BitVec.eq_of_getLsbD_eq
  intro i hi
  simp only [BitVec.getLsbD_extractLsb', BitVec.getLsbD_append, hi, decide_true, Bool.true_and, Nat.zero_add]
  split
  · rfl
  · rw [if_pos (by omega)]
theorem bv1_cases (x : BitVec 1) : x = 0#1 ∨ x = 1#1 := by decide +revert
theorem bv2_cases (x : BitVec 2) : x = 0#2 ∨ x = 1#2 ∨ x = 2#2 ∨ x = 3#2 := by decide +revert
theorem bv3_cases (x : BitVec 3) : x = 0#3 ∨ x = 1#3 ∨ x = 2#3 ∨ x = 3#3 ∨ x = 4#3 ∨ x = 5#3 ∨ x = 6#3 ∨ x = 7#3 := by decide +revert
theorem bv4_cases (x : BitVec 4) : x = 0#4 ∨ x = 1#4 ∨ x = 2#4 ∨ x = 3#4 ∨ x = 4#4 ∨ x = 5#4 ∨ x = 6#4 ∨ x = 7#4 ∨ x = 8#4 ∨ x = 9#4 ∨ x = 10#4 ∨ x = 11#4 ∨ x = 12#4 ∨ x = 13#4 ∨ x = 14#4 ∨ x = 15#4 := by decide +revert

theorem F.ret (a : BitVec 6) : F.Statement (.ret a) := by
  intro _ _
  change decodeWord (0x4200#20 ++ a ++ 0x0#6) _ = _
  generalize hw : (0x4200#20 ++ a ++ 0x0#6   : Word) = wd
  have h1 : bits wd 26 6 = 1#6 := hw ▸ ((bits_hi _ _ 26 6).trans ((bits_hi _ _ 20 6).trans (by rfl)))
  have h2 : bits wd 20 6 = 2#6 := hw ▸ ((bits_hi _ _ 20 6).trans ((bits_hi _ _ 14 6).trans (by rfl)))
  have f0 : bits wd 6 6 = a := hw ▸ ((bits_hi _ _ 6 6).trans ((bits_lo _ _ 0 6).trans (bits_all _)))
  have m0 : wd &&& 0xfffff03f#32 = 0x04200000#32 := by rw [← hw, and_app, and_app]; simp
  clear hw
  rw [decodeWord, h1]; change decodeMajor01 _ _ = _; rw [decodeMajor01, h2]; change (if _ then _ else _) = _
  rw [if_pos m0, f0]

theorem F.trap (c : BitVec 14) : F.Statement (.trap c) := by
  intro _ _
  change decodeWord (0x45#12 ++ c ++ 0x0#6) _ = _
  generalize hw : (0x45#12 ++ c ++ 0x0#6   : Word) = wd
  have h1 : bits wd 26 6 = 1#6 := hw ▸ ((bits_hi _ _ 26 6).trans ((bits_hi _ _ 20 6).trans (by rfl)))
  have h2 : bits wd 20 6 = 5#6 := hw ▸ ((bits_hi _ _ 20 6).trans ((bits_hi _ _ 14 6).trans (by rfl)))
  have f0 : bits wd 6 14 = c := hw ▸ ((bits_hi _ _ 6 14).trans ((bits_lo _ _ 0 14).trans (bits_all _)))
  have m0 : wd &&& 0xfff0003f#32 = 0x04500000#32 := by rw [← hw, and_app, and_app]; simp
  clear hw
  rw [decodeWord, h1]; change decodeMajor01 _ _ = _; rw [decodeMajor01, h2]; change (if _ then _ else _) = _
  rw [if_pos m0, f0]

theorem F.srd (d : BitVec 7) (n : BitVec 13) : F.Statement (.srd d n) := by
  intro _ _
  change decodeWord (0x47#12 ++ d ++ n) _ = _
  generalize hw : (0x47#12 ++ d ++ n   : Word) = wd
  have h1 : bits wd 26 6 = 1#6 := hw ▸ ((bits_hi _ _ 26 6).trans ((bits_hi _ _ 13 6).trans (by rfl)))
  have h2 : bits wd 20 6 = 7#6 := hw ▸ ((bits_hi _ _ 20 6).trans ((bits_hi _ _ 7 6).trans (by rfl)))
  have f0 : bits wd 13 7 = d := hw ▸ ((bits_hi _ _ 13 7).trans ((bits_lo _ _ 0 7).trans (bits_all _)))
  have f1 : bits wd 0 13 = n := hw ▸ ((bits_lo _ _ 0 13).trans (bits_all _))
  have m0 : wd &&& 0xfff00000#32 = 0x04700000#32 := by rw [← hw, and_app, and_app]; simp
  clear hw
  rw [decodeWord, h1]; change decodeMajor01 _ _ = _; rw [decodeMajor01, h2]; change (if _ then _ else _) = _
  rw [if_pos m0, f0, f1]

theorem F.swr (a : BitVec 7) (n : BitVec 13) : F.Statement (.swr a n) := by
  intro _ _
  change decodeWord (0x48#12 ++ a ++ n) _ = _
  generalize hw : (0x48#12 ++ a ++ n   : Word) = wd
  have h1 : bits wd 26 6 = 1#6 := hw ▸ ((bits_hi _ _ 26 6).trans ((bits_hi _ _ 13 6).trans (by rfl)))
  have h2 : bits wd 20 6 = 8#6 := hw ▸ ((bits_hi _ _ 20 6).trans ((bits_hi _ _ 7 6).trans (by rfl)))
  have f0 : bits wd 13 7 = a := hw ▸ ((bits_hi _ _ 13 7).trans ((bits_lo _ _ 0 7).trans (bits_all _)))
  have f1 : bits wd 0 13 = n := hw ▸ ((bits_lo _ _ 0 13).trans (bits_all _))
  have m0 : wd &&& 0xfff00000#32 = 0x04800000#32 := by rw [← hw, and_app, and_app]; simp
  clear hw
  rw [decodeWord, h1]; change decodeMajor01 _ _ = _; rw [decodeMajor01, h2]; change (if _ then _ else _) = _
  rw [if_pos m0, f0, f1]

theorem F.splrd (d : BitVec 5) (e : BitVec 4) (w : BitVec 2) : F.Statement (.splrd d e w) := by
  intro _ _
  change decodeWord (0x92#13 ++ d ++ 0x0#8 ++ e ++ w) _ = _
  generalize hw : (0x92#13 ++ d ++ 0x0#8 ++ e ++ w   : Word) = wd
  have h1 : bits wd 26 6 = 1#6 := hw ▸ ((bits_hi _ _ 26 6).trans ((bits_hi _ _ 24 6).trans ((bits_hi _ _ 20 6).trans ((bits_hi _ _ 12 6).trans (by rfl)))))
  have h2 : bits wd 20 6 = 9#6 := hw ▸ ((bits_hi _ _ 20 6).trans ((bits_hi _ _ 18 6).trans ((bits_hi _ _ 14 6).trans ((bits_hi _ _ 6 6).trans (by rfl)))))
  have f0 : bits wd 14 5 = d := hw ▸ ((bits_hi _ _ 14 5).trans ((bits_hi _ _ 12 5).trans ((bits_hi _ _ 8 5).trans ((bits_lo _ _ 0 5).trans (bits_all _)))))
  have f1 : bits wd 2 4 = e := hw ▸ ((bits_hi _ _ 2 4).trans ((bits_lo _ _ 0 4).trans (bits_all _)))
  have f2 : bits wd 0 2 = w := hw ▸ ((bits_lo _ _ 0 2).trans (bits_all _))
  have m0 : wd &&& 0xfff83fc0#32 = 0x04900000#32 := by rw [← hw, and_app, and_app, and_app, and_app]; simp
  clear hw
  rw [decodeWord, h1]; change decodeMajor01 _ _ = _; rw [decodeMajor01, h2]; change (if _ then _ else _) = _
  rw [if_pos m0, f0, f1, f2]

theorem F.splwr (a : BitVec 5) (e : BitVec 4) (w : BitVec 2) : F.Statement (.splwr a e w) := by
  intro _ _
  change decodeWord (0x94#13 ++ a ++ 0x0#8 ++ e ++ w) _ = _
  generalize hw : (0x94#13 ++ a ++ 0x0#8 ++ e ++ w   : Word) = wd
  have h1 : bits wd 26 6 = 1#6 := hw ▸ ((bits_hi _ _ 26 6).trans ((bits_hi _ _ 24 6).trans ((bits_hi _ _ 20 6).trans ((bits_hi _ _ 12 6).trans (by rfl)))))
  have h2 : bits wd 20 6 = 10#6 := hw ▸ ((bits_hi _ _ 20 6).trans ((bits_hi _ _ 18 6).trans ((bits_hi _ _ 14 6).trans ((bits_hi _ _ 6 6).trans (by rfl)))))
  have f0 : bits wd 14 5 = a := hw ▸ ((bits_hi _ _ 14 5).trans ((bits_hi _ _ 12 5).trans ((bits_hi _ _ 8 5).trans ((bits_lo _ _ 0 5).trans (bits_all _)))))
  have f1 : bits wd 2 4 = e := hw ▸ ((bits_hi _ _ 2 4).trans ((bits_lo _ _ 0 4).trans (bits_all _)))
  have f2 : bits wd 0 2 = w := hw ▸ ((bits_lo _ _ 0 2).trans (bits_all _))
  have m0 : wd &&& 0xfff83fc0#32 = 0x04a00000#32 := by rw [← hw, and_app, and_app, and_app, and_app]; simp
  clear hw
  rw [decodeWord, h1]; change decodeMajor01 _ _ = _; rw [decodeMajor01, h2]; change (if _ then _ else _) = _
  rw [if_pos m0, f0, f1, f2]

theorem F.cfetch (a : BitVec 5) (s : BitVec 7) : F.Statement (.cfetch a s) := by
  intro _ _
  change decodeWord (0x96#13 ++ a ++ 0x0#1 ++ s ++ 0x0#6) _ = _
  generalize hw : (0x96#13 ++ a ++ 0x0#1 ++ s ++ 0x0#6   : Word) = wd
  have h1 : bits wd 26 6 = 1#6 := hw ▸ ((bits_hi _ _ 26 6).trans ((bits_hi _ _ 20 6).trans ((bits_hi _ _ 13 6).trans ((bits_hi _ _ 12 6).trans (by rfl)))))
  have h2 : bits wd 20 6 = 11#6 := hw ▸ ((bits_hi _ _ 20 6).trans ((bits_hi _ _ 14 6).trans ((bits_hi _ _ 7 6).trans ((bits_hi _ _ 6 6).trans (by rfl)))))
  have f0 : bits wd 14 5 = a := hw ▸ ((bits_hi _ _ 14 5).trans ((bits_hi _ _ 8 5).trans ((bits_hi _ _ 1 5).trans ((bits_lo _ _ 0 5).trans (bits_all _)))))
  have f1 : bits wd 6 7 = s := hw ▸ ((bits_hi _ _ 6 7).trans ((bits_lo _ _ 0 7).trans (bits_all _)))
  have m0 : wd &&& 0xfff8203f#32 = 0x04b00000#32 := by rw [← hw, and_app, and_app, and_app, and_app]; simp
  clear hw
  rw [decodeWord, h1]; change decodeMajor01 _ _ = _; rw [decodeMajor01, h2]; change (if _ then _ else _) = _
  rw [if_pos m0, f0, f1]

theorem F.cwait (s : BitVec 7) : F.Statement (.cwait s) := by
  intro _ _
  change decodeWord (0x2600#19 ++ s ++ 0x0#6) _ = _
  generalize hw : (0x2600#19 ++ s ++ 0x0#6   : Word) = wd
  have h1 : bits wd 26 6 = 1#6 := hw ▸ ((bits_hi _ _ 26 6).trans ((bits_hi _ _ 20 6).trans (by rfl)))
  have h2 : bits wd 20 6 = 12#6 := hw ▸ ((bits_hi _ _ 20 6).trans ((bits_hi _ _ 14 6).trans (by rfl)))
  have f0 : bits wd 6 7 = s := hw ▸ ((bits_hi _ _ 6 7).trans ((bits_lo _ _ 0 7).trans (bits_all _)))
  have m0 : wd &&& 0xffffe03f#32 = 0x04c00000#32 := by rw [← hw, and_app, and_app]; simp
  clear hw
  rw [decodeWord, h1]; change decodeMajor01 _ _ = _; rw [decodeMajor01, h2]; change (if _ then _ else _) = _
  rw [if_pos m0, f0]

theorem F.rgnEnter (i : BitVec 14) : F.Statement (.rgnEnter i) := by
  intro _ _
  change decodeWord (0x4d#12 ++ i ++ 0x1#6) _ = _
  generalize hw : (0x4d#12 ++ i ++ 0x1#6   : Word) = wd
  have h1 : bits wd 26 6 = 1#6 := hw ▸ ((bits_hi _ _ 26 6).trans ((bits_hi _ _ 20 6).trans (by rfl)))
  have h2 : bits wd 20 6 = 13#6 := hw ▸ ((bits_hi _ _ 20 6).trans ((bits_hi _ _ 14 6).trans (by rfl)))
  have f0 : bits wd 6 14 = i := hw ▸ ((bits_hi _ _ 6 14).trans ((bits_lo _ _ 0 14).trans (bits_all _)))
  have m0 : wd &&& 0xfff0003f#32 = 0x04d00001#32 := by rw [← hw, and_app, and_app]; simp
  clear hw
  rw [decodeWord, h1]; change decodeMajor01 _ _ = _; rw [decodeMajor01, h2]; change (if _ then _ else _) = _
  rw [if_pos m0, f0]

theorem F.rgnLeave (i : BitVec 14) : F.Statement (.rgnLeave i) := by
  intro _ _
  change decodeWord (0x4d#12 ++ i ++ 0x0#6) _ = _
  generalize hw : (0x4d#12 ++ i ++ 0x0#6   : Word) = wd
  have h1 : bits wd 26 6 = 1#6 := hw ▸ ((bits_hi _ _ 26 6).trans ((bits_hi _ _ 20 6).trans (by rfl)))
  have h2 : bits wd 20 6 = 13#6 := hw ▸ ((bits_hi _ _ 20 6).trans ((bits_hi _ _ 14 6).trans (by rfl)))
  have f0 : bits wd 6 14 = i := hw ▸ ((bits_hi _ _ 6 14).trans ((bits_lo _ _ 0 14).trans (bits_all _)))
  have m0 : wd &&& 0xfff0003f#32 = 0x04d00000#32 := by rw [← hw, and_app, and_app]; simp
  clear hw
  rw [decodeWord, h1]; change decodeMajor01 _ _ = _; rw [decodeMajor01, h2]; change (if _ then _ else _) = _
  rw [if_neg (by rw [m0]; decide), if_pos m0, f0]

theorem F.prog (i : BitVec 14) : F.Statement (.prog i) := by
  intro _ _
  change decodeWord (0x4e#12 ++ i ++ 0x0#6) _ = _
  generalize hw : (0x4e#12 ++ i ++ 0x0#6   : Word) = wd
  have h1 : bits wd 26 6 = 1#6 := hw ▸ ((bits_hi _ _ 26 6).trans ((bits_hi _ _ 20 6).trans (by rfl)))
  have h2 : bits wd 20 6 = 14#6 := hw ▸ ((bits_hi _ _ 20 6).trans ((bits_hi _ _ 14 6).trans (by rfl)))
  have f0 : bits wd 6 14 = i := hw ▸ ((bits_hi _ _ 6 14).trans ((bits_lo _ _ 0 14).trans (bits_all _)))
  have m0 : wd &&& 0xfff0003f#32 = 0x04e00000#32 := by rw [← hw, and_app, and_app]; simp
  clear hw
  rw [decodeWord, h1]; change decodeMajor01 _ _ = _; rw [decodeMajor01, h2]; change (if _ then _ else _) = _
  rw [if_pos m0, f0]

theorem F.bkpt (c : BitVec 14) : F.Statement (.bkpt c) := by
  intro _ _
  change decodeWord (0x4f#12 ++ c ++ 0x0#6) _ = _
  generalize hw : (0x4f#12 ++ c ++ 0x0#6   : Word) = wd
  have h1 : bits wd 26 6 = 1#6 := hw ▸ ((bits_hi _ _ 26 6).trans ((bits_hi _ _ 20 6).trans (by rfl)))
  have h2 : bits wd 20 6 = 15#6 := hw ▸ ((bits_hi _ _ 20 6).trans ((bits_hi _ _ 14 6).trans (by rfl)))
  have f0 : bits wd 6 14 = c := hw ▸ ((bits_hi _ _ 6 14).trans ((bits_lo _ _ 0 14).trans (bits_all _)))
  have m0 : wd &&& 0xfff0003f#32 = 0x04f00000#32 := by rw [← hw, and_app, and_app]; simp
  clear hw
  rw [decodeWord, h1]; change decodeMajor01 _ _ = _; rw [decodeMajor01, h2]; change (if _ then _ else _) = _
  rw [if_pos m0, f0]

theorem F.sleep (a : BitVec 6) : F.Statement (.sleep a) := by
  intro _ _
  change decodeWord (0xa0#13 ++ a ++ 0x0#13) _ = _
  generalize hw : (0xa0#13 ++ a ++ 0x0#13   : Word) = wd
  have h1 : bits wd 26 6 = 1#6 := hw ▸ ((bits_hi _ _ 26 6).trans ((bits_hi _ _ 13 6).trans (by rfl)))
  have h2 : bits wd 20 6 = 16#6 := hw ▸ ((bits_hi _ _ 20 6).trans ((bits_hi _ _ 7 6).trans (by rfl)))
  have f0 : bits wd 13 6 = a := hw ▸ ((bits_hi _ _ 13 6).trans ((bits_lo _ _ 0 6).trans (bits_all _)))
  have m0 : wd &&& 0xfff81fff#32 = 0x05000000#32 := by rw [← hw, and_app, and_app]; simp
  clear hw
  rw [decodeWord, h1]; change decodeMajor01 _ _ = _; rw [decodeMajor01, h2]; change (if _ then _ else _) = _
  rw [if_pos m0, f0]

theorem F.evsig (a : BitVec 6) (q : BitVec 4) : F.Statement (.evsig a q) := by
  intro _ _
  change decodeWord (0xa2#13 ++ a ++ 0x0#3 ++ q ++ 0x0#6) _ = _
  generalize hw : (0xa2#13 ++ a ++ 0x0#3 ++ q ++ 0x0#6   : Word) = wd
  have h1 : bits wd 26 6 = 1#6 := hw ▸ ((bits_hi _ _ 26 6).trans ((bits_hi _ _ 20 6).trans ((bits_hi _ _ 16 6).trans ((bits_hi _ _ 13 6).trans (by rfl)))))
  have h2 : bits wd 20 6 = 17#6 := hw ▸ ((bits_hi _ _ 20 6).trans ((bits_hi _ _ 14 6).trans ((bits_hi _ _ 10 6).trans ((bits_hi _ _ 7 6).trans (by rfl)))))
  have f0 : bits wd 13 6 = a := hw ▸ ((bits_hi _ _ 13 6).trans ((bits_hi _ _ 7 6).trans ((bits_hi _ _ 3 6).trans ((bits_lo _ _ 0 6).trans (bits_all _)))))
  have f1 : bits wd 6 4 = q := hw ▸ ((bits_hi _ _ 6 4).trans ((bits_lo _ _ 0 4).trans (bits_all _)))
  have m0 : wd &&& 0xfff81c3f#32 = 0x05100000#32 := by rw [← hw, and_app, and_app, and_app, and_app]; simp
  clear hw
  rw [decodeWord, h1]; change decodeMajor01 _ _ = _; rw [decodeMajor01, h2]; change (if _ then _ else _) = _
  rw [if_pos m0, f0, f1]

theorem F.fence (k : BitVec 4) (s : BitVec 3) : F.Statement (.fence k s) := by
  intro _ _
  change decodeWord (0x52#12 ++ k ++ 0x0#13 ++ s) _ = _
  generalize hw : (0x52#12 ++ k ++ 0x0#13 ++ s   : Word) = wd
  have h1 : bits wd 26 6 = 1#6 := hw ▸ ((bits_hi _ _ 26 6).trans ((bits_hi _ _ 23 6).trans ((bits_hi _ _ 10 6).trans (by rfl))))
  have h2 : bits wd 20 6 = 18#6 := hw ▸ ((bits_hi _ _ 20 6).trans ((bits_hi _ _ 17 6).trans ((bits_hi _ _ 4 6).trans (by rfl))))
  have f0 : bits wd 16 4 = k := hw ▸ ((bits_hi _ _ 16 4).trans ((bits_hi _ _ 13 4).trans ((bits_lo _ _ 0 4).trans (bits_all _))))
  have f1 : bits wd 0 3 = s := hw ▸ ((bits_lo _ _ 0 3).trans (bits_all _))
  have m0 : wd &&& 0xfff0fff8#32 = 0x05200000#32 := by rw [← hw, and_app, and_app, and_app]; simp
  clear hw
  rw [decodeWord, h1]; change decodeMajor01 _ _ = _; rw [decodeMajor01, h2]; change (if _ then _ else _) = _
  rw [if_pos m0, f0, f1]

theorem F.bar (b : BitVec 5) : F.Statement (.bar b) := by
  intro _ _
  change decodeWord (0xa600#21 ++ b ++ 0x0#6) _ = _
  generalize hw : (0xa600#21 ++ b ++ 0x0#6   : Word) = wd
  have h1 : bits wd 26 6 = 1#6 := hw ▸ ((bits_hi _ _ 26 6).trans ((bits_hi _ _ 20 6).trans (by rfl)))
  have h2 : bits wd 20 6 = 19#6 := hw ▸ ((bits_hi _ _ 20 6).trans ((bits_hi _ _ 14 6).trans (by rfl)))
  have f0 : bits wd 6 5 = b := hw ▸ ((bits_hi _ _ 6 5).trans ((bits_lo _ _ 0 5).trans (bits_all _)))
  have m0 : wd &&& 0xfffff83f#32 = 0x05300000#32 := by rw [← hw, and_app, and_app]; simp
  clear hw
  rw [decodeWord, h1]; change decodeMajor01 _ _ = _; rw [decodeMajor01, h2]; change (if _ then _ else _) = _
  rw [if_pos m0, f0]

theorem F.barx (a : BitVec 6) (b : BitVec 5) : F.Statement (.barx a b) := by
  intro _ _
  change decodeWord (0xa8#13 ++ a ++ 0x0#2 ++ b ++ 0x0#6) _ = _
  generalize hw : (0xa8#13 ++ a ++ 0x0#2 ++ b ++ 0x0#6   : Word) = wd
  have h1 : bits wd 26 6 = 1#6 := hw ▸ ((bits_hi _ _ 26 6).trans ((bits_hi _ _ 20 6).trans ((bits_hi _ _ 15 6).trans ((bits_hi _ _ 13 6).trans (by rfl)))))
  have h2 : bits wd 20 6 = 20#6 := hw ▸ ((bits_hi _ _ 20 6).trans ((bits_hi _ _ 14 6).trans ((bits_hi _ _ 9 6).trans ((bits_hi _ _ 7 6).trans (by rfl)))))
  have f0 : bits wd 13 6 = a := hw ▸ ((bits_hi _ _ 13 6).trans ((bits_hi _ _ 7 6).trans ((bits_hi _ _ 2 6).trans ((bits_lo _ _ 0 6).trans (bits_all _)))))
  have f1 : bits wd 6 5 = b := hw ▸ ((bits_hi _ _ 6 5).trans ((bits_lo _ _ 0 5).trans (bits_all _)))
  have m0 : wd &&& 0xfff8183f#32 = 0x05400000#32 := by rw [← hw, and_app, and_app, and_app, and_app]; simp
  clear hw
  rw [decodeWord, h1]; change decodeMajor01 _ _ = _; rw [decodeMajor01, h2]; change (if _ then _ else _) = _
  rw [if_pos m0, f0, f1]

theorem F.bart (d : BitVec 6) (b : BitVec 5) : F.Statement (.bart d b) := by
  intro _ _
  change decodeWord (0xaa#13 ++ d ++ 0x0#2 ++ b ++ 0x0#6) _ = _
  generalize hw : (0xaa#13 ++ d ++ 0x0#2 ++ b ++ 0x0#6   : Word) = wd
  have h1 : bits wd 26 6 = 1#6 := hw ▸ ((bits_hi _ _ 26 6).trans ((bits_hi _ _ 20 6).trans ((bits_hi _ _ 15 6).trans ((bits_hi _ _ 13 6).trans (by rfl)))))
  have h2 : bits wd 20 6 = 21#6 := hw ▸ ((bits_hi _ _ 20 6).trans ((bits_hi _ _ 14 6).trans ((bits_hi _ _ 9 6).trans ((bits_hi _ _ 7 6).trans (by rfl)))))
  have f0 : bits wd 13 6 = d := hw ▸ ((bits_hi _ _ 13 6).trans ((bits_hi _ _ 7 6).trans ((bits_hi _ _ 2 6).trans ((bits_lo _ _ 0 6).trans (bits_all _)))))
  have f1 : bits wd 6 5 = b := hw ▸ ((bits_hi _ _ 6 5).trans ((bits_lo _ _ 0 5).trans (bits_all _)))
  have m0 : wd &&& 0xfff8183f#32 = 0x05500000#32 := by rw [← hw, and_app, and_app, and_app, and_app]; simp
  clear hw
  rw [decodeWord, h1]; change decodeMajor01 _ _ = _; rw [decodeMajor01, h2]; change (if _ then _ else _) = _
  rw [if_pos m0, f0, f1]

theorem F.cbar (k : BitVec 4) : F.Statement (.cbar k) := by
  intro _ _
  change decodeWord (0x15800#22 ++ k ++ 0x0#6) _ = _
  generalize hw : (0x15800#22 ++ k ++ 0x0#6   : Word) = wd
  have h1 : bits wd 26 6 = 1#6 := hw ▸ ((bits_hi _ _ 26 6).trans ((bits_hi _ _ 20 6).trans (by rfl)))
  have h2 : bits wd 20 6 = 22#6 := hw ▸ ((bits_hi _ _ 20 6).trans ((bits_hi _ _ 14 6).trans (by rfl)))
  have f0 : bits wd 6 4 = k := hw ▸ ((bits_hi _ _ 6 4).trans ((bits_lo _ _ 0 4).trans (bits_all _)))
  have m0 : wd &&& 0xfffffc3f#32 = 0x05600000#32 := by rw [← hw, and_app, and_app]; simp
  clear hw
  rw [decodeWord, h1]; change decodeMajor01 _ _ = _; rw [decodeMajor01, h2]; change (if _ then _ else _) = _
  rw [if_pos m0, f0]

theorem F.mon (a : BitVec 5) (n : BitVec 2) : F.Statement (.mon a n) := by
  intro _ _
  change decodeWord (0xae#13 ++ a ++ 0x0#12 ++ n) _ = _
  generalize hw : (0xae#13 ++ a ++ 0x0#12 ++ n   : Word) = wd
  have h1 : bits wd 26 6 = 1#6 := hw ▸ ((bits_hi _ _ 26 6).trans ((bits_hi _ _ 24 6).trans ((bits_hi _ _ 12 6).trans (by rfl))))
  have h2 : bits wd 20 6 = 23#6 := hw ▸ ((bits_hi _ _ 20 6).trans ((bits_hi _ _ 18 6).trans ((bits_hi _ _ 6 6).trans (by rfl))))
  have f0 : bits wd 14 5 = a := hw ▸ ((bits_hi _ _ 14 5).trans ((bits_hi _ _ 12 5).trans ((bits_lo _ _ 0 5).trans (bits_all _))))
  have f1 : bits wd 0 2 = n := hw ▸ ((bits_lo _ _ 0 2).trans (bits_all _))
  have m0 : wd &&& 0xfff83ffc#32 = 0x05700000#32 := by rw [← hw, and_app, and_app, and_app]; simp
  clear hw
  rw [decodeWord, h1]; change decodeMajor01 _ _ = _; rw [decodeMajor01, h2]; change (if _ then _ else _) = _
  rw [if_pos m0, f0, f1]

theorem F.monw (a : BitVec 6) : F.Statement (.monw a) := by
  intro _ _
  change decodeWord (0xb0#13 ++ a ++ 0x0#13) _ = _
  generalize hw : (0xb0#13 ++ a ++ 0x0#13   : Word) = wd
  have h1 : bits wd 26 6 = 1#6 := hw ▸ ((bits_hi _ _ 26 6).trans ((bits_hi _ _ 13 6).trans (by rfl)))
  have h2 : bits wd 20 6 = 24#6 := hw ▸ ((bits_hi _ _ 20 6).trans ((bits_hi _ _ 7 6).trans (by rfl)))
  have f0 : bits wd 13 6 = a := hw ▸ ((bits_hi _ _ 13 6).trans ((bits_lo _ _ 0 6).trans (bits_all _)))
  have m0 : wd &&& 0xfff81fff#32 = 0x05800000#32 := by rw [← hw, and_app, and_app]; simp
  clear hw
  rw [decodeWord, h1]; change decodeMajor01 _ _ = _; rw [decodeMajor01, h2]; change (if _ then _ else _) = _
  rw [if_pos m0, f0]

theorem F.monwG (a : BitVec 6) : F.Statement (.monwG a) := by
  intro _ _
  change decodeWord (0xb0#13 ++ a ++ 0x1#13) _ = _
  generalize hw : (0xb0#13 ++ a ++ 0x1#13   : Word) = wd
  have h1 : bits wd 26 6 = 1#6 := hw ▸ ((bits_hi _ _ 26 6).trans ((bits_hi _ _ 13 6).trans (by rfl)))
  have h2 : bits wd 20 6 = 24#6 := hw ▸ ((bits_hi _ _ 20 6).trans ((bits_hi _ _ 7 6).trans (by rfl)))
  have f0 : bits wd 13 6 = a := hw ▸ ((bits_hi _ _ 13 6).trans ((bits_lo _ _ 0 6).trans (bits_all _)))
  have m0 : wd &&& 0xfff81fff#32 = 0x05800001#32 := by rw [← hw, and_app, and_app]; simp
  clear hw
  rw [decodeWord, h1]; change decodeMajor01 _ _ = _; rw [decodeMajor01, h2]; change (if _ then _ else _) = _
  rw [if_neg (by rw [m0]; decide), if_pos m0, f0]

theorem F.monc (n : BitVec 2) : F.Statement (.monc n) := by
  intro _ _
  change decodeWord (0x1640000#30 ++ n) _ = _
  generalize hw : (0x1640000#30 ++ n   : Word) = wd
  have h1 : bits wd 26 6 = 1#6 := hw ▸ ((bits_hi _ _ 26 6).trans (by rfl))
  have h2 : bits wd 20 6 = 25#6 := hw ▸ ((bits_hi _ _ 20 6).trans (by rfl))
  have f0 : bits wd 0 2 = n := hw ▸ ((bits_lo _ _ 0 2).trans (bits_all _))
  have m0 : wd &&& 0xfffffffc#32 = 0x05900000#32 := by rw [← hw, and_app]; simp
  clear hw
  rw [decodeWord, h1]; change decodeMajor01 _ _ = _; rw [decodeMajor01, h2]; change (if _ then _ else _) = _
  rw [if_pos m0, f0]

theorem F.cpya (a : BitVec 4) (b : BitVec 5) : F.Statement (.cpya a b) := by
  intro _ _
  change decodeWord (0xb4#13 ++ a ++ 0x0#4 ++ b ++ 0x0#6) _ = _
  generalize hw : (0xb4#13 ++ a ++ 0x0#4 ++ b ++ 0x0#6   : Word) = wd
  have h1 : bits wd 26 6 = 1#6 := hw ▸ ((bits_hi _ _ 26 6).trans ((bits_hi _ _ 20 6).trans ((bits_hi _ _ 15 6).trans ((bits_hi _ _ 11 6).trans (by rfl)))))
  have h2 : bits wd 20 6 = 26#6 := hw ▸ ((bits_hi _ _ 20 6).trans ((bits_hi _ _ 14 6).trans ((bits_hi _ _ 9 6).trans ((bits_hi _ _ 5 6).trans (by rfl)))))
  have f0 : bits wd 15 4 = a := hw ▸ ((bits_hi _ _ 15 4).trans ((bits_hi _ _ 9 4).trans ((bits_hi _ _ 4 4).trans ((bits_lo _ _ 0 4).trans (bits_all _)))))
  have f1 : bits wd 6 5 = b := hw ▸ ((bits_hi _ _ 6 5).trans ((bits_lo _ _ 0 5).trans (bits_all _)))
  have m0 : wd &&& 0xfff8783f#32 = 0x05a00000#32 := by rw [← hw, and_app, and_app, and_app, and_app]; simp
  clear hw
  rw [decodeWord, h1]; change decodeMajor01 _ _ = _; rw [decodeMajor01, h2]; change (if _ then _ else _) = _
  rw [if_pos m0, f0, f1]

theorem F.bra (o : BitVec 12) (x : Option BExt) : F.Statement (.bra o x) := by
  intro _ _
  change decodeWord (0x8000#20 ++ o) _ = _
  generalize hw : (0x8000#20 ++ o   : Word) = wd
  have h1 : bits wd 26 6 = 2#6 := hw ▸ ((bits_hi _ _ 26 6).trans (by rfl))
  have h2 : bits wd 23 3 = 0#3 := hw ▸ ((bits_hi _ _ 23 3).trans (by rfl))
  have f0 : bits wd 0 12 = o := hw ▸ ((bits_lo _ _ 0 12).trans (bits_all _))
  have m0 : wd &&& 0xfffff000#32 = 0x08000000#32 := by rw [← hw, and_app]; simp
  clear hw
  rw [decodeWord, h1]; change decodeMajor02 _ _ = _; rw [decodeMajor02, h2]; change (if _ then _ else _) = _
  rw [if_pos m0, f0]; rfl

theorem F.brc (c : BitVec 4) (s : BitVec 7) (o : BitVec 12) (x : Option BExt) : F.Statement (.brc c s o x) := by
  intro _ _
  change decodeWord (0x11#9 ++ c ++ s ++ o) _ = _
  generalize hw : (0x11#9 ++ c ++ s ++ o   : Word) = wd
  have h1 : bits wd 26 6 = 2#6 := hw ▸ ((bits_hi _ _ 26 6).trans ((bits_hi _ _ 14 6).trans ((bits_hi _ _ 7 6).trans (by rfl))))
  have h2 : bits wd 23 3 = 1#3 := hw ▸ ((bits_hi _ _ 23 3).trans ((bits_hi _ _ 11 3).trans ((bits_hi _ _ 4 3).trans (by rfl))))
  have f0 : bits wd 19 4 = c := hw ▸ ((bits_hi _ _ 19 4).trans ((bits_hi _ _ 7 4).trans ((bits_lo _ _ 0 4).trans (bits_all _))))
  have f1 : bits wd 12 7 = s := hw ▸ ((bits_hi _ _ 12 7).trans ((bits_lo _ _ 0 7).trans (bits_all _)))
  have f2 : bits wd 0 12 = o := hw ▸ ((bits_lo _ _ 0 12).trans (bits_all _))
  have m0 : wd &&& 0xff800000#32 = 0x08800000#32 := by rw [← hw, and_app, and_app, and_app]; simp
  clear hw
  rw [decodeWord, h1]; change decodeMajor02 _ _ = _; rw [decodeMajor02, h2]; change (if _ then _ else _) = _
  rw [if_pos m0, f0, f1, f2]; rfl

theorem F.call (d : BitVec 6) (o : BitVec 12) (x : Option BExt) : F.Statement (.call d o x) := by
  intro _ _
  change decodeWord (0x240#14 ++ d ++ o) _ = _
  generalize hw : (0x240#14 ++ d ++ o   : Word) = wd
  have h1 : bits wd 26 6 = 2#6 := hw ▸ ((bits_hi _ _ 26 6).trans ((bits_hi _ _ 14 6).trans (by rfl)))
  have h2 : bits wd 23 3 = 2#3 := hw ▸ ((bits_hi _ _ 23 3).trans ((bits_hi _ _ 11 3).trans (by rfl)))
  have f0 : bits wd 12 6 = d := hw ▸ ((bits_hi _ _ 12 6).trans ((bits_lo _ _ 0 6).trans (bits_all _)))
  have f1 : bits wd 0 12 = o := hw ▸ ((bits_lo _ _ 0 12).trans (bits_all _))
  have m0 : wd &&& 0xfffc0000#32 = 0x09000000#32 := by rw [← hw, and_app, and_app]; simp
  clear hw
  rw [decodeWord, h1]; change decodeMajor02 _ _ = _; rw [decodeMajor02, h2]; change (if _ then _ else _) = _
  rw [if_pos m0, f0, f1]; rfl

theorem F.jmpf (s : BitVec 7) (o : BitVec 10) : F.Statement (.jmpf s o) := by
  intro _ _
  change decodeWord (0x130#13 ++ s ++ 0x0#2 ++ o) _ = _
  generalize hw : (0x130#13 ++ s ++ 0x0#2 ++ o   : Word) = wd
  have h1 : bits wd 26 6 = 2#6 := hw ▸ ((bits_hi _ _ 26 6).trans ((bits_hi _ _ 16 6).trans ((bits_hi _ _ 14 6).trans (by rfl))))
  have h2 : bits wd 23 3 = 3#3 := hw ▸ ((bits_hi _ _ 23 3).trans ((bits_hi _ _ 13 3).trans ((bits_hi _ _ 11 3).trans (by rfl))))
  have f0 : bits wd 12 7 = s := hw ▸ ((bits_hi _ _ 12 7).trans ((bits_hi _ _ 2 7).trans ((bits_lo _ _ 0 7).trans (bits_all _))))
  have f1 : bits wd 0 10 = o := hw ▸ ((bits_lo _ _ 0 10).trans (bits_all _))
  have m0 : wd &&& 0xfff80c00#32 = 0x09800000#32 := by rw [← hw, and_app, and_app, and_app]; simp
  clear hw
  rw [decodeWord, h1]; change decodeMajor02 _ _ = _; rw [decodeMajor02, h2]; change (if _ then _ else _) = _
  rw [if_pos m0, f0, f1]

theorem F.brd (k : BitVec 4) (t j : BitVec 11) (x : Option BExt) : F.Statement (.brd k t j x) := by
  intro _ _
  change decodeWord (0x3#6 ++ k ++ t ++ j) _ = _
  generalize hw : (0x3#6 ++ k ++ t ++ j   : Word) = wd
  have h1 : bits wd 26 6 = 3#6 := hw ▸ ((bits_hi _ _ 26 6).trans ((bits_hi _ _ 15 6).trans ((bits_hi _ _ 4 6).trans (by rfl))))
  have f0 : bits wd 22 4 = k := hw ▸ ((bits_hi _ _ 22 4).trans ((bits_hi _ _ 11 4).trans ((bits_lo _ _ 0 4).trans (bits_all _))))
  have f1 : bits wd 11 11 = t := hw ▸ ((bits_hi _ _ 11 11).trans ((bits_lo _ _ 0 11).trans (bits_all _)))
  have f2 : bits wd 0 11 = j := hw ▸ ((bits_lo _ _ 0 11).trans (bits_all _))
  have m0 : wd &&& 0xfc000000#32 = 0x0c000000#32 := by rw [← hw, and_app, and_app, and_app]; simp
  clear hw
  rw [decodeWord, h1]; change decodeMajor03 _ _ = _; rw [decodeMajor03]; change (if _ then _ else _) = _
  rw [if_pos m0, f0, f1, f2]; rfl

theorem F.wideImmediateHint (w : BitVec 24) : F.Statement (.wideImmediateHint w) := by
  intro _ _
  change decodeWord (0x10#8 ++ w) _ = _
  generalize hw : (0x10#8 ++ w   : Word) = wd
  have h1 : bits wd 26 6 = 4#6 := hw ▸ ((bits_hi _ _ 26 6).trans (by rfl))
  have h2 : bits wd 24 2 = 0#2 := hw ▸ ((bits_hi _ _ 24 2).trans (by rfl))
  have f0 : bits wd 0 24 = w := hw ▸ ((bits_lo _ _ 0 24).trans (bits_all _))
  have m0 : wd &&& 0xff000000#32 = 0x10000000#32 := by rw [← hw, and_app]; simp
  clear hw
  rw [decodeWord, h1]; change decodeMajor04 _ _ = _; rw [decodeMajor04, h2]; change (if _ then _ else _) = _
  rw [if_pos m0, f0]

theorem F.branchExtensionHint (t j : BitVec 6) : F.Statement (.branchExtensionHint t j) := by
  intro _ _
  change decodeWord (0x11#8 ++ t ++ j ++ 0x0#12) _ = _
  generalize hw : (0x11#8 ++ t ++ j ++ 0x0#12   : Word) = wd
  have h1 : bits wd 26 6 = 4#6 := hw ▸ ((bits_hi _ _ 26 6).trans ((bits_hi _ _ 14 6).trans ((bits_hi _ _ 8 6).trans (by rfl))))
  have h2 : bits wd 24 2 = 1#2 := hw ▸ ((bits_hi _ _ 24 2).trans ((bits_hi _ _ 12 2).trans ((bits_hi _ _ 6 2).trans (by rfl))))
  have f0 : bits wd 18 6 = t := hw ▸ ((bits_hi _ _ 18 6).trans ((bits_hi _ _ 6 6).trans ((bits_lo _ _ 0 6).trans (bits_all _))))
  have f1 : bits wd 12 6 = j := hw ▸ ((bits_hi _ _ 12 6).trans ((bits_lo _ _ 0 6).trans (bits_all _)))
  have m0 : wd &&& 0xff000fff#32 = 0x11000000#32 := by rw [← hw, and_app, and_app, and_app]; simp
  clear hw
  rw [decodeWord, h1]; change decodeMajor04 _ _ = _; rw [decodeMajor04, h2]; change (if _ then _ else _) = _
  rw [if_pos m0, f0, f1]

theorem F.hintYield (n : BitVec 8) : F.Statement (.hintYield n) := by
  intro _ _
  change decodeWord (0x120000#24 ++ n) _ = _
  generalize hw : (0x120000#24 ++ n   : Word) = wd
  have h1 : bits wd 26 6 = 4#6 := hw ▸ ((bits_hi _ _ 26 6).trans (by rfl))
  have h2 : bits wd 24 2 = 2#2 := hw ▸ ((bits_hi _ _ 24 2).trans (by rfl))
  have f0 : bits wd 0 8 = n := hw ▸ ((bits_lo _ _ 0 8).trans (bits_all _))
  have m0 : wd &&& 0xffffff00#32 = 0x12000000#32 := by rw [← hw, and_app]; simp
  clear hw
  rw [decodeWord, h1]; change decodeMajor04 _ _ = _; rw [decodeMajor04, h2]; change (if _ then _ else _) = _
  rw [if_pos m0, f0]

theorem F.dict (i j : BitVec 10) : F.Statement (.dict i j) := by
  intro _ _
  change decodeWord (0x180#12 ++ i ++ j) _ = _
  generalize hw : (0x180#12 ++ i ++ j   : Word) = wd
  have h1 : bits wd 26 6 = 6#6 := hw ▸ ((bits_hi _ _ 26 6).trans ((bits_hi _ _ 16 6).trans (by rfl)))
  have f0 : bits wd 10 10 = i := hw ▸ ((bits_hi _ _ 10 10).trans ((bits_lo _ _ 0 10).trans (bits_all _)))
  have f1 : bits wd 0 10 = j := hw ▸ ((bits_lo _ _ 0 10).trans (bits_all _))
  have m0 : wd &&& 0xfff00000#32 = 0x18000000#32 := by rw [← hw, and_app, and_app]; simp
  clear hw
  rw [decodeWord, h1]; change decodeMajor06 _ _ = _; rw [decodeMajor06]; change (if _ then _ else _) = _
  rw [if_pos m0, f0, f1]

theorem F.sadd (d a b : BitVec 6) : F.Statement (.sadd d a b) := by
  intro _ _
  change decodeWord (0x10#7 ++ d ++ 0x0#1 ++ a ++ 0x0#1 ++ b ++ 0x0#5) _ = _
  generalize hw : (0x10#7 ++ d ++ 0x0#1 ++ a ++ 0x0#1 ++ b ++ 0x0#5   : Word) = wd
  have h1 : bits wd 26 6 = 8#6 := hw ▸ ((bits_hi _ _ 26 6).trans ((bits_hi _ _ 21 6).trans ((bits_hi _ _ 15 6).trans ((bits_hi _ _ 14 6).trans ((bits_hi _ _ 8 6).trans ((bits_hi _ _ 7 6).trans (by rfl)))))))
  have h2 : bits wd 0 5 = 0#5 := hw ▸ ((bits_lo _ _ 0 5).trans (by rfl))
  have f0 : bits wd 19 6 = d := hw ▸ ((bits_hi _ _ 19 6).trans ((bits_hi _ _ 14 6).trans ((bits_hi _ _ 8 6).trans ((bits_hi _ _ 7 6).trans ((bits_hi _ _ 1 6).trans ((bits_lo _ _ 0 6).trans (bits_all _)))))))
  have f1 : bits wd 12 6 = a := hw ▸ ((bits_hi _ _ 12 6).trans ((bits_hi _ _ 7 6).trans ((bits_hi _ _ 1 6).trans ((bits_lo _ _ 0 6).trans (bits_all _)))))
  have f2 : bits wd 5 6 = b := hw ▸ ((bits_hi _ _ 5 6).trans ((bits_lo _ _ 0 6).trans (bits_all _)))
  have m0 : wd &&& 0xfe04081f#32 = 0x20000000#32 := by rw [← hw, and_app, and_app, and_app, and_app, and_app, and_app]; simp
  clear hw
  rw [decodeWord, h1]; change decodeMajor08 _ _ = _; rw [decodeMajor08, h2]; change (if _ then _ else _) = _
  rw [if_pos m0, f0, f1, f2]

theorem F.ssub (d a b : BitVec 6) : F.Statement (.ssub d a b) := by
  intro _ _
  change decodeWord (0x10#7 ++ d ++ 0x0#1 ++ a ++ 0x0#1 ++ b ++ 0x1#5) _ = _
  generalize hw : (0x10#7 ++ d ++ 0x0#1 ++ a ++ 0x0#1 ++ b ++ 0x1#5   : Word) = wd
  have h1 : bits wd 26 6 = 8#6 := hw ▸ ((bits_hi _ _ 26 6).trans ((bits_hi _ _ 21 6).trans ((bits_hi _ _ 15 6).trans ((bits_hi _ _ 14 6).trans ((bits_hi _ _ 8 6).trans ((bits_hi _ _ 7 6).trans (by rfl)))))))
  have h2 : bits wd 0 5 = 1#5 := hw ▸ ((bits_lo _ _ 0 5).trans (by rfl))
  have f0 : bits wd 19 6 = d := hw ▸ ((bits_hi _ _ 19 6).trans ((bits_hi _ _ 14 6).trans ((bits_hi _ _ 8 6).trans ((bits_hi _ _ 7 6).trans ((bits_hi _ _ 1 6).trans ((bits_lo _ _ 0 6).trans (bits_all _)))))))
  have f1 : bits wd 12 6 = a := hw ▸ ((bits_hi _ _ 12 6).trans ((bits_hi _ _ 7 6).trans ((bits_hi _ _ 1 6).trans ((bits_lo _ _ 0 6).trans (bits_all _)))))
  have f2 : bits wd 5 6 = b := hw ▸ ((bits_hi _ _ 5 6).trans ((bits_lo _ _ 0 6).trans (bits_all _)))
  have m0 : wd &&& 0xfe04081f#32 = 0x20000001#32 := by rw [← hw, and_app, and_app, and_app, and_app, and_app, and_app]; simp
  clear hw
  rw [decodeWord, h1]; change decodeMajor08 _ _ = _; rw [decodeMajor08, h2]; change (if _ then _ else _) = _
  rw [if_pos m0, f0, f1, f2]

theorem F.smul (d a b : BitVec 6) : F.Statement (.smul d a b) := by
  intro _ _
  change decodeWord (0x10#7 ++ d ++ 0x0#1 ++ a ++ 0x0#1 ++ b ++ 0x2#5) _ = _
  generalize hw : (0x10#7 ++ d ++ 0x0#1 ++ a ++ 0x0#1 ++ b ++ 0x2#5   : Word) = wd
  have h1 : bits wd 26 6 = 8#6 := hw ▸ ((bits_hi _ _ 26 6).trans ((bits_hi _ _ 21 6).trans ((bits_hi _ _ 15 6).trans ((bits_hi _ _ 14 6).trans ((bits_hi _ _ 8 6).trans ((bits_hi _ _ 7 6).trans (by rfl)))))))
  have h2 : bits wd 0 5 = 2#5 := hw ▸ ((bits_lo _ _ 0 5).trans (by rfl))
  have f0 : bits wd 19 6 = d := hw ▸ ((bits_hi _ _ 19 6).trans ((bits_hi _ _ 14 6).trans ((bits_hi _ _ 8 6).trans ((bits_hi _ _ 7 6).trans ((bits_hi _ _ 1 6).trans ((bits_lo _ _ 0 6).trans (bits_all _)))))))
  have f1 : bits wd 12 6 = a := hw ▸ ((bits_hi _ _ 12 6).trans ((bits_hi _ _ 7 6).trans ((bits_hi _ _ 1 6).trans ((bits_lo _ _ 0 6).trans (bits_all _)))))
  have f2 : bits wd 5 6 = b := hw ▸ ((bits_hi _ _ 5 6).trans ((bits_lo _ _ 0 6).trans (bits_all _)))
  have m0 : wd &&& 0xfe04081f#32 = 0x20000002#32 := by rw [← hw, and_app, and_app, and_app, and_app, and_app, and_app]; simp
  clear hw
  rw [decodeWord, h1]; change decodeMajor08 _ _ = _; rw [decodeMajor08, h2]; change (if _ then _ else _) = _
  rw [if_pos m0, f0, f1, f2]

theorem F.smulh (d a b : BitVec 6) : F.Statement (.smulh d a b) := by
  intro _ _
  change decodeWord (0x10#7 ++ d ++ 0x0#1 ++ a ++ 0x0#1 ++ b ++ 0x3#5) _ = _
  generalize hw : (0x10#7 ++ d ++ 0x0#1 ++ a ++ 0x0#1 ++ b ++ 0x3#5   : Word) = wd
  have h1 : bits wd 26 6 = 8#6 := hw ▸ ((bits_hi _ _ 26 6).trans ((bits_hi _ _ 21 6).trans ((bits_hi _ _ 15 6).trans ((bits_hi _ _ 14 6).trans ((bits_hi _ _ 8 6).trans ((bits_hi _ _ 7 6).trans (by rfl)))))))
  have h2 : bits wd 0 5 = 3#5 := hw ▸ ((bits_lo _ _ 0 5).trans (by rfl))
  have f0 : bits wd 19 6 = d := hw ▸ ((bits_hi _ _ 19 6).trans ((bits_hi _ _ 14 6).trans ((bits_hi _ _ 8 6).trans ((bits_hi _ _ 7 6).trans ((bits_hi _ _ 1 6).trans ((bits_lo _ _ 0 6).trans (bits_all _)))))))
  have f1 : bits wd 12 6 = a := hw ▸ ((bits_hi _ _ 12 6).trans ((bits_hi _ _ 7 6).trans ((bits_hi _ _ 1 6).trans ((bits_lo _ _ 0 6).trans (bits_all _)))))
  have f2 : bits wd 5 6 = b := hw ▸ ((bits_hi _ _ 5 6).trans ((bits_lo _ _ 0 6).trans (bits_all _)))
  have m0 : wd &&& 0xfe04081f#32 = 0x20000003#32 := by rw [← hw, and_app, and_app, and_app, and_app, and_app, and_app]; simp
  clear hw
  rw [decodeWord, h1]; change decodeMajor08 _ _ = _; rw [decodeMajor08, h2]; change (if _ then _ else _) = _
  rw [if_pos m0, f0, f1, f2]

theorem F.smulhN32 (d a b : BitVec 6) : F.Statement (.smulhN32 d a b) := by
  intro _ _
  change decodeWord (0x10#7 ++ d ++ 0x0#1 ++ a ++ 0x0#1 ++ b ++ 0x4#5) _ = _
  generalize hw : (0x10#7 ++ d ++ 0x0#1 ++ a ++ 0x0#1 ++ b ++ 0x4#5   : Word) = wd
  have h1 : bits wd 26 6 = 8#6 := hw ▸ ((bits_hi _ _ 26 6).trans ((bits_hi _ _ 21 6).trans ((bits_hi _ _ 15 6).trans ((bits_hi _ _ 14 6).trans ((bits_hi _ _ 8 6).trans ((bits_hi _ _ 7 6).trans (by rfl)))))))
  have h2 : bits wd 0 5 = 4#5 := hw ▸ ((bits_lo _ _ 0 5).trans (by rfl))
  have f0 : bits wd 19 6 = d := hw ▸ ((bits_hi _ _ 19 6).trans ((bits_hi _ _ 14 6).trans ((bits_hi _ _ 8 6).trans ((bits_hi _ _ 7 6).trans ((bits_hi _ _ 1 6).trans ((bits_lo _ _ 0 6).trans (bits_all _)))))))
  have f1 : bits wd 12 6 = a := hw ▸ ((bits_hi _ _ 12 6).trans ((bits_hi _ _ 7 6).trans ((bits_hi _ _ 1 6).trans ((bits_lo _ _ 0 6).trans (bits_all _)))))
  have f2 : bits wd 5 6 = b := hw ▸ ((bits_hi _ _ 5 6).trans ((bits_lo _ _ 0 6).trans (bits_all _)))
  have m0 : wd &&& 0xfe04081f#32 = 0x20000004#32 := by rw [← hw, and_app, and_app, and_app, and_app, and_app, and_app]; simp
  clear hw
  rw [decodeWord, h1]; change decodeMajor08 _ _ = _; rw [decodeMajor08, h2]; change (if _ then _ else _) = _
  rw [if_pos m0, f0, f1, f2]

theorem F.sand (d a b : BitVec 6) : F.Statement (.sand d a b) := by
  intro _ _
  change decodeWord (0x10#7 ++ d ++ 0x0#1 ++ a ++ 0x0#1 ++ b ++ 0x5#5) _ = _
  generalize hw : (0x10#7 ++ d ++ 0x0#1 ++ a ++ 0x0#1 ++ b ++ 0x5#5   : Word) = wd
  have h1 : bits wd 26 6 = 8#6 := hw ▸ ((bits_hi _ _ 26 6).trans ((bits_hi _ _ 21 6).trans ((bits_hi _ _ 15 6).trans ((bits_hi _ _ 14 6).trans ((bits_hi _ _ 8 6).trans ((bits_hi _ _ 7 6).trans (by rfl)))))))
  have h2 : bits wd 0 5 = 5#5 := hw ▸ ((bits_lo _ _ 0 5).trans (by rfl))
  have f0 : bits wd 19 6 = d := hw ▸ ((bits_hi _ _ 19 6).trans ((bits_hi _ _ 14 6).trans ((bits_hi _ _ 8 6).trans ((bits_hi _ _ 7 6).trans ((bits_hi _ _ 1 6).trans ((bits_lo _ _ 0 6).trans (bits_all _)))))))
  have f1 : bits wd 12 6 = a := hw ▸ ((bits_hi _ _ 12 6).trans ((bits_hi _ _ 7 6).trans ((bits_hi _ _ 1 6).trans ((bits_lo _ _ 0 6).trans (bits_all _)))))
  have f2 : bits wd 5 6 = b := hw ▸ ((bits_hi _ _ 5 6).trans ((bits_lo _ _ 0 6).trans (bits_all _)))
  have m0 : wd &&& 0xfe04081f#32 = 0x20000005#32 := by rw [← hw, and_app, and_app, and_app, and_app, and_app, and_app]; simp
  clear hw
  rw [decodeWord, h1]; change decodeMajor08 _ _ = _; rw [decodeMajor08, h2]; change (if _ then _ else _) = _
  rw [if_pos m0, f0, f1, f2]

theorem F.sor (d a b : BitVec 6) : F.Statement (.sor d a b) := by
  intro _ _
  change decodeWord (0x10#7 ++ d ++ 0x0#1 ++ a ++ 0x0#1 ++ b ++ 0x6#5) _ = _
  generalize hw : (0x10#7 ++ d ++ 0x0#1 ++ a ++ 0x0#1 ++ b ++ 0x6#5   : Word) = wd
  have h1 : bits wd 26 6 = 8#6 := hw ▸ ((bits_hi _ _ 26 6).trans ((bits_hi _ _ 21 6).trans ((bits_hi _ _ 15 6).trans ((bits_hi _ _ 14 6).trans ((bits_hi _ _ 8 6).trans ((bits_hi _ _ 7 6).trans (by rfl)))))))
  have h2 : bits wd 0 5 = 6#5 := hw ▸ ((bits_lo _ _ 0 5).trans (by rfl))
  have f0 : bits wd 19 6 = d := hw ▸ ((bits_hi _ _ 19 6).trans ((bits_hi _ _ 14 6).trans ((bits_hi _ _ 8 6).trans ((bits_hi _ _ 7 6).trans ((bits_hi _ _ 1 6).trans ((bits_lo _ _ 0 6).trans (bits_all _)))))))
  have f1 : bits wd 12 6 = a := hw ▸ ((bits_hi _ _ 12 6).trans ((bits_hi _ _ 7 6).trans ((bits_hi _ _ 1 6).trans ((bits_lo _ _ 0 6).trans (bits_all _)))))
  have f2 : bits wd 5 6 = b := hw ▸ ((bits_hi _ _ 5 6).trans ((bits_lo _ _ 0 6).trans (bits_all _)))
  have m0 : wd &&& 0xfe04081f#32 = 0x20000006#32 := by rw [← hw, and_app, and_app, and_app, and_app, and_app, and_app]; simp
  clear hw
  rw [decodeWord, h1]; change decodeMajor08 _ _ = _; rw [decodeMajor08, h2]; change (if _ then _ else _) = _
  rw [if_pos m0, f0, f1, f2]

theorem F.sxor (d a b : BitVec 6) : F.Statement (.sxor d a b) := by
  intro _ _
  change decodeWord (0x10#7 ++ d ++ 0x0#1 ++ a ++ 0x0#1 ++ b ++ 0x7#5) _ = _
  generalize hw : (0x10#7 ++ d ++ 0x0#1 ++ a ++ 0x0#1 ++ b ++ 0x7#5   : Word) = wd
  have h1 : bits wd 26 6 = 8#6 := hw ▸ ((bits_hi _ _ 26 6).trans ((bits_hi _ _ 21 6).trans ((bits_hi _ _ 15 6).trans ((bits_hi _ _ 14 6).trans ((bits_hi _ _ 8 6).trans ((bits_hi _ _ 7 6).trans (by rfl)))))))
  have h2 : bits wd 0 5 = 7#5 := hw ▸ ((bits_lo _ _ 0 5).trans (by rfl))
  have f0 : bits wd 19 6 = d := hw ▸ ((bits_hi _ _ 19 6).trans ((bits_hi _ _ 14 6).trans ((bits_hi _ _ 8 6).trans ((bits_hi _ _ 7 6).trans ((bits_hi _ _ 1 6).trans ((bits_lo _ _ 0 6).trans (bits_all _)))))))
  have f1 : bits wd 12 6 = a := hw ▸ ((bits_hi _ _ 12 6).trans ((bits_hi _ _ 7 6).trans ((bits_hi _ _ 1 6).trans ((bits_lo _ _ 0 6).trans (bits_all _)))))
  have f2 : bits wd 5 6 = b := hw ▸ ((bits_hi _ _ 5 6).trans ((bits_lo _ _ 0 6).trans (bits_all _)))
  have m0 : wd &&& 0xfe04081f#32 = 0x20000007#32 := by rw [← hw, and_app, and_app, and_app, and_app, and_app, and_app]; simp
  clear hw
  rw [decodeWord, h1]; change decodeMajor08 _ _ = _; rw [decodeMajor08, h2]; change (if _ then _ else _) = _
  rw [if_pos m0, f0, f1, f2]

theorem F.sshl (d a b : BitVec 6) : F.Statement (.sshl d a b) := by
  intro _ _
  change decodeWord (0x10#7 ++ d ++ 0x0#1 ++ a ++ 0x0#1 ++ b ++ 0x8#5) _ = _
  generalize hw : (0x10#7 ++ d ++ 0x0#1 ++ a ++ 0x0#1 ++ b ++ 0x8#5   : Word) = wd
  have h1 : bits wd 26 6 = 8#6 := hw ▸ ((bits_hi _ _ 26 6).trans ((bits_hi _ _ 21 6).trans ((bits_hi _ _ 15 6).trans ((bits_hi _ _ 14 6).trans ((bits_hi _ _ 8 6).trans ((bits_hi _ _ 7 6).trans (by rfl)))))))
  have h2 : bits wd 0 5 = 8#5 := hw ▸ ((bits_lo _ _ 0 5).trans (by rfl))
  have f0 : bits wd 19 6 = d := hw ▸ ((bits_hi _ _ 19 6).trans ((bits_hi _ _ 14 6).trans ((bits_hi _ _ 8 6).trans ((bits_hi _ _ 7 6).trans ((bits_hi _ _ 1 6).trans ((bits_lo _ _ 0 6).trans (bits_all _)))))))
  have f1 : bits wd 12 6 = a := hw ▸ ((bits_hi _ _ 12 6).trans ((bits_hi _ _ 7 6).trans ((bits_hi _ _ 1 6).trans ((bits_lo _ _ 0 6).trans (bits_all _)))))
  have f2 : bits wd 5 6 = b := hw ▸ ((bits_hi _ _ 5 6).trans ((bits_lo _ _ 0 6).trans (bits_all _)))
  have m0 : wd &&& 0xfe04081f#32 = 0x20000008#32 := by rw [← hw, and_app, and_app, and_app, and_app, and_app, and_app]; simp
  clear hw
  rw [decodeWord, h1]; change decodeMajor08 _ _ = _; rw [decodeMajor08, h2]; change (if _ then _ else _) = _
  rw [if_pos m0, f0, f1, f2]

theorem F.sshr (d a b : BitVec 6) : F.Statement (.sshr d a b) := by
  intro _ _
  change decodeWord (0x10#7 ++ d ++ 0x0#1 ++ a ++ 0x0#1 ++ b ++ 0x9#5) _ = _
  generalize hw : (0x10#7 ++ d ++ 0x0#1 ++ a ++ 0x0#1 ++ b ++ 0x9#5   : Word) = wd
  have h1 : bits wd 26 6 = 8#6 := hw ▸ ((bits_hi _ _ 26 6).trans ((bits_hi _ _ 21 6).trans ((bits_hi _ _ 15 6).trans ((bits_hi _ _ 14 6).trans ((bits_hi _ _ 8 6).trans ((bits_hi _ _ 7 6).trans (by rfl)))))))
  have h2 : bits wd 0 5 = 9#5 := hw ▸ ((bits_lo _ _ 0 5).trans (by rfl))
  have f0 : bits wd 19 6 = d := hw ▸ ((bits_hi _ _ 19 6).trans ((bits_hi _ _ 14 6).trans ((bits_hi _ _ 8 6).trans ((bits_hi _ _ 7 6).trans ((bits_hi _ _ 1 6).trans ((bits_lo _ _ 0 6).trans (bits_all _)))))))
  have f1 : bits wd 12 6 = a := hw ▸ ((bits_hi _ _ 12 6).trans ((bits_hi _ _ 7 6).trans ((bits_hi _ _ 1 6).trans ((bits_lo _ _ 0 6).trans (bits_all _)))))
  have f2 : bits wd 5 6 = b := hw ▸ ((bits_hi _ _ 5 6).trans ((bits_lo _ _ 0 6).trans (bits_all _)))
  have m0 : wd &&& 0xfe04081f#32 = 0x20000009#32 := by rw [← hw, and_app, and_app, and_app, and_app, and_app, and_app]; simp
  clear hw
  rw [decodeWord, h1]; change decodeMajor08 _ _ = _; rw [decodeMajor08, h2]; change (if _ then _ else _) = _
  rw [if_pos m0, f0, f1, f2]

theorem F.ssra (d a b : BitVec 6) : F.Statement (.ssra d a b) := by
  intro _ _
  change decodeWord (0x10#7 ++ d ++ 0x0#1 ++ a ++ 0x0#1 ++ b ++ 0xa#5) _ = _
  generalize hw : (0x10#7 ++ d ++ 0x0#1 ++ a ++ 0x0#1 ++ b ++ 0xa#5   : Word) = wd
  have h1 : bits wd 26 6 = 8#6 := hw ▸ ((bits_hi _ _ 26 6).trans ((bits_hi _ _ 21 6).trans ((bits_hi _ _ 15 6).trans ((bits_hi _ _ 14 6).trans ((bits_hi _ _ 8 6).trans ((bits_hi _ _ 7 6).trans (by rfl)))))))
  have h2 : bits wd 0 5 = 10#5 := hw ▸ ((bits_lo _ _ 0 5).trans (by rfl))
  have f0 : bits wd 19 6 = d := hw ▸ ((bits_hi _ _ 19 6).trans ((bits_hi _ _ 14 6).trans ((bits_hi _ _ 8 6).trans ((bits_hi _ _ 7 6).trans ((bits_hi _ _ 1 6).trans ((bits_lo _ _ 0 6).trans (bits_all _)))))))
  have f1 : bits wd 12 6 = a := hw ▸ ((bits_hi _ _ 12 6).trans ((bits_hi _ _ 7 6).trans ((bits_hi _ _ 1 6).trans ((bits_lo _ _ 0 6).trans (bits_all _)))))
  have f2 : bits wd 5 6 = b := hw ▸ ((bits_hi _ _ 5 6).trans ((bits_lo _ _ 0 6).trans (bits_all _)))
  have m0 : wd &&& 0xfe04081f#32 = 0x2000000a#32 := by rw [← hw, and_app, and_app, and_app, and_app, and_app, and_app]; simp
  clear hw
  rw [decodeWord, h1]; change decodeMajor08 _ _ = _; rw [decodeMajor08, h2]; change (if _ then _ else _) = _
  rw [if_pos m0, f0, f1, f2]

theorem F.smin (d a b : BitVec 6) : F.Statement (.smin d a b) := by
  intro _ _
  change decodeWord (0x10#7 ++ d ++ 0x0#1 ++ a ++ 0x0#1 ++ b ++ 0xb#5) _ = _
  generalize hw : (0x10#7 ++ d ++ 0x0#1 ++ a ++ 0x0#1 ++ b ++ 0xb#5   : Word) = wd
  have h1 : bits wd 26 6 = 8#6 := hw ▸ ((bits_hi _ _ 26 6).trans ((bits_hi _ _ 21 6).trans ((bits_hi _ _ 15 6).trans ((bits_hi _ _ 14 6).trans ((bits_hi _ _ 8 6).trans ((bits_hi _ _ 7 6).trans (by rfl)))))))
  have h2 : bits wd 0 5 = 11#5 := hw ▸ ((bits_lo _ _ 0 5).trans (by rfl))
  have f0 : bits wd 19 6 = d := hw ▸ ((bits_hi _ _ 19 6).trans ((bits_hi _ _ 14 6).trans ((bits_hi _ _ 8 6).trans ((bits_hi _ _ 7 6).trans ((bits_hi _ _ 1 6).trans ((bits_lo _ _ 0 6).trans (bits_all _)))))))
  have f1 : bits wd 12 6 = a := hw ▸ ((bits_hi _ _ 12 6).trans ((bits_hi _ _ 7 6).trans ((bits_hi _ _ 1 6).trans ((bits_lo _ _ 0 6).trans (bits_all _)))))
  have f2 : bits wd 5 6 = b := hw ▸ ((bits_hi _ _ 5 6).trans ((bits_lo _ _ 0 6).trans (bits_all _)))
  have m0 : wd &&& 0xfe04081f#32 = 0x2000000b#32 := by rw [← hw, and_app, and_app, and_app, and_app, and_app, and_app]; simp
  clear hw
  rw [decodeWord, h1]; change decodeMajor08 _ _ = _; rw [decodeMajor08, h2]; change (if _ then _ else _) = _
  rw [if_pos m0, f0, f1, f2]

theorem F.sminN32 (d a b : BitVec 6) : F.Statement (.sminN32 d a b) := by
  intro _ _
  change decodeWord (0x10#7 ++ d ++ 0x0#1 ++ a ++ 0x0#1 ++ b ++ 0xc#5) _ = _
  generalize hw : (0x10#7 ++ d ++ 0x0#1 ++ a ++ 0x0#1 ++ b ++ 0xc#5   : Word) = wd
  have h1 : bits wd 26 6 = 8#6 := hw ▸ ((bits_hi _ _ 26 6).trans ((bits_hi _ _ 21 6).trans ((bits_hi _ _ 15 6).trans ((bits_hi _ _ 14 6).trans ((bits_hi _ _ 8 6).trans ((bits_hi _ _ 7 6).trans (by rfl)))))))
  have h2 : bits wd 0 5 = 12#5 := hw ▸ ((bits_lo _ _ 0 5).trans (by rfl))
  have f0 : bits wd 19 6 = d := hw ▸ ((bits_hi _ _ 19 6).trans ((bits_hi _ _ 14 6).trans ((bits_hi _ _ 8 6).trans ((bits_hi _ _ 7 6).trans ((bits_hi _ _ 1 6).trans ((bits_lo _ _ 0 6).trans (bits_all _)))))))
  have f1 : bits wd 12 6 = a := hw ▸ ((bits_hi _ _ 12 6).trans ((bits_hi _ _ 7 6).trans ((bits_hi _ _ 1 6).trans ((bits_lo _ _ 0 6).trans (bits_all _)))))
  have f2 : bits wd 5 6 = b := hw ▸ ((bits_hi _ _ 5 6).trans ((bits_lo _ _ 0 6).trans (bits_all _)))
  have m0 : wd &&& 0xfe04081f#32 = 0x2000000c#32 := by rw [← hw, and_app, and_app, and_app, and_app, and_app, and_app]; simp
  clear hw
  rw [decodeWord, h1]; change decodeMajor08 _ _ = _; rw [decodeMajor08, h2]; change (if _ then _ else _) = _
  rw [if_pos m0, f0, f1, f2]

theorem F.smax (d a b : BitVec 6) : F.Statement (.smax d a b) := by
  intro _ _
  change decodeWord (0x10#7 ++ d ++ 0x0#1 ++ a ++ 0x0#1 ++ b ++ 0xd#5) _ = _
  generalize hw : (0x10#7 ++ d ++ 0x0#1 ++ a ++ 0x0#1 ++ b ++ 0xd#5   : Word) = wd
  have h1 : bits wd 26 6 = 8#6 := hw ▸ ((bits_hi _ _ 26 6).trans ((bits_hi _ _ 21 6).trans ((bits_hi _ _ 15 6).trans ((bits_hi _ _ 14 6).trans ((bits_hi _ _ 8 6).trans ((bits_hi _ _ 7 6).trans (by rfl)))))))
  have h2 : bits wd 0 5 = 13#5 := hw ▸ ((bits_lo _ _ 0 5).trans (by rfl))
  have f0 : bits wd 19 6 = d := hw ▸ ((bits_hi _ _ 19 6).trans ((bits_hi _ _ 14 6).trans ((bits_hi _ _ 8 6).trans ((bits_hi _ _ 7 6).trans ((bits_hi _ _ 1 6).trans ((bits_lo _ _ 0 6).trans (bits_all _)))))))
  have f1 : bits wd 12 6 = a := hw ▸ ((bits_hi _ _ 12 6).trans ((bits_hi _ _ 7 6).trans ((bits_hi _ _ 1 6).trans ((bits_lo _ _ 0 6).trans (bits_all _)))))
  have f2 : bits wd 5 6 = b := hw ▸ ((bits_hi _ _ 5 6).trans ((bits_lo _ _ 0 6).trans (bits_all _)))
  have m0 : wd &&& 0xfe04081f#32 = 0x2000000d#32 := by rw [← hw, and_app, and_app, and_app, and_app, and_app, and_app]; simp
  clear hw
  rw [decodeWord, h1]; change decodeMajor08 _ _ = _; rw [decodeMajor08, h2]; change (if _ then _ else _) = _
  rw [if_pos m0, f0, f1, f2]

theorem F.smaxN32 (d a b : BitVec 6) : F.Statement (.smaxN32 d a b) := by
  intro _ _
  change decodeWord (0x10#7 ++ d ++ 0x0#1 ++ a ++ 0x0#1 ++ b ++ 0xe#5) _ = _
  generalize hw : (0x10#7 ++ d ++ 0x0#1 ++ a ++ 0x0#1 ++ b ++ 0xe#5   : Word) = wd
  have h1 : bits wd 26 6 = 8#6 := hw ▸ ((bits_hi _ _ 26 6).trans ((bits_hi _ _ 21 6).trans ((bits_hi _ _ 15 6).trans ((bits_hi _ _ 14 6).trans ((bits_hi _ _ 8 6).trans ((bits_hi _ _ 7 6).trans (by rfl)))))))
  have h2 : bits wd 0 5 = 14#5 := hw ▸ ((bits_lo _ _ 0 5).trans (by rfl))
  have f0 : bits wd 19 6 = d := hw ▸ ((bits_hi _ _ 19 6).trans ((bits_hi _ _ 14 6).trans ((bits_hi _ _ 8 6).trans ((bits_hi _ _ 7 6).trans ((bits_hi _ _ 1 6).trans ((bits_lo _ _ 0 6).trans (bits_all _)))))))
  have f1 : bits wd 12 6 = a := hw ▸ ((bits_hi _ _ 12 6).trans ((bits_hi _ _ 7 6).trans ((bits_hi _ _ 1 6).trans ((bits_lo _ _ 0 6).trans (bits_all _)))))
  have f2 : bits wd 5 6 = b := hw ▸ ((bits_hi _ _ 5 6).trans ((bits_lo _ _ 0 6).trans (bits_all _)))
  have m0 : wd &&& 0xfe04081f#32 = 0x2000000e#32 := by rw [← hw, and_app, and_app, and_app, and_app, and_app, and_app]; simp
  clear hw
  rw [decodeWord, h1]; change decodeMajor08 _ _ = _; rw [decodeMajor08, h2]; change (if _ then _ else _) = _
  rw [if_pos m0, f0, f1, f2]

theorem F.smov (d a : BitVec 6) : F.Statement (.smov d a) := by
  intro _ _
  change decodeWord (0x10#7 ++ d ++ 0x0#1 ++ a ++ 0xf#12) _ = _
  generalize hw : (0x10#7 ++ d ++ 0x0#1 ++ a ++ 0xf#12   : Word) = wd
  have h1 : bits wd 26 6 = 8#6 := hw ▸ ((bits_hi _ _ 26 6).trans ((bits_hi _ _ 14 6).trans ((bits_hi _ _ 8 6).trans ((bits_hi _ _ 7 6).trans (by rfl)))))
  have h2 : bits wd 0 5 = 15#5 := hw ▸ ((bits_lo _ _ 0 5).trans (by rfl))
  have f0 : bits wd 19 6 = d := hw ▸ ((bits_hi _ _ 19 6).trans ((bits_hi _ _ 7 6).trans ((bits_hi _ _ 1 6).trans ((bits_lo _ _ 0 6).trans (bits_all _)))))
  have f1 : bits wd 12 6 = a := hw ▸ ((bits_hi _ _ 12 6).trans ((bits_lo _ _ 0 6).trans (bits_all _)))
  have m0 : wd &&& 0xfe040fff#32 = 0x2000000f#32 := by rw [← hw, and_app, and_app, and_app, and_app]; simp
  clear hw
  rw [decodeWord, h1]; change decodeMajor08 _ _ = _; rw [decodeMajor08, h2]; change (if _ then _ else _) = _
  rw [if_pos m0, f0, f1]

theorem F.ssel (d a b : BitVec 6) : F.Statement (.ssel d a b) := by
  intro _ _
  change decodeWord (0x10#7 ++ d ++ 0x0#1 ++ a ++ 0x0#1 ++ b ++ 0x10#5) _ = _
  generalize hw : (0x10#7 ++ d ++ 0x0#1 ++ a ++ 0x0#1 ++ b ++ 0x10#5   : Word) = wd
  have h1 : bits wd 26 6 = 8#6 := hw ▸ ((bits_hi _ _ 26 6).trans ((bits_hi _ _ 21 6).trans ((bits_hi _ _ 15 6).trans ((bits_hi _ _ 14 6).trans ((bits_hi _ _ 8 6).trans ((bits_hi _ _ 7 6).trans (by rfl)))))))
  have h2 : bits wd 0 5 = 16#5 := hw ▸ ((bits_lo _ _ 0 5).trans (by rfl))
  have f0 : bits wd 19 6 = d := hw ▸ ((bits_hi _ _ 19 6).trans ((bits_hi _ _ 14 6).trans ((bits_hi _ _ 8 6).trans ((bits_hi _ _ 7 6).trans ((bits_hi _ _ 1 6).trans ((bits_lo _ _ 0 6).trans (bits_all _)))))))
  have f1 : bits wd 12 6 = a := hw ▸ ((bits_hi _ _ 12 6).trans ((bits_hi _ _ 7 6).trans ((bits_hi _ _ 1 6).trans ((bits_lo _ _ 0 6).trans (bits_all _)))))
  have f2 : bits wd 5 6 = b := hw ▸ ((bits_hi _ _ 5 6).trans ((bits_lo _ _ 0 6).trans (bits_all _)))
  have m0 : wd &&& 0xfe04081f#32 = 0x20000010#32 := by rw [← hw, and_app, and_app, and_app, and_app, and_app, and_app]; simp
  clear hw
  rw [decodeWord, h1]; change decodeMajor08 _ _ = _; rw [decodeMajor08, h2]; change (if _ then _ else _) = _
  rw [if_pos m0, f0, f1, f2]

theorem F.scmpEq (d a b : BitVec 6) : F.Statement (.scmpEq d a b) := by
  intro _ _
  change decodeWord (0x10#7 ++ d ++ 0x0#1 ++ a ++ 0x0#1 ++ b ++ 0x11#5) _ = _
  generalize hw : (0x10#7 ++ d ++ 0x0#1 ++ a ++ 0x0#1 ++ b ++ 0x11#5   : Word) = wd
  have h1 : bits wd 26 6 = 8#6 := hw ▸ ((bits_hi _ _ 26 6).trans ((bits_hi _ _ 21 6).trans ((bits_hi _ _ 15 6).trans ((bits_hi _ _ 14 6).trans ((bits_hi _ _ 8 6).trans ((bits_hi _ _ 7 6).trans (by rfl)))))))
  have h2 : bits wd 0 5 = 17#5 := hw ▸ ((bits_lo _ _ 0 5).trans (by rfl))
  have f0 : bits wd 19 6 = d := hw ▸ ((bits_hi _ _ 19 6).trans ((bits_hi _ _ 14 6).trans ((bits_hi _ _ 8 6).trans ((bits_hi _ _ 7 6).trans ((bits_hi _ _ 1 6).trans ((bits_lo _ _ 0 6).trans (bits_all _)))))))
  have f1 : bits wd 12 6 = a := hw ▸ ((bits_hi _ _ 12 6).trans ((bits_hi _ _ 7 6).trans ((bits_hi _ _ 1 6).trans ((bits_lo _ _ 0 6).trans (bits_all _)))))
  have f2 : bits wd 5 6 = b := hw ▸ ((bits_hi _ _ 5 6).trans ((bits_lo _ _ 0 6).trans (bits_all _)))
  have m0 : wd &&& 0xfe04081f#32 = 0x20000011#32 := by rw [← hw, and_app, and_app, and_app, and_app, and_app, and_app]; simp
  clear hw
  rw [decodeWord, h1]; change decodeMajor08 _ _ = _; rw [decodeMajor08, h2]; change (if _ then _ else _) = _
  rw [if_pos m0, f0, f1, f2]

theorem F.scmpNe (d a b : BitVec 6) : F.Statement (.scmpNe d a b) := by
  intro _ _
  change decodeWord (0x10#7 ++ d ++ 0x0#1 ++ a ++ 0x0#1 ++ b ++ 0x12#5) _ = _
  generalize hw : (0x10#7 ++ d ++ 0x0#1 ++ a ++ 0x0#1 ++ b ++ 0x12#5   : Word) = wd
  have h1 : bits wd 26 6 = 8#6 := hw ▸ ((bits_hi _ _ 26 6).trans ((bits_hi _ _ 21 6).trans ((bits_hi _ _ 15 6).trans ((bits_hi _ _ 14 6).trans ((bits_hi _ _ 8 6).trans ((bits_hi _ _ 7 6).trans (by rfl)))))))
  have h2 : bits wd 0 5 = 18#5 := hw ▸ ((bits_lo _ _ 0 5).trans (by rfl))
  have f0 : bits wd 19 6 = d := hw ▸ ((bits_hi _ _ 19 6).trans ((bits_hi _ _ 14 6).trans ((bits_hi _ _ 8 6).trans ((bits_hi _ _ 7 6).trans ((bits_hi _ _ 1 6).trans ((bits_lo _ _ 0 6).trans (bits_all _)))))))
  have f1 : bits wd 12 6 = a := hw ▸ ((bits_hi _ _ 12 6).trans ((bits_hi _ _ 7 6).trans ((bits_hi _ _ 1 6).trans ((bits_lo _ _ 0 6).trans (bits_all _)))))
  have f2 : bits wd 5 6 = b := hw ▸ ((bits_hi _ _ 5 6).trans ((bits_lo _ _ 0 6).trans (bits_all _)))
  have m0 : wd &&& 0xfe04081f#32 = 0x20000012#32 := by rw [← hw, and_app, and_app, and_app, and_app, and_app, and_app]; simp
  clear hw
  rw [decodeWord, h1]; change decodeMajor08 _ _ = _; rw [decodeMajor08, h2]; change (if _ then _ else _) = _
  rw [if_pos m0, f0, f1, f2]

theorem F.scmpLt (d a b : BitVec 6) : F.Statement (.scmpLt d a b) := by
  intro _ _
  change decodeWord (0x10#7 ++ d ++ 0x0#1 ++ a ++ 0x0#1 ++ b ++ 0x13#5) _ = _
  generalize hw : (0x10#7 ++ d ++ 0x0#1 ++ a ++ 0x0#1 ++ b ++ 0x13#5   : Word) = wd
  have h1 : bits wd 26 6 = 8#6 := hw ▸ ((bits_hi _ _ 26 6).trans ((bits_hi _ _ 21 6).trans ((bits_hi _ _ 15 6).trans ((bits_hi _ _ 14 6).trans ((bits_hi _ _ 8 6).trans ((bits_hi _ _ 7 6).trans (by rfl)))))))
  have h2 : bits wd 0 5 = 19#5 := hw ▸ ((bits_lo _ _ 0 5).trans (by rfl))
  have f0 : bits wd 19 6 = d := hw ▸ ((bits_hi _ _ 19 6).trans ((bits_hi _ _ 14 6).trans ((bits_hi _ _ 8 6).trans ((bits_hi _ _ 7 6).trans ((bits_hi _ _ 1 6).trans ((bits_lo _ _ 0 6).trans (bits_all _)))))))
  have f1 : bits wd 12 6 = a := hw ▸ ((bits_hi _ _ 12 6).trans ((bits_hi _ _ 7 6).trans ((bits_hi _ _ 1 6).trans ((bits_lo _ _ 0 6).trans (bits_all _)))))
  have f2 : bits wd 5 6 = b := hw ▸ ((bits_hi _ _ 5 6).trans ((bits_lo _ _ 0 6).trans (bits_all _)))
  have m0 : wd &&& 0xfe04081f#32 = 0x20000013#32 := by rw [← hw, and_app, and_app, and_app, and_app, and_app, and_app]; simp
  clear hw
  rw [decodeWord, h1]; change decodeMajor08 _ _ = _; rw [decodeMajor08, h2]; change (if _ then _ else _) = _
  rw [if_pos m0, f0, f1, f2]

theorem F.scmpLe (d a b : BitVec 6) : F.Statement (.scmpLe d a b) := by
  intro _ _
  change decodeWord (0x10#7 ++ d ++ 0x0#1 ++ a ++ 0x0#1 ++ b ++ 0x14#5) _ = _
  generalize hw : (0x10#7 ++ d ++ 0x0#1 ++ a ++ 0x0#1 ++ b ++ 0x14#5   : Word) = wd
  have h1 : bits wd 26 6 = 8#6 := hw ▸ ((bits_hi _ _ 26 6).trans ((bits_hi _ _ 21 6).trans ((bits_hi _ _ 15 6).trans ((bits_hi _ _ 14 6).trans ((bits_hi _ _ 8 6).trans ((bits_hi _ _ 7 6).trans (by rfl)))))))
  have h2 : bits wd 0 5 = 20#5 := hw ▸ ((bits_lo _ _ 0 5).trans (by rfl))
  have f0 : bits wd 19 6 = d := hw ▸ ((bits_hi _ _ 19 6).trans ((bits_hi _ _ 14 6).trans ((bits_hi _ _ 8 6).trans ((bits_hi _ _ 7 6).trans ((bits_hi _ _ 1 6).trans ((bits_lo _ _ 0 6).trans (bits_all _)))))))
  have f1 : bits wd 12 6 = a := hw ▸ ((bits_hi _ _ 12 6).trans ((bits_hi _ _ 7 6).trans ((bits_hi _ _ 1 6).trans ((bits_lo _ _ 0 6).trans (bits_all _)))))
  have f2 : bits wd 5 6 = b := hw ▸ ((bits_hi _ _ 5 6).trans ((bits_lo _ _ 0 6).trans (bits_all _)))
  have m0 : wd &&& 0xfe04081f#32 = 0x20000014#32 := by rw [← hw, and_app, and_app, and_app, and_app, and_app, and_app]; simp
  clear hw
  rw [decodeWord, h1]; change decodeMajor08 _ _ = _; rw [decodeMajor08, h2]; change (if _ then _ else _) = _
  rw [if_pos m0, f0, f1, f2]

theorem F.scmpLtN32 (d a b : BitVec 6) : F.Statement (.scmpLtN32 d a b) := by
  intro _ _
  change decodeWord (0x10#7 ++ d ++ 0x0#1 ++ a ++ 0x0#1 ++ b ++ 0x15#5) _ = _
  generalize hw : (0x10#7 ++ d ++ 0x0#1 ++ a ++ 0x0#1 ++ b ++ 0x15#5   : Word) = wd
  have h1 : bits wd 26 6 = 8#6 := hw ▸ ((bits_hi _ _ 26 6).trans ((bits_hi _ _ 21 6).trans ((bits_hi _ _ 15 6).trans ((bits_hi _ _ 14 6).trans ((bits_hi _ _ 8 6).trans ((bits_hi _ _ 7 6).trans (by rfl)))))))
  have h2 : bits wd 0 5 = 21#5 := hw ▸ ((bits_lo _ _ 0 5).trans (by rfl))
  have f0 : bits wd 19 6 = d := hw ▸ ((bits_hi _ _ 19 6).trans ((bits_hi _ _ 14 6).trans ((bits_hi _ _ 8 6).trans ((bits_hi _ _ 7 6).trans ((bits_hi _ _ 1 6).trans ((bits_lo _ _ 0 6).trans (bits_all _)))))))
  have f1 : bits wd 12 6 = a := hw ▸ ((bits_hi _ _ 12 6).trans ((bits_hi _ _ 7 6).trans ((bits_hi _ _ 1 6).trans ((bits_lo _ _ 0 6).trans (bits_all _)))))
  have f2 : bits wd 5 6 = b := hw ▸ ((bits_hi _ _ 5 6).trans ((bits_lo _ _ 0 6).trans (bits_all _)))
  have m0 : wd &&& 0xfe04081f#32 = 0x20000015#32 := by rw [← hw, and_app, and_app, and_app, and_app, and_app, and_app]; simp
  clear hw
  rw [decodeWord, h1]; change decodeMajor08 _ _ = _; rw [decodeMajor08, h2]; change (if _ then _ else _) = _
  rw [if_pos m0, f0, f1, f2]

theorem F.scmpLeN32 (d a b : BitVec 6) : F.Statement (.scmpLeN32 d a b) := by
  intro _ _
  change decodeWord (0x10#7 ++ d ++ 0x0#1 ++ a ++ 0x0#1 ++ b ++ 0x16#5) _ = _
  generalize hw : (0x10#7 ++ d ++ 0x0#1 ++ a ++ 0x0#1 ++ b ++ 0x16#5   : Word) = wd
  have h1 : bits wd 26 6 = 8#6 := hw ▸ ((bits_hi _ _ 26 6).trans ((bits_hi _ _ 21 6).trans ((bits_hi _ _ 15 6).trans ((bits_hi _ _ 14 6).trans ((bits_hi _ _ 8 6).trans ((bits_hi _ _ 7 6).trans (by rfl)))))))
  have h2 : bits wd 0 5 = 22#5 := hw ▸ ((bits_lo _ _ 0 5).trans (by rfl))
  have f0 : bits wd 19 6 = d := hw ▸ ((bits_hi _ _ 19 6).trans ((bits_hi _ _ 14 6).trans ((bits_hi _ _ 8 6).trans ((bits_hi _ _ 7 6).trans ((bits_hi _ _ 1 6).trans ((bits_lo _ _ 0 6).trans (bits_all _)))))))
  have f1 : bits wd 12 6 = a := hw ▸ ((bits_hi _ _ 12 6).trans ((bits_hi _ _ 7 6).trans ((bits_hi _ _ 1 6).trans ((bits_lo _ _ 0 6).trans (bits_all _)))))
  have f2 : bits wd 5 6 = b := hw ▸ ((bits_hi _ _ 5 6).trans ((bits_lo _ _ 0 6).trans (bits_all _)))
  have m0 : wd &&& 0xfe04081f#32 = 0x20000016#32 := by rw [← hw, and_app, and_app, and_app, and_app, and_app, and_app]; simp
  clear hw
  rw [decodeWord, h1]; change decodeMajor08 _ _ = _; rw [decodeMajor08, h2]; change (if _ then _ else _) = _
  rw [if_pos m0, f0, f1, f2]

theorem F.saddB64 (d a b : BitVec 5) : F.Statement (.saddB64 d a b) := by
  intro _ _
  change decodeWord (0x10#7 ++ d ++ 0x0#2 ++ a ++ 0x0#2 ++ b ++ 0x17#6) _ = _
  generalize hw : (0x10#7 ++ d ++ 0x0#2 ++ a ++ 0x0#2 ++ b ++ 0x17#6   : Word) = wd
  have h1 : bits wd 26 6 = 8#6 := hw ▸ ((bits_hi _ _ 26 6).trans ((bits_hi _ _ 20 6).trans ((bits_hi _ _ 15 6).trans ((bits_hi _ _ 13 6).trans ((bits_hi _ _ 8 6).trans ((bits_hi _ _ 6 6).trans (by rfl)))))))
  have h2 : bits wd 0 5 = 23#5 := hw ▸ ((bits_lo _ _ 0 5).trans (by rfl))
  have f0 : bits wd 20 5 = d := hw ▸ ((bits_hi _ _ 20 5).trans ((bits_hi _ _ 14 5).trans ((bits_hi _ _ 9 5).trans ((bits_hi _ _ 7 5).trans ((bits_hi _ _ 2 5).trans ((bits_lo _ _ 0 5).trans (bits_all _)))))))
  have f1 : bits wd 13 5 = a := hw ▸ ((bits_hi _ _ 13 5).trans ((bits_hi _ _ 7 5).trans ((bits_hi _ _ 2 5).trans ((bits_lo _ _ 0 5).trans (bits_all _)))))
  have f2 : bits wd 6 5 = b := hw ▸ ((bits_hi _ _ 6 5).trans ((bits_lo _ _ 0 5).trans (bits_all _)))
  have m0 : wd &&& 0xfe0c183f#32 = 0x20000017#32 := by rw [← hw, and_app, and_app, and_app, and_app, and_app, and_app]; simp
  clear hw
  rw [decodeWord, h1]; change decodeMajor08 _ _ = _; rw [decodeMajor08, h2]; change (if _ then _ else _) = _
  rw [if_pos m0, f0, f1, f2]

theorem F.ssubB64 (d a b : BitVec 5) : F.Statement (.ssubB64 d a b) := by
  intro _ _
  change decodeWord (0x10#7 ++ d ++ 0x0#2 ++ a ++ 0x0#2 ++ b ++ 0x18#6) _ = _
  generalize hw : (0x10#7 ++ d ++ 0x0#2 ++ a ++ 0x0#2 ++ b ++ 0x18#6   : Word) = wd
  have h1 : bits wd 26 6 = 8#6 := hw ▸ ((bits_hi _ _ 26 6).trans ((bits_hi _ _ 20 6).trans ((bits_hi _ _ 15 6).trans ((bits_hi _ _ 13 6).trans ((bits_hi _ _ 8 6).trans ((bits_hi _ _ 6 6).trans (by rfl)))))))
  have h2 : bits wd 0 5 = 24#5 := hw ▸ ((bits_lo _ _ 0 5).trans (by rfl))
  have f0 : bits wd 20 5 = d := hw ▸ ((bits_hi _ _ 20 5).trans ((bits_hi _ _ 14 5).trans ((bits_hi _ _ 9 5).trans ((bits_hi _ _ 7 5).trans ((bits_hi _ _ 2 5).trans ((bits_lo _ _ 0 5).trans (bits_all _)))))))
  have f1 : bits wd 13 5 = a := hw ▸ ((bits_hi _ _ 13 5).trans ((bits_hi _ _ 7 5).trans ((bits_hi _ _ 2 5).trans ((bits_lo _ _ 0 5).trans (bits_all _)))))
  have f2 : bits wd 6 5 = b := hw ▸ ((bits_hi _ _ 6 5).trans ((bits_lo _ _ 0 5).trans (bits_all _)))
  have m0 : wd &&& 0xfe0c183f#32 = 0x20000018#32 := by rw [← hw, and_app, and_app, and_app, and_app, and_app, and_app]; simp
  clear hw
  rw [decodeWord, h1]; change decodeMajor08 _ _ = _; rw [decodeMajor08, h2]; change (if _ then _ else _) = _
  rw [if_pos m0, f0, f1, f2]

theorem F.smovB64 (d a : BitVec 5) : F.Statement (.smovB64 d a) := by
  intro _ _
  change decodeWord (0x10#7 ++ d ++ 0x0#2 ++ a ++ 0x19#13) _ = _
  generalize hw : (0x10#7 ++ d ++ 0x0#2 ++ a ++ 0x19#13   : Word) = wd
  have h1 : bits wd 26 6 = 8#6 := hw ▸ ((bits_hi _ _ 26 6).trans ((bits_hi _ _ 13 6).trans ((bits_hi _ _ 8 6).trans ((bits_hi _ _ 6 6).trans (by rfl)))))
  have h2 : bits wd 0 5 = 25#5 := hw ▸ ((bits_lo _ _ 0 5).trans (by rfl))
  have f0 : bits wd 20 5 = d := hw ▸ ((bits_hi _ _ 20 5).trans ((bits_hi _ _ 7 5).trans ((bits_hi _ _ 2 5).trans ((bits_lo _ _ 0 5).trans (bits_all _)))))
  have f1 : bits wd 13 5 = a := hw ▸ ((bits_hi _ _ 13 5).trans ((bits_lo _ _ 0 5).trans (bits_all _)))
  have m0 : wd &&& 0xfe0c1fff#32 = 0x20000019#32 := by rw [← hw, and_app, and_app, and_app, and_app]; simp
  clear hw
  rw [decodeWord, h1]; change decodeMajor08 _ _ = _; rw [decodeMajor08, h2]; change (if _ then _ else _) = _
  rw [if_pos m0, f0, f1]

theorem F.sshlImm (d a : BitVec 6) (n : BitVec 5) : F.Statement (.sshlImm d a n) := by
  intro _ _
  change decodeWord (0x10#7 ++ d ++ 0x0#1 ++ a ++ 0x0#2 ++ n ++ 0x1a#5) _ = _
  generalize hw : (0x10#7 ++ d ++ 0x0#1 ++ a ++ 0x0#2 ++ n ++ 0x1a#5   : Word) = wd
  have h1 : bits wd 26 6 = 8#6 := hw ▸ ((bits_hi _ _ 26 6).trans ((bits_hi _ _ 21 6).trans ((bits_hi _ _ 16 6).trans ((bits_hi _ _ 14 6).trans ((bits_hi _ _ 8 6).trans ((bits_hi _ _ 7 6).trans (by rfl)))))))
  have h2 : bits wd 0 5 = 26#5 := hw ▸ ((bits_lo _ _ 0 5).trans (by rfl))
  have f0 : bits wd 19 6 = d := hw ▸ ((bits_hi _ _ 19 6).trans ((bits_hi _ _ 14 6).trans ((bits_hi _ _ 9 6).trans ((bits_hi _ _ 7 6).trans ((bits_hi _ _ 1 6).trans ((bits_lo _ _ 0 6).trans (bits_all _)))))))
  have f1 : bits wd 12 6 = a := hw ▸ ((bits_hi _ _ 12 6).trans ((bits_hi _ _ 7 6).trans ((bits_hi _ _ 2 6).trans ((bits_lo _ _ 0 6).trans (bits_all _)))))
  have f2 : bits wd 5 5 = n := hw ▸ ((bits_hi _ _ 5 5).trans ((bits_lo _ _ 0 5).trans (bits_all _)))
  have m0 : wd &&& 0xfe040c1f#32 = 0x2000001a#32 := by rw [← hw, and_app, and_app, and_app, and_app, and_app, and_app]; simp
  clear hw
  rw [decodeWord, h1]; change decodeMajor08 _ _ = _; rw [decodeMajor08, h2]; change (if _ then _ else _) = _
  rw [if_pos m0, f0, f1, f2]

theorem F.sshrImm (d a : BitVec 6) (n : BitVec 5) : F.Statement (.sshrImm d a n) := by
  intro _ _
  change decodeWord (0x10#7 ++ d ++ 0x0#1 ++ a ++ 0x0#2 ++ n ++ 0x1b#5) _ = _
  generalize hw : (0x10#7 ++ d ++ 0x0#1 ++ a ++ 0x0#2 ++ n ++ 0x1b#5   : Word) = wd
  have h1 : bits wd 26 6 = 8#6 := hw ▸ ((bits_hi _ _ 26 6).trans ((bits_hi _ _ 21 6).trans ((bits_hi _ _ 16 6).trans ((bits_hi _ _ 14 6).trans ((bits_hi _ _ 8 6).trans ((bits_hi _ _ 7 6).trans (by rfl)))))))
  have h2 : bits wd 0 5 = 27#5 := hw ▸ ((bits_lo _ _ 0 5).trans (by rfl))
  have f0 : bits wd 19 6 = d := hw ▸ ((bits_hi _ _ 19 6).trans ((bits_hi _ _ 14 6).trans ((bits_hi _ _ 9 6).trans ((bits_hi _ _ 7 6).trans ((bits_hi _ _ 1 6).trans ((bits_lo _ _ 0 6).trans (bits_all _)))))))
  have f1 : bits wd 12 6 = a := hw ▸ ((bits_hi _ _ 12 6).trans ((bits_hi _ _ 7 6).trans ((bits_hi _ _ 2 6).trans ((bits_lo _ _ 0 6).trans (bits_all _)))))
  have f2 : bits wd 5 5 = n := hw ▸ ((bits_hi _ _ 5 5).trans ((bits_lo _ _ 0 5).trans (bits_all _)))
  have m0 : wd &&& 0xfe040c1f#32 = 0x2000001b#32 := by rw [← hw, and_app, and_app, and_app, and_app, and_app, and_app]; simp
  clear hw
  rw [decodeWord, h1]; change decodeMajor08 _ _ = _; rw [decodeMajor08, h2]; change (if _ then _ else _) = _
  rw [if_pos m0, f0, f1, f2]

theorem F.ssraImm (d a : BitVec 6) (n : BitVec 5) : F.Statement (.ssraImm d a n) := by
  intro _ _
  change decodeWord (0x10#7 ++ d ++ 0x0#1 ++ a ++ 0x0#2 ++ n ++ 0x1c#5) _ = _
  generalize hw : (0x10#7 ++ d ++ 0x0#1 ++ a ++ 0x0#2 ++ n ++ 0x1c#5   : Word) = wd
  have h1 : bits wd 26 6 = 8#6 := hw ▸ ((bits_hi _ _ 26 6).trans ((bits_hi _ _ 21 6).trans ((bits_hi _ _ 16 6).trans ((bits_hi _ _ 14 6).trans ((bits_hi _ _ 8 6).trans ((bits_hi _ _ 7 6).trans (by rfl)))))))
  have h2 : bits wd 0 5 = 28#5 := hw ▸ ((bits_lo _ _ 0 5).trans (by rfl))
  have f0 : bits wd 19 6 = d := hw ▸ ((bits_hi _ _ 19 6).trans ((bits_hi _ _ 14 6).trans ((bits_hi _ _ 9 6).trans ((bits_hi _ _ 7 6).trans ((bits_hi _ _ 1 6).trans ((bits_lo _ _ 0 6).trans (bits_all _)))))))
  have f1 : bits wd 12 6 = a := hw ▸ ((bits_hi _ _ 12 6).trans ((bits_hi _ _ 7 6).trans ((bits_hi _ _ 2 6).trans ((bits_lo _ _ 0 6).trans (bits_all _)))))
  have f2 : bits wd 5 5 = n := hw ▸ ((bits_hi _ _ 5 5).trans ((bits_lo _ _ 0 5).trans (bits_all _)))
  have m0 : wd &&& 0xfe040c1f#32 = 0x2000001c#32 := by rw [← hw, and_app, and_app, and_app, and_app, and_app, and_app]; simp
  clear hw
  rw [decodeWord, h1]; change decodeMajor08 _ _ = _; rw [decodeMajor08, h2]; change (if _ then _ else _) = _
  rw [if_pos m0, f0, f1, f2]

theorem F.saddImm (d a : BitVec 6) (i : BitVec 12) (h : Option (BitVec 24)) : F.Statement (.saddImm d a i h) := by
  intro _ _
  change decodeWord (0x12#7 ++ d ++ 0x0#1 ++ a ++ i) _ = _
  generalize hw : (0x12#7 ++ d ++ 0x0#1 ++ a ++ i   : Word) = wd
  have h1 : bits wd 26 6 = 9#6 := hw ▸ ((bits_hi _ _ 26 6).trans ((bits_hi _ _ 14 6).trans ((bits_hi _ _ 8 6).trans ((bits_hi _ _ 7 6).trans (by rfl)))))
  have f0 : bits wd 19 6 = d := hw ▸ ((bits_hi _ _ 19 6).trans ((bits_hi _ _ 7 6).trans ((bits_hi _ _ 1 6).trans ((bits_lo _ _ 0 6).trans (bits_all _)))))
  have f1 : bits wd 12 6 = a := hw ▸ ((bits_hi _ _ 12 6).trans ((bits_lo _ _ 0 6).trans (bits_all _)))
  have f2 : bits wd 0 12 = i := hw ▸ ((bits_lo _ _ 0 12).trans (bits_all _))
  have m0 : wd &&& 0xfe040000#32 = 0x24000000#32 := by rw [← hw, and_app, and_app, and_app, and_app]; simp
  clear hw
  rw [decodeWord, h1]; change decodeMajor09 _ _ = _; rw [decodeMajor09]; change (if _ then _ else _) = _
  rw [if_pos m0, f0, f1, f2]; rfl

theorem F.sli (d : BitVec 6) (i : BitVec 12) (h : Option (BitVec 24)) : F.Statement (.sli d i h) := by
  intro _ _
  change decodeWord (0x14#7 ++ d ++ 0x0#7 ++ i) _ = _
  generalize hw : (0x14#7 ++ d ++ 0x0#7 ++ i   : Word) = wd
  have h1 : bits wd 26 6 = 10#6 := hw ▸ ((bits_hi _ _ 26 6).trans ((bits_hi _ _ 14 6).trans ((bits_hi _ _ 7 6).trans (by rfl))))
  have f0 : bits wd 19 6 = d := hw ▸ ((bits_hi _ _ 19 6).trans ((bits_hi _ _ 7 6).trans ((bits_lo _ _ 0 6).trans (bits_all _))))
  have f1 : bits wd 0 12 = i := hw ▸ ((bits_lo _ _ 0 12).trans (bits_all _))
  have m0 : wd &&& 0xfe07f000#32 = 0x28000000#32 := by rw [← hw, and_app, and_app, and_app]; simp
  clear hw
  rw [decodeWord, h1]; change decodeMajor0a _ _ = _; rw [decodeMajor0a]; change (if _ then _ else _) = _
  rw [if_pos m0, f0, f1]; rfl

theorem F.sandImm (d a : BitVec 6) (i : BitVec 12) (h : Option (BitVec 24)) : F.Statement (.sandImm d a i h) := by
  intro _ _
  change decodeWord (0x16#7 ++ d ++ 0x0#1 ++ a ++ i) _ = _
  generalize hw : (0x16#7 ++ d ++ 0x0#1 ++ a ++ i   : Word) = wd
  have h1 : bits wd 26 6 = 11#6 := hw ▸ ((bits_hi _ _ 26 6).trans ((bits_hi _ _ 14 6).trans ((bits_hi _ _ 8 6).trans ((bits_hi _ _ 7 6).trans (by rfl)))))
  have f0 : bits wd 19 6 = d := hw ▸ ((bits_hi _ _ 19 6).trans ((bits_hi _ _ 7 6).trans ((bits_hi _ _ 1 6).trans ((bits_lo _ _ 0 6).trans (bits_all _)))))
  have f1 : bits wd 12 6 = a := hw ▸ ((bits_hi _ _ 12 6).trans ((bits_lo _ _ 0 6).trans (bits_all _)))
  have f2 : bits wd 0 12 = i := hw ▸ ((bits_lo _ _ 0 12).trans (bits_all _))
  have m0 : wd &&& 0xfe040000#32 = 0x2c000000#32 := by rw [← hw, and_app, and_app, and_app, and_app]; simp
  clear hw
  rw [decodeWord, h1]; change decodeMajor0b _ _ = _; rw [decodeMajor0b]; change (if _ then _ else _) = _
  rw [if_pos m0, f0, f1, f2]; rfl

theorem F.sorImm (d a : BitVec 6) (i : BitVec 12) (h : Option (BitVec 24)) : F.Statement (.sorImm d a i h) := by
  intro _ _
  change decodeWord (0x18#7 ++ d ++ 0x0#1 ++ a ++ i) _ = _
  generalize hw : (0x18#7 ++ d ++ 0x0#1 ++ a ++ i   : Word) = wd
  have h1 : bits wd 26 6 = 12#6 := hw ▸ ((bits_hi _ _ 26 6).trans ((bits_hi _ _ 14 6).trans ((bits_hi _ _ 8 6).trans ((bits_hi _ _ 7 6).trans (by rfl)))))
  have f0 : bits wd 19 6 = d := hw ▸ ((bits_hi _ _ 19 6).trans ((bits_hi _ _ 7 6).trans ((bits_hi _ _ 1 6).trans ((bits_lo _ _ 0 6).trans (bits_all _)))))
  have f1 : bits wd 12 6 = a := hw ▸ ((bits_hi _ _ 12 6).trans ((bits_lo _ _ 0 6).trans (bits_all _)))
  have f2 : bits wd 0 12 = i := hw ▸ ((bits_lo _ _ 0 12).trans (bits_all _))
  have m0 : wd &&& 0xfe040000#32 = 0x30000000#32 := by rw [← hw, and_app, and_app, and_app, and_app]; simp
  clear hw
  rw [decodeWord, h1]; change decodeMajor0c _ _ = _; rw [decodeMajor0c]; change (if _ then _ else _) = _
  rw [if_pos m0, f0, f1, f2]; rfl

theorem F.sxorImm (d a : BitVec 6) (i : BitVec 12) (h : Option (BitVec 24)) : F.Statement (.sxorImm d a i h) := by
  intro _ _
  change decodeWord (0x1a#7 ++ d ++ 0x0#1 ++ a ++ i) _ = _
  generalize hw : (0x1a#7 ++ d ++ 0x0#1 ++ a ++ i   : Word) = wd
  have h1 : bits wd 26 6 = 13#6 := hw ▸ ((bits_hi _ _ 26 6).trans ((bits_hi _ _ 14 6).trans ((bits_hi _ _ 8 6).trans ((bits_hi _ _ 7 6).trans (by rfl)))))
  have f0 : bits wd 19 6 = d := hw ▸ ((bits_hi _ _ 19 6).trans ((bits_hi _ _ 7 6).trans ((bits_hi _ _ 1 6).trans ((bits_lo _ _ 0 6).trans (bits_all _)))))
  have f1 : bits wd 12 6 = a := hw ▸ ((bits_hi _ _ 12 6).trans ((bits_lo _ _ 0 6).trans (bits_all _)))
  have f2 : bits wd 0 12 = i := hw ▸ ((bits_lo _ _ 0 12).trans (bits_all _))
  have m0 : wd &&& 0xfe040000#32 = 0x34000000#32 := by rw [← hw, and_app, and_app, and_app, and_app]; simp
  clear hw
  rw [decodeWord, h1]; change decodeMajor0d _ _ = _; rw [decodeMajor0d]; change (if _ then _ else _) = _
  rw [if_pos m0, f0, f1, f2]; rfl

theorem F.sld (d : BitVec 6) (b : BitVec 5) (l : BitVec 4) (m : BitVec 1) (h : Option (BitVec 24)) : F.Statement (.sld d b l m h) := by
  intro _ _
  change decodeWord (0x1c#7 ++ d ++ b ++ 0x7f#7 ++ l ++ 0x2#2 ++ m) _ = _
  generalize hw : (0x1c#7 ++ d ++ b ++ 0x7f#7 ++ l ++ 0x2#2 ++ m   : Word) = wd
  have h1 : bits wd 26 6 = 14#6 := hw ▸ ((bits_hi _ _ 26 6).trans ((bits_hi _ _ 25 6).trans ((bits_hi _ _ 23 6).trans ((bits_hi _ _ 19 6).trans ((bits_hi _ _ 12 6).trans ((bits_hi _ _ 7 6).trans (by rfl)))))))
  have f0 : bits wd 19 6 = d := hw ▸ ((bits_hi _ _ 19 6).trans ((bits_hi _ _ 18 6).trans ((bits_hi _ _ 16 6).trans ((bits_hi _ _ 12 6).trans ((bits_hi _ _ 5 6).trans ((bits_lo _ _ 0 6).trans (bits_all _)))))))
  have f1 : bits wd 14 5 = b := hw ▸ ((bits_hi _ _ 14 5).trans ((bits_hi _ _ 13 5).trans ((bits_hi _ _ 11 5).trans ((bits_hi _ _ 7 5).trans ((bits_lo _ _ 0 5).trans (bits_all _))))))
  have f2 : bits wd 3 4 = l := hw ▸ ((bits_hi _ _ 3 4).trans ((bits_hi _ _ 2 4).trans ((bits_lo _ _ 0 4).trans (bits_all _))))
  have f3 : bits wd 0 1 = m := hw ▸ ((bits_lo _ _ 0 1).trans (bits_all _))
  have m0 : wd &&& 0xfe003f86#32 = 0x38003f84#32 := by rw [← hw, and_app, and_app, and_app, and_app, and_app, and_app]; simp
  clear hw
  rw [decodeWord, h1]; change decodeMajor0e _ _ = _; rw [decodeMajor0e]; change (if _ then _ else _) = _
  rw [if_pos m0, f0, f1, f2, f3]; rfl

theorem F.sst (d : BitVec 6) (b : BitVec 5) (m : BitVec 1) (h : Option (BitVec 24)) : F.Statement (.sst d b m h) := by
  intro _ _
  change decodeWord (0x1e#7 ++ d ++ b ++ 0x1fc2#13 ++ m) _ = _
  generalize hw : (0x1e#7 ++ d ++ b ++ 0x1fc2#13 ++ m   : Word) = wd
  have h1 : bits wd 26 6 = 15#6 := hw ▸ ((bits_hi _ _ 26 6).trans ((bits_hi _ _ 25 6).trans ((bits_hi _ _ 12 6).trans ((bits_hi _ _ 7 6).trans (by rfl)))))
  have f0 : bits wd 19 6 = d := hw ▸ ((bits_hi _ _ 19 6).trans ((bits_hi _ _ 18 6).trans ((bits_hi _ _ 5 6).trans ((bits_lo _ _ 0 6).trans (bits_all _)))))
  have f1 : bits wd 14 5 = b := hw ▸ ((bits_hi _ _ 14 5).trans ((bits_hi _ _ 13 5).trans ((bits_lo _ _ 0 5).trans (bits_all _))))
  have f2 : bits wd 0 1 = m := hw ▸ ((bits_lo _ _ 0 1).trans (bits_all _))
  have m0 : wd &&& 0xfe003ffe#32 = 0x3c003f84#32 := by rw [← hw, and_app, and_app, and_app, and_app]; simp
  clear hw
  rw [decodeWord, h1]; change decodeMajor0f _ _ = _; rw [decodeMajor0f]; change (if _ then _ else _) = _
  rw [if_pos m0, f0, f1, f2]; rfl

theorem F.vadd (t : BitVec 2) (d a b : BitVec 7) (p : Option Pfx) : F.Statement (.vadd t d a b p) := by
  intro _ _
  change decodeWord (0x4#4 ++ t ++ d ++ a ++ b ++ 0x0#5) _ = _
  generalize hw : (0x4#4 ++ t ++ d ++ a ++ b ++ 0x0#5   : Word) = wd
  have h1 : bits wd 26 6 = 4#4 ++ t := hw ▸ ((bits_hi _ _ 26 6).trans ((bits_hi _ _ 21 6).trans ((bits_hi _ _ 14 6).trans ((bits_hi _ _ 7 6).trans (bits_all _)))))
  have h2 : bits wd 0 5 = 0#5 := hw ▸ ((bits_lo _ _ 0 5).trans (by rfl))
  have f0 : bits wd 26 2 = t := hw ▸ ((bits_hi _ _ 26 2).trans ((bits_hi _ _ 21 2).trans ((bits_hi _ _ 14 2).trans ((bits_hi _ _ 7 2).trans ((bits_lo _ _ 0 2).trans (bits_all _))))))
  have f1 : bits wd 19 7 = d := hw ▸ ((bits_hi _ _ 19 7).trans ((bits_hi _ _ 14 7).trans ((bits_hi _ _ 7 7).trans ((bits_lo _ _ 0 7).trans (bits_all _)))))
  have f2 : bits wd 12 7 = a := hw ▸ ((bits_hi _ _ 12 7).trans ((bits_hi _ _ 7 7).trans ((bits_lo _ _ 0 7).trans (bits_all _))))
  have f3 : bits wd 5 7 = b := hw ▸ ((bits_hi _ _ 5 7).trans ((bits_lo _ _ 0 7).trans (bits_all _)))
  have m0 : wd &&& 0xf000001f#32 = 0x40000000#32 := by rw [← hw, and_app, and_app, and_app, and_app, and_app]; simp
  clear hw
  rcases bv2_cases t with rfl | rfl | rfl | rfl
  · rw [decodeWord, h1]; change decodeMajor10 _ _ = _; rw [decodeMajor10, h2]; change (if _ then _ else _) = _
    rw [if_pos m0, f0, f1, f2, f3]; rfl
  · rw [decodeWord, h1]; change decodeMajor10 _ _ = _; rw [decodeMajor10, h2]; change (if _ then _ else _) = _
    rw [if_pos m0, f0, f1, f2, f3]; rfl
  · rw [decodeWord, h1]; change decodeMajor12 _ _ = _; rw [decodeMajor12, h2]; change (if _ then _ else _) = _
    rw [if_pos m0, f0, f1, f2, f3]; rfl
  · rw [decodeWord, h1]; change decodeMajor12 _ _ = _; rw [decodeMajor12, h2]; change (if _ then _ else _) = _
    rw [if_pos m0, f0, f1, f2, f3]; rfl

theorem F.vsub (t : BitVec 2) (d a b : BitVec 7) (p : Option Pfx) : F.Statement (.vsub t d a b p) := by
  intro _ _
  change decodeWord (0x4#4 ++ t ++ d ++ a ++ b ++ 0x1#5) _ = _
  generalize hw : (0x4#4 ++ t ++ d ++ a ++ b ++ 0x1#5   : Word) = wd
  have h1 : bits wd 26 6 = 4#4 ++ t := hw ▸ ((bits_hi _ _ 26 6).trans ((bits_hi _ _ 21 6).trans ((bits_hi _ _ 14 6).trans ((bits_hi _ _ 7 6).trans (bits_all _)))))
  have h2 : bits wd 0 5 = 1#5 := hw ▸ ((bits_lo _ _ 0 5).trans (by rfl))
  have f0 : bits wd 26 2 = t := hw ▸ ((bits_hi _ _ 26 2).trans ((bits_hi _ _ 21 2).trans ((bits_hi _ _ 14 2).trans ((bits_hi _ _ 7 2).trans ((bits_lo _ _ 0 2).trans (bits_all _))))))
  have f1 : bits wd 19 7 = d := hw ▸ ((bits_hi _ _ 19 7).trans ((bits_hi _ _ 14 7).trans ((bits_hi _ _ 7 7).trans ((bits_lo _ _ 0 7).trans (bits_all _)))))
  have f2 : bits wd 12 7 = a := hw ▸ ((bits_hi _ _ 12 7).trans ((bits_hi _ _ 7 7).trans ((bits_lo _ _ 0 7).trans (bits_all _))))
  have f3 : bits wd 5 7 = b := hw ▸ ((bits_hi _ _ 5 7).trans ((bits_lo _ _ 0 7).trans (bits_all _)))
  have m0 : wd &&& 0xf000001f#32 = 0x40000001#32 := by rw [← hw, and_app, and_app, and_app, and_app, and_app]; simp
  clear hw
  rcases bv2_cases t with rfl | rfl | rfl | rfl
  · rw [decodeWord, h1]; change decodeMajor10 _ _ = _; rw [decodeMajor10, h2]; change (if _ then _ else _) = _
    rw [if_pos m0, f0, f1, f2, f3]; rfl
  · rw [decodeWord, h1]; change decodeMajor10 _ _ = _; rw [decodeMajor10, h2]; change (if _ then _ else _) = _
    rw [if_pos m0, f0, f1, f2, f3]; rfl
  · rw [decodeWord, h1]; change decodeMajor12 _ _ = _; rw [decodeMajor12, h2]; change (if _ then _ else _) = _
    rw [if_pos m0, f0, f1, f2, f3]; rfl
  · rw [decodeWord, h1]; change decodeMajor12 _ _ = _; rw [decodeMajor12, h2]; change (if _ then _ else _) = _
    rw [if_pos m0, f0, f1, f2, f3]; rfl

theorem F.vmul (t : BitVec 2) (d a b : BitVec 7) (p : Option Pfx) : F.Statement (.vmul t d a b p) := by
  intro _ _
  change decodeWord (0x4#4 ++ t ++ d ++ a ++ b ++ 0x2#5) _ = _
  generalize hw : (0x4#4 ++ t ++ d ++ a ++ b ++ 0x2#5   : Word) = wd
  have h1 : bits wd 26 6 = 4#4 ++ t := hw ▸ ((bits_hi _ _ 26 6).trans ((bits_hi _ _ 21 6).trans ((bits_hi _ _ 14 6).trans ((bits_hi _ _ 7 6).trans (bits_all _)))))
  have h2 : bits wd 0 5 = 2#5 := hw ▸ ((bits_lo _ _ 0 5).trans (by rfl))
  have f0 : bits wd 26 2 = t := hw ▸ ((bits_hi _ _ 26 2).trans ((bits_hi _ _ 21 2).trans ((bits_hi _ _ 14 2).trans ((bits_hi _ _ 7 2).trans ((bits_lo _ _ 0 2).trans (bits_all _))))))
  have f1 : bits wd 19 7 = d := hw ▸ ((bits_hi _ _ 19 7).trans ((bits_hi _ _ 14 7).trans ((bits_hi _ _ 7 7).trans ((bits_lo _ _ 0 7).trans (bits_all _)))))
  have f2 : bits wd 12 7 = a := hw ▸ ((bits_hi _ _ 12 7).trans ((bits_hi _ _ 7 7).trans ((bits_lo _ _ 0 7).trans (bits_all _))))
  have f3 : bits wd 5 7 = b := hw ▸ ((bits_hi _ _ 5 7).trans ((bits_lo _ _ 0 7).trans (bits_all _)))
  have m0 : wd &&& 0xf000001f#32 = 0x40000002#32 := by rw [← hw, and_app, and_app, and_app, and_app, and_app]; simp
  clear hw
  rcases bv2_cases t with rfl | rfl | rfl | rfl
  · rw [decodeWord, h1]; change decodeMajor10 _ _ = _; rw [decodeMajor10, h2]; change (if _ then _ else _) = _
    rw [if_pos m0, f0, f1, f2, f3]; rfl
  · rw [decodeWord, h1]; change decodeMajor10 _ _ = _; rw [decodeMajor10, h2]; change (if _ then _ else _) = _
    rw [if_pos m0, f0, f1, f2, f3]; rfl
  · rw [decodeWord, h1]; change decodeMajor12 _ _ = _; rw [decodeMajor12, h2]; change (if _ then _ else _) = _
    rw [if_pos m0, f0, f1, f2, f3]; rfl
  · rw [decodeWord, h1]; change decodeMajor12 _ _ = _; rw [decodeMajor12, h2]; change (if _ then _ else _) = _
    rw [if_pos m0, f0, f1, f2, f3]; rfl

theorem F.vfma (t : BitVec 2) (d a b : BitVec 7) (p : Option Pfx) : F.Statement (.vfma t d a b p) := by
  intro _ _
  change decodeWord (0x4#4 ++ t ++ d ++ a ++ b ++ 0x3#5) _ = _
  generalize hw : (0x4#4 ++ t ++ d ++ a ++ b ++ 0x3#5   : Word) = wd
  have h1 : bits wd 26 6 = 4#4 ++ t := hw ▸ ((bits_hi _ _ 26 6).trans ((bits_hi _ _ 21 6).trans ((bits_hi _ _ 14 6).trans ((bits_hi _ _ 7 6).trans (bits_all _)))))
  have h2 : bits wd 0 5 = 3#5 := hw ▸ ((bits_lo _ _ 0 5).trans (by rfl))
  have f0 : bits wd 26 2 = t := hw ▸ ((bits_hi _ _ 26 2).trans ((bits_hi _ _ 21 2).trans ((bits_hi _ _ 14 2).trans ((bits_hi _ _ 7 2).trans ((bits_lo _ _ 0 2).trans (bits_all _))))))
  have f1 : bits wd 19 7 = d := hw ▸ ((bits_hi _ _ 19 7).trans ((bits_hi _ _ 14 7).trans ((bits_hi _ _ 7 7).trans ((bits_lo _ _ 0 7).trans (bits_all _)))))
  have f2 : bits wd 12 7 = a := hw ▸ ((bits_hi _ _ 12 7).trans ((bits_hi _ _ 7 7).trans ((bits_lo _ _ 0 7).trans (bits_all _))))
  have f3 : bits wd 5 7 = b := hw ▸ ((bits_hi _ _ 5 7).trans ((bits_lo _ _ 0 7).trans (bits_all _)))
  have m0 : wd &&& 0xf000001f#32 = 0x40000003#32 := by rw [← hw, and_app, and_app, and_app, and_app, and_app]; simp
  clear hw
  rcases bv2_cases t with rfl | rfl | rfl | rfl
  · rw [decodeWord, h1]; change decodeMajor10 _ _ = _; rw [decodeMajor10, h2]; change (if _ then _ else _) = _
    rw [if_pos m0, f0, f1, f2, f3]; rfl
  · rw [decodeWord, h1]; change decodeMajor10 _ _ = _; rw [decodeMajor10, h2]; change (if _ then _ else _) = _
    rw [if_pos m0, f0, f1, f2, f3]; rfl
  · rw [decodeWord, h1]; change decodeMajor12 _ _ = _; rw [decodeMajor12, h2]; change (if _ then _ else _) = _
    rw [if_pos m0, f0, f1, f2, f3]; rfl
  · rw [decodeWord, h1]; change decodeMajor12 _ _ = _; rw [decodeMajor12, h2]; change (if _ then _ else _) = _
    rw [if_pos m0, f0, f1, f2, f3]; rfl

theorem F.vfms (t : BitVec 2) (d a b : BitVec 7) (p : Option Pfx) : F.Statement (.vfms t d a b p) := by
  intro _ _
  change decodeWord (0x4#4 ++ t ++ d ++ a ++ b ++ 0x4#5) _ = _
  generalize hw : (0x4#4 ++ t ++ d ++ a ++ b ++ 0x4#5   : Word) = wd
  have h1 : bits wd 26 6 = 4#4 ++ t := hw ▸ ((bits_hi _ _ 26 6).trans ((bits_hi _ _ 21 6).trans ((bits_hi _ _ 14 6).trans ((bits_hi _ _ 7 6).trans (bits_all _)))))
  have h2 : bits wd 0 5 = 4#5 := hw ▸ ((bits_lo _ _ 0 5).trans (by rfl))
  have f0 : bits wd 26 2 = t := hw ▸ ((bits_hi _ _ 26 2).trans ((bits_hi _ _ 21 2).trans ((bits_hi _ _ 14 2).trans ((bits_hi _ _ 7 2).trans ((bits_lo _ _ 0 2).trans (bits_all _))))))
  have f1 : bits wd 19 7 = d := hw ▸ ((bits_hi _ _ 19 7).trans ((bits_hi _ _ 14 7).trans ((bits_hi _ _ 7 7).trans ((bits_lo _ _ 0 7).trans (bits_all _)))))
  have f2 : bits wd 12 7 = a := hw ▸ ((bits_hi _ _ 12 7).trans ((bits_hi _ _ 7 7).trans ((bits_lo _ _ 0 7).trans (bits_all _))))
  have f3 : bits wd 5 7 = b := hw ▸ ((bits_hi _ _ 5 7).trans ((bits_lo _ _ 0 7).trans (bits_all _)))
  have m0 : wd &&& 0xf000001f#32 = 0x40000004#32 := by rw [← hw, and_app, and_app, and_app, and_app, and_app]; simp
  clear hw
  rcases bv2_cases t with rfl | rfl | rfl | rfl
  · rw [decodeWord, h1]; change decodeMajor10 _ _ = _; rw [decodeMajor10, h2]; change (if _ then _ else _) = _
    rw [if_pos m0, f0, f1, f2, f3]; rfl
  · rw [decodeWord, h1]; change decodeMajor10 _ _ = _; rw [decodeMajor10, h2]; change (if _ then _ else _) = _
    rw [if_pos m0, f0, f1, f2, f3]; rfl
  · rw [decodeWord, h1]; change decodeMajor12 _ _ = _; rw [decodeMajor12, h2]; change (if _ then _ else _) = _
    rw [if_pos m0, f0, f1, f2, f3]; rfl
  · rw [decodeWord, h1]; change decodeMajor12 _ _ = _; rw [decodeMajor12, h2]; change (if _ then _ else _) = _
    rw [if_pos m0, f0, f1, f2, f3]; rfl

theorem F.vmin (t : BitVec 2) (d a b : BitVec 7) (p : Option Pfx) : F.Statement (.vmin t d a b p) := by
  intro _ _
  change decodeWord (0x4#4 ++ t ++ d ++ a ++ b ++ 0x5#5) _ = _
  generalize hw : (0x4#4 ++ t ++ d ++ a ++ b ++ 0x5#5   : Word) = wd
  have h1 : bits wd 26 6 = 4#4 ++ t := hw ▸ ((bits_hi _ _ 26 6).trans ((bits_hi _ _ 21 6).trans ((bits_hi _ _ 14 6).trans ((bits_hi _ _ 7 6).trans (bits_all _)))))
  have h2 : bits wd 0 5 = 5#5 := hw ▸ ((bits_lo _ _ 0 5).trans (by rfl))
  have f0 : bits wd 26 2 = t := hw ▸ ((bits_hi _ _ 26 2).trans ((bits_hi _ _ 21 2).trans ((bits_hi _ _ 14 2).trans ((bits_hi _ _ 7 2).trans ((bits_lo _ _ 0 2).trans (bits_all _))))))
  have f1 : bits wd 19 7 = d := hw ▸ ((bits_hi _ _ 19 7).trans ((bits_hi _ _ 14 7).trans ((bits_hi _ _ 7 7).trans ((bits_lo _ _ 0 7).trans (bits_all _)))))
  have f2 : bits wd 12 7 = a := hw ▸ ((bits_hi _ _ 12 7).trans ((bits_hi _ _ 7 7).trans ((bits_lo _ _ 0 7).trans (bits_all _))))
  have f3 : bits wd 5 7 = b := hw ▸ ((bits_hi _ _ 5 7).trans ((bits_lo _ _ 0 7).trans (bits_all _)))
  have m0 : wd &&& 0xf000001f#32 = 0x40000005#32 := by rw [← hw, and_app, and_app, and_app, and_app, and_app]; simp
  clear hw
  rcases bv2_cases t with rfl | rfl | rfl | rfl
  · rw [decodeWord, h1]; change decodeMajor10 _ _ = _; rw [decodeMajor10, h2]; change (if _ then _ else _) = _
    rw [if_pos m0, f0, f1, f2, f3]; rfl
  · rw [decodeWord, h1]; change decodeMajor10 _ _ = _; rw [decodeMajor10, h2]; change (if _ then _ else _) = _
    rw [if_pos m0, f0, f1, f2, f3]; rfl
  · rw [decodeWord, h1]; change decodeMajor12 _ _ = _; rw [decodeMajor12, h2]; change (if _ then _ else _) = _
    rw [if_pos m0, f0, f1, f2, f3]; rfl
  · rw [decodeWord, h1]; change decodeMajor12 _ _ = _; rw [decodeMajor12, h2]; change (if _ then _ else _) = _
    rw [if_pos m0, f0, f1, f2, f3]; rfl

theorem F.vmax (t : BitVec 2) (d a b : BitVec 7) (p : Option Pfx) : F.Statement (.vmax t d a b p) := by
  intro _ _
  change decodeWord (0x4#4 ++ t ++ d ++ a ++ b ++ 0x6#5) _ = _
  generalize hw : (0x4#4 ++ t ++ d ++ a ++ b ++ 0x6#5   : Word) = wd
  have h1 : bits wd 26 6 = 4#4 ++ t := hw ▸ ((bits_hi _ _ 26 6).trans ((bits_hi _ _ 21 6).trans ((bits_hi _ _ 14 6).trans ((bits_hi _ _ 7 6).trans (bits_all _)))))
  have h2 : bits wd 0 5 = 6#5 := hw ▸ ((bits_lo _ _ 0 5).trans (by rfl))
  have f0 : bits wd 26 2 = t := hw ▸ ((bits_hi _ _ 26 2).trans ((bits_hi _ _ 21 2).trans ((bits_hi _ _ 14 2).trans ((bits_hi _ _ 7 2).trans ((bits_lo _ _ 0 2).trans (bits_all _))))))
  have f1 : bits wd 19 7 = d := hw ▸ ((bits_hi _ _ 19 7).trans ((bits_hi _ _ 14 7).trans ((bits_hi _ _ 7 7).trans ((bits_lo _ _ 0 7).trans (bits_all _)))))
  have f2 : bits wd 12 7 = a := hw ▸ ((bits_hi _ _ 12 7).trans ((bits_hi _ _ 7 7).trans ((bits_lo _ _ 0 7).trans (bits_all _))))
  have f3 : bits wd 5 7 = b := hw ▸ ((bits_hi _ _ 5 7).trans ((bits_lo _ _ 0 7).trans (bits_all _)))
  have m0 : wd &&& 0xf000001f#32 = 0x40000006#32 := by rw [← hw, and_app, and_app, and_app, and_app, and_app]; simp
  clear hw
  rcases bv2_cases t with rfl | rfl | rfl | rfl
  · rw [decodeWord, h1]; change decodeMajor10 _ _ = _; rw [decodeMajor10, h2]; change (if _ then _ else _) = _
    rw [if_pos m0, f0, f1, f2, f3]; rfl
  · rw [decodeWord, h1]; change decodeMajor10 _ _ = _; rw [decodeMajor10, h2]; change (if _ then _ else _) = _
    rw [if_pos m0, f0, f1, f2, f3]; rfl
  · rw [decodeWord, h1]; change decodeMajor12 _ _ = _; rw [decodeMajor12, h2]; change (if _ then _ else _) = _
    rw [if_pos m0, f0, f1, f2, f3]; rfl
  · rw [decodeWord, h1]; change decodeMajor12 _ _ = _; rw [decodeMajor12, h2]; change (if _ then _ else _) = _
    rw [if_pos m0, f0, f1, f2, f3]; rfl

theorem F.vrnd (t : BitVec 2) (d a : BitVec 7) (p : Option Pfx) : F.Statement (.vrnd t d a p) := by
  intro _ _
  change decodeWord (0x4#4 ++ t ++ d ++ a ++ 0x7#12) _ = _
  generalize hw : (0x4#4 ++ t ++ d ++ a ++ 0x7#12   : Word) = wd
  have h1 : bits wd 26 6 = 4#4 ++ t := hw ▸ ((bits_hi _ _ 26 6).trans ((bits_hi _ _ 14 6).trans ((bits_hi _ _ 7 6).trans (bits_all _))))
  have h2 : bits wd 0 5 = 7#5 := hw ▸ ((bits_lo _ _ 0 5).trans (by rfl))
  have f0 : bits wd 26 2 = t := hw ▸ ((bits_hi _ _ 26 2).trans ((bits_hi _ _ 14 2).trans ((bits_hi _ _ 7 2).trans ((bits_lo _ _ 0 2).trans (bits_all _)))))
  have f1 : bits wd 19 7 = d := hw ▸ ((bits_hi _ _ 19 7).trans ((bits_hi _ _ 7 7).trans ((bits_lo _ _ 0 7).trans (bits_all _))))
  have f2 : bits wd 12 7 = a := hw ▸ ((bits_hi _ _ 12 7).trans ((bits_lo _ _ 0 7).trans (bits_all _)))
  have m0 : wd &&& 0xf0000fff#32 = 0x40000007#32 := by rw [← hw, and_app, and_app, and_app, and_app]; simp
  clear hw
  rcases bv2_cases t with rfl | rfl | rfl | rfl
  · rw [decodeWord, h1]; change decodeMajor10 _ _ = _; rw [decodeMajor10, h2]; change (if _ then _ else _) = _
    rw [if_pos m0, f0, f1, f2]; rfl
  · rw [decodeWord, h1]; change decodeMajor10 _ _ = _; rw [decodeMajor10, h2]; change (if _ then _ else _) = _
    rw [if_pos m0, f0, f1, f2]; rfl
  · rw [decodeWord, h1]; change decodeMajor12 _ _ = _; rw [decodeMajor12, h2]; change (if _ then _ else _) = _
    rw [if_pos m0, f0, f1, f2]; rfl
  · rw [decodeWord, h1]; change decodeMajor12 _ _ = _; rw [decodeMajor12, h2]; change (if _ then _ else _) = _
    rw [if_pos m0, f0, f1, f2]; rfl

theorem F.vcmpF (t : BitVec 2) (d : BitVec 4) (a b : BitVec 7) (c : BitVec 3) (p : Option Pfx) : F.Statement (.vcmpF t d a b c p) := by
  intro _ _
  change decodeWord (0x4#4 ++ t ++ 0x0#3 ++ d ++ a ++ b ++ 0x1#2 ++ c) _ = _
  generalize hw : (0x4#4 ++ t ++ 0x0#3 ++ d ++ a ++ b ++ 0x1#2 ++ c   : Word) = wd
  have h1 : bits wd 26 6 = 4#4 ++ t := hw ▸ ((bits_hi _ _ 26 6).trans ((bits_hi _ _ 23 6).trans ((bits_hi _ _ 21 6).trans ((bits_hi _ _ 14 6).trans ((bits_hi _ _ 7 6).trans ((bits_hi _ _ 3 6).trans (bits_all _)))))))
  have h2 : bits wd 0 5 = 1#2 ++ c := hw ▸ (bits_mid _ _ _)
  have f0 : bits wd 26 2 = t := hw ▸ ((bits_hi _ _ 26 2).trans ((bits_hi _ _ 23 2).trans ((bits_hi _ _ 21 2).trans ((bits_hi _ _ 14 2).trans ((bits_hi _ _ 7 2).trans ((bits_hi _ _ 3 2).trans ((bits_lo _ _ 0 2).trans (bits_all _))))))))
  have f1 : bits wd 19 4 = d := hw ▸ ((bits_hi _ _ 19 4).trans ((bits_hi _ _ 16 4).trans ((bits_hi _ _ 14 4).trans ((bits_hi _ _ 7 4).trans ((bits_lo _ _ 0 4).trans (bits_all _))))))
  have f2 : bits wd 12 7 = a := hw ▸ ((bits_hi _ _ 12 7).trans ((bits_hi _ _ 9 7).trans ((bits_hi _ _ 7 7).trans ((bits_lo _ _ 0 7).trans (bits_all _)))))
  have f3 : bits wd 5 7 = b := hw ▸ ((bits_hi _ _ 5 7).trans ((bits_hi _ _ 2 7).trans ((bits_lo _ _ 0 7).trans (bits_all _))))
  have f4 : bits wd 0 3 = c := hw ▸ ((bits_lo _ _ 0 3).trans (bits_all _))
  have m0 : wd &&& 0xf3800018#32 = 0x40000008#32 := by rw [← hw, and_app, and_app, and_app, and_app, and_app, and_app, and_app]; simp
  clear hw
  rcases bv2_cases t with rfl | rfl | rfl | rfl
  all_goals rcases bv3_cases c with rfl | rfl | rfl | rfl | rfl | rfl | rfl | rfl
  · rw [decodeWord, h1]; change decodeMajor10 _ _ = _; rw [decodeMajor10, h2]; change (if _ then _ else _) = _
    rw [if_pos m0, f0, f1, f2, f3, f4]; rfl
  · rw [decodeWord, h1]; change decodeMajor10 _ _ = _; rw [decodeMajor10, h2]; change (if _ then _ else _) = _
    rw [if_pos m0, f0, f1, f2, f3, f4]; rfl
  · rw [decodeWord, h1]; change decodeMajor10 _ _ = _; rw [decodeMajor10, h2]; change (if _ then _ else _) = _
    rw [if_pos m0, f0, f1, f2, f3, f4]; rfl
  · rw [decodeWord, h1]; change decodeMajor10 _ _ = _; rw [decodeMajor10, h2]; change (if _ then _ else _) = _
    rw [if_pos m0, f0, f1, f2, f3, f4]; rfl
  · rw [decodeWord, h1]; change decodeMajor10 _ _ = _; rw [decodeMajor10, h2]; change (if _ then _ else _) = _
    rw [if_pos m0, f0, f1, f2, f3, f4]; rfl
  · rw [decodeWord, h1]; change decodeMajor10 _ _ = _; rw [decodeMajor10, h2]; change (if _ then _ else _) = _
    rw [if_pos m0, f0, f1, f2, f3, f4]; rfl
  · rw [decodeWord, h1]; change decodeMajor10 _ _ = _; rw [decodeMajor10, h2]; change (if _ then _ else _) = _
    rw [if_pos m0, f0, f1, f2, f3, f4]; rfl
  · rw [decodeWord, h1]; change decodeMajor10 _ _ = _; rw [decodeMajor10, h2]; change (if _ then _ else _) = _
    rw [if_pos m0, f0, f1, f2, f3, f4]; rfl
  · rw [decodeWord, h1]; change decodeMajor10 _ _ = _; rw [decodeMajor10, h2]; change (if _ then _ else _) = _
    rw [if_pos m0, f0, f1, f2, f3, f4]; rfl
  · rw [decodeWord, h1]; change decodeMajor10 _ _ = _; rw [decodeMajor10, h2]; change (if _ then _ else _) = _
    rw [if_pos m0, f0, f1, f2, f3, f4]; rfl
  · rw [decodeWord, h1]; change decodeMajor10 _ _ = _; rw [decodeMajor10, h2]; change (if _ then _ else _) = _
    rw [if_pos m0, f0, f1, f2, f3, f4]; rfl
  · rw [decodeWord, h1]; change decodeMajor10 _ _ = _; rw [decodeMajor10, h2]; change (if _ then _ else _) = _
    rw [if_pos m0, f0, f1, f2, f3, f4]; rfl
  · rw [decodeWord, h1]; change decodeMajor10 _ _ = _; rw [decodeMajor10, h2]; change (if _ then _ else _) = _
    rw [if_pos m0, f0, f1, f2, f3, f4]; rfl
  · rw [decodeWord, h1]; change decodeMajor10 _ _ = _; rw [decodeMajor10, h2]; change (if _ then _ else _) = _
    rw [if_pos m0, f0, f1, f2, f3, f4]; rfl
  · rw [decodeWord, h1]; change decodeMajor10 _ _ = _; rw [decodeMajor10, h2]; change (if _ then _ else _) = _
    rw [if_pos m0, f0, f1, f2, f3, f4]; rfl
  · rw [decodeWord, h1]; change decodeMajor10 _ _ = _; rw [decodeMajor10, h2]; change (if _ then _ else _) = _
    rw [if_pos m0, f0, f1, f2, f3, f4]; rfl
  · rw [decodeWord, h1]; change decodeMajor12 _ _ = _; rw [decodeMajor12, h2]; change (if _ then _ else _) = _
    rw [if_pos m0, f0, f1, f2, f3, f4]; rfl
  · rw [decodeWord, h1]; change decodeMajor12 _ _ = _; rw [decodeMajor12, h2]; change (if _ then _ else _) = _
    rw [if_pos m0, f0, f1, f2, f3, f4]; rfl
  · rw [decodeWord, h1]; change decodeMajor12 _ _ = _; rw [decodeMajor12, h2]; change (if _ then _ else _) = _
    rw [if_pos m0, f0, f1, f2, f3, f4]; rfl
  · rw [decodeWord, h1]; change decodeMajor12 _ _ = _; rw [decodeMajor12, h2]; change (if _ then _ else _) = _
    rw [if_pos m0, f0, f1, f2, f3, f4]; rfl
  · rw [decodeWord, h1]; change decodeMajor12 _ _ = _; rw [decodeMajor12, h2]; change (if _ then _ else _) = _
    rw [if_pos m0, f0, f1, f2, f3, f4]; rfl
  · rw [decodeWord, h1]; change decodeMajor12 _ _ = _; rw [decodeMajor12, h2]; change (if _ then _ else _) = _
    rw [if_pos m0, f0, f1, f2, f3, f4]; rfl
  · rw [decodeWord, h1]; change decodeMajor12 _ _ = _; rw [decodeMajor12, h2]; change (if _ then _ else _) = _
    rw [if_pos m0, f0, f1, f2, f3, f4]; rfl
  · rw [decodeWord, h1]; change decodeMajor12 _ _ = _; rw [decodeMajor12, h2]; change (if _ then _ else _) = _
    rw [if_pos m0, f0, f1, f2, f3, f4]; rfl
  · rw [decodeWord, h1]; change decodeMajor12 _ _ = _; rw [decodeMajor12, h2]; change (if _ then _ else _) = _
    rw [if_pos m0, f0, f1, f2, f3, f4]; rfl
  · rw [decodeWord, h1]; change decodeMajor12 _ _ = _; rw [decodeMajor12, h2]; change (if _ then _ else _) = _
    rw [if_pos m0, f0, f1, f2, f3, f4]; rfl
  · rw [decodeWord, h1]; change decodeMajor12 _ _ = _; rw [decodeMajor12, h2]; change (if _ then _ else _) = _
    rw [if_pos m0, f0, f1, f2, f3, f4]; rfl
  · rw [decodeWord, h1]; change decodeMajor12 _ _ = _; rw [decodeMajor12, h2]; change (if _ then _ else _) = _
    rw [if_pos m0, f0, f1, f2, f3, f4]; rfl
  · rw [decodeWord, h1]; change decodeMajor12 _ _ = _; rw [decodeMajor12, h2]; change (if _ then _ else _) = _
    rw [if_pos m0, f0, f1, f2, f3, f4]; rfl
  · rw [decodeWord, h1]; change decodeMajor12 _ _ = _; rw [decodeMajor12, h2]; change (if _ then _ else _) = _
    rw [if_pos m0, f0, f1, f2, f3, f4]; rfl
  · rw [decodeWord, h1]; change decodeMajor12 _ _ = _; rw [decodeMajor12, h2]; change (if _ then _ else _) = _
    rw [if_pos m0, f0, f1, f2, f3, f4]; rfl
  · rw [decodeWord, h1]; change decodeMajor12 _ _ = _; rw [decodeMajor12, h2]; change (if _ then _ else _) = _
    rw [if_pos m0, f0, f1, f2, f3, f4]; rfl

theorem F.vrcp (t : BitVec 1) (d a : BitVec 7) (l : BitVec 4) (p : Option Pfx) : F.Statement (.vrcp t d a l p) := by
  intro _ _
  change decodeWord (0x8#5 ++ t ++ d ++ a ++ 0x0#3 ++ l ++ 0x10#5) _ = _
  generalize hw : (0x8#5 ++ t ++ d ++ a ++ 0x0#3 ++ l ++ 0x10#5   : Word) = wd
  have h1 : bits wd 26 6 = 8#5 ++ t := hw ▸ ((bits_hi _ _ 26 6).trans ((bits_hi _ _ 21 6).trans ((bits_hi _ _ 17 6).trans ((bits_hi _ _ 14 6).trans ((bits_hi _ _ 7 6).trans (bits_all _))))))
  have h2 : bits wd 0 5 = 16#5 := hw ▸ ((bits_lo _ _ 0 5).trans (by rfl))
  have f0 : bits wd 26 1 = t := hw ▸ ((bits_hi _ _ 26 1).trans ((bits_hi _ _ 21 1).trans ((bits_hi _ _ 17 1).trans ((bits_hi _ _ 14 1).trans ((bits_hi _ _ 7 1).trans ((bits_lo _ _ 0 1).trans (bits_all _)))))))
  have f1 : bits wd 19 7 = d := hw ▸ ((bits_hi _ _ 19 7).trans ((bits_hi _ _ 14 7).trans ((bits_hi _ _ 10 7).trans ((bits_hi _ _ 7 7).trans ((bits_lo _ _ 0 7).trans (bits_all _))))))
  have f2 : bits wd 12 7 = a := hw ▸ ((bits_hi _ _ 12 7).trans ((bits_hi _ _ 7 7).trans ((bits_hi _ _ 3 7).trans ((bits_lo _ _ 0 7).trans (bits_all _)))))
  have f3 : bits wd 5 4 = l := hw ▸ ((bits_hi _ _ 5 4).trans ((bits_lo _ _ 0 4).trans (bits_all _)))
  have m0 : wd &&& 0xf8000e1f#32 = 0x40000010#32 := by rw [← hw, and_app, and_app, and_app, and_app, and_app, and_app]; simp
  clear hw
  rcases bv1_cases t with rfl | rfl
  all_goals
    rw [decodeWord, h1]; change decodeMajor10 _ _ = _; rw [decodeMajor10, h2]; change (if _ then _ else _) = _
    rw [if_pos m0, f0, f1, f2, f3]; rfl

theorem F.vrsq (t : BitVec 1) (d a : BitVec 7) (l : BitVec 4) (p : Option Pfx) : F.Statement (.vrsq t d a l p) := by
  intro _ _
  change decodeWord (0x8#5 ++ t ++ d ++ a ++ 0x0#3 ++ l ++ 0x11#5) _ = _
  generalize hw : (0x8#5 ++ t ++ d ++ a ++ 0x0#3 ++ l ++ 0x11#5   : Word) = wd
  have h1 : bits wd 26 6 = 8#5 ++ t := hw ▸ ((bits_hi _ _ 26 6).trans ((bits_hi _ _ 21 6).trans ((bits_hi _ _ 17 6).trans ((bits_hi _ _ 14 6).trans ((bits_hi _ _ 7 6).trans (bits_all _))))))
  have h2 : bits wd 0 5 = 17#5 := hw ▸ ((bits_lo _ _ 0 5).trans (by rfl))
  have f0 : bits wd 26 1 = t := hw ▸ ((bits_hi _ _ 26 1).trans ((bits_hi _ _ 21 1).trans ((bits_hi _ _ 17 1).trans ((bits_hi _ _ 14 1).trans ((bits_hi _ _ 7 1).trans ((bits_lo _ _ 0 1).trans (bits_all _)))))))
  have f1 : bits wd 19 7 = d := hw ▸ ((bits_hi _ _ 19 7).trans ((bits_hi _ _ 14 7).trans ((bits_hi _ _ 10 7).trans ((bits_hi _ _ 7 7).trans ((bits_lo _ _ 0 7).trans (bits_all _))))))
  have f2 : bits wd 12 7 = a := hw ▸ ((bits_hi _ _ 12 7).trans ((bits_hi _ _ 7 7).trans ((bits_hi _ _ 3 7).trans ((bits_lo _ _ 0 7).trans (bits_all _)))))
  have f3 : bits wd 5 4 = l := hw ▸ ((bits_hi _ _ 5 4).trans ((bits_lo _ _ 0 4).trans (bits_all _)))
  have m0 : wd &&& 0xf8000e1f#32 = 0x40000011#32 := by rw [← hw, and_app, and_app, and_app, and_app, and_app, and_app]; simp
  clear hw
  rcases bv1_cases t with rfl | rfl
  all_goals
    rw [decodeWord, h1]; change decodeMajor10 _ _ = _; rw [decodeMajor10, h2]; change (if _ then _ else _) = _
    rw [if_pos m0, f0, f1, f2, f3]; rfl

theorem F.vsqrt (t : BitVec 1) (d a : BitVec 7) (l : BitVec 4) (p : Option Pfx) : F.Statement (.vsqrt t d a l p) := by
  intro _ _
  change decodeWord (0x8#5 ++ t ++ d ++ a ++ 0x0#3 ++ l ++ 0x12#5) _ = _
  generalize hw : (0x8#5 ++ t ++ d ++ a ++ 0x0#3 ++ l ++ 0x12#5   : Word) = wd
  have h1 : bits wd 26 6 = 8#5 ++ t := hw ▸ ((bits_hi _ _ 26 6).trans ((bits_hi _ _ 21 6).trans ((bits_hi _ _ 17 6).trans ((bits_hi _ _ 14 6).trans ((bits_hi _ _ 7 6).trans (bits_all _))))))
  have h2 : bits wd 0 5 = 18#5 := hw ▸ ((bits_lo _ _ 0 5).trans (by rfl))
  have f0 : bits wd 26 1 = t := hw ▸ ((bits_hi _ _ 26 1).trans ((bits_hi _ _ 21 1).trans ((bits_hi _ _ 17 1).trans ((bits_hi _ _ 14 1).trans ((bits_hi _ _ 7 1).trans ((bits_lo _ _ 0 1).trans (bits_all _)))))))
  have f1 : bits wd 19 7 = d := hw ▸ ((bits_hi _ _ 19 7).trans ((bits_hi _ _ 14 7).trans ((bits_hi _ _ 10 7).trans ((bits_hi _ _ 7 7).trans ((bits_lo _ _ 0 7).trans (bits_all _))))))
  have f2 : bits wd 12 7 = a := hw ▸ ((bits_hi _ _ 12 7).trans ((bits_hi _ _ 7 7).trans ((bits_hi _ _ 3 7).trans ((bits_lo _ _ 0 7).trans (bits_all _)))))
  have f3 : bits wd 5 4 = l := hw ▸ ((bits_hi _ _ 5 4).trans ((bits_lo _ _ 0 4).trans (bits_all _)))
  have m0 : wd &&& 0xf8000e1f#32 = 0x40000012#32 := by rw [← hw, and_app, and_app, and_app, and_app, and_app, and_app]; simp
  clear hw
  rcases bv1_cases t with rfl | rfl
  all_goals
    rw [decodeWord, h1]; change decodeMajor10 _ _ = _; rw [decodeMajor10, h2]; change (if _ then _ else _) = _
    rw [if_pos m0, f0, f1, f2, f3]; rfl

theorem F.vexp2 (t : BitVec 1) (d a : BitVec 7) (l : BitVec 4) (p : Option Pfx) : F.Statement (.vexp2 t d a l p) := by
  intro _ _
  change decodeWord (0x8#5 ++ t ++ d ++ a ++ 0x0#3 ++ l ++ 0x13#5) _ = _
  generalize hw : (0x8#5 ++ t ++ d ++ a ++ 0x0#3 ++ l ++ 0x13#5   : Word) = wd
  have h1 : bits wd 26 6 = 8#5 ++ t := hw ▸ ((bits_hi _ _ 26 6).trans ((bits_hi _ _ 21 6).trans ((bits_hi _ _ 17 6).trans ((bits_hi _ _ 14 6).trans ((bits_hi _ _ 7 6).trans (bits_all _))))))
  have h2 : bits wd 0 5 = 19#5 := hw ▸ ((bits_lo _ _ 0 5).trans (by rfl))
  have f0 : bits wd 26 1 = t := hw ▸ ((bits_hi _ _ 26 1).trans ((bits_hi _ _ 21 1).trans ((bits_hi _ _ 17 1).trans ((bits_hi _ _ 14 1).trans ((bits_hi _ _ 7 1).trans ((bits_lo _ _ 0 1).trans (bits_all _)))))))
  have f1 : bits wd 19 7 = d := hw ▸ ((bits_hi _ _ 19 7).trans ((bits_hi _ _ 14 7).trans ((bits_hi _ _ 10 7).trans ((bits_hi _ _ 7 7).trans ((bits_lo _ _ 0 7).trans (bits_all _))))))
  have f2 : bits wd 12 7 = a := hw ▸ ((bits_hi _ _ 12 7).trans ((bits_hi _ _ 7 7).trans ((bits_hi _ _ 3 7).trans ((bits_lo _ _ 0 7).trans (bits_all _)))))
  have f3 : bits wd 5 4 = l := hw ▸ ((bits_hi _ _ 5 4).trans ((bits_lo _ _ 0 4).trans (bits_all _)))
  have m0 : wd &&& 0xf8000e1f#32 = 0x40000013#32 := by rw [← hw, and_app, and_app, and_app, and_app, and_app, and_app]; simp
  clear hw
  rcases bv1_cases t with rfl | rfl
  all_goals
    rw [decodeWord, h1]; change decodeMajor10 _ _ = _; rw [decodeMajor10, h2]; change (if _ then _ else _) = _
    rw [if_pos m0, f0, f1, f2, f3]; rfl

theorem F.vlog2 (t : BitVec 1) (d a : BitVec 7) (l : BitVec 4) (p : Option Pfx) : F.Statement (.vlog2 t d a l p) := by
  intro _ _
  change decodeWord (0x8#5 ++ t ++ d ++ a ++ 0x0#3 ++ l ++ 0x14#5) _ = _
  generalize hw : (0x8#5 ++ t ++ d ++ a ++ 0x0#3 ++ l ++ 0x14#5   : Word) = wd
  have h1 : bits wd 26 6 = 8#5 ++ t := hw ▸ ((bits_hi _ _ 26 6).trans ((bits_hi _ _ 21 6).trans ((bits_hi _ _ 17 6).trans ((bits_hi _ _ 14 6).trans ((bits_hi _ _ 7 6).trans (bits_all _))))))
  have h2 : bits wd 0 5 = 20#5 := hw ▸ ((bits_lo _ _ 0 5).trans (by rfl))
  have f0 : bits wd 26 1 = t := hw ▸ ((bits_hi _ _ 26 1).trans ((bits_hi _ _ 21 1).trans ((bits_hi _ _ 17 1).trans ((bits_hi _ _ 14 1).trans ((bits_hi _ _ 7 1).trans ((bits_lo _ _ 0 1).trans (bits_all _)))))))
  have f1 : bits wd 19 7 = d := hw ▸ ((bits_hi _ _ 19 7).trans ((bits_hi _ _ 14 7).trans ((bits_hi _ _ 10 7).trans ((bits_hi _ _ 7 7).trans ((bits_lo _ _ 0 7).trans (bits_all _))))))
  have f2 : bits wd 12 7 = a := hw ▸ ((bits_hi _ _ 12 7).trans ((bits_hi _ _ 7 7).trans ((bits_hi _ _ 3 7).trans ((bits_lo _ _ 0 7).trans (bits_all _)))))
  have f3 : bits wd 5 4 = l := hw ▸ ((bits_hi _ _ 5 4).trans ((bits_lo _ _ 0 4).trans (bits_all _)))
  have m0 : wd &&& 0xf8000e1f#32 = 0x40000014#32 := by rw [← hw, and_app, and_app, and_app, and_app, and_app, and_app]; simp
  clear hw
  rcases bv1_cases t with rfl | rfl
  all_goals
    rw [decodeWord, h1]; change decodeMajor10 _ _ = _; rw [decodeMajor10, h2]; change (if _ then _ else _) = _
    rw [if_pos m0, f0, f1, f2, f3]; rfl

theorem F.vsin (t : BitVec 1) (d a : BitVec 7) (l : BitVec 4) (p : Option Pfx) : F.Statement (.vsin t d a l p) := by
  intro _ _
  change decodeWord (0x8#5 ++ t ++ d ++ a ++ 0x0#3 ++ l ++ 0x15#5) _ = _
  generalize hw : (0x8#5 ++ t ++ d ++ a ++ 0x0#3 ++ l ++ 0x15#5   : Word) = wd
  have h1 : bits wd 26 6 = 8#5 ++ t := hw ▸ ((bits_hi _ _ 26 6).trans ((bits_hi _ _ 21 6).trans ((bits_hi _ _ 17 6).trans ((bits_hi _ _ 14 6).trans ((bits_hi _ _ 7 6).trans (bits_all _))))))
  have h2 : bits wd 0 5 = 21#5 := hw ▸ ((bits_lo _ _ 0 5).trans (by rfl))
  have f0 : bits wd 26 1 = t := hw ▸ ((bits_hi _ _ 26 1).trans ((bits_hi _ _ 21 1).trans ((bits_hi _ _ 17 1).trans ((bits_hi _ _ 14 1).trans ((bits_hi _ _ 7 1).trans ((bits_lo _ _ 0 1).trans (bits_all _)))))))
  have f1 : bits wd 19 7 = d := hw ▸ ((bits_hi _ _ 19 7).trans ((bits_hi _ _ 14 7).trans ((bits_hi _ _ 10 7).trans ((bits_hi _ _ 7 7).trans ((bits_lo _ _ 0 7).trans (bits_all _))))))
  have f2 : bits wd 12 7 = a := hw ▸ ((bits_hi _ _ 12 7).trans ((bits_hi _ _ 7 7).trans ((bits_hi _ _ 3 7).trans ((bits_lo _ _ 0 7).trans (bits_all _)))))
  have f3 : bits wd 5 4 = l := hw ▸ ((bits_hi _ _ 5 4).trans ((bits_lo _ _ 0 4).trans (bits_all _)))
  have m0 : wd &&& 0xf8000e1f#32 = 0x40000015#32 := by rw [← hw, and_app, and_app, and_app, and_app, and_app, and_app]; simp
  clear hw
  rcases bv1_cases t with rfl | rfl
  all_goals
    rw [decodeWord, h1]; change decodeMajor10 _ _ = _; rw [decodeMajor10, h2]; change (if _ then _ else _) = _
    rw [if_pos m0, f0, f1, f2, f3]; rfl

theorem F.vcos (t : BitVec 1) (d a : BitVec 7) (l : BitVec 4) (p : Option Pfx) : F.Statement (.vcos t d a l p) := by
  intro _ _
  change decodeWord (0x8#5 ++ t ++ d ++ a ++ 0x0#3 ++ l ++ 0x16#5) _ = _
  generalize hw : (0x8#5 ++ t ++ d ++ a ++ 0x0#3 ++ l ++ 0x16#5   : Word) = wd
  have h1 : bits wd 26 6 = 8#5 ++ t := hw ▸ ((bits_hi _ _ 26 6).trans ((bits_hi _ _ 21 6).trans ((bits_hi _ _ 17 6).trans ((bits_hi _ _ 14 6).trans ((bits_hi _ _ 7 6).trans (bits_all _))))))
  have h2 : bits wd 0 5 = 22#5 := hw ▸ ((bits_lo _ _ 0 5).trans (by rfl))
  have f0 : bits wd 26 1 = t := hw ▸ ((bits_hi _ _ 26 1).trans ((bits_hi _ _ 21 1).trans ((bits_hi _ _ 17 1).trans ((bits_hi _ _ 14 1).trans ((bits_hi _ _ 7 1).trans ((bits_lo _ _ 0 1).trans (bits_all _)))))))
  have f1 : bits wd 19 7 = d := hw ▸ ((bits_hi _ _ 19 7).trans ((bits_hi _ _ 14 7).trans ((bits_hi _ _ 10 7).trans ((bits_hi _ _ 7 7).trans ((bits_lo _ _ 0 7).trans (bits_all _))))))
  have f2 : bits wd 12 7 = a := hw ▸ ((bits_hi _ _ 12 7).trans ((bits_hi _ _ 7 7).trans ((bits_hi _ _ 3 7).trans ((bits_lo _ _ 0 7).trans (bits_all _)))))
  have f3 : bits wd 5 4 = l := hw ▸ ((bits_hi _ _ 5 4).trans ((bits_lo _ _ 0 4).trans (bits_all _)))
  have m0 : wd &&& 0xf8000e1f#32 = 0x40000016#32 := by rw [← hw, and_app, and_app, and_app, and_app, and_app, and_app]; simp
  clear hw
  rcases bv1_cases t with rfl | rfl
  all_goals
    rw [decodeWord, h1]; change decodeMajor10 _ _ = _; rw [decodeMajor10, h2]; change (if _ then _ else _) = _
    rw [if_pos m0, f0, f1, f2, f3]; rfl

theorem F.vtanh (t : BitVec 1) (d a : BitVec 7) (l : BitVec 4) (p : Option Pfx) : F.Statement (.vtanh t d a l p) := by
  intro _ _
  change decodeWord (0x8#5 ++ t ++ d ++ a ++ 0x0#3 ++ l ++ 0x17#5) _ = _
  generalize hw : (0x8#5 ++ t ++ d ++ a ++ 0x0#3 ++ l ++ 0x17#5   : Word) = wd
  have h1 : bits wd 26 6 = 8#5 ++ t := hw ▸ ((bits_hi _ _ 26 6).trans ((bits_hi _ _ 21 6).trans ((bits_hi _ _ 17 6).trans ((bits_hi _ _ 14 6).trans ((bits_hi _ _ 7 6).trans (bits_all _))))))
  have h2 : bits wd 0 5 = 23#5 := hw ▸ ((bits_lo _ _ 0 5).trans (by rfl))
  have f0 : bits wd 26 1 = t := hw ▸ ((bits_hi _ _ 26 1).trans ((bits_hi _ _ 21 1).trans ((bits_hi _ _ 17 1).trans ((bits_hi _ _ 14 1).trans ((bits_hi _ _ 7 1).trans ((bits_lo _ _ 0 1).trans (bits_all _)))))))
  have f1 : bits wd 19 7 = d := hw ▸ ((bits_hi _ _ 19 7).trans ((bits_hi _ _ 14 7).trans ((bits_hi _ _ 10 7).trans ((bits_hi _ _ 7 7).trans ((bits_lo _ _ 0 7).trans (bits_all _))))))
  have f2 : bits wd 12 7 = a := hw ▸ ((bits_hi _ _ 12 7).trans ((bits_hi _ _ 7 7).trans ((bits_hi _ _ 3 7).trans ((bits_lo _ _ 0 7).trans (bits_all _)))))
  have f3 : bits wd 5 4 = l := hw ▸ ((bits_hi _ _ 5 4).trans ((bits_lo _ _ 0 4).trans (bits_all _)))
  have m0 : wd &&& 0xf8000e1f#32 = 0x40000017#32 := by rw [← hw, and_app, and_app, and_app, and_app, and_app, and_app]; simp
  clear hw
  rcases bv1_cases t with rfl | rfl
  all_goals
    rw [decodeWord, h1]; change decodeMajor10 _ _ = _; rw [decodeMajor10, h2]; change (if _ then _ else _) = _
    rw [if_pos m0, f0, f1, f2, f3]; rfl

theorem F.viadd (t : BitVec 2) (d a b : BitVec 7) (p : Option Pfx) : F.Statement (.viadd t d a b p) := by
  intro _ _
  change decodeWord (0x5#4 ++ t ++ d ++ a ++ b ++ 0x0#5) _ = _
  generalize hw : (0x5#4 ++ t ++ d ++ a ++ b ++ 0x0#5   : Word) = wd
  have h1 : bits wd 26 6 = 5#4 ++ t := hw ▸ ((bits_hi _ _ 26 6).trans ((bits_hi _ _ 21 6).trans ((bits_hi _ _ 14 6).trans ((bits_hi _ _ 7 6).trans (bits_all _)))))
  have h2 : bits wd 0 5 = 0#5 := hw ▸ ((bits_lo _ _ 0 5).trans (by rfl))
  have f0 : bits wd 26 2 = t := hw ▸ ((bits_hi _ _ 26 2).trans ((bits_hi _ _ 21 2).trans ((bits_hi _ _ 14 2).trans ((bits_hi _ _ 7 2).trans ((bits_lo _ _ 0 2).trans (bits_all _))))))
  have f1 : bits wd 19 7 = d := hw ▸ ((bits_hi _ _ 19 7).trans ((bits_hi _ _ 14 7).trans ((bits_hi _ _ 7 7).trans ((bits_lo _ _ 0 7).trans (bits_all _)))))
  have f2 : bits wd 12 7 = a := hw ▸ ((bits_hi _ _ 12 7).trans ((bits_hi _ _ 7 7).trans ((bits_lo _ _ 0 7).trans (bits_all _))))
  have f3 : bits wd 5 7 = b := hw ▸ ((bits_hi _ _ 5 7).trans ((bits_lo _ _ 0 7).trans (bits_all _)))
  have m0 : wd &&& 0xf000001f#32 = 0x50000000#32 := by rw [← hw, and_app, and_app, and_app, and_app, and_app]; simp
  clear hw
  rcases bv2_cases t with rfl | rfl | rfl | rfl
  · rw [decodeWord, h1]; change decodeMajor14 _ _ = _; rw [decodeMajor14, h2]; change (if _ then _ else _) = _
    rw [if_pos m0, f0, f1, f2, f3]; rfl
  · rw [decodeWord, h1]; change decodeMajor14 _ _ = _; rw [decodeMajor14, h2]; change (if _ then _ else _) = _
    rw [if_pos m0, f0, f1, f2, f3]; rfl
  · rw [decodeWord, h1]; change decodeMajor14 _ _ = _; rw [decodeMajor14, h2]; change (if _ then _ else _) = _
    rw [if_pos m0, f0, f1, f2, f3]; rfl
  · rw [decodeWord, h1]; change decodeMajor17 _ _ = _; rw [decodeMajor17, h2]; change (if _ then _ else _) = _
    rw [if_pos m0, f0, f1, f2, f3]; rfl

theorem F.visub (t : BitVec 2) (d a b : BitVec 7) (p : Option Pfx) : F.Statement (.visub t d a b p) := by
  intro _ _
  change decodeWord (0x5#4 ++ t ++ d ++ a ++ b ++ 0x1#5) _ = _
  generalize hw : (0x5#4 ++ t ++ d ++ a ++ b ++ 0x1#5   : Word) = wd
  have h1 : bits wd 26 6 = 5#4 ++ t := hw ▸ ((bits_hi _ _ 26 6).trans ((bits_hi _ _ 21 6).trans ((bits_hi _ _ 14 6).trans ((bits_hi _ _ 7 6).trans (bits_all _)))))
  have h2 : bits wd 0 5 = 1#5 := hw ▸ ((bits_lo _ _ 0 5).trans (by rfl))
  have f0 : bits wd 26 2 = t := hw ▸ ((bits_hi _ _ 26 2).trans ((bits_hi _ _ 21 2).trans ((bits_hi _ _ 14 2).trans ((bits_hi _ _ 7 2).trans ((bits_lo _ _ 0 2).trans (bits_all _))))))
  have f1 : bits wd 19 7 = d := hw ▸ ((bits_hi _ _ 19 7).trans ((bits_hi _ _ 14 7).trans ((bits_hi _ _ 7 7).trans ((bits_lo _ _ 0 7).trans (bits_all _)))))
  have f2 : bits wd 12 7 = a := hw ▸ ((bits_hi _ _ 12 7).trans ((bits_hi _ _ 7 7).trans ((bits_lo _ _ 0 7).trans (bits_all _))))
  have f3 : bits wd 5 7 = b := hw ▸ ((bits_hi _ _ 5 7).trans ((bits_lo _ _ 0 7).trans (bits_all _)))
  have m0 : wd &&& 0xf000001f#32 = 0x50000001#32 := by rw [← hw, and_app, and_app, and_app, and_app, and_app]; simp
  clear hw
  rcases bv2_cases t with rfl | rfl | rfl | rfl
  · rw [decodeWord, h1]; change decodeMajor14 _ _ = _; rw [decodeMajor14, h2]; change (if _ then _ else _) = _
    rw [if_pos m0, f0, f1, f2, f3]; rfl
  · rw [decodeWord, h1]; change decodeMajor14 _ _ = _; rw [decodeMajor14, h2]; change (if _ then _ else _) = _
    rw [if_pos m0, f0, f1, f2, f3]; rfl
  · rw [decodeWord, h1]; change decodeMajor14 _ _ = _; rw [decodeMajor14, h2]; change (if _ then _ else _) = _
    rw [if_pos m0, f0, f1, f2, f3]; rfl
  · rw [decodeWord, h1]; change decodeMajor17 _ _ = _; rw [decodeMajor17, h2]; change (if _ then _ else _) = _
    rw [if_pos m0, f0, f1, f2, f3]; rfl

theorem F.vimul (t : BitVec 2) (d a b : BitVec 7) (p : Option Pfx) : F.Statement (.vimul t d a b p) := by
  intro _ _
  change decodeWord (0x5#4 ++ t ++ d ++ a ++ b ++ 0x2#5) _ = _
  generalize hw : (0x5#4 ++ t ++ d ++ a ++ b ++ 0x2#5   : Word) = wd
  have h1 : bits wd 26 6 = 5#4 ++ t := hw ▸ ((bits_hi _ _ 26 6).trans ((bits_hi _ _ 21 6).trans ((bits_hi _ _ 14 6).trans ((bits_hi _ _ 7 6).trans (bits_all _)))))
  have h2 : bits wd 0 5 = 2#5 := hw ▸ ((bits_lo _ _ 0 5).trans (by rfl))
  have f0 : bits wd 26 2 = t := hw ▸ ((bits_hi _ _ 26 2).trans ((bits_hi _ _ 21 2).trans ((bits_hi _ _ 14 2).trans ((bits_hi _ _ 7 2).trans ((bits_lo _ _ 0 2).trans (bits_all _))))))
  have f1 : bits wd 19 7 = d := hw ▸ ((bits_hi _ _ 19 7).trans ((bits_hi _ _ 14 7).trans ((bits_hi _ _ 7 7).trans ((bits_lo _ _ 0 7).trans (bits_all _)))))
  have f2 : bits wd 12 7 = a := hw ▸ ((bits_hi _ _ 12 7).trans ((bits_hi _ _ 7 7).trans ((bits_lo _ _ 0 7).trans (bits_all _))))
  have f3 : bits wd 5 7 = b := hw ▸ ((bits_hi _ _ 5 7).trans ((bits_lo _ _ 0 7).trans (bits_all _)))
  have m0 : wd &&& 0xf000001f#32 = 0x50000002#32 := by rw [← hw, and_app, and_app, and_app, and_app, and_app]; simp
  clear hw
  rcases bv2_cases t with rfl | rfl | rfl | rfl
  · rw [decodeWord, h1]; change decodeMajor14 _ _ = _; rw [decodeMajor14, h2]; change (if _ then _ else _) = _
    rw [if_pos m0, f0, f1, f2, f3]; rfl
  · rw [decodeWord, h1]; change decodeMajor14 _ _ = _; rw [decodeMajor14, h2]; change (if _ then _ else _) = _
    rw [if_pos m0, f0, f1, f2, f3]; rfl
  · rw [decodeWord, h1]; change decodeMajor14 _ _ = _; rw [decodeMajor14, h2]; change (if _ then _ else _) = _
    rw [if_pos m0, f0, f1, f2, f3]; rfl
  · rw [decodeWord, h1]; change decodeMajor17 _ _ = _; rw [decodeMajor17, h2]; change (if _ then _ else _) = _
    rw [if_pos m0, f0, f1, f2, f3]; rfl

theorem F.vimulh (t : BitVec 2) (d a b : BitVec 7) (p : Option Pfx) : F.Statement (.vimulh t d a b p) := by
  intro _ _
  change decodeWord (0x5#4 ++ t ++ d ++ a ++ b ++ 0x3#5) _ = _
  generalize hw : (0x5#4 ++ t ++ d ++ a ++ b ++ 0x3#5   : Word) = wd
  have h1 : bits wd 26 6 = 5#4 ++ t := hw ▸ ((bits_hi _ _ 26 6).trans ((bits_hi _ _ 21 6).trans ((bits_hi _ _ 14 6).trans ((bits_hi _ _ 7 6).trans (bits_all _)))))
  have h2 : bits wd 0 5 = 3#5 := hw ▸ ((bits_lo _ _ 0 5).trans (by rfl))
  have f0 : bits wd 26 2 = t := hw ▸ ((bits_hi _ _ 26 2).trans ((bits_hi _ _ 21 2).trans ((bits_hi _ _ 14 2).trans ((bits_hi _ _ 7 2).trans ((bits_lo _ _ 0 2).trans (bits_all _))))))
  have f1 : bits wd 19 7 = d := hw ▸ ((bits_hi _ _ 19 7).trans ((bits_hi _ _ 14 7).trans ((bits_hi _ _ 7 7).trans ((bits_lo _ _ 0 7).trans (bits_all _)))))
  have f2 : bits wd 12 7 = a := hw ▸ ((bits_hi _ _ 12 7).trans ((bits_hi _ _ 7 7).trans ((bits_lo _ _ 0 7).trans (bits_all _))))
  have f3 : bits wd 5 7 = b := hw ▸ ((bits_hi _ _ 5 7).trans ((bits_lo _ _ 0 7).trans (bits_all _)))
  have m0 : wd &&& 0xf000001f#32 = 0x50000003#32 := by rw [← hw, and_app, and_app, and_app, and_app, and_app]; simp
  clear hw
  rcases bv2_cases t with rfl | rfl | rfl | rfl
  · rw [decodeWord, h1]; change decodeMajor14 _ _ = _; rw [decodeMajor14, h2]; change (if _ then _ else _) = _
    rw [if_pos m0, f0, f1, f2, f3]; rfl
  · rw [decodeWord, h1]; change decodeMajor14 _ _ = _; rw [decodeMajor14, h2]; change (if _ then _ else _) = _
    rw [if_pos m0, f0, f1, f2, f3]; rfl
  · rw [decodeWord, h1]; change decodeMajor14 _ _ = _; rw [decodeMajor14, h2]; change (if _ then _ else _) = _
    rw [if_pos m0, f0, f1, f2, f3]; rfl
  · rw [decodeWord, h1]; change decodeMajor17 _ _ = _; rw [decodeMajor17, h2]; change (if _ then _ else _) = _
    rw [if_pos m0, f0, f1, f2, f3]; rfl

theorem F.vimad (t : BitVec 2) (d a b : BitVec 7) (p : Option Pfx) : F.Statement (.vimad t d a b p) := by
  intro _ _
  change decodeWord (0x5#4 ++ t ++ d ++ a ++ b ++ 0x4#5) _ = _
  generalize hw : (0x5#4 ++ t ++ d ++ a ++ b ++ 0x4#5   : Word) = wd
  have h1 : bits wd 26 6 = 5#4 ++ t := hw ▸ ((bits_hi _ _ 26 6).trans ((bits_hi _ _ 21 6).trans ((bits_hi _ _ 14 6).trans ((bits_hi _ _ 7 6).trans (bits_all _)))))
  have h2 : bits wd 0 5 = 4#5 := hw ▸ ((bits_lo _ _ 0 5).trans (by rfl))
  have f0 : bits wd 26 2 = t := hw ▸ ((bits_hi _ _ 26 2).trans ((bits_hi _ _ 21 2).trans ((bits_hi _ _ 14 2).trans ((bits_hi _ _ 7 2).trans ((bits_lo _ _ 0 2).trans (bits_all _))))))
  have f1 : bits wd 19 7 = d := hw ▸ ((bits_hi _ _ 19 7).trans ((bits_hi _ _ 14 7).trans ((bits_hi _ _ 7 7).trans ((bits_lo _ _ 0 7).trans (bits_all _)))))
  have f2 : bits wd 12 7 = a := hw ▸ ((bits_hi _ _ 12 7).trans ((bits_hi _ _ 7 7).trans ((bits_lo _ _ 0 7).trans (bits_all _))))
  have f3 : bits wd 5 7 = b := hw ▸ ((bits_hi _ _ 5 7).trans ((bits_lo _ _ 0 7).trans (bits_all _)))
  have m0 : wd &&& 0xf000001f#32 = 0x50000004#32 := by rw [← hw, and_app, and_app, and_app, and_app, and_app]; simp
  clear hw
  rcases bv2_cases t with rfl | rfl | rfl | rfl
  · rw [decodeWord, h1]; change decodeMajor14 _ _ = _; rw [decodeMajor14, h2]; change (if _ then _ else _) = _
    rw [if_pos m0, f0, f1, f2, f3]; rfl
  · rw [decodeWord, h1]; change decodeMajor14 _ _ = _; rw [decodeMajor14, h2]; change (if _ then _ else _) = _
    rw [if_pos m0, f0, f1, f2, f3]; rfl
  · rw [decodeWord, h1]; change decodeMajor14 _ _ = _; rw [decodeMajor14, h2]; change (if _ then _ else _) = _
    rw [if_pos m0, f0, f1, f2, f3]; rfl
  · rw [decodeWord, h1]; change decodeMajor17 _ _ = _; rw [decodeMajor17, h2]; change (if _ then _ else _) = _
    rw [if_pos m0, f0, f1, f2, f3]; rfl

theorem F.vimin (t : BitVec 2) (d a b : BitVec 7) (p : Option Pfx) : F.Statement (.vimin t d a b p) := by
  intro _ _
  change decodeWord (0x5#4 ++ t ++ d ++ a ++ b ++ 0x5#5) _ = _
  generalize hw : (0x5#4 ++ t ++ d ++ a ++ b ++ 0x5#5   : Word) = wd
  have h1 : bits wd 26 6 = 5#4 ++ t := hw ▸ ((bits_hi _ _ 26 6).trans ((bits_hi _ _ 21 6).trans ((bits_hi _ _ 14 6).trans ((bits_hi _ _ 7 6).trans (bits_all _)))))
  have h2 : bits wd 0 5 = 5#5 := hw ▸ ((bits_lo _ _ 0 5).trans (by rfl))
  have f0 : bits wd 26 2 = t := hw ▸ ((bits_hi _ _ 26 2).trans ((bits_hi _ _ 21 2).trans ((bits_hi _ _ 14 2).trans ((bits_hi _ _ 7 2).trans ((bits_lo _ _ 0 2).trans (bits_all _))))))
  have f1 : bits wd 19 7 = d := hw ▸ ((bits_hi _ _ 19 7).trans ((bits_hi _ _ 14 7).trans ((bits_hi _ _ 7 7).trans ((bits_lo _ _ 0 7).trans (bits_all _)))))
  have f2 : bits wd 12 7 = a := hw ▸ ((bits_hi _ _ 12 7).trans ((bits_hi _ _ 7 7).trans ((bits_lo _ _ 0 7).trans (bits_all _))))
  have f3 : bits wd 5 7 = b := hw ▸ ((bits_hi _ _ 5 7).trans ((bits_lo _ _ 0 7).trans (bits_all _)))
  have m0 : wd &&& 0xf000001f#32 = 0x50000005#32 := by rw [← hw, and_app, and_app, and_app, and_app, and_app]; simp
  clear hw
  rcases bv2_cases t with rfl | rfl | rfl | rfl
  · rw [decodeWord, h1]; change decodeMajor14 _ _ = _; rw [decodeMajor14, h2]; change (if _ then _ else _) = _
    rw [if_pos m0, f0, f1, f2, f3]; rfl
  · rw [decodeWord, h1]; change decodeMajor14 _ _ = _; rw [decodeMajor14, h2]; change (if _ then _ else _) = _
    rw [if_pos m0, f0, f1, f2, f3]; rfl
  · rw [decodeWord, h1]; change decodeMajor14 _ _ = _; rw [decodeMajor14, h2]; change (if _ then _ else _) = _
    rw [if_pos m0, f0, f1, f2, f3]; rfl
  · rw [decodeWord, h1]; change decodeMajor17 _ _ = _; rw [decodeMajor17, h2]; change (if _ then _ else _) = _
    rw [if_pos m0, f0, f1, f2, f3]; rfl

theorem F.vimax (t : BitVec 2) (d a b : BitVec 7) (p : Option Pfx) : F.Statement (.vimax t d a b p) := by
  intro _ _
  change decodeWord (0x5#4 ++ t ++ d ++ a ++ b ++ 0x6#5) _ = _
  generalize hw : (0x5#4 ++ t ++ d ++ a ++ b ++ 0x6#5   : Word) = wd
  have h1 : bits wd 26 6 = 5#4 ++ t := hw ▸ ((bits_hi _ _ 26 6).trans ((bits_hi _ _ 21 6).trans ((bits_hi _ _ 14 6).trans ((bits_hi _ _ 7 6).trans (bits_all _)))))
  have h2 : bits wd 0 5 = 6#5 := hw ▸ ((bits_lo _ _ 0 5).trans (by rfl))
  have f0 : bits wd 26 2 = t := hw ▸ ((bits_hi _ _ 26 2).trans ((bits_hi _ _ 21 2).trans ((bits_hi _ _ 14 2).trans ((bits_hi _ _ 7 2).trans ((bits_lo _ _ 0 2).trans (bits_all _))))))
  have f1 : bits wd 19 7 = d := hw ▸ ((bits_hi _ _ 19 7).trans ((bits_hi _ _ 14 7).trans ((bits_hi _ _ 7 7).trans ((bits_lo _ _ 0 7).trans (bits_all _)))))
  have f2 : bits wd 12 7 = a := hw ▸ ((bits_hi _ _ 12 7).trans ((bits_hi _ _ 7 7).trans ((bits_lo _ _ 0 7).trans (bits_all _))))
  have f3 : bits wd 5 7 = b := hw ▸ ((bits_hi _ _ 5 7).trans ((bits_lo _ _ 0 7).trans (bits_all _)))
  have m0 : wd &&& 0xf000001f#32 = 0x50000006#32 := by rw [← hw, and_app, and_app, and_app, and_app, and_app]; simp
  clear hw
  rcases bv2_cases t with rfl | rfl | rfl | rfl
  · rw [decodeWord, h1]; change decodeMajor14 _ _ = _; rw [decodeMajor14, h2]; change (if _ then _ else _) = _
    rw [if_pos m0, f0, f1, f2, f3]; rfl
  · rw [decodeWord, h1]; change decodeMajor14 _ _ = _; rw [decodeMajor14, h2]; change (if _ then _ else _) = _
    rw [if_pos m0, f0, f1, f2, f3]; rfl
  · rw [decodeWord, h1]; change decodeMajor14 _ _ = _; rw [decodeMajor14, h2]; change (if _ then _ else _) = _
    rw [if_pos m0, f0, f1, f2, f3]; rfl
  · rw [decodeWord, h1]; change decodeMajor17 _ _ = _; rw [decodeMajor17, h2]; change (if _ then _ else _) = _
    rw [if_pos m0, f0, f1, f2, f3]; rfl

theorem F.vshl (t : BitVec 2) (d a b : BitVec 7) (p : Option Pfx) : F.Statement (.vshl t d a b p) := by
  intro _ _
  change decodeWord (0x5#4 ++ t ++ d ++ a ++ b ++ 0x7#5) _ = _
  generalize hw : (0x5#4 ++ t ++ d ++ a ++ b ++ 0x7#5   : Word) = wd
  have h1 : bits wd 26 6 = 5#4 ++ t := hw ▸ ((bits_hi _ _ 26 6).trans ((bits_hi _ _ 21 6).trans ((bits_hi _ _ 14 6).trans ((bits_hi _ _ 7 6).trans (bits_all _)))))
  have h2 : bits wd 0 5 = 7#5 := hw ▸ ((bits_lo _ _ 0 5).trans (by rfl))
  have f0 : bits wd 26 2 = t := hw ▸ ((bits_hi _ _ 26 2).trans ((bits_hi _ _ 21 2).trans ((bits_hi _ _ 14 2).trans ((bits_hi _ _ 7 2).trans ((bits_lo _ _ 0 2).trans (bits_all _))))))
  have f1 : bits wd 19 7 = d := hw ▸ ((bits_hi _ _ 19 7).trans ((bits_hi _ _ 14 7).trans ((bits_hi _ _ 7 7).trans ((bits_lo _ _ 0 7).trans (bits_all _)))))
  have f2 : bits wd 12 7 = a := hw ▸ ((bits_hi _ _ 12 7).trans ((bits_hi _ _ 7 7).trans ((bits_lo _ _ 0 7).trans (bits_all _))))
  have f3 : bits wd 5 7 = b := hw ▸ ((bits_hi _ _ 5 7).trans ((bits_lo _ _ 0 7).trans (bits_all _)))
  have m0 : wd &&& 0xf000001f#32 = 0x50000007#32 := by rw [← hw, and_app, and_app, and_app, and_app, and_app]; simp
  clear hw
  rcases bv2_cases t with rfl | rfl | rfl | rfl
  · rw [decodeWord, h1]; change decodeMajor14 _ _ = _; rw [decodeMajor14, h2]; change (if _ then _ else _) = _
    rw [if_pos m0, f0, f1, f2, f3]; rfl
  · rw [decodeWord, h1]; change decodeMajor14 _ _ = _; rw [decodeMajor14, h2]; change (if _ then _ else _) = _
    rw [if_pos m0, f0, f1, f2, f3]; rfl
  · rw [decodeWord, h1]; change decodeMajor14 _ _ = _; rw [decodeMajor14, h2]; change (if _ then _ else _) = _
    rw [if_pos m0, f0, f1, f2, f3]; rfl
  · rw [decodeWord, h1]; change decodeMajor17 _ _ = _; rw [decodeMajor17, h2]; change (if _ then _ else _) = _
    rw [if_pos m0, f0, f1, f2, f3]; rfl

theorem F.vshr (t : BitVec 2) (d a b : BitVec 7) (p : Option Pfx) : F.Statement (.vshr t d a b p) := by
  intro _ _
  change decodeWord (0x5#4 ++ t ++ d ++ a ++ b ++ 0x8#5) _ = _
  generalize hw : (0x5#4 ++ t ++ d ++ a ++ b ++ 0x8#5   : Word) = wd
  have h1 : bits wd 26 6 = 5#4 ++ t := hw ▸ ((bits_hi _ _ 26 6).trans ((bits_hi _ _ 21 6).trans ((bits_hi _ _ 14 6).trans ((bits_hi _ _ 7 6).trans (bits_all _)))))
  have h2 : bits wd 0 5 = 8#5 := hw ▸ ((bits_lo _ _ 0 5).trans (by rfl))
  have f0 : bits wd 26 2 = t := hw ▸ ((bits_hi _ _ 26 2).trans ((bits_hi _ _ 21 2).trans ((bits_hi _ _ 14 2).trans ((bits_hi _ _ 7 2).trans ((bits_lo _ _ 0 2).trans (bits_all _))))))
  have f1 : bits wd 19 7 = d := hw ▸ ((bits_hi _ _ 19 7).trans ((bits_hi _ _ 14 7).trans ((bits_hi _ _ 7 7).trans ((bits_lo _ _ 0 7).trans (bits_all _)))))
  have f2 : bits wd 12 7 = a := hw ▸ ((bits_hi _ _ 12 7).trans ((bits_hi _ _ 7 7).trans ((bits_lo _ _ 0 7).trans (bits_all _))))
  have f3 : bits wd 5 7 = b := hw ▸ ((bits_hi _ _ 5 7).trans ((bits_lo _ _ 0 7).trans (bits_all _)))
  have m0 : wd &&& 0xf000001f#32 = 0x50000008#32 := by rw [← hw, and_app, and_app, and_app, and_app, and_app]; simp
  clear hw
  rcases bv2_cases t with rfl | rfl | rfl | rfl
  · rw [decodeWord, h1]; change decodeMajor14 _ _ = _; rw [decodeMajor14, h2]; change (if _ then _ else _) = _
    rw [if_pos m0, f0, f1, f2, f3]; rfl
  · rw [decodeWord, h1]; change decodeMajor14 _ _ = _; rw [decodeMajor14, h2]; change (if _ then _ else _) = _
    rw [if_pos m0, f0, f1, f2, f3]; rfl
  · rw [decodeWord, h1]; change decodeMajor14 _ _ = _; rw [decodeMajor14, h2]; change (if _ then _ else _) = _
    rw [if_pos m0, f0, f1, f2, f3]; rfl
  · rw [decodeWord, h1]; change decodeMajor17 _ _ = _; rw [decodeMajor17, h2]; change (if _ then _ else _) = _
    rw [if_pos m0, f0, f1, f2, f3]; rfl

theorem F.vsra (t : BitVec 2) (d a b : BitVec 7) (p : Option Pfx) : F.Statement (.vsra t d a b p) := by
  intro _ _
  change decodeWord (0x5#4 ++ t ++ d ++ a ++ b ++ 0x9#5) _ = _
  generalize hw : (0x5#4 ++ t ++ d ++ a ++ b ++ 0x9#5   : Word) = wd
  have h1 : bits wd 26 6 = 5#4 ++ t := hw ▸ ((bits_hi _ _ 26 6).trans ((bits_hi _ _ 21 6).trans ((bits_hi _ _ 14 6).trans ((bits_hi _ _ 7 6).trans (bits_all _)))))
  have h2 : bits wd 0 5 = 9#5 := hw ▸ ((bits_lo _ _ 0 5).trans (by rfl))
  have f0 : bits wd 26 2 = t := hw ▸ ((bits_hi _ _ 26 2).trans ((bits_hi _ _ 21 2).trans ((bits_hi _ _ 14 2).trans ((bits_hi _ _ 7 2).trans ((bits_lo _ _ 0 2).trans (bits_all _))))))
  have f1 : bits wd 19 7 = d := hw ▸ ((bits_hi _ _ 19 7).trans ((bits_hi _ _ 14 7).trans ((bits_hi _ _ 7 7).trans ((bits_lo _ _ 0 7).trans (bits_all _)))))
  have f2 : bits wd 12 7 = a := hw ▸ ((bits_hi _ _ 12 7).trans ((bits_hi _ _ 7 7).trans ((bits_lo _ _ 0 7).trans (bits_all _))))
  have f3 : bits wd 5 7 = b := hw ▸ ((bits_hi _ _ 5 7).trans ((bits_lo _ _ 0 7).trans (bits_all _)))
  have m0 : wd &&& 0xf000001f#32 = 0x50000009#32 := by rw [← hw, and_app, and_app, and_app, and_app, and_app]; simp
  clear hw
  rcases bv2_cases t with rfl | rfl | rfl | rfl
  · rw [decodeWord, h1]; change decodeMajor14 _ _ = _; rw [decodeMajor14, h2]; change (if _ then _ else _) = _
    rw [if_pos m0, f0, f1, f2, f3]; rfl
  · rw [decodeWord, h1]; change decodeMajor14 _ _ = _; rw [decodeMajor14, h2]; change (if _ then _ else _) = _
    rw [if_pos m0, f0, f1, f2, f3]; rfl
  · rw [decodeWord, h1]; change decodeMajor14 _ _ = _; rw [decodeMajor14, h2]; change (if _ then _ else _) = _
    rw [if_pos m0, f0, f1, f2, f3]; rfl
  · rw [decodeWord, h1]; change decodeMajor17 _ _ = _; rw [decodeMajor17, h2]; change (if _ then _ else _) = _
    rw [if_pos m0, f0, f1, f2, f3]; rfl

theorem F.vbfe (t : BitVec 2) (d a b : BitVec 7) (p : Option Pfx) : F.Statement (.vbfe t d a b p) := by
  intro _ _
  change decodeWord (0x5#4 ++ t ++ d ++ a ++ b ++ 0xa#5) _ = _
  generalize hw : (0x5#4 ++ t ++ d ++ a ++ b ++ 0xa#5   : Word) = wd
  have h1 : bits wd 26 6 = 5#4 ++ t := hw ▸ ((bits_hi _ _ 26 6).trans ((bits_hi _ _ 21 6).trans ((bits_hi _ _ 14 6).trans ((bits_hi _ _ 7 6).trans (bits_all _)))))
  have h2 : bits wd 0 5 = 10#5 := hw ▸ ((bits_lo _ _ 0 5).trans (by rfl))
  have f0 : bits wd 26 2 = t := hw ▸ ((bits_hi _ _ 26 2).trans ((bits_hi _ _ 21 2).trans ((bits_hi _ _ 14 2).trans ((bits_hi _ _ 7 2).trans ((bits_lo _ _ 0 2).trans (bits_all _))))))
  have f1 : bits wd 19 7 = d := hw ▸ ((bits_hi _ _ 19 7).trans ((bits_hi _ _ 14 7).trans ((bits_hi _ _ 7 7).trans ((bits_lo _ _ 0 7).trans (bits_all _)))))
  have f2 : bits wd 12 7 = a := hw ▸ ((bits_hi _ _ 12 7).trans ((bits_hi _ _ 7 7).trans ((bits_lo _ _ 0 7).trans (bits_all _))))
  have f3 : bits wd 5 7 = b := hw ▸ ((bits_hi _ _ 5 7).trans ((bits_lo _ _ 0 7).trans (bits_all _)))
  have m0 : wd &&& 0xf000001f#32 = 0x5000000a#32 := by rw [← hw, and_app, and_app, and_app, and_app, and_app]; simp
  clear hw
  rcases bv2_cases t with rfl | rfl | rfl | rfl
  · rw [decodeWord, h1]; change decodeMajor14 _ _ = _; rw [decodeMajor14, h2]; change (if _ then _ else _) = _
    rw [if_pos m0, f0, f1, f2, f3]; rfl
  · rw [decodeWord, h1]; change decodeMajor14 _ _ = _; rw [decodeMajor14, h2]; change (if _ then _ else _) = _
    rw [if_pos m0, f0, f1, f2, f3]; rfl
  · rw [decodeWord, h1]; change decodeMajor14 _ _ = _; rw [decodeMajor14, h2]; change (if _ then _ else _) = _
    rw [if_pos m0, f0, f1, f2, f3]; rfl
  · rw [decodeWord, h1]; change decodeMajor17 _ _ = _; rw [decodeMajor17, h2]; change (if _ then _ else _) = _
    rw [if_pos m0, f0, f1, f2, f3]; rfl

theorem F.vbfi (t : BitVec 2) (d a b : BitVec 7) (p : Option Pfx) : F.Statement (.vbfi t d a b p) := by
  intro _ _
  change decodeWord (0x5#4 ++ t ++ d ++ a ++ b ++ 0xb#5) _ = _
  generalize hw : (0x5#4 ++ t ++ d ++ a ++ b ++ 0xb#5   : Word) = wd
  have h1 : bits wd 26 6 = 5#4 ++ t := hw ▸ ((bits_hi _ _ 26 6).trans ((bits_hi _ _ 21 6).trans ((bits_hi _ _ 14 6).trans ((bits_hi _ _ 7 6).trans (bits_all _)))))
  have h2 : bits wd 0 5 = 11#5 := hw ▸ ((bits_lo _ _ 0 5).trans (by rfl))
  have f0 : bits wd 26 2 = t := hw ▸ ((bits_hi _ _ 26 2).trans ((bits_hi _ _ 21 2).trans ((bits_hi _ _ 14 2).trans ((bits_hi _ _ 7 2).trans ((bits_lo _ _ 0 2).trans (bits_all _))))))
  have f1 : bits wd 19 7 = d := hw ▸ ((bits_hi _ _ 19 7).trans ((bits_hi _ _ 14 7).trans ((bits_hi _ _ 7 7).trans ((bits_lo _ _ 0 7).trans (bits_all _)))))
  have f2 : bits wd 12 7 = a := hw ▸ ((bits_hi _ _ 12 7).trans ((bits_hi _ _ 7 7).trans ((bits_lo _ _ 0 7).trans (bits_all _))))
  have f3 : bits wd 5 7 = b := hw ▸ ((bits_hi _ _ 5 7).trans ((bits_lo _ _ 0 7).trans (bits_all _)))
  have m0 : wd &&& 0xf000001f#32 = 0x5000000b#32 := by rw [← hw, and_app, and_app, and_app, and_app, and_app]; simp
  clear hw
  rcases bv2_cases t with rfl | rfl | rfl | rfl
  · rw [decodeWord, h1]; change decodeMajor14 _ _ = _; rw [decodeMajor14, h2]; change (if _ then _ else _) = _
    rw [if_pos m0, f0, f1, f2, f3]; rfl
  · rw [decodeWord, h1]; change decodeMajor14 _ _ = _; rw [decodeMajor14, h2]; change (if _ then _ else _) = _
    rw [if_pos m0, f0, f1, f2, f3]; rfl
  · rw [decodeWord, h1]; change decodeMajor14 _ _ = _; rw [decodeMajor14, h2]; change (if _ then _ else _) = _
    rw [if_pos m0, f0, f1, f2, f3]; rfl
  · rw [decodeWord, h1]; change decodeMajor17 _ _ = _; rw [decodeMajor17, h2]; change (if _ then _ else _) = _
    rw [if_pos m0, f0, f1, f2, f3]; rfl

theorem F.vpopc (t : BitVec 2) (d a : BitVec 7) (p : Option Pfx) : F.Statement (.vpopc t d a p) := by
  intro _ _
  change decodeWord (0x5#4 ++ t ++ d ++ a ++ 0xc#12) _ = _
  generalize hw : (0x5#4 ++ t ++ d ++ a ++ 0xc#12   : Word) = wd
  have h1 : bits wd 26 6 = 5#4 ++ t := hw ▸ ((bits_hi _ _ 26 6).trans ((bits_hi _ _ 14 6).trans ((bits_hi _ _ 7 6).trans (bits_all _))))
  have h2 : bits wd 0 5 = 12#5 := hw ▸ ((bits_lo _ _ 0 5).trans (by rfl))
  have f0 : bits wd 26 2 = t := hw ▸ ((bits_hi _ _ 26 2).trans ((bits_hi _ _ 14 2).trans ((bits_hi _ _ 7 2).trans ((bits_lo _ _ 0 2).trans (bits_all _)))))
  have f1 : bits wd 19 7 = d := hw ▸ ((bits_hi _ _ 19 7).trans ((bits_hi _ _ 7 7).trans ((bits_lo _ _ 0 7).trans (bits_all _))))
  have f2 : bits wd 12 7 = a := hw ▸ ((bits_hi _ _ 12 7).trans ((bits_lo _ _ 0 7).trans (bits_all _)))
  have m0 : wd &&& 0xf0000fff#32 = 0x5000000c#32 := by rw [← hw, and_app, and_app, and_app, and_app]; simp
  clear hw
  rcases bv2_cases t with rfl | rfl | rfl | rfl
  · rw [decodeWord, h1]; change decodeMajor14 _ _ = _; rw [decodeMajor14, h2]; change (if _ then _ else _) = _
    rw [if_pos m0, f0, f1, f2]; rfl
  · rw [decodeWord, h1]; change decodeMajor14 _ _ = _; rw [decodeMajor14, h2]; change (if _ then _ else _) = _
    rw [if_pos m0, f0, f1, f2]; rfl
  · rw [decodeWord, h1]; change decodeMajor14 _ _ = _; rw [decodeMajor14, h2]; change (if _ then _ else _) = _
    rw [if_pos m0, f0, f1, f2]; rfl
  · rw [decodeWord, h1]; change decodeMajor17 _ _ = _; rw [decodeMajor17, h2]; change (if _ then _ else _) = _
    rw [if_pos m0, f0, f1, f2]; rfl

theorem F.vclz (t : BitVec 2) (d a : BitVec 7) (p : Option Pfx) : F.Statement (.vclz t d a p) := by
  intro _ _
  change decodeWord (0x5#4 ++ t ++ d ++ a ++ 0xd#12) _ = _
  generalize hw : (0x5#4 ++ t ++ d ++ a ++ 0xd#12   : Word) = wd
  have h1 : bits wd 26 6 = 5#4 ++ t := hw ▸ ((bits_hi _ _ 26 6).trans ((bits_hi _ _ 14 6).trans ((bits_hi _ _ 7 6).trans (bits_all _))))
  have h2 : bits wd 0 5 = 13#5 := hw ▸ ((bits_lo _ _ 0 5).trans (by rfl))
  have f0 : bits wd 26 2 = t := hw ▸ ((bits_hi _ _ 26 2).trans ((bits_hi _ _ 14 2).trans ((bits_hi _ _ 7 2).trans ((bits_lo _ _ 0 2).trans (bits_all _)))))
  have f1 : bits wd 19 7 = d := hw ▸ ((bits_hi _ _ 19 7).trans ((bits_hi _ _ 7 7).trans ((bits_lo _ _ 0 7).trans (bits_all _))))
  have f2 : bits wd 12 7 = a := hw ▸ ((bits_hi _ _ 12 7).trans ((bits_lo _ _ 0 7).trans (bits_all _)))
  have m0 : wd &&& 0xf0000fff#32 = 0x5000000d#32 := by rw [← hw, and_app, and_app, and_app, and_app]; simp
  clear hw
  rcases bv2_cases t with rfl | rfl | rfl | rfl
  · rw [decodeWord, h1]; change decodeMajor14 _ _ = _; rw [decodeMajor14, h2]; change (if _ then _ else _) = _
    rw [if_pos m0, f0, f1, f2]; rfl
  · rw [decodeWord, h1]; change decodeMajor14 _ _ = _; rw [decodeMajor14, h2]; change (if _ then _ else _) = _
    rw [if_pos m0, f0, f1, f2]; rfl
  · rw [decodeWord, h1]; change decodeMajor14 _ _ = _; rw [decodeMajor14, h2]; change (if _ then _ else _) = _
    rw [if_pos m0, f0, f1, f2]; rfl
  · rw [decodeWord, h1]; change decodeMajor17 _ _ = _; rw [decodeMajor17, h2]; change (if _ then _ else _) = _
    rw [if_pos m0, f0, f1, f2]; rfl

theorem F.vdot4 (d a b : BitVec 7) (p : Option Pfx) : F.Statement (.vdot4 d a b p) := by
  intro _ _
  change decodeWord (0x17#6 ++ d ++ a ++ b ++ 0xe#5) _ = _
  generalize hw : (0x17#6 ++ d ++ a ++ b ++ 0xe#5   : Word) = wd
  have h1 : bits wd 26 6 = 23#6 := hw ▸ ((bits_hi _ _ 26 6).trans ((bits_hi _ _ 21 6).trans ((bits_hi _ _ 14 6).trans ((bits_hi _ _ 7 6).trans (by rfl)))))
  have h2 : bits wd 0 5 = 14#5 := hw ▸ ((bits_lo _ _ 0 5).trans (by rfl))
  have f0 : bits wd 19 7 = d := hw ▸ ((bits_hi _ _ 19 7).trans ((bits_hi _ _ 14 7).trans ((bits_hi _ _ 7 7).trans ((bits_lo _ _ 0 7).trans (bits_all _)))))
  have f1 : bits wd 12 7 = a := hw ▸ ((bits_hi _ _ 12 7).trans ((bits_hi _ _ 7 7).trans ((bits_lo _ _ 0 7).trans (bits_all _))))
  have f2 : bits wd 5 7 = b := hw ▸ ((bits_hi _ _ 5 7).trans ((bits_lo _ _ 0 7).trans (bits_all _)))
  have m0 : wd &&& 0xfc00001f#32 = 0x5c00000e#32 := by rw [← hw, and_app, and_app, and_app, and_app]; simp
  clear hw
  rw [decodeWord, h1]; change decodeMajor17 _ _ = _; rw [decodeMajor17, h2]; change (if _ then _ else _) = _
  rw [if_pos m0, f0, f1, f2]; rfl

theorem F.vcmpI (t : BitVec 2) (d : BitVec 4) (a b : BitVec 7) (c : BitVec 3) (p : Option Pfx) : F.Statement (.vcmpI t d a b c p) := by
  intro _ _
  change decodeWord (0x5#4 ++ t ++ 0x0#3 ++ d ++ a ++ b ++ 0x2#2 ++ c) _ = _
  generalize hw : (0x5#4 ++ t ++ 0x0#3 ++ d ++ a ++ b ++ 0x2#2 ++ c   : Word) = wd
  have h1 : bits wd 26 6 = 5#4 ++ t := hw ▸ ((bits_hi _ _ 26 6).trans ((bits_hi _ _ 23 6).trans ((bits_hi _ _ 21 6).trans ((bits_hi _ _ 14 6).trans ((bits_hi _ _ 7 6).trans ((bits_hi _ _ 3 6).trans (bits_all _)))))))
  have h2 : bits wd 0 5 = 2#2 ++ c := hw ▸ (bits_mid _ _ _)
  have f0 : bits wd 26 2 = t := hw ▸ ((bits_hi _ _ 26 2).trans ((bits_hi _ _ 23 2).trans ((bits_hi _ _ 21 2).trans ((bits_hi _ _ 14 2).trans ((bits_hi _ _ 7 2).trans ((bits_hi _ _ 3 2).trans ((bits_lo _ _ 0 2).trans (bits_all _))))))))
  have f1 : bits wd 19 4 = d := hw ▸ ((bits_hi _ _ 19 4).trans ((bits_hi _ _ 16 4).trans ((bits_hi _ _ 14 4).trans ((bits_hi _ _ 7 4).trans ((bits_lo _ _ 0 4).trans (bits_all _))))))
  have f2 : bits wd 12 7 = a := hw ▸ ((bits_hi _ _ 12 7).trans ((bits_hi _ _ 9 7).trans ((bits_hi _ _ 7 7).trans ((bits_lo _ _ 0 7).trans (bits_all _)))))
  have f3 : bits wd 5 7 = b := hw ▸ ((bits_hi _ _ 5 7).trans ((bits_hi _ _ 2 7).trans ((bits_lo _ _ 0 7).trans (bits_all _))))
  have f4 : bits wd 0 3 = c := hw ▸ ((bits_lo _ _ 0 3).trans (bits_all _))
  have m0 : wd &&& 0xf3800018#32 = 0x50000010#32 := by rw [← hw, and_app, and_app, and_app, and_app, and_app, and_app, and_app]; simp
  clear hw
  rcases bv2_cases t with rfl | rfl | rfl | rfl
  all_goals rcases bv3_cases c with rfl | rfl | rfl | rfl | rfl | rfl | rfl | rfl
  · rw [decodeWord, h1]; change decodeMajor14 _ _ = _; rw [decodeMajor14, h2]; change (if _ then _ else _) = _
    rw [if_pos m0, f0, f1, f2, f3, f4]; rfl
  · rw [decodeWord, h1]; change decodeMajor14 _ _ = _; rw [decodeMajor14, h2]; change (if _ then _ else _) = _
    rw [if_pos m0, f0, f1, f2, f3, f4]; rfl
  · rw [decodeWord, h1]; change decodeMajor14 _ _ = _; rw [decodeMajor14, h2]; change (if _ then _ else _) = _
    rw [if_pos m0, f0, f1, f2, f3, f4]; rfl
  · rw [decodeWord, h1]; change decodeMajor14 _ _ = _; rw [decodeMajor14, h2]; change (if _ then _ else _) = _
    rw [if_pos m0, f0, f1, f2, f3, f4]; rfl
  · rw [decodeWord, h1]; change decodeMajor14 _ _ = _; rw [decodeMajor14, h2]; change (if _ then _ else _) = _
    rw [if_pos m0, f0, f1, f2, f3, f4]; rfl
  · rw [decodeWord, h1]; change decodeMajor14 _ _ = _; rw [decodeMajor14, h2]; change (if _ then _ else _) = _
    rw [if_pos m0, f0, f1, f2, f3, f4]; rfl
  · rw [decodeWord, h1]; change decodeMajor14 _ _ = _; rw [decodeMajor14, h2]; change (if _ then _ else _) = _
    rw [if_pos m0, f0, f1, f2, f3, f4]; rfl
  · rw [decodeWord, h1]; change decodeMajor14 _ _ = _; rw [decodeMajor14, h2]; change (if _ then _ else _) = _
    rw [if_pos m0, f0, f1, f2, f3, f4]; rfl
  · rw [decodeWord, h1]; change decodeMajor14 _ _ = _; rw [decodeMajor14, h2]; change (if _ then _ else _) = _
    rw [if_pos m0, f0, f1, f2, f3, f4]; rfl
  · rw [decodeWord, h1]; change decodeMajor14 _ _ = _; rw [decodeMajor14, h2]; change (if _ then _ else _) = _
    rw [if_pos m0, f0, f1, f2, f3, f4]; rfl
  · rw [decodeWord, h1]; change decodeMajor14 _ _ = _; rw [decodeMajor14, h2]; change (if _ then _ else _) = _
    rw [if_pos m0, f0, f1, f2, f3, f4]; rfl
  · rw [decodeWord, h1]; change decodeMajor14 _ _ = _; rw [decodeMajor14, h2]; change (if _ then _ else _) = _
    rw [if_pos m0, f0, f1, f2, f3, f4]; rfl
  · rw [decodeWord, h1]; change decodeMajor14 _ _ = _; rw [decodeMajor14, h2]; change (if _ then _ else _) = _
    rw [if_pos m0, f0, f1, f2, f3, f4]; rfl
  · rw [decodeWord, h1]; change decodeMajor14 _ _ = _; rw [decodeMajor14, h2]; change (if _ then _ else _) = _
    rw [if_pos m0, f0, f1, f2, f3, f4]; rfl
  · rw [decodeWord, h1]; change decodeMajor14 _ _ = _; rw [decodeMajor14, h2]; change (if _ then _ else _) = _
    rw [if_pos m0, f0, f1, f2, f3, f4]; rfl
  · rw [decodeWord, h1]; change decodeMajor14 _ _ = _; rw [decodeMajor14, h2]; change (if _ then _ else _) = _
    rw [if_pos m0, f0, f1, f2, f3, f4]; rfl
  · rw [decodeWord, h1]; change decodeMajor14 _ _ = _; rw [decodeMajor14, h2]; change (if _ then _ else _) = _
    rw [if_pos m0, f0, f1, f2, f3, f4]; rfl
  · rw [decodeWord, h1]; change decodeMajor14 _ _ = _; rw [decodeMajor14, h2]; change (if _ then _ else _) = _
    rw [if_pos m0, f0, f1, f2, f3, f4]; rfl
  · rw [decodeWord, h1]; change decodeMajor14 _ _ = _; rw [decodeMajor14, h2]; change (if _ then _ else _) = _
    rw [if_pos m0, f0, f1, f2, f3, f4]; rfl
  · rw [decodeWord, h1]; change decodeMajor14 _ _ = _; rw [decodeMajor14, h2]; change (if _ then _ else _) = _
    rw [if_pos m0, f0, f1, f2, f3, f4]; rfl
  · rw [decodeWord, h1]; change decodeMajor14 _ _ = _; rw [decodeMajor14, h2]; change (if _ then _ else _) = _
    rw [if_pos m0, f0, f1, f2, f3, f4]; rfl
  · rw [decodeWord, h1]; change decodeMajor14 _ _ = _; rw [decodeMajor14, h2]; change (if _ then _ else _) = _
    rw [if_pos m0, f0, f1, f2, f3, f4]; rfl
  · rw [decodeWord, h1]; change decodeMajor14 _ _ = _; rw [decodeMajor14, h2]; change (if _ then _ else _) = _
    rw [if_pos m0, f0, f1, f2, f3, f4]; rfl
  · rw [decodeWord, h1]; change decodeMajor14 _ _ = _; rw [decodeMajor14, h2]; change (if _ then _ else _) = _
    rw [if_pos m0, f0, f1, f2, f3, f4]; rfl
  · rw [decodeWord, h1]; change decodeMajor17 _ _ = _; rw [decodeMajor17, h2]; change (if _ then _ else _) = _
    rw [if_pos m0, f0, f1, f2, f3, f4]; rfl
  · rw [decodeWord, h1]; change decodeMajor17 _ _ = _; rw [decodeMajor17, h2]; change (if _ then _ else _) = _
    rw [if_pos m0, f0, f1, f2, f3, f4]; rfl
  · rw [decodeWord, h1]; change decodeMajor17 _ _ = _; rw [decodeMajor17, h2]; change (if _ then _ else _) = _
    rw [if_pos m0, f0, f1, f2, f3, f4]; rfl
  · rw [decodeWord, h1]; change decodeMajor17 _ _ = _; rw [decodeMajor17, h2]; change (if _ then _ else _) = _
    rw [if_pos m0, f0, f1, f2, f3, f4]; rfl
  · rw [decodeWord, h1]; change decodeMajor17 _ _ = _; rw [decodeMajor17, h2]; change (if _ then _ else _) = _
    rw [if_pos m0, f0, f1, f2, f3, f4]; rfl
  · rw [decodeWord, h1]; change decodeMajor17 _ _ = _; rw [decodeMajor17, h2]; change (if _ then _ else _) = _
    rw [if_pos m0, f0, f1, f2, f3, f4]; rfl
  · rw [decodeWord, h1]; change decodeMajor17 _ _ = _; rw [decodeMajor17, h2]; change (if _ then _ else _) = _
    rw [if_pos m0, f0, f1, f2, f3, f4]; rfl
  · rw [decodeWord, h1]; change decodeMajor17 _ _ = _; rw [decodeMajor17, h2]; change (if _ then _ else _) = _
    rw [if_pos m0, f0, f1, f2, f3, f4]; rfl

theorem F.viaddImm (d a : BitVec 7) (i : BitVec 12) (h : Option (BitVec 24)) (p : Option Pfx) : F.Statement (.viaddImm d a i h p) := by
  intro _ _
  change decodeWord (0x18#6 ++ d ++ a ++ i) _ = _
  generalize hw : (0x18#6 ++ d ++ a ++ i   : Word) = wd
  have h1 : bits wd 26 6 = 24#6 := hw ▸ ((bits_hi _ _ 26 6).trans ((bits_hi _ _ 14 6).trans ((bits_hi _ _ 7 6).trans (by rfl))))
  have f0 : bits wd 19 7 = d := hw ▸ ((bits_hi _ _ 19 7).trans ((bits_hi _ _ 7 7).trans ((bits_lo _ _ 0 7).trans (bits_all _))))
  have f1 : bits wd 12 7 = a := hw ▸ ((bits_hi _ _ 12 7).trans ((bits_lo _ _ 0 7).trans (bits_all _)))
  have f2 : bits wd 0 12 = i := hw ▸ ((bits_lo _ _ 0 12).trans (bits_all _))
  have m0 : wd &&& 0xfc000000#32 = 0x60000000#32 := by rw [← hw, and_app, and_app, and_app]; simp
  clear hw
  rw [decodeWord, h1]; change decodeMajor18 _ _ = _; rw [decodeMajor18]; change (if _ then _ else _) = _
  rw [if_pos m0, f0, f1, f2]; rfl

theorem F.vmovi (d : BitVec 7) (i : BitVec 12) (h : Option (BitVec 24)) (p : Option Pfx) : F.Statement (.vmovi d i h p) := by
  intro _ _
  change decodeWord (0x19#6 ++ d ++ 0x0#7 ++ i) _ = _
  generalize hw : (0x19#6 ++ d ++ 0x0#7 ++ i   : Word) = wd
  have h1 : bits wd 26 6 = 25#6 := hw ▸ ((bits_hi _ _ 26 6).trans ((bits_hi _ _ 14 6).trans ((bits_hi _ _ 7 6).trans (by rfl))))
  have f0 : bits wd 19 7 = d := hw ▸ ((bits_hi _ _ 19 7).trans ((bits_hi _ _ 7 7).trans ((bits_lo _ _ 0 7).trans (bits_all _))))
  have f1 : bits wd 0 12 = i := hw ▸ ((bits_lo _ _ 0 12).trans (bits_all _))
  have m0 : wd &&& 0xfc07f000#32 = 0x64000000#32 := by rw [← hw, and_app, and_app, and_app]; simp
  clear hw
  rw [decodeWord, h1]; change decodeMajor19 _ _ = _; rw [decodeMajor19]; change (if _ then _ else _) = _
  rw [if_pos m0, f0, f1]; rfl

theorem F.vand (d a b : BitVec 7) (p : Option Pfx) : F.Statement (.vand d a b p) := by
  intro _ _
  change decodeWord (0x1a#6 ++ d ++ a ++ b ++ 0x0#5) _ = _
  generalize hw : (0x1a#6 ++ d ++ a ++ b ++ 0x0#5   : Word) = wd
  have h1 : bits wd 26 6 = 26#6 := hw ▸ ((bits_hi _ _ 26 6).trans ((bits_hi _ _ 21 6).trans ((bits_hi _ _ 14 6).trans ((bits_hi _ _ 7 6).trans (by rfl)))))
  have h2 : bits wd 0 5 = 0#5 := hw ▸ ((bits_lo _ _ 0 5).trans (by rfl))
  have f0 : bits wd 19 7 = d := hw ▸ ((bits_hi _ _ 19 7).trans ((bits_hi _ _ 14 7).trans ((bits_hi _ _ 7 7).trans ((bits_lo _ _ 0 7).trans (bits_all _)))))
  have f1 : bits wd 12 7 = a := hw ▸ ((bits_hi _ _ 12 7).trans ((bits_hi _ _ 7 7).trans ((bits_lo _ _ 0 7).trans (bits_all _))))
  have f2 : bits wd 5 7 = b := hw ▸ ((bits_hi _ _ 5 7).trans ((bits_lo _ _ 0 7).trans (bits_all _)))
  have m0 : wd &&& 0xfc00001f#32 = 0x68000000#32 := by rw [← hw, and_app, and_app, and_app, and_app]; simp
  clear hw
  rw [decodeWord, h1]; change decodeMajor1a _ _ = _; rw [decodeMajor1a, h2]; change (if _ then _ else _) = _
  rw [if_pos m0, f0, f1, f2]; rfl

theorem F.vor (d a b : BitVec 7) (p : Option Pfx) : F.Statement (.vor d a b p) := by
  intro _ _
  change decodeWord (0x1a#6 ++ d ++ a ++ b ++ 0x1#5) _ = _
  generalize hw : (0x1a#6 ++ d ++ a ++ b ++ 0x1#5   : Word) = wd
  have h1 : bits wd 26 6 = 26#6 := hw ▸ ((bits_hi _ _ 26 6).trans ((bits_hi _ _ 21 6).trans ((bits_hi _ _ 14 6).trans ((bits_hi _ _ 7 6).trans (by rfl)))))
  have h2 : bits wd 0 5 = 1#5 := hw ▸ ((bits_lo _ _ 0 5).trans (by rfl))
  have f0 : bits wd 19 7 = d := hw ▸ ((bits_hi _ _ 19 7).trans ((bits_hi _ _ 14 7).trans ((bits_hi _ _ 7 7).trans ((bits_lo _ _ 0 7).trans (bits_all _)))))
  have f1 : bits wd 12 7 = a := hw ▸ ((bits_hi _ _ 12 7).trans ((bits_hi _ _ 7 7).trans ((bits_lo _ _ 0 7).trans (bits_all _))))
  have f2 : bits wd 5 7 = b := hw ▸ ((bits_hi _ _ 5 7).trans ((bits_lo _ _ 0 7).trans (bits_all _)))
  have m0 : wd &&& 0xfc00001f#32 = 0x68000001#32 := by rw [← hw, and_app, and_app, and_app, and_app]; simp
  clear hw
  rw [decodeWord, h1]; change decodeMajor1a _ _ = _; rw [decodeMajor1a, h2]; change (if _ then _ else _) = _
  rw [if_pos m0, f0, f1, f2]; rfl

theorem F.vxor (d a b : BitVec 7) (p : Option Pfx) : F.Statement (.vxor d a b p) := by
  intro _ _
  change decodeWord (0x1a#6 ++ d ++ a ++ b ++ 0x2#5) _ = _
  generalize hw : (0x1a#6 ++ d ++ a ++ b ++ 0x2#5   : Word) = wd
  have h1 : bits wd 26 6 = 26#6 := hw ▸ ((bits_hi _ _ 26 6).trans ((bits_hi _ _ 21 6).trans ((bits_hi _ _ 14 6).trans ((bits_hi _ _ 7 6).trans (by rfl)))))
  have h2 : bits wd 0 5 = 2#5 := hw ▸ ((bits_lo _ _ 0 5).trans (by rfl))
  have f0 : bits wd 19 7 = d := hw ▸ ((bits_hi _ _ 19 7).trans ((bits_hi _ _ 14 7).trans ((bits_hi _ _ 7 7).trans ((bits_lo _ _ 0 7).trans (bits_all _)))))
  have f1 : bits wd 12 7 = a := hw ▸ ((bits_hi _ _ 12 7).trans ((bits_hi _ _ 7 7).trans ((bits_lo _ _ 0 7).trans (bits_all _))))
  have f2 : bits wd 5 7 = b := hw ▸ ((bits_hi _ _ 5 7).trans ((bits_lo _ _ 0 7).trans (bits_all _)))
  have m0 : wd &&& 0xfc00001f#32 = 0x68000002#32 := by rw [← hw, and_app, and_app, and_app, and_app]; simp
  clear hw
  rw [decodeWord, h1]; change decodeMajor1a _ _ = _; rw [decodeMajor1a, h2]; change (if _ then _ else _) = _
  rw [if_pos m0, f0, f1, f2]; rfl

theorem F.vnot (d a : BitVec 7) (p : Option Pfx) : F.Statement (.vnot d a p) := by
  intro _ _
  change decodeWord (0x1a#6 ++ d ++ a ++ 0x3#12) _ = _
  generalize hw : (0x1a#6 ++ d ++ a ++ 0x3#12   : Word) = wd
  have h1 : bits wd 26 6 = 26#6 := hw ▸ ((bits_hi _ _ 26 6).trans ((bits_hi _ _ 14 6).trans ((bits_hi _ _ 7 6).trans (by rfl))))
  have h2 : bits wd 0 5 = 3#5 := hw ▸ ((bits_lo _ _ 0 5).trans (by rfl))
  have f0 : bits wd 19 7 = d := hw ▸ ((bits_hi _ _ 19 7).trans ((bits_hi _ _ 7 7).trans ((bits_lo _ _ 0 7).trans (bits_all _))))
  have f1 : bits wd 12 7 = a := hw ▸ ((bits_hi _ _ 12 7).trans ((bits_lo _ _ 0 7).trans (bits_all _)))
  have m0 : wd &&& 0xfc000fff#32 = 0x68000003#32 := by rw [← hw, and_app, and_app, and_app]; simp
  clear hw
  rw [decodeWord, h1]; change decodeMajor1a _ _ = _; rw [decodeMajor1a, h2]; change (if _ then _ else _) = _
  rw [if_pos m0, f0, f1]; rfl

theorem F.vmov (d a : BitVec 7) (p : Option Pfx) : F.Statement (.vmov d a p) := by
  intro _ _
  change decodeWord (0x1a#6 ++ d ++ a ++ 0x4#12) _ = _
  generalize hw : (0x1a#6 ++ d ++ a ++ 0x4#12   : Word) = wd
  have h1 : bits wd 26 6 = 26#6 := hw ▸ ((bits_hi _ _ 26 6).trans ((bits_hi _ _ 14 6).trans ((bits_hi _ _ 7 6).trans (by rfl))))
  have h2 : bits wd 0 5 = 4#5 := hw ▸ ((bits_lo _ _ 0 5).trans (by rfl))
  have f0 : bits wd 19 7 = d := hw ▸ ((bits_hi _ _ 19 7).trans ((bits_hi _ _ 7 7).trans ((bits_lo _ _ 0 7).trans (bits_all _))))
  have f1 : bits wd 12 7 = a := hw ▸ ((bits_hi _ _ 12 7).trans ((bits_lo _ _ 0 7).trans (bits_all _)))
  have m0 : wd &&& 0xfc000fff#32 = 0x68000004#32 := by rw [← hw, and_app, and_app, and_app]; simp
  clear hw
  rw [decodeWord, h1]; change decodeMajor1a _ _ = _; rw [decodeMajor1a, h2]; change (if _ then _ else _) = _
  rw [if_pos m0, f0, f1]; rfl

theorem F.vsel (d a b : BitVec 7) (k : BitVec 4) (p : Option Pfx) : F.Statement (.vsel d a b k p) := by
  intro _ _
  change decodeWord (0x1a#6 ++ d ++ a ++ b ++ 0x1#1 ++ k) _ = _
  generalize hw : (0x1a#6 ++ d ++ a ++ b ++ 0x1#1 ++ k   : Word) = wd
  have h1 : bits wd 26 6 = 26#6 := hw ▸ ((bits_hi _ _ 26 6).trans ((bits_hi _ _ 22 6).trans ((bits_hi _ _ 21 6).trans ((bits_hi _ _ 14 6).trans ((bits_hi _ _ 7 6).trans (by rfl))))))
  have h2 : bits wd 0 5 = 1#1 ++ k := hw ▸ (bits_mid _ _ _)
  have f0 : bits wd 19 7 = d := hw ▸ ((bits_hi _ _ 19 7).trans ((bits_hi _ _ 15 7).trans ((bits_hi _ _ 14 7).trans ((bits_hi _ _ 7 7).trans ((bits_lo _ _ 0 7).trans (bits_all _))))))
  have f1 : bits wd 12 7 = a := hw ▸ ((bits_hi _ _ 12 7).trans ((bits_hi _ _ 8 7).trans ((bits_hi _ _ 7 7).trans ((bits_lo _ _ 0 7).trans (bits_all _)))))
  have f2 : bits wd 5 7 = b := hw ▸ ((bits_hi _ _ 5 7).trans ((bits_hi _ _ 1 7).trans ((bits_lo _ _ 0 7).trans (bits_all _))))
  have f3 : bits wd 0 4 = k := hw ▸ ((bits_lo _ _ 0 4).trans (bits_all _))
  have m0 : wd &&& 0xfc000010#32 = 0x68000010#32 := by rw [← hw, and_app, and_app, and_app, and_app, and_app]; simp
  clear hw
  rcases bv4_cases k with rfl | rfl | rfl | rfl | rfl | rfl | rfl | rfl | rfl | rfl | rfl | rfl | rfl | rfl | rfl | rfl
  all_goals
    rw [decodeWord, h1]; change decodeMajor1a _ _ = _; rw [decodeMajor1a, h2]; change (if _ then _ else _) = _
    rw [if_pos m0, f0, f1, f2, f3]; rfl

theorem F.vcvt (d a : BitVec 7) (s f : BitVec 5) (p : Option Pfx) : F.Statement (.vcvt d a s f p) := by
  intro _ _
  change decodeWord (0x1b#6 ++ d ++ a ++ s ++ 0x0#2 ++ f) _ = _
  generalize hw : (0x1b#6 ++ d ++ a ++ s ++ 0x0#2 ++ f   : Word) = wd
  have h1 : bits wd 26 6 = 27#6 := hw ▸ ((bits_hi _ _ 26 6).trans ((bits_hi _ _ 21 6).trans ((bits_hi _ _ 19 6).trans ((bits_hi _ _ 14 6).trans ((bits_hi _ _ 7 6).trans (by rfl))))))
  have f0 : bits wd 19 7 = d := hw ▸ ((bits_hi _ _ 19 7).trans ((bits_hi _ _ 14 7).trans ((bits_hi _ _ 12 7).trans ((bits_hi _ _ 7 7).trans ((bits_lo _ _ 0 7).trans (bits_all _))))))
  have f1 : bits wd 12 7 = a := hw ▸ ((bits_hi _ _ 12 7).trans ((bits_hi _ _ 7 7).trans ((bits_hi _ _ 5 7).trans ((bits_lo _ _ 0 7).trans (bits_all _)))))
  have f2 : bits wd 7 5 = s := hw ▸ ((bits_hi _ _ 7 5).trans ((bits_hi _ _ 2 5).trans ((bits_lo _ _ 0 5).trans (bits_all _))))
  have f3 : bits wd 0 5 = f := hw ▸ ((bits_lo _ _ 0 5).trans (bits_all _))
  have m0 : wd &&& 0xfc000060#32 = 0x6c000000#32 := by rw [← hw, and_app, and_app, and_app, and_app, and_app]; simp
  clear hw
  rw [decodeWord, h1]; change decodeMajor1b _ _ = _; rw [decodeMajor1b]; change (if _ then _ else _) = _
  rw [if_pos m0, f0, f1, f2, f3]; rfl

theorem F.vpack (d a b : BitVec 7) (f : BitVec 5) (p : Option Pfx) : F.Statement (.vpack d a b f p) := by
  intro _ _
  change decodeWord (0x1c#6 ++ d ++ a ++ b ++ f) _ = _
  generalize hw : (0x1c#6 ++ d ++ a ++ b ++ f   : Word) = wd
  have h1 : bits wd 26 6 = 28#6 := hw ▸ ((bits_hi _ _ 26 6).trans ((bits_hi _ _ 21 6).trans ((bits_hi _ _ 14 6).trans ((bits_hi _ _ 7 6).trans (by rfl)))))
  have f0 : bits wd 19 7 = d := hw ▸ ((bits_hi _ _ 19 7).trans ((bits_hi _ _ 14 7).trans ((bits_hi _ _ 7 7).trans ((bits_lo _ _ 0 7).trans (bits_all _)))))
  have f1 : bits wd 12 7 = a := hw ▸ ((bits_hi _ _ 12 7).trans ((bits_hi _ _ 7 7).trans ((bits_lo _ _ 0 7).trans (bits_all _))))
  have f2 : bits wd 5 7 = b := hw ▸ ((bits_hi _ _ 5 7).trans ((bits_lo _ _ 0 7).trans (bits_all _)))
  have f3 : bits wd 0 5 = f := hw ▸ ((bits_lo _ _ 0 5).trans (bits_all _))
  have m0 : wd &&& 0xfc000000#32 = 0x70000000#32 := by rw [← hw, and_app, and_app, and_app, and_app]; simp
  clear hw
  rw [decodeWord, h1]; change decodeMajor1c _ _ = _; rw [decodeMajor1c]; change (if _ then _ else _) = _
  rw [if_pos m0, f0, f1, f2, f3]; rfl

theorem F.vunpk (d a : BitVec 7) (s : BitVec 5) (i : BitVec 2) (f : BitVec 5) (p : Option Pfx) : F.Statement (.vunpk d a s i f p) := by
  intro _ _
  change decodeWord (0x1d#6 ++ d ++ a ++ s ++ i ++ f) _ = _
  generalize hw : (0x1d#6 ++ d ++ a ++ s ++ i ++ f   : Word) = wd
  have h1 : bits wd 26 6 = 29#6 := hw ▸ ((bits_hi _ _ 26 6).trans ((bits_hi _ _ 21 6).trans ((bits_hi _ _ 19 6).trans ((bits_hi _ _ 14 6).trans ((bits_hi _ _ 7 6).trans (by rfl))))))
  have f0 : bits wd 19 7 = d := hw ▸ ((bits_hi _ _ 19 7).trans ((bits_hi _ _ 14 7).trans ((bits_hi _ _ 12 7).trans ((bits_hi _ _ 7 7).trans ((bits_lo _ _ 0 7).trans (bits_all _))))))
  have f1 : bits wd 12 7 = a := hw ▸ ((bits_hi _ _ 12 7).trans ((bits_hi _ _ 7 7).trans ((bits_hi _ _ 5 7).trans ((bits_lo _ _ 0 7).trans (bits_all _)))))
  have f2 : bits wd 7 5 = s := hw ▸ ((bits_hi _ _ 7 5).trans ((bits_hi _ _ 2 5).trans ((bits_lo _ _ 0 5).trans (bits_all _))))
  have f3 : bits wd 5 2 = i := hw ▸ ((bits_hi _ _ 5 2).trans ((bits_lo _ _ 0 2).trans (bits_all _)))
  have f4 : bits wd 0 5 = f := hw ▸ ((bits_lo _ _ 0 5).trans (bits_all _))
  have m0 : wd &&& 0xfc000000#32 = 0x74000000#32 := by rw [← hw, and_app, and_app, and_app, and_app, and_app]; simp
  clear hw
  rw [decodeWord, h1]; change decodeMajor1d _ _ = _; rw [decodeMajor1d]; change (if _ then _ else _) = _
  rw [if_pos m0, f0, f1, f2, f3, f4]; rfl

theorem F.vshfl (d a b : BitVec 7) (w : BitVec 3) (g : BitVec 1) (p : Option Pfx) : F.Statement (.vshfl d a b w g p) := by
  intro _ _
  change decodeWord (0x20#6 ++ d ++ a ++ b ++ w ++ g ++ 0x0#1) _ = _
  generalize hw : (0x20#6 ++ d ++ a ++ b ++ w ++ g ++ 0x0#1   : Word) = wd
  have h1 : bits wd 26 6 = 32#6 := hw ▸ ((bits_hi _ _ 26 6).trans ((bits_hi _ _ 25 6).trans ((bits_hi _ _ 24 6).trans ((bits_hi _ _ 21 6).trans ((bits_hi _ _ 14 6).trans ((bits_hi _ _ 7 6).trans (by rfl)))))))
  have f0 : bits wd 19 7 = d := hw ▸ ((bits_hi _ _ 19 7).trans ((bits_hi _ _ 18 7).trans ((bits_hi _ _ 17 7).trans ((bits_hi _ _ 14 7).trans ((bits_hi _ _ 7 7).trans ((bits_lo _ _ 0 7).trans (bits_all _)))))))
  have f1 : bits wd 12 7 = a := hw ▸ ((bits_hi _ _ 12 7).trans ((bits_hi _ _ 11 7).trans ((bits_hi _ _ 10 7).trans ((bits_hi _ _ 7 7).trans ((bits_lo _ _ 0 7).trans (bits_all _))))))
  have f2 : bits wd 5 7 = b := hw ▸ ((bits_hi _ _ 5 7).trans ((bits_hi _ _ 4 7).trans ((bits_hi _ _ 3 7).trans ((bits_lo _ _ 0 7).trans (bits_all _)))))
  have f3 : bits wd 2 3 = w := hw ▸ ((bits_hi _ _ 2 3).trans ((bits_hi _ _ 1 3).trans ((bits_lo _ _ 0 3).trans (bits_all _))))
  have f4 : bits wd 1 1 = g := hw ▸ ((bits_hi _ _ 1 1).trans ((bits_lo _ _ 0 1).trans (bits_all _)))
  have m0 : wd &&& 0xfc000001#32 = 0x80000000#32 := by rw [← hw, and_app, and_app, and_app, and_app, and_app, and_app]; simp
  clear hw
  rw [decodeWord, h1]; change decodeMajor20 _ _ = _; rw [decodeMajor20]; change (if _ then _ else _) = _
  rw [if_pos m0, f0, f1, f2, f3, f4]; rfl

theorem F.vbcst (d a b : BitVec 7) (w : BitVec 3) (g : BitVec 1) (p : Option Pfx) : F.Statement (.vbcst d a b w g p) := by
  intro _ _
  change decodeWord (0x21#6 ++ d ++ a ++ b ++ w ++ g ++ 0x0#1) _ = _
  generalize hw : (0x21#6 ++ d ++ a ++ b ++ w ++ g ++ 0x0#1   : Word) = wd
  have h1 : bits wd 26 6 = 33#6 := hw ▸ ((bits_hi _ _ 26 6).trans ((bits_hi _ _ 25 6).trans ((bits_hi _ _ 24 6).trans ((bits_hi _ _ 21 6).trans ((bits_hi _ _ 14 6).trans ((bits_hi _ _ 7 6).trans (by rfl)))))))
  have f0 : bits wd 19 7 = d := hw ▸ ((bits_hi _ _ 19 7).trans ((bits_hi _ _ 18 7).trans ((bits_hi _ _ 17 7).trans ((bits_hi _ _ 14 7).trans ((bits_hi _ _ 7 7).trans ((bits_lo _ _ 0 7).trans (bits_all _)))))))
  have f1 : bits wd 12 7 = a := hw ▸ ((bits_hi _ _ 12 7).trans ((bits_hi _ _ 11 7).trans ((bits_hi _ _ 10 7).trans ((bits_hi _ _ 7 7).trans ((bits_lo _ _ 0 7).trans (bits_all _))))))
  have f2 : bits wd 5 7 = b := hw ▸ ((bits_hi _ _ 5 7).trans ((bits_hi _ _ 4 7).trans ((bits_hi _ _ 3 7).trans ((bits_lo _ _ 0 7).trans (bits_all _)))))
  have f3 : bits wd 2 3 = w := hw ▸ ((bits_hi _ _ 2 3).trans ((bits_hi _ _ 1 3).trans ((bits_lo _ _ 0 3).trans (bits_all _))))
  have f4 : bits wd 1 1 = g := hw ▸ ((bits_hi _ _ 1 1).trans ((bits_lo _ _ 0 1).trans (bits_all _)))
  have m0 : wd &&& 0xfc000001#32 = 0x84000000#32 := by rw [← hw, and_app, and_app, and_app, and_app, and_app, and_app]; simp
  clear hw
  rw [decodeWord, h1]; change decodeMajor21 _ _ = _; rw [decodeMajor21]; change (if _ then _ else _) = _
  rw [if_pos m0, f0, f1, f2, f3, f4]; rfl

theorem F.wred (d a : BitVec 7) (o w : BitVec 3) (p : Option Pfx) : F.Statement (.wred d a o w p) := by
  intro _ _
  change decodeWord (0x22#6 ++ d ++ a ++ o ++ 0x0#4 ++ w ++ 0x0#2) _ = _
  generalize hw : (0x22#6 ++ d ++ a ++ o ++ 0x0#4 ++ w ++ 0x0#2   : Word) = wd
  have h1 : bits wd 26 6 = 34#6 := hw ▸ ((bits_hi _ _ 26 6).trans ((bits_hi _ _ 24 6).trans ((bits_hi _ _ 21 6).trans ((bits_hi _ _ 17 6).trans ((bits_hi _ _ 14 6).trans ((bits_hi _ _ 7 6).trans (by rfl)))))))
  have h2 : bits wd 0 1 = 0#1 := hw ▸ ((bits_lo _ _ 0 1).trans (by rfl))
  have f0 : bits wd 19 7 = d := hw ▸ ((bits_hi _ _ 19 7).trans ((bits_hi _ _ 17 7).trans ((bits_hi _ _ 14 7).trans ((bits_hi _ _ 10 7).trans ((bits_hi _ _ 7 7).trans ((bits_lo _ _ 0 7).trans (bits_all _)))))))
  have f1 : bits wd 12 7 = a := hw ▸ ((bits_hi _ _ 12 7).trans ((bits_hi _ _ 10 7).trans ((bits_hi _ _ 7 7).trans ((bits_hi _ _ 3 7).trans ((bits_lo _ _ 0 7).trans (bits_all _))))))
  have f2 : bits wd 9 3 = o := hw ▸ ((bits_hi _ _ 9 3).trans ((bits_hi _ _ 7 3).trans ((bits_hi _ _ 4 3).trans ((bits_lo _ _ 0 3).trans (bits_all _)))))
  have f3 : bits wd 2 3 = w := hw ▸ ((bits_hi _ _ 2 3).trans ((bits_lo _ _ 0 3).trans (bits_all _)))
  have m0 : wd &&& 0xfc0001e3#32 = 0x88000000#32 := by rw [← hw, and_app, and_app, and_app, and_app, and_app, and_app]; simp
  clear hw
  rw [decodeWord, h1]; change decodeMajor22 _ _ = _; rw [decodeMajor22, h2]; change (if _ then _ else _) = _
  rw [if_pos m0, f0, f1, f2, f3]; rfl

theorem F.wscan (d a : BitVec 7) (o : BitVec 3) (e : BitVec 1) (w : BitVec 3) (p : Option Pfx) : F.Statement (.wscan d a o e w p) := by
  intro _ _
  change decodeWord (0x22#6 ++ d ++ a ++ o ++ e ++ 0x0#3 ++ w ++ 0x1#2) _ = _
  generalize hw : (0x22#6 ++ d ++ a ++ o ++ e ++ 0x0#3 ++ w ++ 0x1#2   : Word) = wd
  have h1 : bits wd 26 6 = 34#6 := hw ▸ ((bits_hi _ _ 26 6).trans ((bits_hi _ _ 24 6).trans ((bits_hi _ _ 21 6).trans ((bits_hi _ _ 18 6).trans ((bits_hi _ _ 17 6).trans ((bits_hi _ _ 14 6).trans ((bits_hi _ _ 7 6).trans (by rfl))))))))
  have h2 : bits wd 0 1 = 1#1 := hw ▸ ((bits_lo _ _ 0 1).trans (by rfl))
  have f0 : bits wd 19 7 = d := hw ▸ ((bits_hi _ _ 19 7).trans ((bits_hi _ _ 17 7).trans ((bits_hi _ _ 14 7).trans ((bits_hi _ _ 11 7).trans ((bits_hi _ _ 10 7).trans ((bits_hi _ _ 7 7).trans ((bits_lo _ _ 0 7).trans (bits_all _))))))))
  have f1 : bits wd 12 7 = a := hw ▸ ((bits_hi _ _ 12 7).trans ((bits_hi _ _ 10 7).trans ((bits_hi _ _ 7 7).trans ((bits_hi _ _ 4 7).trans ((bits_hi _ _ 3 7).trans ((bits_lo _ _ 0 7).trans (bits_all _)))))))
  have f2 : bits wd 9 3 = o := hw ▸ ((bits_hi _ _ 9 3).trans ((bits_hi _ _ 7 3).trans ((bits_hi _ _ 4 3).trans ((bits_hi _ _ 1 3).trans ((bits_lo _ _ 0 3).trans (bits_all _))))))
  have f3 : bits wd 8 1 = e := hw ▸ ((bits_hi _ _ 8 1).trans ((bits_hi _ _ 6 1).trans ((bits_hi _ _ 3 1).trans ((bits_lo _ _ 0 1).trans (bits_all _)))))
  have f4 : bits wd 2 3 = w := hw ▸ ((bits_hi _ _ 2 3).trans ((bits_lo _ _ 0 3).trans (bits_all _)))
  have m0 : wd &&& 0xfc0000e3#32 = 0x88000001#32 := by rw [← hw, and_app, and_app, and_app, and_app, and_app, and_app, and_app]; simp
  clear hw
  rw [decodeWord, h1]; change decodeMajor22 _ _ = _; rw [decodeMajor22, h2]; change (if _ then _ else _) = _
  rw [if_pos m0, f0, f1, f2, f3, f4]; rfl

theorem F.vballot (d : BitVec 5) (a : BitVec 4) (w : BitVec 3) (p : Option Pfx) : F.Statement (.vballot d a w p) := by
  intro _ _
  change decodeWord (0x46#7 ++ d ++ 0x0#4 ++ a ++ 0x0#7 ++ w ++ 0x0#2) _ = _
  generalize hw : (0x46#7 ++ d ++ 0x0#4 ++ a ++ 0x0#7 ++ w ++ 0x0#2   : Word) = wd
  have h1 : bits wd 26 6 = 35#6 := hw ▸ ((bits_hi _ _ 26 6).trans ((bits_hi _ _ 24 6).trans ((bits_hi _ _ 21 6).trans ((bits_hi _ _ 14 6).trans ((bits_hi _ _ 10 6).trans ((bits_hi _ _ 6 6).trans (by rfl)))))))
  have h2 : bits wd 0 1 = 0#1 := hw ▸ ((bits_lo _ _ 0 1).trans (by rfl))
  have f0 : bits wd 20 5 = d := hw ▸ ((bits_hi _ _ 20 5).trans ((bits_hi _ _ 18 5).trans ((bits_hi _ _ 15 5).trans ((bits_hi _ _ 8 5).trans ((bits_hi _ _ 4 5).trans ((bits_lo _ _ 0 5).trans (bits_all _)))))))
  have f1 : bits wd 12 4 = a := hw ▸ ((bits_hi _ _ 12 4).trans ((bits_hi _ _ 10 4).trans ((bits_hi _ _ 7 4).trans ((bits_lo _ _ 0 4).trans (bits_all _)))))
  have f2 : bits wd 2 3 = w := hw ▸ ((bits_hi _ _ 2 3).trans ((bits_lo _ _ 0 3).trans (bits_all _)))
  have m0 : wd &&& 0xfe0f0fe3#32 = 0x8c000000#32 := by rw [← hw, and_app, and_app, and_app, and_app, and_app, and_app]; simp
  clear hw
  rw [decodeWord, h1]; change decodeMajor23 _ _ = _; rw [decodeMajor23, h2]; change (if _ then _ else _) = _
  rw [if_pos m0, f0, f1, f2]; rfl

theorem F.vconf (d : BitVec 4) (a : BitVec 7) (w : BitVec 3) (p : Option Pfx) : F.Statement (.vconf d a w p) := by
  intro _ _
  change decodeWord (0x118#9 ++ d ++ a ++ 0x0#7 ++ w ++ 0x1#2) _ = _
  generalize hw : (0x118#9 ++ d ++ a ++ 0x0#7 ++ w ++ 0x1#2   : Word) = wd
  have h1 : bits wd 26 6 = 35#6 := hw ▸ ((bits_hi _ _ 26 6).trans ((bits_hi _ _ 24 6).trans ((bits_hi _ _ 21 6).trans ((bits_hi _ _ 14 6).trans ((bits_hi _ _ 7 6).trans (by rfl))))))
  have h2 : bits wd 0 1 = 1#1 := hw ▸ ((bits_lo _ _ 0 1).trans (by rfl))
  have f0 : bits wd 19 4 = d := hw ▸ ((bits_hi _ _ 19 4).trans ((bits_hi _ _ 17 4).trans ((bits_hi _ _ 14 4).trans ((bits_hi _ _ 7 4).trans ((bits_lo _ _ 0 4).trans (bits_all _))))))
  have f1 : bits wd 12 7 = a := hw ▸ ((bits_hi _ _ 12 7).trans ((bits_hi _ _ 10 7).trans ((bits_hi _ _ 7 7).trans ((bits_lo _ _ 0 7).trans (bits_all _)))))
  have f2 : bits wd 2 3 = w := hw ▸ ((bits_hi _ _ 2 3).trans ((bits_lo _ _ 0 3).trans (bits_all _)))
  have m0 : wd &&& 0xff800fe3#32 = 0x8c000001#32 := by rw [← hw, and_app, and_app, and_app, and_app, and_app]; simp
  clear hw
  rw [decodeWord, h1]; change decodeMajor23 _ _ = _; rw [decodeMajor23, h2]; change (if _ then _ else _) = _
  rw [if_pos m0, f0, f1, f2]; rfl

theorem F.mand (d a b : BitVec 4) : F.Statement (.mand d a b) := by
  intro _ _
  change decodeWord (0x120#9 ++ d ++ 0x0#3 ++ a ++ 0x0#3 ++ b ++ 0x0#5) _ = _
  generalize hw : (0x120#9 ++ d ++ 0x0#3 ++ a ++ 0x0#3 ++ b ++ 0x0#5   : Word) = wd
  have h1 : bits wd 26 6 = 36#6 := hw ▸ ((bits_hi _ _ 26 6).trans ((bits_hi _ _ 21 6).trans ((bits_hi _ _ 17 6).trans ((bits_hi _ _ 14 6).trans ((bits_hi _ _ 10 6).trans ((bits_hi _ _ 7 6).trans (by rfl)))))))
  have h2 : bits wd 0 5 = 0#5 := hw ▸ ((bits_lo _ _ 0 5).trans (by rfl))
  have f0 : bits wd 19 4 = d := hw ▸ ((bits_hi _ _ 19 4).trans ((bits_hi _ _ 14 4).trans ((bits_hi _ _ 10 4).trans ((bits_hi _ _ 7 4).trans ((bits_hi _ _ 3 4).trans ((bits_lo _ _ 0 4).trans (bits_all _)))))))
  have f1 : bits wd 12 4 = a := hw ▸ ((bits_hi _ _ 12 4).trans ((bits_hi _ _ 7 4).trans ((bits_hi _ _ 3 4).trans ((bits_lo _ _ 0 4).trans (bits_all _)))))
  have f2 : bits wd 5 4 = b := hw ▸ ((bits_hi _ _ 5 4).trans ((bits_lo _ _ 0 4).trans (bits_all _)))
  have m0 : wd &&& 0xff870e1f#32 = 0x90000000#32 := by rw [← hw, and_app, and_app, and_app, and_app, and_app, and_app]; simp
  clear hw
  rw [decodeWord, h1]; change decodeMajor24 _ _ = _; rw [decodeMajor24, h2]; change (if _ then _ else _) = _
  rw [if_pos m0, f0, f1, f2]

theorem F.mor (d a b : BitVec 4) : F.Statement (.mor d a b) := by
  intro _ _
  change decodeWord (0x120#9 ++ d ++ 0x0#3 ++ a ++ 0x0#3 ++ b ++ 0x1#5) _ = _
  generalize hw : (0x120#9 ++ d ++ 0x0#3 ++ a ++ 0x0#3 ++ b ++ 0x1#5   : Word) = wd
  have h1 : bits wd 26 6 = 36#6 := hw ▸ ((bits_hi _ _ 26 6).trans ((bits_hi _ _ 21 6).trans ((bits_hi _ _ 17 6).trans ((bits_hi _ _ 14 6).trans ((bits_hi _ _ 10 6).trans ((bits_hi _ _ 7 6).trans (by rfl)))))))
  have h2 : bits wd 0 5 = 1#5 := hw ▸ ((bits_lo _ _ 0 5).trans (by rfl))
  have f0 : bits wd 19 4 = d := hw ▸ ((bits_hi _ _ 19 4).trans ((bits_hi _ _ 14 4).trans ((bits_hi _ _ 10 4).trans ((bits_hi _ _ 7 4).trans ((bits_hi _ _ 3 4).trans ((bits_lo _ _ 0 4).trans (bits_all _)))))))
  have f1 : bits wd 12 4 = a := hw ▸ ((bits_hi _ _ 12 4).trans ((bits_hi _ _ 7 4).trans ((bits_hi _ _ 3 4).trans ((bits_lo _ _ 0 4).trans (bits_all _)))))
  have f2 : bits wd 5 4 = b := hw ▸ ((bits_hi _ _ 5 4).trans ((bits_lo _ _ 0 4).trans (bits_all _)))
  have m0 : wd &&& 0xff870e1f#32 = 0x90000001#32 := by rw [← hw, and_app, and_app, and_app, and_app, and_app, and_app]; simp
  clear hw
  rw [decodeWord, h1]; change decodeMajor24 _ _ = _; rw [decodeMajor24, h2]; change (if _ then _ else _) = _
  rw [if_pos m0, f0, f1, f2]

theorem F.mxor (d a b : BitVec 4) : F.Statement (.mxor d a b) := by
  intro _ _
  change decodeWord (0x120#9 ++ d ++ 0x0#3 ++ a ++ 0x0#3 ++ b ++ 0x2#5) _ = _
  generalize hw : (0x120#9 ++ d ++ 0x0#3 ++ a ++ 0x0#3 ++ b ++ 0x2#5   : Word) = wd
  have h1 : bits wd 26 6 = 36#6 := hw ▸ ((bits_hi _ _ 26 6).trans ((bits_hi _ _ 21 6).trans ((bits_hi _ _ 17 6).trans ((bits_hi _ _ 14 6).trans ((bits_hi _ _ 10 6).trans ((bits_hi _ _ 7 6).trans (by rfl)))))))
  have h2 : bits wd 0 5 = 2#5 := hw ▸ ((bits_lo _ _ 0 5).trans (by rfl))
  have f0 : bits wd 19 4 = d := hw ▸ ((bits_hi _ _ 19 4).trans ((bits_hi _ _ 14 4).trans ((bits_hi _ _ 10 4).trans ((bits_hi _ _ 7 4).trans ((bits_hi _ _ 3 4).trans ((bits_lo _ _ 0 4).trans (bits_all _)))))))
  have f1 : bits wd 12 4 = a := hw ▸ ((bits_hi _ _ 12 4).trans ((bits_hi _ _ 7 4).trans ((bits_hi _ _ 3 4).trans ((bits_lo _ _ 0 4).trans (bits_all _)))))
  have f2 : bits wd 5 4 = b := hw ▸ ((bits_hi _ _ 5 4).trans ((bits_lo _ _ 0 4).trans (bits_all _)))
  have m0 : wd &&& 0xff870e1f#32 = 0x90000002#32 := by rw [← hw, and_app, and_app, and_app, and_app, and_app, and_app]; simp
  clear hw
  rw [decodeWord, h1]; change decodeMajor24 _ _ = _; rw [decodeMajor24, h2]; change (if _ then _ else _) = _
  rw [if_pos m0, f0, f1, f2]

theorem F.mnot (d a : BitVec 4) : F.Statement (.mnot d a) := by
  intro _ _
  change decodeWord (0x120#9 ++ d ++ 0x0#3 ++ a ++ 0x3#12) _ = _
  generalize hw : (0x120#9 ++ d ++ 0x0#3 ++ a ++ 0x3#12   : Word) = wd
  have h1 : bits wd 26 6 = 36#6 := hw ▸ ((bits_hi _ _ 26 6).trans ((bits_hi _ _ 14 6).trans ((bits_hi _ _ 10 6).trans ((bits_hi _ _ 7 6).trans (by rfl)))))
  have h2 : bits wd 0 5 = 3#5 := hw ▸ ((bits_lo _ _ 0 5).trans (by rfl))
  have f0 : bits wd 19 4 = d := hw ▸ ((bits_hi _ _ 19 4).trans ((bits_hi _ _ 7 4).trans ((bits_hi _ _ 3 4).trans ((bits_lo _ _ 0 4).trans (bits_all _)))))
  have f1 : bits wd 12 4 = a := hw ▸ ((bits_hi _ _ 12 4).trans ((bits_lo _ _ 0 4).trans (bits_all _)))
  have m0 : wd &&& 0xff870fff#32 = 0x90000003#32 := by rw [← hw, and_app, and_app, and_app, and_app]; simp
  clear hw
  rw [decodeWord, h1]; change decodeMajor24 _ _ = _; rw [decodeMajor24, h2]; change (if _ then _ else _) = _
  rw [if_pos m0, f0, f1]

theorem F.mpopc (d : BitVec 6) (a : BitVec 4) : F.Statement (.mpopc d a) := by
  intro _ _
  change decodeWord (0x48#7 ++ d ++ 0x0#3 ++ a ++ 0x4#12) _ = _
  generalize hw : (0x48#7 ++ d ++ 0x0#3 ++ a ++ 0x4#12   : Word) = wd
  have h1 : bits wd 26 6 = 36#6 := hw ▸ ((bits_hi _ _ 26 6).trans ((bits_hi _ _ 14 6).trans ((bits_hi _ _ 10 6).trans ((bits_hi _ _ 7 6).trans (by rfl)))))
  have h2 : bits wd 0 5 = 4#5 := hw ▸ ((bits_lo _ _ 0 5).trans (by rfl))
  have f0 : bits wd 19 6 = d := hw ▸ ((bits_hi _ _ 19 6).trans ((bits_hi _ _ 7 6).trans ((bits_hi _ _ 3 6).trans ((bits_lo _ _ 0 6).trans (bits_all _)))))
  have f1 : bits wd 12 4 = a := hw ▸ ((bits_hi _ _ 12 4).trans ((bits_lo _ _ 0 4).trans (bits_all _)))
  have m0 : wd &&& 0xfe070fff#32 = 0x90000004#32 := by rw [← hw, and_app, and_app, and_app, and_app]; simp
  clear hw
  rw [decodeWord, h1]; change decodeMajor24 _ _ = _; rw [decodeMajor24, h2]; change (if _ then _ else _) = _
  rw [if_pos m0, f0, f1]

theorem F.mffs (d : BitVec 6) (a : BitVec 4) : F.Statement (.mffs d a) := by
  intro _ _
  change decodeWord (0x48#7 ++ d ++ 0x0#3 ++ a ++ 0x5#12) _ = _
  generalize hw : (0x48#7 ++ d ++ 0x0#3 ++ a ++ 0x5#12   : Word) = wd
  have h1 : bits wd 26 6 = 36#6 := hw ▸ ((bits_hi _ _ 26 6).trans ((bits_hi _ _ 14 6).trans ((bits_hi _ _ 10 6).trans ((bits_hi _ _ 7 6).trans (by rfl)))))
  have h2 : bits wd 0 5 = 5#5 := hw ▸ ((bits_lo _ _ 0 5).trans (by rfl))
  have f0 : bits wd 19 6 = d := hw ▸ ((bits_hi _ _ 19 6).trans ((bits_hi _ _ 7 6).trans ((bits_hi _ _ 3 6).trans ((bits_lo _ _ 0 6).trans (bits_all _)))))
  have f1 : bits wd 12 4 = a := hw ▸ ((bits_hi _ _ 12 4).trans ((bits_lo _ _ 0 4).trans (bits_all _)))
  have m0 : wd &&& 0xfe070fff#32 = 0x90000005#32 := by rw [← hw, and_app, and_app, and_app, and_app]; simp
  clear hw
  rw [decodeWord, h1]; change decodeMajor24 _ _ = _; rw [decodeMajor24, h2]; change (if _ then _ else _) = _
  rw [if_pos m0, f0, f1]

theorem F.mmovMm (d a : BitVec 4) : F.Statement (.mmovMm d a) := by
  intro _ _
  change decodeWord (0x120#9 ++ d ++ 0x0#3 ++ a ++ 0x6#12) _ = _
  generalize hw : (0x120#9 ++ d ++ 0x0#3 ++ a ++ 0x6#12   : Word) = wd
  have h1 : bits wd 26 6 = 36#6 := hw ▸ ((bits_hi _ _ 26 6).trans ((bits_hi _ _ 14 6).trans ((bits_hi _ _ 10 6).trans ((bits_hi _ _ 7 6).trans (by rfl)))))
  have h2 : bits wd 0 5 = 6#5 := hw ▸ ((bits_lo _ _ 0 5).trans (by rfl))
  have f0 : bits wd 19 4 = d := hw ▸ ((bits_hi _ _ 19 4).trans ((bits_hi _ _ 7 4).trans ((bits_hi _ _ 3 4).trans ((bits_lo _ _ 0 4).trans (bits_all _)))))
  have f1 : bits wd 12 4 = a := hw ▸ ((bits_hi _ _ 12 4).trans ((bits_lo _ _ 0 4).trans (bits_all _)))
  have m0 : wd &&& 0xff870fff#32 = 0x90000006#32 := by rw [← hw, and_app, and_app, and_app, and_app]; simp
  clear hw
  rw [decodeWord, h1]; change decodeMajor24 _ _ = _; rw [decodeMajor24, h2]; change (if _ then _ else _) = _
  rw [if_pos m0, f0, f1]

theorem F.mmovMs (d : BitVec 5) (a : BitVec 4) : F.Statement (.mmovMs d a) := by
  intro _ _
  change decodeWord (0x48#7 ++ d ++ 0x0#4 ++ a ++ 0x7#12) _ = _
  generalize hw : (0x48#7 ++ d ++ 0x0#4 ++ a ++ 0x7#12   : Word) = wd
  have h1 : bits wd 26 6 = 36#6 := hw ▸ ((bits_hi _ _ 26 6).trans ((bits_hi _ _ 14 6).trans ((bits_hi _ _ 10 6).trans ((bits_hi _ _ 6 6).trans (by rfl)))))
  have h2 : bits wd 0 5 = 7#5 := hw ▸ ((bits_lo _ _ 0 5).trans (by rfl))
  have f0 : bits wd 20 5 = d := hw ▸ ((bits_hi _ _ 20 5).trans ((bits_hi _ _ 8 5).trans ((bits_hi _ _ 4 5).trans ((bits_lo _ _ 0 5).trans (bits_all _)))))
  have f1 : bits wd 12 4 = a := hw ▸ ((bits_hi _ _ 12 4).trans ((bits_lo _ _ 0 4).trans (bits_all _)))
  have m0 : wd &&& 0xfe0f0fff#32 = 0x90000007#32 := by rw [← hw, and_app, and_app, and_app, and_app]; simp
  clear hw
  rw [decodeWord, h1]; change decodeMajor24 _ _ = _; rw [decodeMajor24, h2]; change (if _ then _ else _) = _
  rw [if_pos m0, f0, f1]

theorem F.mmovSm (d : BitVec 4) (a : BitVec 5) : F.Statement (.mmovSm d a) := by
  intro _ _
  change decodeWord (0x120#9 ++ d ++ 0x0#1 ++ a ++ 0x8#13) _ = _
  generalize hw : (0x120#9 ++ d ++ 0x0#1 ++ a ++ 0x8#13   : Word) = wd
  have h1 : bits wd 26 6 = 36#6 := hw ▸ ((bits_hi _ _ 26 6).trans ((bits_hi _ _ 13 6).trans ((bits_hi _ _ 8 6).trans ((bits_hi _ _ 7 6).trans (by rfl)))))
  have h2 : bits wd 0 5 = 8#5 := hw ▸ ((bits_lo _ _ 0 5).trans (by rfl))
  have f0 : bits wd 19 4 = d := hw ▸ ((bits_hi _ _ 19 4).trans ((bits_hi _ _ 6 4).trans ((bits_hi _ _ 1 4).trans ((bits_lo _ _ 0 4).trans (bits_all _)))))
  have f1 : bits wd 13 5 = a := hw ▸ ((bits_hi _ _ 13 5).trans ((bits_lo _ _ 0 5).trans (bits_all _)))
  have m0 : wd &&& 0xff841fff#32 = 0x90000008#32 := by rw [← hw, and_app, and_app, and_app, and_app]; simp
  clear hw
  rw [decodeWord, h1]; change decodeMajor24 _ _ = _; rw [decodeMajor24, h2]; change (if _ then _ else _) = _
  rw [if_pos m0, f0, f1]

theorem F.vld (d : BitVec 7) (b : BitVec 5) (v : BitVec 7) (l : BitVec 4) (m : BitVec 3) (h : Option (BitVec 24)) (p : Option Pfx) : F.Statement (.vld d b v l m h p) := by
  intro _ _
  change decodeWord (0x28#6 ++ d ++ b ++ v ++ l ++ m) _ = _
  generalize hw : (0x28#6 ++ d ++ b ++ v ++ l ++ m   : Word) = wd
  have h1 : bits wd 26 6 = 40#6 := hw ▸ ((bits_hi _ _ 26 6).trans ((bits_hi _ _ 23 6).trans ((bits_hi _ _ 19 6).trans ((bits_hi _ _ 12 6).trans ((bits_hi _ _ 7 6).trans (by rfl))))))
  have f0 : bits wd 19 7 = d := hw ▸ ((bits_hi _ _ 19 7).trans ((bits_hi _ _ 16 7).trans ((bits_hi _ _ 12 7).trans ((bits_hi _ _ 5 7).trans ((bits_lo _ _ 0 7).trans (bits_all _))))))
  have f1 : bits wd 14 5 = b := hw ▸ ((bits_hi _ _ 14 5).trans ((bits_hi _ _ 11 5).trans ((bits_hi _ _ 7 5).trans ((bits_lo _ _ 0 5).trans (bits_all _)))))
  have f2 : bits wd 7 7 = v := hw ▸ ((bits_hi _ _ 7 7).trans ((bits_hi _ _ 4 7).trans ((bits_lo _ _ 0 7).trans (bits_all _))))
  have f3 : bits wd 3 4 = l := hw ▸ ((bits_hi _ _ 3 4).trans ((bits_lo _ _ 0 4).trans (bits_all _)))
  have f4 : bits wd 0 3 = m := hw ▸ ((bits_lo _ _ 0 3).trans (bits_all _))
  have m0 : wd &&& 0xfc000000#32 = 0xa0000000#32 := by rw [← hw, and_app, and_app, and_app, and_app, and_app]; simp
  clear hw
  rw [decodeWord, h1]; change decodeMajor28 _ _ = _; rw [decodeMajor28]; change (if _ then _ else _) = _
  rw [if_pos m0, f0, f1, f2, f3, f4]; rfl

theorem F.vldAcq (d : BitVec 7) (b : BitVec 5) (v : BitVec 7) (l : BitVec 4) (s : BitVec 3) (h : Option (BitVec 24)) (p : Option Pfx) : F.Statement (.vldAcq d b v l s h p) := by
  intro _ _
  change decodeWord (0x29#6 ++ d ++ b ++ v ++ l ++ s) _ = _
  generalize hw : (0x29#6 ++ d ++ b ++ v ++ l ++ s   : Word) = wd
  have h1 : bits wd 26 6 = 41#6 := hw ▸ ((bits_hi _ _ 26 6).trans ((bits_hi _ _ 23 6).trans ((bits_hi _ _ 19 6).trans ((bits_hi _ _ 12 6).trans ((bits_hi _ _ 7 6).trans (by rfl))))))
  have f0 : bits wd 19 7 = d := hw ▸ ((bits_hi _ _ 19 7).trans ((bits_hi _ _ 16 7).trans ((bits_hi _ _ 12 7).trans ((bits_hi _ _ 5 7).trans ((bits_lo _ _ 0 7).trans (bits_all _))))))
  have f1 : bits wd 14 5 = b := hw ▸ ((bits_hi _ _ 14 5).trans ((bits_hi _ _ 11 5).trans ((bits_hi _ _ 7 5).trans ((bits_lo _ _ 0 5).trans (bits_all _)))))
  have f2 : bits wd 7 7 = v := hw ▸ ((bits_hi _ _ 7 7).trans ((bits_hi _ _ 4 7).trans ((bits_lo _ _ 0 7).trans (bits_all _))))
  have f3 : bits wd 3 4 = l := hw ▸ ((bits_hi _ _ 3 4).trans ((bits_lo _ _ 0 4).trans (bits_all _)))
  have f4 : bits wd 0 3 = s := hw ▸ ((bits_lo _ _ 0 3).trans (bits_all _))
  have m0 : wd &&& 0xfc000000#32 = 0xa4000000#32 := by rw [← hw, and_app, and_app, and_app, and_app, and_app]; simp
  clear hw
  rw [decodeWord, h1]; change decodeMajor29 _ _ = _; rw [decodeMajor29]; change (if _ then _ else _) = _
  rw [if_pos m0, f0, f1, f2, f3, f4]; rfl

theorem F.vst (d : BitVec 7) (b : BitVec 5) (v : BitVec 7) (m : BitVec 3) (h : Option (BitVec 24)) (p : Option Pfx) : F.Statement (.vst d b v m h p) := by
  intro _ _
  change decodeWord (0x2a#6 ++ d ++ b ++ v ++ 0x0#4 ++ m) _ = _
  generalize hw : (0x2a#6 ++ d ++ b ++ v ++ 0x0#4 ++ m   : Word) = wd
  have h1 : bits wd 26 6 = 42#6 := hw ▸ ((bits_hi _ _ 26 6).trans ((bits_hi _ _ 23 6).trans ((bits_hi _ _ 19 6).trans ((bits_hi _ _ 12 6).trans ((bits_hi _ _ 7 6).trans (by rfl))))))
  have f0 : bits wd 19 7 = d := hw ▸ ((bits_hi _ _ 19 7).trans ((bits_hi _ _ 16 7).trans ((bits_hi _ _ 12 7).trans ((bits_hi _ _ 5 7).trans ((bits_lo _ _ 0 7).trans (bits_all _))))))
  have f1 : bits wd 14 5 = b := hw ▸ ((bits_hi _ _ 14 5).trans ((bits_hi _ _ 11 5).trans ((bits_hi _ _ 7 5).trans ((bits_lo _ _ 0 5).trans (bits_all _)))))
  have f2 : bits wd 7 7 = v := hw ▸ ((bits_hi _ _ 7 7).trans ((bits_hi _ _ 4 7).trans ((bits_lo _ _ 0 7).trans (bits_all _))))
  have f3 : bits wd 0 3 = m := hw ▸ ((bits_lo _ _ 0 3).trans (bits_all _))
  have m0 : wd &&& 0xfc000078#32 = 0xa8000000#32 := by rw [← hw, and_app, and_app, and_app, and_app, and_app]; simp
  clear hw
  rw [decodeWord, h1]; change decodeMajor2a _ _ = _; rw [decodeMajor2a]; change (if _ then _ else _) = _
  rw [if_pos m0, f0, f1, f2, f3]; rfl

theorem F.vstRel (d : BitVec 7) (b : BitVec 5) (v : BitVec 7) (s : BitVec 3) (h : Option (BitVec 24)) (p : Option Pfx) : F.Statement (.vstRel d b v s h p) := by
  intro _ _
  change decodeWord (0x2b#6 ++ d ++ b ++ v ++ 0x0#4 ++ s) _ = _
  generalize hw : (0x2b#6 ++ d ++ b ++ v ++ 0x0#4 ++ s   : Word) = wd
  have h1 : bits wd 26 6 = 43#6 := hw ▸ ((bits_hi _ _ 26 6).trans ((bits_hi _ _ 23 6).trans ((bits_hi _ _ 19 6).trans ((bits_hi _ _ 12 6).trans ((bits_hi _ _ 7 6).trans (by rfl))))))
  have f0 : bits wd 19 7 = d := hw ▸ ((bits_hi _ _ 19 7).trans ((bits_hi _ _ 16 7).trans ((bits_hi _ _ 12 7).trans ((bits_hi _ _ 5 7).trans ((bits_lo _ _ 0 7).trans (bits_all _))))))
  have f1 : bits wd 14 5 = b := hw ▸ ((bits_hi _ _ 14 5).trans ((bits_hi _ _ 11 5).trans ((bits_hi _ _ 7 5).trans ((bits_lo _ _ 0 5).trans (bits_all _)))))
  have f2 : bits wd 7 7 = v := hw ▸ ((bits_hi _ _ 7 7).trans ((bits_hi _ _ 4 7).trans ((bits_lo _ _ 0 7).trans (bits_all _))))
  have f3 : bits wd 0 3 = s := hw ▸ ((bits_lo _ _ 0 3).trans (bits_all _))
  have m0 : wd &&& 0xfc000078#32 = 0xac000000#32 := by rw [← hw, and_app, and_app, and_app, and_app, and_app]; simp
  clear hw
  rw [decodeWord, h1]; change decodeMajor2b _ _ = _; rw [decodeMajor2b]; change (if _ then _ else _) = _
  rw [if_pos m0, f0, f1, f2, f3]; rfl

theorem F.vldp (d v : BitVec 7) (l : BitVec 4) (m : BitVec 3) (h : Option (BitVec 24)) (p : Option Pfx) : F.Statement (.vldp d v l m h p) := by
  intro _ _
  change decodeWord (0x2c#6 ++ d ++ 0x0#5 ++ v ++ l ++ m) _ = _
  generalize hw : (0x2c#6 ++ d ++ 0x0#5 ++ v ++ l ++ m   : Word) = wd
  have h1 : bits wd 26 6 = 44#6 := hw ▸ ((bits_hi _ _ 26 6).trans ((bits_hi _ _ 23 6).trans ((bits_hi _ _ 19 6).trans ((bits_hi _ _ 12 6).trans ((bits_hi _ _ 7 6).trans (by rfl))))))
  have f0 : bits wd 19 7 = d := hw ▸ ((bits_hi _ _ 19 7).trans ((bits_hi _ _ 16 7).trans ((bits_hi _ _ 12 7).trans ((bits_hi _ _ 5 7).trans ((bits_lo _ _ 0 7).trans (bits_all _))))))
  have f1 : bits wd 7 7 = v := hw ▸ ((bits_hi _ _ 7 7).trans ((bits_hi _ _ 4 7).trans ((bits_lo _ _ 0 7).trans (bits_all _))))
  have f2 : bits wd 3 4 = l := hw ▸ ((bits_hi _ _ 3 4).trans ((bits_lo _ _ 0 4).trans (bits_all _)))
  have f3 : bits wd 0 3 = m := hw ▸ ((bits_lo _ _ 0 3).trans (bits_all _))
  have m0 : wd &&& 0xfc07c000#32 = 0xb0000000#32 := by rw [← hw, and_app, and_app, and_app, and_app, and_app]; simp
  clear hw
  rw [decodeWord, h1]; change decodeMajor2c _ _ = _; rw [decodeMajor2c]; change (if _ then _ else _) = _
  rw [if_pos m0, f0, f1, f2, f3]; rfl

theorem F.vstp (d v : BitVec 7) (m : BitVec 3) (h : Option (BitVec 24)) (p : Option Pfx) : F.Statement (.vstp d v m h p) := by
  intro _ _
  change decodeWord (0x2d#6 ++ d ++ 0x0#5 ++ v ++ 0x0#4 ++ m) _ = _
  generalize hw : (0x2d#6 ++ d ++ 0x0#5 ++ v ++ 0x0#4 ++ m   : Word) = wd
  have h1 : bits wd 26 6 = 45#6 := hw ▸ ((bits_hi _ _ 26 6).trans ((bits_hi _ _ 23 6).trans ((bits_hi _ _ 19 6).trans ((bits_hi _ _ 12 6).trans ((bits_hi _ _ 7 6).trans (by rfl))))))
  have f0 : bits wd 19 7 = d := hw ▸ ((bits_hi _ _ 19 7).trans ((bits_hi _ _ 16 7).trans ((bits_hi _ _ 12 7).trans ((bits_hi _ _ 5 7).trans ((bits_lo _ _ 0 7).trans (bits_all _))))))
  have f1 : bits wd 7 7 = v := hw ▸ ((bits_hi _ _ 7 7).trans ((bits_hi _ _ 4 7).trans ((bits_lo _ _ 0 7).trans (bits_all _))))
  have f2 : bits wd 0 3 = m := hw ▸ ((bits_lo _ _ 0 3).trans (bits_all _))
  have m0 : wd &&& 0xfc07c078#32 = 0xb4000000#32 := by rw [← hw, and_app, and_app, and_app, and_app, and_app]; simp
  clear hw
  rw [decodeWord, h1]; change decodeMajor2d _ _ = _; rw [decodeMajor2d]; change (if _ then _ else _) = _
  rw [if_pos m0, f0, f1, f2]; rfl

theorem F.vatom (d : BitVec 7) (b : BitVec 5) (v : BitVec 7) (l : BitVec 4) (o : BitVec 3) (h : Option (BitVec 24)) (p : Option Pfx) : F.Statement (.vatom d b v l o h p) := by
  intro _ _
  change decodeWord (0x2e#6 ++ d ++ b ++ v ++ l ++ o) _ = _
  generalize hw : (0x2e#6 ++ d ++ b ++ v ++ l ++ o   : Word) = wd
  have h1 : bits wd 26 6 = 46#6 := hw ▸ ((bits_hi _ _ 26 6).trans ((bits_hi _ _ 23 6).trans ((bits_hi _ _ 19 6).trans ((bits_hi _ _ 12 6).trans ((bits_hi _ _ 7 6).trans (by rfl))))))
  have f0 : bits wd 19 7 = d := hw ▸ ((bits_hi _ _ 19 7).trans ((bits_hi _ _ 16 7).trans ((bits_hi _ _ 12 7).trans ((bits_hi _ _ 5 7).trans ((bits_lo _ _ 0 7).trans (bits_all _))))))
  have f1 : bits wd 14 5 = b := hw ▸ ((bits_hi _ _ 14 5).trans ((bits_hi _ _ 11 5).trans ((bits_hi _ _ 7 5).trans ((bits_lo _ _ 0 5).trans (bits_all _)))))
  have f2 : bits wd 7 7 = v := hw ▸ ((bits_hi _ _ 7 7).trans ((bits_hi _ _ 4 7).trans ((bits_lo _ _ 0 7).trans (bits_all _))))
  have f3 : bits wd 3 4 = l := hw ▸ ((bits_hi _ _ 3 4).trans ((bits_lo _ _ 0 4).trans (bits_all _)))
  have f4 : bits wd 0 3 = o := hw ▸ ((bits_lo _ _ 0 3).trans (bits_all _))
  have m0 : wd &&& 0xfc000000#32 = 0xb8000000#32 := by rw [← hw, and_app, and_app, and_app, and_app, and_app]; simp
  clear hw
  rw [decodeWord, h1]; change decodeMajor2e _ _ = _; rw [decodeMajor2e]; change (if _ then _ else _) = _
  rw [if_pos m0, f0, f1, f2, f3, f4]; rfl

theorem F.vatomNear (d : BitVec 7) (b : BitVec 5) (v : BitVec 7) (l : BitVec 4) (o : BitVec 3) (h : Option (BitVec 24)) (p : Option Pfx) : F.Statement (.vatomNear d b v l o h p) := by
  intro _ _
  change decodeWord (0x2f#6 ++ d ++ b ++ v ++ l ++ o) _ = _
  generalize hw : (0x2f#6 ++ d ++ b ++ v ++ l ++ o   : Word) = wd
  have h1 : bits wd 26 6 = 47#6 := hw ▸ ((bits_hi _ _ 26 6).trans ((bits_hi _ _ 23 6).trans ((bits_hi _ _ 19 6).trans ((bits_hi _ _ 12 6).trans ((bits_hi _ _ 7 6).trans (by rfl))))))
  have f0 : bits wd 19 7 = d := hw ▸ ((bits_hi _ _ 19 7).trans ((bits_hi _ _ 16 7).trans ((bits_hi _ _ 12 7).trans ((bits_hi _ _ 5 7).trans ((bits_lo _ _ 0 7).trans (bits_all _))))))
  have f1 : bits wd 14 5 = b := hw ▸ ((bits_hi _ _ 14 5).trans ((bits_hi _ _ 11 5).trans ((bits_hi _ _ 7 5).trans ((bits_lo _ _ 0 5).trans (bits_all _)))))
  have f2 : bits wd 7 7 = v := hw ▸ ((bits_hi _ _ 7 7).trans ((bits_hi _ _ 4 7).trans ((bits_lo _ _ 0 7).trans (bits_all _))))
  have f3 : bits wd 3 4 = l := hw ▸ ((bits_hi _ _ 3 4).trans ((bits_lo _ _ 0 4).trans (bits_all _)))
  have f4 : bits wd 0 3 = o := hw ▸ ((bits_lo _ _ 0 3).trans (bits_all _))
  have m0 : wd &&& 0xfc000000#32 = 0xbc000000#32 := by rw [← hw, and_app, and_app, and_app, and_app, and_app]; simp
  clear hw
  rw [decodeWord, h1]; change decodeMajor2f _ _ = _; rw [decodeMajor2f]; change (if _ then _ else _) = _
  rw [if_pos m0, f0, f1, f2, f3, f4]; rfl

theorem F.vatomHome (d : BitVec 7) (b : BitVec 5) (v : BitVec 7) (l : BitVec 4) (o : BitVec 3) (h : Option (BitVec 24)) (p : Option Pfx) : F.Statement (.vatomHome d b v l o h p) := by
  intro _ _
  change decodeWord (0x30#6 ++ d ++ b ++ v ++ l ++ o) _ = _
  generalize hw : (0x30#6 ++ d ++ b ++ v ++ l ++ o   : Word) = wd
  have h1 : bits wd 26 6 = 48#6 := hw ▸ ((bits_hi _ _ 26 6).trans ((bits_hi _ _ 23 6).trans ((bits_hi _ _ 19 6).trans ((bits_hi _ _ 12 6).trans ((bits_hi _ _ 7 6).trans (by rfl))))))
  have f0 : bits wd 19 7 = d := hw ▸ ((bits_hi _ _ 19 7).trans ((bits_hi _ _ 16 7).trans ((bits_hi _ _ 12 7).trans ((bits_hi _ _ 5 7).trans ((bits_lo _ _ 0 7).trans (bits_all _))))))
  have f1 : bits wd 14 5 = b := hw ▸ ((bits_hi _ _ 14 5).trans ((bits_hi _ _ 11 5).trans ((bits_hi _ _ 7 5).trans ((bits_lo _ _ 0 5).trans (bits_all _)))))
  have f2 : bits wd 7 7 = v := hw ▸ ((bits_hi _ _ 7 7).trans ((bits_hi _ _ 4 7).trans ((bits_lo _ _ 0 7).trans (bits_all _))))
  have f3 : bits wd 3 4 = l := hw ▸ ((bits_hi _ _ 3 4).trans ((bits_lo _ _ 0 4).trans (bits_all _)))
  have f4 : bits wd 0 3 = o := hw ▸ ((bits_lo _ _ 0 3).trans (bits_all _))
  have m0 : wd &&& 0xfc000000#32 = 0xc0000000#32 := by rw [← hw, and_app, and_app, and_app, and_app, and_app]; simp
  clear hw
  rw [decodeWord, h1]; change decodeMajor30 _ _ = _; rw [decodeMajor30]; change (if _ then _ else _) = _
  rw [if_pos m0, f0, f1, f2, f3, f4]; rfl

theorem F.vared (d : BitVec 7) (b : BitVec 5) (v : BitVec 7) (g : BitVec 2) (o : BitVec 3) (h : Option (BitVec 24)) (p : Option Pfx) : F.Statement (.vared d b v g o h p) := by
  intro _ _
  change decodeWord (0x31#6 ++ d ++ b ++ v ++ g ++ 0x0#2 ++ o) _ = _
  generalize hw : (0x31#6 ++ d ++ b ++ v ++ g ++ 0x0#2 ++ o   : Word) = wd
  have h1 : bits wd 26 6 = 49#6 := hw ▸ ((bits_hi _ _ 26 6).trans ((bits_hi _ _ 23 6).trans ((bits_hi _ _ 21 6).trans ((bits_hi _ _ 19 6).trans ((bits_hi _ _ 12 6).trans ((bits_hi _ _ 7 6).trans (by rfl)))))))
  have f0 : bits wd 19 7 = d := hw ▸ ((bits_hi _ _ 19 7).trans ((bits_hi _ _ 16 7).trans ((bits_hi _ _ 14 7).trans ((bits_hi _ _ 12 7).trans ((bits_hi _ _ 5 7).trans ((bits_lo _ _ 0 7).trans (bits_all _)))))))
  have f1 : bits wd 14 5 = b := hw ▸ ((bits_hi _ _ 14 5).trans ((bits_hi _ _ 11 5).trans ((bits_hi _ _ 9 5).trans ((bits_hi _ _ 7 5).trans ((bits_lo _ _ 0 5).trans (bits_all _))))))
  have f2 : bits wd 7 7 = v := hw ▸ ((bits_hi _ _ 7 7).trans ((bits_hi _ _ 4 7).trans ((bits_hi _ _ 2 7).trans ((bits_lo _ _ 0 7).trans (bits_all _)))))
  have f3 : bits wd 5 2 = g := hw ▸ ((bits_hi _ _ 5 2).trans ((bits_hi _ _ 2 2).trans ((bits_lo _ _ 0 2).trans (bits_all _))))
  have f4 : bits wd 0 3 = o := hw ▸ ((bits_lo _ _ 0 3).trans (bits_all _))
  have m0 : wd &&& 0xfc000018#32 = 0xc4000000#32 := by rw [← hw, and_app, and_app, and_app, and_app, and_app, and_app]; simp
  clear hw
  rw [decodeWord, h1]; change decodeMajor31 _ _ = _; rw [decodeMajor31]; change (if _ then _ else _) = _
  rw [if_pos m0, f0, f1, f2, f3, f4]; rfl

theorem F.fgath (d : BitVec 7) (v : BitVec 5) (l : BitVec 4) (m : BitVec 1) (h : Option (BitVec 24)) (p : Option Pfx) : F.Statement (.fgath d v l m h p) := by
  intro _ _
  change decodeWord (0x32#6 ++ d ++ 0x0#5 ++ v ++ 0x0#2 ++ l ++ 0x0#2 ++ m) _ = _
  generalize hw : (0x32#6 ++ d ++ 0x0#5 ++ v ++ 0x0#2 ++ l ++ 0x0#2 ++ m   : Word) = wd
  have h1 : bits wd 26 6 = 50#6 := hw ▸ ((bits_hi _ _ 26 6).trans ((bits_hi _ _ 25 6).trans ((bits_hi _ _ 23 6).trans ((bits_hi _ _ 19 6).trans ((bits_hi _ _ 17 6).trans ((bits_hi _ _ 12 6).trans ((bits_hi _ _ 7 6).trans (by rfl))))))))
  have f0 : bits wd 19 7 = d := hw ▸ ((bits_hi _ _ 19 7).trans ((bits_hi _ _ 18 7).trans ((bits_hi _ _ 16 7).trans ((bits_hi _ _ 12 7).trans ((bits_hi _ _ 10 7).trans ((bits_hi _ _ 5 7).trans ((bits_lo _ _ 0 7).trans (bits_all _))))))))
  have f1 : bits wd 9 5 = v := hw ▸ ((bits_hi _ _ 9 5).trans ((bits_hi _ _ 8 5).trans ((bits_hi _ _ 6 5).trans ((bits_hi _ _ 2 5).trans ((bits_lo _ _ 0 5).trans (bits_all _))))))
  have f2 : bits wd 3 4 = l := hw ▸ ((bits_hi _ _ 3 4).trans ((bits_hi _ _ 2 4).trans ((bits_lo _ _ 0 4).trans (bits_all _))))
  have f3 : bits wd 0 1 = m := hw ▸ ((bits_lo _ _ 0 1).trans (bits_all _))
  have m0 : wd &&& 0xfc07c186#32 = 0xc8000000#32 := by rw [← hw, and_app, and_app, and_app, and_app, and_app, and_app, and_app]; simp
  clear hw
  rw [decodeWord, h1]; change decodeMajor32 _ _ = _; rw [decodeMajor32]; change (if _ then _ else _) = _
  rw [if_pos m0, f0, f1, f2, f3]; rfl

theorem F.pref (b : BitVec 5) (v : BitVec 7) (m : BitVec 1) (h : Option (BitVec 24)) (p : Option Pfx) : F.Statement (.pref b v m h p) := by
  intro _ _
  change decodeWord (0x1980#13 ++ b ++ v ++ 0x0#6 ++ m) _ = _
  generalize hw : (0x1980#13 ++ b ++ v ++ 0x0#6 ++ m   : Word) = wd
  have h1 : bits wd 26 6 = 51#6 := hw ▸ ((bits_hi _ _ 26 6).trans ((bits_hi _ _ 25 6).trans ((bits_hi _ _ 19 6).trans ((bits_hi _ _ 12 6).trans (by rfl)))))
  have f0 : bits wd 14 5 = b := hw ▸ ((bits_hi _ _ 14 5).trans ((bits_hi _ _ 13 5).trans ((bits_hi _ _ 7 5).trans ((bits_lo _ _ 0 5).trans (bits_all _)))))
  have f1 : bits wd 7 7 = v := hw ▸ ((bits_hi _ _ 7 7).trans ((bits_hi _ _ 6 7).trans ((bits_lo _ _ 0 7).trans (bits_all _))))
  have f2 : bits wd 0 1 = m := hw ▸ ((bits_lo _ _ 0 1).trans (bits_all _))
  have m0 : wd &&& 0xfff8007e#32 = 0xcc000000#32 := by rw [← hw, and_app, and_app, and_app, and_app]; simp
  clear hw
  rw [decodeWord, h1]; change decodeMajor33 _ _ = _; rw [decodeMajor33]; change (if _ then _ else _) = _
  rw [if_pos m0, f0, f1, f2]; rfl

theorem F.disc (b : BitVec 5) (v : BitVec 7) (m : BitVec 3) (h : Option (BitVec 24)) (p : Option Pfx) : F.Statement (.disc b v m h p) := by
  intro _ _
  change decodeWord (0x1a00#13 ++ b ++ v ++ 0x0#4 ++ m) _ = _
  generalize hw : (0x1a00#13 ++ b ++ v ++ 0x0#4 ++ m   : Word) = wd
  have h1 : bits wd 26 6 = 52#6 := hw ▸ ((bits_hi _ _ 26 6).trans ((bits_hi _ _ 23 6).trans ((bits_hi _ _ 19 6).trans ((bits_hi _ _ 12 6).trans (by rfl)))))
  have f0 : bits wd 14 5 = b := hw ▸ ((bits_hi _ _ 14 5).trans ((bits_hi _ _ 11 5).trans ((bits_hi _ _ 7 5).trans ((bits_lo _ _ 0 5).trans (bits_all _)))))
  have f1 : bits wd 7 7 = v := hw ▸ ((bits_hi _ _ 7 7).trans ((bits_hi _ _ 4 7).trans ((bits_lo _ _ 0 7).trans (bits_all _))))
  have f2 : bits wd 0 3 = m := hw ▸ ((bits_lo _ _ 0 3).trans (bits_all _))
  have m0 : wd &&& 0xfff80078#32 = 0xd0000000#32 := by rw [← hw, and_app, and_app, and_app, and_app]; simp
  clear hw
  rw [decodeWord, h1]; change decodeMajor34 _ _ = _; rw [decodeMajor34]; change (if _ then _ else _) = _
  rw [if_pos m0, f0, f1, f2]; rfl

theorem F.tsmp (d b v : BitVec 5) (l : BitVec 4) (m : BitVec 3) (h : Option (BitVec 24)) (p : Option Pfx) : F.Statement (.tsmp d b v l m h p) := by
  intro _ _
  change decodeWord (0x35#6 ++ d ++ 0x0#2 ++ b ++ v ++ 0x0#2 ++ l ++ m) _ = _
  generalize hw : (0x35#6 ++ d ++ 0x0#2 ++ b ++ v ++ 0x0#2 ++ l ++ m   : Word) = wd
  have h1 : bits wd 26 6 = 53#6 := hw ▸ ((bits_hi _ _ 26 6).trans ((bits_hi _ _ 23 6).trans ((bits_hi _ _ 19 6).trans ((bits_hi _ _ 17 6).trans ((bits_hi _ _ 12 6).trans ((bits_hi _ _ 7 6).trans ((bits_hi _ _ 5 6).trans (by rfl))))))))
  have f0 : bits wd 21 5 = d := hw ▸ ((bits_hi _ _ 21 5).trans ((bits_hi _ _ 18 5).trans ((bits_hi _ _ 14 5).trans ((bits_hi _ _ 12 5).trans ((bits_hi _ _ 7 5).trans ((bits_hi _ _ 2 5).trans ((bits_lo _ _ 0 5).trans (bits_all _))))))))
  have f1 : bits wd 14 5 = b := hw ▸ ((bits_hi _ _ 14 5).trans ((bits_hi _ _ 11 5).trans ((bits_hi _ _ 7 5).trans ((bits_hi _ _ 5 5).trans ((bits_lo _ _ 0 5).trans (bits_all _))))))
  have f2 : bits wd 9 5 = v := hw ▸ ((bits_hi _ _ 9 5).trans ((bits_hi _ _ 6 5).trans ((bits_hi _ _ 2 5).trans ((bits_lo _ _ 0 5).trans (bits_all _)))))
  have f3 : bits wd 3 4 = l := hw ▸ ((bits_hi _ _ 3 4).trans ((bits_lo _ _ 0 4).trans (bits_all _)))
  have f4 : bits wd 0 3 = m := hw ▸ ((bits_lo _ _ 0 3).trans (bits_all _))
  have m0 : wd &&& 0xfc180180#32 = 0xd4000000#32 := by rw [← hw, and_app, and_app, and_app, and_app, and_app, and_app, and_app]; simp
  clear hw
  rw [decodeWord, h1]; change decodeMajor35 _ _ = _; rw [decodeMajor35]; change (if _ then _ else _) = _
  rw [if_pos m0, f0, f1, f2, f3, f4]; rfl

theorem F.prime (w : BitVec 3) (c : BitVec 6) (a : BitVec 5) (p : BitVec 4) : F.Statement (.prime w c a p) := by
  intro _ _
  change decodeWord (0x1c0#9 ++ w ++ c ++ a ++ p ++ 0x0#5) _ = _
  generalize hw : (0x1c0#9 ++ w ++ c ++ a ++ p ++ 0x0#5   : Word) = wd
  have h1 : bits wd 26 6 = 56#6 := hw ▸ ((bits_hi _ _ 26 6).trans ((bits_hi _ _ 21 6).trans ((bits_hi _ _ 17 6).trans ((bits_hi _ _ 12 6).trans ((bits_hi _ _ 6 6).trans (by rfl))))))
  have h2 : bits wd 23 3 = 0#3 := hw ▸ ((bits_hi _ _ 23 3).trans ((bits_hi _ _ 18 3).trans ((bits_hi _ _ 14 3).trans ((bits_hi _ _ 9 3).trans ((bits_hi _ _ 3 3).trans (by rfl))))))
  have f0 : bits wd 20 3 = w := hw ▸ ((bits_hi _ _ 20 3).trans ((bits_hi _ _ 15 3).trans ((bits_hi _ _ 11 3).trans ((bits_hi _ _ 6 3).trans ((bits_lo _ _ 0 3).trans (bits_all _))))))
  have f1 : bits wd 14 6 = c := hw ▸ ((bits_hi _ _ 14 6).trans ((bits_hi _ _ 9 6).trans ((bits_hi _ _ 5 6).trans ((bits_lo _ _ 0 6).trans (bits_all _)))))
  have f2 : bits wd 9 5 = a := hw ▸ ((bits_hi _ _ 9 5).trans ((bits_hi _ _ 4 5).trans ((bits_lo _ _ 0 5).trans (bits_all _))))
  have f3 : bits wd 5 4 = p := hw ▸ ((bits_hi _ _ 5 4).trans ((bits_lo _ _ 0 4).trans (bits_all _)))
  have m0 : wd &&& 0xff80001f#32 = 0xe0000000#32 := by rw [← hw, and_app, and_app, and_app, and_app, and_app]; simp
  clear hw
  rw [decodeWord, h1]; change decodeMajor38 _ _ = _; rw [decodeMajor38, h2]; change (if _ then _ else _) = _
  rw [if_pos m0, f0, f1, f2, f3]

theorem F.mma (w : BitVec 3) (t : BitVec 8) (c : BitVec 6) (p : BitVec 4) : F.Statement (.mma w t c p) := by
  intro _ _
  change decodeWord (0x1c1#9 ++ w ++ t ++ c ++ p ++ 0x0#2) _ = _
  generalize hw : (0x1c1#9 ++ w ++ t ++ c ++ p ++ 0x0#2   : Word) = wd
  have h1 : bits wd 26 6 = 56#6 := hw ▸ ((bits_hi _ _ 26 6).trans ((bits_hi _ _ 24 6).trans ((bits_hi _ _ 20 6).trans ((bits_hi _ _ 14 6).trans ((bits_hi _ _ 6 6).trans (by rfl))))))
  have h2 : bits wd 23 3 = 1#3 := hw ▸ ((bits_hi _ _ 23 3).trans ((bits_hi _ _ 21 3).trans ((bits_hi _ _ 17 3).trans ((bits_hi _ _ 11 3).trans ((bits_hi _ _ 3 3).trans (by rfl))))))
  have f0 : bits wd 20 3 = w := hw ▸ ((bits_hi _ _ 20 3).trans ((bits_hi _ _ 18 3).trans ((bits_hi _ _ 14 3).trans ((bits_hi _ _ 8 3).trans ((bits_lo _ _ 0 3).trans (bits_all _))))))
  have f1 : bits wd 12 8 = t := hw ▸ ((bits_hi _ _ 12 8).trans ((bits_hi _ _ 10 8).trans ((bits_hi _ _ 6 8).trans ((bits_lo _ _ 0 8).trans (bits_all _)))))
  have f2 : bits wd 6 6 = c := hw ▸ ((bits_hi _ _ 6 6).trans ((bits_hi _ _ 4 6).trans ((bits_lo _ _ 0 6).trans (bits_all _))))
  have f3 : bits wd 2 4 = p := hw ▸ ((bits_hi _ _ 2 4).trans ((bits_lo _ _ 0 4).trans (bits_all _)))
  have m0 : wd &&& 0xff800003#32 = 0xe0800000#32 := by rw [← hw, and_app, and_app, and_app, and_app, and_app]; simp
  clear hw
  rw [decodeWord, h1]; change decodeMajor38 _ _ = _; rw [decodeMajor38, h2]; change (if _ then _ else _) = _
  rw [if_pos m0, f0, f1, f2, f3]

theorem F.mfence (w : BitVec 3) : F.Statement (.mfence w) := by
  intro _ _
  change decodeWord (0x1c2#9 ++ w ++ 0x0#20) _ = _
  generalize hw : (0x1c2#9 ++ w ++ 0x0#20   : Word) = wd
  have h1 : bits wd 26 6 = 56#6 := hw ▸ ((bits_hi _ _ 26 6).trans ((bits_hi _ _ 6 6).trans (by rfl)))
  have h2 : bits wd 23 3 = 2#3 := hw ▸ ((bits_hi _ _ 23 3).trans ((bits_hi _ _ 3 3).trans (by rfl)))
  have f0 : bits wd 20 3 = w := hw ▸ ((bits_hi _ _ 20 3).trans ((bits_lo _ _ 0 3).trans (bits_all _)))
  have m0 : wd &&& 0xff8fffff#32 = 0xe1000000#32 := by rw [← hw, and_app, and_app]; simp
  clear hw
  rw [decodeWord, h1]; change decodeMajor38 _ _ = _; rw [decodeMajor38, h2]; change (if _ then _ else _) = _
  rw [if_pos m0, f0]

theorem F.bwait (w : BitVec 3) (n : BitVec 4) : F.Statement (.bwait w n) := by
  intro _ _
  change decodeWord (0x1c3#9 ++ w ++ 0x0#16 ++ n) _ = _
  generalize hw : (0x1c3#9 ++ w ++ 0x0#16 ++ n   : Word) = wd
  have h1 : bits wd 26 6 = 56#6 := hw ▸ ((bits_hi _ _ 26 6).trans ((bits_hi _ _ 22 6).trans ((bits_hi _ _ 6 6).trans (by rfl))))
  have h2 : bits wd 23 3 = 3#3 := hw ▸ ((bits_hi _ _ 23 3).trans ((bits_hi _ _ 19 3).trans ((bits_hi _ _ 3 3).trans (by rfl))))
  have f0 : bits wd 20 3 = w := hw ▸ ((bits_hi _ _ 20 3).trans ((bits_hi _ _ 16 3).trans ((bits_lo _ _ 0 3).trans (bits_all _))))
  have f1 : bits wd 0 4 = n := hw ▸ ((bits_lo _ _ 0 4).trans (bits_all _))
  have m0 : wd &&& 0xff8ffff0#32 = 0xe1800000#32 := by rw [← hw, and_app, and_app, and_app]; simp
  clear hw
  rw [decodeWord, h1]; change decodeMajor38 _ _ = _; rw [decodeMajor38, h2]; change (if _ then _ else _) = _
  rw [if_pos m0, f0, f1]

theorem F.bwaitAll (w : BitVec 3) : F.Statement (.bwaitAll w) := by
  intro _ _
  change decodeWord (0x1c3#9 ++ w ++ 0x80000#20) _ = _
  generalize hw : (0x1c3#9 ++ w ++ 0x80000#20   : Word) = wd
  have h1 : bits wd 26 6 = 56#6 := hw ▸ ((bits_hi _ _ 26 6).trans ((bits_hi _ _ 6 6).trans (by rfl)))
  have h2 : bits wd 23 3 = 3#3 := hw ▸ ((bits_hi _ _ 23 3).trans ((bits_hi _ _ 3 3).trans (by rfl)))
  have f0 : bits wd 20 3 = w := hw ▸ ((bits_hi _ _ 20 3).trans ((bits_lo _ _ 0 3).trans (bits_all _)))
  have m0 : wd &&& 0xff8fffff#32 = 0xe1880000#32 := by rw [← hw, and_app, and_app]; simp
  have n0 : ¬ wd &&& 0xff8ffff0#32 = 0xe1800000#32 := by rw [← hw, and_app, and_app]; simp
  clear hw
  rw [decodeWord, h1]; change decodeMajor38 _ _ = _; rw [decodeMajor38, h2]; change (if _ then _ else _) = _
  rw [if_neg n0, if_pos m0, f0]

theorem F.accz (w : BitVec 3) (t n : BitVec 8) : F.Statement (.accz w t n) := by
  intro _ _
  change decodeWord (0x1c4#9 ++ w ++ t ++ n ++ 0x0#4) _ = _
  generalize hw : (0x1c4#9 ++ w ++ t ++ n ++ 0x0#4   : Word) = wd
  have h1 : bits wd 26 6 = 56#6 := hw ▸ ((bits_hi _ _ 26 6).trans ((bits_hi _ _ 22 6).trans ((bits_hi _ _ 14 6).trans ((bits_hi _ _ 6 6).trans (by rfl)))))
  have h2 : bits wd 23 3 = 4#3 := hw ▸ ((bits_hi _ _ 23 3).trans ((bits_hi _ _ 19 3).trans ((bits_hi _ _ 11 3).trans ((bits_hi _ _ 3 3).trans (by rfl)))))
  have f0 : bits wd 20 3 = w := hw ▸ ((bits_hi _ _ 20 3).trans ((bits_hi _ _ 16 3).trans ((bits_hi _ _ 8 3).trans ((bits_lo _ _ 0 3).trans (bits_all _)))))
  have f1 : bits wd 12 8 = t := hw ▸ ((bits_hi _ _ 12 8).trans ((bits_hi _ _ 8 8).trans ((bits_lo _ _ 0 8).trans (bits_all _))))
  have f2 : bits wd 4 8 = n := hw ▸ ((bits_hi _ _ 4 8).trans ((bits_lo _ _ 0 8).trans (bits_all _)))
  have m0 : wd &&& 0xff80000f#32 = 0xe2000000#32 := by rw [← hw, and_app, and_app, and_app, and_app]; simp
  clear hw
  rw [decodeWord, h1]; change decodeMajor38 _ _ = _; rw [decodeMajor38, h2]; change (if _ then _ else _) = _
  rw [if_pos m0, f0, f1, f2]

theorem F.accwr (w : BitVec 3) (t : BitVec 8) (s : BitVec 7) (f : BitVec 1) : F.Statement (.accwr w t s f) := by
  intro _ _
  change decodeWord (0x1c6#9 ++ w ++ t ++ s ++ 0x0#4 ++ f) _ = _
  generalize hw : (0x1c6#9 ++ w ++ t ++ s ++ 0x0#4 ++ f   : Word) = wd
  have h1 : bits wd 26 6 = 56#6 := hw ▸ ((bits_hi _ _ 26 6).trans ((bits_hi _ _ 25 6).trans ((bits_hi _ _ 21 6).trans ((bits_hi _ _ 14 6).trans ((bits_hi _ _ 6 6).trans (by rfl))))))
  have h2 : bits wd 23 3 = 6#3 := hw ▸ ((bits_hi _ _ 23 3).trans ((bits_hi _ _ 22 3).trans ((bits_hi _ _ 18 3).trans ((bits_hi _ _ 11 3).trans ((bits_hi _ _ 3 3).trans (by rfl))))))
  have f0 : bits wd 20 3 = w := hw ▸ ((bits_hi _ _ 20 3).trans ((bits_hi _ _ 19 3).trans ((bits_hi _ _ 15 3).trans ((bits_hi _ _ 8 3).trans ((bits_lo _ _ 0 3).trans (bits_all _))))))
  have f1 : bits wd 12 8 = t := hw ▸ ((bits_hi _ _ 12 8).trans ((bits_hi _ _ 11 8).trans ((bits_hi _ _ 7 8).trans ((bits_lo _ _ 0 8).trans (bits_all _)))))
  have f2 : bits wd 5 7 = s := hw ▸ ((bits_hi _ _ 5 7).trans ((bits_hi _ _ 4 7).trans ((bits_lo _ _ 0 7).trans (bits_all _))))
  have f3 : bits wd 0 1 = f := hw ▸ ((bits_lo _ _ 0 1).trans (bits_all _))
  have m0 : wd &&& 0xff80001e#32 = 0xe3000000#32 := by rw [← hw, and_app, and_app, and_app, and_app, and_app]; simp
  clear hw
  rw [decodeWord, h1]; change decodeMajor38 _ _ = _; rw [decodeMajor38, h2]; change (if _ then _ else _) = _
  rw [if_pos m0, f0, f1, f2, f3]

theorem F.setscA (w : BitVec 3) (s : BitVec 6) : F.Statement (.setscA w s) := by
  intro _ _
  change decodeWord (0x1c7#9 ++ w ++ 0x0#8 ++ s ++ 0x0#6) _ = _
  generalize hw : (0x1c7#9 ++ w ++ 0x0#8 ++ s ++ 0x0#6   : Word) = wd
  have h1 : bits wd 26 6 = 56#6 := hw ▸ ((bits_hi _ _ 26 6).trans ((bits_hi _ _ 20 6).trans ((bits_hi _ _ 14 6).trans ((bits_hi _ _ 6 6).trans (by rfl)))))
  have h2 : bits wd 23 3 = 7#3 := hw ▸ ((bits_hi _ _ 23 3).trans ((bits_hi _ _ 17 3).trans ((bits_hi _ _ 11 3).trans ((bits_hi _ _ 3 3).trans (by rfl)))))
  have f0 : bits wd 20 3 = w := hw ▸ ((bits_hi _ _ 20 3).trans ((bits_hi _ _ 14 3).trans ((bits_hi _ _ 8 3).trans ((bits_lo _ _ 0 3).trans (bits_all _)))))
  have f1 : bits wd 6 6 = s := hw ▸ ((bits_hi _ _ 6 6).trans ((bits_lo _ _ 0 6).trans (bits_all _)))
  have m0 : wd &&& 0xff8ff03f#32 = 0xe3800000#32 := by rw [← hw, and_app, and_app, and_app, and_app]; simp
  clear hw
  rw [decodeWord, h1]; change decodeMajor38 _ _ = _; rw [decodeMajor38, h2]; change (if _ then _ else _) = _
  rw [if_pos m0, f0, f1]

theorem F.setscB (w : BitVec 3) (s : BitVec 6) : F.Statement (.setscB w s) := by
  intro _ _
  change decodeWord (0x1c7#9 ++ w ++ 0x80#8 ++ s ++ 0x0#6) _ = _
  generalize hw : (0x1c7#9 ++ w ++ 0x80#8 ++ s ++ 0x0#6   : Word) = wd
  have h1 : bits wd 26 6 = 56#6 := hw ▸ ((bits_hi _ _ 26 6).trans ((bits_hi _ _ 20 6).trans ((bits_hi _ _ 14 6).trans ((bits_hi _ _ 6 6).trans (by rfl)))))
  have h2 : bits wd 23 3 = 7#3 := hw ▸ ((bits_hi _ _ 23 3).trans ((bits_hi _ _ 17 3).trans ((bits_hi _ _ 11 3).trans ((bits_hi _ _ 3 3).trans (by rfl)))))
  have f0 : bits wd 20 3 = w := hw ▸ ((bits_hi _ _ 20 3).trans ((bits_hi _ _ 14 3).trans ((bits_hi _ _ 8 3).trans ((bits_lo _ _ 0 3).trans (bits_all _)))))
  have f1 : bits wd 6 6 = s := hw ▸ ((bits_hi _ _ 6 6).trans ((bits_lo _ _ 0 6).trans (bits_all _)))
  have m0 : wd &&& 0xff8ff03f#32 = 0xe3880000#32 := by rw [← hw, and_app, and_app, and_app, and_app]; simp
  clear hw
  rw [decodeWord, h1]; change decodeMajor38 _ _ = _; rw [decodeMajor38, h2]; change (if _ then _ else _) = _
  rw [if_neg (by rw [m0]; decide), if_pos m0, f0, f1]

theorem F.qntz (w : BitVec 3) (s : BitVec 7) (a : BitVec 5) (t : BitVec 2) (u : BitVec 1) : F.Statement (.qntz w s a t u) := by
  intro _ _
  change decodeWord (0x1c8#9 ++ w ++ s ++ a ++ t ++ u ++ 0x0#5) _ = _
  generalize hw : (0x1c8#9 ++ w ++ s ++ a ++ t ++ u ++ 0x0#5   : Word) = wd
  have h1 : bits wd 26 6 = 57#6 := hw ▸ ((bits_hi _ _ 26 6).trans ((bits_hi _ _ 21 6).trans ((bits_hi _ _ 20 6).trans ((bits_hi _ _ 18 6).trans ((bits_hi _ _ 13 6).trans ((bits_hi _ _ 6 6).trans (by rfl)))))))
  have h2 : bits wd 23 3 = 0#3 := hw ▸ ((bits_hi _ _ 23 3).trans ((bits_hi _ _ 18 3).trans ((bits_hi _ _ 17 3).trans ((bits_hi _ _ 15 3).trans ((bits_hi _ _ 10 3).trans ((bits_hi _ _ 3 3).trans (by rfl)))))))
  have f0 : bits wd 20 3 = w := hw ▸ ((bits_hi _ _ 20 3).trans ((bits_hi _ _ 15 3).trans ((bits_hi _ _ 14 3).trans ((bits_hi _ _ 12 3).trans ((bits_hi _ _ 7 3).trans ((bits_lo _ _ 0 3).trans (bits_all _)))))))
  have f1 : bits wd 13 7 = s := hw ▸ ((bits_hi _ _ 13 7).trans ((bits_hi _ _ 8 7).trans ((bits_hi _ _ 7 7).trans ((bits_hi _ _ 5 7).trans ((bits_lo _ _ 0 7).trans (bits_all _))))))
  have f2 : bits wd 8 5 = a := hw ▸ ((bits_hi _ _ 8 5).trans ((bits_hi _ _ 3 5).trans ((bits_hi _ _ 2 5).trans ((bits_lo _ _ 0 5).trans (bits_all _)))))
  have f3 : bits wd 6 2 = t := hw ▸ ((bits_hi _ _ 6 2).trans ((bits_hi _ _ 1 2).trans ((bits_lo _ _ 0 2).trans (bits_all _))))
  have f4 : bits wd 5 1 = u := hw ▸ ((bits_hi _ _ 5 1).trans ((bits_lo _ _ 0 1).trans (bits_all _)))
  have m0 : wd &&& 0xff80001f#32 = 0xe4000000#32 := by rw [← hw, and_app, and_app, and_app, and_app, and_app, and_app]; simp
  clear hw
  rw [decodeWord, h1]; change decodeMajor39 _ _ = _; rw [decodeMajor39, h2]; change (if _ then _ else _) = _
  rw [if_pos m0, f0, f1, f2, f3, f4]

theorem F.dqnz (w : BitVec 3) (d : BitVec 7) (a : BitVec 5) (l : BitVec 4) : F.Statement (.dqnz w d a l) := by
  intro _ _
  change decodeWord (0x1c9#9 ++ w ++ d ++ a ++ l ++ 0x0#4) _ = _
  generalize hw : (0x1c9#9 ++ w ++ d ++ a ++ l ++ 0x0#4   : Word) = wd
  have h1 : bits wd 26 6 = 57#6 := hw ▸ ((bits_hi _ _ 26 6).trans ((bits_hi _ _ 22 6).trans ((bits_hi _ _ 18 6).trans ((bits_hi _ _ 13 6).trans ((bits_hi _ _ 6 6).trans (by rfl))))))
  have h2 : bits wd 23 3 = 1#3 := hw ▸ ((bits_hi _ _ 23 3).trans ((bits_hi _ _ 19 3).trans ((bits_hi _ _ 15 3).trans ((bits_hi _ _ 10 3).trans ((bits_hi _ _ 3 3).trans (by rfl))))))
  have f0 : bits wd 20 3 = w := hw ▸ ((bits_hi _ _ 20 3).trans ((bits_hi _ _ 16 3).trans ((bits_hi _ _ 12 3).trans ((bits_hi _ _ 7 3).trans ((bits_lo _ _ 0 3).trans (bits_all _))))))
  have f1 : bits wd 13 7 = d := hw ▸ ((bits_hi _ _ 13 7).trans ((bits_hi _ _ 9 7).trans ((bits_hi _ _ 5 7).trans ((bits_lo _ _ 0 7).trans (bits_all _)))))
  have f2 : bits wd 8 5 = a := hw ▸ ((bits_hi _ _ 8 5).trans ((bits_hi _ _ 4 5).trans ((bits_lo _ _ 0 5).trans (bits_all _))))
  have f3 : bits wd 4 4 = l := hw ▸ ((bits_hi _ _ 4 4).trans ((bits_lo _ _ 0 4).trans (bits_all _)))
  have m0 : wd &&& 0xff80000f#32 = 0xe4800000#32 := by rw [← hw, and_app, and_app, and_app, and_app, and_app]; simp
  clear hw
  rw [decodeWord, h1]; change decodeMajor39 _ _ = _; rw [decodeMajor39, h2]; change (if _ then _ else _) = _
  rw [if_pos m0, f0, f1, f2, f3]

theorem F.olrd (w : BitVec 3) (d : BitVec 7) (a : BitVec 5) (l : BitVec 4) : F.Statement (.olrd w d a l) := by
  intro _ _
  change decodeWord (0x1ca#9 ++ w ++ d ++ a ++ l ++ 0x0#4) _ = _
  generalize hw : (0x1ca#9 ++ w ++ d ++ a ++ l ++ 0x0#4   : Word) = wd
  have h1 : bits wd 26 6 = 57#6 := hw ▸ ((bits_hi _ _ 26 6).trans ((bits_hi _ _ 22 6).trans ((bits_hi _ _ 18 6).trans ((bits_hi _ _ 13 6).trans ((bits_hi _ _ 6 6).trans (by rfl))))))
  have h2 : bits wd 23 3 = 2#3 := hw ▸ ((bits_hi _ _ 23 3).trans ((bits_hi _ _ 19 3).trans ((bits_hi _ _ 15 3).trans ((bits_hi _ _ 10 3).trans ((bits_hi _ _ 3 3).trans (by rfl))))))
  have f0 : bits wd 20 3 = w := hw ▸ ((bits_hi _ _ 20 3).trans ((bits_hi _ _ 16 3).trans ((bits_hi _ _ 12 3).trans ((bits_hi _ _ 7 3).trans ((bits_lo _ _ 0 3).trans (bits_all _))))))
  have f1 : bits wd 13 7 = d := hw ▸ ((bits_hi _ _ 13 7).trans ((bits_hi _ _ 9 7).trans ((bits_hi _ _ 5 7).trans ((bits_lo _ _ 0 7).trans (bits_all _)))))
  have f2 : bits wd 8 5 = a := hw ▸ ((bits_hi _ _ 8 5).trans ((bits_hi _ _ 4 5).trans ((bits_lo _ _ 0 5).trans (bits_all _))))
  have f3 : bits wd 4 4 = l := hw ▸ ((bits_hi _ _ 4 4).trans ((bits_lo _ _ 0 4).trans (bits_all _)))
  have m0 : wd &&& 0xff80000f#32 = 0xe5000000#32 := by rw [← hw, and_app, and_app, and_app, and_app, and_app]; simp
  clear hw
  rw [decodeWord, h1]; change decodeMajor39 _ _ = _; rw [decodeMajor39, h2]; change (if _ then _ else _) = _
  rw [if_pos m0, f0, f1, f2, f3]

theorem F.accrdReg (r w : BitVec 3) (t : BitVec 8) (d : BitVec 7) (l : BitVec 4) (f : BitVec 1) : F.Statement (.accrdReg r w t d l f) := by
  intro _ _
  change decodeWord (0x3a#6 ++ r ++ w ++ t ++ d ++ l ++ f) _ = _
  generalize hw : (0x3a#6 ++ r ++ w ++ t ++ d ++ l ++ f   : Word) = wd
  have h1 : bits wd 26 6 = 58#6 := hw ▸ ((bits_hi _ _ 26 6).trans ((bits_hi _ _ 25 6).trans ((bits_hi _ _ 21 6).trans ((bits_hi _ _ 14 6).trans ((bits_hi _ _ 6 6).trans ((bits_hi _ _ 3 6).trans (by rfl)))))))
  have f0 : bits wd 23 3 = r := hw ▸ ((bits_hi _ _ 23 3).trans ((bits_hi _ _ 22 3).trans ((bits_hi _ _ 18 3).trans ((bits_hi _ _ 11 3).trans ((bits_hi _ _ 3 3).trans ((bits_lo _ _ 0 3).trans (bits_all _)))))))
  have f1 : bits wd 20 3 = w := hw ▸ ((bits_hi _ _ 20 3).trans ((bits_hi _ _ 19 3).trans ((bits_hi _ _ 15 3).trans ((bits_hi _ _ 8 3).trans ((bits_lo _ _ 0 3).trans (bits_all _))))))
  have f2 : bits wd 12 8 = t := hw ▸ ((bits_hi _ _ 12 8).trans ((bits_hi _ _ 11 8).trans ((bits_hi _ _ 7 8).trans ((bits_lo _ _ 0 8).trans (bits_all _)))))
  have f3 : bits wd 5 7 = d := hw ▸ ((bits_hi _ _ 5 7).trans ((bits_hi _ _ 4 7).trans ((bits_lo _ _ 0 7).trans (bits_all _))))
  have f4 : bits wd 1 4 = l := hw ▸ ((bits_hi _ _ 1 4).trans ((bits_lo _ _ 0 4).trans (bits_all _)))
  have f5 : bits wd 0 1 = f := hw ▸ ((bits_lo _ _ 0 1).trans (bits_all _))
  have m0 : wd &&& 0xfc000000#32 = 0xe8000000#32 := by rw [← hw, and_app, and_app, and_app, and_app, and_app, and_app]; simp
  clear hw
  rw [decodeWord, h1]; change decodeMajor3a _ _ = _; rw [decodeMajor3a]; change (if _ then _ else _) = _
  rw [if_pos m0, f0, f1, f2, f3, f4, f5]

theorem F.accrdMem (r w : BitVec 3) (t : BitVec 8) (s y : BitVec 5) : F.Statement (.accrdMem r w t s y) := by
  intro _ _
  change decodeWord (0x3b#6 ++ r ++ w ++ t ++ s ++ y ++ 0x0#2) _ = _
  generalize hw : (0x3b#6 ++ r ++ w ++ t ++ s ++ y ++ 0x0#2   : Word) = wd
  have h1 : bits wd 26 6 = 59#6 := hw ▸ ((bits_hi _ _ 26 6).trans ((bits_hi _ _ 24 6).trans ((bits_hi _ _ 19 6).trans ((bits_hi _ _ 14 6).trans ((bits_hi _ _ 6 6).trans ((bits_hi _ _ 3 6).trans (by rfl)))))))
  have f0 : bits wd 23 3 = r := hw ▸ ((bits_hi _ _ 23 3).trans ((bits_hi _ _ 21 3).trans ((bits_hi _ _ 16 3).trans ((bits_hi _ _ 11 3).trans ((bits_hi _ _ 3 3).trans ((bits_lo _ _ 0 3).trans (bits_all _)))))))
  have f1 : bits wd 20 3 = w := hw ▸ ((bits_hi _ _ 20 3).trans ((bits_hi _ _ 18 3).trans ((bits_hi _ _ 13 3).trans ((bits_hi _ _ 8 3).trans ((bits_lo _ _ 0 3).trans (bits_all _))))))
  have f2 : bits wd 12 8 = t := hw ▸ ((bits_hi _ _ 12 8).trans ((bits_hi _ _ 10 8).trans ((bits_hi _ _ 5 8).trans ((bits_lo _ _ 0 8).trans (bits_all _)))))
  have f3 : bits wd 7 5 = s := hw ▸ ((bits_hi _ _ 7 5).trans ((bits_hi _ _ 5 5).trans ((bits_lo _ _ 0 5).trans (bits_all _))))
  have f4 : bits wd 2 5 = y := hw ▸ ((bits_hi _ _ 2 5).trans ((bits_lo _ _ 0 5).trans (bits_all _)))
  have m0 : wd &&& 0xfc000003#32 = 0xec000000#32 := by rw [← hw, and_app, and_app, and_app, and_app, and_app, and_app]; simp
  clear hw
  rw [decodeWord, h1]; change decodeMajor3b _ _ = _; rw [decodeMajor3b]; change (if _ then _ else _) = _
  rw [if_pos m0, f0, f1, f2, f3, f4]

theorem F.mcnt (v p : BitVec 6) : F.Statement (.mcnt v p) := by
  intro _ _
  change decodeWord (0x1e00#13 ++ v ++ 0x0#1 ++ p ++ 0x0#6) _ = _
  generalize hw : (0x1e00#13 ++ v ++ 0x0#1 ++ p ++ 0x0#6   : Word) = wd
  have h1 : bits wd 26 6 = 60#6 := hw ▸ ((bits_hi _ _ 26 6).trans ((bits_hi _ _ 20 6).trans ((bits_hi _ _ 14 6).trans ((bits_hi _ _ 13 6).trans (by rfl)))))
  have h2 : bits wd 20 6 = 0#6 := hw ▸ ((bits_hi _ _ 20 6).trans ((bits_hi _ _ 14 6).trans ((bits_hi _ _ 8 6).trans ((bits_hi _ _ 7 6).trans (by rfl)))))
  have f0 : bits wd 13 6 = v := hw ▸ ((bits_hi _ _ 13 6).trans ((bits_hi _ _ 7 6).trans ((bits_hi _ _ 1 6).trans ((bits_lo _ _ 0 6).trans (bits_all _)))))
  have f1 : bits wd 6 6 = p := hw ▸ ((bits_hi _ _ 6 6).trans ((bits_lo _ _ 0 6).trans (bits_all _)))
  have m0 : wd &&& 0xfff8103f#32 = 0xf0000000#32 := by rw [← hw, and_app, and_app, and_app, and_app]; simp
  clear hw
  rw [decodeWord, h1]; change decodeMajor3c _ _ = _; rw [decodeMajor3c, h2]; change (if _ then _ else _) = _
  rw [if_pos m0, f0, f1]

theorem F.mvtx (i : BitVec 7) (a : BitVec 5) (n : BitVec 4) : F.Statement (.mvtx i a n) := by
  intro _ _
  change decodeWord (0xf01#12 ++ i ++ a ++ 0x0#2 ++ n ++ 0x0#2) _ = _
  generalize hw : (0xf01#12 ++ i ++ a ++ 0x0#2 ++ n ++ 0x0#2   : Word) = wd
  have h1 : bits wd 26 6 = 60#6 := hw ▸ ((bits_hi _ _ 26 6).trans ((bits_hi _ _ 24 6).trans ((bits_hi _ _ 20 6).trans ((bits_hi _ _ 18 6).trans ((bits_hi _ _ 13 6).trans (by rfl))))))
  have h2 : bits wd 20 6 = 1#6 := hw ▸ ((bits_hi _ _ 20 6).trans ((bits_hi _ _ 18 6).trans ((bits_hi _ _ 14 6).trans ((bits_hi _ _ 12 6).trans ((bits_hi _ _ 7 6).trans (by rfl))))))
  have f0 : bits wd 13 7 = i := hw ▸ ((bits_hi _ _ 13 7).trans ((bits_hi _ _ 11 7).trans ((bits_hi _ _ 7 7).trans ((bits_hi _ _ 5 7).trans ((bits_lo _ _ 0 7).trans (bits_all _))))))
  have f1 : bits wd 8 5 = a := hw ▸ ((bits_hi _ _ 8 5).trans ((bits_hi _ _ 6 5).trans ((bits_hi _ _ 2 5).trans ((bits_lo _ _ 0 5).trans (bits_all _)))))
  have f2 : bits wd 2 4 = n := hw ▸ ((bits_hi _ _ 2 4).trans ((bits_lo _ _ 0 4).trans (bits_all _)))
  have m0 : wd &&& 0xfff000c3#32 = 0xf0100000#32 := by rw [← hw, and_app, and_app, and_app, and_app, and_app]; simp
  clear hw
  rw [decodeWord, h1]; change decodeMajor3c _ _ = _; rw [decodeMajor3c, h2]; change (if _ then _ else _) = _
  rw [if_pos m0, f0, f1, f2]

theorem F.mprim (i x : BitVec 7) : F.Statement (.mprim i x) := by
  intro _ _
  change decodeWord (0xf02#12 ++ i ++ x ++ 0x0#6) _ = _
  generalize hw : (0xf02#12 ++ i ++ x ++ 0x0#6   : Word) = wd
  have h1 : bits wd 26 6 = 60#6 := hw ▸ ((bits_hi _ _ 26 6).trans ((bits_hi _ _ 20 6).trans ((bits_hi _ _ 13 6).trans (by rfl))))
  have h2 : bits wd 20 6 = 2#6 := hw ▸ ((bits_hi _ _ 20 6).trans ((bits_hi _ _ 14 6).trans ((bits_hi _ _ 7 6).trans (by rfl))))
  have f0 : bits wd 13 7 = i := hw ▸ ((bits_hi _ _ 13 7).trans ((bits_hi _ _ 7 7).trans ((bits_lo _ _ 0 7).trans (bits_all _))))
  have f1 : bits wd 6 7 = x := hw ▸ ((bits_hi _ _ 6 7).trans ((bits_lo _ _ 0 7).trans (bits_all _)))
  have m0 : wd &&& 0xfff0003f#32 = 0xf0200000#32 := by rw [← hw, and_app, and_app, and_app]; simp
  clear hw
  rw [decodeWord, h1]; change decodeMajor3c _ _ = _; rw [decodeMajor3c, h2]; change (if _ then _ else _) = _
  rw [if_pos m0, f0, f1]

theorem F.vintp (d : BitVec 7) (b n : BitVec 6) : F.Statement (.vintp d b n) := by
  intro _ _
  change decodeWord (0xf03#12 ++ d ++ b ++ 0x0#1 ++ n) _ = _
  generalize hw : (0xf03#12 ++ d ++ b ++ 0x0#1 ++ n   : Word) = wd
  have h1 : bits wd 26 6 = 60#6 := hw ▸ ((bits_hi _ _ 26 6).trans ((bits_hi _ _ 20 6).trans ((bits_hi _ _ 19 6).trans ((bits_hi _ _ 13 6).trans (by rfl)))))
  have h2 : bits wd 20 6 = 3#6 := hw ▸ ((bits_hi _ _ 20 6).trans ((bits_hi _ _ 14 6).trans ((bits_hi _ _ 13 6).trans ((bits_hi _ _ 7 6).trans (by rfl)))))
  have f0 : bits wd 13 7 = d := hw ▸ ((bits_hi _ _ 13 7).trans ((bits_hi _ _ 7 7).trans ((bits_hi _ _ 6 7).trans ((bits_lo _ _ 0 7).trans (bits_all _)))))
  have f1 : bits wd 7 6 = b := hw ▸ ((bits_hi _ _ 7 6).trans ((bits_hi _ _ 1 6).trans ((bits_lo _ _ 0 6).trans (bits_all _))))
  have f2 : bits wd 0 6 = n := hw ▸ ((bits_lo _ _ 0 6).trans (bits_all _))
  have m0 : wd &&& 0xfff00040#32 = 0xf0300000#32 := by rw [← hw, and_app, and_app, and_app, and_app]; simp
  clear hw
  rw [decodeWord, h1]; change decodeMajor3c _ _ = _; rw [decodeMajor3c, h2]; change (if _ then _ else _) = _
  rw [if_pos m0, f0, f1, f2]

theorem F.pxw (c : BitVec 5) (t : BitVec 3) : F.Statement (.pxw c t) := by
  intro _ _
  change decodeWord (0xf04#12 ++ c ++ 0x0#12 ++ t) _ = _
  generalize hw : (0xf04#12 ++ c ++ 0x0#12 ++ t   : Word) = wd
  have h1 : bits wd 26 6 = 60#6 := hw ▸ ((bits_hi _ _ 26 6).trans ((bits_hi _ _ 23 6).trans ((bits_hi _ _ 11 6).trans (by rfl))))
  have h2 : bits wd 20 6 = 4#6 := hw ▸ ((bits_hi _ _ 20 6).trans ((bits_hi _ _ 17 6).trans ((bits_hi _ _ 5 6).trans (by rfl))))
  have f0 : bits wd 15 5 = c := hw ▸ ((bits_hi _ _ 15 5).trans ((bits_hi _ _ 12 5).trans ((bits_lo _ _ 0 5).trans (bits_all _))))
  have f1 : bits wd 0 3 = t := hw ▸ ((bits_lo _ _ 0 3).trans (bits_all _))
  have m0 : wd &&& 0xfff07ff8#32 = 0xf0400000#32 := by rw [← hw, and_app, and_app, and_app]; simp
  clear hw
  rw [decodeWord, h1]; change decodeMajor3c _ _ = _; rw [decodeMajor3c, h2]; change (if _ then _ else _) = _
  rw [if_pos m0, f0, f1]

theorem F.pxk (k : BitVec 4) : F.Statement (.pxk k) := by
  intro _ _
  change decodeWord (0x7828#15 ++ k ++ 0x0#13) _ = _
  generalize hw : (0x7828#15 ++ k ++ 0x0#13   : Word) = wd
  have h1 : bits wd 26 6 = 60#6 := hw ▸ ((bits_hi _ _ 26 6).trans ((bits_hi _ _ 13 6).trans (by rfl)))
  have h2 : bits wd 20 6 = 5#6 := hw ▸ ((bits_hi _ _ 20 6).trans ((bits_hi _ _ 7 6).trans (by rfl)))
  have f0 : bits wd 13 4 = k := hw ▸ ((bits_hi _ _ 13 4).trans ((bits_lo _ _ 0 4).trans (bits_all _)))
  have m0 : wd &&& 0xfffe1fff#32 = 0xf0500000#32 := by rw [← hw, and_app, and_app]; simp
  clear hw
  rw [decodeWord, h1]; change decodeMajor3c _ _ = _; rw [decodeMajor3c, h2]; change (if _ then _ else _) = _
  rw [if_pos m0, f0]

theorem F.glzin (n : BitVec 5) (s : BitVec 2) : F.Statement (.glzin n s) := by
  intro _ _
  change decodeWord (0xf06#12 ++ n ++ 0x0#13 ++ s) _ = _
  generalize hw : (0xf06#12 ++ n ++ 0x0#13 ++ s   : Word) = wd
  have h1 : bits wd 26 6 = 60#6 := hw ▸ ((bits_hi _ _ 26 6).trans ((bits_hi _ _ 24 6).trans ((bits_hi _ _ 11 6).trans (by rfl))))
  have h2 : bits wd 20 6 = 6#6 := hw ▸ ((bits_hi _ _ 20 6).trans ((bits_hi _ _ 18 6).trans ((bits_hi _ _ 5 6).trans (by rfl))))
  have f0 : bits wd 15 5 = n := hw ▸ ((bits_hi _ _ 15 5).trans ((bits_hi _ _ 13 5).trans ((bits_lo _ _ 0 5).trans (bits_all _))))
  have f1 : bits wd 0 2 = s := hw ▸ ((bits_lo _ _ 0 2).trans (bits_all _))
  have m0 : wd &&& 0xfff07ffc#32 = 0xf0600000#32 := by rw [← hw, and_app, and_app, and_app]; simp
  clear hw
  rw [decodeWord, h1]; change decodeMajor3c _ _ = _; rw [decodeMajor3c, h2]; change (if _ then _ else _) = _
  rw [if_pos m0, f0, f1]

theorem F.glzrd (d : BitVec 5) (i : BitVec 7) (l : BitVec 4) (s : BitVec 2) : F.Statement (.glzrd d i l s) := by
  intro _ _
  change decodeWord (0xf07#12 ++ d ++ 0x0#2 ++ i ++ l ++ s) _ = _
  generalize hw : (0xf07#12 ++ d ++ 0x0#2 ++ i ++ l ++ s   : Word) = wd
  have h1 : bits wd 26 6 = 60#6 := hw ▸ ((bits_hi _ _ 26 6).trans ((bits_hi _ _ 24 6).trans ((bits_hi _ _ 20 6).trans ((bits_hi _ _ 13 6).trans ((bits_hi _ _ 11 6).trans (by rfl))))))
  have h2 : bits wd 20 6 = 7#6 := hw ▸ ((bits_hi _ _ 20 6).trans ((bits_hi _ _ 18 6).trans ((bits_hi _ _ 14 6).trans ((bits_hi _ _ 7 6).trans ((bits_hi _ _ 5 6).trans (by rfl))))))
  have f0 : bits wd 15 5 = d := hw ▸ ((bits_hi _ _ 15 5).trans ((bits_hi _ _ 13 5).trans ((bits_hi _ _ 9 5).trans ((bits_hi _ _ 2 5).trans ((bits_lo _ _ 0 5).trans (bits_all _))))))
  have f1 : bits wd 6 7 = i := hw ▸ ((bits_hi _ _ 6 7).trans ((bits_hi _ _ 4 7).trans ((bits_lo _ _ 0 7).trans (bits_all _))))
  have f2 : bits wd 2 4 = l := hw ▸ ((bits_hi _ _ 2 4).trans ((bits_lo _ _ 0 4).trans (bits_all _)))
  have f3 : bits wd 0 2 = s := hw ▸ ((bits_lo _ _ 0 2).trans (bits_all _))
  have m0 : wd &&& 0xfff06000#32 = 0xf0700000#32 := by rw [← hw, and_app, and_app, and_app, and_app, and_app]; simp
  clear hw
  rw [decodeWord, h1]; change decodeMajor3c _ _ = _; rw [decodeMajor3c, h2]; change (if _ then _ else _) = _
  rw [if_pos m0, f0, f1, f2, f3]

theorem F.glzres (c b : BitVec 6) (l : BitVec 4) (s : BitVec 2) : F.Statement (.glzres c b l s) := by
  intro _ _
  change decodeWord (0xf08#12 ++ c ++ 0x0#1 ++ b ++ 0x0#1 ++ l ++ s) _ = _
  generalize hw : (0xf08#12 ++ c ++ 0x0#1 ++ b ++ 0x0#1 ++ l ++ s   : Word) = wd
  have h1 : bits wd 26 6 = 60#6 := hw ▸ ((bits_hi _ _ 26 6).trans ((bits_hi _ _ 24 6).trans ((bits_hi _ _ 20 6).trans ((bits_hi _ _ 19 6).trans ((bits_hi _ _ 13 6).trans ((bits_hi _ _ 12 6).trans (by rfl)))))))
  have h2 : bits wd 20 6 = 8#6 := hw ▸ ((bits_hi _ _ 20 6).trans ((bits_hi _ _ 18 6).trans ((bits_hi _ _ 14 6).trans ((bits_hi _ _ 13 6).trans ((bits_hi _ _ 7 6).trans ((bits_hi _ _ 6 6).trans (by rfl)))))))
  have f0 : bits wd 14 6 = c := hw ▸ ((bits_hi _ _ 14 6).trans ((bits_hi _ _ 12 6).trans ((bits_hi _ _ 8 6).trans ((bits_hi _ _ 7 6).trans ((bits_hi _ _ 1 6).trans ((bits_lo _ _ 0 6).trans (bits_all _)))))))
  have f1 : bits wd 7 6 = b := hw ▸ ((bits_hi _ _ 7 6).trans ((bits_hi _ _ 5 6).trans ((bits_hi _ _ 1 6).trans ((bits_lo _ _ 0 6).trans (bits_all _)))))
  have f2 : bits wd 2 4 = l := hw ▸ ((bits_hi _ _ 2 4).trans ((bits_lo _ _ 0 4).trans (bits_all _)))
  have f3 : bits wd 0 2 = s := hw ▸ ((bits_lo _ _ 0 2).trans (bits_all _))
  have m0 : wd &&& 0xfff02040#32 = 0xf0800000#32 := by rw [← hw, and_app, and_app, and_app, and_app, and_app, and_app]; simp
  clear hw
  rw [decodeWord, h1]; change decodeMajor3c _ _ = _; rw [decodeMajor3c, h2]; change (if _ then _ else _) = _
  rw [if_pos m0, f0, f1, f2, f3]

theorem F.glzclr (r : BitVec 5) (s : BitVec 2) : F.Statement (.glzclr r s) := by
  intro _ _
  change decodeWord (0xf0900#20 ++ r ++ 0x0#5 ++ s) _ = _
  generalize hw : (0xf0900#20 ++ r ++ 0x0#5 ++ s   : Word) = wd
  have h1 : bits wd 26 6 = 60#6 := hw ▸ ((bits_hi _ _ 26 6).trans ((bits_hi _ _ 24 6).trans ((bits_hi _ _ 19 6).trans (by rfl))))
  have h2 : bits wd 20 6 = 9#6 := hw ▸ ((bits_hi _ _ 20 6).trans ((bits_hi _ _ 18 6).trans ((bits_hi _ _ 13 6).trans (by rfl))))
  have f0 : bits wd 7 5 = r := hw ▸ ((bits_hi _ _ 7 5).trans ((bits_hi _ _ 5 5).trans ((bits_lo _ _ 0 5).trans (bits_all _))))
  have f1 : bits wd 0 2 = s := hw ▸ ((bits_lo _ _ 0 2).trans (bits_all _))
  have m0 : wd &&& 0xfffff07c#32 = 0xf0900000#32 := by rw [← hw, and_app, and_app, and_app]; simp
  clear hw
  rw [decodeWord, h1]; change decodeMajor3c _ _ = _; rw [decodeMajor3c, h2]; change (if _ then _ else _) = _
  rw [if_pos m0, f0, f1]

theorem F.rbox (r : BitVec 3) (n : BitVec 6) (l : BitVec 4) : F.Statement (.rbox r n l) := by
  intro _ _
  change decodeWord (0xf0a#12 ++ r ++ 0x0#4 ++ n ++ 0x0#1 ++ l ++ 0x0#2) _ = _
  generalize hw : (0xf0a#12 ++ r ++ 0x0#4 ++ n ++ 0x0#1 ++ l ++ 0x0#2   : Word) = wd
  have h1 : bits wd 26 6 = 60#6 := hw ▸ ((bits_hi _ _ 26 6).trans ((bits_hi _ _ 24 6).trans ((bits_hi _ _ 20 6).trans ((bits_hi _ _ 19 6).trans ((bits_hi _ _ 13 6).trans ((bits_hi _ _ 9 6).trans (by rfl)))))))
  have h2 : bits wd 20 6 = 10#6 := hw ▸ ((bits_hi _ _ 20 6).trans ((bits_hi _ _ 18 6).trans ((bits_hi _ _ 14 6).trans ((bits_hi _ _ 13 6).trans ((bits_hi _ _ 7 6).trans ((bits_hi _ _ 3 6).trans (by rfl)))))))
  have f0 : bits wd 17 3 = r := hw ▸ ((bits_hi _ _ 17 3).trans ((bits_hi _ _ 15 3).trans ((bits_hi _ _ 11 3).trans ((bits_hi _ _ 10 3).trans ((bits_hi _ _ 4 3).trans ((bits_lo _ _ 0 3).trans (bits_all _)))))))
  have f1 : bits wd 7 6 = n := hw ▸ ((bits_hi _ _ 7 6).trans ((bits_hi _ _ 5 6).trans ((bits_hi _ _ 1 6).trans ((bits_lo _ _ 0 6).trans (bits_all _)))))
  have f2 : bits wd 2 4 = l := hw ▸ ((bits_hi _ _ 2 4).trans ((bits_lo _ _ 0 4).trans (bits_all _)))
  have m0 : wd &&& 0xfff1e043#32 = 0xf0a00000#32 := by rw [← hw, and_app, and_app, and_app, and_app, and_app, and_app]; simp
  clear hw
  rw [decodeWord, h1]; change decodeMajor3c _ _ = _; rw [decodeMajor3c, h2]; change (if _ then _ else _) = _
  rw [if_pos m0, f0, f1, f2]

theorem F.rtri (r : BitVec 3) (n : BitVec 6) (l : BitVec 4) : F.Statement (.rtri r n l) := by
  intro _ _
  change decodeWord (0xf0b#12 ++ r ++ 0x0#4 ++ n ++ 0x0#1 ++ l ++ 0x0#2) _ = _
  generalize hw : (0xf0b#12 ++ r ++ 0x0#4 ++ n ++ 0x0#1 ++ l ++ 0x0#2   : Word) = wd
  have h1 : bits wd 26 6 = 60#6 := hw ▸ ((bits_hi _ _ 26 6).trans ((bits_hi _ _ 24 6).trans ((bits_hi _ _ 20 6).trans ((bits_hi _ _ 19 6).trans ((bits_hi _ _ 13 6).trans ((bits_hi _ _ 9 6).trans (by rfl)))))))
  have h2 : bits wd 20 6 = 11#6 := hw ▸ ((bits_hi _ _ 20 6).trans ((bits_hi _ _ 18 6).trans ((bits_hi _ _ 14 6).trans ((bits_hi _ _ 13 6).trans ((bits_hi _ _ 7 6).trans ((bits_hi _ _ 3 6).trans (by rfl)))))))
  have f0 : bits wd 17 3 = r := hw ▸ ((bits_hi _ _ 17 3).trans ((bits_hi _ _ 15 3).trans ((bits_hi _ _ 11 3).trans ((bits_hi _ _ 10 3).trans ((bits_hi _ _ 4 3).trans ((bits_lo _ _ 0 3).trans (bits_all _)))))))
  have f1 : bits wd 7 6 = n := hw ▸ ((bits_hi _ _ 7 6).trans ((bits_hi _ _ 5 6).trans ((bits_hi _ _ 1 6).trans ((bits_lo _ _ 0 6).trans (bits_all _)))))
  have f2 : bits wd 2 4 = l := hw ▸ ((bits_hi _ _ 2 4).trans ((bits_lo _ _ 0 4).trans (bits_all _)))
  have m0 : wd &&& 0xfff1e043#32 = 0xf0b00000#32 := by rw [← hw, and_app, and_app, and_app, and_app, and_app, and_app]; simp
  clear hw
  rw [decodeWord, h1]; change decodeMajor3c _ _ = _; rw [decodeMajor3c, h2]; change (if _ then _ else _) = _
  rw [if_pos m0, f0, f1, f2]

theorem F.wapp (i x : BitVec 7) : F.Statement (.wapp i x) := by
  intro _ _
  change decodeWord (0xf0c#12 ++ i ++ x ++ 0x0#6) _ = _
  generalize hw : (0xf0c#12 ++ i ++ x ++ 0x0#6   : Word) = wd
  have h1 : bits wd 26 6 = 60#6 := hw ▸ ((bits_hi _ _ 26 6).trans ((bits_hi _ _ 20 6).trans ((bits_hi _ _ 13 6).trans (by rfl))))
  have h2 : bits wd 20 6 = 12#6 := hw ▸ ((bits_hi _ _ 20 6).trans ((bits_hi _ _ 14 6).trans ((bits_hi _ _ 7 6).trans (by rfl))))
  have f0 : bits wd 13 7 = i := hw ▸ ((bits_hi _ _ 13 7).trans ((bits_hi _ _ 7 7).trans ((bits_lo _ _ 0 7).trans (bits_all _))))
  have f1 : bits wd 6 7 = x := hw ▸ ((bits_hi _ _ 6 7).trans ((bits_lo _ _ 0 7).trans (bits_all _)))
  have m0 : wd &&& 0xfff0003f#32 = 0xf0c00000#32 := by rw [← hw, and_app, and_app, and_app]; simp
  clear hw
  rw [decodeWord, h1]; change decodeMajor3c _ _ = _; rw [decodeMajor3c, h2]; change (if _ then _ else _) = _
  rw [if_pos m0, f0, f1]

theorem F.wtake (d : BitVec 7) (x : BitVec 6) (l : BitVec 4) : F.Statement (.wtake d x l) := by
  intro _ _
  change decodeWord (0xf0d#12 ++ d ++ 0x0#1 ++ x ++ l ++ 0x0#2) _ = _
  generalize hw : (0xf0d#12 ++ d ++ 0x0#1 ++ x ++ l ++ 0x0#2   : Word) = wd
  have h1 : bits wd 26 6 = 60#6 := hw ▸ ((bits_hi _ _ 26 6).trans ((bits_hi _ _ 24 6).trans ((bits_hi _ _ 20 6).trans ((bits_hi _ _ 14 6).trans ((bits_hi _ _ 13 6).trans (by rfl))))))
  have h2 : bits wd 20 6 = 13#6 := hw ▸ ((bits_hi _ _ 20 6).trans ((bits_hi _ _ 18 6).trans ((bits_hi _ _ 14 6).trans ((bits_hi _ _ 8 6).trans ((bits_hi _ _ 7 6).trans (by rfl))))))
  have f0 : bits wd 13 7 = d := hw ▸ ((bits_hi _ _ 13 7).trans ((bits_hi _ _ 11 7).trans ((bits_hi _ _ 7 7).trans ((bits_hi _ _ 1 7).trans ((bits_lo _ _ 0 7).trans (bits_all _))))))
  have f1 : bits wd 6 6 = x := hw ▸ ((bits_hi _ _ 6 6).trans ((bits_hi _ _ 4 6).trans ((bits_lo _ _ 0 6).trans (bits_all _))))
  have f2 : bits wd 2 4 = l := hw ▸ ((bits_hi _ _ 2 4).trans ((bits_lo _ _ 0 4).trans (bits_all _)))
  have m0 : wd &&& 0xfff01003#32 = 0xf0d00000#32 := by rw [← hw, and_app, and_app, and_app, and_app, and_app]; simp
  clear hw
  rw [decodeWord, h1]; change decodeMajor3c _ _ = _; rw [decodeMajor3c, h2]; change (if _ then _ else _) = _
  rw [if_pos m0, f0, f1, f2]

theorem F.wqui (d : BitVec 6) : F.Statement (.wqui d) := by
  intro _ _
  change decodeWord (0x1e1c#13 ++ d ++ 0x0#13) _ = _
  generalize hw : (0x1e1c#13 ++ d ++ 0x0#13   : Word) = wd
  have h1 : bits wd 26 6 = 60#6 := hw ▸ ((bits_hi _ _ 26 6).trans ((bits_hi _ _ 13 6).trans (by rfl)))
  have h2 : bits wd 20 6 = 14#6 := hw ▸ ((bits_hi _ _ 20 6).trans ((bits_hi _ _ 7 6).trans (by rfl)))
  have f0 : bits wd 13 6 = d := hw ▸ ((bits_hi _ _ 13 6).trans ((bits_lo _ _ 0 6).trans (bits_all _)))
  have m0 : wd &&& 0xfff81fff#32 = 0xf0e00000#32 := by rw [← hw, and_app, and_app]; simp
  clear hw
  rw [decodeWord, h1]; change decodeMajor3c _ _ = _; rw [decodeMajor3c, h2]; change (if _ then _ else _) = _
  rw [if_pos m0, f0]

theorem F.missSplit (wid ent : Nat) : F.Statement (.missSplit wid ent) := fun h => nomatch h

theorem F.joinLapse (wid ent : Nat) : F.Statement (.joinLapse wid ent) := fun h => nomatch h

theorem F.fuseTimeout (wid ent : Nat) : F.Statement (.fuseTimeout wid ent) := fun h => nomatch h

theorem F.forcedFuseTimeout (wid ent : Nat) : F.Statement (.forcedFuseTimeout wid ent) := fun h => nomatch h

theorem F.longLatencyComplete (wid pid : Nat) : F.Statement (.longLatencyComplete wid pid) := fun h => nomatch h

theorem F.memoryAccessPerform (id piece : Nat) : F.Statement (.memoryAccessPerform id piece) := fun h => nomatch h

theorem F.lineMigration (line : Nat) : F.Statement (.lineMigration line) := fun h => nomatch h

theorem F.monwWake (wid ent : Nat) : F.Statement (.monwWake wid ent) := fun h => nomatch h

theorem F.monwTimeout (wid ent : Nat) : F.Statement (.monwTimeout wid ent) := fun h => nomatch h

theorem F.fallbackWindowEnd (wid slot : Nat) : F.Statement (.fallbackWindowEnd wid slot) := fun h => nomatch h

theorem F.sleepExpire (wid ent : Nat) : F.Statement (.sleepExpire wid ent) := fun h => nomatch h

theorem F.yieldExpire (who : Issuer) : F.Statement (.yieldExpire who) := fun h => nomatch h

theorem F.fenceWaitEnd (who : Issuer) : F.Statement (.fenceWaitEnd who) := fun h => nomatch h

theorem F.queueRoomWaitEnd (who : Issuer) : F.Statement (.queueRoomWaitEnd who) := fun h => nomatch h

theorem F.codeLoadComplete (core slot : Nat) : F.Statement (.codeLoadComplete core slot) := fun h => nomatch h

theorem F.cwaitWaitEnd (who : Issuer) : F.Statement (.cwaitWaitEnd who) := fun h => nomatch h

theorem F.copyChunkLand (core cid : Nat) : F.Statement (.copyChunkLand core cid) := fun h => nomatch h

theorem F.primeTakesEffect (core : Nat) : F.Statement (.primeTakesEffect core) := fun h => nomatch h

theorem F.mmaTakesEffect (core : Nat) : F.Statement (.mmaTakesEffect core) := fun h => nomatch h

theorem F.bwaitWaitEnd (who : Issuer) : F.Statement (.bwaitWaitEnd who) := fun h => nomatch h

theorem F.wappWaitEnd (who : Issuer) : F.Statement (.wappWaitEnd who) := fun h => nomatch h

theorem F.glzinTurnWaitEnd (who : Issuer) : F.Statement (.glzinTurnWaitEnd who) := fun h => nomatch h

theorem F.trapEntry (wid : Nat) : F.Statement (.trapEntry wid) := fun h => nomatch h

theorem F.doorbell (func q : Nat) (t : Word) : F.Statement (.doorbell func q t) := fun h => nomatch h

theorem F.managementLaunch (q : Nat) : F.Statement (.managementLaunch q) := fun h => nomatch h

theorem F.kernelLoad (func : Nat) (v : DWord) : F.Statement (.kernelLoad func v) := fun h => nomatch h

theorem F.kernelLoadDone (func : Nat) : F.Statement (.kernelLoadDone func) := fun h => nomatch h

theorem F.groupPlacement (lid : Nat) : F.Statement (.groupPlacement lid) := fun h => nomatch h

theorem F.cohortPlacement (lid : Nat) : F.Statement (.cohortPlacement lid) := fun h => nomatch h

theorem F.cohortWaitHold (lid : Nat) : F.Statement (.cohortWaitHold lid) := fun h => nomatch h

theorem F.groupRetire (gid : Nat) : F.Statement (.groupRetire gid) := fun h => nomatch h

theorem F.drawMeshPhase (lid : Nat) : F.Statement (.drawMeshPhase lid) := fun h => nomatch h

theorem F.drawAttributePass (lid : Nat) : F.Statement (.drawAttributePass lid) := fun h => nomatch h

theorem F.drawTileRaster (lid tile : Nat) : F.Statement (.drawTileRaster lid tile) := fun h => nomatch h

theorem F.preemptRequest (func : Nat) (v : DWord) : F.Statement (.preemptRequest func v) := fun h => nomatch h

theorem F.preemptSave (gid : Nat) : F.Statement (.preemptSave gid) := fun h => nomatch h

theorem F.preemptDrainTimeout (gid : Nat) : F.Statement (.preemptDrainTimeout gid) := fun h => nomatch h

theorem F.restore (gid : Nat) : F.Statement (.restore gid) := fun h => nomatch h

theorem F.pageWalkComplete (ctx va : Nat) : F.Statement (.pageWalkComplete ctx va) := fun h => nomatch h

theorem F.invalidate (func : Nat) (v : Word) : F.Statement (.invalidate func v) := fun h => nomatch h

theorem F.invalidateDone (func : Nat) : F.Statement (.invalidateDone func) := fun h => nomatch h

theorem F.resolve (func : Nat) (v : Word) : F.Statement (.resolve func v) := fun h => nomatch h

theorem F.fbheadWrite (func : Nat) (v : Word) : F.Statement (.fbheadWrite func v) := fun h => nomatch h

theorem F.hostWindowRead (func : Nat) (off : DWord) (n : Nat) : F.Statement (.hostWindowRead func off n) := fun h => nomatch h

theorem F.hostWindowWrite (func : Nat) (off : DWord) (data : List Byte) (ro : Bool) : F.Statement (.hostWindowWrite func off data ro) := fun h => nomatch h

theorem F.hostAtomic (func : Nat) (off : DWord) (op : AtomOp) (n : Nat) (x y : DWord) : F.Statement (.hostAtomic func off op n x y) := fun h => nomatch h

theorem F.functionLevelReset (func : Nat) : F.Statement (.functionLevelReset func) := fun h => nomatch h

theorem F.remoteRequest (req : Remote) : F.Statement (.remoteRequest req) := fun h => nomatch h

theorem F.fabricTimeout (node : Nat) : F.Statement (.fabricTimeout node) := fun h => nomatch h

theorem F.haltNoticeReceive (node : Nat) (on : Bool) (v : DWord) : F.Statement (.haltNoticeReceive node on v) := fun h => nomatch h

theorem F.halt (core : Nat) : F.Statement (.halt core) := fun h => nomatch h

theorem F.haltComplete (core : Nat) : F.Statement (.haltComplete core) := fun h => nomatch h

theorem F.resume (core : Nat) : F.Statement (.resume core) := fun h => nomatch h

theorem F.pcComparatorMatch (who : Issuer) (k : Nat) : F.Statement (.pcComparatorMatch who k) := fun h => nomatch h

theorem F.traceEnable (core : Nat) (v : DWord) : F.Statement (.traceEnable core v) := fun h => nomatch h

theorem F.traceSample (core : Nat) : F.Statement (.traceSample core) := fun h => nomatch h

theorem F.causalTrialStart (core : Nat) (v : DWord) : F.Statement (.causalTrialStart core v) := fun h => nomatch h

theorem F.bootRomStageDone (ok : Bool) : F.Statement (.bootRomStageDone ok) := fun h => nomatch h

theorem F.selfTest (found : List Defect) : F.Statement (.selfTest found) := fun h => nomatch h

theorem F.firmwareStart (ok : Bool) : F.Statement (.firmwareStart ok) := fun h => nomatch h

theorem F.sramScrub (obs : Scrub) : F.Statement (.sramScrub obs) := fun h => nomatch h

theorem F.gddrScrub (line : Nat) (obs : LineState) : F.Statement (.gddrScrub line obs) := fun h => nomatch h

theorem F.coreRetirement (core : Nat) : F.Statement (.coreRetirement core) := fun h => nomatch h

theorem F.sliceRetirement (slice : Nat) : F.Statement (.sliceRetirement slice) := fun h => nomatch h

theorem F.spanLaneSpare (port : Nat) (flit : LaneFlit) : F.Statement (.spanLaneSpare port flit) := fun h => nomatch h

theorem F.laneRetrainComplete (port : Nat) : F.Statement (.laneRetrainComplete port) := fun h => nomatch h

theorem F.counterFreeze (func : Nat) : F.Statement (.counterFreeze func) := fun h => nomatch h

theorem F.freezeDone (func : Nat) : F.Statement (.freezeDone func) := fun h => nomatch h

theorem F.energyWindow (grains : Nat) : F.Statement (.energyWindow grains) := fun h => nomatch h

theorem F.registerWrite (bar func : Nat) (off v : DWord) : F.Statement (.registerWrite bar func off v) := fun h => nomatch h

theorem F.groupAbort (gid : Nat) : F.Statement (.groupAbort gid) := fun h => nomatch h

theorem F.pcieConfigRequest (req : ConfigReq) : F.Statement (.pcieConfigRequest req) := fun h => nomatch h

theorem F.spanPortDown (port : Nat) : F.Statement (.spanPortDown port) := fun h => nomatch h

theorem F.pageUnpin (page : Nat) : F.Statement (.pageUnpin page) := fun h => nomatch h

theorem F.nop : F.Statement (.nop) := by
  intro _ _
  change decodeWord (0x4000000#32) _ = _
  generalize hw : (0x4000000#32   : Word) = wd
  have h1 : bits wd 26 6 = 1#6 := by rw [← hw]; decide
  have h2 : bits wd 20 6 = 0#6 := by rw [← hw]; decide
  have m0 : wd &&& 0xffffffff#32 = 0x04000000#32 := by rw [← hw]; decide
  clear hw
  rw [decodeWord, h1]; change decodeMajor01 _ _ = _; rw [decodeMajor01, h2]; change (if _ then _ else _) = _
  rw [if_pos m0]

theorem F.exit : F.Statement (.exit) := by
  intro _ _
  change decodeWord (0x4100000#32) _ = _
  generalize hw : (0x4100000#32   : Word) = wd
  have h1 : bits wd 26 6 = 1#6 := by rw [← hw]; decide
  have h2 : bits wd 20 6 = 1#6 := by rw [← hw]; decide
  have m0 : wd &&& 0xffffffff#32 = 0x04100000#32 := by rw [← hw]; decide
  clear hw
  rw [decodeWord, h1]; change decodeMajor01 _ _ = _; rw [decodeMajor01, h2]; change (if _ then _ else _) = _
  rw [if_pos m0]

theorem F.join : F.Statement (.join) := by
  intro _ _
  change decodeWord (0x4300000#32) _ = _
  generalize hw : (0x4300000#32   : Word) = wd
  have h1 : bits wd 26 6 = 1#6 := by rw [← hw]; decide
  have h2 : bits wd 20 6 = 3#6 := by rw [← hw]; decide
  have m0 : wd &&& 0xffffffff#32 = 0x04300000#32 := by rw [← hw]; decide
  clear hw
  rw [decodeWord, h1]; change decodeMajor01 _ _ = _; rw [decodeMajor01, h2]; change (if _ then _ else _) = _
  rw [if_pos m0]

theorem F.fuse : F.Statement (.fuse) := by
  intro _ _
  change decodeWord (0x4400000#32) _ = _
  generalize hw : (0x4400000#32   : Word) = wd
  have h1 : bits wd 26 6 = 1#6 := by rw [← hw]; decide
  have h2 : bits wd 20 6 = 4#6 := by rw [← hw]; decide
  have m0 : wd &&& 0xffffffff#32 = 0x04400000#32 := by rw [← hw]; decide
  clear hw
  rw [decodeWord, h1]; change decodeMajor01 _ _ = _; rw [decodeMajor01, h2]; change (if _ then _ else _) = _
  rw [if_pos m0]

theorem F.rte : F.Statement (.rte) := by
  intro _ _
  change decodeWord (0x4600000#32) _ = _
  generalize hw : (0x4600000#32   : Word) = wd
  have h1 : bits wd 26 6 = 1#6 := by rw [← hw]; decide
  have h2 : bits wd 20 6 = 6#6 := by rw [← hw]; decide
  have m0 : wd &&& 0xffffffff#32 = 0x04600000#32 := by rw [← hw]; decide
  clear hw
  rw [decodeWord, h1]; change decodeMajor01 _ _ = _; rw [decodeMajor01, h2]; change (if _ then _ else _) = _
  rw [if_pos m0]

theorem F.hintUniform : F.Statement (.hintUniform) := by
  intro _ _
  change decodeWord (0x12100000#32) _ = _
  generalize hw : (0x12100000#32   : Word) = wd
  have h1 : bits wd 26 6 = 4#6 := by rw [← hw]; decide
  have h2 : bits wd 24 2 = 2#2 := by rw [← hw]; decide
  have m0 : wd &&& 0xffffffff#32 = 0x12100000#32 := by rw [← hw]; decide
  have n0 : ¬ wd &&& 0xffffff00#32 = 0x12000000#32 := by rw [← hw]; decide
  clear hw
  rw [decodeWord, h1]; change decodeMajor04 _ _ = _; rw [decodeMajor04, h2]; change (if _ then _ else _) = _
  rw [if_neg n0, if_pos m0]

theorem F.arbiterDecision : F.Statement (.arbiterDecision) := fun h => nomatch h

theorem F.traceStagingDrain : F.Statement (.traceStagingDrain) := fun h => nomatch h

theorem F.causalDelay : F.Statement (.causalDelay) := fun h => nomatch h

theorem F.causalTrialEnd : F.Statement (.causalTrialEnd) := fun h => nomatch h

theorem F.powerOnReset : F.Statement (.powerOnReset) := fun h => nomatch h

theorem F.firmwareVerify : F.Statement (.firmwareVerify) := fun h => nomatch h

theorem F.getReport : F.Statement (.getReport) := fun h => nomatch h

theorem F.getPubkey : F.Statement (.getPubkey) := fun h => nomatch h

theorem F.getSelftest : F.Statement (.getSelftest) := fun h => nomatch h

theorem F.retryBoot : F.Statement (.retryBoot) := fun h => nomatch h

theorem F.gddrRebuildComplete : F.Statement (.gddrRebuildComplete) := fun h => nomatch h

theorem F.counterFlush : F.Statement (.counterFlush) := fun h => nomatch h

theorem F.reservedEncoding : F.Statement (.reservedEncoding) := fun h => nomatch h

end Sys2Proof.Laws
end

