-- ==== Sys2Proof/Tests/Setup.lean ====
section
/-!
SUPPORT. Small states for the tests and witnesses: one wave of one group at word 0 of core 0, with registers, code and pages set as a test
needs them, and what it takes to show that an instruction issues there.
-/
namespace Sys2Proof.Tests
open Machine
set_option Elab.async false

/-- A wave of `width` lanes, READY at word 0. -/
def wave (width : Nat) : Wave :=
  { placedWave with
    width, launched := BitVec.ofNat 64 (2 ^ width - 1), banks := List.replicate (width / 4) {},
    split := { kind := 1, qmask := BitVec.ofNat 16 (2 ^ (width / 4) - 1), lmask := BitVec.ofNat 64 (2 ^ width - 1) } :: List.replicate 15 {} }

/-- That wave in a group of a kind, about to issue. -/
def stand (k : GroupKind) (v : Wave) : State :=
  { State.reset.placeWord 32 0 with waves := [v], groups := [{ placedGroup with kind := k }], cur := some ⟨1, some 0⟩ }
/-- A compute, a mesh and a pixel wave of width 64, a narrow one, and a handler part. -/
def comp : State := stand .compute (wave 64)
def mesh : State := stand .mesh (wave 64)
def pixel : State := stand .pixel (wave 64)
def narrow : State := stand .compute (wave 4)
def handler : State := { stand .compute { (wave 64) with handler := { run := true } } with cur := some ⟨1, none⟩ }

/-- Changes to the waves, the group, core 0. -/
def upW (f : Wave → Wave) (s : State) : State := { s with waves := s.waves.map f }
def upG (f : Group → Group) (s : State) : State := { s with groups := s.groups.map f }
def upC (f : Core → Core) (s : State) : State := s.updCore 0 f
/-- Scalars in every bank and in the handler's, vector registers in every lane, masks. -/
def setS (xs : List (Nat × Word)) : State → State := upW fun w =>
  let put := fun (b : QBank) => { b with sreg := xs.foldl (fun m x => m.set x.1 x.2) b.sreg }
  { w with banks := w.banks.map put, handler := { w.handler with bank := put w.handler.bank } }
def setV (xs : List (Nat × Word)) : State → State := upW fun w =>
  { w with vreg := xs.foldl (fun m x => (List.range 64).foldl (fun m l => m.set (64 * x.1 + l) x.2) m) w.vreg }
def setM (xs : List (Nat × Lanes)) : State → State := upW fun w => { w with mask := xs.foldl (fun m x => m.set x.1 x.2) w.mask }
/-- Words at the start of slot 0; bytes of memory. -/
def code (ws : List Word) : State → State := upC fun c => { c with imem := c.imem.setList 0 ws }
def bytes (a : Nat) (bs : List Byte) (s : State) : State := { s with mem := s.mem.setList a bs }
def qword (a x : Nat) : State → State := bytes a (toBytes 8 x)

/-- Page tables of context 0 from 0x1000 on, which give the first GiB as itself, readable and writable (R432). -/
def paged (s : State) : State :=
  qword 0x5000 0x1001 (qword 0x1000 0x2001 (qword 0x2000 0x3001 (qword 0x3000 0x0f { s with astbase := 0x5000 })))

/-- The issuing part already waits at issue for `i`. -/
def waiting (i : Instr) (s : State) : State := upW (fun w => w.updAux 0 fun a => { a with blocked := some i }) s
/-- What a wait's end sees: the part, waiting for `i`. -/
def WaitsFor (i : Instr) (s : State) (P : Ctx → Prop) : Prop := ∃ c : Ctx, c.who = ⟨1, some 0⟩ ∧ s.ctx? c.who = some c ∧ (c.aux.blocked = some i ∧ P c)

/-- A wave with the given entries; a part with a PENDING record of its other lanes. -/
def withTable (es : List SplitEntry) : Wave := { wave 64 with split := es ++ List.replicate (16 - es.length) {} }
def narrowed : Wave := withTable
  [{ kind := 1, qmask := 0xffff, lmask := 0xff }, { kind := 3, pv := true, qmask := 0xffff, lmask := 0xffffffffffffff00, pc := 9, jpc := 0 }]
/-- Two parts below an OPEN record for the JOIN at word `j`; the first stands at word 0, the second in state `st` at word `pc`. -/
def parted (j : CodeAddr) (st : BitVec 3) (pc : CodeAddr) : Wave := withTable
  [{ kind := 2, qmask := 0xffff, lmask := 0xffffffffffffffff, jpc := j }, { kind := 1, pv := true, parent := 0, qmask := 0x00ff, lmask := 0xffffffff },
   { kind := 1, pv := true, parent := 0, qmask := 0xff00, lmask := 0xffffffff00000000, st, pc }]
def first (w : Wave) : State := { stand .compute w with cur := some ⟨1, some 1⟩ }

/-- A prefix with a predicate and `.z`. -/
def half : Pfx := { Pfx.zero with pm := 1, z := true }

/-- The part that issues in `s` issues `i`, and `p` holds of it. -/
def issuesWith (i : Instr) (s : State) (p : Ctx → Bool) : Bool :=
  match s.cur with
  | none => false
  | some who => match s.ctx? who with
    | none => false
    | some c => decide (c.who = who) && issueLegal i c && (!privileged i || c.hnd) &&
        (match wminI c.w.width i with | some n => decide (n ≤ c.pwidth) | none => true) && p c

/-- Each of the instructions issues in its state, where its condition holds. -/
def Meets (xs : List (Instr × State × (Ctx → Bool))) : Prop := ∀ x ∈ xs, ∃ c, Issues x.1 x.2.1 c ∧ x.2.2 c = true

theorem issuesWith_spec {i : Instr} {s : State} {p : Ctx → Bool} (h : issuesWith i s p = true) : ∃ c, Issues i s c ∧ p c = true := by
  unfold issuesWith at h
  split at h
  · cases h
  · rename_i who hw
    split at h
    · cases h
    · rename_i c hc
      simp only [Bool.and_eq_true, decide_eq_true_eq, Bool.or_eq_true, Bool.not_eq_true'] at h
      obtain ⟨⟨⟨⟨hwho, hl⟩, hp⟩, hm⟩, hx⟩ := h
      refine ⟨c, ⟨by rw [hwho]; exact hw, by rw [hwho]; exact hc, hl, fun e => ?_, fun n e => ?_⟩, hx⟩
      · rcases hp with hp | hp
        · rw [hp] at e; cases e
        · exact hp
      · rw [e] at hm; simpa using hm

theorem meets {xs : List (Instr × State × (Ctx → Bool))} (h : (xs.all fun x => issuesWith x.1 x.2.1 x.2.2) = true) : Meets xs :=
  fun x hx => issuesWith_spec (List.all_eq_true.mp h x hx)

/-- An answer that holds of some value. -/
def someWith {α : Type} (x : Option α) (p : α → Bool) : Bool := match x with | some a => p a | none => false
theorem some_of {α : Type} {x : Option α} {p : α → Bool} (h : someWith x p = true) : ∃ a, x = some a ∧ p a = true := by
  cases x with
  | none => cases h
  | some a => exact ⟨a, rfl, h⟩
def okWith {ε α : Type} (x : Except ε α) (p : α → Bool) : Bool := match x with | .ok a => p a | .error _ => false
theorem ok_of {ε α : Type} {x : Except ε α} {p : α → Bool} (h : okWith x p = true) : ∃ a, x = .ok a ∧ p a = true := by
  cases x with
  | error e => cases h
  | ok a => exact ⟨a, rfl, h⟩
def errWith {ε α : Type} (x : Except ε α) (p : ε → Bool) : Bool := match x with | .ok _ => false | .error e => p e
theorem err_of {ε α : Type} {x : Except ε α} {p : ε → Bool} (h : errWith x p = true) : ∃ e, x = .error e ∧ p e = true := by
  cases x with
  | error e => exact ⟨e, rfl, h⟩
  | ok a => cases h
def nextWith (x : Host.Outcome State Fault Refusal) (p : State → Bool) : Bool := match x with | .next t => p t | _ => false
theorem next_of {x : Host.Outcome State Fault Refusal} {p : State → Bool} (h : nextWith x p = true) : ∃ t, x = .next t ∧ p t = true := by
  cases x with
  | next t => exact ⟨t, rfl, h⟩
  | fault r => cases h
  | refused r => cases h

/-- The part that `who` names in `s`, and what holds of it. -/
def partWith (s : State) (who : Issuer) (p : Ctx → Bool) : Bool := someWith (s.ctx? who) fun c => decide (c.who = who) && p c
theorem part_of {s : State} {who : Issuer} {p : Ctx → Bool} (h : partWith s who p = true) :
    ∃ c, c.who = who ∧ s.ctx? who = some c ∧ p c = true := by
  obtain ⟨c, hc, hp⟩ := some_of h
  simp only [Bool.and_eq_true, decide_eq_true_eq] at hp
  exact ⟨c, hp.1, hc, hp.2⟩
/-- The same with a decidable condition in place of a test. -/
theorem some_of' {α : Type} {x : Option α} {P : α → Prop} [DecidablePred P] (h : someWith x (fun a => decide (P a)) = true) : ∃ a, x = some a ∧ P a := by
  obtain ⟨a, ha, hp⟩ := some_of h
  exact ⟨a, ha, of_decide_eq_true hp⟩
theorem part_of' {s : State} {who : Issuer} {P : Ctx → Prop} [DecidablePred P] (h : partWith s who (fun c => decide (P c)) = true) :
    ∃ c, c.who = who ∧ s.ctx? c.who = some c ∧ P c := by
  obtain ⟨c, hw, hc, hp⟩ := part_of h
  exact ⟨c, hw, by rw [hw]; exact hc, of_decide_eq_true hp⟩

end Sys2Proof.Tests
end

