-- ==== Sys2Proof/Tests/Witnesses.lean ====
section
/-!
SUPPORT. Witnesses: for each statement with hypotheses a state and operands that meet them together: the instructions of a part alone, traps, lanes, divergence, special registers.
-/
namespace Sys2Proof.Tests
open Machine
set_option Elab.async false
/-! ## Every encoded instruction issues somewhere -/

def compute0 : List Instr :=
  [.nop, .exit, .ret 4, .join, .fuse, .trap 4, .srd 4 8, .swr 4 8, .cfetch 1 8, .cwait 4, .rgnEnter 4, .rgnLeave 4, .prog 4, .bkpt 4,
   .sleep 4, .evsig 4 2, .fence 1 0, .bar 1, .barx 4 2, .bart 4 2, .cbar 1, .mon 1 0, .monw 4, .monwG 4, .monc 0, .cpya 1 2, .bra 4 none,
   .brc 1 8 12 none, .call 4 8 none, .jmpf 4 8, .brd 1 8 12 none, .wideImmediateHint 4, .branchExtensionHint 4 8, .hintYield 4,
   .hintUniform, .dict 4 8, .sadd 4 8 12, .ssub 4 8 12, .smul 4 8 12, .smulh 4 8 12, .smulhN32 4 8 12, .sand 4 8 12, .sor 4 8 12,
   .sxor 4 8 12, .sshl 4 8 12, .sshr 4 8 12, .ssra 4 8 12, .smin 4 8 12, .sminN32 4 8 12, .smax 4 8 12, .smaxN32 4 8 12, .smov 4 8,
   .ssel 4 8 12, .scmpEq 4 8 12, .scmpNe 4 8 12, .scmpLt 4 8 12, .scmpLe 4 8 12, .scmpLtN32 4 8 12, .scmpLeN32 4 8 12, .saddB64 1 2 3]
def compute1 : List Instr :=
  [.ssubB64 1 2 3, .smovB64 1 2, .sshlImm 4 8 3, .sshrImm 4 8 3, .ssraImm 4 8 3, .saddImm 4 8 12 none, .sli 4 8 none,
   .sandImm 4 8 12 none, .sorImm 4 8 12 none, .sxorImm 4 8 12 none, .sld 4 2 3 0 none, .sst 4 2 0 none, .vadd 0 8 12 16 none,
   .vsub 0 8 12 16 none, .vmul 0 8 12 16 none, .vfma 0 8 12 16 none, .vfms 0 8 12 16 none, .vmin 0 8 12 16 none, .vmax 0 8 12 16 none,
   .vrnd 0 8 12 none, .vcmpF 0 2 12 16 0 none, .vrcp 0 8 12 4 none, .vrsq 0 8 12 4 none, .vsqrt 0 8 12 4 none, .vexp2 0 8 12 4 none,
   .vlog2 0 8 12 4 none, .vsin 0 8 12 4 none, .vcos 0 8 12 4 none, .vtanh 0 8 12 4 none, .viadd 0 8 12 16 none, .visub 0 8 12 16 none,
   .vimul 0 8 12 16 none, .vimulh 0 8 12 16 none, .vimad 0 8 12 16 none, .vimin 0 8 12 16 none, .vimax 0 8 12 16 none,
   .vshl 0 8 12 16 none, .vshr 0 8 12 16 none, .vsra 0 8 12 16 none, .vbfe 0 8 12 16 none, .vbfi 0 8 12 16 none, .vpopc 0 8 12 none,
   .vclz 0 8 12 none, .vdot4 4 8 12 none, .vcmpI 0 2 12 16 0 none, .viaddImm 4 8 12 none none, .vmovi 4 8 none none, .vand 4 8 12 none,
   .vor 4 8 12 none, .vxor 4 8 12 none, .vnot 4 8 none, .vmov 4 8 none, .vsel 4 8 12 4 none, .vcvt 4 8 3 4 none, .vpack 33 45 55 3 none,
   .vunpk 4 8 3 0 5 none, .vshfl 4 8 12 0 0 none, .vbcst 4 8 12 0 0 none, .wred 4 8 0 0 none, .wscan 4 8 0 0 0 none]
def compute2 : List Instr :=
  [.vballot 1 2 0 none, .vconf 1 8 0 none, .mand 1 2 3, .mor 1 2 3, .mxor 1 2 3, .mnot 1 2, .mpopc 4 2, .mffs 4 2, .mmovMm 1 2,
   .mmovMs 1 2, .mmovSm 1 2, .vld 4 2 12 4 0 none none, .vldAcq 4 2 12 4 0 none none, .vst 4 2 12 0 none none,
   .vstRel 4 2 12 0 none none, .vldp 4 8 3 0 none none, .vstp 4 8 0 none none, .vatom 4 2 12 4 0 none none,
   .vatomNear 4 2 12 4 0 none none, .vatomHome 4 2 12 4 0 none none, .vared 4 2 12 0 0 none none, .fgath 4 2 3 0 none none,
   .pref 1 8 0 none none, .disc 1 8 0 none none, .tsmp 1 2 3 4 0 none none, .prime 0 8 3 4, .mma 0 8 12 4, .mfence 4, .bwait 4 2,
   .bwaitAll 4, .accz 0 8 12, .accwr 4 13 32 0, .setscA 0 8, .setscB 0 8, .qntz 4 8 3 0 0, .dqnz 3 8 3 4, .olrd 2 8 3 4,
   .accrdReg 0 3 0 0 15 0, .accrdMem 0 0 12 4 5, .glzclr 1 0, .rbox 0 8 3, .rtri 0 8 3, .wapp 4 8, .wtake 4 8 3, .wqui 4]
def meshOnly : List Instr := [.mcnt 4 8, .mvtx 4 2 3, .mprim 4 8]
def pixelOnly : List Instr := [.vintp 4 8 12, .pxw 1 0, .pxk 1, .glzin 1 0, .glzrd 1 8 3 0, .glzres 4 8 3 0]
def handlerOnly : List Instr := [.rte, .splrd 1 2 0, .splwr 1 2 0]
/-- An operation of the tables of ScalarResults to CompareResults, SpecialFunctions, ShuffleResults. -/
def hasRow (i : Instr) (s : State) (c : Ctx) : Bool :=
  (scalarResult c i).isSome || (maskCount c i).isSome || (maskRow c i).isSome || (floatRow s c i).isSome || (integerRow c i).isSome ||
  (bitRow c i).isSome || (convertRow s c i).isSome || (compareRow c i).isSome || (specialRow i).isSome || (shuffleRow c i).isSome

theorem issues0 : Meets (compute0.map fun i => (i, comp, fun _ => true)) := meets (by decide +kernel)
theorem issues1 : Meets (compute1.map fun i => (i, comp, fun _ => true)) := meets (by decide +kernel)
theorem issues2 : Meets (compute2.map fun i => (i, comp, fun _ => true)) := meets (by decide +kernel)
theorem issues_mesh : Meets (meshOnly.map fun i => (i, mesh, fun _ => true)) := meets (by decide +kernel)
theorem issues_pixel : Meets (pixelOnly.map fun i => (i, pixel, fun _ => true)) := meets (by decide +kernel)
theorem issues_handler : Meets (handlerOnly.map fun i => (i, handler, fun _ => true)) := meets (by decide +kernel)

/-- ScalarResults, MaskResults, FloatResults, IntegerResults, CompareResults, SpecialFunctions: each row of their tables. -/
theorem witness_rows :
    Meets ((((compute0.drop 36) ++ compute1).filter fun i => match i with | .sld .. | .sst .. | .wred .. | .wscan .. => false | _ => true).map
      fun i => (i, comp, hasRow i comp)) ∧
    Meets ((compute2.drop 2 |>.take 7).map fun i => (i, comp, hasRow i comp)) := by
  constructor <;> exact meets (by decide +kernel)

/-- With a prefix: a predicate that leaves some lanes, and `.z`. -/
theorem witness_predicated :
    Meets ([.vadd 0 8 12 16 (some half), .viadd 0 8 12 16 (some half), .vcmpF 0 2 12 16 0 (some half), .vmov 4 8 (some half)].map fun i =>
      (i, setM [(1, 0xff)] comp, fun c => hasRow i comp c && decide (c.active (some half) = 0xff ∧ c.zeroLanes (some half) = 0xffffffffffffff00))) :=
  meets (by decide +kernel)

/-! ## Steps, checks, traps -/

/-- StepRunsDecoded: a placed NOP. -/
theorem witness_step :
    let s := State.reset.withFetchWord 32 0x04000000
    s.event? = none ∧ ∃ c, s.noEvent.pickAny = some c ∧ decide (s.noEvent.comparator c = none ∧ c.aux.dict = none ∧
      s.noEvent.landed c.w.core c.pc = true) && okWith (decodeIssue (s.noEvent.words c.w.core c.pc) c.aux.hints) (fun i => decide (i = .nop)) = true :=
  ⟨by decide +kernel, some_of (by decide +kernel)⟩

/-- EncodeDecodes: a well-formed instruction with a hint and a prefix. -/
theorem witness_encode : (Instr.viaddImm 3 3 0x388 (some 1) (some half)).encoded = true ∧
    WellFormed (.viaddImm 3 3 0x388 (some 1) (some half)) = true := by decide

/-- StepKeepsMemory, StepKeepsIds: reset has the invariants, and takes a step. -/
theorem witness_invariants : MemWf State.reset ∧ Ids State.reset ∧ ∃ t, step State.reset = .next t ∧ true = true :=
  ⟨by unfold MemWf; decide +kernel, by unfold Ids; decide +kernel, next_of (p := fun _ => true) (by decide +kernel)⟩

/-! ## Traps -/

/-- IssueChecks: an illegal size code, an RTE outside a handler, an MMA of minimum width 8 in a wave of width 4. -/
theorem witness_checks :
    (∃ c : Ctx, c.who = ⟨1, some 0⟩ ∧ comp.ctx? c.who = some c ∧ (comp.cur = some c.who ∧ issueLegal (.vld 1 1 0 1 7 none none) c = false)) ∧
    (∃ c : Ctx, c.who = ⟨1, some 0⟩ ∧ comp.ctx? c.who = some c ∧ (issueLegal .rte c = true ∧ privileged .rte = true ∧ c.hnd = false)) ∧
    ∃ c : Ctx, c.who = ⟨1, some 0⟩ ∧ narrow.ctx? c.who = some c ∧
      (issueLegal (.mma 1 8 12 4) c = true ∧ wminI c.w.width (.mma 1 8 12 4) = some 8 ∧ c.pwidth < 8 ∧ c.w.width < 8) := by
  refine ⟨?_, ?_, ?_⟩ <;> exact part_of' (by decide +kernel)

/-- CompareResults: a comparison into m0. -/
theorem witness_compareM0 : ∃ c : Ctx, c.who = ⟨1, some 0⟩ ∧ comp.ctx? c.who = some c ∧
    (comp.cur = some c.who ∧ (compareRow c (.vcmpI 0 0 8 12 0 none)).map (fun x => x.2.1) = some 0) :=
  part_of' (by decide +kernel)

/-- A trap that waits in entry 0. -/
def trapped : State := upW (fun w => { w with aux := { trap := some { code := 0x13, tpc := 1, now := false } } :: w.aux.drop 1 }) comp
theorem witness_trapEntry : ∃ w, trapped.wave? 1 = some w ∧ (w.trapped = [0] ∧ trapped.mayEnter w = true ∧ (w.auxAt 0).trap ≠ none ∧
    trapped.landed w.core (trapped.ctxTvec (((trapped.group? w.gid).map (·.ctx)).getD 0)) = true) :=
  some_of' (by decide +kernel)

def trapsB (s : State) (c : Ctx) : Bool := decide (
  c.hnd = false ∧ (bitAt c.q c.part = true ∧ c.w.banks[c.part]? = some c.bank) ∧ c.w.handler.run = false ∧ c.w.pend = [] ∧
  (c.w.trapped = [] ∧ c.aux.trap = none ∧ c.aux.later = none) ∧
  (∀ e ∈ c.w.parts, (c.w.auxAt e).hints = 0) ∧ s.frozen c.w = false ∧
  (∀ e ∈ c.w.parts, (c.w.ent e).st = stReady → e ≠ c.ent → (s.core c.w.core).issued.contains ⟨c.w.wid, some e⟩ = true) ∧
  s.landed c.w.core (s.ctxTvec c.g.ctx) = true)
theorem trapsB_spec {s : State} {c : Ctx} (h : trapsB s c = true) : TrapsAtOnce s c := by
  obtain ⟨a, b, d, e, f, g, i, j, k⟩ := of_decide_eq_true h
  exact ⟨a, b, d, e, f, g, i, j, k⟩

/-- TrapsTaken: TRAP and BKPT of a part that is its wave's only one; an illegal bundle in a handler. -/
theorem witness_softwareTraps : Meets ([.trap 4, .bkpt 4].map fun i => (i, comp, trapsB comp)) := meets (by decide +kernel)
theorem witness_doubleFault : ∃ c : Ctx, c.who = ⟨1, none⟩ ∧ handler.ctx? c.who = some c ∧
    (handler.cur = some c.who ∧ c.hnd = true ∧ issueLegal (.trap 4) c = false) := part_of' (by decide +kernel)

/-- TrapReturns: over a well-formed table, and over one whose root is gone. -/
theorem witness_return : Meets [
    (.rte, handler, fun c => decide (c.w.tableWf = true ∧ c.w.aux.length = 16 ∧ (∀ a ∈ c.w.aux, a.trap = none ∧ a.later = none ∧ a.park = .none) ∧
      (c.w.ent (field c.w.handler.treg.tent 0 4)).isPart = true)),
    (.rte, upW (fun w => { w with split := List.replicate 16 {} }) handler, fun c => decide (c.w.tableWf = false))] :=
  meets (by decide +kernel)

/-! ## Across lanes -/

/-- ShuffleResults, BallotAndConflict, WindowResults, WredAdds. The source lanes are all active; with PZ; one is not. -/
theorem witness_crossLane : Meets [
    (.vshfl 4 8 12 0 0 none, comp, fun c => decide (∀ l : Nat, l < 64 → bitAt (c.active none) (l - l % 4 + (c.v 12 l).toNat % 4) = true)),
    (.vshfl 4 8 12 0 1 (some half), setM [(1, 0xfe)] comp, fun _ => true),
    (.vshfl 4 8 12 0 0 (some half), setM [(1, 0xfe)] comp, fun c => decide (∃ l ∈ List.range 64, bitAt (c.active (some half)) l = true ∧
      bitAt (c.active (some half)) (l - l % 4 + (c.v 12 l).toNat % 4) = false)),
    (.vballot 1 2 0 none, comp, fun _ => true), (.vconf 1 8 0 none, comp, fun _ => true), (.wred 4 8 0 0 none, comp, fun _ => true),
    (.wscan 4 8 0 1 4 none, comp, fun _ => true)] ∧ (tyD none .i32).isFloat = false ∧ (pfxOf none).sat = false :=
  ⟨meets (by decide +kernel), by decide, by decide⟩

/-! ## Transfers and divergence -/

/-- TransferResults: forward, backward, taken, fallen through, and to a slot without code. -/
theorem witness_transfers : Meets ([.bra 4 none, .brc 0 8 12 none, .brc 1 8 12 none, .call 4 8 none, .ret 4, .jmpf 0 8, .brd 0 8 12 none].map fun i =>
      (i, comp, fun c => (transferRow comp c i).isSome)) ∧
    Meets [(.jmpf 5 0, comp, fun c => decide (comp.landed c.w.core ((5 : BitVec 7) ++ (0 : BitVec 10)) = false)),
      (.bra 0xffe none, upW (fun w => { w with split := { (w.ent 0) with pc := 7 } :: w.split.drop 1 }) comp, fun c => decide (c.pc = 7))] :=
  ⟨meets (by decide +kernel), meets (by decide +kernel)⟩

/-- RotationExchanges: with and without a record. -/
theorem witness_rotation : ((wave 64).ent 0).isPart = true ∧ ((wave 64).records 0).filter (fun r => ((wave 64).ent r).st == 0) = [] ∧
    (narrowed.ent 0).isPart = true ∧ (narrowed.records 0).filter (fun r => (narrowed.ent r).st == 0) = [1] := by decide +kernel

def m1 : State → State := setM [(1, 0xf0)]
/-- BrdSplits, BrdNarrowsOrTraps. -/
theorem witness_brd : Meets [
    (.brd 1 8 12 none, m1 comp, fun c => decide (brdUniform c (brdTakes c 1) = false ∧ brdNarrows c = false ∧ c.w.entWf c.ent = true ∧
      c.w.split.length = 16 ∧ entriesNeeded (decomposePart c.q c.m0 (brdTakes c 1)) ≤ c.w.freeEnts.length)),
    (.brd 1 8 12 none, m1 (stand .compute narrowed), fun c => decide (brdUniform c (brdTakes c 1) = false ∧ brdNarrows c = true ∧ c.w.freeEnts ≠ [] ∧
      c.w.split.length = 16)),
    (.brd 1 8 12 none, setM [(1, 0xf0f0f0f0f0f0f0f0)] comp, fun c => decide (brdUniform c (brdTakes c 1) = false ∧ brdNarrows c = false ∧
      c.w.freeEnts.length < entriesNeeded (decomposePart c.q c.m0 (brdTakes c 1))))] := meets (by decide +kernel)

/-- JoinResults: a record that names the JOIN; no OPEN record above; one for another JOIN; one that waits for the other part; the last arrival. -/
theorem witness_join : Meets [
    (.join, stand .compute narrowed, fun c => decide (c.w.hasStub = false ∧ c.w.split.length = 16 ∧ c.w.records c.ent = [1] ∧ (c.w.ent 1).jpc = c.pc ∧
      (c.w.ent 1).st = 0)),
    (.join, comp, fun c => decide (c.w.hasStub = false ∧ c.w.records c.ent = [] ∧ openAbove c.w c.ent = none)),
    (.join, first (parted 5 0 0), fun c => decide (c.w.hasStub = false ∧ c.w.records c.ent = [] ∧ openAbove c.w c.ent = some 0 ∧ (c.w.ent 0).jany = false ∧
      (c.w.ent 0).jpc ≠ c.pc)),
    (.join, first (parted 0 0 3), fun c => decide (c.w.hasStub = false ∧ c.w.records c.ent = [] ∧ openAbove c.w c.ent = some 0 ∧ c.ent ≠ 0 ∧ (c.w.ent 0).jany = false ∧
      (c.w.ent 0).jpc = c.pc ∧ 2 ∈ c.w.under 0 ∧ (c.w.ent 2).isPart = true ∧ (c.w.ent 2).st ≠ 1)),
    (.join, first (parted 0 1 0), fun c => decide (c.w.hasStub = false ∧ c.w.records c.ent = [] ∧ openAbove c.w c.ent = some 0 ∧ (c.w.ent 0).jany = false ∧
      (c.w.ent 0).jpc = c.pc ∧ (c.w.ent 0).pv = false ∧ c.ent ∈ c.w.under 0 ∧
      ∀ k ∈ c.w.under 0, (c.w.ent k).isPart = true → k ≠ c.ent → (c.w.ent k).st = 1 ∧ (c.w.ent k).pc = c.pc))] := meets (by decide +kernel)

/-- FuseResults: the whole wave, the first to arrive, the last. -/
theorem witness_fuse :
    let f := code [0x04400000]
    Meets [
    (.fuse, f comp, fun c => decide (c.w.hasStub = false ∧ c.w.split.length = 16 ∧ c.w.records c.ent = [] ∧ (f comp).instrAt c.w.core c.pc = some .fuse ∧
      ∀ e : Nat, e < 16 → e ≠ c.ent → (c.w.ent e).kind = 0)),
    (.fuse, f (first (parted 5 0 3)), fun c => decide (c.w.hasStub = false ∧ (f comp).instrAt c.w.core c.pc = some .fuse ∧
      (∃ e ∈ c.w.parts, e ≠ c.ent) ∧ ∀ e ∈ c.w.parts, e ≠ c.ent → (c.w.ent e).st ≠ 2)),
    (.fuse, f (first (parted 5 2 0)), fun c => decide (c.w.hasStub = false ∧ c.w.records c.ent = [] ∧ (∃ e ∈ c.w.parts, e ≠ c.ent) ∧
      ∀ e ∈ c.w.parts, e ≠ c.ent → (c.w.ent e).st = 2 ∧ (c.w.ent e).pc = c.pc))] := meets (by decide +kernel)

/-- ExitResults: the last lanes of a wave, one of two parts, a handler part. -/
theorem witness_exit : Meets [
    (.exit, comp, fun c => decide (c.hnd = false ∧ c.w.living = c.m0)), (.exit, first (parted 5 0 3), fun c => decide (c.w.living ≠ c.m0))] ∧
    ∃ c : Ctx, c.who = ⟨1, none⟩ ∧ handler.ctx? c.who = some c ∧ (handler.cur = some c.who ∧ c.hnd = true) :=
  ⟨meets (by decide +kernel), part_of' (by decide +kernel)⟩

/-! ## Hints, special registers, regions, waits -/

/-- HintResults: with hints before an instruction, and dictionary entries that pass R129 and that do not. -/
theorem witness_hints :
    let s := code [0x10000001, 0x60183388] comp
    let t := upC (fun c => { c with dict := (c.dict.set 4 0x24183fff).set 8 0x24183fff }) comp
    Meets [(.nop, comp, fun _ => true), (.hintUniform, comp, fun _ => true), (.hintYield 4, comp, fun c => decide (c.ent < c.w.aux.length)),
      (.wideImmediateHint 1, s, fun c => okWith (decodeBundle (s.words c.w.core c.pc)) fun x => issueLegal x.1 c && !privileged x.1),
      (.dict 4 8, t, fun c => decide ((t.dictEntry c 4).isSome = true ∧ (t.dictEntry c 8).isSome = true)),
      (.dict 5 8, upC (fun c => { c with dict := c.dict.set 5 0x18000001 }) t, fun c =>
        decide (((upC (fun c => { c with dict := c.dict.set 5 0x18000001 }) t).dictEntry c 5) = none))] := meets (by decide +kernel)

/-- SpecialReads: every special register of R24 and R412, the first and last TS register, and the split table. -/
theorem witness_specialReads :
    Meets (([0x002, 0x003, 0x004, 0x005, 0x006, 0x007, 0x008, 0x009, 0x00a, 0x00b] : List (BitVec 13)).map fun n =>
      (.srd 4 n, comp, fun c => (srdValue comp c 4 n.toNat).isSome)) ∧
    Meets (([0x00c, 0x100, 0x101, 0x102, 0x103, 0x104, 0x106, 0x108, 0x109, 0x140, 0x17f] : List (BitVec 13)).map fun n =>
      (.srd 4 n, handler, fun c => (srdValue handler c 4 n.toNat).isSome)) ∧
    Meets [(.srd 4 0, comp, fun _ => true), (.srd 4 1, comp, fun _ => true), (.splrd 2 15 3, handler, fun _ => true),
      (.splwr 2 0 0, handler, fun c => decide (c.w.split.length = 16)), (.splwr 2 15 3, handler, fun _ => true)] :=
  ⟨meets (by decide +kernel), meets (by decide +kernel), meets (by decide +kernel)⟩

/-- SpecialWrites: each clause; ACSOWN of the owning context, another context's, and the wave's own while another owns the store. -/
theorem witness_specialWrites :
    let own := upC (fun c => { c with acsown := 0 }) handler
    Meets [(.swr 4 0x009, comp, fun c => decide (c.w.toFuseto = none)), (.swr 4 0x00a, comp, fun c => decide (c.w.toSplpol = none)),
      (.swr 4 0x00b, comp, fun _ => true), (.swr 4 0x000, comp, fun _ => true), (.swr 4 0x008, comp, fun _ => true),
      (.swr 4 0x100, handler, fun _ => true), (.swr 4 0x101, handler, fun _ => true), (.swr 4 0x102, handler, fun _ => true),
      (.swr 4 0x109, handler, fun _ => true), (.swr 4 0x140, handler, fun _ => true), (.swr 4 0x17f, handler, fun _ => true),
      (.swr 4 0x00c, own, fun c => decide ((c.s 4).toNat % 2 ^ 16 = c.w.handler.treg.tctx.toNat % 2 ^ 16 ∧
        (c.s 4).toNat % 2 ^ 16 = (own.core c.w.core).acsown.toNat % 2 ^ 16)),
      (.swr 4 0x00c, handler, fun c => decide ((c.s 4).toNat % 2 ^ 16 = c.w.handler.treg.tctx.toNat % 2 ^ 16 ∧
        (c.s 4).toNat % 2 ^ 16 ≠ (handler.core c.w.core).acsown.toNat % 2 ^ 16 ∧ c.w.core < handler.cores.length)),
      (.swr 4 0x00c, setS [(4, 3)] handler, fun c => decide ((c.s 4).toNat % 2 ^ 16 ≠ c.w.handler.treg.tctx.toNat % 2 ^ 16))] :=
  meets (by decide +kernel)

/-- RegionsAndWaits: stacks of depth 0, 1, 8 and 9; outside and inside a causal trial; SLEEP of 0 and of 5 clk; event queues. -/
theorem witness_regions :
    let deep := fun (n : Nat) => upW (fun w => { w with banks := w.banks.map fun b => { b with rdepth := n, rgn := List.replicate (min n 8) 4 } }) comp
    let evq := qword 0x100220 (2 ^ 63) (qword 0x100228 1 comp)
    let full := { evq with events := evq.events.set 2 (List.replicate 64 0) }
    Meets ([0, 1, 7, 8, 9, 255].flatMap fun n => [(.rgnEnter 4, deep n, fun c => decide (c.bank.rdepth = n)), (.rgnLeave 4, deep n, fun _ => true)]) ∧
    Meets [(.prog 4, comp, fun c => decide ((comp.core c.w.core).dbg.run = false)), (.prog 4, upC (fun c => { c with dbg := { run := true } }) comp, fun _ => true),
      (.sleep 4, comp, fun c => decide (c.w.hasStub = false ∧ (c.s 4).toNat = 0)),
      (.sleep 4, setS [(4, 5)] comp, fun c => decide (c.w.hasStub = false ∧ (c.s 4).toNat ≠ 0 ∧ c.ent < c.w.aux.length)),
      (.evsig 4 2, evq, fun c => bitAt (evq.rd64 (evq.qtbase.toNat + 0x100220)) 63 && bitAt (evq.rd64 (evq.qtbase.toNat + 0x100228)) (evq.ctxFunc c.g.ctx) &&
        someWith (evq.events[2]?) fun l => decide (l.length < 64)),
      (.evsig 4 2, full, fun c => bitAt (full.rd64 (full.qtbase.toNat + 0x100220)) 63 && bitAt (full.rd64 (full.qtbase.toNat + 0x100228)) (full.ctxFunc c.g.ctx) &&
        someWith (full.events[2]?) (fun l => decide (64 ≤ l.length)) && full.poison.isEmpty),
      (.evsig 4 2, comp, fun _ => !bitAt (comp.rd64 (comp.qtbase.toNat + 0x100220)) 63)] :=
  ⟨meets (by decide +kernel), meets (by decide +kernel)⟩

/-! ## Code loading -/

/-- Slot `k` of core 0 is `x`. -/
def slotIs (k : Nat) (x : Slot) : State → State := upC fun c => { c with slots := c.slots.set k x }
/-- The loads of code in flight in the part's core. -/
def loadsOf (s : State) (c : Ctx) : Nat := ((s.core c.w.core).slots.filter Slot.busy).length
/-- CodeLoading: a free overlay slot; one of another kernel; a misaligned address; eight loads under way, at issue and waiting. -/
theorem witness_codeFetch :
    let mine : Slot := { owner := some 0 }
    let ok := slotIs 8 mine (setS [(2, 0x8000)] comp)
    let busy := upC (fun c => { c with slots := (c.slots.take 120) ++ List.replicate 8 { st := .loading } }) ok
    Meets [(.cfetch 1 8, ok, fun c => decide (let x := (ok.core c.w.core).slot 8
        (c.sp 1).toNat % 4096 = 0 ∧ x.resident = false ∧ x.owner = some c.g.kslot ∧ loadsOf ok c < 8 ∧ c.w.core < ok.cores.length)),
      (.cfetch 1 8, slotIs 8 { owner := some 1 } ok, fun c => decide ((c.sp 1).toNat % 4096 = 0 ∧
        ((slotIs 8 { owner := some 1 } ok).core c.w.core).slot 8 = { owner := some 1 } ∧ c.g.kslot = 0)),
      (.cfetch 1 8, setS [(2, 0x8010)] ok, fun c => decide ((c.sp 1).toNat % 4096 ≠ 0)),
      (.cfetch 1 8, busy, fun c => decide (loadsOf busy c = 8 ∧ ((busy.core c.w.core).slot 8).owner = some c.g.kslot ∧
        ((busy.core c.w.core).slot 8).busy = false))] ∧
    WaitsFor (.cfetch 1 8) (waiting (.cfetch 1 8) busy) (fun c => 8 ≤ loadsOf busy c) ∧
    WaitsFor (.cfetch 1 8) (waiting (.cfetch 1 8) ok) (fun c => loadsOf ok c < 8) :=
  ⟨meets (by decide +kernel), part_of' (by decide +kernel), part_of' (by decide +kernel)⟩

theorem witness_codeWait :
    let at' := fun (x : Slot) => slotIs 4 x comp
    let holds := fun (s : State) (st : SlotState) (c : Ctx) => decide (((s.core c.w.core).slot 4).st = st)
    let lost : Slot := { st := .failed, seq := 6, src := some 0x8000, fault := some { code := 4, tpc := 0 } }
    let told := upW (fun w => w.updAux 0 fun a => { a with told := some 6 }) (at' lost)
    Meets [(.cwait 4, at' { st := .landed }, holds (at' { st := .landed }) .landed), (.cwait 4, comp, holds comp .empty),
      (.cwait 4, at' { st := .loading }, holds (at' { st := .loading }) .loading),
      (.cwait 4, at' lost, fun c => decide (((at' lost).core c.w.core).slot 4 = lost ∧ c.aux.told ≠ some 6)),
      (.cwait 4, told, fun c => decide ((told.core c.w.core).slot 4 = lost ∧ c.aux.told = some 6 ∧ c.w.core < told.cores.length))] ∧
    WaitsFor (.cwait 4) (waiting (.cwait 4) (slotIs 4 { st := .landed } comp)) fun _ => True :=
  ⟨meets (by decide +kernel), part_of' (by decide +kernel)⟩

/-- CODE_LOAD_COMPLETE: an access in flight, none in flight, a fault; a restarted load that waits for one of eight, and with room. -/
theorem witness_codeLoadEnds :
    let x : Slot := { st := .loading, acc := some 7 }
    let s := slotIs 4 x comp
    let late := slotIs 4 { st := .loading, queued := true, src := some 0x8000 } comp
    let full := upC (fun c => { c with slots := (c.slots.take 120) ++ List.replicate 8 { st := .loading } }) late
    let a : Access := { id := 7, wid := 1, quads := 1, kind := .code 0 4, pieces := [{ k := 0, lane := 0, addr := 0x8000, n := 8 }] }
    0 < s.cores.length ∧ 4 < (s.core 0).slots.length ∧ (s.core 0).slot 4 = x ∧ (∀ b ∈ s.inflight, b.id ≠ 7) ∧
      (∃ b ∈ ({ s with inflight := [a] } : State).inflight, b.id = 7) ∧
      ((late.core 0).slot 4).queued = true ∧ ((late.core 0).slots.filter Slot.busy).length = 0 ∧ ((full.core 0).slots.filter Slot.busy).length = 8 ∧
      ((slotIs 4 { x with acc := none, fault := some { code := 4, tpc := 0, addr := 0x8000 } } comp).core 0).slot 4 =
        { x with acc := none, fault := some { code := 4, tpc := 0, addr := 0x8000 } } := by decide +kernel

end Sys2Proof.Tests
end

