-- ==== Sys2Proof/Tests/WitnessesMemory.lean ====
section
/-!
SUPPORT. Witnesses: for each statement with hypotheses a state and operands that meet them together: memory, barriers, monitors, the Easel, accumulators, blocks, the fetch unit.
-/
namespace Sys2Proof.Tests
open Machine
set_option Elab.async false

/-- A reader's value, of storage that is served. -/
def readsB {α : Type} (s : State) (r : Except LFault α × List Spot) (p : α → Bool) : Bool := okWith r.1 p && r.2.all fun k => (s.remoteBad k.key).isNone
theorem reads_of {α : Type} {s : State} {r : Except LFault α × List Spot} {p : α → Bool} (h : readsB s r p = true) : ∃ x, Reads s r x ∧ p x = true := by
  simp only [readsB, Bool.and_eq_true, List.all_eq_true, Option.isNone_iff_eq_none] at h
  obtain ⟨x, hx, hp⟩ := ok_of h.1
  exact ⟨x, ⟨hx, h.2⟩, hp⟩

/-- What a reader finds it finds whatever was read before. -/
theorem take_any {s : State} {v : Via} {va n : Nat} {bs : List Byte} (h : okWith (s.take v va n []).1 (fun x => x == bs) = true) (ks : List Spot) :
    ∃ ks', s.take v va n ks = (.ok bs, ks') := by
  obtain ⟨x, h2, e⟩ := ok_of h
  rw [beq_iff_eq] at e
  subst e
  clear h
  unfold State.take at h2 ⊢
  rcases hv : v.pal with _ | ⟨c, b⟩ <;> simp only [hv] at h2 ⊢
  · rcases hs : s.span v.core v.ctx va n .rd v.window with ⟨_ | _, a⟩ | new <;> simp only [hs] at h2 ⊢
    · split at h2 <;> cases h2
    · cases h2
    · rcases he : firstErr v.errs va n with _ | a <;> simp only [he] at h2 ⊢
      · exact ⟨_, by rw [← h2]⟩
      · cases h2
  · exact ⟨_, by rw [← h2]⟩
theorem finds {s : State} {v : Via} {va n : Nat} {bs : List Byte} (h : okWith (s.take v va n []).1 (fun x => x == bs) = true) :
    FindsNum s v va n (ofBytes bs) := fun ks => by
  obtain ⟨ks', e⟩ := take_any h ks
  exact ⟨ks', by simp [State.takeNum, bind, ExceptT.bind, ExceptT.mk, ExceptT.bindCont, StateT.bind, pure, ExceptT.pure, StateT.pure, e]⟩

/-- Bytes that have no access code of their own. -/
def plainB (s : State) (k n : Nat) : Bool := decide (
  (k + n ≤ s.qtbase.toNat ∨ s.qtbase.toNat + 0x100300 ≤ k) ∧ (∀ b ∈ s.pools, k + n ≤ b + 24 ∨ b + 33 ≤ k) ∧
  ∀ x ∈ s.cores, bitAt (x.dreg 0x200) 63 = true → k + n ≤ field (x.dreg 0x210) 0 57 ∨ field (x.dreg 0x210) 0 57 + 24 ≤ k)
theorem plain_of {s : State} {k n : Nat} (h : plainB s k n = true) : Plain s k n := by unfold Plain; exact of_decide_eq_true h

/-! ## Loads, stores, atomics -/

/-- A descriptor of blocks of width 8, one along K, with slots at `d`, scale words at `s`, lists at `o`. -/
def fdOf (d s o : Nat) : List DWord := [BitVec.ofNat 64 d, BitVec.ofNat 64 s, BitVec.ofNat 64 o, 0x0001010500000000, 0x0000040008080808, 0, 0, 0]
/-- A wave of width 32 whose context owns the store, with that descriptor as fd1 and the first GiB as pages that decode through it. -/
def blocks : State :=
  let s := paged (setS [(6, 0x8000)] (stand .compute (wave 32)))
  qword 0x3000 0x18f (upC (fun c => { c with acsown := 0 }) { s with fds := [(0, 1, fdOf 0x8000 0x9000 0xa000)] })

/-- A wave of width 4, pages for the first GiB, and the base 0x8000 in s[4:5]. -/
def mem : State := paged (setS [(4, 0x8000)] narrow)
/-- The lanes still to do of a load or store all have a place in storage, and there is one. -/
def lanesOk (c : Ctx) (p : Option Pfx) (key : Nat → Option Nat) : Bool :=
  let lanes := (List.range 64).filter fun ln => bitAt (c.active p) ln && !bitAt c.aux.done ln
  !lanes.isEmpty && lanes.all fun ln => (key ln).isSome

/-- LoadsIssue, VectorLoadsComplete, StoresIssue: every size, the scopes, the palette, a predicate; no lane to do. -/
theorem witness_loads :
    Meets ((([0, 1, 2, 3, 4, 5, 6] : List (BitVec 3)).map fun m => (Instr.vld 16 2 12 3 m none none, mem, fun c =>
      someWith (loadRow mem c (.vld 16 2 12 3 m none none)) fun x => lanesOk c x.1 x.2.2.2.2.2.2.2))) ∧
    Meets ([.vldAcq 16 2 12 3 0 none none, .vldAcq 16 2 12 15 4 none none, .vldp 16 12 3 4 none none, .vld 16 2 12 3 4 none (some half)].map fun i =>
      (i, setM [(1, 0x3)] mem, fun c => someWith (loadRow (setM [(1, 0x3)] mem) c i) fun x => lanesOk c x.1 x.2.2.2.2.2.2.2)) ∧
    Meets [(.vld 16 2 12 3 4 none (some half), comp, fun c => decide (c.active (some half) = 0) && (loadRow comp c (.vld 16 2 12 3 4 none (some half))).isSome)] :=
  ⟨meets (by decide +kernel), meets (by decide +kernel), meets (by decide +kernel)⟩

theorem witness_stores :
    Meets ((([0, 1, 2, 3, 4, 5, 6] : List (BitVec 3)).map fun m => (Instr.vst 16 2 12 m none none, mem, fun c =>
      !(storeRow mem c (.vst 16 2 12 m none none)).isSome || someWith (storeRow mem c (.vst 16 2 12 m none none)) fun x => lanesOk c x.1 x.2.2.2.2.2)).filter fun x =>
        WellFormed x.1) ∧
    Meets ([.vstRel 16 2 12 0 none none, .vstRel 16 2 12 4 none none, .vstp 16 12 4 none none].map fun i =>
      (i, mem, fun c => someWith (storeRow mem c i) fun x => lanesOk c x.1 x.2.2.2.2.2)) ∧
    Meets [(.pref 2 12 0 none none, mem, fun _ => true),
      (.disc 2 12 4 none none, mem, fun c => lanesOk c none fun ln => memKey mem c 4 .wr true (laneAddr c 2 12 none ln)),
      (.disc 2 12 4 none none, comp, fun c => decide (memKey comp c 4 .wr true (laneAddr c 2 12 none 0) = none))] :=
  ⟨meets (by decide +kernel), meets (by decide +kernel), meets (by decide +kernel)⟩

/-- ScalarAccesses: 4 and 8 bytes. -/
theorem witness_scalars : Meets [
    (.sld 8 2 3 0 none, mem, fun c => (memKey mem c 4 .rd true (((c.sp 2).toNat + (memOff none).toNat) % 2 ^ 64)).isSome),
    (.sld 8 2 15 1 none, mem, fun c => (memKey mem c 8 .rd true (((c.sp 2).toNat + (memOff none).toNat) % 2 ^ 64)).isSome),
    (.sst 8 2 0 none, mem, fun c => (memKey mem c 4 .wr true (((c.sp 2).toNat + (memOff none).toNat) % 2 ^ 64)).isSome),
    (.sst 8 2 1 none, mem, fun c => (memKey mem c 8 .wr true (((c.sp 2).toNat + (memOff none).toNat) % 2 ^ 64)).isSome)] := meets (by decide +kernel)

/-- AtomicsIssue: every op and placement, the returning ones and VARED. -/
theorem witness_atomics :
    let ok := fun (i : Instr) (c : Ctx) => someWith (atomRow i) fun x => lanesOk c x.1 fun ln => atomKey mem c x.1 x.2.2.1 (laneAddr c x.2.2.2.2.2.1 x.2.2.2.2.2.2.1 x.2.2.2.2.2.2.2 ln)
    Meets ((([0, 1, 2, 3, 4, 5, 6] : List (BitVec 3)).map fun o => (Instr.vatom 16 2 12 3 o none none, mem, ok (.vatom 16 2 12 3 o none none)))) ∧
    Meets ([.vatom 16 2 12 3 7 none (some { Pfx.zero with ty := 15 }), .vatomNear 16 2 12 15 0 none none, .vatomHome 16 2 12 3 6 none none, .vared 16 2 12 0 0 none none, .vared 16 2 12 2 5 none none].map fun i => (i, mem, ok i)) :=
  ⟨meets (by decide +kernel), meets (by decide +kernel)⟩

/-- MisalignedAccesses: every form of an access to memory and to the palette. -/
theorem witness_misaligned :
    let off := setV [(12, 2)] mem
    let odd := setS [(4, 0x8004)] mem
    let bad := fun (i : Instr) (c : Ctx) => someWith (alignRow c i) fun x => bitAt (c.active x.1) 0 && !bitAt c.aux.done 0 && x.2.2.1 0 % x.2.1 != 0
    Meets ([.vst 16 2 12 4 none none, .vld 16 2 12 3 4 none (some { Pfx.zero with ty := 15 }), .vld 16 2 12 3 5 none none, .vldAcq 16 2 12 3 0 none none,
        .vstRel 16 2 12 0 none none, .vldp 16 12 3 4 none none, .vstp 16 12 4 none none, .vatom 16 2 12 3 0 none none, .vatomNear 16 2 12 3 0 none none,
        .vatomHome 16 2 12 3 0 none none, .vared 16 2 12 0 0 none none].map fun i => (i, off, bad i)) ∧
    Meets [(.vld 16 2 12 3 4 none none, off, fun c => bad (.vld 16 2 12 3 4 none none) c && (List.range 4).all fun l =>
        errWith (off.probe c (laneAddr c 2 12 none l) 4 .rd true) fun _ => true),
      (.sld 8 2 3 1 none, odd, fun c => decide ((c.sp 2).toNat % 8 ≠ 0)), (.sst 8 2 1 none, odd, fun c => decide ((c.sp 2).toNat % 8 ≠ 0))] :=
  ⟨meets (by decide +kernel), meets (by decide +kernel)⟩

/-- PagesPark: no page at all; pages but for the second quad of a wave of width 8, with room to split and without FSPLIT; a scalar load and a store. -/
theorem witness_pagesPark :
    let none' := paged (setS [(4, 0x40000000)] narrow)
    let some' := paged (setS [(4, 0x8000)] (upW (fun w => { w with splpol := 0, vreg := (List.range 4).foldl (fun m l => m.set (64 * 12 + 4 + l) 0x40000000) w.vreg })
      (stand .compute (wave 8))))
    let free := upW (fun w => { w with splpol := w.splpol ||| 8 }) some'
    let absent := fun (s : State) (c : Ctx) (need : Need) (l : Nat) => errWith (s.reach (some c.w.core) c.g.ctx (laneAddr c 2 12 none l) need true) fun e => decide (e = .page)
    let there := fun (s : State) (c : Ctx) (need : Need) (l : Nat) => okWith (s.reach (some c.w.core) c.g.ctx (laneAddr c 2 12 none l) need true) fun x => !pteDec x.leaf
    let plain := fun (c : Ctx) => decide (c.hnd = false ∧ c.aux.errs = [] ∧ c.w.aux.length = 16 ∧ c.w.split.length = 16 ∧ c.aux.dict = none ∧ c.w.records c.ent = [])
    let parts := fun (c : Ctx) => decompose (fun q => if bits c.m0 (4 * q) 4 = 0 then .idle else if q = 1 then .yes else .no) (runLog c.q) (lowQuad c.q)
    let room := fun (c : Ctx) => decide (2 ≤ (parts c).length ∧ entriesNeeded (parts c) ≤ c.w.freeEnts.length)
    Meets [(.vld 16 2 12 3 4 none none, none', fun c => plain c && (List.range 4).all (absent none' c .rd)),
      (.vst 16 2 12 4 none none, none', fun c => plain c && (List.range 4).all (absent none' c .wr)),
      (.vld 16 2 12 3 4 none none, some', fun c => plain c && (List.range 4).all (there some' c .rd) && [4, 5, 6, 7].all (absent some' c .rd) && !bitAt c.w.splpol 3),
      (.vldAcq 16 2 12 3 0 none none, free, fun c => plain c && (List.range 4).all (there free c .rd) && [4, 5, 6, 7].all (absent free c .rd) && bitAt c.w.splpol 3 && room c),
      (.vst 16 2 12 4 none none, free, fun c => plain c && (List.range 4).all (there free c .wr) && [4, 5, 6, 7].all (absent free c .wr) && bitAt c.w.splpol 3 && room c),
      (.sld 8 2 3 1 none, none', fun c => plain c && decide ((c.sp 2).toNat % 8 = 0) && errWith (none'.reach (some c.w.core) c.g.ctx (c.sp 2 + memOff none).toNat .rd true) fun e => decide (e = .page)),
      (.sst 8 2 0 none, none', fun c => plain c && decide ((c.sp 2).toNat % 4 = 0) && errWith (none'.reach (some c.w.core) c.g.ctx (c.sp 2 + memOff none).toNat .wr true) fun e => decide (e = .page))] :=
  meets (by decide +kernel)

/-- Resolves: a record for which a part, the handler, a copy and a code load wait; one that parks nothing; no record; a module that serves no host. -/
theorem witness_resolves :
    let r : Rid := { rid := 5, func := 0, ctx := 0, page := 8, parks := true }
    let up := fun (s : State) => { s with rids := [r, { r with rid := 6, parks := false }], boot := { s.boot with stage := 0x08, state := 0x08 } }
    let s := up (upC (fun c => { c with copies := [{ cid := 5, gid := 1, wid := 1, bar := 2, src := 0, off := 64, left := 64, rid := some 5, parked := true }],
                                        slots := c.slots.set 4 { st := .loading, rid := some 5 } })
      (upW (fun w => { (w.updAux 0 fun a => { a with rids := [5] }) with
        split := { (w.ent 0) with st := 3 } :: w.split.drop 1, handler := { w.handler with aux := { w.handler.aux with park := .page, rids := [5] } } }) comp))
    s.hostOk 0 = true ∧ r ∈ s.rids ∧ (s.rids.map (·.rid)).Nodup ∧ State.reset.hostOk 0 = false ∧ (∃ x ∈ s.rids, x.parks = false) ∧
      (∃ w ∈ s.waves, w.split.length = 16 ∧ w.aux.length = 16 ∧ 5 ∈ (w.auxAt 0).rids ∧ (∀ k ∈ (w.auxAt 0).rids, k = 5) ∧ s.stopped w = false ∧
        (w.ent 0).isPart = true ∧ (w.ent 0).st = 3 ∧ w.handler.aux.park = .page ∧ 5 ∈ w.handler.aux.rids) ∧
      (∃ x ∈ (s.core 0).copies, x.rid = some 5) ∧ ((s.core 0).slot 4).rid = some 5 := by decide +kernel

/-- ElementValues: beyond KBLK, of a float page, and of a block of width 8 with E = 128 and the mantissa 5. -/
def elems : State := bytes 0x8000 [5] (bytes 0x9000 [0x01, 0x80] (paged comp))
theorem witness_elements :
    let d := descFields (fdOf 0x8000 0x9000 0xa000)
    let v : Via := { ctx := 0 }
    32 * d.kblk ≤ 32 ∧ d.csrc = 0 ∧ 32 * ({ d with csrc := 1 } : Desc).kblk = 32 ∧ FindsNum elems v 0x8000 2 5 ∧ FindsNum elems v (d.scaleVa 0 0) 2 0x8001 ∧
      (evenParity 0x8001 = true ∧ scN 0x8001 = 0 ∧ scE 0x8001 = 128 ∧ (d.widths[scT 0x8001]?).getD 2 = 8) ∧
      FindsNum elems v (d.slotVa 0 0) 4 5 ∧ FindsNum elems v (d.slotVa 0 0) 32 5 ∧ ∀ j : Nat, j < 32 → slotElem 8 5 j ≠ escCode 8 := by
  have h : ∀ (va n : Nat) bs, okWith (elems.take { ctx := 0 } va n []).1 (fun x => x == bs) = true → FindsNum elems { ctx := 0 } va n (ofBytes bs) := fun _ _ _ e => finds e
  exact ⟨by decide, by decide, by decide, h 0x8000 2 [5, 0] (by decide +kernel), h 0x9000 2 [1, 0x80] (by decide +kernel), by decide +kernel,
    h 0x8000 4 [5, 0, 0, 0] (by decide +kernel), h 0x8000 32 (5 :: List.replicate 31 0) (by decide +kernel), by decide +kernel⟩

/-- DecodingLoads: a 32-bit VLD of a wave of width 32 from pages that decode. -/
theorem witness_decoding : Meets [(.vld 16 3 12 3 4 none none, blocks, fun c => decide (blocks.inflight = []) && (List.range 32).all fun ln =>
    okWith (blocks.probe c (laneAddr c 3 12 none ln) 4 .rd true) fun x => pteDec x.leaf && someWith (descOf (blocks.fdWords c.g.ctx (pteFd x.leaf))) fun d =>
      decide (d.dbase ≤ laneAddr c 3 12 none ln) && okWith (blocks.takeElem { ctx := c.g.ctx, core := some c.w.core, errs := c.aux.errs, window := true } d 0 (ln % 32) false []).1
        fun _ => true)] := meets (by decide +kernel)

/-! ## Fences, copies, barriers, monitors -/

/-- An access of the part in flight. -/
def flight (key : Nat) : Access := { id := 7, wid := 1, quads := 0xffff, kind := .store, order := [0], pieces := [{ k := 0, lane := 0, addr := key, n := 4 }] }
def flying (key : Nat) (s : State) : State := { s with inflight := [flight key] }

/-- Fences: nothing in flight, an access to memory, to the palette, each as it issues and as the wait's end. -/
theorem witness_fences :
    let idle := fun (s : State) (c : Ctx) (m : Bool) => (flightOf s c).all fun a => a.pieces.all fun p => isPalKey p.addr != m
    Meets [(.fence 1 0, comp, fun c => idle comp c false), (.fence 15 2, comp, fun c => idle comp c true && idle comp c false && (comp.core c.w.core).copies.isEmpty),
      (.fence 1 0, flying 0x8000 comp, fun c => !idle (flying 0x8000 comp) c false), (.fence 4 0, flying (palKey 0 0) comp, fun c => !idle (flying (palKey 0 0) comp) c true)] ∧
    WaitsFor (.fence 1 0) (waiting (.fence 1 0) comp) (fun c => flightOf comp c = []) ∧
    WaitsFor (.fence 1 0) (waiting (.fence 1 0) (flying 0x8000 comp)) (fun c => (flightOf (flying 0x8000 comp) c).length = 1) :=
  ⟨meets (by decide +kernel), part_of' (by decide +kernel), part_of' (by decide +kernel)⟩

/-- CopyAndCounters: a copy of 4,096 bytes, of none, to a barrier that the group lacks, misaligned, too long, without room, and the wait's end. -/
theorem witness_copies :
    let src := setS [(4, 0x8000), (7, 4096)] comp
    let full := upC (fun c => { c with copies := List.replicate 16 { cid := 0, gid := 9, wid := 9, bar := 0, src := 0, off := 0, left := 16 } }) src
    let ok := fun (c : Ctx) => decide ((c.s64 4).toNat % 16 = 0 ∧ (c.s 6).toNat % 16 = 0 ∧ (c.s 7).toNat % 16 = 0 ∧ (c.s 7).toNat ≤ 1048576 ∧
      (c.s 6).toNat + (c.s 7).toNat ≤ c.g.psize ∧ c.w.core < comp.cores.length)
    Meets [(.cpya 1 2, src, fun c => ok c && decide (c.s 7 ≠ 0)), (.cpya 1 2, comp, fun c => ok c && decide (c.s 7 = 0)), (.cpya 1 31, src, ok),
      (.cpya 1 2, upG (fun g => { g with bars := g.bars.take 2 }) src, fun c => decide (c.g.bars.length = 2)),
      (.cpya 1 2, setS [(6, 8)] src, fun c => decide ((c.s 6).toNat % 16 ≠ 0)), (.cpya 1 2, setS [(4, 0x8008)] src, fun c => decide ((c.s64 4).toNat % 16 ≠ 0)),
      (.cpya 1 2, setS [(6, 65536 - 4080)] src, fun c => decide (c.g.psize < (c.s 6).toNat + (c.s 7).toNat)),
      (.cpya 1 2, full, fun c => decide ((full.core c.w.core).copies.length = 16))] ∧
    WaitsFor (.cpya 1 2) (waiting (.cpya 1 2) full) (fun c => 16 ≤ (full.core c.w.core).copies.length) ∧
    WaitsFor (.cpya 1 2) (waiting (.cpya 1 2) src) (fun c => (src.core c.w.core).copies.length < 16) :=
  ⟨meets (by decide +kernel), part_of' (by decide +kernel), part_of' (by decide +kernel)⟩

/-- COPY_CHUNK_LAND: 512 bytes and more left, and a source that must not be read, or is absent. -/
def copying (src left : Nat) (s : State) : State := upC (fun c => { c with copies := [{ cid := 5, gid := 1, wid := 1, bar := 2, src, off := 64, left }] }) s
theorem witness_copyLands :
    let s := copying 0x8000 1024 (paged comp)
    (∃ x : Copy, (s.core 0).copies.find? (fun y => y.cid == 5) = some x ∧ (x.parked = false ∧ x.errs = [] ∧ x.left = 1024 ∧ x.gid = 1 ∧ x.bar = 2)) ∧
    (∃ g, s.group? 1 = some g ∧ (2 < g.bars.length ∧ (∀ b ∈ g.bars, b.arrivals = 0 ∧ b.fault = none) ∧ s.parkedIn 1 (fun p => p == .bar 2) = [])) ∧
    0 < s.cores.length ∧ ((s.core 0).copies.map (·.cid)).Nodup ∧ s.poison = [] ∧
    s.inflight = [] ∧ (∃ ks, s.span (some 0) 0 0x8000 512 .rd false = .ok ks ∧ (fun ks => decide (ks.length = 512) && ks.all fun k => (s.remoteBad k.key).isNone) ks = true) ∧
    (∃ e, (copying (2 ^ 57) 1024 comp).span (some 0) 0 (2 ^ 57) 512 .rd false = .error e ∧ (fun e => decide (e = (.perm, 2 ^ 57))) e = true) ∧
    ∃ e, (copying 0x40000000 1024 (paged comp)).span (some 0) 0 0x40000000 512 .rd false = .error e ∧ (fun e => decide (e = (.page, 0x40000000))) e = true := by
  and_intros <;> first | decide +kernel | exact some_of' (by decide +kernel) | exact ok_of (by decide +kernel) | exact err_of (by decide +kernel)

/-- BarrierArrives: with another wave missing, as the last wave, with a counter below 0 and above it, at a barrier with a fault, at one that the group lacks. -/
theorem witness_bar :
    let two := upG (fun g => { g with waves := 2 }) comp
    let hurt := upG (fun g => { g with bars := g.bars.set 1 { fault := some ({ trap := { code := 5, tpc := 0 } }, 5) } }) comp
    let short := upG (fun g => { g with bars := g.bars.set 1 { cnt := -16 } }) comp
    let above := upG (fun g => { g with bars := g.bars.set 1 { cnt := 16 } }) comp
    let few := upG (fun g => { g with bars := g.bars.take 1 }) comp
    let ok := fun (s : State) (c : Ctx) (p : Barrier → Bool) => decide (c.w.hasStub = false ∧ c.w.records c.ent = [] ∧ c.aux.dict = none ∧ c.ent < c.w.aux.length) &&
      someWith (c.g.bars[1]?) fun b => p b && decide (s.waves.length = 1)
    Meets [(.bar 1, two, fun c => ok two c fun b => decide (b.fault = none ∧ b.arrivals + 1 + two.exitedWaves c.g.gid < c.g.waves)),
      (.bar 1, comp, fun c => ok comp c fun b => decide (b.fault = none ∧ c.g.waves ≤ b.arrivals + 1 + comp.exitedWaves c.g.gid ∧ b.cnt = 0 ∧ comp.groupFlight c.g.gid = false ∧ c.aux.half = false ∧ comp.stopped c.w = false)),
      (.bar 1, short, fun c => ok short c fun b => decide (b.fault = none ∧ b.cnt < 0 ∧ short.stopped c.w = false ∧ short.parkedIn c.g.gid (fun p => p == .bar 1) = [])),
      (.bar 1, above, fun c => ok above c fun b => decide (b.fault = none ∧ 0 < b.cnt ∧ above.copyOn c.g 1 = false)),
      (.bar 1, hurt, fun c => ok hurt c fun b => decide (b.fault ≠ none)), (.bar 1, few, fun c => decide (c.g.bars.length = 1)),
      (.barx 4 1, setS [(4, 4096)] comp, fun c => ok comp c fun b => decide (b.cnt + (c.s 4).toNat < 2 ^ 31 ∧ b.arrivals = 0)),
      (.barx 4 1, setS [(4, 0x80000000)] comp, fun c => ok comp c fun b => decide (2 ^ 31 ≤ b.cnt + (c.s 4).toNat)), (.barx 4 1, few, fun c => decide (c.g.bars.length = 1)),
      (.bart 4 1, comp, fun c => (c.g.bars[1]?).isSome), (.bart 4 1, few, fun c => decide (c.g.bars.length = 1))] :=
  meets (by decide +kernel)

/-- CohortBarriers: a grid group; a cohort's first wave, and its last. -/
def cohort (waves : Nat) : State :=
  let s := upG (fun g => { g with cohort := 3 }) comp
  { s with taken := [{ lid := 1, words := List.replicate 16 0, total := 1, waves, cbars := [5] }], cbars := s.cbars.set 5 { owner := some 1 } }
theorem witness_cbar :
    let ok := fun (s : State) (c : Ctx) (p : Launch → CBarrier → Bool) => decide (c.w.hasStub = false ∧ c.w.records c.ent = [] ∧ c.aux.dict = none ∧ c.ent < c.w.aux.length ∧
      c.g.cohort ≠ 0xffffffff) && someWith (s.launch? c.g.lid) fun l => decide (l.cbars[0]? = some 5) && someWith (s.cbars[5]?) fun b => decide (b.owner = some 1) && p l b
    Meets [(.cbar 0, comp, fun c => decide (c.g.cohort = 0xffffffff ∧ c.w.hasStub = false)), (.cbar 1, cohort 2, fun c => ok (cohort 2) c fun l _ => decide (l.cbars[1]? = none)),
      (.cbar 0, cohort 2, fun c => ok (cohort 2) c fun l b => decide (b.arrived.length + 1 + l.exits < l.total * l.waves)),
      (.cbar 0, cohort 1, fun c => ok (cohort 1) c fun l b => decide (l.total * l.waves ≤ b.arrived.length + 1 + l.exits ∧ (cohort 1).inflight = [] ∧ c.aux.half = false ∧ (cohort 1).stopped c.w = false))] :=
  meets (by decide +kernel)

/-- MonitorResults: MON of a line of the module and of host memory; MONC; MONW at once, and parking, and with a restore's return due. -/
theorem witness_monitors :
    let arm := fun (t : Bool) => upW (fun w => { w with mons := w.mons.set 2 { armed := true, line := 0x8000, trig := t } }) comp
    let host := qword 0x3000 (0x0f + 2047 * 2 ^ 45) mem
    let now := fun (c : Ctx) => c.w.rst || (c.w.mons.take 4).all (fun m => !m.armed) || (c.w.mons.take 4).any fun m => m.armed && m.trig
    Meets [(.mon 2 1, mem, fun c => okWith (mem.probe c (c.sp 2).toNat 1 .rd false) (fun x => !x.isHost && (mem.remoteBad x.key).isNone) && mem.inflight.isEmpty),
      (.mon 2 1, host, fun c => okWith (host.probe c (c.sp 2).toNat 1 .rd false) (·.isHost)), (.monc 3, arm true, fun _ => true),
      (.monw 4, comp, fun c => decide (c.w.mons.length = 4 ∧ c.w.hasStub = false) && now c), (.monwG 4, arm true, fun c => decide (c.w.mons.length = 4) && now c),
      (.monw 4, arm false, fun c => decide (c.w.mons.length = 4) && !now c), (.monwG 4, arm false, fun c => decide (c.w.mons.length = 4) && !now c),
      (.monw 4, upW (fun w => { w with rst := true }) (arm false), now)] := meets (by decide +kernel)

/-! ## What performs and completes later -/

/-- AccessPerforms: a piece of each kind that may perform at plain bytes, and one that an earlier access of its part orders before. -/
def one (k : AccKind) : State := { comp with qtbase := 0x20000000, inflight := [{ flight 0x8000 with kind := k, acq := true }] }
theorem witness_performs :
    (∀ k ∈ [AccKind.store, .disc, .load true, .atom 0 (Ty.code .i32), .atom 7 (Ty.code .i32), .atom 1 (Ty.code .f32)], Plain (one k) 0x8000 4 ∧
      ∃ a, ((one k).inflight.find? fun x => x.id == 7) = some a ∧ (a.kind = k ∧ a.pieces.any (fun p => p.k == 0 && mayPerform (one k).inflight a p &&
        ((one k).remoteBad p.addr).isNone) = true ∧ a.host = none ∧ (one k).poison = [] ∧ (∀ g ∈ (one k).groups, ∀ b ∈ g.bars, b.arrivals = 0) ∧
        ∀ b ∈ (one k).cbars, b.arrived = [])) ∧
    let late : State := { comp with inflight := [flight 0x8000, { flight 0x8002 with id := 8 }] }
    ∃ a, (late.inflight.find? fun x => x.id == 8) = some a ∧ ∃ b ∈ late.inflight.takeWhile fun x => x.id != 8, b.wid = a.wid ∧ b.hnd = a.hnd ∧
      inOrder b.order a.order = true ∧ a.isCode = false ∧ b.isCode = false ∧ ∃ p ∈ a.pieces, p.k = 0 ∧ ∃ x ∈ b.pieces, x.addr < p.addr + p.n ∧ p.addr < x.addr + x.n := by
  have h : ∀ k ∈ [AccKind.store, .disc, .load true, .atom 0 (Ty.code .i32), .atom 7 (Ty.code .i32), .atom 1 (Ty.code .f32)], (plainB (one k) 0x8000 4 &&
      someWith ((one k).inflight.find? fun x => x.id == 7) (fun a => decide (a.kind = k ∧ a.pieces.any (fun p => p.k == 0 && mayPerform (one k).inflight a p &&
        ((one k).remoteBad p.addr).isNone) = true ∧ a.host = none ∧ (one k).poison = [] ∧ (∀ g ∈ (one k).groups, ∀ b ∈ g.bars, b.arrivals = 0) ∧
        ∀ b ∈ (one k).cbars, b.arrived = []))) = true := by decide +kernel
  refine ⟨fun k hk => ?_, some_of' (by decide +kernel)⟩
  obtain ⟨hp, ha⟩ := Bool.and_eq_true_iff.mp (h k hk)
  exact ⟨plain_of hp, some_of' ha⟩

/-- LongLatencyCompletes: a load of one register that has performed in every quad. -/
def loaded : State := upW (fun w => { w with pend := [{ id := 9, quads := 0xffff, win := none, vdst := [16], vres := [(64 * 16, 5), (64 * 16 + 63, 6)] }] }) comp
theorem witness_completes : ∃ w, loaded.wave? 1 = some w ∧ (w.trapped = [] ∧ (w.pend.map (·.id)).Nodup ∧ ∃ p ∈ w.pend, p.id = 9 ∧ loaded.readyQuads p ≠ 0 ∧
    (p.vres.map (·.1)).Nodup ∧ (p.sres.map (·.1)).Nodup ∧ p.hnd = false) := some_of' (by decide +kernel)

/-! ## The Easel, accumulators, blocks -/

/-- Parameters of a PRIME of one column and one block, and of an MMA of one row at palette offset 0, with fd1. -/
def primeS : State := setS [(16, 1), (17, 1)] blocks
def mmaS : State := setS [(16, 0), (17, 64), (18, 128), (19, 0x00010001)] blocks
def queued (n : Nat) (s : State) : State := upC (fun c => { c with easel := List.replicate n { oid := 0, wid := 9, gid := 9, mma := true, can := 0, batch := 0, opix := 0 } }) s
/-- What `easelFits` asks of an MMA and of a PRIME. -/
def mmaFits (s : State) (c : Ctx) (can tile : Nat) (par : List Word) : Bool :=
  let p := mmaPar ((par[3]?).getD 0)
  someWith (s.mmaDesc c.g.ctx par) fun d => decide (p.nsel ≠ 3 ∧ p.zero = 0 ∧ p.m ≤ 32 ∧ (p.pair = true → can % 2 = 0) ∧
      can + (if p.pair then 2 else 1) * p.kc ≤ c.g.cans.length ∧ (if p.nsel = 2 then tile + 1 else tile) < c.g.tiles.length ∧
      d.dbase % 64 = 0 ∧ d.sbase % 64 = 0 ∧ d.obase % 64 = 0 ∧ ∀ e ∈ mmaExtents d p, e.1 + e.2 ≤ c.g.psize)
def owns (s : State) (c : Ctx) : Bool := decide ((s.core c.w.core).acsown.toNat % 2 ^ 16 = c.g.ctx)

/-- EaselQueue: room, a full queue, a full open batch, another context's store, and the end of a wait. -/
theorem witness_easel :
    let fits := fun (c : Ctx) => mmaFits mmaS c 0 0 ((List.range 4).map fun j => c.s (16 + j)) && owns mmaS c
    let primes := fun (c : Ctx) => owns primeS c && decide (c.s 16 = 1 ∧ c.s 17 = 1 ∧ c.s 18 = 0 ∧ c.s 19 = 0 ∧ 0 < c.g.cans.length) &&
      someWith (primeS.primeDesc c.w.core c.g.ctx (c.sp 3).toNat) fun x => !x.2.isWide
    Meets [(.mma 3 0 0 4, mmaS, fits), (.mma 3 0 0 4, queued 128 mmaS, fits), (.prime 3 0 3 4, primeS, primes),
      (.mma 3 0 0 4, upW (fun w => { w with batch := { nopen := 64, left := 64 } }) mmaS, fun c => fits c && decide (c.w.batch.nopen = 64 ∧ c.w.batch.closed.length < 16)),
      (.mma 3 0 0 4, upC (fun c => { c with acsown := 7 }) mmaS, fun c => decide (((upC (fun c => { c with acsown := 7 }) mmaS).core c.w.core).acsown.toNat % 2 ^ 16 ≠ c.g.ctx)),
      (.mfence 3, blocks, fun c => decide (c.w.batch.closed.length < 16)),
      (.mfence 3, upW (fun w => { w with batch := { closed := List.replicate 16 (0, 1), left := 1 } }) blocks, fun c => decide (c.w.batch.closed.length = 16)),
      (.bwait 3 2, blocks, fun c => decide (c.w.batch.faults = [] ∧ c.w.batch.replay = false ∧ c.w.batch.closed.length ≤ 2)),
      (.bwait 3 2, upW (fun w => { w with batch := { closed := List.replicate 3 (0, 1) } }) blocks, fun c => decide (c.w.batch.faults = [] ∧ 2 < c.w.batch.closed.length)),
      (.bwaitAll 3, blocks, fun c => decide (c.w.batch.faults = [] ∧ c.w.batch.replay = false ∧ c.w.batch.closed = [] ∧ c.w.batch.left = 0))] ∧
    WaitsFor (.mma 3 0 0 4) (waiting (.mma 3 0 0 4) mmaS) (fun c => c.w.batch.faulted = false ∧ (mmaS.core c.w.core).easel = [] ∧ (waiting (.mma 3 0 0 4) mmaS).opFirst c = true) ∧
    WaitsFor (.mma 3 0 0 4) (waiting (.mma 3 0 0 4) (queued 128 mmaS)) (fun c => ((queued 128 mmaS).core c.w.core).easel.length = 128) ∧
    WaitsFor (.bwait 3 2) (waiting (.bwait 3 2) blocks) (fun c => c.w.batch.faults = [] ∧ c.w.batch.closed.length ≤ 2) :=
  ⟨meets (by decide +kernel), part_of' (by decide +kernel), part_of' (by decide +kernel), part_of' (by decide +kernel)⟩

/-- EaselEffects: an MMA and a PRIME at the head of the queue. -/
def head (mma : Bool) (par : List Word) : EOp := { oid := 3, wid := 1, gid := 1, mma, can := 0, addr := 0x8000, par, batch := 0, opix := 0 }
theorem witness_easelEffects :
    let s := upC (fun c => { c with easel := [head true [0, 64, 128, 0x00010001]] }) blocks
    let p := mmaPar 0x00010001
    (∃ d, s.mmaDesc 0 [0, 64, 128, 0x00010001] = some d ∧
      (fun d => okWith (s.mmaRows { ctx := 0, core := some 0, pal := some (0, 0) } d p).eval.1 fun rows => decide (rows.length = 1)) d = true) ∧
    (s.core 0).bad = [] ∧ s.inflight = [] ∧ s.upsets = [] ∧ (head true []).raced = [] ∧ (head true []).rid = none ∧ (head false []).again = false ∧ p.m = 1 ∧ ((mmaTargets 0 p).all fun t => decide (t.1 < 2)) = true ∧
    let u := upC (fun c => { c with easel := [head false [1, 1, 0, 0]] }) blocks
    ∃ x, u.primeStart 0 0 (head false [1, 1, 0, 0]) = .ok x ∧
      (fun x => decide (x.1 = 0 ∧ x.2.1 = 0 ∧ x.2.2.2.isWide = false) && readsB u (u.primeBlocks { ctx := 0, core := some 0, errs := [] } x.2.2.2 x.1 x.2.1 1 1).eval fun _ => true) x = true := by
  and_intros <;> first | decide +kernel | exact some_of (by decide +kernel) | exact ok_of (by decide +kernel)

/-- AccumulatorResults. -/
theorem witness_accumulators :
    let quiet := fun (s : State) (t n : Nat) (c : Ctx) => owns s c && decide ((s.core c.w.core).bad = [] ∧ t + n ≤ c.g.tiles.length ∧ c.g.tiles.Nodup) &&
      (List.range n).all fun k => !s.racing c (c.g.tileAt (t + k))
    let w := setS [(6, 0x8000)] (upC (fun c => { c with acsown := 0 }) (paged (stand .compute (wave 32))))
    Meets [(.accz 3 0 1, blocks, quiet blocks 0 2), (.accwr 3 1 32 0, blocks, fun c => quiet blocks 1 1 c && decide (c.windows = 1)),
      (.accwr 3 0 64 1, blocks, quiet blocks 0 1), (.accrdReg 0 3 0 0 15 0, blocks, quiet blocks 0 1), (.accrdReg 3 3 1 64 3 1, blocks, quiet blocks 1 1),
      (.accrdMem 0 3 0 3 8, w, fun c => quiet w 0 1 c && decide ((c.sp 3).toNat % 16 = 0 ∧ Ty.ofCode 8 ≠ none) &&
        [0, 1023].all fun k => (memKey w c 4 .wr true (((c.sp 3).toNat + k * 4) % 2 ^ 64)).isSome),
      (.setscA 3 8, blocks, fun _ => true), (.setscB 3 8, blocks, fun _ => true)] := meets (by decide +kernel)

/-- BlockResults: QNTZ of a block in its place, and one out of place; DQNZ and OLRD. -/
theorem witness_blocks :
    let q := fun (s : State) (c : Ctx) (k : Nat → Bool) => okWith (s.blockAt c (c.sp 3).toNat ⟨rkPerm, cPerm, (c.sp 3).toNat, true⟩) fun x => k x.2.1 &&
      (let xs := (List.range 32).map fun j => if bitAt c.m0 (4 * c.part + j) then Fmt.b32.value (c.v 8 (4 * c.part + j)).toNat else .zero
       let y := (QState.block { blk := 0, count := 0, clamped := false } x.1 (some 0) x.2.1 x.2.2 xs)
       !y.full && (y.clears ++ y.puts).all fun z => (memKey s c z.2.1 .wr true z.1).isSome)
    let odd := setS [(6, 0x8020)] blocks
    let rd := fun (c : Ctx) => blocks.inflight.isEmpty && okWith (blocks.blockAt c (c.sp 3).toNat ⟨rkPerm, cPerm, (c.sp 3).toNat, false⟩) fun x =>
      (List.range 32).all fun ln => readsB blocks (blocks.takeElem { ctx := 0, core := some 0, errs := c.aux.errs, window := true } x.1 (x.2.1 + ln / 32) (32 * x.2.2 + ln % 32) false).eval fun _ => true
    let ol := fun (c : Ctx) => okWith (blocks.blockAt c (c.sp 3).toNat ⟨rkPerm, cPerm, (c.sp 3).toNat, false⟩) fun x =>
      (List.range 16).all fun k => readsB blocks (blocks.takeNum { ctx := 0, core := some 0, errs := c.aux.errs, window := true } (x.1.listVa (x.2.1 / 32) x.2.2 + 4 * k) 4).eval fun _ => true
    Meets [(.qntz 3 8 3 0 0, blocks, fun c => decide (c.bank.qtc = 0) && q blocks c (· == 0)), (.qntz 3 8 3 0 0, odd, fun c => decide (c.bank.qtc = 0) && q odd c (· == 1)),
      (.dqnz 3 8 3 4, blocks, rd), (.olrd 2 8 3 4, blocks, fun c => blocks.inflight.isEmpty && ol c)] := meets (by decide +kernel)

/-- EaselSteps: a NaN block, a zero block, blocks of mantissas 3 and -2 without outliers. -/
theorem witness_easelSteps :
    let b : Block := { e := 128, tag := 0, nesc := 0, w := 8, q := List.replicate 32 3 }
    let a : Block := { b with q := List.replicate 32 (-2) }
    ({ b with e := 255 } : Block).e = 255 ∧ ({ b with e := 0 } : Block).e = 0 ∧ a.plain = true ∧ b.plain = true ∧
      ∀ k : Nat, k < 32 → a.esc k = false ∧ b.esc k = false ∧ (a.mant k).natAbs ≤ 2 ^ 15 ∧ (b.mant k).natAbs ≤ 2 ^ 15 := by decide +kernel

/-- QuantisesBlocks, BlockStores: 32 times 1.0, a NaN, zeros, under a descriptor that allows no outliers. -/
theorem witness_quantises :
    let d := descFields (fdOf 0x8000 0x9000 0xa000)
    let ones := List.replicate 32 (Fl.fin false 1 1)
    d.esc = false ∧ 2 ≤ (d.widths[0]?).getD 2 ∧ ones.length = 32 ∧ (ones.any (fun x => x.isNan || x.isInf) = false ∧ ones.all Fl.isZero = false) ∧
      (∃ b, quantise d (some 0) 0 ones = some b ∧ (b.e < 256 ∧ b.tag < 4 ∧ b.elected.length ≤ 16)) ∧
      (∃ b, quantise d (some 0) 0 (Fl.nan :: ones.drop 1) = some b ∧ b.e = 255) ∧ ∃ b, quantise d (some 0) 0 (List.replicate 32 Fl.zero) = some b ∧ b.e = 0 :=
  ⟨by decide, by decide, by decide, by decide, some_of' (by decide +kernel), some_of' (by decide +kernel), some_of' (by decide +kernel)⟩

/-! ## The fetch unit -/

/-- FetchUnitResults, FetchesComplete: a gather of the first element of line 0; TSMP of NaN coordinates and misaligned; a box node and a triangle of zeros. -/
def words (a : Nat) (ws : List DWord) (s : State) : State := (ws.zipIdx).foldl (fun u x => qword (a + 8 * x.2) x.1.toNat u) s
theorem witness_fetch :
    let s := setV [(8, 0x7000), (12, 0x7fc00000), (32, 0x8000)] (words 0x7000 (fdOf 0x8000 0x9000 0xa000) (setS [(4, 0x7000)] (paged narrow)))
    let tex := words 0x7000 [0x10000, 0x0008000000000000, 0, 0, 0, 0, 0, 0] s
    let each := fun (c : Ctx) (p : Nat → Bool) => s.inflight.isEmpty && (List.range 4).all p
    Meets [(.fgath 16 2 3 0 none none, s, fun c => each c fun ln =>
        readsB s (s.gathLane (fetchVia c) (pair64 (c.v 8 ln) (c.v 9 ln)).toNat (c.v 10 ln).toNat (c.v 11 ln).toNat false) fun _ => true),
      (.tsmp 4 2 3 3 0 none none, tex, fun c => decide ((c.sp 2).toNat % 64 = 0) && each c fun ln => readsB tex (tex.sampleLane (fetchVia c) c (c.sp 2).toNat 12 0 ln) fun y =>
        decide (y = [0, 0, 0, 0])),
      (.tsmp 4 2 3 3 0 none none, setS [(4, 0x7008)] s, fun c => decide ((c.sp 2).toNat % 64 ≠ 0)),
      (.rbox 1 16 3, s, fun c => each c fun ln => decide ((c.v 32 ln).toNat % 128 = 0) && readsB s (s.take (fetchVia c) (c.v 32 ln).toNat 128).eval fun _ => true),
      (.rtri 1 16 3, s, fun c => each c fun ln => decide ((c.v 32 ln).toNat % 16 = 0) && readsB s (s.take (fetchVia c) (c.v 32 ln).toNat 40).eval fun _ => true)] :=
  meets (by decide +kernel)

/-- GatheredElements: a misaligned handle, an invalid descriptor, a float page with an element beyond KBLK and one below. -/
theorem witness_gathered :
    let s := words 0x7000 ((fdOf 0x8000 0x9000 0xa000).set 4 0x0001040008080808) (paged comp)
    let v : Via := { ctx := 0 }
    let of := fun (bs : List Byte) => descOf ((List.range 8).map fun i => BitVec.ofNat 64 (ofBytes ((bs.drop (8 * i)).take 8)))
    okWith (s.take v 0x7000 64 []).1 (fun bs => someWith (of bs) fun d => decide (32 * d.kblk ≤ 32 ∧ 0 < 32 * d.kblk ∧ d.csrc = 1 ∧ d.dbase = 0x8000)) = true ∧
      okWith (s.take v 0x6000 64 []).1 (fun bs => (of bs).isNone) = true ∧ FindsNum s v 0x8000 2 0 := by
  refine ⟨by decide +kernel, by decide +kernel, ?_⟩
  exact finds (bs := [0, 0]) (by decide +kernel)

/-- Texels: the first texel of a texture of four 8-bit components, a tap beside it, and point filtering at (0, 0). -/
theorem witness_texels :
    let t : Tex := { base := 0x8000, fmt := 3, levm1 := 0, laym1 := 0, h := 8, w := 8, lmax := 0, lmin := 0, lbias := 0, bord := false, av := 0, au := 0, amax := 1, filt := 0 }
    isAstc t.fmt = false ∧ 0 < t.w ∧ 0 < t.h ∧ t.au < 4 ∧ ({ t with au := 3 } : Tex).au = 3 ∧
      (∀ ks, ∃ ks', (paged comp).take { ctx := 0 } (t.base + 0 * ((t.w * texBytes t.fmt + 63) / 64 * 64) + 0 * texBytes t.fmt) (texBytes t.fmt) ks = (.ok [0, 0, 0, 0], ks')) ∧
      ∃ cs, (cs.length = 4 ∧ ∀ ks, ∃ ks', (paged comp).takeTexel { ctx := 0 } t 0 0 0 0 ks = (.ok cs, ks')) := by
  refine ⟨by decide, by decide, by decide, by decide, by decide, take_any (by decide +kernel), texelOf 3 [0, 0, 0, 0], by decide, fun ks => ?_⟩
  obtain ⟨ks', e⟩ := take_any (s := paged comp) (v := { ctx := 0 }) (va := 0x8000) (n := 4) (bs := [0, 0, 0, 0]) (by decide +kernel) ks
  exact ⟨ks', by
    show ((do let bs ← (paged comp).take { ctx := 0 } 0x8000 4; return texelOf 3 bs : Rd (List Nat)) ks) = _
    simp [bind, ExceptT.bind, ExceptT.mk, ExceptT.bindCont, StateT.bind, pure, ExceptT.pure, StateT.pure, e]⟩

end Sys2Proof.Tests
end

