-- ==== Sys2Proof/Tests/WitnessesGraphics.lean ====
section
/-!
SUPPORT. Witnesses: for each statement with hypotheses a state and operands that meet them together: mesh output, pixels, work lists and glaze.
-/
namespace Sys2Proof.Tests
open Machine
set_option Elab.async false

/-! ## Mesh output and pixels -/

/-- The mesh wave's group belongs to a launch with a draw. -/
def drawn (d : Draw) (s : State) : State := { s with taken := [{ lid := 1, words := [], draw := some d, placed := 1, total := 1 }] }
def counted (nv np : Nat) : State → State := upG fun g => { g with mesh := { declared := true, nv, np } }
def strict : State → State := upG fun g => { g with strict := true }
/-- Fragments of lanes 0 and 1 at two pixels of a draw whose target 0 has a colour format. -/
def frags : Draw :=
  { phase := .raster, block := List.replicate 6 0 ++ [0x1000000000008000],
    frags := [{ gid := 1, wave := 0, lane := 0, x := 0, y := 0, prim := 0, helper := false, cover := 15 },
              { gid := 1, wave := 0, lane := 1, x := 1, y := 0, prim := 0, helper := true }] }
def pix : State := drawn frags pixel

/-- MeshAndPixels: each path. -/
theorem witness_mesh :
    let two := counted 2 1 (setV [(9, 1)] mesh)
    let far := counted 2 1 (setV [(8, 7)] mesh)
    let big := setS [(3, 300)] mesh
    Meets [(.mcnt 3 4, drawn { phase := .attrs } mesh, fun c => (drawn { phase := .attrs } mesh).attrPass c.g),
      (.mcnt 3 4, counted 1 1 mesh, fun c => !mesh.attrPass c.g && c.g.mesh.declared),
      (.mcnt 3 4, strict big, fun c => decide (256 < (c.s 3).toNat) && c.g.strict && !c.g.mesh.declared),
      (.mcnt 3 4, big, fun c => decide (256 < (c.s 3).toNat) && !c.g.strict && !c.g.mesh.declared),
      (.mvtx 8 2 3, two, fun c => (List.range 64).all fun l => decide ((c.v 8 l).toNat < c.g.mesh.nv)),
      (.mvtx 8 2 3, far, fun c => (List.range 64).all fun l => decide (c.g.mesh.nv ≤ (c.v 8 l).toNat)),
      (.mvtx 8 2 3, strict far, fun c => c.g.strict && decide (c.g.mesh.nv ≤ (c.v 8 0).toNat)),
      (.mvtx 8 2 5, drawn { phase := .attrs } two, fun c => (drawn { phase := .attrs } two).attrPass c.g),
      (.mprim 8 9, drawn { phase := .attrs } two, fun c => (drawn { phase := .attrs } two).attrPass c.g),
      (.mprim 8 9, two, fun c => (List.range 64).all fun l => decide ((c.v 8 l).toNat < c.g.mesh.np ∧ (c.v 9 l).toNat < c.g.mesh.nv)),
      (.mprim 8 9, setV [(9, 5)] two, fun c => decide ((c.v 8 0).toNat < c.g.mesh.np ∧ c.g.mesh.nv ≤ (c.v 9 0).toNat)),
      (.mprim 8 9, strict far, fun c => c.g.strict && decide (c.g.mesh.np ≤ (c.v 8 0).toNat))] := meets (by decide +kernel)

theorem witness_pixels :
    let kill := setM [(2, 1)] pix
    Meets [(.vintp 8 4 1, pix, fun _ => true), (.pxw 2 0, pixel, fun c => decide (pixel.drawOf c.g = none)),
      (.pxw 2 0, pix, fun c => someWith (pix.drawOf c.g) fun d => decide (d.cfmt 0 ≠ 0)),
      (.pxw 2 1, pix, fun c => someWith (pix.drawOf c.g) fun d => decide (d.cfmt 1 = 0)),
      (.pxk 2, pix, fun c => !c.hnd && decide (c.m0 &&& c.mask 2 = 0)),
      (.pxk 2, kill, fun c => !c.hnd && decide (c.m0 &&& c.mask 2 = 1) && (kill.drawOf c.g).isSome),
      (.pxk 0, pix, fun c => !c.hnd && decide (c.m0 ≠ 0))] := meets (by decide +kernel)

/-! ## Work lists -/

/-- The group's list 0 with its ring at 0x7000, of 2^`k` slots, from `h` to `t`. -/
def listed (k : Nat) (h t : Word) (s : State) : State :=
  { paged s with qtbase := 0x20000000, lists := [{ scope := 1, cohort := false, idx := 0, kcap := k, rbase := 0x7000, entry := 0x6000, head := h, tail := t }] }
/-- A second wave of the group, whose part stands in a WQUI. -/
def quiet : Wave :=
  { wave 4 with wid := 2, idx := 1, split := { kind := 1, st := 4, qmask := 1, lmask := 15 } :: List.replicate 15 {},
                aux := { park := .wqui 7 } :: List.replicate 15 {} }
def withQuiet (w : Wave) (s : State) : State := { s with waves := s.waves ++ [w] }

/-- WorkListResults: WAPP of a bad index, without room, and with room; WTAKE of no list, and of two items; WQUI in its three ways. -/
theorem witness_lists :
    let s := withQuiet quiet (listed 3 5 5 narrow)
    let key := fun (u : State) (c : Ctx) (n : Need) (k : Nat) => decide (ringKey u c n (0x7000 + 4 * (k % 8)) = some (0x7000 + 4 * (k % 8)))
    let calm := fun (u : State) (c : Ctx) => u.inflight.isEmpty && decide ((u.waves.map (·.wid)).Nodup ∧ u.poison = [])
    let taken := { listed 3 5 7 narrow with taken := [{ lid := 1, words := [], total := 1, placed := 1 }] }
    Meets [(.wapp 8 9, setV [(9, 1)] s, fun c => (s.listAt c.g 1).isNone),
      (.wapp 8 9, listed 3 1 7 narrow, fun c => someWith ((listed 3 1 7 narrow).listAt c.g 0) fun y => decide (2 ^ y.kcap < y.count + 4)),
      (.wapp 8 9, s, fun c => calm s c && (List.range 4).all fun l => key s c .wr (5 + l) && plainB s (0x7000 + 4 * ((5 + l) % 8)) 4 &&
        (List.range 4).all fun j => (s.remoteBad (0x7000 + 4 * ((5 + l) % 8) + j)).isNone),
      (.wtake 8 3 1, narrow, fun c => (narrow.listAt c.g 0).isNone),
      (.wtake 8 3 1, taken, fun c => calm taken c && someWith (taken.listAt c.g 0) fun y => decide (y.count = 2) && (List.range 2).all fun k => key taken c .rd (5 + k)),
      (.wqui 3, taken, fun c => !taken.scopeEmpty c.g),
      (.wqui 3, withQuiet { quiet with aux := [] } narrow, fun c => (withQuiet { quiet with aux := [] } narrow).scopeEmpty c.g &&
        decide (¬ c.w.hasStub ∧ c.w.records c.ent = [] ∧ c.aux.dict = none ∧ c.ent < c.w.aux.length ∧ c.g.state = .resident)),
      (.wqui 3, s, fun c => s.scopeEmpty c.g && decide (s.launch? c.g.lid = none ∧ ¬ c.w.hasStub ∧ c.w.records c.ent = [] ∧ c.aux.dict = none ∧ c.ent < c.w.aux.length ∧ s.stopped c.w = false ∧ c.g.state = .resident))] ∧
    idleWave quiet ∧ ¬ idleWave { quiet with aux := [] } ∧ NotInQuiet (wave 4) ∧
    WaitsFor (.wapp 8 9) (waiting (.wapp 8 9) s) (fun c => c.hnd = false) ∧
    WaitsFor (.wapp 8 9) (waiting (.wapp 8 9) (listed 3 1 7 narrow)) (fun c => c.hnd = false) :=
  ⟨meets (by decide +kernel), .inr ⟨by decide, by decide, 0, by decide, 7, by decide +kernel⟩,
    by rintro (h | ⟨_, _, e, he, d, h⟩)
       · revert h; decide +kernel
       · have := h.2.2; revert this; unfold Wave.auxAt; simp,
    fun a ha d h => by rw [(List.mem_replicate.mp ha).2] at h; exact Park.noConfusion h, part_of' (by decide +kernel), part_of' (by decide +kernel)⟩

/-! ## Glaze -/

/-- A pixel group with its target in slot 0: lists at 0x20000, pool at 0x11000 with `pages` pages, directory at 0x12000; its fragment of lane 0 at pixel (0, 0). -/
def glz (pages : Nat) : State :=
  let f : Frag := { gid := 1, wave := 0, lane := 0, x := 0, y := 0, prim := 0, helper := false, cover := 15 }
  let d : Draw := { phase := .raster, frags := [f] }
  upG (fun g => { g with glz := [0x10000, 0, 0, 0] }) (setV [(4, 0x3f800000), (7, 1)] (drawn d (paged (stand .pixel (wave 4))))) |>
    words 0x10000 [0x20000, 0x11000, 0x12000, 0] |> qword 0x11000 0xffffff |> qword 0x11010 pages |> qword 0x12000 0x13000
/-- The pixel's list holds one node of half opacity. -/
def full : State := qword 0x20000 0x010 (words 0x13000 [0x380000003f800000, 0xffffff0138000000] (glz 1))
/-- An earlier fragment of the pixel has not exited. -/
def early (s : State) : State :=
  s.updDraw 1 fun d => { d with frags := { gid := 1, wave := 1, lane := 9, x := 0, y := 0, prim := 0, helper := false, cover := 15 } :: d.frags }
/-- An earlier launch of the context and queue is still under way. -/
def behind (s : State) : State := { s with taken := { lid := 0, words := [], total := 1 } :: s.taken }
/-- What the lane reads of the target and of its list in `full`, and inserts in `glz`. -/
def target : GTarget := { hbase := 0x20000, pctl := 0x11000, pdir := 0x12000, rule := 0, degrade := false, layers := 1, h := 1, w := 1 }
def node : GNode := { depth := 0x3f800000, r := 0, g := 0x3800, b := 0, a := 0x3800, flags := 0, cov := 1 }
def nodes : GList := { va := 0x20000, idx := [0], nodes := [node] }

/-- The turn of GLZIN, GLZRD and GLZRES, and of GLZCLR. -/
theorem turn_of {s : State} {c : Ctx} {i : Instr} (hi : ∀ r z, i ≠ .glzclr r z) : s.glzTurn c = true ↔ ¬ glazeWaits s c i := by
  have : glazeWaits s c i ↔ ∃ d, s.drawOf c.g = some d ∧ ∃ x ∈ s.glzLanes c,
      ∃ f ∈ d.frags.takeWhile fun f => !(f.gid == c.g.gid && f.wave == c.w.idx && f.lane == x.1), f.done = false ∧ f.x = x.2.x ∧ f.y = x.2.y := by
    unfold glazeWaits; split <;> simp_all
  rw [this]; unfold State.glzTurn
  cases h : s.drawOf c.g with
  | none => simp
  | some d =>
    simp only [List.all_eq_true, Bool.or_eq_true, bne_iff_ne, Option.some.injEq]
    constructor
    · rintro k ⟨_, rfl, x, hx, f, hf, hd, he, hy⟩
      rcases k x hx f hf with (k | k) | k
      · rw [hd] at k; cases k
      · exact k he
      · exact k hy
    · intro k x hx f hf
      cases hd : f.done with
      | true => exact .inl (.inl rfl)
      | false =>
        by_cases he : f.x = x.2.x
        · exact .inr fun hy => k ⟨d, rfl, x, hx, f, hf, hd, he, hy⟩
        · exact .inl (.inr he)
theorem clearTurn_of {s : State} {c : Ctx} {r : BitVec 5} {z : BitVec 2} : s.clearTurn c = true ↔ ¬ glazeWaits s c (.glzclr r z) := by
  unfold glazeWaits State.clearTurn
  cases h : s.launch? c.g.lid with
  | none => simp
  | some l => cases hd : l.draw <;> simp [hd]

/-- GlazeResults: each operation on its turn, before its turn, with the pool empty, and at the end of the wait for its turn. -/
theorem witness_glaze :
    let quiet := fun (s : State) (c : Ctx) => s.inflight.isEmpty && s.glzTurn c && (s.glzLanes c).map (·.1) == [0]
    let reads := fun (s : State) (c : Ctx) => quiet s c && (s.glzLanes c).all fun y => readsB s (s.glzReadLane c 0 y.2 .rd).eval (· == (target, nodes))
    let both := fun (s : State) (c : Ctx) => quiet s c && (s.glzLanes c).all fun y => readsB s (s.glzReadLane c 0 y.2 .both).eval (· == (target, nodes)) &&
      readsB s (poolLook s c y target nodes) fun p => p.isSome
    let inserts := fun (s : State) (n : Option Nat) (c : Ctx) => quiet s c && (s.glzLanes c).all fun y =>
      readsB s (s.glzinLane c 0 4 y.2 y.1).eval (· == (target, some ({ va := 0x20000 }, { node with g := 0, a := 0 }))) &&
      (s.glzSupply c.glzVia target [0]).1.all fun y => okWith y.2 (· == n)
    let clears := fun (c : Ctx) => full.inflight.isEmpty && full.clearTurn c && readsB full (full.takeTarget c.glzVia c.g 0).eval (· == target) &&
      readsB full (Rd.eval ((target.rect 0 0 1 1).mapM fun x => full.takeList c.glzVia target x.1 x.2 .both)) (· == [nodes]) &&
      readsB full (full.takePoolIf c.glzVia target true).eval (fun p => p.isSome)
    Meets [(.glzrd 2 8 1 0, full, reads full), (.glzres 2 8 1 0, full, both full), (.glzin 1 0, glz 1, inserts (glz 1) (some 0)),
      (.glzin 1 0, glz 0, inserts (glz 0) none), (.glzrd 2 8 1 0, early full, fun c => !(early full).glzTurn c),
      (.glzclr 2 0, setS [(5, 0x00010001)] full, fun c => clears c && decide (c.s 4 = 0 ∧ c.s 5 = 0x00010001)),
      (.glzclr 2 0, behind full, fun c => !(behind full).clearTurn c)] ∧
    WaitsFor (.glzrd 2 8 1 0) (waiting (.glzrd 2 8 1 0) full) (fun c => reads (waiting (.glzrd 2 8 1 0) full) c = true) ∧
    WaitsFor (.glzres 2 8 1 0) (waiting (.glzres 2 8 1 0) full) (fun c => both (waiting (.glzres 2 8 1 0) full) c = true) ∧
    WaitsFor (.glzin 1 0) (waiting (.glzin 1 0) (glz 1)) (fun c => inserts (waiting (.glzin 1 0) (glz 1)) (some 0) c = true) ∧
    WaitsFor (.glzin 1 0) (waiting (.glzin 1 0) (early (glz 1))) (fun c => (waiting (.glzin 1 0) (early (glz 1))).glzTurn c = false) :=
  ⟨meets (by decide +kernel), part_of' (by decide +kernel), part_of' (by decide +kernel), part_of' (by decide +kernel), part_of' (by decide +kernel)⟩

/-- GlazeLists, GlazePools: a merge in a list of one node; allocation from FREEHEAD, from FRESH, and of a pool without nodes. -/
theorem witness_glazePools :
    let s := glz 1
    let v : Via := { ctx := 0, core := some 0 }
    let p : Pool := { freeHead := 0, fresh := 3, npages := 1, used := 0 }
    nodes.nodes ≠ [] ∧ (∀ m ∈ [node, node], (f32v m.depth).isNan = false) ∧ (p.freeHead ≠ 0xffffff ∧ p.freeHead < p.cap) ∧
      (∀ ks, ∃ ks', s.takeNodeVa v target p.freeHead ks = (.ok 0x13000, ks')) ∧ (∀ ks, ∃ ks', s.takeFor v .both 0x13000 16 ks = (.ok (List.replicate 16 0), ks')) ∧
      (({ p with freeHead := 0xffffff } : Pool).freeHead = 0xffffff ∧ p.fresh < p.cap) ∧ (∀ ks, ∃ ks', s.takeNodeVa v target p.fresh ks = (.ok 0x13030, ks')) ∧
      (∀ ks, ∃ ks', s.takeFor v .both 0x13030 16 ks = (.ok (List.replicate 16 0), ks')) ∧ ({ p with npages := 0, fresh := 0 } : Pool).cap ≤ 0 := by
  have va : ∀ (i x : Nat) bs, okWith ((glz 1).take { ctx := 0, core := some 0 } (target.pdir + 8 * (i / 256)) 8 []).1 (fun y => y == bs) = true →
      ofBytes bs + 16 * (i % 256) = x → ∀ ks, ∃ ks', (glz 1).takeNodeVa { ctx := 0, core := some 0 } target i ks = (.ok x, ks') := fun i x bs h e ks => by
    obtain ⟨ks', k⟩ := finds h ks
    exact ⟨ks', by simp [State.takeNodeVa, bind, ExceptT.bind, ExceptT.mk, ExceptT.bindCont, StateT.bind, pure, ExceptT.pure, StateT.pure, k, e]⟩
  have fo : ∀ (a : Nat), okWith ((glz 1).span (some 0) 0 a 16 .both false) (fun _ => true) = true →
      okWith ((glz 1).take { ctx := 0, core := some 0 } a 16 []).1 (fun y => y == List.replicate 16 0) = true →
      ∀ ks, ∃ ks', (glz 1).takeFor { ctx := 0, core := some 0 } .both a 16 ks = (.ok (List.replicate 16 0), ks') := fun a h k ks => by
    obtain ⟨ks', e⟩ := take_any k ks
    obtain ⟨x, hx, -⟩ := ok_of h
    exact ⟨ks', by simp only [State.takeFor, hx]; exact e⟩
  exact ⟨by decide, by decide +kernel, by decide, va 0 0x13000 [0, 0x30, 1, 0, 0, 0, 0, 0] (by decide +kernel) (by decide), fo _ (by decide +kernel) (by decide +kernel),
    by decide, va 3 0x13030 [0, 0x30, 1, 0, 0, 0, 0, 0] (by decide +kernel) (by decide), fo _ (by decide +kernel) (by decide +kernel), by decide⟩

end Sys2Proof.Tests
end

