-- ==== Sys2Proof/Tests/WitnessesDevice.lean ====
section
/-!
SUPPORT. Witnesses: for each statement with hypotheses a state and operands that meet them together: events of waves, launches, groups, draws, save images.
-/
namespace Sys2Proof.Tests
open Machine
set_option Elab.async false

/-! ## Events of waves -/

/-- Entry 0's part stands in state `st`, has waited `n` clk, and has `a` beside it. -/
def stands (st : BitVec 3) (n : BitVec 21) (a : Aux) (w : Wave) : Wave :=
  { w with split := { (w.ent 0) with st, tcnt := n } :: w.split.drop 1, aux := a :: w.aux.drop 1 }
/-- What an event finds of wave 1. -/
def Has (s : State) (P : Wave → Prop) : Prop := ∃ w, s.wave? w.wid = some w ∧ P w
theorem has {s : State} {P : Wave → Prop} [DecidablePred P] (h : someWith (s.wave? 1) (fun w => decide (w.wid = 1 ∧ P w)) = true) : Has s P := by
  obtain ⟨w, hw, h1, hp⟩ := some_of' h
  exact ⟨w, h1 ▸ hw, hp⟩

/-- The part's word is a FUSE, an MMA (which wants width 32), an EXIT of v8. -/
def fused : State := code [encodeWord .fuse] comp
def forced : State := code [encodeWord (.mma 3 0 0 4)] (stand .compute (withTable
  [{ kind := 2, qmask := 0xffff, lmask := 0xffffffffffffffff, jpc := 9 }, { kind := 1, pv := true, parent := 0, qmask := 1, lmask := 15, st := 2, tcnt := 4096 },
   { kind := 1, pv := true, parent := 0, qmask := 0xfffe, lmask := 0xfffffffffffffff0, pc := 3 }]))
/-- A load of v8 has completed in the upper quads only, and the part has stalled at an addition of v8. -/
def missed : State := code [encodeWord (.vadd 0 9 8 8 none)] (upW (fun w => { stands 0 0 { stall := 40 } w with pend := [{ id := 3, quads := 0xff, win := none, vdst := [8] }] }) comp)

theorem witness_waits :
    Has (upW (stands 4 0 { park := .sleep 0 }) comp) (fun w => (w.ent 0).isPart = true ∧ (w.ent 0).st = 4 ∧ (w.auxAt 0).park = .sleep 0) ∧
    Has (upW (stands 4 0 { park := .sleep 5 }) comp) (fun w => (w.ent 0).isPart = true ∧ (w.ent 0).st = 4 ∧ (w.auxAt 0).park ≠ .sleep 0) ∧
    (∃ c, (upW (stands 0 0 { yield := 1 }) comp).ctx? ⟨1, some 0⟩ = some c ∧ c.aux.yield = 1) ∧ (∃ c, comp.ctx? ⟨1, some 0⟩ = some c ∧ c.aux.yield ≠ 1) ∧
    Has (upW (stands 2 4096 {}) fused) (fun w => (w.ent 0).isPart = true ∧ (w.ent 0).st = 2 ∧
      (upW (stands 2 4096 {}) fused).instrAt w.core (w.ent 0).pc = some .fuse ∧ 2 ^ (w.fuseto.toNat % 32) ≤ (w.ent 0).tcnt.toNat) ∧
    Has (upW (stands 2 4095 {}) fused) (fun w => (w.ent 0).isPart = true ∧ (w.ent 0).st = 2 ∧
      (upW (stands 2 4095 {}) fused).instrAt w.core (w.ent 0).pc = some .fuse ∧ (w.ent 0).tcnt.toNat < 2 ^ (w.fuseto.toNat % 32)) :=
  ⟨has (by decide +kernel), has (by decide +kernel), some_of' (by decide +kernel), some_of' (by decide +kernel), has (by decide +kernel), has (by decide +kernel)⟩

theorem witness_splitEvents :
    let lapse := stand .compute (let w := parted 0 1 0; { w with split := w.split.mapIdx fun k x => if k = 2 then { x with tcnt := 4096 } else x })
    Has lapse (fun w => (w.ent 2).isPart = true ∧ (w.ent 2).st = 1 ∧ 2 ^ (w.fuseto.toNat % 32) ≤ (w.ent 2).tcnt.toNat ∧ openAbove w 2 = some 0) ∧
    Has forced (fun w => (w.ent 1).isPart = true ∧ forced.forcedAt w 1 = some 32 ∧ 2 ^ (w.fuseto.toNat % 32) ≤ (w.ent 1).tcnt.toNat ∧ w.aux.length = 16 ∧
      w.split.length = 16 ∧ ∃ k ∈ w.partsIn (fuseSet (w.ent 1).qmask 32), (w.ent k).st = 2) ∧
    ∃ c : Ctx, missed.ctx? ⟨1, some 0⟩ = some c ∧ (∃ i ∈ missed.nextInstr c, ∃ p ∈ c.partial? i, p.quads = 0xff) ∧ (c.w.ent 0).st = 0 ∧
      bitAt c.w.splpol 2 = true ∧ c.w.records 0 = [] ∧ 32 ≤ c.aux.stall ∧ c.w.entWf 0 = true ∧ c.w.split.length = 16 :=
  ⟨has (by decide +kernel), has (by decide +kernel), by
    obtain ⟨c, hc, h, rest⟩ := some_of' (P := fun c : Ctx => someWith (missed.nextInstr c) (fun i => someWith (c.partial? i) fun p => decide (p.quads = 0xff)) = true ∧
      (c.w.ent 0).st = 0 ∧ bitAt c.w.splpol 2 = true ∧ c.w.records 0 = [] ∧ 32 ≤ c.aux.stall ∧ c.w.entWf 0 = true ∧ c.w.split.length = 16)
      (x := missed.ctx? ⟨1, some 0⟩) (by decide +kernel)
    obtain ⟨i, hi, h⟩ := some_of h
    obtain ⟨p, hp, h⟩ := some_of h
    exact ⟨c, hc, ⟨i, hi, p, hp, of_decide_eq_true h⟩, rest⟩⟩

/-- A slot that a trigger reached, a timeout that has run out, a fallback window that is over, a line asked for from another panel. -/
theorem witness_monitorEvents :
    let wake := upW (stands 4 0 { park := .monw 3 none false, fired := 2 }) comp
    let rst := upW (fun w => { stands 4 0 { park := .monw 3 none true } w with rst := true }) comp
    let out := upW (stands 4 0 { park := .monw 3 (some 0) false }) comp
    let trap := upW (fun w => { w with handler := { run := true } }) wake
    let held := upC (fun c => { c with clk := 70000 }) (upW (fun w => { w with mons := { armed := true, fbk := true, held := true, last := some 0 } :: w.mons.drop 1 }) comp)
    let moving := { comp with lines := [{ line := 5, slice := 0, panel := 1, run := 8 }] }
    Has wake (fun w => w.monAt 0 = some (3, none, false) ∧ wake.holdsTrig w = false ∧ (w.auxAt 0).fired ≠ 0 ∧ (w.auxAt 0).dict = none) ∧
    Has rst (fun w => w.monAt 0 = some (3, none, true) ∧ rst.holdsTrig w = false ∧ w.rst = true) ∧
    Has out (fun w => w.monAt 0 = some (3, some 0, false) ∧ (w.auxAt 0).fired = 0 ∧ w.rst = false) ∧
    Has trap (fun w => w.monAt 0 = some (3, none, false) ∧ trap.holdsTrig w = true) ∧
    Has held (fun w => ∃ m ∈ w.mons, m.last = some 0 ∧ m.held = true ∧ 0 + 65536 ≤ (held.core w.core).clk.toNat) ∧
    (∃ r, moving.lines.find? (fun x => x.line == 5) = some r ∧ (8 ≤ r.run ∧ r.panel ≠ r.slice / 16)) :=
  ⟨has (by decide +kernel), has (by decide +kernel), has (by decide +kernel), has (by decide +kernel), has (by decide +kernel), some_of' (by decide +kernel)⟩

/-! ## Queues, launch records, kernel loads -/

/-- The placed core with no wave, pages, the queue table at 0x100000; its queue 0 has a ring of 16 records at 0x300000, is enabled, and holds one record. -/
def ring (tail w2 : Nat) : State :=
  { paged (State.reset.placeWord 32 0) with waves := [], groups := [], qtbase := 0x100000 } |>
    words 0x100000 [0x0800000000300000, BitVec.ofNat 64 tail, BitVec.ofNat 64 w2, 0] |> qword 0x200000 1
/-- A grid record of one group of one wave of kernel 1, and a cohort record. -/
def grid : List DWord := [0x000c000000000001, 0x0001000000000000, 0x0400000000000000, 0, 0, 0, 0, 0, 0x8000, 0, 0, 0, 0, 0, 0, 0]
def offers : State := words 0x300000 grid (ring 1 0x0d)

theorem witness_doorbell :
    let q := fun (s : State) (x : Word) => decide (s.isReady = true ∧ s.hostOk 0 = true ∧ s.poison = []) && decide (readNat s (s.qtbase.toNat + 16) 8 % 2 = 1) &&
      decide ((x - BitVec.ofNat 32 (readNat s (s.qtbase.toNat + 8) 8 / 2 ^ 32)).toNat ≤ 2 ^ (readNat s s.qtbase.toNat 8 / 2 ^ 57 % 32))
    q offers 3 = true ∧ offers.queueOk 0 = true ∧ q (ring 1 0x20d) 3 = true ∧ (ring 1 0x20d).queueOk 0 = false ∧ q (ring 1 0x0c) 3 = false ∧
      readNat (ring 1 0x0c) ((ring 1 0x0c).qtbase.toNat + 16) 8 % 2 = 0 ∧ q offers 17 = false := by decide +kernel

theorem witness_arbiter :
    (∃ r, offers.arbitrate = some r ∧ r.1 = 0) ∧ offers.isReady = true ∧ offers.poison = [] ∧ offers.headRecord 0 = some grid ∧ recordBad (wordAt grid) = [] ∧
    (wordAt grid 0).toNat / 2 ^ 60 ≠ 2 ∧ wordAt grid 11 = 0 ∧ 0 < (wordAt grid 0).toNat % 2 ^ 21 ∧ offers.hasKernels { lid := 0, words := grid, ctx := 0 } = true ∧
    State.arbitrate (ring 0 0x0d) = none ∧ (ring 0 0x0d).isReady = true ∧
    let bad := words 0x300000 [0x300c000000000002] offers
    (∃ r, bad.arbitrate = some r ∧ r.1 = 0) ∧ ∃ ws, bad.headRecord 0 = some ws ∧ recordBad (wordAt ws) ≠ [] := by
  and_intros <;> first | decide +kernel | exact some_of' (by decide +kernel)

/-- An event queue that may launch, with its record at 0x8000 as physical address; and one without a payload. -/
theorem witness_management :
    let s := words 0x8000 grid (words 0x200200 [0x8000000000008000] { ring 0 0 with events := [[7], []] })
    s.eventReady 0 = true ∧ s.events[0]? = some (7 :: []) ∧ 0 < s.evbusy.length ∧ s.eventReady 1 = false := by decide +kernel

/-- The image of one slot at 0x10000: a load record for core 1, kernel slot 2; one without a kernel identifier; one that cannot be read; a conflict. -/
def loadRec (w0 w1 w2 : DWord) : List DWord := [w0, w1, w2, 0, 0, 0, 0x10000, 0]
def loads (ws : List DWord) (s : State) : State := words 0x8000 ws s
theorem witness_kernelLoads :
    let s := ring 0 0
    let ok := fun (ws : List DWord) => okWith ((loads ws s).devWords 0 0x8000 8) (· == ws) && decide (loadInvalid (wordAt ws) = false ∧ 0x8000 % 64 = 0 ∧ (loads ws s).ctxOk 0 0 = true)
    let free := fun (ws : List DWord) => decide (∀ c ∈ loadCores (wordAt ws), (loads ws s).loadConflict (wordAt ws) c = false)
    let good := loadRec 0x0009000000000002 2 8
    let drop := loadRec 2 2 8
    let clash := loadRec 0x0009000000000002 1 1
    (s.isReady = true ∧ s.hostOk 0 = true ∧ bitAt (s.func 0).kload 62 = false ∧ 0 < s.funcs.length ∧
    ok good = true ∧ free good = true) ∧ (∃ x, (loads good s).loadImages 0 (wordAt good) = .ok x ∧ x.1.length = 4096) ∧ ((∀ x ∈ s.cores, x.slots.length = 128) ∧ s.cores.length = 64 ∧
    ok drop = true ∧ free drop = true ∧ (wordAt drop 0).toNat / 2 ^ 48 = 0 ∧
    ok clash = true ∧ (∃ c ∈ loadCores (wordAt clash), (loads clash s).loadConflict (wordAt clash) c = true) ∧
    loadInvalid (wordAt (loadRec 8 2 8)) = true) ∧ (∃ e, s.devWords 0 0x40000000 8 = .error e ∧ (fun _ => true) e = true) ∧ 0x8001 % 64 ≠ 0 ∧ s.ctxOk 0xffff 0 = false ∧
    let done := s.updFunc 0 fun f => { f with kl := some (good, 0) }
    (done.func 0).kl = some (good, 0) ∧ 0 < done.funcs.length ∧ done.cores.length = 64 ∧ 2 < (done.core 1).kslots.length := by
  refine ⟨by decide +kernel, ?_, by decide +kernel, err_of (by decide +kernel), by decide +kernel⟩
  obtain ⟨x, hx, h⟩ := ok_of (x := (loads (loadRec 0x0009000000000002 2 8) (ring 0 0)).loadImages 0 (wordAt (loadRec 0x0009000000000002 2 8)))
    (p := fun x => decide (x.1.length = 4096)) (by decide +kernel)
  exact ⟨x, hx, of_decide_eq_true h⟩

/-! ## Groups and draws -/

/-- The placed core in a module that has taken the launch `l`, whose context has two save images. -/
def takes (l : Launch) : State := qword 8 0x200000000 { ring 0 0 with taken := [l], nextId := 9 }
def launch : Launch := { lid := 5, words := grid, total := 1 }
/-- A cohort of two groups with a barrier; a launch whose work-list table is at an address that no page covers. -/
def cohortOfTwo : Launch := { launch with words := 0x100c000008000002 :: grid.drop 1, total := 2 }
def listsAway : Launch := { launch with words := [0x000c000100000001, 0x0001000000000000, 0x0400000000000000, 0, 0, 0, 0, 0, 0x8000, 0x40000000, 0, 0, 0, 0, 0, 0] }
/-- A mesh group's output of one triangle. -/
def output : MeshOut :=
  { declared := true, nv := 3, np := 1, prim := [(0, 0x020100)],
    attr := Store.setList (Store.setList (Store.setList [] 0 [0xbf800000, 0xbf800000, 0x3f000000, 0x3f800000]) 64 [0x3f800000, 0xbf800000, 0x3f000000, 0x3f800000])
      128 [0xbf800000, 0x3f800000, 0x3f000000, 0x3f800000] }
/-- A draw of 32 by 32 pixels, its mesh and pixel kernels one wave of kernel 1, its indirect block at 0x9000. -/
def drawWith (d : Draw) : Launch :=
  { launch with words := 0x200c000000000001 :: grid.drop 1, draw := some { d with block := [0, 0x0001000200000000, 0x0001000200000000, 0x1f001f, 0x9000] } }
def afterPosition : Draw := { phase := .position, outs := [(0, output)] }
def prims : List DPrim := output.triangles 0 32 32 0 0
def rasters : Draw := { phase := .raster, outs := [(0, output)], prims, tiles := [0] }

theorem fitWaves_mod (g nq : Nat) (ws : List (Nat × Nat)) : ∀ os, fitWaves g nq os ws = fitWaves (g % 8) nq os ws := by
  induction ws with
  | nil => intro os; rfl
  | cons x ws ih =>
    intro os
    simp only [fitWaves, show ∀ w i, (w + g % 8 + i) % 8 = (w + g + i) % 8 from fun w i => by omega]
    split
    · rfl
    · rw [ih]
theorem bestSeat_mod (s : State) (ctx g acs : Nat) (k : Kernel) (n : Need1) (ws : List (Nat × Nat)) (cs : List Nat) :
    s.bestSeat ctx g acs k n ws cs = s.bestSeat ctx (g % 8) acs k n ws cs := by
  simp only [State.bestSeat, State.seat, fitWaves_mod g]

/-- SeatsHaveRoom, GroupsPlaced: a seat; no room; an invalid table; not yet ready; a mesh group. -/
theorem witness_placement :
    let s := takes launch
    let seatOf := fun (s : State) (l : Launch) (n : Nat) => let need := needOf (l.word 1); s.bestSeat l.ctx n need.acs l.kernel need l.kernel.budgets coreIdx
    s.launch? 5 = some launch ∧ (∃ x, nextGroup launch = some x ∧ x.2.1 = 0) ∧ Ids s ∧ s.mayPlace launch = true ∧ (∃ ls, s.readLists launch 0 false = some ls ∧ ls = []) ∧
    (∃ k, s.freeImage 0 = some k ∧ k = 0) ∧ (∃ x, seatOf s launch 0 = some x ∧ x.spills = []) ∧
    State.mayPlace { s with boot := {} } launch = false ∧
    (takes listsAway).launch? 5 = some listsAway ∧ Ids (takes listsAway) ∧ (nextGroup listsAway).isSome = true ∧ (takes listsAway).mayPlace listsAway = true ∧
      (takes listsAway).readLists listsAway 0 false = none ∧ listsAway.placed = listsAway.retired + listsAway.aborted ∧
    State.freeImage { s with mem := [] } 0 = none ∧
    let m := drawWith { phase := .position, todo := [0] }
    (takes m).launch? 5 = some m ∧ (∃ x, nextGroup m = some x ∧ x.1 = .mesh ∧ x.2.1 = 0) ∧ Ids (takes m) ∧ (takes m).mayPlace m = true ∧
      (takes m).readLists m 0 false = some [] ∧ ∃ x, seatOf (takes m) m 0 = some x ∧ x.spills = [] := by
  and_intros <;> first | decide +kernel | exact some_of' (by decide +kernel) | (unfold Ids; decide +kernel)

/-- PixelGroupsPlaced: a group waits for its seat, wherever the free choice of its waves' partition falls. -/
def waits : Launch :=
  drawWith { rasters with tiles := [], wait := [{ gid := 4, tile := 0, waves := 1 }],
                          frags := [{ gid := 4, wave := 0, lane := 0, x := 0, y := 0, prim := 0, helper := false, cover := 15 }] }
theorem witness_pixelGroup :
    let s := takes waits
    ∃ d p seat, s.launch? 5 = some waits ∧ waits.draw = some d ∧ d.phase = .raster ∧ d.wait = [p] ∧ Ids s ∧ s.mayPlace waits = true ∧
      s.readLists waits 0 false = some [] ∧ s.freeImage 0 = some 0 ∧
      (let k0 := blockKernel (d.dword 2)
       let k := { k0 with waves := k0.waves.take p.waves }
       let need := needOf (waits.word 1)
       s.bestSeat waits.ctx (Config.pick s.fresh p.gid % 2 ^ 32) need.acs k need k.budgets coreIdx = some seat ∧ seat.spills = []) ∧
      ((s.groups.filter fun g => g.lid == 5 && g.kind == .pixel && g.index == p.tile).map (·.core)) = [] ∧
      ∀ f ∈ d.frags, f.lane < 64 ∧ ∀ f' ∈ d.frags, f'.wave = f.wave → f'.lane = f.lane → f' = f := by
  have key : ∀ g ∈ List.range 8, someWith ((takes waits).bestSeat 0 g (needOf (waits.word 1)).acs { kid := 1, slot := 0, width := 4, waves := [(16, 0)] }
      (needOf (waits.word 1)) [(0, 16)] coreIdx) (fun x => decide (x.spills = [])) = true := by decide +kernel
  obtain ⟨d, hd, h1, h2⟩ := some_of' (x := waits.draw) (P := fun d => d.phase = .raster ∧ d.wait = [{ gid := 4, tile := 0, waves := 1 }] ∧
    (∀ f ∈ d.frags, f.lane < 64 ∧ ∀ f' ∈ d.frags, f'.wave = f.wave → f'.lane = f.lane → f' = f) ∧ d.dword 2 = 0x0001000200000000) (by decide +kernel)
  obtain ⟨x, hx, hs⟩ := some_of' (key (Config.pick (takes waits).fresh 4 % 2 ^ 32 % 8) (by rw [List.mem_range]; omega))
  rw [← bestSeat_mod] at hx
  refine ⟨d, { gid := 4, tile := 0, waves := 1 }, x, by decide +kernel, hd, h1, h2.1, by unfold Ids; decide +kernel, by decide +kernel, by decide +kernel,
    by decide +kernel, ⟨?_, hs⟩, by decide +kernel, h2.2.1⟩
  rw [h2.2.2]
  exact hx

/-- CohortsPlaced, CohortsHold: room for both groups, whatever their common number; no barrier left; too early to hold, and time to. -/
theorem witness_cohorts :
    let s := takes cohortOfTwo
    let all := fun (s : State) => (List.range 2).foldlM (fun (u : State) i => u.placeOne cohortOfTwo .compute i (BitVec.ofNat 32 (Config.pick s.fresh 5 % (2 ^ 32 - 1))) cohortOfTwo.args) { s with fresh := s.fresh + 1 }
    let free := fun (s : State) => (List.range 16).filter fun m => match s.cbars[m]? with | some b => b.owner.isNone | none => false
    let full := { s with cbars := List.replicate 16 { owner := some 9 } }
    s.launch? 5 = some cohortOfTwo ∧ cohortOfTwo.lkind = 1 ∧ cohortOfTwo.draw = none ∧ cohortOfTwo.placed = 0 ∧ cohortOfTwo.total ≠ 0 ∧ Ids s ∧ (∀ x ∈ s.cores, x.heldImages = []) ∧
    s.mayPlace cohortOfTwo = true ∧ s.readLists cohortOfTwo 5 true = some [] ∧ (free s).length = 16 ∧ (all s).isSome = true ∧ (free full).length < 1 ∧
    State.mayPlace { s with boot := {} } cohortOfTwo = false ∧ (State.launch? { s with time := 114688 } 5 = some cohortOfTwo ∧ cohortOfTwo.since + 114688 ≤ 114688) ∧
    ¬ cohortOfTwo.since + 114688 ≤ s.time := by
  and_intros <;> first | decide +kernel | (unfold Ids; decide +kernel)

/-- GroupsRetire, GroupsAbort: a group whose waves have ended, of a launch with another to come, and as the last; one that still runs. -/
def ended (l : Launch) : State := { takes l with groups := [{ placedGroup with lid := 5 }], waves := [{ (wave 4) with exited := 15 }] }
theorem witness_groupEnds :
    let one := { launch with placed := 1 }
    let more := { one with total := 2 }
    (∃ g, (ended one).group? 1 = some g ∧ ((ended one).retires g = true ∧ (ended one).unreported g = [] ∧ g.lid = 5)) ∧ (ended one).launch? 5 = some one ∧
      (lastEnds one (one.retired + 1 + one.aborted) ∧ lastEnds one (one.retired + (one.aborted + 1))) ∧ ((ended one).poison = [] ∧ (ended one).lists = []) ∧
      (∃ u, (ended one).devWrite 0 0x8000 ((completionWords one.seq 0 one.status one.culled 1 false one.overrun).flatMap fun w => toBytes 8 w.toNat) = .ok u ∧
        (fun _ => true) u = true) ∧
    (ended more).launch? 5 = some more ∧ (¬ lastEnds more (more.retired + 1 + more.aborted) ∧ ¬ lastEnds more (more.retired + (more.aborted + 1))) ∧
      (∃ g, (ended more).group? 1 = some g ∧ (ended more).retires g = true) ∧ (one.lkind ≠ 1 ∧ (∀ b ∈ (ended one).cbars, b.owner ≠ some 5) ∧
      ((ended one).waves.map (·.wid)).Nodup) ∧ ∃ g, comp.group? 1 = some g ∧ comp.retires g = false := by
  have ends : ∀ a b : Nat, ¬ ((1 : Nat) = 2 ∧ a = b) := fun _ _ h => absurd h.1 (by decide)
  exact ⟨some_of' (by decide +kernel), by decide +kernel, show (1 = 1 ∧ 1 = 1) ∧ 1 = 1 ∧ 1 = 1 from ⟨⟨rfl, rfl⟩, rfl, rfl⟩, by decide +kernel, ok_of (by decide +kernel),
    by decide +kernel, ⟨ends 1 2, ends 1 2⟩, some_of' (by decide +kernel), by decide +kernel, some_of' (by decide +kernel)⟩

/-- MeshPhaseBegins: amplification has ended with three mesh groups to run, and with none; it has not ended. -/
theorem witness_meshPhase :
    let l := { drawWith { phase := .amp } with placed := 1, retired := 1 }
    let s := qword 0x9000 3 (takes l)
    (s.launch? 5 = some l ∧ l.ampDone = true) ∧ (∃ d, l.draw = some d ∧ (d.dword 4).toNat % 2 ^ 57 = 0x9000) ∧
    (∃ bs, s.vread l.ctx 0x9000 4 = .ok bs ∧ (fun bs => decide (ofBytes bs = 3)) bs = true) ∧
    (∃ bs, (takes l).vread l.ctx 0x9000 4 = .ok bs ∧ (fun bs => decide (ofBytes bs = 0)) bs = true) ∧
    (drawWith { phase := .amp }).ampDone = false := by
  exact ⟨by decide +kernel, some_of' (by decide +kernel), ok_of (by decide +kernel), ok_of (by decide +kernel), by decide +kernel⟩

/-- PrimitivesCulled: a triangle inside the view volume that is drawn; one that a plane or its side drops; a vertex that is not finite. -/
theorem witness_culled :
    let vs := fun (m : MeshOut) => (List.range 3).map fun k => m.corner (0x020100 / 256 ^ k % 256) k
    let inside := fun (m : MeshOut) => (vs m).all fun v => someWith v fun v => decide (0 < v.w.num ∧ 0 ≤ v.z.num ∧ 0 < v.w.den ∧ 0 < v.x.den ∧ 0 < v.y.den)
    inside output = true ∧ (∀ k ∈ List.range 6, ((vs output).any fun v => someWith v fun v => v.outside[k]? == some false) = true) ∧
    (survivors 0 32 32 0 0 0 output 0x020100).length = 1 ∧ ((survivors 0 32 32 1 0 0 output 0x020100).length + (survivors 0 32 32 2 0 0 output 0x020100).length = 1) ∧
    (let m := { output with attr := [0, 64, 128].foldl (fun a k => a.set k 0x40400000) output.attr }
     (∃ k ∈ List.range 6, ((vs m).all fun v => someWith v fun v => v.outside[k]? == some true) = true)) ∧
    none ∈ vs { output with attr := output.attr.set 64 0x7fc00000 } := by
  and_intros <;> decide +kernel

/-- AttributePassBegins, SamplesCovered, TilesRaster: a draw with its triangle and one without, before and after their pass; a tile. -/
theorem witness_raster :
    let l := drawWith afterPosition
    let none := drawWith { phase := .position }
    let r := drawWith rasters
    (takes l).launch? 5 = some l ∧ l.meshDone = true ∧ (∃ d, l.draw = some d ∧ (d.outs = [(0, output)] ∧ d.wait = [] ∧
      d.outs.flatMap (fun o => o.2.triangles 0 d.wid d.hei ((d.dword 3).toNat / 2 ^ 32 % 4) o.1) ≠ [])) ∧ (takes l).fresh = 0 ∧
    (takes none).launch? 5 = some none ∧ none.meshDone = true ∧ (∃ d, none.draw = some d ∧ (d.outs = [] ∧ d.wait = [])) ∧ (drawWith { phase := .position, todo := [0] }).meshDone = false ∧
    (takes r).launch? 5 = some r ∧ (takes r).mayRaster r 0 = true ∧ (takes r).mayRaster r 1 = false ∧ (∃ d, r.draw = some d ∧
      ((d.dword 5).toNat / 2 ^ 61 = 0 ∧ ∃ tr ∈ d.prims, tr.coverage 3 4 ≠ 0 ∧ (tr.box ((takes r).extent r d).1 ((takes r).extent r d).2).1.1 ≤ 3 ∧
        3 < (tr.box ((takes r).extent r d).1 ((takes r).extent r d).2).1.2 ∧ (tr.box ((takes r).extent r d).1 ((takes r).extent r d).2).2.1 ≤ 4 ∧
        4 < (tr.box ((takes r).extent r d).1 ((takes r).extent r d).2).2.2)) ∧
    (∃ tr ∈ prims, (tr.coverage 3 4).testBit 0 = true ∧ (tr.coverage 31 31).testBit 0 = false) := by
  and_intros <;> first | decide +kernel | exact some_of' (by decide +kernel)

/-! ## Pre-emption and save images -/

/-- The tables of `paged` stand. -/
structure Paged (s : State) : Prop where
  tlb : s.tlb = []
  node : s.nodeid = 0
  pure : s.poison = []
  ast : s.astbase = 0x5000
  root : s.rd64 0x5000 = 0x1001
  four : s.rd64 0x1000 = 0x2001
  three : s.rd64 0x2000 = 0x3001
  two : s.rd64 0x3000 = 0x0f

theorem reach_paged {s : State} (h : Paged s) {va : Nat} (hv : va < 2 ^ 30) (n : Need) (hb : n.okBy 0x0f = true) :
    s.reach none 0 va n false = .ok { key := va, left := 2 ^ 30 - va, leaf := 0x0f, size := 30 } := by
  have h4 : va / 2 ^ (12 + 9 * 4) % 512 = 0 := by omega
  have h3 : va / 2 ^ (12 + 9 * 3) % 512 = 0 := by omega
  have h2 : va / 2 ^ (12 + 9 * 2) % 512 = 0 := by omega
  have hw : s.walk 0 va = .ok (0x0f, 30) := by
    have t4 : s.tableOk 4 0x2001 = true := by simp only [State.tableOk, h.node]; decide +kernel
    have t3 : s.tableOk 3 0x3001 = true := by simp only [State.tableOk, h.node]; decide +kernel
    have f2 : s.walkFrom va 2 0x3000 = .ok (0x0f, 30) := by
      unfold State.walkFrom
      simp only [h2, Nat.mul_zero, Nat.add_zero, h.two, show pteV (0x0f : DWord) = true from by decide +kernel, show pteLeaf (0x0f : DWord) = true from by decide +kernel,
        show leafOk 2 0x0f = true from by decide +kernel, Bool.not_true, Bool.false_eq_true, if_false, if_true]
      rfl
    have f3 : s.walkFrom va 3 0x2000 = .ok (0x0f, 30) := by
      unfold State.walkFrom
      simp only [h3, Nat.mul_zero, Nat.add_zero, h.three, t3, show pteV (0x3001 : DWord) = true from by decide +kernel,
        show pteLeaf (0x3001 : DWord) = false from by decide +kernel, Bool.not_true, Bool.false_eq_true, if_false, if_true]
      rw [show localOf (ptePa 0x3001) = 0x3000 from by decide +kernel]
      exact f2
    have f4 : s.walkFrom va 4 0x1000 = .ok (0x0f, 30) := by
      unfold State.walkFrom
      simp only [h4, Nat.mul_zero, Nat.add_zero, h.four, t4, show pteV (0x2001 : DWord) = true from by decide +kernel,
        show pteLeaf (0x2001 : DWord) = false from by decide +kernel, Bool.not_true, Bool.false_eq_true, if_false, if_true]
      rw [show localOf (ptePa 0x2001) = 0x2000 from by decide +kernel]
      exact f3
    unfold State.walk
    simp only [h.ast, show (0x5000 : DWord).toNat + 8 * 0 = 0x5000 by decide, h.root, h.node]
    rw [if_pos (by decide +kernel), show localOf (ptePa 0x1001) = 0x1000 from by decide +kernel]
    exact f4
  have hx : s.xlate none 0 va = .ok { key := va, left := 2 ^ 30 - va, leaf := 0x0f, size := 30 } := by
    have hp : physOf 0x0f 30 va = va := by
      rw [physOf, show ptePa (0x0f : DWord) = 0 from by decide +kernel, Nat.zero_div, Nat.zero_mul, Nat.zero_add, Nat.mod_eq_of_lt hv]
    have hn : va / 2 ^ 45 % 2 ^ 11 = 0 := by omega
    have hok : s.physOk va = true := by
      unfold State.physOk
      rw [show nodeOf va = 0 from hn, h.node, if_pos (by decide)]
      exact decide_eq_true (by unfold localOf localEnd; omega)
    have hk : physKey s va = va := by
      rw [physKey, hn, h.node, if_pos (by decide)]; omega
    rw [State.xlate, if_neg (by omega)]
    have hl : s.leafOf none 0 va = .ok (0x0f, 30) := by
      simp only [State.leafOf, State.tlbHits, h.tlb, List.filter_nil, List.map_nil, List.eraseDups_nil, hw, List.getElem?_nil]
    simp only [hl]
    rw [if_neg (by decide +kernel), hp, if_pos hok, hk, Nat.mod_eq_of_lt hv]
  rw [State.reach, hx]
  have hw : Xlat.isWindow { key := va, left := 2 ^ 30 - va, leaf := 0x0f, size := 30 } = false := decide_eq_false (by show ¬ (2 ^ 57 ≤ va ∧ va < 2 ^ 58); omega)
  show (if (n.okBy 0x0f && (false || !Xlat.isWindow { key := va, left := 2 ^ 30 - va, leaf := 0x0f, size := 30 })) = true then _ else _) = _
  rw [hw, hb]
  rfl

theorem rd64_setList {s : State} {a k : Nat} (bs : List Byte) (h : k + 8 ≤ a) : ofBytes ((s.mem.setList a bs).getList k 8) = ofBytes (s.mem.getList k 8) := by
  have : (s.mem.setList a bs).getList k 8 = s.mem.getList k 8 := by
    unfold Store.getList
    refine List.map_congr_left fun i hi => ?_
    rw [List.mem_range] at hi
    exact Store.get_setList_other _ _ _ _ (.inl (by omega))
  rw [this]

/-- What a translation rests on is the same in both states. -/
structure SameMap (s u : State) : Prop where
  mem : u.mem = s.mem
  tlb : u.tlb = s.tlb
  node : u.nodeid = s.nodeid
  pure : u.poison = s.poison
  ast : u.astbase = s.astbase
theorem SameMap.trans {s t u : State} (h : SameMap s t) (k : SameMap t u) : SameMap s u :=
  ⟨k.1.trans h.1, k.2.trans h.2, k.3.trans h.3, k.4.trans h.4, k.5.trans h.5⟩
theorem SameMap.refl (s : State) : SameMap s s := ⟨rfl, rfl, rfl, rfl, rfl⟩
theorem SameMap.paged {s u : State} (k : SameMap s u) (h : Paged s) : Paged u := by
  have e : ∀ a, u.rd64 a = s.rd64 a := fun a => by simp only [State.rd64, State.rd, k.mem]
  exact ⟨k.2 ▸ h.1, k.3 ▸ h.2, k.4 ▸ h.3, k.5 ▸ h.4, (e _).trans h.5, (e _).trans h.6, (e _).trans h.7, (e _).trans h.8⟩

theorem count_same (s : State) (f evt panel n : Nat) : SameMap s (s.count f evt panel n) := by
  unfold State.count; split <;> exact ⟨rfl, rfl, rfl, rfl, rfl⟩
theorem putLine_same (s : State) (r : Line) : SameMap s (s.putLine r) := by
  unfold State.putLine; (repeat' split) <;> exact ⟨rfl, rfl, rfl, rfl, rfl⟩
theorem evictLine_same (s : State) (r : Line) (b : Bool) : SameMap s (s.evictLine r b) := by
  refine SameMap.trans ?_ (putLine_same _ _)
  split <;> split <;> first | exact .refl _ | exact count_same .. | exact (count_same ..).trans (count_same ..)
theorem makeRoom_same (s : State) (k l : Nat) : SameMap s (s.makeRoom k l) := by
  unfold State.makeRoom
  dsimp only
  split
  · exact .refl _
  · split
    · exact SameMap.trans (t := s.draw.2) ⟨rfl, rfl, rfl, rfl, rfl⟩ (evictLine_same _ _ _)
    · exact ⟨rfl, rfl, rfl, rfl, rfl⟩
theorem recall_same (s : State) (q : Req) (l : Nat) : SameMap s (s.recall q l) := by
  unfold State.recall
  repeat' split
  all_goals first | exact .refl _ | exact SameMap.trans (t := s.dropCopy _ l) ⟨rfl, rfl, rfl, rfl, rfl⟩ (putLine_same _ _)
theorem touchLine_same (s : State) (q : Req) (line : Nat) : SameMap s (s.touchLine q line) := by
  refine SameMap.trans ?_ (recall_same _ q line)
  split
  · exact .refl _
  · exact ⟨rfl, rfl, rfl, rfl, rfl⟩
theorem sliceReq_same (s : State) (q : Req) (home key n : Nat) (wr : Bool) : SameMap s (s.sliceReq q home key n wr) := by
  have h1 := touchLine_same s q (key / 128)
  unfold State.sliceReq
  dsimp only
  generalize s.touchLine q (key / 128) = s1 at h1 ⊢
  split
  · split
    · exact count_same ..
    · exact .refl _
  · split
    · exact .refl _
    · split
      · exact h1.trans (count_same ..)
      · split
        · refine SameMap.trans ?_ (putLine_same _ _)
          split
          · exact h1.trans (count_same ..)
          · exact h1
        · exact (((h1.trans (count_same ..)).trans (count_same ..)).trans (putLine_same _ _)).trans (makeRoom_same _ _ _)
theorem correctedBy_same (s : State) (c panel n : Nat) : SameMap s (s.correctedBy c panel n) := by
  exact SameMap.trans (t := { s with energy := { s.energy with ecnt := modifyAt c (fun x => BitVec.ofNat 48 (min (x.toNat + n) (2 ^ 48 - 1))) s.energy.ecnt } })
    ⟨rfl, rfl, rfl, rfl, rfl⟩ (count_same _ 0 0x30 panel n)
theorem flitsAt_same (s : State) (q : Req) (panel : Nat) (ks : List Spot) : SameMap s (s.flitsAt q panel ks) := by
  have fold : ∀ (xs : List (Nat × Nat × Nat)) t, SameMap s t → SameMap s (xs.foldl (fun t x => t.flits q panel x.1) t) := by
    intro xs
    induction xs with
    | nil => exact fun t h => h
    | cons x xs ih =>
      refine fun t h => ih _ (h.trans ?_)
      unfold State.flits
      dsimp only
      split
      · exact .refl _
      · refine ((((count_same t ..).trans (count_same ..)).trans (count_same ..)).trans (correctedBy_same _ _ _ _)).trans ⟨rfl, rfl, rfl, rfl, rfl⟩
  exact fold _ s (.refl s)
theorem wrByteBy_same (s : State) (w : Option Nat) (k : Nat) (b : Byte) : SameMap s (s.wrByteBy w k b) := by
  unfold State.wrByteBy State.ageCopies
  split
  · exact .refl _
  · dsimp only
    split <;> split <;> exact ⟨rfl, rfl, rfl, rfl, rfl⟩

theorem wr_paged {s : State} (h : Paged s) (k : Nat) (b : Byte) (hk : 0x6000 ≤ k) : Paged (s.wr k [b]) := by
  have put : Paged { s with mem := s.mem.setList k [b] } := by
    have e : ∀ a, a + 8 ≤ k → State.rd64 { s with mem := s.mem.setList k [b] } a = s.rd64 a := fun a ha => by
      simp only [State.rd64, State.rd]; rw [rd64_setList _ ha]
    exact ⟨h.1, h.2, h.3, h.4, (e _ (by omega)).trans h.5, (e _ (by omega)).trans h.6, (e _ (by omega)).trans h.7, (e _ (by omega)).trans h.8⟩
  unfold State.wr
  rw [if_pos (by rw [h.pure]; rfl)]
  unfold State.notify
  split
  · exact put
  · exact SameMap.paged (s := { s with mem := s.mem.setList k [b] }) ⟨rfl, rfl, rfl, rfl, rfl⟩ put

theorem local_served (s : State) {k : Nat} (h : k < 2 ^ 58) : s.remoteBad k = none := by
  have : isRemoteKey k = false := by
    simp only [isRemoteKey, Bool.and_eq_false_iff, decide_eq_false_iff_not]; exact .inl (by omega)
  simp [State.remoteBad, this]

/-- What lies in the pages is served (RecordsTaken, KernelLoads, GroupsPlaced, MeshPhaseBegins, AttributePassBegins, GroupsRestore). -/
theorem served_paged {s : State} (h : Paged s) {va n : Nat} (hv : va + n ≤ 2 ^ 30) : Served s 0 va n := by
  intro i hi
  rw [reach_paged h (by omega) .rd (by decide +kernel)]
  show (s.remoteBad (va + i)).isNone = true
  rw [local_served s (by omega)]
  rfl
theorem paged_of {s : State} (h : (s.tlb = [] ∧ s.nodeid = 0 ∧ s.poison = [] ∧ s.astbase = 0x5000) ∧
    s.rd64 0x5000 = 0x1001 ∧ s.rd64 0x1000 = 0x2001 ∧ s.rd64 0x2000 = 0x3001 ∧ s.rd64 0x3000 = 0x0f) : Paged s :=
  ⟨h.1.1, h.1.2.1, h.1.2.2.1, h.1.2.2.2, h.2.1, h.2.2.1, h.2.2.2.1, h.2.2.2.2⟩

theorem devWrite_paged {s : State} (h : Paged s) {va : Nat} {bs : List Byte} (ha : 0x6000 ≤ va) (hb : va + bs.length ≤ 2 ^ 30) :
    ∃ u, s.devWrite 0 va bs = .ok u ∧ Paged u := by
  have hs : ∃ ks, s.span none 0 va bs.length .wr false = .ok ks ∧ ∀ k ∈ ks, 0x6000 ≤ k.key ∧ k.key < 2 ^ 58 := by
    unfold State.span
    obtain ⟨n, hn⟩ : ∃ n, bs.length / 4096 + 2 = n + 2 := ⟨_, rfl⟩
    rw [hn]
    unfold State.spots
    split
    · exact ⟨[], rfl, by simp⟩
    · rename_i h0
      rw [reach_paged h (by omega) .wr (by decide +kernel)]
      simp only [show min bs.length (2 ^ 30 - va) = bs.length from by omega, Nat.sub_self]
      unfold State.spots
      refine ⟨_, rfl, ?_⟩
      intro k hk
      simp only [List.append_nil, Xlat.bytes, List.mem_map, List.mem_range] at hk
      obtain ⟨i, hi, rfl⟩ := hk
      exact ⟨show 0x6000 ≤ va + i by omega, show va + i < 2 ^ 58 by omega⟩
  obtain ⟨ks, hks, hm⟩ := hs
  rw [State.devWrite, hks]
  refine ⟨_, rfl, ?_⟩
  have served : ∀ (t : State), t.unservedAt 0 none true ks = t := by
    intro t
    have : (ks.filter fun k => (t.remoteBad k.key).isSome) = [] :=
      List.filter_eq_nil_iff.2 fun k hk => by rw [local_served t (hm k hk).2]; simp
    unfold State.unservedAt
    rw [this]; rfl
  show Paged ((s.wrSpots { core := none, func := s.ctxFunc 0 } (ks.zip bs)).unservedAt 0 none true ks)
  rw [served]
  unfold State.wrSpots
  have fold : ∀ (f : State → Nat × Nat × Nat → State) (xs : List (Nat × Nat × Nat)), (∀ t x, SameMap t (f t x)) → ∀ t, Paged t → Paged (xs.foldl f t) := by
    intro f xs hf
    induction xs with
    | nil => exact fun t ht => ht
    | cons x xs ih => exact fun t ht => ih _ ((hf t x).paged ht)
  have put : ∀ (xs : List (Spot × Byte)) (t : State), Paged t → (∀ x ∈ xs, 0x6000 ≤ x.1.key) →
      Paged (xs.foldl (fun t k => if (t.remoteBad k.1.key).isSome then t else (t.wrByteBy none k.1.key k.2).wr k.1.key [k.2]) t) := by
    intro xs
    induction xs with
    | nil => exact fun t ht _ => ht
    | cons x xs ih =>
      refine fun t ht hx => ih _ ?_ fun y hy => hx y (List.mem_cons_of_mem _ hy)
      dsimp only
      split
      · exact ht
      · exact wr_paged ((wrByteBy_same _ _ _ _).paged ht) _ _ (hx x (List.mem_cons_self ..))
  refine put _ _ (fold _ _ (fun t x => sliceReq_same ..) _ ?_) fun x hx => (hm _ (List.of_mem_zip hx).1).1
  have h1 : Paged (s.flitsAt { core := none, func := s.ctxFunc 0 } ((Option.map panelOf (none : Option Nat)).getD 0) ((ks.zip bs).map (·.1))) :=
    (flitsAt_same ..).paged h
  unfold State.cleanse
  rw [if_pos (by rw [h1.pure]; rfl)]
  exact h1

theorem pieces_paged (base : Nat) : ∀ (ps : List (Nat × List Byte)) (s : State), Paged s →
    (ps.all fun p => decide (0x6000 ≤ base + p.1 ∧ base + p.1 + p.2.length ≤ 2 ^ 30)) = true →
    ∃ u, ps.foldlM (fun (t : State) p => t.devWrite 0 (base + p.1) p.2) s = .ok u := by
  intro ps
  induction ps with
  | nil => exact fun s _ _ => ⟨s, rfl⟩
  | cons p ps ih =>
    intro s h hp
    rw [List.all_cons, Bool.and_eq_true, decide_eq_true_eq] at hp
    obtain ⟨u, hu, hq⟩ := devWrite_paged h hp.1.1 hp.1.2
    obtain ⟨v, hv⟩ := ih u hq hp.2
    exact ⟨v, by rw [List.foldlM_cons, hu]; exact hv⟩

/-- A small group of a launch, its wave standing at word 0, in state `st`, with save images at 0x1000000. -/
def group (st : GroupState) : Group := { gid := 1, lid := 5, state := st, waves := 1, bars := [{}], cans := [3] }
def running : Launch := { launch with placed := 1 }
def small (st : GroupState) : State :=
  qword 0 0x1000000 { takes running with groups := [group st], waves := [{ (wave 4) with budget := 16 }] }
theorem small_paged : Paged (small (.draining 0)) := by
  refine ⟨rfl, rfl, rfl, rfl, ?_, ?_, ?_, ?_⟩ <;> decide +kernel

/-- PreemptRequests, PreemptionCompletes: a request that names a group on the core, one that names none, and one while another is in flight. -/
theorem witness_requests :
    let s := small .resident
    s.hostOk 0 = true ∧ bitAt s.prectl 31 = false ∧ (∃ g ∈ s.groups, g.ctx = 0 ∧ g.core = 0 ∧ g.state = .resident) ∧
    (∀ g ∈ s.groups, ¬ (g.ctx = 7 ∧ g.core = 0)) ∧ bitAt ({ s with prectl := 0x80000000 } : State).prectl 31 = true := by decide +kernel

/-- DrainTimesOut: 65,536 clk after the request a PRIME is left; before that time. -/
theorem witness_drainLate :
    let late := upC (fun c => { c with clk := 65536, easel := [{ oid := 1, wid := 1, gid := 1, mma := false, can := 0, batch := 0, opix := 0 }] }) (small (.draining 0))
    (∃ g, late.group? 1 = some g ∧ (late.drainLate g = true ∧ g.core < late.cores.length)) ∧ (late.core 0).easel.length ≤ 128 ∧ ((late.core 0).copies.map (·.cid)).Nodup ∧
    ∃ g, (small (.draining 0)).group? 1 = some g ∧ (small (.draining 0)).drainLate g = false :=
  ⟨some_of' (by decide +kernel), by decide +kernel, by decide +kernel, some_of' (by decide +kernel)⟩

theorem written {s : State} (h : Paged s) {g : Group} {l : Launch} (hc : g.ctx = 0)
    (hp : ((s.imagePieces g l).all fun p => decide (0x6000 ≤ s.imageVa g.ctx g.image + p.1 ∧ s.imageVa g.ctx g.image + p.1 + p.2.length ≤ 2 ^ 30)) = true) :
    ∃ u, s.writeImage g l = .ok u := by
  obtain ⟨u, hu⟩ := pieces_paged _ _ _ h hp
  unfold State.writeImage
  generalize s.imageVa g.ctx g.image = base at *
  rw [hc, hu]
  exact ⟨u.writeCohort g, rfl⟩

/-- PreemptSaves: a drained group whose image can be written, with and without a request in flight, and one whose save area no page covers. -/
theorem witness_saves :
    let s := small (.draining 0)
    let away := qword 0 0x40000000 s
    (Ids s ∧ Ids away) ∧ (s.group? 1 = some (group (.draining 0)) ∧ s.drained (group (.draining 0)) = true ∧ s.launch? 5 = some running ∧
      (group (.draining 0)).tiles.Nodup ∧ (∀ x ∈ s.groups, x.gid ≠ 1 → (x.ctx, x.core) = s.preq → ∀ n ∈ List.range 1, x.state ≠ .draining n)) ∧
    (∃ u, s.writeImage (group (.draining 0)) running = .ok u) ∧ (bitAt s.prectl 31 = false ∧ bitAt ({ s with prectl := 0x80000000 } : State).prectl 31 = true ∧
    away.group? 1 = some (group (.draining 0)) ∧ away.drained (group (.draining 0)) = true) ∧
    (∃ e, away.writeImage (group (.draining 0)) running = .error e ∧ (fun _ => true) e = true) ∧ (∀ x ∈ away.groups, x = group (.draining 0)) ∧
    lastEnds running (running.retired + (running.aborted + 1)) ∧ (small .resident).group? 1 = some (group .resident) := by
  exact ⟨by unfold Ids; decide +kernel, by decide +kernel, written small_paged rfl (by decide +kernel), by decide +kernel, err_of (by decide +kernel), by decide +kernel,
    show (1 : Nat) = 1 ∧ 1 = 1 from ⟨rfl, rfl⟩, by decide +kernel⟩

/-- ImageRoundTrip: the record of a wave of two parts with registers, and words that hold it. -/
def recorded : Wave :=
  let b : QBank := { sreg := Store.setList [] 5 [7, 8], qtc := 3, phase := true }
  { wave 8 with split := [{ kind := 2, qmask := 3, lmask := 0xff, jpc := 9 }, { kind := 1, pv := true, qmask := 1, lmask := 15, pc := 4 },
                          { kind := 1, pv := true, qmask := 2, lmask := 0xf0, pc := 6 }] ++ List.replicate 13 {},
                banks := [b, { b with qtc := 4 }], mask := Store.setList [] 2 [0x1f] }
def recordWords : List DWord :=
  let ps := State.reset.waveRecord placedGroup { lid := 5, words := [] } recorded
  ps.foldl (fun ws p => ws ++ List.replicate (p.1 / 8 - ws.length) 0 ++
    (List.range (p.2.length / 8)).map fun k => BitVec.ofNat 64 (ofBytes ((p.2.drop (8 * k)).take 8))) []
theorem witness_roundTrip :
    let s := State.reset
    let ps := s.waveRecord placedGroup { lid := 5, words := [] } recorded
    recorded.tableWf = true ∧ recorded.split.length = 16 ∧ recorded.banks.length = recorded.nq ∧ recorded.handler.run = false ∧ recorded.mons.length = 4 ∧
    recorded.idx < 32 ∧ recorded.width ≤ 64 ∧ recorded.qbase < 16 ∧ recorded.slot < 16 ∧ recorded.part < 8 ∧
    (∀ e ∈ List.range 16, (recorded.ent e).isPart = true → ((recorded.ent e).qmask &&& ~~~recorded.allQuads) = 0 ∧ (recorded.ent e).qmask ≠ 0 ∧
      ∀ e' ∈ List.range 16, e' ≠ e → (recorded.ent e').isPart = true → ((recorded.ent e).qmask &&& (recorded.ent e').qmask) = 0) ∧
    (ps.all fun p => p.2.zipIdx.all fun x => decide ((at64 recordWords ((p.1 + x.2) / 8 * 8)).toNat / 256 ^ ((p.1 + x.2) % 8) % 256 = x.1.toNat)) = true := by
  and_intros <;> decide +kernel

/-- GroupsRestore: a saved group, whose wave had exited, with its image's header in memory; the same with a header that says another kind; no place; a group
whose overlays have settled, and one that loads. -/
def parked : State := qword 0 0x1000000 <| qword 0x1000000 0x10400000000 { takes running with
  groups := [{ gid := 1, lid := 5, state := .saved, waves := 1, kept := [{ (wave 4) with exited := 15 }] }] }
theorem witness_restore :
    let bad := qword 0x1000000 0x7ff00000000 parked
    let full := { parked with cores := [] }
    let loading := upC (fun c => { c with slots := { st := .loading, wid := 1 } :: c.slots.drop 1 }) (small .restoring)
    (∃ g, parked.group? 1 = some g ∧ (g.state = .saved ∧ g.lid = 5 ∧ (∃ w ∈ g.kept, w.living = 0))) ∧ parked.launch? 5 = some running ∧ Ids parked ∧
    (∃ g ∈ parked.groups, ∃ seat, parked.restoreSeat g running = some seat ∧ seat.spills = [] ∧
      (okWith (parked.readImage g seat) fun im => okWith (parked.install g running seat im) fun _ => true) = true ∧
      ∃ e, bad.readImage g seat = .error e ∧ (fun _ => true) e = true) ∧
    (∃ g, full.group? 1 = some g ∧ full.restoreSeat g running = none) ∧
    (∃ g, (small .restoring).group? 1 = some g ∧ (g.state = .restoring ∧ (small .restoring).settled g = true)) ∧
    ∃ g, loading.group? 1 = some g ∧ (g.state = .restoring ∧ loading.settled g = false) := by
  refine ⟨some_of' (by decide +kernel), by decide +kernel, by unfold Ids; decide +kernel, ⟨_, .head _, ?_⟩, some_of' (by decide +kernel), some_of' (by decide +kernel),
    some_of' (by decide +kernel)⟩
  exact ⟨{ core := 0, waves := [], pbase := 0, cans := [], spills := [] }, by decide +kernel, rfl, by decide +kernel, err_of (by decide +kernel)⟩

/-! ## What a read of the device needs to be served -/

theorem witness_served :
    let mid := qword 0x9000 3 (takes { drawWith { phase := .amp } with placed := 1, retired := 1 })
    let good := loadRec 0x0009000000000002 2 8
    (qBase (offers.queueWord 0 0) + 128 * ((offers.queueWord 0 1).toNat / 2 ^ 32 % 2 ^ qKsz (offers.queueWord 0 0)) = 0x300000 ∧ Served offers 0 0x300000 128 ∧
      offers.badQueues = [] ∧ (∀ e < 16, offers.eventReady e = false)) ∧
    LoadServed (loads good (ring 0 0)) 0 0x8000 (wordAt good) ∧
    (ListsServed (takes launch) launch ∧ ListsServed (takes waits) waits ∧ ListsServed (takes cohortOfTwo) cohortOfTwo) ∧ Served mid 0 0x9000 4 ∧
    (∀ va ∈ (drawWith afterPosition).glz, va ≠ 0 → ∀ fresh, Served { takes (drawWith afterPosition) with fresh } 0 va 64) ∧
    (parked.imageVa 0 0 = 0x1000000 ∧ Served parked 0 0x1000000 0x2000) ∧
    let bad := words 0x200200 [0x8000000000008000] { ring 1 0x20d with events := [[7]] }
    bad.isReady = true ∧ bad.badQueues = [0] ∧ bad.poison = [] ∧ ∃ e < 16, bad.flagQueues.eventReady e = true := by
  have p1 : Paged offers := paged_of (by decide +kernel)
  have p2 : Paged (loads (loadRec 0x0009000000000002 2 8) (ring 0 0)) := paged_of (by decide +kernel)
  have p3 : Paged (qword 0x9000 3 (takes { drawWith { phase := .amp } with placed := 1, retired := 1 })) := paged_of (by decide +kernel)
  have p4 : Paged parked := paged_of (by decide +kernel)
  refine ⟨⟨by decide +kernel, served_paged p1 (by decide), by decide +kernel, by decide +kernel⟩, ⟨served_paged p2 (by decide), fun _ _ => ⟨?_, ?_⟩⟩, ⟨?_, ?_, ?_⟩,
    served_paged p3 (by decide), ?_, ⟨by decide +kernel, served_paged p4 (by decide)⟩, by decide +kernel, by decide +kernel, by decide +kernel,
    ⟨0, by decide, by decide +kernel⟩⟩
  · exact served_paged p2 (by decide +kernel)
  · exact served_paged p2 (by decide +kernel)
  iterate 3 exact fun _ i hi => absurd hi (by decide +revert +kernel)
  exact fun va hv h0 => absurd ((by decide +kernel : ∀ va ∈ (drawWith afterPosition).glz, va = 0) va hv) h0

/-- MonitorReturns of the I0 of a DICT, and of a group's other wave; GroupsRetire and the vectors that are masked and open (Signalled). -/
theorem witness_half :
    let wake := upW (stands 4 0 { park := .monw 3 none false, fired := 2, half := true }) comp
    let other : Wave := { (wave 64) with wid := 2 }
    let both := { upW (stands 4 0 { park := .monw 3 none true, fired := 2 }) comp with
      waves := [stands 4 0 { park := .monw 3 none true, fired := 2 } (wave 64), stands 4 0 { park := .frozen 1 } other] }
    Has wake (fun w => w.monAt 0 = some (3, none, false) ∧ wake.holdsTrig w = false ∧ (w.auxAt 0).fired ≠ 0 ∧ (w.auxAt 0).half = true) ∧
    Has both (fun w => w.monAt 0 = some (3, none, true) ∧ both.holdsTrig w = false ∧ (w.auxAt 0).fired ≠ 0) ∧
    (∃ u, both.wave? 2 = some u ∧ (u.gid = (wave 64).gid ∧ u.wid ≠ (wave 64).wid ∧ both.stopped u = false ∧ (u.ent 0).isPart = true ∧ (u.ent 0).st = 4 ∧
      (u.auxAt 0).park = .frozen 1)) ∧
    let entry := fun (n : Nat) => comp.updFunc 0 fun f => { f with msix := Store.setList [] (2 * n) [0, 0x100000000] }
    bitAt (((entry 5).func 0).msix.get (2 * 5 + 1)) 32 = true ∧ bitAt (((entry 6).func 0).msix.get (2 * 5 + 1)) 32 = false ∧ 0 < comp.funcs.length :=
  ⟨has (by decide +kernel), has (by decide +kernel), some_of' (by decide +kernel), by decide +kernel⟩

end Sys2Proof.Tests
end

