-- ==== Sys2Proof/Tests/WitnessesHost.lean ====
section
/-!
SUPPORT. Witnesses: for each statement with hypotheses a state and operands that meet them together: translation, the host, boot, reliability, debugging, counters.
-/
namespace Sys2Proof.Tests
open Machine
set_option Elab.async false

/-- Changes to a core's debug unit and its registers. -/
def debug (f : Debug → Debug) : State → State := upC fun c => { c with dbg := f c.dbg }
def dregs (xs : List (Nat × DWord)) : State → State := debug fun d => { d with regs := xs.foldl (fun m x => m.set (x.1 / 8) x.2) d.regs }

/-! ## Translation, the host and the span fabric -/

/-- PageWalks, AddressesTranslate, TranslationCompletes: a leaf of level 2, an absent entry, a root of 0; an address below 2^57 whose page is found on the own module, on
another module, and where nothing is. -/
def mapped : State := paged (ring 0 0)
theorem witness_walks :
    let tb := fun (k : Nat) => if k = 4 then 0x1000 else if k = 3 then 0x2000 else 0x3000
    let e := fun (s : State) (va k : Nat) => readNat s (tb k + 8 * (va / 2 ^ (12 + 9 * k) % 512)) 8
    let good := fun (va : Nat) => decide (readNat mapped 0x5000 8 = 0x1001 ∧ mapped.astbase.toNat = 0x5000 ∧ entryPa 0x1001 % 2 ^ 45 = tb 4) &&
      (List.range 2).all fun j => let x := e mapped va (j + 3)
        decide (x % 128 / 64 = 0 ∧ x % 4 = 1 ∧ x / 16 % 4 = 0 ∧ x / 2 ^ 56 = 0 ∧ entryPa x < 248000000000 ∧ tb (j + 2) = entryPa x % 2 ^ 45)
    good 0x7008 = true ∧ e mapped 0x7008 2 % 4 = 3 ∧ e mapped 0x7008 2 / 16 % 8 = 0 ∧ e mapped 0x7008 2 / 2 ^ 56 = 0 ∧ entryPa (e mapped 0x7008 2) % 2 ^ 30 = 0 ∧
    good 0x40000000 = true ∧ e mapped 0x40000000 2 % 2 = 0 ∧ readNat mapped (0x5000 + 8 * 9) 8 = 0 ∧ mapped.tlb = [] ∧
    (∃ y, mapped.walk 0 0x7008 = .ok y ∧ (fun (y : DWord × Nat) => decide (y.1.toNat / 2 ^ 62 ≠ 1 ∧ mapped.nodeid.toNat = 0 ∧ entryPa y.1.toNat / 2 ^ y.2 * 2 ^ y.2 + 0x7008 % 2 ^ y.2 < 248000000000)) y = true) ∧
    (let far := qword 0x3000 (2 ^ 45 * 3 + 0x0f) mapped
     ∃ y, far.walk 0 0x7008 = .ok y ∧ (fun (y : DWord × Nat) => decide (y.1.toNat / 2 ^ 62 ≠ 1 ∧ entryPa y.1.toNat / 2 ^ 45 % 2 ^ 11 = 3 ∧ (3 : Nat) ≠ far.nodeid.toNat)) y = true) ∧
    (let off := qword 0x3000 (2 ^ 30 * 300 + 0x0f) mapped
     ∃ y, off.walk 0 0x7008 = .ok y ∧ (fun (y : DWord × Nat) => decide (248000000000 ≤ entryPa y.1.toNat % 2 ^ 45)) y = true) ∧
    (let hit := fun (u : Nat) => ({ mapped with tlb := [(u, 0, 7, 0x0f, 12)] } : State)
     let hits := fun (unit va : Nat) (x : Nat × Nat × Nat × DWord × Nat) => decide (x.1 = unit ∧ x.2.1 = 0 ∧ va / 2 ^ x.2.2.2.2 = x.2.2.1 / 2 ^ (x.2.2.2.2 - 12))
     let only := fun (s : State) (unit : Nat) => s.tlb.any (hits unit 0x7008) && s.tlb.all fun x => !hits unit 0x7008 x || decide (x.2.2.2 = (0x0f, 12))
     only (hit 0) 0 = true ∧ (hit 64).tlb.all (fun x => !hits 0 0x7008 x) = true ∧ only (hit 64) 64 = true ∧
       (hit 1).tlb.all (fun x => !hits 0 0x7008 x && !hits 64 0x7008 x) = true) := by
  and_intros <;> first | decide +kernel | exact ok_of (by decide +kernel)

/-- Invalidates, InvalidationsEnd: the physical function; a virtual function, and one whose context it is not; an invalidation under way with and without
an access that it awaits. -/
def oneAccess : Access := { id := 6, wid := 1, quads := 1, kind := .store, pieces := [{ k := 0, lane := 0, addr := 0x7000, n := 4 }] }
theorem witness_invalidate :
    let s := mapped
    let busy := s.updFunc 0 fun f => { f with invctl := 0x40000000, inv := some [6] }
    let vf := { s with boot := { s.boot with vfEnable := true } }
    s.hostOk 0 = true ∧ 0 < s.funcs.length ∧ bitAt (s.func 0).invctl 30 = false ∧ bitAt (busy.func 0).invctl 30 = true ∧
    vf.hostOk 3 = true ∧ readNat vf (vf.ctxbase.toNat + 8) 8 / 2 ^ 17 % 64 ≠ 3 ∧ s.hostOk 3 = false ∧
    (busy.func 0).inv = some [6] ∧ (∀ a ∈ busy.inflight, a.id ∉ [6]) ∧ ∃ a ∈ ({ busy with inflight := [oneAccess] } : State).inflight, a.id ∈ [6] := by decide +kernel

/-- HostReads, HostWrites, HostAtomics, HostAccessesComplete: window 0 at physical address 0, window 1 at context 0's address 0x40000000, which no page covers,
window 2 off; the offset after the last; a relaxed write that is still to perform; a pool and an enabled trace; an event entry. -/
def windows : State := mapped.updFunc 0 fun f => { f with win := Store.setList [] 0 [0xc000000000000000, 0x8000000000000100] }
def relaxedWrite : State := { windows with inflight := [{ oneAccess with host := some 0 }] }
def pooled : State := dregs [(0x200, 0x8c000100000000ff), (0x208, 0x8000), (0x210, 0x7000)] { windows with pools := [0x9000] }
theorem witness_hostAccesses :
    windows.hostOk 0 = true ∧ windows.hostOk 9 = false ∧ windows.poison = [] ∧ windows.qtbase.toNat < 2 ^ 57 ∧ HostIdle windows ∧ (∀ r ∈ windows.rids, r.pg = false) ∧
    Plain windows 0x7000 8 ∧ (∀ x ∈ windows.tlb, 12 ≤ x.2.2.2.2) ∧ hostByte windows 0 (0x40000000 + 0x100207) .wr = some (some (0x100207 + 16 * 0)) ∧
    hostByte windows 0 0x40007000 .both = some (some 0x7000) ∧ hostByte windows 0 0x40400000 .both = some none ∧ hostByte windows 0 0x80000000 .both = none ∧ hostByte windows 0 0x40800000 .both = some none ∧
    hostByte windows 0 0x40007000 .wr = some (some 0x7000) ∧ hostByte windows 0 0x40007000 .rd = some (some 0x7000) ∧ hostByte windows 0 0x40400000 .rd = some none ∧ (0x40007000 : Nat) % 8 = 0 ∧
    (let off := qword 0x100010 0x0c windows
     bitAt (off.queueWord 0 2) 0 = false) ∧ unitOf 0x7000 ∈ ({ windows with poison := [0x7000] } : State).poison := by
  and_intros
  all_goals first | exact plain_of (by decide +kernel) | decide +kernel | (unfold HostIdle; decide +kernel)

theorem witness_hostOrder :
    (∃ a, relaxedWrite.inflight = [a] ∧ ∃ p, a.pieces = [p] ∧ a.host = some 0 ∧ a.kind = .store ∧ a.acq = false ∧ p.addr + p.n ≤ 2 ^ 45 ∧ Plain relaxedWrite p.addr p.n) ∧
    relaxedWrite.poison = [] ∧ relaxedWrite.hostOk 0 = true ∧ ((relaxedWrite.func 0).win.get ((0x40007000 - 2 ^ 30) / 2 ^ 22)).toNat / 2 ^ 62 = 3 ∧
    (0 % 2 ^ 35 * 2 ^ 22 + 0x40007000 % 2 ^ 22 + 8 ≤ 248000000000 ∧ 0x40007000 % 2 ^ 22 + 8 ≤ 2 ^ 22) ∧
    (pooled.pools = [0x9000] ∧ pooled.fixedByte (0x9000 + 32) = false ∧ hostByte pooled 0 0x40009020 .wr = some (some (0x9000 + 32)) ∧ pooled.hostOk 0 = true) ∧
    (∃ x ∈ pooled.cores, bitAt (x.dreg 0x200) 63 = true ∧ field (x.dreg 0x210) 0 57 = 0x7000) ∧
    (∀ s ∈ [windows, { pooled with qtbase := 0x10000 }], TablesApart s) :=
  ⟨⟨_, rfl, _, rfl, rfl, rfl, rfl, by decide, plain_of (by decide +kernel)⟩, by decide +kernel, by decide +kernel, by decide +kernel, by decide, by decide +kernel,
    by decide +kernel, fun s hs => by unfold TablesApart; revert s; decide +kernel⟩

/-- RemoteWatches: another module's watch, slots of this module that watch a line and a page; a page of another module that a refusal names, and one that it
takes back. -/
theorem witness_watches :
    let s := { mapped with foreign := [(3, 5, false)] }
    let armed := fun (fbk : Bool) => upW (fun w => { w with mons := { armed := true, fbk, line := 640 } :: w.mons.drop 1 }) comp
    let far := { mapped with routes := [(7, [0])] }
    let away := 2 ^ 45 * 7 + 0x8000
    s.boot.state ≠ 0x80 ∧ s.poison = [] ∧ (∃ f ∈ s.foreign, f.2.1 = 645 % 2 ^ 45 / 128) ∧ Plain s 645 4 ∧ s.watches (homeSlice (128 * 5)) < 1024 ∧
    (∃ w, (armed false).wave? 1 = some w ∧ (w.wid = 1 ∧ (w.mons[0]?).map (fun m => decide (m.armed = true ∧ m.fbk = false ∧ m.line / 128 = physKey (armed false) 645 / 128)) = some true)) ∧
    (∃ w, (armed true).wave? 1 = some w ∧ (w.wid = 1 ∧ (w.mons[0]?).map (fun m => decide (m.armed = true ∧ m.fbk = true ∧ m.line / 4096 = physKey (armed true) 900 / 4096)) = some true)) ∧
    isRemoteKey (physKey far away) = true ∧ far.remoteBad (physKey far away) = none ∧ 2 ^ 58 ≤ physKey far away ∧ isRemoteKey (physKey far 0x8000) = false ∧
    (State.remoteBad { far with refused := [(physKey far away / 4096, 0x83)] } (physKey far away) = some 0x83 ∧ physKey far away % 2 ^ 45 < 248000000000) := by
  and_intros <;> first | exact plain_of (by decide +kernel) | decide +kernel | exact some_of' (by decide +kernel)

/-- FaultBufferDrains, FunctionsReset, RemoteRequests, NoticesArrive, PagesUnpin, RegistersWrite, VectorsUnmask, FabricStepsComplete. -/
theorem witness_fabric :
    let s := mapped
    let vf := { s with boot := { s.boot with vfEnable := true } }
    let vector := s.updFunc 0 fun f => { f with pba := f.pba.set 0 0x20 }
    s.hostOk 0 = true ∧ 0 < s.funcs.length ∧ vf.hostOk 3 = true ∧ 3 < vf.funcs.length ∧ vf.poison = [] ∧ Ids vf ∧ (∀ g ∈ vf.groups, vf.ctxFunc g.ctx ≠ 3) ∧
    (∀ l ∈ vf.taken, l.func ≠ 3) ∧ (let q := words 0x100020 [0, 0, 0xc01, 0] vf; bitAt (q.queueWord 1 2) 0 = true ∧ (q.queueWord 1 2).toNat / 2 ^ 10 % 64 = 3) ∧
    s.boot.state ≠ 0x80 ∧ unitOf 0x8000 ∈ ({ s with poison := [0x8000] } : State).poison ∧ Plain s 0x8000 4 ∧
    bitAt s.notice 62 = false ∧ bitAt ({ s with notice := 0x4000000000009000 } : State).notice 62 = true ∧ Plain { s with notice := 0x4000000000009000 } 0x9000 16 ∧
    (plainRegister s 0 0 7 0x08).isSome = true ∧ (plainRegister s 2 0 7 0x1c010).isSome = true ∧ (plainRegister s 4 0 7 0x208).isSome = true ∧ (s.func 0).frz = false ∧
    (∀ n ∈ [5, 6], vector.hostOk 0 = true ∧ 0 < vector.funcs.length ∧ n < 2048) ∧ bitAt ((vector.func 0).pba.get (5 / 64)) (5 % 64) = true ∧
    bitAt ((vector.func 0).pba.get (6 / 64)) (6 % 64) = false := by
  and_intros <;> first | exact plain_of (by decide +kernel) | decide +kernel | (unfold Ids; decide +kernel)

/-- NodesTimeOut: a load from node 7 is in flight, and the fault buffer has room. -/
theorem witness_nodes :
    let out := { upW (fun w => { w with pend := [{ id := 3, quads := 1, win := none, vdst := [8] }] }) (stand .compute (wave 4)) with
      groups := [], cbars := [], inflight := [{ oneAccess with kind := .load false, pend := some 3, pieces := [{ k := 0, lane := 0, addr := 2 ^ 58 + 2 ^ 45 * 7, n := 4, reg := 8 }] }] }
    (∃ a, out.inflight = [a] ∧ ∃ p, a.pieces = [p] ∧ (p.toNode 7 = true ∧ a.kind = .load false ∧ a.scalar = false ∧ a.pend = some 3 ∧ p.n ≠ 8 ∧ a.host = none ∧ a.wid = 1)) ∧
    DistinctWaves out ∧ (∃ w, out.wave? 1 = some w ∧ ∃ x ∈ w.pend, x.id = 3) ∧ out.cbars = [] ∧ (∀ g ∈ out.groups, g.bars = []) ∧
    ((out.func (out.ctxFunc 0)).fbwait = [] ∧ ((out.func (out.ctxFunc 0)).fbtail - (out.func (out.ctxFunc 0)).fbhead).toNat < 2 ^ field (out.func (out.ctxFunc 0)).fbctl 0 4 ∧
      out.poison = [] ∧ out.ctxFunc 0 < out.funcs.length) := by
  refine ⟨⟨_, rfl, _, rfl, by decide +kernel⟩, by unfold DistinctWaves; decide +kernel, ⟨_, rfl, ⟨_, .head _, rfl⟩⟩, rfl, by decide +kernel, by decide +kernel⟩

/-! ## Boot and reliability -/

/-- A module that boots in a stage; one whose mailbox runs a command. -/
def boots (stage : BitVec 8) : State := { State.reset with boot := { State.reset.boot with stage } }
def command (cmd len : BitVec 16) (state : BitVec 8) : State := { mapped with boot := { mapped.boot with state, busy := true, cmd, len, run := (cmd, len) } }

theorem witness_boot :
    Booting (boots 1) 1 ∧ Booting (boots 2) 2 ∧ Booting (boots 3) 3 ∧ Booting (boots 4) 4 ∧ ¬ Booting mapped 1 ∧ mapped.boot.state ≠ 0x80 ∧
    checkImage (boots 2).boot.imageA 0 = .error 4 ∧ checkImage (boots 2).boot.imageB 0 = .error 4 := by
  unfold Booting
  and_intros <;> first | rfl | decide +kernel

/-- FirmwareVerifies: an image of no body and no signature is accepted if the signature check, which the spec leaves to FIPS 206, accepts it; one with
another magic is not. -/
def image : List Byte := toBytes 4 0x6c4e414c ++ toBytes 4 5 ++ toBytes 8 0 ++ List.replicate 48 0
theorem witness_image : (Config.falconVerify (digest64 image) [] = true → checkImage image 3 = .ok (5, digest64 image)) ∧ checkImage (List.replicate 64 0) 3 = .error 1 := by
  refine ⟨fun h => ?_, rfl⟩
  have h1 : image.length = 64 := by decide +kernel
  have h2 : ofBytes ((image.drop (4 * 2)).take 4) = 0 := by decide +kernel
  have h3 : ofBytes ((image.drop (4 * 3)).take 4) = 0 := by decide +kernel
  have h4 : image.take 64 = image := by rw [← h1, List.take_length]
  unfold checkImage
  simp only [h1, h2, h3, Nat.add_zero, h4, List.take_zero, h]
  rw [if_neg (by decide), if_neg (by decide +kernel), if_neg (by decide), if_neg (by decide +kernel), if_neg (by decide +kernel)]
  congr 1

/-- SelfTests: defects that spares absorb, and one more core of a panel after them. -/
theorem witness_selfTest :
    let found := [Defect.core 3, .slice 20, .unlinked 4]
    (∀ d ∈ found, unabsorbed d = none) ∧ (found.filterMap spareOf).Nodup ∧ unabsorbed (.device 6) = some (0x0104, 6) := by decide +kernel

/-- MailboxResponds, MailboxWrites: each command with its length, one with another length, RETRY_BOOT in the safe state; a mailbox at rest, and busy. -/
theorem witness_mailbox :
    (∀ x ∈ [((1 : BitVec 16), (32 : BitVec 16)), (2, 0), (3, 0), (4, 0)], let b := (command x.1 x.2 5).boot; b.busy = true ∧ b.run.1 = x.1 ∧ b.state ≠ 0x01 ∧ b.run.2 = x.2 ∧
      b.meas0.length = 64 ∧ b.meas1.length = 64 ∧ b.selfSum.length = 64) ∧
    (command 1 31 5).boot.run.2 ≠ 32 ∧ (command 4 0 0x80).boot.state = 0x80 ∧ mapped.inStage 1 = false ∧ mapped.boot.busy = false ∧ mapped.boot.state ≠ 0x01 ∧
    (command 1 0 5).inStage 1 = false := by
  have hb : mapped.boot.meas0.length = 64 ∧ mapped.boot.meas1.length = 64 ∧ mapped.boot.selfSum.length = 64 := by decide +kernel
  refine ⟨fun _ _ => ⟨rfl, rfl, show (5 : BitVec 8) ≠ 1 by decide, rfl, hb⟩, by decide, rfl, ?_, ?_, ?_, by decide⟩
  all_goals decide +kernel

/-- SramScrubs: a row that has needed 15 corrections, a slice with 4,095 of them, a cache that holds a line, the palette of a group of function 2's context,
a wave of a core that had a group-fatal error. -/
theorem witness_sram :
    let spares := fun (f : Spares → Spares) => ({ mapped with spares := f mapped.spares } : State)
    let often := spares fun x => { x with sram := List.replicate 15 (2 ^ 24 * 1 + 2 ^ 16 * 2 + 9, 0) }
    let slice := fun (n : Nat) => spares fun x => { x with sliceErrs := List.replicate n (5, 0) }
    let pal := upG (fun g => { g with psize := 64, ctx := 1 }) (qword (64 + 8) 0x40000 { comp with ctxbase := 0 })
    mapped.cores.length = 64 ∧ mapped.energy.ecnt.length = 4 ∧
    15 ≤ (often.spares.sram.filter fun x => x.1 = 2 ^ 24 * 1 + 2 ^ 16 * (2 % 256) + 9 % 2 ^ 16 ∧ often.time < x.2 + 10 * 2 ^ 30).length ∧
    4095 ≤ ((slice 4095).spares.sliceErrs.filter fun x => x.1 = 5 ∧ (slice 4095).time < x.2 + 7 * 2 ^ 32).length ∧
    ((slice 1).spares.sliceErrs.filter fun x => x.1 = 5 ∧ (slice 1).time < x.2 + 7 * 2 ^ 32).length < 4095 ∧ (5 : Nat) ∉ (slice 1).spares.gone ∧
    ((3 : Nat), 40) ∈ ({ mapped with copies := [(3, 40)] } : State).copies ∧
    (∃ g, pal.groups = [g] ∧ g.core = 0 ∧ g.state ≠ .saved ∧ g.pbase ≤ 5 ∧ 5 < g.pbase + g.psize ∧ g.ctx < 0xffff ∧ pal.ctxbase.toNat < 2 ^ 56 ∧ pal.ctxFunc g.ctx ≠ 0) ∧
    (∃ w, comp.wave? 1 = some w ∧ (w.gid = 1 ∧ w.core < 64)) ∧ 1 ≤ ((upC (fun c => { c with fatal := 1 }) comp).core 0).fatal := by
  and_intros
  all_goals first | decide +kernel | exact some_of' (by decide +kernel) | exact ⟨_, rfl, by decide +kernel⟩

/-- GddrScrubs, RebuildEnds, CoresRetire, SlicesRetire, SpanPorts. -/
theorem witness_reliability :
    let rebuilding := fun (d : Nat) => { mapped with spares := { mapped.spares with rebuild := some d } }
    let spent := { mapped with spares := { mapped.spares with cores := [(0, 5)], slices := [(0, 5)] }, groups := [] }
    mapped.spares.devices = [] ∧ 128 * 5 < 248000000000 ∧ (∀ row, countAt mapped.spares.rows row + 1 < 16) ∧
    (∀ row, countAt [(row, 15)] row + 1 = 16) ∧ countAt [(lineDevice 5, 1023)] (lineDevice 5) + 1 = 1024 ∧
    (rebuilding 3).spares.rebuild = some 3 ∧ mapped.spares.rebuild = none ∧ (0 : Nat) ∉ mapped.spares.offline ∧
    ((rebuilding (lineDevice 5)).spares.rebuild = some (lineDevice 5) ∧ (rebuilding (lineDevice 5 + 1)).spares.rebuild ≠ some (lineDevice 5) ∧
      lineDevice 5 ∉ (rebuilding (lineDevice 5 + 1)).spares.devices) ∧
    (∃ g ∈ comp.groups, g.core = 0 ∧ g.state ≠ .saved) ∧ comp.cores.length = 64 ∧ (∀ g ∈ spent.groups, g.core = 0 → g.state = .saved) ∧
    (spent.core 0).heldImages = [] ∧ (∃ x ∈ spent.spares.cores, x.1 = 0) ∧ (∀ x ∈ mapped.spares.cores, x.1 ≠ 0) ∧ (∃ x ∈ spent.spares.slices, x.1 = 0) ∧
    (∀ x ∈ mapped.spares.slices, x.1 ≠ 0) ∧ (7 : Nat) ∉ spent.spares.gone ∧ (∃ k, k / 16 = 7 / 16 ∧ k ≠ 7 ∧ k ∉ spent.spares.gone) ∧ (spent.lines.map (·.line)).Nodup ∧
    (4 : Nat) ∉ mapped.spares.down ∧ ((4 : Nat), 8) ∉ mapped.spares.lanes ∧ mapped.energy.ecnt.length = 4 := by
  and_intros
  all_goals try first | decide +kernel | exact some_of' (by decide +kernel) | exact ⟨6, by decide +kernel⟩
  · intro row
    rw [show mapped.spares.rows = [] by decide +kernel]
    exact (by decide : (0 : Nat) + 1 < 16)
  · intro row; simp [countAt]
  · simp [countAt]
  · simp
  · simp

/-! ## Debug, trace, causal trials, counters -/

/-- HaltsBegin, HaltsComplete, Resumes: a core that runs, that halts, and that is halted. -/
theorem witness_halts :
    let going := debug (fun d => { d with halting := true }) comp
    let stopped := debug (fun d => { d with halted := true }) comp
    comp.hostOk 0 = true ∧ 0 < comp.cores.length ∧ (comp.core 0).dbg.halted = false ∧ (stopped.core 0).dbg.halted = true ∧ (going.core 0).dbg.halting = true ∧
    going.atRest 0 = true ∧ State.hostOk { comp with boot := {} } 0 = false ∧ (∃ w, stopped.wave? 1 = some w ∧ NothingOver w) ∧ (∀ c ∈ List.range 64, c ≠ 0 → (stopped.core c).dbg.halted = false) ∧
    (let held := debug (fun d => { d with halted := true }) (upW (fun w => stands 3 0 {} w) comp)
     ∃ w, held.wave? 1 = some w ∧ (w.core = 0 ∧ w.dead = false ∧ w.handler.run = false ∧ (∃ g ∈ held.groups, g.gid = w.gid ∧ g.state = .resident) ∧
       w.split.length = 16 ∧ w.aux.length = 16 ∧ (w.ent 0).isPart = true ∧ (w.ent 0).st = stParkf ∧ (w.auxAt 0).park = .none ∧ (w.auxAt 0).rids = [])) := by
  have quiet : ∀ {x : Option Wave}, someWith x (fun w => decide (∀ e ∈ List.range 16, (w.auxAt e).park = .none ∧
      ¬ ((w.ent e).isPart = true ∧ (w.ent e).st = stParkf ∧ (w.auxAt e).rids = []))) = true → ∃ w, x = some w ∧ NothingOver w := fun h => by
    obtain ⟨w, hw, h⟩ := some_of' h
    exact ⟨w, hw, fun e he =>
      have h := h e (List.mem_range.mpr he)
      ⟨fun b => by rw [h.1]; exact Park.noConfusion, fun b => by rw [h.1]; exact Park.noConfusion, h.2⟩⟩
  and_intros
  all_goals first
    | exact quiet (by decide +kernel)
    | decide +kernel
    | exact some_of' (by decide +kernel)

/-- ComparatorsMatch: the first comparator matches the part at word 0 and traps, or halts the core; one of each kind; none matches. -/
theorem witness_comparators :
    let traps := dregs [(0x100, 0x8000000000000000)] comp
    let halts := dregs [(0x100, 0xc000000000000000)] comp
    let at' := fun (s : State) (c : Ctx) => decide (c.hnd = false ∧ c.bank.phase = false ∧ c.aux.skipCmp ≠ some c.pc ∧ c.aux.hints = 0 ∧
      ((s.core c.w.core).dreg 0x100).toNat / 2 ^ 63 = 1 ∧ ((s.core c.w.core).dreg 0x100).toNat % 2 ^ 17 = c.pc.toNat ∧ ((s.core c.w.core).dreg 0x100).toNat / 2 ^ 61 % 2 = 0 ∧
      (s.core c.w.core).dreg 0x108 = 0 ∧ c.w.core < s.cores.length)
    Meets [(.trap 4, traps, fun c => at' traps c && trapsB traps c && decide ((traps.core c.w.core).dreg 0x100 &&& 0x4000000000000000 = 0)),
      (.trap 4, halts, fun c => at' halts c && decide ((halts.core c.w.core).dreg 0x100 &&& 0x4000000000000000 ≠ 0 ∧ c.ent < c.w.aux.length)),
      (.trap 4, dregs [(0x110, 0xc000000000000000)] traps, fun c => let s := dregs [(0x110, 0xc000000000000000)] traps
        trapsB s c && decide (((s.core c.w.core).dreg 0x110).toNat / 2 ^ 63 = 1 ∧ ((s.core c.w.core).dreg 0x110).toNat % 2 ^ 17 = c.pc.toNat ∧
          ((s.core c.w.core).dreg 0x110).toNat / 2 ^ 61 % 2 = 0 ∧ (s.core c.w.core).dreg 0x118 = 0 ∧ (s.core c.w.core).dreg 0x110 &&& 0x4000000000000000 ≠ 0)),
      (.trap 4, comp, fun c => decide (((comp.core c.w.core).dreg 0x100).toNat / 2 ^ 63 = 0))] := meets (by decide +kernel)

/-- TracesEnable, TracesSample, StagingDrains: a buffer that fits and one that does not, off and on; a sample that is due, of a part that is traced; a packet
that fits and one that does not. -/
theorem witness_traces :
    let on := dregs [(0x200, 0x8c000100000000ff), (0x208, 0x8000), (0x210, 0x9000)] comp
    let due := debug (fun d => { d with smp := true }) on
    let staged := debug (fun d => { d with staged := [[1, 2]] }) on
    let full := debug (fun d => { d with tw := 4096 }) staged
    comp.hostOk 0 = true ∧ bitAt ((comp.core 0).dreg 0x200) 63 = false ∧ bitAt ((on.core 0).dreg 0x200) 63 = true ∧
    ((on.core 0).dreg 0x208).toNat % 2 ^ 57 % 2 ^ 12 = 0 ∧ ((on.core 0).dreg 0x210).toNat % 2 ^ 57 % 64 = 0 ∧ on.poison = [] ∧
    (due.core 0).dbg.smp = true ∧ (∃ w, due.wave? 1 = some w ∧ (w.core = 0 ∧ (w.ent 0).isPart = true ∧ w.part < 8 ∧ w.slot < 16 ∧ due.tracing w = true ∧
      (∃ g ∈ due.groups, g.gid = w.gid ∧ g.state ≠ .saved) ∧ (due.core 0).dbg.sampled ≤ 4096 * w.part + 64 * w.slot ∧ due.waves = [w])) ∧
    (∀ s ∈ [staged, full], (s.core 0).dbg.staged = [[1, 2]] ∧ s.poison = [] ∧ ∀ c ∈ List.range 64, c ≠ 0 → (s.core c).dbg.staged = []) ∧
    (let fits := fun (s : State) => decide (4 * 2 ≤ 2 ^ (((s.core 0).dreg 0x200).toNat / 2 ^ 56 % 64) -
        (BitVec.ofNat 64 (s.core 0).dbg.tw - BitVec.ofNat 64 (readNat s (((s.core 0).dreg 0x210).toNat % 2 ^ 57 + 8) 8)).toNat)
     fits staged = true ∧ fits full = false) := by
  and_intros <;> first | decide +kernel | exact some_of' (by decide +kernel)

/-- TrialsStart, TrialsDelayAndEnd: no trial; one that runs with a delay due; one whose time is over. -/
theorem witness_trials :
    let runs := debug (fun d => { d with run := true, dacc := 20 }) (dregs [(0x300, 100), (0x318, 5)] comp)
    let over' := dregs [(0x318, 100)] runs
    (comp.core 0).dbg.run = false ∧ (∃ c ∈ runs.cores, c.dbg.run = true ∧ c.dbg.halted = false ∧ c.dbg.delay = false ∧ 16 ≤ c.dbg.dacc ∧
      (c.dreg 0x318).toNat % 2 ^ 48 < (c.dreg 0x300).toNat % 2 ^ 32) ∧
    ∃ c ∈ over'.cores, c.dbg.run = true ∧ (c.dreg 0x300).toNat % 2 ^ 32 ≤ (c.dreg 0x318).toNat % 2 ^ 48 := by
  and_intros <;> decide +kernel

/-- CountersFlush, CountersConfigure, CountersFreeze: counter 0 of function 0 counts event 5 and is taken over its threshold, with an event queue that permits the function. -/
theorem witness_counters :
    let s := qword 0x200208 1 (mapped.updFunc 0 fun f => { f with ctr := Store.setList [] 0 [0xa000000000000005, 7, 10], staged := Store.setList [] 21 [6] })
    (s.func 0).staged = [(21, 6)] ∧ ((s.func 0).ctr.get 0).toNat / 2 ^ 63 = 1 ∧ ((s.func 0).ctr.get 0).toNat % 2 ^ 16 = 21 / 4 ∧
    ((s.func 0).ctr.get 0).toNat / 2 ^ 16 % 16 = 0 ∧ bitAt ((s.func 0).ctr.get 0) 59 = false ∧ bitAt ((s.func 0).ctr.get 0) 61 = true ∧
    ((s.func 0).ctr.get 0).toNat / 2 ^ 54 % 16 = 0 ∧ (readNat s (s.qtbase.toNat + 0x100200 + 8) 8).testBit 0 = true ∧ s.events[0]? = some [] ∧
    (∀ g ∈ List.range 64, g ≠ 0 → (s.func g).staged = []) ∧ (∀ m ∈ List.range 8, m ≠ 0 → (s.func 0).counts m 5 1 = false) ∧
    ((s.func 0).ctr.get 1).toNat < 10 ∧ 10 ≤ ((s.func 0).ctr.get 1).toNat + 6 ∧ (s.func 0).frz = false ∧ s.hostOk 0 = true ∧ 0 < s.funcs.length ∧
    ((s.updFunc 0 fun f => { f with frz := true }).func 0).frz = true := by decide +kernel

end Sys2Proof.Tests
end

