-- ==== Sys2Proof/Tests/Slice0.lean ====
section
/-!
SUPPORT. Tests. The words and the outcomes are the spec's: the fields of the opcode table laid out as R109 to R141 give them, and its worked
examples.
-/
namespace Sys2Proof.Tests
open Machine
set_option Elab.async false

/-! ## Decoding: for every encoded row a word with its MAJ and FN and other fields filled in, and the instruction it stands for -/

def words0 : List (Word × Instr) :=
  [(0x04000000, .nop),
   (0x04100000, .exit),
   (0x042005c0, .ret 23),
   (0x04300000, .join),
   (0x04400000, .fuse),
   (0x04505140, .trap 325),
   (0x04600000, .rte),
   (0x0471e1b7, .srd 15 439),
   (0x0486a1dd, .swr 53 477),
   (0x04964007, .splrd 25 1 3),
   (0x04a7c01f, .splwr 31 7 3),
   (0x04b0d2c0, .cfetch 3 75),
   (0x04c01240, .cwait 73),
   (0x04d09b41, .rgnEnter 621),
   (0x04d0a4c0, .rgnLeave 659),
   (0x04e0adc0, .prog 695),
   (0x04f0b740, .bkpt 733),
   (0x05002000, .sleep 1),
   (0x0514e3c0, .evsig 39 15),
   (0x052b0003, .fence 11 3),
   (0x05300440, .bar 17),
   (0x0542a740, .barx 21 29),
   (0x055760c0, .bart 59 3),
   (0x056003c0, .cbar 15),
   (0x05714002, .mon 5 2),
   (0x05852000, .monw 41),
   (0x0581e001, .monwG 15),
   (0x05900003, .monc 3),
   (0x05a48040, .cpya 9 1),
   (0x080004bd, .bra 1213 none)]
def words1 : List (Word × Instr) :=
  [(0x0898b549, .brc 3 11 1353 none),
   (0x0900752f, .call 7 1327 none),
   (0x0982d155, .jmpf 45 341),
   (0x0c6bcdb7, .brd 1 1401 1463 none),
   (0x10000577, .wideImmediateHint 1399),
   (0x116c3000, .branchExtensionHint 27 3),
   (0x120000c1, .hintYield 193),
   (0x12100000, .hintUniform),
   (0x18082e33, .dict 523 563),
   (0x217972a0, .sadd 47 23 21),
   (0x20abd761, .ssub 21 61 59),
   (0x21ca13e2, .smul 57 33 31),
   (0x20f870a3, .smulh 31 7 5),
   (0x201ab524, .smulhN32 3 43 41),
   (0x214911e5, .sand 41 17 15),
   (0x206b5666, .sor 13 53 51),
   (0x2199b327, .sxor 51 27 25),
   (0x20bbf7a8, .sshl 23 63 61),
   (0x21ea5469, .sshr 61 37 35),
   (0x210890ea, .ssra 33 9 7),
   (0x203af5ab, .smin 7 47 45),
   (0x2159322c, .sminN32 43 19 17),
   (0x208b96ed, .smax 17 57 55),
   (0x21a9d36e, .smaxN32 53 29 27),
   (0x20d8300f, .smov 27 3),
   (0x21fa74b0, .ssel 63 39 37),
   (0x2128d171, .scmpEq 37 13 11),
   (0x204b15f2, .scmpNe 9 49 47),
   (0x217972b3, .scmpLt 47 23 21),
   (0x209bb734, .scmpLe 19 59 57)]
def words2 : List (Word × Instr) :=
  [(0x21ca13f5, .scmpLtN32 57 33 31),
   (0x20e85076, .scmpLeN32 29 5 3),
   (0x20316257, .saddB64 3 11 9),
   (0x2071e358, .ssubB64 7 15 13),
   (0x20d2a019, .smovB64 13 21),
   (0x218992fa, .sshlImm 49 25 23),
   (0x20bbf3bb, .sshrImm 23 63 29),
   (0x21da303c, .ssraImm 59 35 1),
   (0x25089ac7, .saddImm 33 9 2759 none),
   (0x28280aad, .sli 5 2733 none),
   (0x2d593b11, .sandImm 43 19 2833 none),
   (0x307b7b35, .sorImm 15 55 2869 none),
   (0x35a9db5b, .sxorImm 53 29 2907 none),
   (0x38c87ffd, .sld 25 1 15 1 none),
   (0x3df9ff85, .sst 63 7 1 none),
   (0x4c5c93a0, .vadd 3 11 73 29 none),
   (0x4d8ef861, .vsub 3 49 111 67 none),
   (0x4ea93ce2, .vmul 3 85 19 103 none),
   (0x4fdb91a3, .vfma 3 123 57 13 none),
   (0x4cfdd624, .vfms 3 31 93 49 none),
   (0x4e283ae5, .vmin 3 69 3 87 none),
   (0x4f4a7f66, .vmax 3 105 39 123 none),
   (0x4c7cd007, .vrnd 3 15 77 none),
   (0x4c1f18af, .vcmpF 3 3 113 69 7 none),
   (0x46c97170, .vrcp 1 89 23 11 none),
   (0x47ebb1f1, .vrsq 1 125 59 15 none),
   (0x451e10b2, .vsqrt 1 35 97 5 none),
   (0x46385133, .vexp2 1 71 5 9 none),
   (0x476ab1f4, .vlog2 1 109 43 15 none),
   (0x448cf075, .vsin 1 17 79 3 none)]
def words3 : List (Word × Instr) :=
  [(0x45bf5136, .vcos 1 55 117 9 none),
   (0x46d991b7, .vtanh 1 91 25 13 none),
   (0x5c0bf260, .viadd 3 1 63 19 none),
   (0x5d2e36e1, .visub 3 37 99 55 none),
   (0x5e589ba2, .vimul 3 75 9 93 none),
   (0x5f7ad023, .vimulh 3 111 45 1 none),
   (0x5cad34e4, .vimad 3 21 83 39 none),
   (0x5dcf7965, .vimin 3 57 119 75 none),
   (0x5ef9de26, .vimax 3 95 29 113 none),
   (0x5c1c12a7, .vshl 3 3 65 21 none),
   (0x5d4e7768, .vshr 3 41 103 59 none),
   (0x5e68bbe9, .vsra 3 77 11 95 none),
   (0x5f9b10aa, .vbfe 3 115 49 5 none),
   (0x5cbd552b, .vbfi 3 23 85 41 none),
   (0x5defb00c, .vpopc 3 61 123 none),
   (0x5f09f00d, .vclz 3 97 31 none),
   (0x5ef878ae, .vdot4 95 7 69 none),
   (0x5c5e97b7, .vcmpI 3 11 105 61 7 none),
   (0x614d108f, .viaddImm 41 81 143 none none),
   (0x66680075, .vmovi 77 117 none none),
   (0x6b99bb20, .vand 115 27 89 none),
   (0x68bbffa1, .vor 23 63 125 none),
   (0x69ee5462, .vxor 61 101 35 none),
   (0x6b089003, .vnot 97 9 none),
   (0x683af004, .vmov 7 47 none),
   (0x695d3235, .vsel 43 83 17 5 none),
   (0x6e8f9b8b, .vcvt 81 121 23 11 none),
   (0x73a9db6f, .vpack 117 29 91 15 none),
   (0x74dc30df, .vunpk 27 67 1 2 31 none),
   (0x81fe74a6, .vshfl 63 103 37 1 1 none)]
def words4 : List (Word × Instr) :=
  [(0x8728d97e, .vbcst 101 13 75 7 1 none),
   (0x884b1e0c, .wred 9 49 7 3 none),
   (0x897d7b0d, .wscan 47 87 5 1 3 none),
   (0x8d30b004, .vballot 19 11 1 none),
   (0x8c4a101d, .vconf 9 33 7 none),
   (0x90685060, .mand 13 5 3),
   (0x9018b121, .mor 3 11 9),
   (0x9038f1a2, .mxor 7 15 13),
   (0x90685003, .mnot 13 5),
   (0x91889004, .mpopc 49 9),
   (0x90b8f005, .mffs 23 15),
   (0x90583006, .mmovMm 11 3),
   (0x90109007, .mmovMs 1 9),
   (0x9029a008, .mmovSm 5 13),
   (0xa35ce8af, .vld 107 19 81 5 7 none none),
   (0xa47dfacb, .vldAcq 15 23 117 9 3 none none),
   (0xa9af4d87, .vst 53 29 27 7 none none),
   (0xaec85f83, .vstRel 89 1 63 3 none none),
   (0xb3f813a9, .vldp 127 39 5 1 none none),
   (0xb5182581, .vstp 35 75 1 none none),
   (0xba4c579d, .vatom 73 17 47 3 5 none none),
   (0xbf6d69b9, .vatomNear 109 21 83 7 1 none none),
   (0xc09efcef, .vatomHome 19 27 121 13 7 none none),
   (0xc5bfcec3, .vared 55 31 29 2 3 none none),
   (0xcae80a19, .fgath 93 5 3 1 none none),
   (0xcc005481, .pref 1 41 1 none none),
   (0xd001e785, .disc 7 79 5 none none),
   (0xd564e22f, .tsmp 11 19 17 5 7 none none),
   (0xe0166f60, .prime 1 25 23 11),
   (0xe0d3defc, .mma 5 61 59 15)]
def words5 : List (Word × Instr) :=
  [(0xe1300000, .mfence 3),
   (0xe1f00007, .bwait 7 7),
   (0xe1d80000, .bwaitAll 5),
   (0xe21d10f0, .accz 1 209 15),
   (0xe37f76a1, .accwr 7 247 53 1),
   (0xe3b006c0, .setscA 3 27),
   (0xe3980040, .setscB 1 1),
   (0xe45ca3a0, .qntz 5 101 3 2 1),
   (0xe4b169d0, .dqnz 3 11 9 13),
   (0xe575ed10, .olrd 7 47 13 1),
   (0xead13ce3, .accrdReg 5 5 19 103 1 1),
   (0xec9375d4, .accrdMem 1 1 55 11 21),
   (0xf006e7c0, .mcnt 55 31),
   (0xf0136304, .mvtx 27 3 1),
   (0xf0283a40, .mprim 65 105),
   (0xf03ca68b, .vintp 101 13 11),
   (0xf0458003, .pxw 11 3),
   (0xf051e000, .pxk 15),
   (0xf06a8002, .glzin 21 2),
   (0xf07c887e, .glzrd 25 33 15 2),
   (0xf087c396, .glzres 31 7 5 2),
   (0xf0900182, .glzclr 3 2),
   (0xf0a208bc, .rbox 1 17 15),
   (0xf0ba1a8c, .rtri 5 53 3),
   (0xf0c676c0, .wapp 51 91),
   (0xf0daeff4, .wtake 87 63 13),
   (0xf0e7a000, .wqui 61)]

/-- The bundle of the word alone is the instruction. -/
def reads (x : Word × Instr) : Bool := match decodeIssue [x.1] 0 with | .ok i => i = x.2 | .error _ => false
theorem test_words0 : words0.all reads = true := by decide
theorem test_words1 : words1.all reads = true := by decide
theorem test_words2 : words2.all reads = true := by decide
theorem test_words3 : words3.all reads = true := by decide
theorem test_words4 : words4.all reads = true := by decide
theorem test_words5 : words5.all reads = true := by decide

/-- A bundle of three words: `VFMA.f32.rtz v8, v2, v3, v9` of 06 is a prefix and a word; a wide-immediate hint before the RI word of R97. -/
theorem test_prefixed : (match decodeIssue [0x14080090, encodeWord (.vfma 0 8 2 3 none)] 0 with
    | .ok i => i == .vfma 0 8 2 3 (some { Pfx.zero with rnd := 1, fop := 9 }) | .error _ => false) = true := by decide +kernel
/-- MAJ 0x3f names no instruction (R114). -/
theorem test_reserved : (match decodeIssue [0xfc000000] 0 with | .ok _ => false | .error _ => true) = true := by decide +kernel
/-- The table's reader, on the word of the split example of R33's file. -/
theorem test_table : decodeTableWord 32 0x0d404010 = some (.brd 5 8 16 none) := by decide +kernel

/-! ## Ill-formed instructions: each check of R142 refuses one -/

def q (f : Pfx → Pfx) : Option Pfx := some (f Pfx.zero)
def illFormed : List Instr :=
  -- R104: a misaligned pair; a block beyond v127; a scalar, a mask out of range; m0 as a destination
  [.vadd 3 3 4 6 none, .accwr 3 0 120 0, .vcmpF 0 16 1 2 0 none, .vcmpF 0 0 1 2 0 none, .mnot 0 1, .swr 70 4]
def illFields : List Instr :=
  -- R119: a type that is none; one that the instruction does not list. R118: a rounding code, and rounding, FTZ, saturation, signs, `.z`, an addend where they do not belong
  [.vadd 0 1 2 3 (q fun p => { p with ty := 0x13 }), .vadd 0 1 2 3 (q fun p => { p with ty := 7 }), .vadd 0 1 2 3 (q fun p => { p with rnd := 5 }),
   .viadd 0 1 2 3 (q fun p => { p with rnd := 1 }), .viadd 0 1 2 3 (q fun p => { p with ftz := true }), .vadd 0 1 2 3 (q fun p => { p with sat := true }),
   .viadd 0 1 2 3 (q fun p => { p with na := true }), .vrnd 0 1 2 (q fun p => { p with nb := true }), .vst 1 0 0 4 none (q fun p => { p with z := true }),
   .vadd 0 1 2 3 (q fun p => { p with fop := 4 })]
def illOthers : List Instr :=
  -- R122, R123: hints that do not fit. R107, R108: WM, scope. R137: access sizes. R168: special registers
  [.sli 1 2 (some 0x100000), .bra 4 (some ⟨0x20, 0⟩), .mma 5 0 0 4, .fence 1 5, .fence 0 1, .vld 1 0 0 1 7 none none, .vst 1 0 0 1 none none,
   .srd 1 0x0d, .srd 3 8, .srd 64 2, .vldp 1 0x7f 0 0 none none, .vcvt 1 2 0 1 none, .vpack 1 4 3 5 none, .wred 1 2 6 0 none, .wred 1 2 3 0 (q fun p => { p with ty := 1 }),
   .accz 3 200 100, .qntz 3 1 0 1 1, .olrd 1 1 0 0, .hintYield 0, .brc 5 0 0 none, .vared 1 0 0 0 7 none none, .tsmp 0 0 0 0 3 none none, .vcmpI 0 1 2 3 6 none]
theorem test_illFormed : (illFormed ++ illFields ++ illOthers).any WellFormed = false := by decide +kernel

/-! ## One step -/

/-- The step that fetches a word at reset, with what the model does to place it (log 13). -/
def runs (w : Nat) (p : State → Bool) : Bool := match step (State.reset.withFetchWord 32 w) with | .next t => p t | _ => false
/-- `NOP` goes on; `SLI s5, 0x123` writes 0x123 (R164). -/
theorem test_nop : runs 0x04000000 (fun t => t.waves.all fun w => decide ((w.ent 0).pc = 1)) = true := by decide +kernel
theorem test_sli : runs (encodeWord (.sli 5 0x123 none)).toNat (fun t => t.waves.all fun w => w.banks.all fun b => decide (b.sreg.get 5 = 0x123)) = true := by
  decide +kernel

/-- The split example under R32: a root of 32 lanes at word 0x100, lanes 24 to 27 gone, lanes 0 to 15, 20 and 21 taking the branch. -/
def splitting : State :=
  setM [(5, 0x0030ffff)] (stand .compute { (wave 32) with
    exited := 0x0f000000, split := { kind := 1, qmask := 0xff, lmask := 0xf0ffffff, pc := 0x100 } :: List.replicate 15 {} })
theorem test_split : nextWith (exec (.brd 5 8 16 none) splitting) (fun t => t.waves.all fun w => decide (w.split = ([
    { kind := 2, qmask := 0xff, lmask := 0xf0ffffff, pc := 0x100, jpc := 0x110 }, { kind := 1, pv := true, qmask := 0x0f, lmask := 0xffff, pc := 0x108 },
    { kind := 1, pv := true, qmask := 0x10, lmask := 0xf0000, pc := 0x101 }, { kind := 1, pv := true, qmask := 0x20, lmask := 0x300000, pc := 0x108 },
    { kind := 3, pv := true, parent := 3, qmask := 0x20, lmask := 0xc00000, pc := 0x101, jpc := 0x110 },
    { kind := 1, pv := true, qmask := 0xc0, lmask := 0xf0000000, pc := 0x101 }] : List SplitEntry) ++ (List.replicate 10 {} : List SplitEntry))) = true := by decide +kernel

/-- The example under R199: `VSHFL.b32.w8 v7, v2, v6` with lane 9 gone and 9 in v6. -/
def shuffling : State :=
  setV [(6, 9)] (stand .compute { (wave 16) with
    exited := 0x200, split := { kind := 1, qmask := 0xf, lmask := 0xfdff } :: List.replicate 15 {}, vreg := Store.setList [] 128 ((List.range 16).map fun l => BitVec.ofNat 32 (l + 40)) })
theorem test_shuffle_traps : nextWith (exec (.vshfl 7 2 6 1 0 none) shuffling) (fun t => t.waves.all fun w =>
    decide ((w.auxAt 0).trap.map (·.mask) = some 0xfd00 ∨ w.handler.treg.tmask = 0xfd00) && decide (w.vreg.get (64 * 7) = 0)) = true := by decide +kernel
theorem test_shuffle_zeroes : nextWith (exec (.vshfl 7 2 6 1 1 none) shuffling) (fun t => t.waves.all fun w =>
    decide ((List.range 16).map (fun l => w.vreg.get (64 * 7 + l)) = List.replicate 8 41 ++ List.replicate 8 0)) = true := by decide +kernel

/-- The example under R202: `WRED.add.f32.w8 v5, v4 ?m2`. -/
def reducing : State :=
  setM [(2, 0xfff7)] (stand .compute { (wave 16) with vreg := Store.setList [] 256 (0x4b800000 :: List.replicate 15 0x3f800000) })
theorem test_reduction : nextWith (exec (.wred 5 4 0 1 (q fun p => { p with pm := 2, ty := 1 })) reducing) (fun t => t.waves.all fun w =>
    decide ((List.range 16).map (fun l => w.vreg.get (64 * 5 + l)) = List.replicate 3 0x4b800002 ++ [0] ++ List.replicate 4 0x4b800002 ++ List.replicate 8 0x41000000)) = true := by
  decide +kernel

/-- The example under R284: C goes between A and B of a full list, the farther pair merges, and the composite over white has the bits given there. -/
def listAB : GList :=
  { va := 0, idx := [0, 1], nodes := [{ depth := 0x3e800000, r := 0x3800, g := 0, b := 0, a := 0x3800, flags := 0, cov := 15 },
                                      { depth := 0x3f400000, r := 0, g := 0, b := 0x3400, a := 0x3400, flags := 0, cov := 15 }] }
theorem test_glaze_merges : ((listAB.insert 0 2 { depth := 0x3f000000, r := 0, g := 0x3800, b := 0, a := 0x3800, flags := 0, cov := 15 } .none).nodes.map
    fun n => (n.depth, n.r, n.g, n.b, n.a)) = [(0x3e800000, 0x3800, 0, 0, 0x3800), (0x3f000000, 0, 0x3800, 0x3000, 0x3900)] := by decide +kernel
theorem test_glaze_resolves : (listAB.insert 0 2 { depth := 0x3f000000, r := 0, g := 0x3800, b := 0, a := 0x3800, flags := 0, cov := 15 } .none).resolve
    0x3c003c00 0x3c003c00 = [0x37003980, 0x3c003400] := by decide +kernel

/-- R287: an ASTC block of one colour (no extent, red and alpha 0xffff), and one of reserved bits, which gives the error colour. The block layouts are those of
the Khronos data format specification (log 47). -/
theorem test_astc_blocks : astcTexelOf 0x10 (toBytes 16 (0x1fc + 0xc00 + (2 ^ 52 - 1) * 2 ^ 12 + 0xffff * 2 ^ 64 + 0xffff * 2 ^ 112)) 1 2 = [f32one, 0, 0, f32one] ∧
    astcTexelOf 0x10 (toBytes 16 0) 1 2 = [f32one, 0, f32one, f32one] := by decide +kernel

/-- The leaves of the examples under R433: a palette window with CONT, and a page of node 37. -/
theorem test_leaves : leafOk 0 0x47000000000403cf = true ∧ pteHome 0x47000000000403cf = 1 ∧ pteTgta 0x47000000000403cf = 7 ∧
    ptePa 0x0004a0000040200f = 37 * 2 ^ 45 + 0x402000 := by decide +kernel

end Sys2Proof.Tests
end

section
/-!
PROOF. The checks before every instruction (R142, R143, R145, R43, R414): an encoded instruction has its effects through `issue`
alone, so the first check that fails in `State.perform` is all that comes of it.
-/
namespace Sys2Proof
open Machine

/-- What comes of an instruction that the part `c` issues is what `State.perform` makes of it. -/
theorem issue_of_issuing {s : State} {c : Ctx} (h : Issuing s c) (i : Instr) (body : Ctx → Except TrapRec State) :
    issue i s body = .next (s.perform i c body) := by
  obtain ⟨hcur, hpart⟩ := h
  simp only [issue, hcur, hpart]

theorem perform_illegal {i : Instr} {c : Ctx} (s : State) (body : Ctx → Except TrapRec State) (hl : issueLegal i c = false) :
    s.perform i c body = s.raise c (c.trap cIllegal) := by
  simp [State.perform, hl]

theorem perform_unprivileged {i : Instr} {c : Ctx} (s : State) (body : Ctx → Except TrapRec State) (hl : issueLegal i c = true)
    (hp : privileged i = true) (hh : c.hnd = false) : s.perform i c body = s.raise c (c.trap cPriv) := by
  simp [State.perform, hl, hp, hh]

/-- A part below the minimum width of its instruction gathers the rest of its wave (R43). -/
theorem perform_narrow {i : Instr} {c : Ctx} {n : Nat} (s : State) (body : Ctx → Except TrapRec State) (hl : issueLegal i c = true)
    (hp : privileged i = true → c.hnd = true) (hm : wminI c.w.width i = some n) (hn : c.pwidth < n) :
    s.perform i c body = s.gather c n := by
  have hpriv : (privileged i && !c.hnd) = false := by
    cases hx : privileged i with
    | false => rfl
    | true => simp [hp hx]
  simp [State.perform, hl, hpriv, hm, hn]

/-- Gathering is hopeless in a wave that is itself too narrow (R43, R414). -/
theorem gather_narrow_wave {c : Ctx} {n : Nat} (s : State) (hw : c.w.width < n) :
    s.gather c n = s.raise c (c.trap cWidthUnmet 0 (BitVec.ofNat 32 n)) := by
  simp [State.gather, hw]

/-- Every encoded instruction goes through `issue`, with the body that is its own. -/
theorem exec_encoded (i : Instr) (s : State) (h : i.encoded = true) : ∃ body, exec i s = issue i s body := by
  cases i <;> cases h <;> exact ⟨_, rfl⟩

/-- The checks decide what comes of an encoded instruction, whatever its body. -/
theorem bundleChecks : Claims.BundleChecks := by
  intro i s c hi hs
  obtain ⟨body, hbody⟩ := exec_encoded i s hi
  rw [hbody, issue_of_issuing hs]
  refine ⟨fun hl => ?_, fun hl hp hh => ?_, fun n hl hp hm hn hw => ?_⟩
  · rw [perform_illegal s body hl]; rfl
  · rw [perform_unprivileged s body hl hp hh]; rfl
  · rw [perform_narrow s body hl hp hm hn, gather_narrow_wave s hw]; rfl

/-- A reserved encoding raises ILLEGAL by its legality or by its body: it is not privileged and has no minimum width. -/
theorem reservedEncodingTraps : Claims.ReservedEncodingTraps := by
  intro s c hs
  show issue .reservedEncoding s (fun c => .error (c.trap cIllegal)) = _
  rw [issue_of_issuing hs]
  cases hl : issueLegal .reservedEncoding c with
  | false => rw [perform_illegal s _ hl]; rfl
  | true => simp [State.perform, State.perform.run, hl, privileged, wminI, cIllegal]

/-- Settles O12: the checks come first in `issue`, through which every encoded instruction goes. -/
theorem issueChecks : Obligations.IssueChecks := ⟨bundleChecks, reservedEncodingTraps⟩

end Sys2Proof
end

section
/-!
PROOF. Words as integers: each operation of the tables of R164, R165 and R203 on words is one on integers, modulo 2^32 (2^64 on pairs).
-/
namespace Sys2Proof
open Machine

theorem toNat_append_add {m n : Nat} (x : BitVec m) (y : BitVec n) : (x ++ y).toNat = x.toNat * 2 ^ n + y.toNat := by
  rw [BitVec.toNat_append, ← Nat.shiftLeft_add_eq_or_of_lt y.isLt, Nat.shiftLeft_eq]

theorem eq_ofInt_toNat {n : Nat} (x : BitVec n) : x = BitVec.ofInt n x.toNat := by
  rw [BitVec.ofInt_natCast, BitVec.ofNat_toNat, BitVec.setWidth_eq]

theorem setWidth_eq_ofInt {n : Nat} (m : Nat) (x : BitVec n) : x.setWidth m = BitVec.ofInt m x.toNat := by
  rw [BitVec.ofInt_natCast, BitVec.ofNat_toNat]

theorem add_eq_ofInt {n : Nat} {x y : BitVec n} {i j : Int} (hx : x = BitVec.ofInt n i) (hy : y = BitVec.ofInt n j) :
    x + y = BitVec.ofInt n (i + j) := by
  rw [BitVec.ofInt_add, hx, hy]

theorem sub_eq_ofInt {n : Nat} {x y : BitVec n} {i j : Int} (hx : x = BitVec.ofInt n i) (hy : y = BitVec.ofInt n j) :
    x - y = BitVec.ofInt n (i - j) := by
  rw [Int.sub_eq_add_neg, BitVec.ofInt_add, BitVec.ofInt_neg, hx, hy, BitVec.sub_eq_add_neg]

theorem mul_eq_ofInt {n : Nat} {x y : BitVec n} {i j : Int} (hx : x = BitVec.ofInt n i) (hy : y = BitVec.ofInt n j) :
    x * y = BitVec.ofInt n (i * j) := by
  rw [BitVec.ofInt_mul, hx, hy]

theorem shiftLeft_eq_ofInt {n : Nat} (x : BitVec n) (k : Nat) : x <<< k = BitVec.ofInt n (x.toNat * 2 ^ k) := by
  rw [show (x.toNat : Int) * 2 ^ k = ((x.toNat * 2 ^ k : Nat) : Int) by push_cast; rfl, BitVec.ofInt_natCast]
  exact BitVec.eq_of_toNat_eq (by rw [BitVec.toNat_shiftLeft, Nat.shiftLeft_eq, BitVec.toNat_ofNat])

theorem ushiftRight_eq_ofInt {n : Nat} (x : BitVec n) (k : Nat) : x >>> k = BitVec.ofInt n (x.toNat / 2 ^ k) := by
  rw [eq_ofInt_toNat (x >>> k), BitVec.toNat_ushiftRight, Nat.shiftRight_eq_div_pow]
  push_cast; rfl

theorem sshiftRight_eq_ofInt {n : Nat} (x : BitVec n) (k : Nat) : x.sshiftRight k = BitVec.ofInt n (x.toInt / 2 ^ k) := by
  rw [← BitVec.ofInt_toInt (x := x.sshiftRight k), BitVec.toInt_sshiftRight, Int.shiftRight_eq_div_pow]
  push_cast; rfl

theorem lo32_eq_ofInt {x : DWord} {i : Int} (hx : x = BitVec.ofInt 64 i) : lo32 x = BitVec.ofInt 32 i := by
  refine BitVec.eq_of_toNat_eq ?_
  simp only [hx, lo32, bits, BitVec.extractLsb'_toNat, BitVec.toNat_ofInt, Nat.shiftRight_zero]
  omega

theorem hi32_eq_ofInt {x : DWord} {i : Int} (hx : x = BitVec.ofInt 64 i) : hi32 x = BitVec.ofInt 32 (i / 2 ^ 32) := by
  refine BitVec.eq_of_toNat_eq ?_
  simp only [hx, hi32, bits, BitVec.extractLsb'_toNat, BitVec.toNat_ofInt, Nat.shiftRight_eq_div_pow]
  omega

/-- The low five bits of a shift count (R164). -/
theorem bits_low5_toNat (x : Word) : (bits x 0 5).toNat = x.toNat % 32 := by
  simp [bits, BitVec.extractLsb'_toNat]

theorem minS_eq_ofInt (x y : Word) : (if ltS y x then y else x) = BitVec.ofInt 32 (min x.toInt y.toInt) := by
  unfold ltS
  split <;> rename_i h <;> rw [BitVec.slt_iff_toInt_lt] at h
  · rw [Int.min_eq_right (by omega), BitVec.ofInt_toInt]
  · rw [Int.min_eq_left (by omega), BitVec.ofInt_toInt]

theorem maxS_eq_ofInt (x y : Word) : (if ltS x y then y else x) = BitVec.ofInt 32 (max x.toInt y.toInt) := by
  unfold ltS
  split <;> rename_i h <;> rw [BitVec.slt_iff_toInt_lt] at h
  · rw [Int.max_eq_right (by omega), BitVec.ofInt_toInt]
  · rw [Int.max_eq_left (by omega), BitVec.ofInt_toInt]

theorem minU_eq_ofInt (x y : Word) : (if ltU y x then y else x) = BitVec.ofInt 32 (min (x.toNat : Int) y.toNat) := by
  unfold ltU
  split <;> rename_i h <;> rw [BitVec.ult_iff_lt, BitVec.lt_def] at h
  · rw [Int.min_eq_right (by omega), ← eq_ofInt_toNat]
  · rw [Int.min_eq_left (by omega), ← eq_ofInt_toNat]

theorem maxU_eq_ofInt (x y : Word) : (if ltU x y then y else x) = BitVec.ofInt 32 (max (x.toNat : Int) y.toNat) := by
  unfold ltU
  split <;> rename_i h <;> rw [BitVec.ult_iff_lt, BitVec.lt_def] at h
  · rw [Int.max_eq_right (by omega), ← eq_ofInt_toNat]
  · rw [Int.max_eq_left (by omega), ← eq_ofInt_toNat]

/-- Two words are equal as they are equal unsigned. -/
theorem beq_iff_toNat {n : Nat} (x y : BitVec n) : (x == y) = true ↔ (x.toNat : Int) = y.toNat := by
  rw [beq_iff_eq, Int.natCast_inj, BitVec.toNat_inj]

theorem bne_iff_toNat {n : Nat} (x y : BitVec n) : (x != y) = true ↔ (x.toNat : Int) ≠ y.toNat := by
  rw [bne_iff_ne, Ne, Ne, Int.natCast_inj, BitVec.toNat_inj]

/-- SSEL: the condition is the number in the destination. -/
theorem select_eq_ofInt (d x y : Word) :
    (if d != 0 then x else y) = BitVec.ofInt 32 (if (d.toNat : Int) ≠ 0 then (x.toNat : Int) else y.toNat) := by
  have hd : (d != 0) = true ↔ (d.toNat : Int) ≠ 0 := bne_iff_toNat d 0
  by_cases h : (d.toNat : Int) ≠ 0
  · rw [if_pos h, if_pos (hd.mpr h), ← eq_ofInt_toNat]
  · rw [if_neg h, if_neg fun hb => h (hd.mp hb), ← eq_ofInt_toNat]

/-- A comparison that decides `p` answers 1 or 0 for it. -/
theorem flagWord_eq_ofInt {b : Bool} {p : Prop} [Decidable p] (h : b = true ↔ p) : flagWord b = BitVec.ofInt 32 (oneIf p) := by
  unfold flagWord oneIf
  by_cases hp : p
  · rw [if_pos hp, if_pos (h.mpr hp)]; rfl
  · rw [if_neg hp, if_neg fun hb => hp (h.mp hb)]; rfl

theorem ltU_iff (x y : Word) : ltU x y = true ↔ (x.toNat : Int) < y.toNat := by
  rw [ltU, BitVec.ult_iff_lt, BitVec.lt_def, Int.ofNat_lt]

theorem leU_iff (x y : Word) : leU x y = true ↔ (x.toNat : Int) ≤ y.toNat := by
  rw [leU, BitVec.ule_iff_le, BitVec.le_def, Int.ofNat_le]

/-- The immediate of an RI word (R122, R165). -/
theorem riImm_eq_ofInt (o : BitVec 12) (h : Option (BitVec 24)) : riImm o h = BitVec.ofInt 32 (immediate o h) := by
  cases h with
  | none => rfl
  | some w =>
    refine BitVec.eq_of_toNat_eq ?_
    simp only [riImm, immediate, bits, toNat_append_add, BitVec.extractLsb'_toNat, BitVec.toNat_ofInt, Nat.shiftRight_zero]
    omega

theorem pair64_eq_ofInt (lo hi : Word) : pair64 lo hi = BitVec.ofInt 64 (lo.toNat + 2 ^ 32 * hi.toNat) := by
  refine BitVec.eq_of_toNat_eq ?_
  simp only [pair64, toNat_append_add, BitVec.toNat_ofInt]
  omega

/-- The pair that a 5-bit field names (R20, R105). -/
theorem sp_eq_ofInt (c : Ctx) (r : BitVec 5) : c.sp r = BitVec.ofInt 64 (unsPair c r) := pair64_eq_ofInt _ _

end Sys2Proof
end

section
/-!
PROOF. Scalar operations (R164, R165): an instruction that writes scalars of its part and moves on meets its row when each word it
writes is its row's number, and its word is made of its fields.
-/
namespace Sys2Proof
open Machine

/-- An instruction that moves on with the wave `w` writes the scalars that `w` holds in the part's copies. -/
theorem writesScalars_of_retire {i : Instr} {s : State} {c : Ctx} {w : Wave} {rs : List (Nat × Int)} (h : Issues i s c)
    (hexec : exec i s = .next (s.retire c i w)) (hsplit : w.split = c.w.split) (hpc : w.handler.pc = c.w.handler.pc)
    (hframe : RegFrame c w (fun r => r ∈ rs.map (·.1)) (fun _ _ => False) (fun _ _ => False))
    (hval : ∀ q b, holds c q = true → scalarCopy w q = some b → ∀ x ∈ rs, b.sreg.get x.1 = BitVec.ofInt 32 x.2) :
    WritesScalars i s c rs := by
  refine ⟨_, _, hexec, leaves_retire h.part hframe, movedPast_advance h.part i w hsplit hpc, hframe.advance i,
    fun q b hq hb x hx => ?_⟩
  obtain ⟨b', hb', hphase⟩ := sreg_advance hb
  rw [hphase]
  exact hval q b' hq hb' x hx

/-- One register, written with a word that is the number `y`. -/
theorem writesScalars_putS {i : Instr} {s : State} {c : Ctx} {f : Ctx → Word} {n : Nat} {y : Int} {rs : List (Nat × Int)}
    (h : Issues i s c) (hrs : some [(n, y)] = some rs) (hexec : exec i s = issueWave i s fun c => c.putS c.w n (f c))
    (hy : f c = BitVec.ofInt 32 y) : WritesScalars i s c rs := by
  cases hrs
  refine writesScalars_of_retire h (hexec.trans (issueWave_ok h _)) (split_setBank _ _ _) (handler_pc_setBank _ _ _)
    ((RegFrame.refl _ _ _ _).putS _ (by simp)) fun q b hq hb x hx => ?_
  rw [List.mem_singleton] at hx
  rw [hx, sreg_putS hq hb, hy]

/-- A pair of registers, written with a pair that is the number `y`. -/
theorem writesScalars_putS64 {i : Instr} {s : State} {c : Ctx} {f : Ctx → DWord} {r : BitVec 5} {y : Int} {rs : List (Nat × Int)}
    (h : Issues i s c) (hrs : some (intoPair r y) = some rs)
    (hexec : exec i s = issueWave i s fun c => c.putS64 c.w (2 * r.toNat) (f c)) (hy : f c = BitVec.ofInt 64 y) :
    WritesScalars i s c rs := by
  cases hrs
  refine writesScalars_of_retire h (hexec.trans (issueWave_ok h _)) (by simp [Ctx.putS64, Ctx.putS]) (by simp [Ctx.putS64, Ctx.putS])
    ((RegFrame.refl _ _ _ _).putS64 _ (by simp [intoPair]) (by simp [intoPair])) fun q b hq hb x hx => ?_
  simp only [intoPair, List.mem_cons, List.not_mem_nil, or_false] at hx
  obtain rfl | rfl := hx
  · obtain ⟨b', hb', heven⟩ := sreg_putS_other (Nat.ne_of_lt (Nat.lt_succ_self _)) hb
    rw [heven, sreg_putS hq hb', lo32_eq_ofInt hy]
  · rw [sreg_putS hq hb, hi32_eq_ofInt hy]

/-- R164, R165: each row of the table. -/
theorem scalarResult_written (i : Instr) (s : State) (c : Ctx) (rs : List (Nat × Int)) (hrs : scalarResult c i = some rs)
    (h : Issues i s c) : WritesScalars i s c rs := by
  cases i with
  | sadd d a b => exact writesScalars_putS h hrs rfl (add_eq_ofInt (eq_ofInt_toNat _) (eq_ofInt_toNat _))
  | ssub d a b => exact writesScalars_putS h hrs rfl (sub_eq_ofInt (eq_ofInt_toNat _) (eq_ofInt_toNat _))
  | smul d a b => exact writesScalars_putS h hrs rfl (mul_eq_ofInt (eq_ofInt_toNat _) (eq_ofInt_toNat _))
  | smulh d a b => exact writesScalars_putS h hrs rfl (hi32_eq_ofInt (mul_eq_ofInt rfl rfl))
  | smulhN32 d a b => exact writesScalars_putS h hrs rfl (hi32_eq_ofInt (mul_eq_ofInt (setWidth_eq_ofInt _ _) (setWidth_eq_ofInt _ _)))
  | sand d a b => exact writesScalars_putS h hrs rfl (eq_ofInt_toNat _)
  | sor d a b => exact writesScalars_putS h hrs rfl (eq_ofInt_toNat _)
  | sxor d a b => exact writesScalars_putS h hrs rfl (eq_ofInt_toNat _)
  | sshl d a b => exact writesScalars_putS h hrs rfl (bits_low5_toNat (c.s b.toNat) ▸ shiftLeft_eq_ofInt _ _)
  | sshr d a b => exact writesScalars_putS h hrs rfl (bits_low5_toNat (c.s b.toNat) ▸ ushiftRight_eq_ofInt _ _)
  | ssra d a b => exact writesScalars_putS h hrs rfl (bits_low5_toNat (c.s b.toNat) ▸ sshiftRight_eq_ofInt _ _)
  | sshlImm d a n => exact writesScalars_putS h hrs rfl (shiftLeft_eq_ofInt _ _)
  | sshrImm d a n => exact writesScalars_putS h hrs rfl (ushiftRight_eq_ofInt _ _)
  | ssraImm d a n => exact writesScalars_putS h hrs rfl (sshiftRight_eq_ofInt _ _)
  | smin d a b => exact writesScalars_putS h hrs rfl (minS_eq_ofInt _ _)
  | smax d a b => exact writesScalars_putS h hrs rfl (maxS_eq_ofInt _ _)
  | sminN32 d a b => exact writesScalars_putS h hrs rfl (minU_eq_ofInt _ _)
  | smaxN32 d a b => exact writesScalars_putS h hrs rfl (maxU_eq_ofInt _ _)
  | smov d a => exact writesScalars_putS h hrs rfl (eq_ofInt_toNat _)
  | ssel d a b => exact writesScalars_putS h hrs rfl (select_eq_ofInt _ _ _)
  | scmpEq d a b => exact writesScalars_putS h hrs rfl (flagWord_eq_ofInt (beq_iff_toNat _ _))
  | scmpNe d a b => exact writesScalars_putS h hrs rfl (flagWord_eq_ofInt (bne_iff_toNat _ _))
  | scmpLt d a b => exact writesScalars_putS h hrs rfl (flagWord_eq_ofInt BitVec.slt_iff_toInt_lt)
  | scmpLe d a b => exact writesScalars_putS h hrs rfl (flagWord_eq_ofInt BitVec.sle_iff_toInt_le)
  | scmpLtN32 d a b => exact writesScalars_putS h hrs rfl (flagWord_eq_ofInt (ltU_iff _ _))
  | scmpLeN32 d a b => exact writesScalars_putS h hrs rfl (flagWord_eq_ofInt (leU_iff _ _))
  | saddB64 d a b => exact writesScalars_putS64 h hrs rfl (add_eq_ofInt (sp_eq_ofInt _ _) (sp_eq_ofInt _ _))
  | ssubB64 d a b => exact writesScalars_putS64 h hrs rfl (sub_eq_ofInt (sp_eq_ofInt _ _) (sp_eq_ofInt _ _))
  | smovB64 d a => exact writesScalars_putS64 h hrs rfl (sp_eq_ofInt _ _)
  | saddImm d a o x => exact writesScalars_putS h hrs rfl (add_eq_ofInt (eq_ofInt_toNat _) (riImm_eq_ofInt _ _))
  | sandImm d a o x => exact writesScalars_putS h hrs rfl (riImm_eq_ofInt o x ▸ eq_ofInt_toNat _)
  | sorImm d a o x => exact writesScalars_putS h hrs rfl (riImm_eq_ofInt o x ▸ eq_ofInt_toNat _)
  | sxorImm d a o x => exact writesScalars_putS h hrs rfl (riImm_eq_ofInt o x ▸ eq_ofInt_toNat _)
  | sli d o x => exact writesScalars_putS h hrs rfl (riImm_eq_ofInt _ _)
  | _ => cases hrs

/-! ## Words (R102, R164) -/

theorem word_three (d a b : BitVec 6) (fn : BitVec 5) :
    (0x10#7 ++ d ++ 0x0#1 ++ a ++ 0x0#1 ++ b ++ fn).toNat = wordOf 0x08 d.toNat a.toNat b.toNat fn.toNat := by
  simp only [toNat_append_add, wordOf, BitVec.toNat_ofNat]; omega

theorem word_count (d a : BitVec 6) (n fn : BitVec 5) :
    (0x10#7 ++ d ++ 0x0#1 ++ a ++ 0x0#2 ++ n ++ fn).toNat = wordOf 0x08 d.toNat a.toNat n.toNat fn.toNat := by
  simp only [toNat_append_add, wordOf, BitVec.toNat_ofNat]; omega

theorem word_pairs (d a b : BitVec 5) (fn : BitVec 6) :
    (0x10#7 ++ d ++ 0x0#2 ++ a ++ 0x0#2 ++ b ++ fn).toNat = wordOf 0x08 (2 * d.toNat) (2 * a.toNat) (2 * b.toNat) fn.toNat := by
  simp only [toNat_append_add, wordOf, BitVec.toNat_ofNat]; omega

theorem word_move (d a : BitVec 6) : (0x10#7 ++ d ++ 0x0#1 ++ a ++ 0xf#12).toNat = wordOf 0x08 d.toNat a.toNat 0 15 := by
  simp only [toNat_append_add, wordOf, BitVec.toNat_ofNat]; omega

theorem word_movePair (d a : BitVec 5) :
    (0x10#7 ++ d ++ 0x0#2 ++ a ++ 0x19#13).toNat = wordOf 0x08 (2 * d.toNat) (2 * a.toNat) 0 25 := by
  simp only [toNat_append_add, wordOf, BitVec.toNat_ofNat]; omega

/-- An RI word: its first seven bits are MAJ and a 0. -/
theorem word_immediate {m : BitVec 7} {maj : Nat} (hm : m.toNat = 2 * maj) (d a : BitVec 6) (o : BitVec 12) :
    (m ++ d ++ 0x0#1 ++ a ++ o).toNat = wordOf maj d.toNat a.toNat 0 o.toNat := by
  simp only [toNat_append_add, wordOf, BitVec.toNat_ofNat, hm]; omega

theorem word_load (d : BitVec 6) (o : BitVec 12) : (0x14#7 ++ d ++ 0x0#7 ++ o).toNat = wordOf 0x0a d.toNat 0 0 o.toNat := by
  simp only [toNat_append_add, wordOf, BitVec.toNat_ofNat]; omega

/-- R164: the word of each row is made of its fields. -/
theorem scalarWord_encoded (i : Instr) (x : Nat) (hx : scalarWord i = some x) : (encodeWord i).toNat = x := by
  cases i with
  | sadd d a b | ssub d a b | smul d a b | smulh d a b | smulhN32 d a b | sand d a b | sor d a b | sxor d a b | sshl d a b | sshr d a b
  | ssra d a b | smin d a b | sminN32 d a b | smax d a b | smaxN32 d a b | ssel d a b | scmpEq d a b | scmpNe d a b | scmpLt d a b
  | scmpLe d a b | scmpLtN32 d a b | scmpLeN32 d a b => exact (word_three d a b _).trans (Option.some.inj hx)
  | sshlImm d a n | sshrImm d a n | ssraImm d a n => exact (word_count d a n _).trans (Option.some.inj hx)
  | saddB64 d a b | ssubB64 d a b => exact (word_pairs d a b _).trans (Option.some.inj hx)
  | smov d a => exact (word_move d a).trans (Option.some.inj hx)
  | smovB64 d a => exact (word_movePair d a).trans (Option.some.inj hx)
  | saddImm d a o _ | sandImm d a o _ | sorImm d a o _ | sxorImm d a o _ => exact (word_immediate rfl d a o).trans (Option.some.inj hx)
  | sli d o _ => exact (word_load d o).trans (Option.some.inj hx)
  | _ => cases hx

/-- Settles O1: each row of the scalar table, and its word. -/
theorem scalarResults : Obligations.ScalarResults := ⟨scalarResult_written, scalarWord_encoded⟩

end Sys2Proof
end

section
/-!
PROOF. What a vector or a mask result leaves in the registers (R177, R178, R191): lane by lane the words of the result in active(P),
0 in the lanes that `.z` zeroes, and every other position as it was.
-/
namespace Sys2Proof
open Machine

/-! ## Lanes -/

theorem bitAt_or {n : Nat} (x y : BitVec n) (i : Nat) : bitAt (x ||| y) i = (bitAt x i || bitAt y i) := BitVec.getLsbD_or

theorem bitAt_and {n : Nat} (x y : BitVec n) (i : Nat) : bitAt (x &&& y) i = (bitAt x i && bitAt y i) := BitVec.getLsbD_and

theorem bitAt_not {n : Nat} (x : BitVec n) (i : Nat) : bitAt (~~~x) i = (decide (i < n) && !bitAt x i) := BitVec.getLsbD_not

theorem mem_lanesOf {m : Lanes} {l : Nat} : l ∈ lanesOf m ↔ bitAt m l = true := by
  rw [lanesOf, List.mem_filter, List.mem_range, and_iff_right_iff_imp]
  exact BitVec.lt_of_getLsbD

theorem lanesOf_filter (m : Lanes) (f : Nat → Bool) : (lanesOf m).filter f = (List.range 64).filter fun l => bitAt m l && f l := by
  rw [lanesOf, List.filter_filter]
  exact List.filter_congr fun l _ => Bool.and_comm _ _

theorem lanesOf_any (m : Lanes) (f : Nat → Bool) : (lanesOf m).any f = (List.range 64).any fun l => bitAt m l && f l := by
  rw [lanesOf, List.any_filter]

theorem bitAt_foldl_or (ls : List Nat) (m : Lanes) (l : Nat) :
    bitAt (ls.foldl (fun m l => m ||| BitVec.ofNat 64 (2 ^ l)) m) l = (bitAt m l || decide (l < 64 ∧ l ∈ ls)) := by
  induction ls generalizing m with
  | nil => simp
  | cons k ls ih =>
    have hk : bitAt (BitVec.ofNat 64 (2 ^ k)) l = decide (l < 64 ∧ l = k) := by
      rw [bitAt, BitVec.getLsbD_ofNat, Nat.testBit_two_pow, Bool.decide_and, decide_eq_decide.mpr eq_comm]
    rw [List.foldl_cons, ih, bitAt_or, hk, Bool.or_assoc, ← Bool.decide_or]
    simp only [List.mem_cons, and_or_left]

/-- The mask of the lanes of `m` that satisfy `f`. -/
theorem bitAt_laneMask_filter (m : Lanes) (f : Nat → Bool) (l : Nat) : bitAt (laneMask ((lanesOf m).filter f)) l = (bitAt m l && f l) := by
  have hbit : bitAt m l = true → l < 64 := BitVec.lt_of_getLsbD
  have hzero : bitAt (0 : Lanes) l = false := BitVec.getLsbD_zero
  rw [laneMask, bitAt_foldl_or, hzero, Bool.false_or, Bool.eq_iff_iff, decide_eq_true_eq, List.mem_filter, mem_lanesOf,
    Bool.and_eq_true]
  exact and_iff_right_of_imp fun h => hbit h.1

theorem m0_of_active {c : Ctx} {p : Option Pfx} {l : Nat} (h : bitAt (c.active p) l = true) : bitAt c.m0 l = true := by
  unfold Ctx.active at h
  split at h
  · exact h
  · rw [bitAt_and, Bool.and_eq_true] at h
    exact h.1

/-- The lanes of m0 have not exited, in a part as in a handler (R23, R409). -/
theorem living_of_m0 {s : State} {c : Ctx} (h : s.ctx? c.who = some c) {l : Nat} (hl : bitAt c.m0 l = true) :
    bitAt c.w.living l = true := by
  obtain ⟨-, -, -, ⟨-, -, -, -, hm, -⟩ | ⟨-, -, -, -, hm, -⟩⟩ := ctx_of h
  · exact hm ▸ hl
  · rw [hm, bitAt_and, Bool.and_eq_true] at hl
    exact hl.2

/-- No lane is both active and zeroed (R177). -/
theorem not_active_of_zeroed {s : State} {c : Ctx} (h : s.ctx? c.who = some c) {p : Option Pfx} {l : Nat}
    (hz : bitAt (c.zeroLanes p) l = true) : bitAt (c.active p) l = false := by
  refine Bool.eq_false_iff.mpr fun ha => ?_
  have hliving := living_of_m0 h (m0_of_active ha)
  unfold Ctx.zeroLanes at hz
  split at hz
  · simp [ha, hliving] at hz
  · simp at hz

/-! ## Masks -/

/-- Bit `l` of a mask result: the result in active(P), 0 where `.z` zeroes. -/
theorem bitAt_maskResult (c : Ctx) (p : Option Pfx) (d l : Nat) (f : Nat → Bool)
    (hl : bitAt (c.active p) l = true ∨ bitAt (c.zeroLanes p) l = true) :
    bitAt ((c.maskResult p d f).mask.get d) l = (bitAt (c.active p) l && f l) := by
  have hon : bitAt (c.active p ||| c.zeroLanes p) l = true := by rwa [bitAt_or, Bool.or_eq_true]
  rw [Ctx.maskResult, Wave.putMask_mask, Store.get_set_same, bitAt_or, bitAt_and, bitAt_and, bitAt_not, hon, bitAt_laneMask_filter]
  simp

/-- An instruction that writes the mask `d` by `g` meets a row whose relation is `g` in the lanes of active(P). -/
theorem writesMask_of_maskOp {i : Instr} {s : State} {c : Ctx} {p : Option Pfx} {d : BitVec 4} {f : Nat → Bool} {g : Ctx → Nat → Bool}
    (h : Issues i s c) (hexec : exec i s = maskOp i p d s g) (hfg : ∀ l, g c l = f l) : WritesMask i s c p d f := by
  have hframe : RegFrame c (c.maskResult p d.toNat (g c)) (fun _ => False) (fun _ _ => False)
      (fun k l => k = d.toNat ∧ (bitAt (c.active p) l = true ∨ bitAt (c.zeroLanes p) l = true)) :=
    (RegFrame.refl _ _ _ _).putMask _ _ fun l hl => ⟨rfl, by rwa [bitAt_or, Bool.or_eq_true] at hl⟩
  refine ⟨_, _, hexec.trans (issueWave_ok h _), leaves_retire h.part hframe, movedPast_advance h.part i _ rfl rfl, hframe.advance i,
    fun l hl => ?_, fun l hl => ?_⟩
  · rw [mask_advance, bitAt_maskResult c p _ l _ (.inl hl), hl, Bool.true_and, hfg]
  · rw [mask_advance, bitAt_maskResult c p _ l _ (.inr hl), not_active_of_zeroed h.part hl, Bool.false_and]

/-! ## Vector registers -/

/-- The words `g l` written from register `r` on in every lane `l` of `ls`: what results and `.z` have in common. -/
def putEach (w : Wave) (r : Nat) (ls : List Nat) (g : Nat → List Word) : Wave := ls.foldl (fun w l => w.putWords l r (g l)) w

theorem result_eq_putEach (c : Ctx) (p : Option Pfx) (t : Ty) (d : Nat) (f : Nat → Nat) :
    c.result p t d f = putEach (putEach c.w d (lanesOf (c.zeroLanes p)) fun _ => List.replicate t.regs 0) d (lanesOf (c.active p))
      fun l => elemWords t (f l) := rfl

theorem putEach_cons (w : Wave) (r l : Nat) (ls : List Nat) (g : Nat → List Word) :
    putEach w r (l :: ls) g = putEach (w.putWords l r (g l)) r ls g := rfl

theorem length_elemWords (t : Ty) (x : Nat) : (elemWords t x).length = t.regs := by
  cases t <;> simp [elemWords, Ty.bits, Ty.regs] <;> split <;> rfl

theorem putWords_get_other (w : Wave) (l r : Nat) (xs : List Word) (a : Nat) (ha : ∀ k < xs.length, a ≠ 64 * (r + k) + l) :
    (w.putWords l r xs).vreg.get a = w.vreg.get a := by
  induction xs generalizing w r with
  | nil => rfl
  | cons x xs ih =>
    rw [Wave.putWords, ih _ _ fun k hk => by have := ha (k + 1) (by simpa using hk); omega, Wave.putV_vreg,
      Store.get_set_other _ _ _ _ (by simpa using ha 0 (by simp))]

theorem putWords_get (w : Wave) (l r : Nat) (xs : List Word) (k : Nat) (x : Word) (hk : xs[k]? = some x) :
    (w.putWords l r xs).vreg.get (64 * (r + k) + l) = x := by
  induction xs generalizing w r k with
  | nil => cases hk
  | cons y ys ih =>
    rw [Wave.putWords]
    cases k with
    | zero =>
      obtain rfl : y = x := Option.some.inj hk
      rw [putWords_get_other _ _ _ _ _ fun k _ => by omega, Wave.putV_vreg, Nat.add_zero, Store.get_set_same]
    | succ k => rw [show r + (k + 1) = r + 1 + k by omega]; exact ih _ _ _ hk

/-- Lanes that are not written keep their words. -/
theorem putEach_get_other (w : Wave) (r : Nat) (ls : List Nat) (g : Nat → List Word) (hls : ∀ n ∈ ls, n < 64) {r' l : Nat} (h64 : l < 64)
    (hl : l ∉ ls) : (putEach w r ls g).vreg.get (64 * r' + l) = w.vreg.get (64 * r' + l) := by
  induction ls generalizing w with
  | nil => rfl
  | cons n ls ih =>
    obtain ⟨hn, hls⟩ := List.forall_mem_cons.mp hls
    obtain ⟨hne, hl⟩ := not_or.mp (mt List.mem_cons.mpr hl)
    rw [putEach_cons, ih _ hls hl, putWords_get_other _ _ _ _ _ fun k _ => by omega]

/-- A lane that is written holds its words. -/
theorem putEach_get (w : Wave) (r : Nat) (ls : List Nat) (g : Nat → List Word) (hls : ∀ n ∈ ls, n < 64) {l k : Nat} {x : Word}
    (hl : l ∈ ls) (hk : (g l)[k]? = some x) : (putEach w r ls g).vreg.get (64 * (r + k) + l) = x := by
  induction ls generalizing w with
  | nil => cases hl
  | cons n ls ih =>
    have h64 := hls l hl
    have htail := (List.forall_mem_cons.mp hls).2
    by_cases hmem : l ∈ ls
    · exact ih _ htail hmem
    · obtain rfl : l = n := (List.mem_cons.mp hl).resolve_right hmem
      rw [putEach_cons, putEach_get_other _ _ _ _ htail h64 hmem]
      exact putWords_get _ _ _ _ _ _ hk

theorem putWords_eq_vreg (w : Wave) (l r : Nat) (xs : List Word) : w.putWords l r xs = { w with vreg := (w.putWords l r xs).vreg } := by
  induction xs generalizing w r with
  | nil => rfl
  | cons x xs ih => rw [Wave.putWords, ih]; rfl

/-- Only vector registers are written. -/
theorem putEach_eq_vreg (w : Wave) (r : Nat) (ls : List Nat) (g : Nat → List Word) :
    putEach w r ls g = { w with vreg := (putEach w r ls g).vreg } := by
  induction ls generalizing w with
  | nil => rfl
  | cons l ls ih =>
    rw [putEach_cons, ih, putWords_eq_vreg]

theorem RegFrame.putWords {c : Ctx} {w : Wave} {sd : Nat → Prop} {vd md : Nat → Nat → Prop} (h : RegFrame c w sd vd md) {l : Nat}
    (hl : l < 64) (r : Nat) (xs : List Word) (hvd : ∀ k < xs.length, vd (r + k) l) : RegFrame c (w.putWords l r xs) sd vd md := by
  induction xs generalizing w r with
  | nil => exact h
  | cons x xs ih =>
    refine ih (h.putV x hl (hvd 0 (by simp))) (r + 1) fun k hk => ?_
    rw [show r + 1 + k = r + (k + 1) by omega]
    exact hvd (k + 1) (by simpa using hk)

theorem RegFrame.putEach {c : Ctx} {w : Wave} {sd : Nat → Prop} {vd md : Nat → Nat → Prop} (h : RegFrame c w sd vd md) (r : Nat)
    (ls : List Nat) (g : Nat → List Word) (hls : ∀ l ∈ ls, l < 64 ∧ ∀ k < (g l).length, vd (r + k) l) :
    RegFrame c (putEach w r ls g) sd vd md := by
  induction ls generalizing w with
  | nil => exact h
  | cons l ls ih =>
    obtain ⟨⟨hl, hvd⟩, hls⟩ := List.forall_mem_cons.mp hls
    exact ih (h.putWords hl r (g l) hvd) hls

theorem lt_of_mem_lanesOf {m : Lanes} : ∀ l ∈ lanesOf m, l < 64 := fun _ hl => BitVec.lt_of_getLsbD (mem_lanesOf.mp hl)

/-- A vector result changes the registers of its element in the active and the zeroed lanes. -/
theorem result_frame (c : Ctx) (p : Option Pfx) (t : Ty) (d : Nat) (f : Nat → Nat) :
    RegFrame c (c.result p t d f) (fun _ => False)
      (fun r l => d ≤ r ∧ r < d + t.regs ∧ (bitAt (c.active p) l = true ∨ bitAt (c.zeroLanes p) l = true)) (fun _ _ => False) := by
  rw [result_eq_putEach]
  refine ((RegFrame.refl _ _ _ _).putEach _ _ _ fun l hl => ⟨lt_of_mem_lanesOf l hl, fun k hk => ?_⟩).putEach _ _ _
    fun l hl => ⟨lt_of_mem_lanesOf l hl, fun k hk => ?_⟩
  · rw [List.length_replicate] at hk
    exact ⟨by omega, by omega, .inr (mem_lanesOf.mp hl)⟩
  · rw [length_elemWords] at hk
    exact ⟨by omega, by omega, .inl (mem_lanesOf.mp hl)⟩

theorem result_get_active (c : Ctx) (p : Option Pfx) (t : Ty) (d : Nat) (f : Nat → Nat) {l k : Nat} {x : Word}
    (hl : bitAt (c.active p) l = true) (hk : (elemWords t (f l))[k]? = some x) : (c.result p t d f).vreg.get (64 * (d + k) + l) = x :=
  putEach_get _ _ _ _ lt_of_mem_lanesOf (mem_lanesOf.mpr hl) hk

theorem result_get_zeroed {s : State} {c : Ctx} (h : s.ctx? c.who = some c) (p : Option Pfx) (t : Ty) (d : Nat) (f : Nat → Nat) {l k : Nat}
    (hl : bitAt (c.zeroLanes p) l = true) (hk : k < t.regs) : (c.result p t d f).vreg.get (64 * (d + k) + l) = 0 := by
  have hinactive : l ∉ lanesOf (c.active p) := fun hm => by
    rw [mem_lanesOf, not_active_of_zeroed h hl] at hm
    cases hm
  rw [result_eq_putEach, putEach_get_other _ _ _ _ lt_of_mem_lanesOf (BitVec.lt_of_getLsbD hl) hinactive]
  exact putEach_get _ _ _ _ lt_of_mem_lanesOf (mem_lanesOf.mpr hl) (by simp [hk])

/-- An instruction that moves on with a vector result writes its lanes. -/
theorem writesLanes_of_retire {i : Instr} {s : State} {c : Ctx} {p : Option Pfx} {t : Ty} {d : BitVec 7} {f : Nat → Nat} (h : Issues i s c)
    (hexec : exec i s = .next (s.retire c i (c.result p t d.toNat f))) : WritesLanes i s c p t d f := by
  have hframe := result_frame c p t d.toNat f
  have honly : c.result p t d.toNat f = { c.w with vreg := (c.result p t d.toNat f).vreg } := by
    rw [result_eq_putEach, putEach_eq_vreg, putEach_eq_vreg]
  refine ⟨_, _, hexec, leaves_retire h.part hframe, movedPast_advance h.part i _ (by rw [honly]) (by rw [honly]), hframe.advance i,
    fun l k x hl hk => ?_, fun l k hl hk => ?_⟩
  · rw [vreg_advance, result_get_active c p t d.toNat f hl hk]
  · rw [vreg_advance, result_get_zeroed h.part p t d.toNat f hl hk]

end Sys2Proof
end

section
/-!
PROOF. Comparisons (R191): the model's conditions are the relations of the rows, and m0 is no mask that an instruction may write.
-/
namespace Sys2Proof
open Machine

/-! ## Relations of floating values -/

/-- No value is less than a NaN, or a NaN less than it. -/
theorem Fl.lt_of_isNan {x z : Fl} (h : (x.isNan || z.isNan) = true) : x.lt z = false := by
  cases x with
  | nan => rfl
  | inf a => cases z with
    | nan => rfl
    | inf b => cases h
    | fin b m k => cases h
  | fin a n e => cases z with
    | nan => rfl
    | inf b => cases h
    | fin b m k => cases h

/-- The order of values is asymmetric. -/
theorem Fl.not_lt_of_lt {x z : Fl} (h : x.lt z = true) : z.lt x = false := by
  cases x with
  | nan => cases h
  | inf a =>
    cases z with
    | nan => cases h
    | inf b => simp_all [Fl.lt]
    | fin b m k => simp_all [Fl.lt]
  | fin a n e =>
    cases z with
    | nan => cases h
    | inf b => simp_all [Fl.lt]
    | fin b m k =>
      simp only [Fl.lt, decide_eq_true_eq, decide_eq_false_iff_not] at h ⊢
      omega

/-- Of two values that are not NaN, the first is not greater when it is less or equal. -/
theorem Fl.not_lt_eq {x z : Fl} (h : (x.isNan || z.isNan) = false) : (!z.lt x) = (x.lt z || x.eq z) := by
  obtain ⟨hx, hz⟩ := Bool.or_eq_false_iff.mp h
  rw [Fl.eq, hx, hz]
  cases hlt : x.lt z with
  | true => simp [Fl.not_lt_of_lt hlt]
  | false => rfl

/-- The relation with number `k` of R191 as the rows state it: false with a NaN but for ne and uo. -/
def floatRelation (k : Nat) (x z : Fl) : Bool :=
  let nan := x.isNan || z.isNan
  match k with
  | 0 => !nan && x.eq z
  | 1 => nan || !x.eq z
  | 2 => !nan && x.lt z
  | 3 => !nan && (x.lt z || x.eq z)
  | 4 => !nan && z.lt x
  | 5 => !nan && (z.lt x || z.eq x)
  | 6 => nan
  | _ => !nan

theorem floatCond_eq_floatRelation (k : Nat) (x z : Fl) : floatCond k x z = floatRelation k x z := by
  unfold floatCond floatRelation
  cases hnan : x.isNan || z.isNan with
  | true =>
    have hlt : x.lt z = false := Fl.lt_of_isNan hnan
    have hgt : z.lt x = false := Fl.lt_of_isNan (Bool.or_comm _ _ ▸ hnan)
    have heq : x.eq z = false := by simp [Fl.eq, ← Bool.not_or, hnan]
    split <;> simp [hlt, hgt, heq]
  | false =>
    have hle := Fl.not_lt_eq hnan
    have hge := Fl.not_lt_eq (Bool.or_comm _ _ ▸ hnan : (z.isNan || x.isNan) = false)
    split <;> simp [hle, hge]

/-! ## Rows -/

theorem compareRow_written (i : Instr) (s : State) (c : Ctx) (p : Option Pfx) (d : BitVec 4) (f : Nat → Bool)
    (hrow : compareRow c i = some (p, d, f)) (h : Issues i s c) : WritesMask i s c p d f := by
  cases i with
  | vcmpF t d a b k p => cases hrow; exact writesMask_of_maskOp h rfl fun l => floatCond_eq_floatRelation _ _ _
  | vcmpI t d a b k p => cases hrow; exact writesMask_of_maskOp h rfl fun l => rfl
  | _ => cases hrow

/-- No instruction may write m0 (R104). -/
theorem issueLegal_of_writes_m0 {i : Instr} (c : Ctx) (h : 0 ∈ (uses i).mw) : issueLegal i c = false := by
  have hregs : regsOk (uses i) = false := by
    have hmw : (uses i).mw.all (fun m => decide (0 < m ∧ m < 16)) = false := List.all_eq_false.mpr ⟨0, h, by decide⟩
    rw [regsOk, hmw, Bool.and_false]
  simp [issueLegal, WellFormed, legal, hregs]

theorem compareRow_m0_illegal (i : Instr) (s : State) (c : Ctx) (p : Option Pfx) (f : Nat → Bool) (hrow : compareRow c i = some (p, 0, f))
    (hcur : s.cur = some c.who) (hpart : s.ctx? c.who = some c) : exec i s = .next (s.raise c (c.trap 0x01)) := by
  cases i with
  | vcmpF t d a b k p | vcmpI t d a b k p =>
    cases hrow
    exact (bundleChecks _ s c rfl ⟨hcur, hpart⟩).1 (issueLegal_of_writes_m0 c (List.mem_singleton.mpr rfl))
  | _ => cases hrow

/-! ## Words -/

theorem vcmpF_word (t : BitVec 2) (d : BitVec 4) (a b : BitVec 7) (k : BitVec 3) (p : Option Pfx) :
    (encodeWord (.vcmpF t d a b k p)).toNat = wordOf (0x10 + t.toNat) d.toNat a.toNat b.toNat (8 + k.toNat) := by
  simp only [encodeWord, toNat_append_add, wordOf, BitVec.toNat_ofNat]; omega

theorem vcmpI_word (t : BitVec 2) (d : BitVec 4) (a b : BitVec 7) (k : BitVec 3) (p : Option Pfx) :
    (encodeWord (.vcmpI t d a b k p)).toNat = wordOf (0x14 + t.toNat) d.toNat a.toNat b.toNat (16 + k.toNat) := by
  simp only [encodeWord, toNat_append_add, wordOf, BitVec.toNat_ofNat]; omega

/-- Settles O5: each row over the lanes of active(P), the check of the mask field, and the words. -/
theorem compareResults : Obligations.CompareResults := ⟨compareRow_written, compareRow_m0_illegal, vcmpF_word, vcmpI_word⟩

end Sys2Proof
end

section
/-!
PROOF. Across lanes (R197 to R201): the source lanes of a shuffle and the check that they are readable, ballots and conflicts.
-/
namespace Sys2Proof
open Machine

theorem windowBase_eq_sub (w l : Nat) : windowBase w l = l - l % w := Nat.eq_sub_of_add_eq (Nat.div_add_mod' l w)

/-! ## Shuffles (R198, R199) -/

/-- The lanes of active(P) whose source lane is not readable (R198). -/
def unreadable (c : Ctx) (p : Option Pfx) (src : Nat → Nat) : List Nat :=
  (List.range 64).filter fun l => bitAt (c.active p) l && !bitAt (c.active p) (src l)

/-- The element of the source lane, 0 where that lane is not readable. -/
def shuffled (c : Ctx) (p : Option Pfx) (a : BitVec 7) (src : Nat → Nat) (l : Nat) : Nat :=
  if bitAt (c.active p) (src l) then el c (tyD p .b32) a (src l) else 0

/-- What comes of a shuffle: LANE without PZ when there are such lanes, otherwise the copies. -/
theorem shuffle_of_issues {i : Instr} {s : State} {c : Ctx} (h : Issues i s c) (w : BitVec 3) (pz : Bool) (p : Option Pfx) (d a : BitVec 7)
    {idx : Ctx → Nat → Nat} {src : Nat → Nat} (hsrc : ∀ l, l - l % wminOf w + idx c l % wminOf w = src l) :
    shuffle i w pz p d a s idx = .next (if pz = false ∧ unreadable c p src ≠ []
      then s.raise c (c.trap cLane 0 0 0 (laneMask (unreadable c p src)))
      else s.retire c i (c.result p (tyD p .b32) d.toNat (shuffled c p a src))) := by
  have hlane : ∀ l, windowBase (wminOf w) l + idx c l % wminOf w = src l := fun l => by rw [windowBase_eq_sub, hsrc]
  simp only [shuffle, issue_of h, hlane, lanesOf_filter]
  by_cases hbad : pz = false ∧ unreadable c p src ≠ []
  · rw [if_pos hbad, if_pos (by simpa [unreadable] using hbad)]
    rfl
  · rw [if_neg hbad, if_neg (by simpa [unreadable] using hbad)]
    rfl

/-- The index of a VBCST: B[6] tells a scalar from a constant (R199). -/
theorem vbcst_index (c : Ctx) (b : BitVec 7) :
    (if bitAt b 6 then (c.s (field b 0 6)).toNat else b.toNat) = if 64 ≤ b.toNat then (c.s (b.toNat - 64)).toNat else b.toNat := by
  have hbit : bitAt b 6 = true ↔ 64 ≤ b.toNat := by
    rw [bitAt, BitVec.getLsbD, Nat.testBit_eq_decide_div_mod_eq, decide_eq_true_eq]
    omega
  by_cases h : 64 ≤ b.toNat
  · have hfield : field b 0 6 = b.toNat - 64 := by unfold field; omega
    rw [if_pos h, if_pos (hbit.mpr h), hfield]
  · rw [if_neg h, if_neg (mt hbit.mp h)]

theorem shuffleRow_exec {i : Instr} {s : State} {c : Ctx} {p : Option Pfx} {d a : BitVec 7} {g : BitVec 1} {src : Nat → Nat}
    (hrow : shuffleRow c i = some (p, d, a, g, src)) (h : Issues i s c) :
    exec i s = .next (if (g == 1) = false ∧ unreadable c p src ≠ []
      then s.raise c (c.trap cLane 0 0 0 (laneMask (unreadable c p src)))
      else s.retire c i (c.result p (tyD p .b32) d.toNat (shuffled c p a src))) := by
  cases i with
  | vshfl d a b w g p => cases hrow; exact shuffle_of_issues h w _ p d a fun l => rfl
  | vbcst d a b w g p => cases hrow; exact shuffle_of_issues h w _ p d a fun l => by rw [vbcst_index]
  | _ => cases hrow

theorem unreadable_eq_nil {c : Ctx} {p : Option Pfx} {src : Nat → Nat} :
    unreadable c p src = [] ↔ ∀ l < 64, (bitAt (c.active p) l && !bitAt (c.active p) (src l)) = false := by
  simp only [unreadable, List.filter_eq_nil_iff, List.mem_range, Bool.not_eq_true]

/-- A shuffle whose source lanes are readable, or with PZ, copies. -/
theorem shuffleRow_written {i : Instr} {s : State} {c : Ctx} {p : Option Pfx} {d a : BitVec 7} {g : BitVec 1} {src : Nat → Nat}
    (hrow : shuffleRow c i = some (p, d, a, g, src)) (h : Issues i s c) (hok : g = 1 ∨ unreadable c p src = []) :
    WritesLanes i s c p (tyD p .b32) d (shuffled c p a src) := by
  refine writesLanes_of_retire h ?_
  rw [shuffleRow_exec hrow h, if_neg]
  rintro ⟨hg, hbad⟩
  obtain rfl | hnil := hok
  · cases hg
  · exact hbad hnil

/-- Without PZ an unreadable source lane raises LANE and nothing else happens. -/
theorem shuffleRow_lane {i : Instr} {s : State} {c : Ctx} {p : Option Pfx} {d a : BitVec 7} {src : Nat → Nat}
    (hrow : shuffleRow c i = some (p, d, a, 0, src)) (h : Issues i s c) (hbad : unreadable c p src ≠ []) :
    exec i s = .next (s.raise c (c.trap 0x06 0 0 0 (laneMask (unreadable c p src)))) := by
  rw [shuffleRow_exec hrow h, if_pos ⟨rfl, hbad⟩, cLane]

theorem vshfl_word (d a b : BitVec 7) (w : BitVec 3) (g : BitVec 1) (p : Option Pfx) :
    (encodeWord (.vshfl d a b w g p)).toNat = wordOf 0x20 d.toNat a.toNat b.toNat (4 * w.toNat + 2 * g.toNat) := by
  simp only [encodeWord, toNat_append_add, wordOf, BitVec.toNat_ofNat]; omega

theorem vbcst_word (d a b : BitVec 7) (w : BitVec 3) (g : BitVec 1) (p : Option Pfx) :
    (encodeWord (.vbcst d a b w g p)).toNat = wordOf 0x21 d.toNat a.toNat b.toNat (4 * w.toNat + 2 * g.toNat) := by
  simp only [encodeWord, toNat_append_add, wordOf, BitVec.toNat_ofNat]; omega

/-- Settles O16: the check of the source lanes decides between the copies and LANE; the words are made of their fields. -/
theorem shuffleResults : Obligations.ShuffleResults := by
  refine ⟨fun i s c p d a g src hrow h => ⟨fun hok => ?_, fun hbad => ?_⟩, vshfl_word, vbcst_word⟩
  · exact shuffleRow_written hrow h (hok.imp_right unreadable_eq_nil.mpr)
  · obtain ⟨rfl, l, hl, hfails⟩ := hbad
    exact shuffleRow_lane hrow h fun hnil => Bool.false_ne_true ((unreadable_eq_nil.mp hnil l hl).symm.trans hfails)

/-! ## Ballots (R200) -/

theorem vballot_written (s : State) (c : Ctx) (d : BitVec 5) (a : BitVec 4) (w : BitVec 3) (p : Option Pfx)
    (h : Issues (.vballot d a w p) s c) :
    WritesScalars (.vballot d a w p) s c (intoPair d (c.active p &&& c.mask a.toNat).toNat) :=
  writesScalars_putS64 h rfl rfl (eq_ofInt_toNat _)

theorem vballot_word (d : BitVec 5) (a : BitVec 4) (w : BitVec 3) (p : Option Pfx) :
    (encodeWord (.vballot d a w p)).toNat = wordOf 0x23 (2 * d.toNat) a.toNat 0 (4 * w.toNat) := by
  simp only [encodeWord, toNat_append_add, wordOf, BitVec.toNat_ofNat]; omega

/-! ## Conflicts (R201) -/

/-- The earlier lanes of the window that VCONF compares are the active ones among them. -/
theorem any_active_earlier (m : Lanes) (w l : Nat) (e : Nat → Nat) :
    ((lanesOf m).any fun j => decide (windowBase w l ≤ j) && decide (j < l) && e j == e l) =
      (List.range 64).any fun j => decide (l - l % w ≤ j ∧ j < l) && bitAt m j && e j == e l := by
  rw [lanesOf_any, windowBase_eq_sub]
  congr 1
  funext j
  rw [Bool.decide_and, ← Bool.and_assoc, Bool.and_comm (bitAt m j)]

theorem vconf_written (s : State) (c : Ctx) (d : BitVec 4) (a : BitVec 7) (w : BitVec 3) (p : Option Pfx) (h : Issues (.vconf d a w p) s c) :
    WritesMask (.vconf d a w p) s c p d fun l =>
      (List.range 64).any fun j => decide (l - l % wminOf w ≤ j ∧ j < l) && bitAt (c.active p) j && el c (tyD p .b32) a j == el c (tyD p .b32) a l :=
  writesMask_of_maskOp h rfl fun l => any_active_earlier (c.active p) (wminOf w) l (el c (tyD p .b32) a)

theorem vconf_word (d : BitVec 4) (a : BitVec 7) (w : BitVec 3) (p : Option Pfx) :
    (encodeWord (.vconf d a w p)).toNat = wordOf 0x23 d.toNat a.toNat 0 (4 * w.toNat + 1) := by
  simp only [encodeWord, toNat_append_add, wordOf, BitVec.toNat_ofNat]; omega

/-- Settles O17: VBALLOT writes a pair, VCONF a mask; the words are made of their fields. -/
theorem ballotAndConflict : Obligations.BallotAndConflict := ⟨⟨vballot_written, vballot_word⟩, vconf_written, vconf_word⟩

end Sys2Proof
end

section
/-!
PROOF. Going on: a part that moves past its instruction, whatever else the instruction changed beside the waves and memory; the
part's copies and its pending results are written apart from where it stands.
-/
namespace Sys2Proof
open Machine

/-! ## The wave of the part -/

theorem wave?_congr {s u : State} (hw : u.waves = s.waves) (k : Nat) : u.wave? k = s.wave? k := by
  rw [State.wave?, hw, ← State.wave?]

/-- The part's wave is found in a state with the same waves. -/
theorem wave?_of_waves {s u : State} {c : Ctx} (h : s.ctx? c.who = some c) (hw : u.waves = s.waves) : u.wave? c.w.wid = some c.w :=
  (wave?_congr hw _).trans (ctx_of h).1

/-- Replacing the part's wave puts the new one there and keeps the others. -/
theorem wave?_retire {u : State} {c : Ctx} {i : Instr} {w v : Wave} (hu : u.wave? c.w.wid = some v) (hid : (c.advance i w).wid = c.w.wid) :
    (u.retire c i w).wave? c.w.wid = some (c.advance i w) ∧ ∀ x, x ≠ c.w.wid → (u.retire c i w).wave? x = u.wave? x :=
  ⟨State.wave?_setWave_same hu hid, fun _ hx => State.wave?_setWave_other (hid ▸ hx)⟩

theorem done_eq_retire {u : State} {c : Ctx} {w : Wave} (i : Instr) (hu : u.wave? c.w.wid = some w) : u.done c i = u.retire c i w := by
  rw [State.done, State.waveOf, hu, Option.getD_some]

theorem done_cores (u : State) (c : Ctx) (i : Instr) : (u.done c i).cores = u.cores := rfl

theorem done_inflight (u : State) (c : Ctx) (i : Instr) : (u.done c i).inflight = u.inflight := rfl

/-- A part whose instruction left the waves and memory as they were goes on. -/
theorem goesOn_done {s u : State} {c : Ctx} (i : Instr) (h : s.ctx? c.who = some c) (hw : u.waves = s.waves) (hm : u.mem = s.mem) :
    GoesOn i s (u.done c i) c (c.advance i c.w) := by
  have hframe : RegFrame c (c.advance i c.w) (fun _ => False) (fun _ _ => False) (fun _ _ => False) := (RegFrame.refl _ _ _ _).advance i
  have hu := wave?_of_waves h hw
  obtain ⟨hsame, hother⟩ := wave?_retire (i := i) (w := c.w) hu (by rw [hframe.rest])
  rw [done_eq_retire i hu]
  exact ⟨hsame, movedPast_advance h i c.w rfl rfl, hframe, fun k => by rw [State.retire_mem, hm],
    fun x hx => by rw [hother x hx, wave?_congr hw]⟩

/-! ## Pending results (R124) -/

/-- The record of a long-latency instruction that issues in `u`, as `State.pendAdd` makes it. -/
def newPend (u : State) (c : Ctx) (i : Instr) (l : BitVec 4) (vres sres : List (Nat × Word)) : Pend :=
  { id := u.nextId, quads := c.q, win := if l = 15 then none else some l.toNat, vdst := (uses i).vw.flatMap fun o => blk o.1 o.2,
    sdst := (uses i).sw, vres, sres, hnd := c.hnd }

/-- The record stands last in the wave that issues, and other waves are as they were. -/
theorem wave?_pendAdd {s u : State} {c : Ctx} (i : Instr) (l : BitVec 4) (vres sres : List (Nat × Word)) (h : s.ctx? c.who = some c)
    (hw : u.waves = s.waves) :
    (u.pendAdd c i c.q l vres sres).2.wave? c.w.wid = some { c.w with pend := c.w.pend ++ [newPend u c i l vres sres] } ∧
      ∀ k, k ≠ c.w.wid → (u.pendAdd c i c.q l vres sres).2.wave? k = s.wave? k := by
  refine ⟨find?_modifyFirst_self _ _ _ _ (wave?_of_waves h hw) (beq_self_eq_true _), fun k hk => ?_⟩
  rw [← wave?_congr hw]
  refine find?_modifyFirst_other _ _ _ _ fun y hy => ?_
  rw [beq_iff_eq] at hy
  exact ⟨beq_false_of_ne (hy ▸ hk.symm), beq_false_of_ne (hy ▸ hk.symm)⟩

theorem advance_pend (c : Ctx) (i : Instr) (w : Wave) (ps : List Pend) :
    c.advance i { w with pend := ps } = { c.advance i w with pend := ps } := by
  unfold Ctx.advance Ctx.goto Ctx.setBank Ctx.setPc Ctx.setAux
  cases c.hnd <;> split <;> rfl

/-- A long-latency instruction that left the waves and memory as they were is pending with its results. -/
theorem pending_pendNew {s u : State} {c : Ctx} (i : Instr) (l : BitVec 4) (vres sres : List (Nat × Word)) (h : s.ctx? c.who = some c)
    (hw : u.waves = s.waves) (hm : u.mem = s.mem) :
    ∃ v x, Pending i s (u.pendNew c i l vres sres) c l v x ∧ x.quads = c.q ∧ x.vres = vres ∧ x.sres = sres := by
  let x := newPend u c i l vres sres
  have hframe : RegFrame c (c.advance i c.w) (fun _ => False) (fun _ _ => False) (fun _ _ => False) := (RegFrame.refl _ _ _ _).advance i
  have hadv : c.advance i { c.w with pend := c.w.pend ++ [x] } = { c.advance i c.w with pend := c.w.pend ++ [x] } := advance_pend ..
  obtain ⟨hwave, hothers⟩ := wave?_pendAdd i l vres sres h hw
  obtain ⟨hsame, hother⟩ := wave?_retire (i := i) hwave (by rw [hadv, hframe.rest])
  rw [State.pendNew, done_eq_retire i hwave]
  refine ⟨_, x, ⟨hsame, ?_, rfl, ?_, movedPast_advance h i _ rfl rfl, fun k => ?_, fun k hk => ?_⟩, rfl, rfl, rfl⟩
  · rw [hadv]
  · rw [hadv, show c.w.pend = (c.advance i c.w).pend by rw [hframe.rest]]
    exact hframe
  · rw [State.retire_mem, State.pendAdd_mem, hm]
  · rw [hother k hk, hothers k hk]

/-! ## Scalar banks -/

theorem mapQuads_comm {f g : QBank → QBank} (hfg : ∀ b, f (g b) = g (f b)) (q : Quads) (k : Nat) (bs : List QBank) :
    mapQuads q f k (mapQuads q g k bs) = mapQuads q g k (mapQuads q f k bs) := by
  induction bs generalizing k with
  | nil => rfl
  | cons b bs ih =>
    rw [mapQuads, mapQuads, mapQuads, mapQuads, ih]
    cases bitAt q k
    · rfl
    · exact congrArg (· :: _) (hfg b)

theorem setBank_comm {f g : QBank → QBank} (hfg : ∀ b, f (g b) = g (f b)) (c : Ctx) (w : Wave) :
    c.setBank (c.setBank w g) f = c.setBank (c.setBank w f) g := by
  unfold Ctx.setBank
  cases c.hnd
  · exact congrArg (fun bs => { w with banks := bs }) (mapQuads_comm hfg _ _ _)
  · exact congrArg (fun b => { w with handler := { w.handler with bank := b } }) (hfg _)

theorem setAux_setBank (c : Ctx) (w : Wave) (f : QBank → QBank) (g : Aux → Aux) :
    c.setAux (c.setBank w f) g = c.setBank (c.setAux w g) f := by
  unfold Ctx.setAux Ctx.setBank
  cases c.hnd <;> rfl

theorem setPc_setBank (c : Ctx) (w : Wave) (f : QBank → QBank) (pc : CodeAddr) :
    c.setPc (c.setBank w f) pc = c.setBank (c.setPc w pc) f := by
  unfold Ctx.setPc Ctx.setBank
  cases c.hnd <;> rfl

/-- Of a bank, moving on changes only the phase: what is written beside it may as well be written afterwards. -/
theorem advance_setBank {f : QBank → QBank} (hf : ∀ b p, f { b with phase := p } = { f b with phase := p }) (c : Ctx) (i : Instr) (w : Wave) :
    c.advance i (c.setBank w f) = c.setBank (c.advance i w) f := by
  unfold Ctx.advance Ctx.goto
  split
  · rw [setAux_setBank, setBank_comm fun b => (hf b true).symm]
  · rw [setAux_setBank, setPc_setBank, setBank_comm fun b => (hf b false).symm]

end Sys2Proof
end

section
/-!
PROOF. Accumulator tiles as storage (R256, R257, R261): what a list of cells leaves in the tiles of a core that no op races for, and
which cells an instruction writes.
-/
namespace Sys2Proof
open Machine

/-! ## Lists of cells -/

theorem get_foldl_set_other {n : Nat} (cells : List (Nat × BitVec n)) (m : Store n) (a : Nat) (h : ∀ y, (a, y) ∉ cells) :
    (cells.foldl (fun m x => m.set x.1 x.2) m).get a = m.get a := by
  induction cells generalizing m with
  | nil => rfl
  | cons x cells ih =>
    obtain ⟨k, y⟩ := x
    have hk : a ≠ k := fun e => h y (e ▸ List.mem_cons_self)
    rw [List.foldl_cons, ih _ fun z hz => h z (List.mem_cons_of_mem _ hz), Store.get_set_other _ _ _ _ hk]

/-- An index to which a list writes one value only holds it afterwards. -/
theorem get_foldl_set {n : Nat} (cells : List (Nat × BitVec n)) (m : Store n) (a : Nat) (x : BitVec n) (h : (a, x) ∈ cells)
    (hone : ∀ y, (a, y) ∈ cells → y = x) : (cells.foldl (fun m x => m.set x.1 x.2) m).get a = x := by
  induction cells generalizing m with
  | nil => cases h
  | cons c cells ih =>
    rw [List.foldl_cons]
    have htail : ∀ y, (a, y) ∈ cells → y = x := fun y hy => hone y (List.mem_cons_of_mem _ hy)
    by_cases hmem : (a, x) ∈ cells
    · exact ih _ hmem htail
    · obtain rfl : (a, x) = c := (List.mem_cons.mp h).resolve_right hmem
      rw [get_foldl_set_other _ _ _ fun y hy => hmem (htail y hy ▸ hy), Store.get_set_same]

/-! ## The core -/

theorem core_updCore (s : State) (f : Core → Core) {k : Nat} (hk : k < s.cores.length) : (s.updCore k f).core k = f (s.core k) := by
  rw [State.core, State.updCore_cores, modifyAt_getD _ _ _ _ _ (.inl hk), if_pos rfl, ← State.core]

/-- Without a poisoned tile every cell is written. -/
theorem putCells_tiles (x : Core) (cells : List (Nat × DWord)) (h : x.bad = []) :
    (x.putCells cells).tiles = cells.foldl (fun m y => m.set y.1 y.2) x.tiles := by
  simp only [Core.putCells, h, List.filter_nil, List.isEmpty_nil, if_true]

/-- The tiles that no op races for are written as they stand (R261). -/
theorem accWrite_quiet {s : State} {c : Ctx} {ts : List Nat} (cells : List (Nat × DWord)) (h : ∀ x ∈ ts, s.racing c x = false) :
    s.accWrite c ts cells = s.updCore c.w.core fun y => y.putCells cells := by
  have hhot : ts.filter (s.racing c) = [] := List.filter_eq_nil_iff.mpr fun x hx => by rw [h x hx]; exact Bool.false_ne_true
  simp only [State.accWrite, hhot, List.isEmpty_nil, if_true]

theorem accRead_quiet {s : State} {c : Ctx} {ts : List Nat} (h : ∀ x ∈ ts, s.racing c x = false) :
    s.accRead c ts = (fun ix => ((s.core c.w.core).tiles.get ix).toNat, s) := by
  have hhot : ts.filter (s.racing c) = [] := List.filter_eq_nil_iff.mpr fun x hx => by rw [h x hx]; exact Bool.false_ne_true
  simp only [State.accRead, hhot, List.contains_nil, Bool.false_eq_true, if_false, List.isEmpty_nil, if_true]

/-! ## The tiles of an allocation -/

/-- The physical tiles of `n` tiles of the allocation. -/
def tileRun (c : Ctx) (t n : Nat) : List Nat := (List.range n).map fun k => c.g.tileAt (t + k)

theorem mem_tileRun {c : Ctx} {t n x : Nat} : x ∈ tileRun c t n ↔ ∃ k < n, c.g.tileAt (t + k) = x := by
  simp only [tileRun, List.mem_map, List.mem_range]

/-- Where the context owns the store and has the tiles, the instruction acts on them (R242). -/
theorem withTiles_of_owned {s : State} {c : Ctx} {t n : Nat} (hown : ownsStore s c) (hn : t + n ≤ c.g.tiles.length)
    (go : List Nat → Except TrapRec State) : s.withTiles c t n go = go (tileRun c t n) := by
  have hfield : field (s.core c.w.core).acsown 0 16 = c.g.ctx := by rw [field, Nat.pow_zero, Nat.div_one]; exact hown
  have htrap : s.acsTrap c = none := if_pos hfield
  have htiles : c.tilesAt t n = some (tileRun c t n) := if_neg (Nat.not_lt.mpr hn)
  rw [State.withTiles, htrap, htiles]

theorem tileAt_inj {g : Group} (h : g.tiles.Nodup) {a b : Nat} (ha : a < g.tiles.length) (hb : b < g.tiles.length)
    (hab : g.tileAt a = g.tileAt b) : a = b := by
  rw [Group.tileAt, Group.tileAt, List.getElem?_eq_getElem ha, List.getElem?_eq_getElem hb, Option.getD_some, Option.getD_some] at hab
  exact (List.getElem?_inj ha h).mp (by rw [List.getElem?_eq_getElem ha, List.getElem?_eq_getElem hb, hab])

theorem tileIx_div {t m n : Nat} (hm : m < 32) (hn : n < 32) : tileIx t m n / 1024 = t := by
  rw [tileIx]; omega

theorem tileIx_inj {t t' m m' n n' : Nat} (hm : m < 32) (hm' : m' < 32) (hn : n < 32) (hn' : n' < 32)
    (h : tileIx t m n = tileIx t' m' n') : t = t' ∧ m = m' ∧ n = n' := by
  rw [tileIx, tileIx] at h; omega

/-- An element of a tile is the one at its index. -/
theorem tileEl_eq (s : State) (c : Ctx) (t m n : Nat) : tileEl s c t m n = (s.core c.w.core).tiles.get (tileIx (c.g.tileAt t) m n) := rfl

/-! ## The cells that ACCZ and ACCWR write -/

/-- +0 in every element of the tiles (R256). -/
def zeroCells (ts : List Nat) : List (Nat × DWord) := ts.flatMap fun x => (List.range 1024).map fun k => (1024 * x + k, 0)

theorem mem_zeroCells {ts : List Nat} {a : Nat} {y : DWord} : (a, y) ∈ zeroCells ts ↔ a / 1024 ∈ ts ∧ y = 0 := by
  simp only [zeroCells, List.mem_flatMap, List.mem_map, List.mem_range, Prod.mk.injEq]
  constructor
  · rintro ⟨x, hx, k, hk, rfl, rfl⟩
    exact ⟨by rwa [show (1024 * x + k) / 1024 = x by omega], rfl⟩
  · rintro ⟨ha, rfl⟩
    exact ⟨a / 1024, ha, a % 1024, by omega, by omega, rfl⟩

/-- `val m l` in row `m` of each column whose lane `l` is a lane of m0 (R257). -/
def laneCells (c : Ctx) (t : Nat) (val : Nat → Nat → DWord) : List (Nat × DWord) :=
  (List.range c.windows).flatMap fun k => ((List.range 32).filter fun n => bitAt c.m0 (c.winLane k n)).flatMap fun n =>
    (List.range 32).map fun m => (tileIx (c.g.tileAt (t + k)) m n, val m (c.winLane k n))

theorem mem_laneCells {c : Ctx} {t a : Nat} {val : Nat → Nat → DWord} {y : DWord} :
    (a, y) ∈ laneCells c t val ↔ ∃ k < c.windows, ∃ n < 32, bitAt c.m0 (c.winLane k n) = true ∧ ∃ m < 32,
      a = tileIx (c.g.tileAt (t + k)) m n ∧ y = val m (c.winLane k n) := by
  simp only [laneCells, List.mem_flatMap, List.mem_map, List.mem_filter, List.mem_range, Prod.mk.injEq, and_assoc, eq_comm]

/-- The cells of an element of tiles that are distinct: one if its lane is a lane of m0, none otherwise. -/
theorem mem_laneCells_tileIx {c : Ctx} {t : Nat} {val : Nat → Nat → DWord} (hnd : c.g.tiles.Nodup)
    (ht : t + c.windows ≤ c.g.tiles.length) {k m n : Nat} (hk : k < c.windows) (hm : m < 32) (hn : n < 32) (y : DWord) :
    (tileIx (c.g.tileAt (t + k)) m n, y) ∈ laneCells c t val ↔ bitAt c.m0 (c.winLane k n) = true ∧ y = val m (c.winLane k n) := by
  rw [mem_laneCells]
  constructor
  · rintro ⟨k', hk', n', hn', hbit, m', hm', hix, rfl⟩
    obtain ⟨htile, rfl, rfl⟩ := tileIx_inj hm hm' hn hn' hix
    obtain rfl : k = k' := Nat.add_left_cancel (tileAt_inj hnd (by omega) (by omega) htile)
    exact ⟨hbit, rfl⟩
  · rintro ⟨hbit, rfl⟩
    exact ⟨k, hk, n, hn, hbit, m, hm, rfl, rfl⟩

end Sys2Proof
end

section
/-!
PROOF. Accesses that store for a whole part (R207, R260): where every address passes its checks the part's stores enter flight
together, and of the rest only caches, TLBs and counts change.
-/
namespace Sys2Proof
open Machine

/-! ## What an access leaves as it was -/

/-- Between `s` and `t` only TLBs, caches, the slices' lines and event counts differ, and the model's own counter of free values (log 2). -/
structure CachesOnly (s t : State) : Prop where
  rest : t = { s with tlb := t.tlb, funcs := t.funcs, lines := t.lines, copies := t.copies, stale := t.stale, atoms := t.atoms, fresh := t.fresh }

theorem CachesOnly.refl (s : State) : CachesOnly s s := ⟨rfl⟩

theorem CachesOnly.trans {s t u : State} (h1 : CachesOnly s t) (h2 : CachesOnly t u) : CachesOnly s u :=
  ⟨h2.rest.trans (by rw [h1.rest])⟩

theorem CachesOnly.foldl {α : Type} {f : State → α → State} (h : ∀ s x, CachesOnly s (f s x)) (xs : List α) (s : State) :
    CachesOnly s (xs.foldl f s) :=
  xs.foldlRecOn (motive := CachesOnly s) f (CachesOnly.refl s) fun _ e x _ => e.trans (h _ x)

theorem CachesOnly.ite {s a b : State} {p : Prop} [Decidable p] (ha : CachesOnly s a) (hb : CachesOnly s b) :
    CachesOnly s (if p then a else b) := by
  split
  · exact ha
  · exact hb

theorem CachesOnly.waves {s t : State} (h : CachesOnly s t) : t.waves = s.waves := by rw [h.rest]

theorem CachesOnly.cores {s t : State} (h : CachesOnly s t) : t.cores = s.cores := by rw [h.rest]

theorem CachesOnly.inflight {s t : State} (h : CachesOnly s t) : t.inflight = s.inflight := by rw [h.rest]

theorem cachesOnly_count (s : State) (f evt panel n : Nat) : CachesOnly s (s.count f evt panel n) := .ite ⟨rfl⟩ ⟨rfl⟩

theorem cachesOnly_putLine (s : State) (r : Line) : CachesOnly s (s.putLine r) := .ite ⟨rfl⟩ (.ite ⟨rfl⟩ ⟨rfl⟩)

theorem cachesOnly_evictLine (s : State) (r : Line) (counts : Bool) : CachesOnly s (s.evictLine r counts) :=
  CachesOnly.trans (CachesOnly.trans (.ite (cachesOnly_count ..) (.refl s)) (.ite (cachesOnly_count ..) (.refl _))) (cachesOnly_putLine ..)

theorem cachesOnly_makeRoom (s : State) (slice line : Nat) : CachesOnly s (s.makeRoom slice line) := by
  refine .ite (.refl s) ?_
  have hdraw : CachesOnly s s.draw.2 := ⟨rfl⟩
  split
  · exact hdraw.trans (cachesOnly_evictLine ..)
  · exact hdraw

theorem cachesOnly_recall (s : State) (q : Req) (line : Nat) : CachesOnly s (s.recall q line) := by
  unfold State.recall
  split
  · exact .refl s
  · split
    · exact .refl s
    · have hdrop : ∀ c, CachesOnly s (s.dropCopy c line) := fun c => ⟨rfl⟩
      exact .ite (.refl s) ((hdrop _).trans (cachesOnly_putLine ..))

theorem cachesOnly_touchLine (s : State) (q : Req) (line : Nat) : CachesOnly s (s.touchLine q line) :=
  CachesOnly.trans (.ite (.refl s) ⟨rfl⟩) (cachesOnly_recall ..)

theorem cachesOnly_sliceReq (s : State) (q : Req) (home key n : Nat) (wr : Bool) : CachesOnly s (s.sliceReq q home key n wr) := by
  have htouch := cachesOnly_touchLine s q (key / 128)
  refine .ite (.ite (cachesOnly_count ..) (.refl s)) (.ite (.refl s) (.ite (htouch.trans (cachesOnly_count ..)) ?_))
  dsimp only
  split
  · exact (htouch.trans (.ite (cachesOnly_count ..) (.refl _))).trans (cachesOnly_putLine ..)
  · exact (((htouch.trans (cachesOnly_count ..)).trans (cachesOnly_count ..)).trans (cachesOnly_putLine ..)).trans (cachesOnly_makeRoom ..)

theorem cachesOnly_walkReads (s : State) (ctx va : Nat) : CachesOnly s (s.walkReads ctx va) :=
  .foldl (fun _ _ => cachesOnly_sliceReq ..) _ s

theorem cachesOnly_tlbPut (s : State) (unit ctx va : Nat) (leaf : DWord) (size : Nat) : CachesOnly s (s.tlbPut unit ctx va leaf size) :=
  .ite ⟨rfl⟩ ⟨rfl⟩

theorem cachesOnly_tlbTouch (s : State) (core ctx va : Nat) : CachesOnly s (s.tlbTouch core ctx va) := by
  refine .ite (.refl s) ?_
  split
  · exact (CachesOnly.trans (.ite (cachesOnly_walkReads ..) (.refl s)) (cachesOnly_tlbPut ..)).trans (cachesOnly_tlbPut ..)
  · exact .refl s

/-! ## The part's stores -/

/-- An access with pieces stands last in flight. -/
theorem cachesOnly_launchAccess (s : State) (a : Access) (h : a.pieces ≠ []) :
    CachesOnly { s with inflight := s.inflight ++ [a] } (s.launchAccess a) := by
  rw [State.launchAccess, if_neg (by rwa [List.isEmpty_iff])]
  exact .ite (.refl _) (.foldl (fun _ _ => cachesOnly_tlbTouch ..) _ _)

/-- The part's stores `ps`, as `State.storePart` puts them in flight. -/
def partStores (s : State) (c : Ctx) (ps : List (Piece × Xlat)) : Access :=
  { id := s.nextId, wid := c.w.wid, quads := c.q, order := c.bank.order, hnd := c.hnd, kind := .store, pieces := ps.map (·.1),
    pages := pagesOf c.g.ctx (ps.map fun y => (y.1.va, y.2)) }

/-- Stores of the part stand last in flight; waves and cores are as they were. -/
theorem storePart_inflight (s : State) (c : Ctx) {ps : List (Piece × Xlat)} (h : ps ≠ []) :
    (s.storePart c ps).inflight = s.inflight ++ [partStores s c ps] ∧ (s.storePart c ps).waves = s.waves ∧
      (s.storePart c ps).cores = s.cores := by
  have hcaches : CachesOnly { s.newId.2 with inflight := s.inflight ++ [partStores s c ps] } (s.storePart c ps) :=
    cachesOnly_launchAccess s.newId.2 (partStores s c ps) (mt List.map_eq_nil_iff.mp h)
  exact ⟨hcaches.inflight, hcaches.waves, hcaches.cores⟩

/-! ## Checks that every address passes -/

section
variable {α : Type} {ps : List (Nat × Except LFault α)} (hps : ∀ p ∈ ps, ∃ a, p.2 = .ok a)
include hps

theorem filterMap_nil_of_ok {β : Type} (f : Nat × Except LFault α → Option β) (hf : ∀ p a, p.2 = .ok a → f p = none) :
    ps.filterMap f = [] :=
  List.filterMap_eq_nil_iff.mpr fun p hp => (hps p hp).elim fun a ha => hf p a ha

theorem firstFault_none (c : Ctx) (scalar : Bool) : c.firstFault ps scalar = none := by
  simp only [Ctx.firstFault]
  rw [filterMap_nil_of_ok hps]
  · rfl
  · intro p a ha
    rw [ha]

theorem pageLanes_nil : pageLanes ps = [] := filterMap_nil_of_ok hps _ fun p a ha => by rw [ha]

/-- An access of the whole part past all checks does what it is for, and the part goes on. -/
theorem wholewise_ok (s : State) (c : Ctx) (i : Instr) (go : List (Nat × α) → Except TrapRec State) :
    s.wholewise c i ps go = (go (okLanes ps)).map fun t => t.done c i := by
  rw [State.wholewise, firstFault_none hps, pageLanes_nil hps]

end

/-- What the checks of a list of accesses answer, in its order. -/
theorem okLanes_mapIdx {α β γ : Type} (ws : List α) (f : Nat → α → Nat × Except LFault β) (g : β → γ) (h : α → γ)
    (hf : ∀ k, ∀ x ∈ ws, ∃ b, (f k x).2 = .ok b ∧ g b = h x) : (okLanes (ws.mapIdx f)).map (fun x => g x.2) = ws.map h := by
  induction ws generalizing f with
  | nil => rfl
  | cons x ws ih =>
    obtain ⟨b, hb, hgb⟩ := hf 0 x List.mem_cons_self
    have htail := ih (fun k => f (k + 1)) fun k y hy => hf (k + 1) y (List.mem_cons_of_mem _ hy)
    rw [okLanes] at htail ⊢
    rw [List.mapIdx_cons, List.filterMap_cons, hb, List.map_cons, List.map_cons, htail, hgb]

/-- An address whose checks pass has its place in storage (R206). -/
theorem probe_of_memKey {s : State} {c : Ctx} {n va key : Nat} {need : Need} (h : memKey s c n need true va = some key) :
    ∃ x, s.probe c va n need true = .ok x ∧ x.key = key := by
  unfold memKey at h
  split at h
  · next x hx => exact ⟨x, hx, Option.some.inj h⟩
  · cases h

/-- Stores whose addresses pass their checks: each piece has its place, size and data. -/
theorem storePieces_checked {s : State} {c : Ctx} {ws : List (Nat × Nat × Nat)} {key : Nat × Nat × Nat → Nat}
    (h : ∀ x ∈ ws, memKey s c x.2.1 .wr true x.1 = some (key x)) :
    (∀ p ∈ s.storePieces c ws, ∃ a, p.2 = .ok a) ∧
      (okLanes (s.storePieces c ws)).map (fun x => (x.2.1.addr, x.2.1.n, x.2.1.x)) =
        ws.map fun x => (key x, x.2.1, BitVec.ofNat 64 x.2.2) := by
  constructor
  · intro p hp
    obtain ⟨k, hk, rfl⟩ := List.mem_mapIdx.mp hp
    obtain ⟨x, hx, -⟩ := probe_of_memKey (h _ (List.getElem_mem hk))
    exact ⟨_, by rw [hx]; rfl⟩
  · refine okLanes_mapIdx ws _ (fun b : Piece × Xlat => (b.1.addr, b.1.n, b.1.x)) _ fun k x hx => ?_
    obtain ⟨y, hy, hkey⟩ := probe_of_memKey (h x hx)
    exact ⟨_, by rw [hy]; rfl, congrArg (·, _) hkey⟩

end Sys2Proof
end

section
/-!
PROOF. Accumulator tiles as instructions see them (R72, R256 to R261): each instruction is one effect on the tiles, on the part's
pending results, on what is in flight or on its scale registers, and the part goes on.
-/
namespace Sys2Proof
open Machine

/-! ## Writing tiles: ACCZ and ACCWR (R256, R257) -/

theorem quiet_tileRun {s : State} {c : Ctx} {t n : Nat} (h : ∀ k < n, s.racing c (c.g.tileAt (t + k)) = false) :
    ∀ x ∈ tileRun c t n, s.racing c x = false := by
  intro x hx
  obtain ⟨k, hk, rfl⟩ := mem_tileRun.mp hx
  exact h k hk

/-- What an instruction that writes cells of its own quiet tiles answers: the part goes on, and the core's tiles hold the cells. -/
theorem tileWrite_of_issues {i : Instr} {s : State} {c : Ctx} {t : Nat} (n : Ctx → Nat)
    (cells : Ctx → List Nat → List (Nat × DWord)) (h : Issues i s c) (hown : ownsStore s c) (hn : t + n c ≤ c.g.tiles.length)
    (hq : tilesQuiet s c t (n c)) (hcore : c.w.core < s.cores.length)
    (hexec : exec i s = issue i s fun c => s.withTiles c t (n c) fun ts => .ok ((s.accWrite c ts (cells c ts)).done c i)) :
    ∃ u, exec i s = .next u ∧ AccGoesOn i s u c ∧
      (u.core c.w.core).tiles = (cells c (tileRun c t (n c))).foldl (fun m x => m.set x.1 x.2) (s.core c.w.core).tiles := by
  obtain ⟨hbad, hracing⟩ := hq
  let f : Core → Core := fun y => y.putCells (cells c (tileRun c t (n c)))
  have hbody : s.withTiles c t (n c) (fun ts => .ok ((s.accWrite c ts (cells c ts)).done c i)) = .ok ((s.updCore c.w.core f).done c i) := by
    rw [withTiles_of_owned hown hn, accWrite_quiet _ (quiet_tileRun hracing)]
  refine ⟨(s.updCore c.w.core f).done c i, hexec.trans (issue_ok h hbody), ⟨_, goesOn_done i h.part rfl rfl⟩, ?_⟩
  have hdone : ((s.updCore c.w.core f).done c i).core c.w.core = f (s.core c.w.core) := core_updCore s f hcore
  rw [hdone, putCells_tiles _ _ hbad]

theorem tilesCleared : Claims.TilesCleared := by
  intro s c w t n h hown hn hq hcore
  obtain ⟨u, hexec, hgoes, htiles⟩ := tileWrite_of_issues (fun _ => n.toNat + 1) (fun _ => zeroCells) h hown hn hq hcore rfl
  refine ⟨u, hexec, hgoes, fun k hk m hm j hj => ?_, fun x hx => ?_⟩
  · rw [tileEl_eq, htiles]
    refine get_foldl_set _ _ _ _ (mem_zeroCells.mpr ⟨?_, rfl⟩) fun y hy => (mem_zeroCells.mp hy).2
    rw [tileIx_div hm hj]
    exact mem_tileRun.mpr ⟨k, Nat.lt_succ_of_le hk, rfl⟩
  · rw [htiles]
    refine get_foldl_set_other _ _ _ fun y hy => ?_
    obtain ⟨k, hk, htile⟩ := mem_tileRun.mp (mem_zeroCells.mp hy).1
    exact hx k (Nat.le_of_lt_succ hk) htile.symm

/-- The value that ACCWR writes for row `m` of lane `l`. -/
def accwrValue (c : Ctx) (r : BitVec 7) (f : BitVec 1) (m l : Nat) : DWord :=
  if f = 1 then pair64 (c.v (r.toNat + 2 * m) l) (c.v (r.toNat + 2 * m + 1) l)
  else BitVec.ofNat 64 (Fmt.b64.round .rne false false (Fmt.b32.value (c.v (r.toNat + m) l).toNat))

theorem tilesWritten : Claims.TilesWritten := by
  intro s c w t r f h hown hn hq hnd hcore
  obtain ⟨u, hexec, hgoes, htiles⟩ :=
    tileWrite_of_issues Ctx.windows (fun c _ => laneCells c t.toNat (accwrValue c r f)) h hown hn hq hcore rfl
  have hcells : ∀ {k m j}, k < c.windows → m < 32 → j < 32 → ∀ y, (tileIx (c.g.tileAt (t.toNat + k)) m j, y) ∈
      laneCells c t.toNat (accwrValue c r f) ↔ bitAt c.m0 (c.winLane k j) = true ∧ y = accwrValue c r f m (c.winLane k j) :=
    mem_laneCells_tileIx hnd hn
  refine ⟨u, hexec, hgoes, fun k hk j hj m hm => ?_, fun x hx => ?_⟩
  · show tileEl u c (t.toNat + k) m j =
      if bitAt c.m0 (c.winLane k j) then accwrValue c r f m (c.winLane k j) else tileEl s c (t.toNat + k) m j
    rw [tileEl_eq, tileEl_eq, htiles]
    by_cases hbit : bitAt c.m0 (c.winLane k j) = true
    · rw [if_pos hbit]
      exact get_foldl_set _ _ _ _ ((hcells hk hm hj _).mpr ⟨hbit, rfl⟩) fun y hy => ((hcells hk hm hj y).mp hy).2
    · rw [if_neg hbit]
      exact get_foldl_set_other _ _ _ fun y hy => hbit ((hcells hk hm hj y).mp hy).1
  · rw [htiles]
    refine get_foldl_set_other _ _ _ fun y hy => ?_
    obtain ⟨k, hk, j, hj, -, m, hm, rfl, -⟩ := mem_laneCells.mp hy
    exact hx k hk (tileIx_div hm hj)

/-! ## Draining tiles (R72, R259, R260, R477) -/

/-- Without stochastic rounding an element is drained by the mode of the instruction, and 0xff in every byte of a poisoned tile. -/
theorem drainElem_eq {s : State} {c : Ctx} {r : BitVec 3} (hr : r ≠ 4) (ty : Ty) (t : Nat) {k m n : Nat} (hm : m < 32) (hn : n < 32) :
    s.drainElem c (fun ix => ((s.core c.w.core).tiles.get ix).toNat) ty (s.drainRnd r k) (tileIx (c.g.tileAt t) m n) =
      drained s c t ty.bits (drain c.scale ty (.ofCode r 0) (tileEl s c t m n).toNat) := by
  rw [State.drainElem, State.drainRnd, if_neg hr, tileIx_div hm hn, drained, tileEl_eq]

/-- The results of ACCRD: the words of `y k n m` for row `m` of each column whose lane is a lane of m0 (R259). -/
def drainWords (c : Ctx) (ty : Ty) (d : Nat) (y : Nat → Nat → Nat → Nat) : List (Nat × Word) :=
  (List.range c.windows).flatMap fun k => ((List.range 32).filter fun n => bitAt c.m0 (c.winLane k n)).flatMap fun n =>
    (List.range 32).flatMap fun m => (elemWords ty (y k n m)).mapIdx fun j z => (64 * (d + ty.regs * m + j) + c.winLane k n, z)

theorem mem_mapIdx_pair {α β : Type} {xs : List α} {g : Nat → β} {a : β} {z : α} :
    (a, z) ∈ xs.mapIdx (fun j z => (g j, z)) ↔ ∃ j, xs[j]? = some z ∧ a = g j := by
  simp only [List.mem_iff_getElem?, List.getElem?_mapIdx, Option.map_eq_some_iff, Prod.mk.injEq]
  constructor
  · rintro ⟨j, _, hj, rfl, rfl⟩
    exact ⟨j, hj, rfl⟩
  · rintro ⟨j, hj, rfl⟩
    exact ⟨j, z, hj, rfl, rfl⟩

theorem mem_drainWords {c : Ctx} {ty : Ty} {d : Nat} {y : Nat → Nat → Nat → Nat} {a : Nat} {z : Word} :
    (a, z) ∈ drainWords c ty d y ↔ ∃ k < c.windows, ∃ n < 32, bitAt c.m0 (c.winLane k n) = true ∧ ∃ m < 32, ∃ j,
      (elemWords ty (y k n m))[j]? = some z ∧ a = 64 * (d + ty.regs * m + j) + c.winLane k n := by
  simp only [drainWords, List.mem_flatMap, List.mem_filter, List.mem_range, mem_mapIdx_pair, and_assoc]

theorem elemWords_f32 (x : Nat) : elemWords .f32 x = [BitVec.ofNat 32 x] :=
  congrArg ([·]) (BitVec.eq_of_toNat_eq (by rw [BitVec.toNat_ofNat, BitVec.toNat_ofNat, show Ty.f32.bits = 32 from rfl, Nat.mod_mod]))

theorem elemWords_f64 (x : Nat) : elemWords .f64 x = [BitVec.ofNat 32 x, BitVec.ofNat 32 (x / 2 ^ 32)] := rfl

/-- The results of ACCRD stand in lanes of m0. -/
theorem lane_of_mem_drainWords {c : Ctx} {ty : Ty} {d : Nat} {y : Nat → Nat → Nat → Nat} {z : Nat × Word} (hz : z ∈ drainWords c ty d y) :
    bitAt c.m0 (z.1 % 64) = true := by
  obtain ⟨k, -, n, -, hbit, m, -, j, -, ha⟩ := mem_drainWords.mp hz
  have hlt : c.winLane k n < 64 := BitVec.lt_of_getLsbD hbit
  rwa [ha, Nat.mul_add_mod, Nat.mod_eq_of_lt hlt]

/-- The type that ACCRD drains into registers (R259). -/
def drainTy (f : BitVec 1) : Ty := if f = 1 then .f64 else .f32

/-- What ACCRD drains for row `m` of part lane 32 `k` + `n`. -/
def drainedAt (s : State) (c : Ctx) (t : BitVec 8) (f : BitVec 1) (r : BitVec 3) (k n m : Nat) : Nat :=
  s.drainElem c (fun ix => ((s.core c.w.core).tiles.get ix).toNat) (drainTy f) (s.drainRnd r (c.winLane k n))
    (tileIx (c.g.tileAt (t.toNat + k)) m n)

theorem accrdReg_exec {s : State} {c : Ctx} {r w : BitVec 3} {t : BitVec 8} {d : BitVec 7} {l : BitVec 4} {f : BitVec 1}
    (h : Issues (.accrdReg r w t d l f) s c) (hown : ownsStore s c) (hn : t.toNat + c.windows ≤ c.g.tiles.length)
    (hracing : ∀ k < c.windows, s.racing c (c.g.tileAt (t.toNat + k)) = false) (hr : r ≠ 4) :
    exec (.accrdReg r w t d l f) s =
      .next (s.pendNew c (.accrdReg r w t d l f) l (drainWords c (drainTy f) d.toNat (drainedAt s c t f r)) []) := by
  refine issue_ok h ?_
  rw [withTiles_of_owned hown hn, accRead_quiet (quiet_tileRun hracing)]
  dsimp only
  rw [State.drainDrawn, if_neg hr]
  rfl

theorem tilesDrained : Claims.TilesDrained := by
  intro s c r w t d l f h hown hn hracing hr
  obtain ⟨v, x, hpending, hquads, hvres, hsres⟩ :=
    pending_pendNew (.accrdReg r w t d l f) l (drainWords c (drainTy f) d.toNat (drainedAt s c t f r)) [] h.part rfl rfl
  refine ⟨_, v, x, accrdReg_exec h hown hn hracing hr, hpending, hquads, hsres, rfl, fun k hk n hn m hm hbit => ?_,
    fun z hz => lane_of_mem_drainWords (hvres ▸ hz)⟩
  have hmem : ∀ j z, (elemWords (drainTy f) (drainedAt s c t f r k n m))[j]? = some z →
      (64 * (d.toNat + (drainTy f).regs * m + j) + c.winLane k n, z) ∈ x.vres :=
    fun j z hz => hvres ▸ mem_drainWords.mpr ⟨k, hk, n, hn, hbit, m, hm, j, hz, rfl⟩
  rw [drainedAt, drainElem_eq hr _ _ hm hn] at hmem
  by_cases hf : f = 1
  · rw [drainTy, if_pos hf, elemWords_f64] at hmem
    dsimp only
    rw [if_pos hf]
    exact ⟨hmem 0 _ rfl, hmem 1 _ rfl⟩
  · rw [drainTy, if_neg hf, elemWords_f32] at hmem
    dsimp only
    rw [if_neg hf]
    have hfirst := hmem 0 _ rfl
    rw [show Ty.f32.regs = 1 from rfl, Nat.one_mul] at hfirst
    exact hfirst

/-! ## Storing a tile (R260) -/

/-- The stores of a drain to memory: address, size and value of element (m, n) at 32 m + n. -/
def tileStores (s : State) (c : Ctx) (r : BitVec 3) (t : BitVec 8) (a : BitVec 5) (ty : Ty) : List (Nat × Nat × Nat) :=
  (List.range 1024).map fun k => (((c.sp a).toNat + k * (ty.bits / 8)) % 2 ^ 64, ty.bits / 8,
    s.drainElem c (fun ix => ((s.core c.w.core).tiles.get ix).toNat) ty (s.drainRnd r (k % 32)) (tileIx (c.g.tileAt t.toNat) (k / 32) (k % 32)))

theorem accrdMem_exec {s : State} {c : Ctx} {r w : BitVec 3} {t : BitVec 8} {a y : BitVec 5} {ty : Ty}
    (h : Issues (.accrdMem r w t a y) s c) (hty : Ty.ofCode y = some ty) (hown : ownsStore s c) (ht : t.toNat < c.g.tiles.length)
    (hracing : s.racing c (c.g.tileAt t.toNat) = false) (hr : r ≠ 4) (halign : (c.sp a).toNat % 16 = 0)
    (hok : ∀ p ∈ s.storePieces c (tileStores s c r t a ty), ∃ x, p.2 = .ok x) :
    exec (.accrdMem r w t a y) s =
      .next ((s.storePart c ((okLanes (s.storePieces c (tileStores s c r t a ty))).map (·.2))).done c (.accrdMem r w t a y)) := by
  refine issue_ok h ?_
  have hquiet : ∀ k < 1, s.racing c (c.g.tileAt (t.toNat + k)) = false := fun k hk => by
    obtain rfl : k = 0 := Nat.lt_one_iff.mp hk
    exact hracing
  rw [withTiles_of_owned hown ht, accRead_quiet (quiet_tileRun hquiet)]
  dsimp only
  rw [hty]
  dsimp only
  rw [if_neg (not_not_intro halign), State.drainDrawn, if_neg hr]
  exact wholewise_ok hok s c _ _

theorem tilesStored : Claims.TilesStored := by
  intro s c r w t a y ty h hty hown ht hracing hr halign key hkey
  have hkeys : ∀ x ∈ tileStores s c r t a ty, memKey s c x.2.1 .wr true x.1 = some ((memKey s c x.2.1 .wr true x.1).getD 0) := by
    intro x hx
    obtain ⟨k, hk, rfl⟩ := List.mem_map.mp hx
    rw [hkey k (List.mem_range.mp hk), Option.getD_some]
  obtain ⟨hok, hpieces⟩ := storePieces_checked hkeys
  let ps := (okLanes (s.storePieces c (tileStores s c r t a ty))).map (·.2)
  have hlen : ps.length = 1024 := by
    have := congrArg List.length hpieces
    rw [List.length_map, List.length_map] at this
    rw [List.length_map, this, tileStores, List.length_map, List.length_range]
  have hne : ps ≠ [] := List.ne_nil_of_length_pos (by rw [hlen]; decide)
  obtain ⟨hinflight, hwaves, hcores⟩ := storePart_inflight s c hne
  refine ⟨_, partStores s c ps, accrdMem_exec h hty hown ht hracing hr halign hok,
    ⟨_, goesOn_done _ h.part hwaves (State.storePart_mem ..)⟩, (done_cores ..).trans hcores, (done_inflight ..).trans hinflight,
    rfl, rfl, rfl, rfl, ?_⟩
  rw [tileStores, List.map_map] at hpieces
  rw [partStores, List.map_map, List.map_map]
  refine hpieces.trans (List.map_congr_left fun k hk => ?_)
  have hk := List.mem_range.mp hk
  dsimp only [Function.comp]
  rw [hkey k hk, Option.getD_some, drainElem_eq hr _ _ (by omega) (by omega)]

/-! ## The scale registers (R258) -/

/-- An instruction that writes beside the scalars and the phase of its part's copies: moving on and writing do not meet. -/
theorem bankWrite_of_issues {i : Instr} {s : State} {c : Ctx} {f : Ctx → QBank → QBank} (h : Issues i s c)
    (hf : ∀ b p, f c { b with phase := p } = { f c b with phase := p })
    (hexec : exec i s = issueWave i s fun c => c.setBank c.w (f c)) :
    ∃ t v v0, exec i s = .next t ∧ Leaves s t c v ∧ MovedPast i c v ∧
      RegFrame c v0 (fun _ => False) (fun _ _ => False) (fun _ _ => False) ∧ v = c.setBank v0 (f c) := by
  have hframe : RegFrame c (c.advance i c.w) (fun _ => False) (fun _ _ => False) (fun _ _ => False) := (RegFrame.refl _ _ _ _).advance i
  have hid : (c.advance i (c.setBank c.w (f c))).wid = c.w.wid := by rw [advance_setBank hf, Ctx.setBank_wid, hframe.rest]
  exact ⟨_, _, c.advance i c.w, hexec.trans (issueWave_ok h _),
    ⟨hid ▸ OnlyWave.setWave, State.wave?_setWave_same (ctx_of h.part).1 hid⟩,
    movedPast_advance h.part i _ (split_setBank _ _ _) (handler_pc_setBank _ _ _), hframe, advance_setBank hf c i c.w⟩

theorem setscA_word (w : BitVec 3) (a : BitVec 6) :
    (encodeWord (.setscA w a)).toNat = 0x38 * 2 ^ 26 + 7 * 2 ^ 23 + w.toNat * 2 ^ 20 + a.toNat * 2 ^ 6 := by
  simp only [encodeWord, toNat_append_add, BitVec.toNat_ofNat]; omega

theorem setscB_word (w : BitVec 3) (a : BitVec 6) :
    (encodeWord (.setscB w a)).toNat = 0x38 * 2 ^ 26 + 7 * 2 ^ 23 + w.toNat * 2 ^ 20 + 2 ^ 19 + a.toNat * 2 ^ 6 := by
  simp only [encodeWord, toNat_append_add, BitVec.toNat_ofNat]; omega

theorem scalesSet : Claims.ScalesSet :=
  ⟨fun _ _ _ _ h => bankWrite_of_issues h (fun _ _ => rfl) rfl, fun _ _ _ _ h => bankWrite_of_issues h (fun _ _ => rfl) rfl,
    setscA_word, setscB_word⟩

/-- Settles O46: ACCZ and ACCWR write the cells of their tiles, ACCRD is pending or has its stores in flight, SETSC writes every copy. -/
theorem accumulatorResults : Obligations.AccumulatorResults := ⟨tilesCleared, tilesWritten, tilesDrained, tilesStored, scalesSet⟩

end Sys2Proof
end
